-- ==== Sys2Proof/Word.lean ====
section
/-! DEFINITION. The byte and the plainest whole-number arithmetic of the controller: the spec's quantities are whole
numbers with stated ranges (spec/00_scope.md, 1.6), so they are `Nat`, and bytes that stand in the copy store or on
the galley line are `Byte`. -/

namespace Sys2Proof

/-- One byte of the copy store or of the galley line. -/
abbrev Byte := BitVec 8

/-- `n` brought into `lo..hi`. -/
def clamp (lo hi n : Nat) : Nat := max lo (min hi n)

/-- A counter of top `top` raised by `k`: it stays at its top once it reaches it (R58, R137, R176). -/
def satAdd (top n k : Nat) : Nat := min top (n + k)

/-- A generation count raised by one, counting from 65,535 back to 0 (R29, R78). -/
def wrap16 (n : Nat) : Nat := (n + 1) % 65536

/-- The least whole number not less than `n / d`. -/
def ceilDiv (n d : Nat) : Nat := (n + d - 1) / d

/-- The members of a list, each once, in the order of their first places. -/
def distinct (l : List Nat) : List Nat :=
  l.foldl (fun acc x => if acc.contains x then acc else acc ++ [x]) []

end Sys2Proof
end

