-- ==== Sys2Proof/Config.lean ====
section
/-! DEFINITION. The figures the spec fixes for the part (spec/00_scope.md 1.3 and the rules named at each), and the one
free value of the model. -/

namespace Sys2Proof.Config

/-- FREE VALUE: the number that stands for the `n`-th moment the controller takes note of. The stop record keeps the
moment a stop was raised (chapter 8, section 8.1) and the spec gives moments no number. Log 9. -/
opaque moment : Nat → Nat

/-- Take records a station may hold (R179). -/
def maxTakes : Nat := 8
/-- Blocks of the copy store, and bytes to a block (R180). -/
def copyBlocks : Nat := 128
def blockBytes : Nat := 256
/-- The longest copy of a take (R1). -/
def maxCopy : Nat := 16384
/-- Distinct fonts the held takes may name (R181), as many as there are width slots (section 2.2). -/
def maxFonts : Nat := 12
/-- Local exceptions examined in a preamble (R3). -/
def maxLocalExceptions : Nat := 16
/-- Line records of the store, and items of its pool (R80). -/
def storeLines : Nat := 64
def storeItems : Nat := 4096
/-- Items a line may hold (R42, R43). -/
def lineItems : Nat := 512
/-- Galley records of the manifest (R137), and records to a MANIFEST notice (R138). -/
def manifestRecords : Nat := 64
def manifestChunk : Nat := 16
/-- Frames of the transmit queue (R170) and windows of the window table (R172). -/
def queueFrames : Nat := 8
def maxWindows : Nat := 4
/-- Bit times for which an abort drives the line asserted (R165). -/
def abortBits : Nat := 12
/-- Idle slots to a lapse (R175, R25). -/
def lapseSlots : Nat := 520
/-- Entries of the exception dictionary (R73) and patterns of the pattern set (R68). -/
def dictEntries : Nat := 512
def maxPatterns : Nat := 4096
/-- Film is low below this many steps, and the count assumed after power-on (R128, R129). -/
def lowFilm : Nat := 57000
/-- The trailer, which is the trailer reserve (R131, R134). -/
def trailer : Nat := 1440
/-- Data bytes to a COPY frame (R178, R194). -/
def copyData : Nat := 235
/-- The tops of two-byte and three-byte counters (R58, R137, R176). -/
def top16 : Nat := 65535
def top24 : Nat := 16777215
/-- The highest next line number a context record may bring to a pass (R18). -/
def lineNumberCap : Nat := 49152
/-- The target photocell reading and the correction's range (R122, R124). -/
def lampTarget : Nat := 512
def lampLow : Nat := 512
def lampHigh : Nat := 2047
/-- The correction at which the base durations stand (R122). -/
def lampUnity : Nat := 1024

end Sys2Proof.Config
end

