-- ==== Sys2Proof/Syntax.lean ====
section
/-! DEFINITION. The commands of the controller: one constructor of `Instr` for each row of spec/opcode_table.json, with
the values that reach the controller with it. Frame commands carry the header's sender and addressee and the
payload's fields as R178 lays them out; the Compositor's reading steps carry nothing, since the byte read stands in
the copy store (R5, Log 6). -/

namespace Sys2Proof

/-- A take key: origin station and take number (R178, R179). -/
structure Key where
  origin : Nat
  number : Nat
deriving DecidableEq, Repr

/-- The sender and the addressee of a received frame (R162). -/
structure Header where
  sender : Nat
  addressee : Nat
deriving DecidableEq, Repr

/-- The composition context (R16), which is also the context record kept with lines and carried in OFFERs (R178).
`mode` is the code 0 justify, 1 left, 2 right, 3 center; a record received may hold another until R18 is applied. -/
structure Context where
  resume : Nat
  font : Nat
  size : Nat
  measure : Nat
  indent : Nat
  leading : Nat
  mode : Nat
  sbMin : Nat
  sbOpt : Nat
  sbMax : Nat
  letterspace : Nat
  hyph : Bool
  caps : Bool
  ladderLimit : Nat
  ladderCount : Nat
  nextLine : Nat
  galleySeq : Nat
deriving DecidableEq, Repr

/-- The payload of an OFFER (R178), its two flag bytes, class, mode and font count as the bytes sent. -/
structure OfferMsg where
  key : Key
  cls : Nat
  mode : Nat
  continuation : Nat
  scarce : Nat
  copyLen : Nat
  film : Nat
  fontCount : Nat
  fonts : List Nat
  context : Option Context
deriving DecidableEq, Repr

/-- The strap pins (R199). -/
structure Straps where
  station : Fin 16
  lineRate : Fin 4
  proofRate : Fin 4
deriving DecidableEq, Repr

/-- The three doors of the photo unit (section 8.1). -/
inductive Door where
  | photo | takeup | cassette
deriving DecidableEq, Repr

/-- The levels on the controller's inputs (spec/00_scope.md, 1.4). `tabs` are the eight seat-code readings. -/
structure Pins where
  straps : Straps
  tabs : List Nat
  cassette : Fin 4
  paper : Bool
  busy : Bool
  photoOpen : Bool
  takeupOpen : Bool
  cassetteOpen : Bool
deriving DecidableEq, Repr

/-- One pattern record: its letter string and its values (R68). -/
structure Pattern where
  letters : List Nat
  values : List Nat
deriving DecidableEq, Repr

/-- What a settings ROM that answers gives: the bytes before its check, the check, and what those bytes hold (R200).
The spec does not lay the ROM's bytes out, so the fields stand beside the bytes (Log 10). -/
structure Rom where
  bytes : List Byte
  check : Nat
  patternCount : Nat
  patterns : List Pattern
  bases : List Nat
  kp : Nat
  ki : Nat
deriving DecidableEq, Repr

/-- The mechanisms whose moves time out by MOVE_TIMEOUT (R103, R104). -/
inductive Mover where
  | turret | lens | carriage
deriving DecidableEq, Repr

/-- The subject of a window or of a lapse watch: a take key or a font (R172, R175). -/
inductive Subject where
  | take (key : Key)
  | font (font : Nat)
deriving DecidableEq, Repr

/-- The commands, in the order of spec/opcode_table.json. -/
inductive Instr where
  /-- POWER_ON (R201), with the levels on the inputs. -/
  | powerOn (pins : Pins)
  /-- RESET (R201), with the strap pins as the restarted start-up reads them. -/
  | reset (h : Header) (straps : Straps)
  /-- ROM_READ_DONE (R200); no ROM answers where the operand is `none`. -/
  | romReadDone (rom : Option Rom)
  /-- KILL (R191). -/
  | kill (h : Header) (key : Key)
  /-- CLAIM (R194). -/
  | claim (h : Header) (key : Key) (cost : Nat)
  /-- WIDTH_TABLE (R28). -/
  | widthTable (h : Header) (font revision : Nat) (widths : List Nat)
  /-- TAKEN (R194). -/
  | taken (h : Header) (key : Key)
  /-- REFUSED (R194). -/
  | refused (h : Header) (key : Key) (reason : Nat)
  /-- APPROVE (R190). -/
  | approve (h : Header) (key : Key)
  /-- WIDTH_ASK (R30). -/
  | widthAsk (h : Header) (font : Nat)
  /-- OFFER (R181). -/
  | offer (h : Header) (msg : OfferMsg)
  /-- COPY (R184). -/
  | copy (h : Header) (key : Key) (offset : Nat) (data : List Byte)
  /-- COPY_END (R185). -/
  | copyEnd (h : Header) (key : Key) (total : Nat)
  /-- EXCEPTION_ADD (R75): the payload's bytes after the operation byte. -/
  | exceptionAdd (h : Header) (body : List Nat)
  /-- EXCEPTION_DELETE (R77): the payload's bytes after the operation byte. -/
  | exceptionDelete (h : Header) (body : List Nat)
  /-- ANNOUNCE (R169), with its payload. -/
  | announce (h : Header) (payload : List Nat)
  /-- NOTICE (R169), with its payload. -/
  | notice (h : Header) (payload : List Nat)
  /-- BROKEN_FRAME (R166). -/
  | brokenFrame
  /-- BAD_FRAME (R167). -/
  | badFrame
  /-- START_POINT (R164). -/
  | startPoint
  /-- ARBITRATION_LOST (R164). -/
  | arbitrationLost
  /-- FRAME_SENT (R165). -/
  | frameSent
  /-- FRAME_ABORTED (R165). -/
  | frameAborted
  /-- IDLE_SLOT (R173). -/
  | idleSlot
  /-- WINDOW_EXPIRED (R173): the claim window of a key or the answer window of a font. -/
  | windowExpired (subject : Subject)
  /-- ROOM_GIVEN (R171). -/
  | roomGiven
  /-- LAPSE (R175): the watch on the OFFER of a key or on the WIDTH-ASK of a font. -/
  | lapse (subject : Subject)
  /-- FONT (R9). -/
  | font
  /-- SIZE (R10). -/
  | size
  /-- LEAD (R11). -/
  | lead
  /-- MEASURE (R11). -/
  | measure
  /-- INDENT (R11). -/
  | indent
  /-- SPACEBAND (R12). -/
  | spaceband
  /-- LETTERSPACE (R12). -/
  | letterspace
  /-- LADDER (R12). -/
  | ladder
  /-- MODE (R13). -/
  | mode
  /-- HYPH (R13). -/
  | hyph
  /-- CAPS (R13). -/
  | caps
  /-- ENDPARA (R14). -/
  | endpara
  /-- EMSPACE (R15). -/
  | emspace
  /-- ENSPACE (R15). -/
  | enspace
  /-- THINSPACE (R15). -/
  | thinspace
  /-- NBSPACE (R15). -/
  | nbspace
  /-- DISC (R15). -/
  | disc
  /-- CHARACTER (R7). -/
  | character
  /-- WORD_SPACE (R6). -/
  | wordSpace
  /-- RUBOUT (R5). -/
  | rubout
  /-- UNKNOWN_BYTE (R5). -/
  | unknownByte
  /-- END_OF_COPY (R14). -/
  | endOfCopy
  /-- PROOF_LINE_SENT (R89). -/
  | proofLineSent
  /-- BUSY (R87): the input's new level. -/
  | busy (asserted : Bool)
  /-- PAPER (R88): whether the input shows paper. -/
  | paper (present : Bool)
  /-- BUSY_STALL (R88). -/
  | busyStall
  /-- PAPER_TIMER (R94). -/
  | paperTimer
  /-- SEAT_INDEX (R103): the seat read at the optical path. -/
  | seatIndex (seat : Fin 8)
  /-- LENS_INDEX (R103): the lens read in the path. -/
  | lensIndex (lens : Fin 12)
  /-- POSITION (R104), with the seat and cassette readings that a survey after homing takes at this event (R102,
  R128, Log 11). -/
  | position (tabs : List Nat) (cassette : Fin 4)
  /-- FLASH_DONE (R114): the photocell reading. -/
  | flashDone (reading : Fin 1024)
  /-- MOVE_TIMEOUT (R103): the mechanism whose move timed out. -/
  | moveTimeout (mover : Mover)
  /-- FLASH_TIMEOUT (R114). -/
  | flashTimeout
  /-- HOMING_TIMEOUT (R105). -/
  | homingTimeout
  /-- PHOTO_UNIT_DOOR_OPEN (R116). -/
  | photoUnitDoorOpen
  /-- PHOTO_UNIT_DOOR_CLOSE (R117), with the seat codes its survey reads. -/
  | photoUnitDoorClose (tabs : List Nat)
  /-- ADVANCE_DONE (R132). -/
  | advanceDone
  /-- ADVANCE_TIMEOUT (R132). -/
  | advanceTimeout
  /-- CUT_EVENT (R134). -/
  | cutEvent
  /-- CUTTER_TIMEOUT (R134). -/
  | cutterTimeout
  /-- CASSETTE_DOOR_OPEN (R136). -/
  | cassetteDoorOpen
  /-- CASSETTE_DOOR_CLOSE (R128): the cassette code read. -/
  | cassetteDoorClose (code : Fin 4)
  /-- TAKEUP_DOOR_OPEN (R138). -/
  | takeupDoorOpen
  /-- TAKEUP_DOOR_CLOSE (R138). -/
  | takeupDoorClose
  /-- LAMP_CHANGE_SWITCH (R126). -/
  | lampChangeSwitch
  /-- WARM_UP_TIMER (R120). -/
  | warmUpTimer
  /-- RUN_KEY (R203). -/
  | runKey
  /-- HOLD_KEY (R203). -/
  | holdKey
  /-- CLEAR_KEY (R152). -/
  | clearKey
  /-- CUT_KEY (R140). -/
  | cutKey
  /-- MOUNT_KEY (R119). -/
  | mountKey
  /-- FONT_CALL_TIMER (R145). -/
  | fontCallTimer
  /-- FILM_OUT_TIMER (R146). -/
  | filmOutTimer
  /-- STANDBY_TIMER (R204). -/
  | standbyTimer
  /-- STALL_TIMER (R185): the record whose timer expires. -/
  | stallTimer (key : Key)
  /-- AGING_TIMER (R188): the record whose timer expires. -/
  | agingTimer (key : Key)
  /-- TAKEN_WAIT (R194): the record whose wait expires. -/
  | takenWait (key : Key)
  /-- STRAND_TURN (R195): the record whose turn expires. -/
  | strandTurn (key : Key)
  /-- IDLE_GAP (R163). -/
  | idleGap
  /-- PROOF_CHARACTER_SENT (R87). -/
  | proofCharacterSent
deriving DecidableEq, Repr

end Sys2Proof
end

