-- ==== Sys2Proof/Machine/Frames.lean ====
section
/-! DEFINITION. The Line Interface's checks of a received frame (R167), over the fields that R178 lays out. A field that
is one or two bytes on the line is held to what those bytes can carry. -/

namespace Sys2Proof.Machine

/-- The value fits one byte, or two bytes, of a payload (R178). -/
def isByte (n : Nat) : Bool := n < 256
def isWord (n : Nat) : Bool := n < 65536

/-- A received header: the sender is not 15 (R167), and the addressee is a byte. -/
def headerOk (h : Header) : Bool := decide (h.sender < 15) && isByte h.addressee

/-- A take key: its origin lies within 0..14 (R167), its number in two bytes. -/
def keyOk (k : Key) : Bool := decide (k.origin < 15) && isWord k.number

/-- A font number 1 to 999 (R19, R167). -/
def fontOk (f : Nat) : Bool := decide (1 ≤ f) && decide (f ≤ 999)

/-- Every field of a context record fits the bytes R178 gives it. Its ranges are not checked here (R167). -/
def contextOk (c : Context) : Bool :=
  isWord c.resume && isWord c.font && isByte c.size && isWord c.measure && isWord c.indent && isByte c.leading &&
  isByte c.mode && isByte c.sbMin && isByte c.sbOpt && isByte c.sbMax && isByte c.letterspace &&
  isByte c.ladderLimit && isByte c.ladderCount && isWord c.nextLine && isWord c.galleySeq

/-- The checks R167 makes of an OFFER. -/
def offerOk (m : OfferMsg) : Bool :=
  keyOk m.key && decide (m.cls ≤ 3) && decide (m.mode ≤ 1) && decide (m.continuation ≤ 1) && decide (m.scarce ≤ 1) &&
  decide (1 ≤ m.copyLen) && decide (m.copyLen ≤ Config.maxCopy) && decide (m.film ≤ Config.top24) &&
  decide (1 ≤ m.fontCount) && decide (m.fontCount ≤ 8) && m.fonts.all fontOk &&
  decide (m.fonts.length = m.fontCount) && (m.context.isSome == decide (m.continuation = 1)) &&
  (match m.context with
   | none => true
   | some c => contextOk c)

/-- A COPY: 1 to 235 data bytes, and offset plus data length at most 16,384 (R167, R178). -/
def copyOk (k : Key) (offset : Nat) (data : List Byte) : Bool :=
  keyOk k && decide (1 ≤ data.length) && decide (data.length ≤ Config.copyData) &&
  decide (offset + data.length ≤ Config.maxCopy)

/-- What R167 asks of the command's frame; a command that is no frame has nothing to be checked. A WIDTH-TABLE has its length
and its fields' sizes checked here, and an EXCEPTION its fields' sizes and the 3 bytes that its layout has at least (R178), its
operation among them: their form is checked by their own blocks (R19, R74). A NOTICE may have any length from its code and key,
4 bytes, up to the longest payload (DESIGN CHOICE, Log 60). -/
def frameOk : Instr → Bool
  | .reset h _ => headerOk h
  | .kill h k | .taken h k | .approve h k => headerOk h && keyOk k
  | .claim h k cost => headerOk h && keyOk k && decide (cost ≤ 31)
  | .widthTable h f r ws => headerOk h && isWord f && isByte r && ws.all isByte && decide (ws.length = 223)
  | .refused h k r => headerOk h && keyOk k && isByte r
  | .widthAsk h f => headerOk h && fontOk f
  | .offer h m => headerOk h && offerOk m
  | .copy h k o d => headerOk h && copyOk k o d
  | .copyEnd h k t => headerOk h && keyOk k && decide (1 ≤ t) && decide (t ≤ Config.maxCopy)
  | .exceptionAdd h b | .exceptionDelete h b => headerOk h && b.all isByte && decide (2 ≤ b.length) && decide (b.length + 1 ≤ 240)
  | .announce h p => headerOk h && p.all isByte && decide (p.length = 26)
  | .notice h p => headerOk h && p.all isByte && decide (4 ≤ p.length) && decide (p.length ≤ 240)
  | _ => true

end Sys2Proof.Machine
end

