-- ==== Sys2Proof/WellFormed.lean ====
section
/-! DEFINITION. Well-formed commands: a frame command is well formed when its frame passes the Line Interface's checks
(R167), a command that carries the seat readings when it carries eight, and a ROM image when it has twelve base
durations (R121, R200). The machine itself is total: it treats an ill-formed frame as the bad frame it is (Log 39). -/

namespace Sys2Proof

/-- Eight seat-code readings (R102). -/
def tabsOk (tabs : List Nat) : Bool := decide (tabs.length = 8)

/-- A ROM image with as many base durations as there are lenses, and a check of two bytes (R200). -/
def romOk (r : Rom) : Bool := decide (r.bases.length = 12) && decide (r.check < 65536)

/-- The command is one the outside can send. -/
def Instr.wellFormed (i : Instr) : Bool :=
  Machine.frameOk i &&
  match i with
  | .powerOn p => tabsOk p.tabs
  | .romReadDone (some r) => romOk r
  | .position tabs _ => tabsOk tabs
  | .photoUnitDoorClose tabs => tabsOk tabs
  | _ => true

end Sys2Proof
end

