-- ==== Sys2Proof/Decode.lean ====
section
/-! DEFINITION. Reading a command from a word of the table's bits. The table gives no row any bits (every row's "fields"
is empty and no row has a "fixed" pattern), so no word spells a command. Commands that arrive as frames are read from
their bytes by `Machine.received` in Machine/Wire.lean. -/

namespace Sys2Proof

/-- The command that the word `w` of `nbits` bits spells by the table's bits: none, since no row gives bits. -/
def decodeTableWord (_nbits _w : Nat) : Option Instr := none

end Sys2Proof
end

