-- ==== Sys2Proof/Machine/State.lean ====
section
/-! DEFINITION. The state of the controller as plain data, block by block (spec/00_scope.md, 1.2), the reasons a step may
stop, and the state after power-on. -/

namespace Sys2Proof.Machine

/-- Reasons for a step to stop with a fault. There is none: the controller's own faults (R150) are next states, and the
spec gives every command an effect or says that it is ignored. -/
inductive Fault where
deriving DecidableEq, Repr

/-- Reasons for a step to be refused. -/
inductive Refusal where
  /-- Raised by `exec` for a command that has no meaning yet. Safe: nothing is said of what the command does. -/
  | notModelled (mnemonic : String)
deriving DecidableEq, Repr

/-! ### Codes the blocks share (R178) -/

/-- The kinds of a pass (R35). -/
inductive PassKind where
  | film | proof
deriving DecidableEq, Repr

/-- The kinds of a header (R92), which are also the pass codes of notices (R178). -/
inductive HeaderKind where
  | film | proof | reproof | resumed
deriving DecidableEq, Repr

/-- The station states (R142). -/
inductive StationState where
  | start | run | standby | hold | stopped | fault | halt
deriving DecidableEq, Repr

/-- The kinds of a stop (section 8.1). -/
inductive StopKind where
  | fontCall | filmOut | door | takeupFull | mechanism | lamp
deriving DecidableEq, Repr

/-- The mechanisms a MECHANISM fault names (section 8.1). -/
inductive Mech where
  | turret | lens | carriage | flash | film | cutter
deriving DecidableEq, Repr

/-- The reasons of a park (R154). -/
inductive ParkReason where
  | fontCall (font : Nat) | repeated | filmOut | fault
deriving DecidableEq, Repr

/-- The reasons of a release, in the order in which they stand (R193). -/
inductive ReleaseReason where
  | halt | fault | filmOut | widths | repeated
deriving DecidableEq, Repr

/-- The states of a take (R179). -/
inductive TakeState where
  | receiving | queued | active | proofHold | parked | releasing | stranded
deriving DecidableEq, Repr

/-- The timer a take record runs (R179). -/
inductive TakeTimer where
  | stall | aging | takenWait | strandTurn
deriving DecidableEq, Repr

/-- A take's proof state (R86). -/
inductive ProofState where
  | complete | partialFrom (line : Nat) | none
deriving DecidableEq, Repr

/-- The causes of a reset (R201). -/
inductive ResetCause where
  | powerOn | lineReset
deriving DecidableEq, Repr

/-! ### Galleys (R133) -/

structure GalleyFlags where
  complete : Bool
  continuedFrom : Bool
  continuedTo : Bool
  spoiled : Option Nat
  killed : Bool
  reset : Bool
  uncut : Bool
deriving DecidableEq, Repr

/-- A galley's record (R133): open in Film Transport, closed in the manifest (R137). -/
structure Galley where
  key : Key
  seq : Nat
  first : Nat
  last : Option Nat
  length : Nat
  flags : GalleyFlags
deriving DecidableEq, Repr

/-! ### Frames the controller sends (R162, R178) -/

/-- A take's counters (R58, R2, R10, R137). -/
structure Counters where
  lines : Nat
  hyphenated : Nat
  loose : Nat
  letterspaced : Nat
  overset : Nat
  absent : Nat
  substituted : Nat
  copyErrors : Nat
  clamped : Nat
  galleys : Nat
  filmUsed : Nat
deriving DecidableEq, Repr

/-- The counter block of TAKE-DONE and TAKE-KILLED (R178). -/
structure CounterBlock where
  counters : Counters
  proofState : ProofState
  widthsChanged : Bool
  widthGen : Nat
  broken : Nat
  bad : Nat
  lost : Nat
deriving DecidableEq, Repr

/-- The notices with their data (R178, R206). -/
inductive NoticeBody where
  | takeStart (pass : HeaderKind) (cls line : Nat)
  | takeDone (block : CounterBlock)
  | takeParked (reason : ParkReason) (line seq : Nat)
  | takeReleased (claimant : Nat)
  | takeKilled (state : TakeState) (block : CounterBlock)
  | fontCall (line font : Nat)
  | stop (kind : StopKind) (line : Nat) (door : Option Door)
  | fault (kind : StopKind) (mech : Option Mech) (earlier : Option StopKind) (further : Bool) (line : Nat)
  | halt (mech : Mech) (atClear : Bool)
  | filmLow (remaining : Nat) (known : Bool)
  | proofPaper (pass : Option HeaderKind) (abandoned : Bool)
  | dictFull (word : List Nat)
  | manifest (number total : Nat) (records : List Galley)
  | lampWeak (c run : Nat)
  | reproof
  | stranded (scarce : Bool)
deriving DecidableEq, Repr

/-- What an ANNOUNCE carries (R178, R202). -/
structure Announcement where
  cause : ResetCause
  seats : List Nat
  filmKnown : Bool
  filmRemaining : Nat
  patternsValid : Bool
  patternCount : Nat
  romGood : Bool
  paperOut : Bool
deriving DecidableEq, Repr

/-- A frame of one of the ten kinds the controller sends (R162). -/
inductive TxFrame where
  | claim (key : Key) (cost : Nat)
  | widthTable (font revision : Nat) (widths : List Nat)
  | taken (key : Key) (dest : Nat)
  | refused (key : Key) (dest reason : Nat)
  | widthAsk (font : Nat)
  | offer (msg : OfferMsg)
  | copyEnd (key : Key) (dest total : Nat)
  | copy (key : Key) (dest offset : Nat) (data : List Byte)
  | announce (a : Announcement)
  | notice (key : Option Key) (body : NoticeBody)
deriving DecidableEq, Repr

/-- A place of the transmit queue: its frame, and whether its first bit has been sent (R170). -/
structure TxEntry where
  frame : TxFrame
  begun : Bool
deriving DecidableEq, Repr

/-! ### Line Interface -/

/-- Where the line stands for this station (R163, R164, R166): treated as busy until 12 released bits are seen (after a
reset, and after a broken or bad frame), a gap due after a frame, free with the gap complete, this station sending, receiving
the frame that won the arbitration, or aborting its own frame, with a gap due after the abort (R165, Log 66). -/
inductive LinePhase where
  | unsynced | gapDue | free | sending | receiving | aborting
deriving DecidableEq, Repr

/-- What a window is for (R172): a claim for an offer heard, with its sender and cost, or an answer for a font. -/
inductive WindowFor where
  | claim (sender : Nat) (msg : OfferMsg) (cost : Nat)
  | answer (font : Nat)
deriving DecidableEq, Repr

/-- A window (R172); `queued` once its frame has been handed to the transmit queue. -/
structure Window where
  what : WindowFor
  slots : Nat
  queued : Bool
deriving DecidableEq, Repr

/-- A lapse watch (R175), with the idle slots still to come. -/
structure Watch where
  subject : Subject
  slots : Nat
deriving DecidableEq, Repr

structure LineInterface where
  phase : LinePhase
  queue : List TxEntry
  waiting : List TxFrame
  windows : List Window
  watches : List Watch
  broken : Nat
  bad : Nat
  lost : Nat
  mute : Bool
deriving DecidableEq, Repr

/-! ### Take Queue -/

/-- An entry of the exception dictionary or of a take's local exceptions (R4, R73). -/
structure ExceptionEntry where
  word : List Nat
  positions : List Nat
deriving DecidableEq, Repr

/-- The start values of a PROOF pass and the proof generation record (R96). A font with no VALID slot has no revision. -/
structure GenRecord where
  dict : Nat
  revisions : List (Option Nat)
  mixed : Bool
deriving DecidableEq, Repr

/-- A take record (R179). The list of records stands in claim order. -/
structure Take where
  key : Key
  cls : Nat
  proofFirst : Bool
  fonts : List Nat
  copyLen : Nat
  sender : Nat
  received : Nat
  blocks : List Nat
  reserved : List Nat
  mismatched : Bool
  film : Nat
  preLen : Nat
  preErrors : Nat
  exceptions : List ExceptionEntry
  context : Option Context
  state : TakeState
  widthsReady : Bool
  approved : Bool
  approvalPending : Bool
  reproof : Bool
  scarce : Bool
  widthsChanged : Bool
  copyComplete : Bool
  startValues : Option GenRecord
  proofGen : Option GenRecord
  counters : Counters
  proofState : ProofState
  /-- The proof of the take has been dropped by a paper-out in a FILM pass at this station (R93, Log 45). -/
  proofDropped : Bool
  /-- The line counted by the line stop count, with the count (R144). -/
  lineStop : Option (Nat × Nat)
  parkReason : Option ParkReason
  release : Option ReleaseReason
  tries : Nat
  claimant : Option Nat
  timer : Option TakeTimer
  /-- Stations sent a COPY-END of this take in the present release (R196). -/
  sentEnd : List Nat
  /-- The next byte of the released copy to be handed over, while it is being sent (R194). -/
  sending : Option Nat
  /-- STRANDED and waiting to be offered again (R193, R195). -/
  offerDue : Bool
  /-- The offer in progress follows a strand turn (R195). -/
  reoffer : Bool
  /-- The fonts of the asks a re-ask made or joined that have neither been answered nor failed (R27). -/
  reask : Option (List Nat)
deriving DecidableEq, Repr

/-- A park in progress (R155): its reason, whether the store has answered, and the context it answered. -/
structure Park where
  reason : ParkReason
  answered : Bool
  context : Option Context
deriving DecidableEq, Repr

/-- The pass over the ACTIVE take (R187) and what its end waits for (R189, R155, R192). -/
structure Pass where
  kind : PassKind
  /-- The Compositor has reported the end of the pass (R35). -/
  reported : Bool
  cutAsked : Bool
  cutDone : Bool
  killing : Bool
  /-- The store has been emptied for the KILL (R192). -/
  emptied : Bool
  park : Option Park
deriving DecidableEq, Repr

/-! ### Width Cache -/

/-- The state of a width slot (R20). -/
inductive SlotState where
  | empty | asking | valid (revision : Nat) (table : List Nat)
deriving DecidableEq, Repr

structure Slot where
  state : SlotState
  font : Option Nat
  pins : Nat
deriving DecidableEq, Repr

structure WidthCache where
  slots : List Slot
  useList : List Nat
  gen : Nat
deriving DecidableEq, Repr

/-! ### Compositor -/

inductive CompPhase where
  | idle | setting | waiting | paused
deriving DecidableEq, Repr

/-- The pending line-level values (R8), the spaceband as its three values. -/
structure PendingValues where
  leading : Option Nat
  measure : Option Nat
  indent : Option Nat
  spaceband : Option (Nat × Nat × Nat)
  letterspace : Option Nat
  mode : Option Nat
  hyph : Option Bool
  caps : Option Bool
  ladder : Option Nat
deriving DecidableEq, Repr

/-- What an item of the line being built is (R42). -/
inductive ItemKind where
  | character | fixedSpace | justifying
deriving DecidableEq, Repr

/-- An item of the line being built or of the word group being read: a box or a justifying space. `offset` is its byte's
text offset; `subst` says that a substituting SIZE was read before it (R57); `after` is what R6 asks of the byte
before it. -/
structure BuildItem where
  kind : ItemKind
  code : Nat
  font : Nat
  size : Nat
  width : Nat
  absent : Bool
  offset : Nat
  subst : Bool
  after : Bool
deriving DecidableEq, Repr

/-- The marks of a line record (R57). -/
structure LineFlags where
  hyphenated : Bool
  explicitHyphen : Bool
  loose : Bool
  letterspaced : Bool
  overset : Bool
  absentPresent : Bool
  substituted : Bool
  paragraphEnd : Bool
deriving DecidableEq, Repr

/-- An item of a line record (R57). -/
structure LineItem where
  code : Nat
  font : Nat
  lens : Nat
  x : Nat
  absent : Bool
deriving DecidableEq, Repr

/-- A line record (R57). -/
structure LineRecord where
  number : Nat
  start : Context
  leading : Nat
  baseSize : Nat
  mode : Nat
  q : Nat
  r : Nat
  gap : Nat
  gapRem : Nat
  flags : LineFlags
  items : List LineItem
  filmPending : Bool
  proofPending : Bool
  spoiled : Bool
deriving DecidableEq, Repr

/-- Where reading goes on after a line (R47): the text offset, the font and size in force there, and whether a
substituting SIZE or a word space stands just before it. -/
structure ReadOn where
  offset : Nat
  font : Nat
  size : Nat
  subst : Bool
  after : Bool
deriving DecidableEq, Repr

/-- A complete line with where reading goes on after it. -/
structure SetLine where
  record : LineRecord
  next : ReadOn
deriving DecidableEq, Repr

structure Compositor where
  phase : CompPhase
  ctx : Option Context
  snap : Option Context
  pend : PendingValues
  line : List BuildItem
  group : List BuildItem
  /-- DISC places: how many items of the group stood before each mark (R15). -/
  discs : List Nat
  /-- Kept word spaces read since the last item placed on the line (R6). -/
  spaces : Nat
  groupStart : Nat
  groupFont : Nat
  groupSize : Nat
  groupAfter : Bool
  afterSpace : Bool
  subst : Bool
  held : Option SetLine
deriving DecidableEq, Repr

/-! ### Hyphenation Unit -/

structure Hyphenation where
  patterns : List Pattern
  valid : Bool
  dict : List ExceptionEntry
  gen : Nat
deriving DecidableEq, Repr

/-! ### Set-Line Store and Proof Port -/

structure LineStore where
  records : List LineRecord
  marker : Option HeaderKind
deriving DecidableEq, Repr

/-- What a run of characters of the proof line buffer is: the 0x0D 0x0A that closes a line cut short, a header line, or
the line with this number (R87, R89). -/
inductive SegKind where
  | close | header | line (number : Nat)
deriving DecidableEq, Repr

structure ProofSeg where
  kind : SegKind
  chars : List Nat
deriving DecidableEq, Repr

/-- The character being sent; `ends` names the run whose last character it is. -/
structure InFlight where
  char : Nat
  ends : Option SegKind
deriving DecidableEq, Repr

structure ProofPort where
  segs : List ProofSeg
  kind : PassKind
  attached : Bool
  inFlight : Option InFlight
  lineOpen : Bool
  stall : Bool
  paperTimer : Bool
deriving DecidableEq, Repr

/-! ### Exposure Sequencer and Lamp Control -/

inductive ExpPhase where
  | idle | checking | advancing | scanning | mounting | homing
deriving DecidableEq, Repr

/-- A group of the seat scanner: its seat, its lens and its items still to be flashed, by place in the line (R112). -/
structure FlashGroup where
  seat : Nat
  lens : Nat
  items : List Nat
deriving DecidableEq, Repr

/-- The record of the line in exposure (R106). `checked` says that its font, film and manifest checks are passed;
`used` lists the seats used, in order (R101); `halt` is the door that halted it (R116); `closeGalley` says that the
cassette door halted it, so that its galley closes when its exposure ends (R136). -/
structure Exposure where
  line : Nat
  flashed : List Nat
  groups : List FlashGroup
  used : List Nat
  checked : Bool
  halt : Option Door
  closeGalley : Bool
deriving DecidableEq, Repr

/-- A flash in progress: the item, and the duration requested in microseconds (R114, R123). -/
structure Flash where
  item : Nat
  duration : Nat
deriving DecidableEq, Repr

structure Exposer where
  seats : List Nat
  order : List Nat
  turret : Option Nat
  lens : Option Nat
  carriage : Option Nat
  turretMove : Option Nat
  lensMove : Option Nat
  carriageMove : Option Nat
  flash : Option Flash
  phase : ExpPhase
  cur : Option Exposure
  mark : Option Nat
  homing : Option Mover
deriving DecidableEq, Repr

inductive LampPhase where
  | off | warming | ready
deriving DecidableEq, Repr

structure Lamp where
  phase : LampPhase
  bases : List Nat
  kp : Nat
  ki : Nat
  c : Nat
  ePrev : Int
  run : Nat
deriving DecidableEq, Repr

/-! ### Film Transport -/

/-- Who asked for a cut (R135, R140, R149, R155, R192). -/
inductive CutAsker where
  | endCut | park | spoil | kill | reset | operator | blank
deriving DecidableEq, Repr

/-- A cut request; `spoiled` is the number of the spoiled line. -/
structure CutRequest where
  asker : CutAsker
  spoiled : Option Nat
deriving DecidableEq, Repr

inductive FilmRequest where
  | advance (line leading : Nat)
  | cut (c : CutRequest)
deriving DecidableEq, Repr

inductive Transport where
  | idle | advancing | trailing (c : CutRequest) | cutting (c : CutRequest)
deriving DecidableEq, Repr

structure Film where
  remaining : Nat
  known : Bool
  lowNotified : Bool
  galley : Option Galley
  nextSeq : Option Nat
  manifest : List Galley
  removal : Bool
  transport : Transport
  waiting : List FilmRequest
  driveOk : Bool
  cutterOk : Bool
deriving DecidableEq, Repr

/-! ### Stop Control, Panel and Start-up -/

/-- The stop record (section 8.1). `toHold` is the return state HOLD; `timer` says that the stop's font-call or film-out
timer is running. -/
structure StopRecord where
  kind : StopKind
  key : Option Key
  line : Option Nat
  font : Option Nat
  door : Option Door
  mech : Option Mech
  earlier : Option StopKind
  toHold : Bool
  timeRaised : Nat
  timer : Bool
deriving DecidableEq, Repr

structure StopControl where
  station : StationState
  record : Option StopRecord
  spoilCut : Bool
  clearing : Bool
deriving DecidableEq, Repr

/-- The place in the start-up sequence (R202); `done` outside it. -/
inductive StartStage where
  | rom | homing | cut | announce | done
deriving DecidableEq, Repr

structure Panel where
  straps : Straps
  cause : ResetCause
  stage : StartStage
  romDone : Bool
  romGood : Bool
  filmNoticeDue : Bool
  startFault : Option Mech
  proofShown : Bool
  filmShown : Bool
deriving DecidableEq, Repr

end Sys2Proof.Machine

namespace Sys2Proof.Machine

/-- The state of the controller. -/
structure State where
  /-- The commands waiting to be taken, first in, first out. -/
  pending : List Instr
  pins : Pins
  /-- The model's count of moments noted (Log 9). -/
  moments : Nat
  panel : Panel
  stop : StopControl
  line : LineInterface
  takes : List Take
  /-- The copy store, as a canonical list of address and byte pairs (R180). -/
  mem : List Host.Cell
  pass : Option Pass
  width : WidthCache
  comp : Compositor
  hyph : Hyphenation
  store : LineStore
  proof : ProofPort
  exp : Exposer
  lamp : Lamp
  film : Film
deriving DecidableEq, Repr

/-! ### The values after power-on -/

/-- The levels the model puts on the inputs before any command (DESIGN CHOICE, Log 1). -/
def resetPins : Pins :=
  { straps := ⟨0, 0, 0⟩, tabs := List.replicate 8 0, cassette := 0, paper := true, busy := false,
    photoOpen := false, takeupOpen := false, cassetteOpen := false }

/-- A free width slot (R20). -/
def freeSlot : Slot := { state := .empty, font := none, pins := 0 }

/-- No pending line-level value (R8). -/
def noPending : PendingValues :=
  { leading := none, measure := none, indent := none, spaceband := none, letterspace := none, mode := none,
    hyph := none, caps := none, ladder := none }

/-- The Compositor in IDLE with no context, no line and no pending values (R37). -/
def idleCompositor : Compositor :=
  { phase := .idle, ctx := none, snap := none, pend := noPending, line := [], group := [], discs := [], spaces := 0,
    groupStart := 0, groupFont := 0, groupSize := 0, groupAfter := false, afterSpace := false, subst := false,
    held := none }

/-- The Line Interface after either reset, mute apart (R177). -/
def freshLine : LineInterface :=
  { phase := .unsynced, queue := [], waiting := [], windows := [], watches := [], broken := 0, bad := 0, lost := 0,
    mute := false }

/-- The state right after power-on (R201), with the straps read and start-up waiting for the settings ROM (R202). The
values are those of R34, R37, R79, R80, R100, R127, R141, R160, R177 and R198. Lamp Control's constants are those of a
bad ROM until the ROM has been read (R121), and the pattern set is empty and not valid until then (DESIGN CHOICE, Log 44:
the spec gives both for the time after the reading). -/
def State.reset : State :=
  { pending := []
    pins := resetPins
    moments := 0
    panel :=
      { straps := resetPins.straps, cause := .powerOn, stage := .rom, romDone := false, romGood := false,
        filmNoticeDue := true, startFault := none, proofShown := true, filmShown := false }
    stop := { station := .start, record := none, spoilCut := false, clearing := false }
    line := freshLine
    takes := []
    mem := []
    pass := none
    width := { slots := List.replicate 12 freeSlot, useList := [], gen := 0 }
    comp := idleCompositor
    hyph := { patterns := [], valid := false, dict := [], gen := 0 }
    store := { records := [], marker := none }
    proof :=
      { segs := [], kind := .film, attached := false, inFlight := none, lineOpen := false, stall := false,
        paperTimer := false }
    exp :=
      { seats := List.replicate 8 0, order := [0, 1, 2, 3, 4, 5, 6, 7], turret := none, lens := none,
        carriage := none, turretMove := none, lensMove := none, carriageMove := none, flash := none, phase := .idle,
        cur := none, mark := none, homing := none }
    lamp := { phase := .off, bases := List.replicate 12 100, kp := 3, ki := 1, c := 1024, ePrev := 0, run := 0 }
    film :=
      { remaining := 57000, known := false, lowNotified := true, galley := none, nextSeq := none, manifest := [],
        removal := false, transport := .idle, waiting := [], driveOk := true, cutterOk := true } }

end Sys2Proof.Machine
end

