-- ==== Sys2Proof/Machine/Memory.lean ====
section
/-! DEFINITION. The copy store's bytes (R180) as a list of address and byte pairs in one canonical form: addresses
strictly rising, no listed byte equal to what an unlisted address reads as. -/

namespace Sys2Proof.Machine

/-- What an unlisted address reads as: 0. The spec gives the copy store no contents after power-on, and no rule reads a
byte before it has been stored (DESIGN CHOICE, Log 7). -/
def blankByte : Byte := 0#8

/-- One byte of the copy store. -/
def memRead : List Host.Cell → Nat → Byte
  | [], _ => blankByte
  | (k, v) :: m, a => if k = a then v else memRead m a

/-- Storing one byte, keeping the canonical form. -/
def memWrite : List Host.Cell → Nat → Byte → List Host.Cell
  | [], a, b => if b = blankByte then [] else [(a, b)]
  | (k, v) :: m, a, b =>
    if a < k then (if b = blankByte then (k, v) :: m else (a, b) :: (k, v) :: m)
    else if a = k then (if b = blankByte then m else (a, b) :: m)
    else (k, v) :: memWrite m a b

/-- Every listed address is above `lo`. -/
def memAbove (lo : Nat) : List Host.Cell → Bool
  | [] => true
  | (k, _) :: _ => decide (lo < k)

/-- The canonical form holds. -/
def memWf : List Host.Cell → Bool
  | [] => true
  | (k, v) :: m => decide (v ≠ blankByte) && memAbove k m && memWf m

/-- The address in the copy store of copy offset `n` of a take with these blocks (R1). -/
def copyAddress (blocks : List Nat) (n : Nat) : Option Nat :=
  (blocks[n / Config.blockBytes]?).map (fun b => b * Config.blockBytes + n % Config.blockBytes)

/-- The byte at copy offset `n` of a take with these blocks (R1). -/
def copyByte (m : List Host.Cell) (blocks : List Nat) (n : Nat) : Byte :=
  match copyAddress blocks n with
  | some a => memRead m a
  | none => blankByte

/-- Storing bytes at the copy offsets from `n` on, in the blocks of the list (R180, R184). -/
def storeCopy (m : List Host.Cell) (blocks : List Nat) (n : Nat) : List Byte → List Host.Cell
  | [] => m
  | b :: bs =>
    match copyAddress blocks n with
    | some a => storeCopy (memWrite m a b) blocks (n + 1) bs
    | none => storeCopy m blocks (n + 1) bs

end Sys2Proof.Machine
end

