-- ==== Sys2Proof/Machine/Ops.lean ====
section
/-! DEFINITION. The named operations the blocks share: finding and changing records, the views other blocks ask for, and
the Line Interface's transmit queue, windows and lapse watches (R170 to R176). -/

namespace Sys2Proof.Machine

/-! ### Take records -/

/-- The record with this key (R179). -/
def State.take? (s : State) (k : Key) : Option Take := s.takes.find? (fun t => t.key == k)

/-- The ACTIVE take (R186). -/
def State.active? (s : State) : Option Take := s.takes.find? (fun t => t.state == .active)

/-- Changing the record with this key. -/
def State.modTake (s : State) (k : Key) (f : Take → Take) : State :=
  { s with takes := s.takes.map (fun t => if t.key == k then f t else t) }

/-- Changing the ACTIVE take's record. -/
def State.modActive (s : State) (f : Take → Take) : State :=
  { s with takes := s.takes.map (fun t => if t.state == .active then f t else t) }

/-- A take is RELEASING (R193). -/
def State.releasing? (s : State) : Option Take := s.takes.find? (fun t => t.state == .releasing)

/-- The kind of the pass in progress, FILM where none is. -/
def State.passKind (s : State) : PassKind :=
  match s.pass with
  | some p => p.kind
  | none => .film

/-- A pass of this kind is in progress over the ACTIVE take. -/
def State.inPass (s : State) (k : PassKind) : Bool := s.pass.any (fun p => p.kind == k)

def State.modPass (s : State) (f : Pass → Pass) : State := { s with pass := s.pass.map f }

/-- A park of the ACTIVE take is in progress (R155). -/
def State.parking (s : State) : Bool := s.pass.any (fun p => p.park.isSome)

/-- A KILL of the ACTIVE take is in progress (R192). -/
def State.killing (s : State) : Bool := s.pass.any (fun p => p.killing)

/-- The distinct fonts of a list that are not on a seat (R101). -/
def State.mounted (s : State) (font : Nat) : Bool := s.exp.seats.contains font

/-- The paper-out condition (R88). -/
def State.paperOut (s : State) : Bool := !s.pins.paper || s.proof.stall

/-- Film is low, or its count assumed (R129). -/
def State.filmShort (s : State) : Bool := decide (s.film.remaining < Config.lowFilm) || !s.film.known

/-- The station's own number (R199). -/
def State.number (s : State) : Nat := s.panel.straps.station.val

/-- The first line of the store that is still to be exposed (R106). -/
def State.firstUnexposed (s : State) : Option LineRecord := s.store.records.find? (fun r => r.filmPending)

/-- A moment is noted (Log 9). -/
def State.noteMoment (s : State) : State := { s with moments := s.moments + 1 }

/-! ### Frames -/

/-- The kind value of a frame (R178). -/
def TxFrame.kind : TxFrame → Nat
  | .claim _ _ => 2
  | .widthTable _ _ _ => 3
  | .taken _ _ => 4
  | .refused _ _ _ => 5
  | .widthAsk _ => 7
  | .offer _ => 8
  | .copyEnd _ _ _ => 9
  | .copy _ _ _ _ => 10
  | .announce _ => 12
  | .notice _ _ => 13

/-- The frame is a COPY or a COPY-END of this take. -/
def TxFrame.isCopyOf (k : Key) : TxFrame → Bool
  | .copy k' _ _ _ => k' == k
  | .copyEnd k' _ _ => k' == k
  | _ => false

def TxFrame.isOfferOf (k : Key) : TxFrame → Bool
  | .offer m => m.key == k
  | _ => false

def TxFrame.isTakenOf (k : Key) : TxFrame → Bool
  | .taken k' _ => k' == k
  | _ => false

def TxFrame.isAskFor (font : Nat) : TxFrame → Bool
  | .widthAsk f => f == font
  | _ => false

/-- The frame of this window (R172). -/
def WindowFor.owns (w : WindowFor) (f : TxFrame) : Bool :=
  match w, f with
  | .claim _ m _, .claim k _ => m.key == k
  | .answer font, .widthTable font' _ _ => font == font'
  | _, _ => false

def WindowFor.isClaim : WindowFor → Bool
  | .claim _ _ _ => true
  | .answer _ => false

def WindowFor.isClaimFor (k : Key) : WindowFor → Bool
  | .claim _ m _ => m.key == k
  | .answer _ => false

def WindowFor.isAnswerFor (font : Nat) : WindowFor → Bool
  | .claim _ _ _ => false
  | .answer f => f == font

/-- The subject of a window (R172). -/
def WindowFor.subject : WindowFor → Subject
  | .claim _ m _ => .take m.key
  | .answer f => .font f

/-! ### The transmit queue (R170, R171) -/

/-- The place of a frame that enters: behind the frame being sent, whatever its kind, which stays where it is, and behind
every frame of its own kind or a lower one (R170). -/
def insertFrame (f : TxFrame) : List TxEntry → List TxEntry
  | [] => [{ frame := f, begun := false }]
  | e :: q =>
    if e.begun = true ∨ e.frame.kind ≤ f.kind then e :: insertFrame f q else { frame := f, begun := false } :: e :: q

/-- The place of a frame no longer being sent: before the frames of its kind, which all entered after it, and behind those
of lower kinds, which entered while it was being sent (R164, R170; DEDUCED, Log 65). -/
def rejoinFrame (f : TxFrame) : List TxEntry → List TxEntry
  | [] => [{ frame := f, begun := false }]
  | e :: q => if e.frame.kind < f.kind then e :: rejoinFrame f q else { frame := f, begun := false } :: e :: q

/-- The transmit queue has no place for a frame handed to it: it holds 8 frames, or the places that have come free
belong to frames that wait for room (R171, Log 13). -/
def LineInterface.full (l : LineInterface) : Bool := decide (Config.queueFrames ≤ l.queue.length + l.waiting.length)

/-- A frame other than a NOTICE is handed to a Line Interface that is not muted (R170, R171). -/
def putFrame (s : State) (f : TxFrame) : State :=
  if s.line.full then { s with line := { s.line with waiting := s.line.waiting ++ [f] } }
  else { s with line := { s.line with queue := insertFrame f s.line.queue } }

/-- A notice is produced (R206), in every station state, HALT included (Log 33): dropped and counted when muted or when the
queue is full (R169, R171). -/
def produce (s : State) (key : Option Key) (body : NoticeBody) : State :=
  if s.line.mute || s.line.full then
    { s with line := { s.line with lost := satAdd Config.top16 s.line.lost 1 } }
  else { s with line := { s.line with queue := insertFrame (.notice key body) s.line.queue } }

/-- The waiting frame of lowest kind, the first of them to have begun waiting, and the others (R171). -/
def pickWaiting : List TxFrame → Option (TxFrame × List TxFrame)
  | [] => none
  | f :: fs =>
    match pickWaiting fs with
    | none => some (f, [])
    | some (g, rest) => if f.kind ≤ g.kind then some (f, fs) else some (g, f :: rest)

/-- A freed place goes to the waiting frame of lowest kind (R171). -/
def giveRoom (s : State) : State :=
  if s.line.queue.length < Config.queueFrames then
    match pickWaiting s.line.waiting with
    | some (f, rest) => { s with line := { s.line with queue := insertFrame f s.line.queue, waiting := rest } }
    | none => s
  else s

/-- Producers withdraw frames whose first bit has not been sent (R170, R171). -/
def withdraw (s : State) (p : TxFrame → Bool) : State :=
  { s with line := { s.line with
      queue := s.line.queue.filter (fun e => e.begun || !p e.frame)
      waiting := s.line.waiting.filter (fun f => !p f) } }

/-- The frame being sent (R170). -/
def LineInterface.sending? (l : LineInterface) : Option TxFrame :=
  (l.queue.find? (fun e => e.begun)).map (fun e => e.frame)

/-! ### Windows (R172, R174) and lapse watches (R175) -/

/-- The window's frame has its first bit on the line, so that the window can no longer be cancelled (R174). -/
def LineInterface.windowBegun (l : LineInterface) (w : Window) : Bool :=
  l.queue.any (fun e => e.begun && w.what.owns e.frame)

/-- Windows are cancelled: each ends, and its frame is withdrawn where it is queued or waits for room (R174). -/
def cancelWindows (s : State) (p : WindowFor → Bool) : State :=
  let gone := s.line.windows.filter (fun w => p w.what && !s.line.windowBegun w)
  let s1 := withdraw s (fun f => gone.any (fun w => w.queued && w.what.owns f))
  { s1 with line := { s1.line with
      windows := s.line.windows.filter (fun w => !(p w.what && !s.line.windowBegun w)) } }

/-- A window ends with its frame (R174). -/
def endWindow (s : State) (p : WindowFor → Bool) : State :=
  { s with line := { s.line with windows := s.line.windows.filter (fun w => !p w.what) } }

/-- A lapse watch is started (R175). -/
def startWatch (s : State) (sub : Subject) : State :=
  { s with line := { s.line with
      watches := s.line.watches.filter (fun w => w.subject ≠ sub) ++ [{ subject := sub, slots := Config.lapseSlots }] } }

/-- The owner ends a watch (R175). -/
def endWatch (s : State) (sub : Subject) : State :=
  { s with line := { s.line with watches := s.line.watches.filter (fun w => w.subject ≠ sub) } }

/-- A watch on this subject runs. -/
def State.watched (s : State) (sub : Subject) : Bool := s.line.watches.any (fun w => w.subject == sub)

def countBad (s : State) : State := { s with line := { s.line with bad := satAdd Config.top16 s.line.bad 1 } }
def countBroken (s : State) : State := { s with line := { s.line with broken := satAdd Config.top16 s.line.broken 1 } }

/-! ### Notices that need the take's record -/

/-- The counter block of a take as it stands (R178, R176). -/
def counterBlock (s : State) (t : Take) : CounterBlock :=
  { counters := t.counters, proofState := t.proofState, widthsChanged := t.widthsChanged, widthGen := s.width.gen,
    broken := s.line.broken, bad := s.line.bad, lost := s.line.lost }

/-- The header kind of the pass in progress over the ACTIVE take (R92, R187). -/
def headerKind (kind : PassKind) (t : Take) : HeaderKind :=
  match kind with
  | .proof => if t.reproof then .reproof else .proof
  | .film => if t.context.isSome then .resumed else .film

/-- The key of the ACTIVE take. -/
def State.activeKey (s : State) : Option Key := s.active?.map (fun t => t.key)

/-- The film count is changed; a count left below 57,000 with the low-notified flag clear gives one FILM-LOW notice
(R128, R129). -/
def setFilm (s : State) (n : Nat) (known : Bool) : State :=
  let s1 := { s with film := { s.film with remaining := n, known := known } }
  if n < Config.lowFilm ∧ s.film.lowNotified = false then
    produce { s1 with film := { s1.film with lowNotified := true } } s1.activeKey (.filmLow n known)
  else s1

end Sys2Proof.Machine
end

