-- ==== Sys2Proof/Machine/Hyphen.lean ====
section
/-! DEFINITION. The Hyphenation Unit (chapter 4): the candidate breaks of a word group, the exception dictionary, and the
load of the pattern set; and the preamble's local exceptions (R3, R4), whose entries have the same form. -/

namespace Sys2Proof.Machine

/-! ### Letters (R62) -/

def isCapital (c : Nat) : Bool := decide (0x41 ≤ c) && decide (c ≤ 0x5A)
def isSmall (c : Nat) : Bool := decide (0x61 ≤ c) && decide (c ≤ 0x7A)
/-- A letter by its code (R3, R62). -/
def isLetter (c : Nat) : Bool := isCapital c || isSmall c
/-- A capital replaced by its small letter (R4, R62). -/
def fold (c : Nat) : Nat := if isCapital c then c + 0x20 else c

/-- A box of the group that is a letter, a 0x2D box, and a box of any other code (R62, R64). -/
def BuildItem.isBox (i : BuildItem) : Bool := i.kind ≠ .justifying
def BuildItem.isLetterBox (i : BuildItem) : Bool := i.kind == .character && isLetter i.code
def BuildItem.isHyphen (i : BuildItem) : Bool := i.kind == .character && i.code == 0x2D
def BuildItem.isOther (i : BuildItem) : Bool := i.isBox && !i.isHyphen

/-- The kinds of a candidate break (R61). -/
inductive BreakKind where
  | added | explicit
deriving DecidableEq, Repr

/-! ### Explicit hyphens (R64) and DISC marks (R65) -/

/-- The boxes of item `i`'s word that stand before it, nearest first (R62). -/
def wordBefore (g : List BuildItem) (i : Nat) : List BuildItem := (g.take i).reverse.takeWhile BuildItem.isBox

/-- An explicit-hyphen candidate falls after item `i` (R64). -/
def explicitAfter (g : List BuildItem) (i : Nat) : Bool :=
  (g[i]?).any BuildItem.isHyphen && (g[i + 1]?).any BuildItem.isOther && (wordBefore g i).any BuildItem.isOther

/-- The DISC mark that stands before item `n` marks a break point: it stands between two boxes of one word, the box
before it not a 0x2D (R65). -/
def discMarks (g : List BuildItem) (n : Nat) : Bool :=
  decide (1 ≤ n) && (g[n - 1]?).any BuildItem.isOther && (g[n]?).any BuildItem.isBox

/-- The group holds an NBSPACE. -/
def hasNbspace (g : List BuildItem) : Bool := g.any (fun i => !i.isBox)

/-! ### Cores (R62) -/

/-- The place of the first letter of a word, and the core's boxes from its first letter to its last (R62). -/
def coreStart (g : List BuildItem) : Nat := (g.takeWhile (fun i => !i.isLetterBox)).length
def coreOf (g : List BuildItem) : List BuildItem :=
  ((g.drop (coreStart g)).reverse.dropWhile (fun i => !i.isLetterBox)).reverse
def foldedCore (g : List BuildItem) : List Nat := (coreOf g).map (fun i => fold i.code)

/-- What an attempt asks by (R61): the line's HYPH, CAPS and ladder limit, and the ladder count. -/
structure AttemptValues where
  hyph : Bool
  caps : Bool
  limit : Nat
  count : Nat
deriving DecidableEq, Repr

/-- The word of a group without NBSPACE is eligible (R66). -/
def eligible (v : AttemptValues) (g : List BuildItem) : Bool :=
  let core := coreOf g
  v.hyph && !hasNbspace g && decide (5 ≤ core.length) && decide (core.length ≤ 40) &&
  core.all BuildItem.isLetterBox && (v.caps || !core.all (fun i => isCapital i.code)) && decide (v.count < v.limit)

/-! ### Patterns (R68, R69) -/

/-- The pattern record has the form R68 requires. -/
def patternOk (p : Pattern) : Bool :=
  let m := p.letters.length
  decide (1 ≤ m) && decide (m ≤ 8) && decide (p.values.length = m + 1) && p.values.all (fun v => decide (v ≤ 9)) &&
  p.letters.any isSmall &&
  (List.range m).all (fun j =>
    (p.letters[j]?).any (fun c => isSmall c || (c == 0x2E && (decide (j = 0) || decide (j + 1 = m)))))

/-- The word string: the folded core between two full stops (R69, step 1). -/
def wordString (w : List Nat) : List Nat := 0x2E :: w ++ [0x2E]

/-- The pattern's letter string stands at place `p` of the word string (R69, step 3). -/
def patternAt (pat : Pattern) (ws : List Nat) (p : Nat) : Bool := (ws.drop p).take pat.letters.length == pat.letters

/-- The value a pattern puts on the gap after letter `i`: the greatest over its places (R69, step 3). -/
def patternValue (pat : Pattern) (ws : List Nat) (i : Nat) : Nat :=
  (List.range (i + 2)).foldl
    (fun acc p => if patternAt pat ws p then max acc ((pat.values[i + 1 - p]?).getD 0) else acc) 0

/-- The gap value after letter `i` (R69). -/
def gapValue (patterns : List Pattern) (w : List Nat) (i : Nat) : Nat :=
  patterns.foldl (fun acc pat => max acc (patternValue pat (wordString w) i)) 0

/-- The letters after which the pattern computation returns a candidate (R69, step 4). -/
def patternBreaks (patterns : List Pattern) (w : List Nat) : List Nat :=
  (List.range w.length).filter (fun i =>
    decide (gapValue patterns w i % 2 = 1) && decide (2 ≤ i) && decide (3 ≤ w.length - i))

/-! ### The answer (R67) -/

/-- The entry for a word. -/
def entryOf (d : List ExceptionEntry) (w : List Nat) : Option ExceptionEntry := d.find? (fun e => e.word == w)

/-- The places (0-based, of the item before the break) of the added-hyphen candidates, from the first source that applies
(R67). -/
def addedBreaks (h : Hyphenation) (locals : List ExceptionEntry) (v : AttemptValues) (g : List BuildItem)
    (discs : List Nat) : List Nat :=
  let marks := discs.filter (discMarks g)
  if hasNbspace g then []
  else if marks ≠ [] then (if v.count < v.limit then marks.map (· - 1) else [])
  else if eligible v g then
    let w := foldedCore g
    let letters := match entryOf locals w with
      | some e => e.positions
      | none =>
        match entryOf h.dict w with
        | some e => e.positions
        | none => patternBreaks h.patterns w
    letters.map (fun i => coreStart g + i - 1)
  else []

/-- The candidate breaks of a word group, in order along it (R61, R67). No candidate falls after the last box. -/
def candidates (h : Hyphenation) (locals : List ExceptionEntry) (v : AttemptValues) (g : List BuildItem)
    (discs : List Nat) : List (Nat × BreakKind) :=
  let added := addedBreaks h locals v g discs
  (List.range (g.length - 1)).filterMap (fun i =>
    if explicitAfter g i then some (i, .explicit) else if added.contains i then some (i, .added) else none)

/-! ### Entries (R4, R74) -/

/-- A position set: each position once, in ascending order (R4, R75). -/
def insertPosition (p : Nat) : List Nat → List Nat
  | [] => [p]
  | q :: qs => if p < q then p :: q :: qs else if p = q then q :: qs else q :: insertPosition p qs

def positionSet (l : List Nat) : List Nat := l.foldr insertPosition []

/-- Words in the order of R73: letter by letter by code, the shorter first. -/
def wordLt : List Nat → List Nat → Bool
  | [], [] => false
  | [], _ :: _ => true
  | _ :: _, [] => false
  | a :: as, b :: bs => decide (a < b) || (decide (a = b) && wordLt as bs)

/-- The dictionary is in strictly ascending word order (R73). -/
def dictSorted : List ExceptionEntry → Bool
  | [] => true
  | e :: d => (match d with
      | [] => true
      | f :: _ => wordLt e.word f.word) && dictSorted d

/-- A new entry at its place in the order (R75). -/
def insertEntry (e : ExceptionEntry) : List ExceptionEntry → List ExceptionEntry
  | [] => [e]
  | f :: d => if wordLt e.word f.word then e :: f :: d else f :: insertEntry e d

/-- An EXCEPTION's entry read from the payload after its operation byte: the letters and the positions, where the payload
is exactly the length its counts declare and the letters are letters (R74). -/
def parseEntry : List Nat → Option (List Nat × List Nat)
  | [] => none
  | l :: rest =>
    if 2 ≤ l ∧ l ≤ 24 then
      match rest.drop l with
      | [] => none
      | p :: ps =>
        if (rest.take l).length = l ∧ (rest.take l).all isLetter ∧ ps.length = p then some (rest.take l, ps) else none
    else none

/-- The positions of an add: at most L − 1 of them, each within 1..L − 1 (R74). -/
def positionsOk (l : Nat) (ps : List Nat) : Bool :=
  decide (ps.length ≤ l - 1) && ps.all (fun p => decide (1 ≤ p) && decide (p ≤ l - 1))

/-- An EXCEPTION add that has the right form (R75, R76): a station in HALT refuses one for a full dictionary without a
notice. -/
def addException (s : State) (word positions : List Nat) : State :=
  let w := word.map fold
  let e : ExceptionEntry := { word := w, positions := positionSet positions }
  if s.hyph.dict.any (fun f => f.word == w) then
    { s with hyph := { s.hyph with
        dict := s.hyph.dict.map (fun f => if f.word == w then e else f), gen := wrap16 s.hyph.gen } }
  else if s.hyph.dict.length < Config.dictEntries then
    { s with hyph := { s.hyph with dict := insertEntry e s.hyph.dict, gen := wrap16 s.hyph.gen } }
  else if s.stop.station = .halt then s
  else produce s none (.dictFull w)

/-- An EXCEPTION delete that has the right form (R77). -/
def deleteException (s : State) (word : List Nat) : State :=
  let w := word.map fold
  if s.hyph.dict.any (fun f => f.word == w) then
    { s with hyph := { s.hyph with
        dict := s.hyph.dict.filter (fun f => f.word ≠ w), gen := wrap16 s.hyph.gen } }
  else s

/-- The load of the pattern set (R70): whole, or empty and not valid. -/
def Hyphenation.loadRom (h : Hyphenation) (rom : Option Rom) : Hyphenation :=
  match rom with
  | some r =>
    if r.patternCount ≤ Config.maxPatterns ∧ r.patterns.length = r.patternCount ∧ r.patterns.all patternOk then
      { h with patterns := r.patterns, valid := true }
    else { h with patterns := [], valid := false }
  | none => { h with patterns := [], valid := false }

/-! ### The preamble (R1 to R4) -/

/-- The form of an entry whose bytes are all there (R3): its folded word and position set where it is kept. -/
def preambleEntry (kept : List ExceptionEntry) (letters positions : List Nat) : Option ExceptionEntry :=
  let l := letters.length
  let w := letters.map fold
  if 2 ≤ l ∧ l ≤ 24 ∧ letters.all isLetter ∧ positionsOk l positions ∧ (entryOf kept w).isNone then
    some { word := w, positions := positionSet positions }
  else none

/-- What the preamble gives: the kept entries, its length, its copy errors (R2, R3). -/
structure Preamble where
  entries : List ExceptionEntry
  length : Nat
  errors : Nat
deriving DecidableEq, Repr

/-- Entries read one by one (R3): `left` are still declared, `index` is the number of the next (0 for the first), and `at'`
its copy offset. The sixteen first are examined; one error is counted for all those after them; an entry cut short by
the end of copy ends the preamble there. An entry no byte of which stands before the end of copy counts as cut short, and
a seventeenth such entry as one after the sixteenth (DESIGN CHOICE, Log 52). -/
def readEntries (len : Nat) : (left : Nat) → (index at' : Nat) → List Nat → List ExceptionEntry → (errors : Nat) → Preamble
  | 0, _, at', _, kept, errors => { entries := kept, length := at', errors := errors }
  | left + 1, index, at', bytes, kept, errors =>
    let examined := decide (index < Config.maxLocalExceptions)
    let errors1 := if index = Config.maxLocalExceptions then errors + 1 else errors
    let cut : Preamble := { entries := kept, length := len, errors := if examined then errors1 + 1 else errors1 }
    match bytes with
    | [] => cut
    | l :: rest =>
      match rest.drop l with
      | [] => cut
      | p :: after =>
        if after.length < p then cut
        else
          let next := at' + 2 + l + p
          if examined then
            match preambleEntry kept (rest.take l) (after.take p) with
            | some e => readEntries len left (index + 1) next (after.drop p) (kept ++ [e]) errors1
            | none => readEntries len left (index + 1) next (after.drop p) kept (errors1 + 1)
          else readEntries len left (index + 1) next (after.drop p) kept errors1

/-- The preamble of a copy (R3): its first byte is the entry count. -/
def readPreamble (bytes : List Nat) : Preamble :=
  match bytes with
  | [] => { entries := [], length := 0, errors := 0 }
  | n :: rest => readEntries bytes.length n 0 1 rest [] 0

end Sys2Proof.Machine
end

