-- ==== Sys2Proof/Machine/Setting.lean ====
section
/-! DEFINITION. The Compositor's arithmetic (chapter 3): sizes and lenses, widths in fine, the counts of a line, the fit
test, justification, positions and the line record. -/

namespace Sys2Proof.Machine

/-! ### Sizes and widths -/

/-- The twelve lens sizes, by lens index (R10, R38). -/
def lensSizes : List Nat := [10, 11, 12, 13, 14, 16, 18, 20, 24, 28, 36, 48]

/-- The lens index of a lens size (R38). -/
def lensIndex (size : Nat) : Nat := lensSizes.idxOf size

/-- The largest lens size not above `n` (R10). -/
def lensBelow (n : Nat) : Nat := lensSizes.foldl (fun acc h => if h ≤ n then h else acc) 10

/-- A SIZE argument: the size set, whether clamping changed it, whether it was substituted (R10). -/
def takeSize (n : Nat) : Nat × Bool × Bool :=
  let c := clamp 10 48 n
  (lensBelow c, decide (c ≠ n), decide (lensBelow c ≠ c))

/-- Units at a size, in fine (R38): one unit is 5·h fine. -/
def unitsFine (units size : Nat) : Nat := units * 5 * size

/-- The width of a character box whose table entry is `w`; an absent character is 24 units wide (R38, R39). -/
def charWidth (w size : Nat) : Nat := if w = 0 then unitsFine 24 size else unitsFine w size

/-! ### The counts of a line (R42) -/

def boxesWidth (l : List BuildItem) : Nat := (l.map (fun i => if i.isBox then i.width else 0)).sum
def spaceCount (l : List BuildItem) : Nat := (l.filter (fun i => !i.isBox)).length

/-- Pairs of adjacent boxes with no justifying space between them (R42). -/
def gapCount : List BuildItem → Nat
  | a :: b :: l => (if a.isBox && b.isBox then 1 else 0) + gapCount (b :: l)
  | _ => 0

/-! ### The values of a line (R41) -/

structure LineValues where
  base : Nat
  avail : Nat
  indentFine : Nat
  minF : Nat
  optF : Nat
  maxF : Nat
  letterF : Nat
  mode : Nat
deriving DecidableEq, Repr

/-- The values a line is set under, from the context in force and its base size (R41). -/
def lineValues (c : Context) (base : Nat) : LineValues :=
  { base := base, avail := (c.measure - c.indent) * 480, indentFine := c.indent * 480, minF := unitsFine c.sbMin base
    optF := unitsFine c.sbOpt base, maxF := unitsFine c.sbMax base, letterF := unitsFine c.letterspace base
    mode := c.mode }

/-- The fit space (R41): the minimum in justify mode, the optimum in the other modes. -/
def LineValues.fitSpace (v : LineValues) : Nat := if v.mode = 0 then v.minF else v.optF

/-- The two fit conditions (R43). -/
def LineValues.fits (v : LineValues) (l : List BuildItem) : Bool :=
  decide (boxesWidth l + spaceCount l * v.fitSpace ≤ v.avail) && decide (l.length ≤ Config.lineItems)

/-! ### Justification (R48 to R54) -/

/-- How a line's slack is shared: the space width and its remainder, the letterspace per gap and its remainder, the left
slack, and the loose and letterspaced marks. -/
structure Shares where
  q : Nat
  r : Nat
  gap : Nat
  gapRem : Nat
  left : Nat
  loose : Bool
  letterspaced : Bool
deriving DecidableEq, Repr

/-- Every justifying space at one width, the slack left over placed at the left by `left` (R52, R53, R54). -/
def evenSpaces (k width left : Nat) : Shares :=
  { q := if k = 0 then 0 else width, r := 0, gap := 0, gapRem := 0, left := left, loose := false, letterspaced := false }

/-- The spaces share `s` by the rule of R48. -/
def shareSpaces (k s : Nat) : Shares :=
  { q := s / k, r := s % k, gap := 0, gapRem := 0, left := 0, loose := false, letterspaced := false }

/-- The left part of a slack by the mode (R53). -/
def leftSlack (mode slack : Nat) : Nat :=
  match mode with
  | 2 => slack
  | 3 => slack / 2
  | _ => 0

/-- A justified line that ends no paragraph, with spaces (R48, R49, R50). -/
def justifySpaces (v : LineValues) (k g s : Nat) : Shares :=
  if s ≤ k * v.maxF then shareSpaces k s
  else
    let e := s - k * v.maxF
    if 1 ≤ g ∧ e ≤ g * v.letterF then
      { q := v.maxF, r := 0, gap := e / g, gapRem := e % g, left := 0, loose := false, letterspaced := true }
    else
      let rest := s - g * v.letterF
      { q := rest / k, r := rest % k, gap := if g = 0 then 0 else v.letterF, gapRem := 0, left := 0, loose := true,
        letterspaced := decide (1 ≤ g) && decide (0 < v.letterF) }

/-- A justified line that ends no paragraph and holds no justifying space (R51). -/
def justifyGaps (v : LineValues) (g s : Nat) : Shares :=
  if 1 ≤ g ∧ s ≤ g * v.letterF then
    { q := 0, r := 0, gap := s / g, gapRem := s % g, left := 0, loose := false, letterspaced := decide (0 < s) }
  else
    { q := 0, r := 0, gap := if g = 0 then 0 else v.letterF, gapRem := 0, left := 0, loose := true,
      letterspaced := decide (1 ≤ g) && decide (0 < v.letterF) }

/-- The shares of a line whose boxes are `b` wide in all, with `k` justifying spaces and `g` gaps (R48 to R54). -/
def justify (v : LineValues) (paraEnd overset : Bool) (b k g : Nat) : Shares :=
  let s := v.avail - b
  if overset then evenSpaces k v.fitSpace (leftSlack v.mode (v.avail - (b + k * v.fitSpace)))
  else if v.mode ≠ 0 then evenSpaces k v.optF (leftSlack v.mode (s - k * v.optF))
  else if paraEnd then (if k * v.optF ≤ s then evenSpaces k v.optF 0 else shareSpaces k s)
  else if k = 0 then justifyGaps v g s
  else justifySpaces v k g s

/-! ### Positions (R55, R56) -/

/-- The width an item takes on the line: a box its own, a justifying space its share, where `r` wider shares are left
(R55). -/
def itemWidth (sh : Shares) (r : Nat) (i : BuildItem) : Nat :=
  if i.isBox then i.width else if 0 < r then sh.q + 1 else sh.q

/-- The positions of a line's items from `x` on (R55): `r` and `gr` are the wider shares left, `prev` says that the item
before is a box. -/
def positions (sh : Shares) : (x r gr : Nat) → (prev : Bool) → List BuildItem → List Nat
  | _, _, _, _, [] => []
  | x, r, gr, prev, i :: l =>
    let gapShare := if prev && i.isBox then (if 0 < gr then sh.gap + 1 else sh.gap) else 0
    let here := x + gapShare
    here :: positions sh (here + itemWidth sh r i) (if i.isBox then r else r - 1)
      (if prev && i.isBox then gr - 1 else gr) i.isBox l

/-- The escapement step of an item at a position, rounded half up (R56). -/
def stepOf (x : Nat) : Nat := (x + 24) / 48

/-! ### The line record (R57) -/

/-- How a line ended (R43 to R45). -/
structure LineEnd where
  paraEnd : Bool
  overset : Bool
  hyphenated : Bool
  explicit : Bool
deriving DecidableEq, Repr

/-- An item of the record from an item built (R57): a space has code 0x20. -/
def lineItem (i : BuildItem) (x : Nat) : LineItem :=
  { code := if i.kind = .character then i.code else 0x20, font := i.font, lens := lensIndex i.size, x := x,
    absent := i.absent }

/-- The line's items with the positions their shares give (R55). -/
def placeItems (v : LineValues) (sh : Shares) (l : List BuildItem) : List LineItem :=
  List.zipWith lineItem l (positions sh (v.indentFine + sh.left) sh.r sh.gapRem false l)

/-- The record of a complete line (R57). The consumer fields are set when it is appended (R82). -/
def makeRecord (c start : Context) (base : Nat) (l : List BuildItem) (e : LineEnd) : LineRecord :=
  let v := lineValues c base
  let sh := justify v e.paraEnd e.overset (boxesWidth l) (spaceCount l) (gapCount l)
  { number := c.nextLine, start := start, leading := c.leading, baseSize := base, mode := c.mode, q := sh.q, r := sh.r
    gap := sh.gap, gapRem := sh.gapRem
    flags :=
      { hyphenated := e.hyphenated, explicitHyphen := e.explicit, loose := sh.loose, letterspaced := sh.letterspaced
        overset := e.overset, absentPresent := l.any (fun i => i.absent), substituted := l.any (fun i => i.subst)
        paragraphEnd := e.paraEnd }
    items := placeItems v sh l, filmPending := false, proofPending := false, spoiled := false }

/-! ### Bringing a context record into range (R16, R18) -/

/-- The context of a pass that begins at the take's start (R16). -/
def defaultContext (font : Nat) : Context :=
  { resume := 0, font := font, size := 12, measure := 132, indent := 0, leading := 13, mode := 0, sbMin := 10
    sbOpt := 14, sbMax := 28, letterspace := 2, hyph := true, caps := false, ladderLimit := 3, ladderCount := 0
    nextLine := 1, galleySeq := 1 }

/-- SPACEBAND's three values after their clamps, in order (R12). -/
def clampSpaceband (mn op mx : Nat) : Nat × Nat × Nat :=
  let mn' := clamp 4 48 mn
  let op' := min 64 (max mn' op)
  let mx' := min 96 (max op' mx)
  (mn', op', mx')

/-- The highest indent for a measure (R11). -/
def indentCap (measure : Nat) : Nat := measure - 36

/-- What bringing a record into range counted (R18). -/
structure RangeCounts where
  copyErrors : Nat
  clamped : Nat
  substituted : Nat
deriving DecidableEq, Repr

def one (b : Bool) : Nat := if b then 1 else 0

/-- R18: each field of a context record brought into range, with what was counted. The spaceband's three values count
once, as its command does (Log 24). -/
def rangeContext (fonts : List Nat) (textLen : Nat) (c : Context) : Context × RangeCounts :=
  let fontBad := !fonts.contains c.font
  let sz := takeSize c.size
  let leading := clamp 0 192 c.leading
  let measure := clamp 36 540 c.measure
  let indent := min (indentCap measure) c.indent
  let sb := clampSpaceband c.sbMin c.sbOpt c.sbMax
  let letter := clamp 0 6 c.letterspace
  let limit := clamp 1 7 c.ladderLimit
  let modeBad := decide (3 < c.mode)
  let count := min limit c.ladderCount
  let next := clamp 1 Config.lineNumberCap c.nextLine
  let seq := max 1 c.galleySeq
  let resume := min textLen c.resume
  ({ c with
      resume := resume, font := if fontBad then fonts.headD 0 else c.font, size := sz.1, measure := measure
      indent := indent, leading := leading, mode := if modeBad then 0 else c.mode, sbMin := sb.1, sbOpt := sb.2.1
      sbMax := sb.2.2, letterspace := letter, ladderLimit := limit, ladderCount := count, nextLine := next
      galleySeq := seq },
   { copyErrors := one fontBad + one modeBad
     clamped := one sz.2.1 + one (leading ≠ c.leading) + one (measure ≠ c.measure) + one (indent ≠ c.indent) +
       one (sb ≠ (c.sbMin, c.sbOpt, c.sbMax)) + one (letter ≠ c.letterspace) + one (limit ≠ c.ladderLimit) +
       one (count ≠ c.ladderCount) + one (next ≠ c.nextLine) + one (seq ≠ c.galleySeq) + one (resume ≠ c.resume)
     substituted := one sz.2.2 })

end Sys2Proof.Machine
end

