-- ==== Sys2Proof/Machine/Width.lean ====
section
/-! DEFINITION. The Width Cache (chapter 2): slots, pins, the use list, asks, tables heard and lookups. -/

namespace Sys2Proof.Machine

/-- The number of the slot for a font, in whatever state (R20). -/
def WidthCache.slotOf (w : WidthCache) (font : Nat) : Option Nat := w.slots.findIdx? (fun sl => sl.font == some font)

/-- The revision and table of a font's VALID slot (R20). -/
def WidthCache.table? (w : WidthCache) (font : Nat) : Option (Nat × List Nat) :=
  match w.slots.find? (fun sl => sl.font == some font) with
  | some { state := .valid r t, .. } => some (r, t)
  | _ => none

/-- The font has a VALID slot. -/
def WidthCache.isValid (w : WidthCache) (font : Nat) : Bool := (w.table? font).isSome

/-- The revision of a font's VALID slot (R96). -/
def WidthCache.revision (w : WidthCache) (font : Nat) : Option Nat := (w.table? font).map (fun p => p.1)

/-- The font's slot is ASKING, or held empty (R20). -/
def WidthCache.isAsking (w : WidthCache) (font : Nat) : Bool :=
  w.slots.any (fun sl => sl.font == some font && sl.state == .asking)
def WidthCache.isHeldEmpty (w : WidthCache) (font : Nat) : Bool :=
  w.slots.any (fun sl => sl.font == some font && sl.state == .empty)

/-- The lowest-numbered free slot (R20, R23). -/
def WidthCache.freeSlot? (w : WidthCache) : Option Nat := w.slots.findIdx? (fun sl => sl.font == none)

/-- The VALID slot with pin count 0 nearest the least-recent end of the use list (R23). -/
def WidthCache.victim? (w : WidthCache) : Option Nat :=
  w.useList.find? (fun i => (w.slots[i]?).any (fun sl => sl.pins == 0))

def WidthCache.setSlot (w : WidthCache) (i : Nat) (sl : Slot) : WidthCache := { w with slots := w.slots.set i sl }

/-- A slot moves to, or joins at, the most-recent end of the use list (R22). -/
def WidthCache.toRecent (w : WidthCache) (i : Nat) : WidthCache := { w with useList := w.useList.erase i ++ [i] }

/-- A slot joins at the least-recent end (R22). -/
def WidthCache.toStale (w : WidthCache) (i : Nat) : WidthCache := { w with useList := i :: w.useList.erase i }

/-- A slot leaves the use list (R22). -/
def WidthCache.dropUse (w : WidthCache) (i : Nat) : WidthCache := { w with useList := w.useList.erase i }

/-- The pin count of a font's slot is changed (R21). -/
def WidthCache.modPins (w : WidthCache) (font : Nat) (f : Nat → Nat) : WidthCache :=
  { w with slots := w.slots.map (fun sl => if sl.font == some font then { sl with pins := f sl.pins } else sl) }

/-- The width the cache returns for a code in a font (R33): the entry of the font's VALID slot; codes stand from 0x21. -/
def WidthCache.entry (w : WidthCache) (font code : Nat) : Nat :=
  match w.table? font with
  | some (_, t) => (t[code - 0x21]?).getD 0
  | none => 0

/-- A lookup (R33): the entry, and the slot moved to the most-recent end of the use list. -/
def lookup (s : State) (font code : Nat) : Nat × State :=
  (s.width.entry font code,
    match s.width.slotOf font with
    | some i => if s.width.isValid font then { s with width := s.width.toRecent i } else s
    | none => s)

/-! ### Asks (R25) -/

/-- An ask for a font is made (R25): a WIDTH-ASK is handed to the Line Interface, or, on a muted station, the ask's
limits are counted from this moment. -/
def ask (s : State) (font : Nat) : State :=
  if s.line.mute then startWatch s (.font font) else putFrame s (.widthAsk font)

/-- An ask is answered or abandoned: its WIDTH-ASK is withdrawn if it has not begun, and its watch ended (R25, R21). -/
def endAsk (s : State) (font : Nat) : State := endWatch (withdraw s (TxFrame.isAskFor font)) (.font font)

/-- A held empty slot becomes ASKING and a new ask is made (R23, R27). -/
def reAskFont (s : State) (font : Nat) : State :=
  match s.width.slotOf font with
  | some i =>
    match s.width.slots[i]? with
    | some sl =>
      if sl.state = .empty then ask { s with width := s.width.setSlot i { sl with state := .asking } } font else s
    | none => s
  | none => s

/-! ### Slots for a claimed take (R23) -/

/-- One font of the claimed take's list: its slot gains a pin; a held empty slot asks again; a font with no slot takes
the lowest free slot or evicts, and asks (R23, R21). -/
def claimFont (s : State) (font : Nat) : State :=
  match s.width.slotOf font with
  | some _ => reAskFont { s with width := s.width.modPins font (· + 1) } font
  | none =>
    match s.width.freeSlot? with
    | some i => ask { s with width := s.width.setSlot i { state := .asking, font := some font, pins := 1 } } font
    | none =>
      match s.width.victim? with
      | some i =>
        let s1 := match (s.width.slots[i]?).bind (fun sl => sl.font) with
          | some old => cancelWindows s (WindowFor.isAnswerFor old)
          | none => s
        ask { s1 with width := (s1.width.dropUse i).setSlot i { state := .asking, font := some font, pins := 1 } } font
      | none => s

/-- The fonts of a claimed take, in list order, once each (R23). -/
def claimFonts (s : State) (fonts : List Nat) : State := (distinct fonts).foldl claimFont s

/-- One font of a freed take's list loses a pin: at 0 an ASKING slot is freed and its ask abandoned, a held empty slot is
freed, a VALID slot stays (R21). -/
def unpinFont (s : State) (font : Nat) : State :=
  let s1 := { s with width := s.width.modPins font (· - 1) }
  match s1.width.slotOf font with
  | some i =>
    match s1.width.slots[i]? with
    | some sl =>
      if sl.pins = 0 then
        match sl.state with
        | .valid _ _ => s1
        | .asking => endAsk { s1 with width := s1.width.setSlot i freeSlot } font
        | .empty => { s1 with width := s1.width.setSlot i freeSlot }
      else s1
    | none => s1
  | none => s1

def unpinFonts (s : State) (fonts : List Nat) : State := (distinct fonts).foldl unpinFont s

/-- Held takes all of whose fonts have a VALID slot become widths-ready (R24). -/
def markReady (s : State) : State :=
  { s with takes := s.takes.map (fun t =>
      { t with widthsReady := t.widthsReady || t.fonts.all (fun f => s.width.isValid f) }) }

/-! ### Tables heard on the line (R19, R28, R29) -/

/-- The form of a WIDTH-TABLE: 223 entries, font 1..999, no entry but that of 0x7F above 96 (R19). -/
def tableFormOk (font : Nat) (widths : List Nat) : Bool :=
  decide (widths.length = 223) && fontOk font &&
  (List.range 223).all (fun i => decide (i + 0x21 = 0x7F) || decide ((widths[i]?).getD 0 ≤ 96))

/-- An ask for this font has been answered or has failed: no re-ask waits for it any longer (R27). -/
def askEnded (s : State) (font : Nat) : State :=
  { s with takes := s.takes.map (fun t => { t with reask := t.reask.map (fun l => l.filter (fun f => f ≠ font)) }) }

/-- A table fills the ASKING or held empty slot of its font, which ends the ask (R28, R27). -/
def fillSlot (s : State) (i : Nat) (sl : Slot) (font revision : Nat) (widths : List Nat) : State :=
  let w := (s.width.setSlot i { sl with state := .valid revision widths }).toRecent i
  markReady (endAsk { askEnded s font with width := w } font)

/-- A table of higher revision replaces a VALID slot's table (R29). -/
def replaceTable (s : State) (i : Nat) (sl : Slot) (font revision : Nat) (widths : List Nat) : State :=
  let w := s.width.setSlot i { sl with state := .valid revision widths }
  ({ s with width := { w with gen := wrap16 w.gen } }).modActive
    (fun t => if t.fonts.contains font then { t with widthsChanged := true } else t)

/-- A table heard acts by the slot for its font (R28). -/
def tableToSlot (s : State) (font revision : Nat) (widths : List Nat) : State :=
  match s.width.slotOf font with
  | some i =>
    match s.width.slots[i]? with
    | some sl =>
      match sl.state with
      | .valid r _ => if r < revision then replaceTable s i sl font revision widths else s
      | .asking | .empty => fillSlot s i sl font revision widths
    | none => s
  | none =>
    match s.width.freeSlot? with
    | some i =>
      let sl : Slot := { state := .valid revision widths, font := some font, pins := 0 }
      markReady { s with width := (s.width.setSlot i sl).toStale i }
    | none => s

/-- A table heard at a revision equal to or higher than this station's cancels the answer window for its font (R31). -/
def tableToWindows (s : State) (font revision : Nat) : State :=
  match s.width.revision font with
  | some r => if r ≤ revision then cancelWindows s (WindowFor.isAnswerFor font) else s
  | none => cancelWindows s (WindowFor.isAnswerFor font)

/-! ### Answering other stations (R30) -/

/-- The station may open a window of this kind (R172, R30). -/
def State.windowRoom (s : State) : Bool := decide (s.line.windows.length < Config.maxWindows) && !s.line.mute

/-- A window is opened; one opened with a count of 0 hands its frame to the transmit queue at once (R172). -/
def openWindow (s : State) (what : WindowFor) (slots : Nat) (frame : Option TxFrame) : State :=
  let w : Window := { what := what, slots := slots, queued := decide (slots = 0) && frame.isSome }
  let s1 := { s with line := { s.line with windows := s.line.windows ++ [w] } }
  match frame with
  | some f => if slots = 0 then putFrame s1 f else s1
  | none => s1

/-- Another station's WIDTH-ASK: an answer window of 2·s + 1 slots for a VALID font (R30), or the station's own waiting
ask joined (R25). -/
def hearAsk (s : State) (font : Nat) : State :=
  if s.width.isValid font then
    if s.stop.station ≠ .start ∧ s.stop.station ≠ .halt ∧ s.windowRoom ∧
        s.line.windows.any (fun w => w.what.isAnswerFor font) = false then
      openWindow s (.answer font) (2 * s.number + 1) none
    else s
  else if s.width.isAsking font then
    if s.line.queue.any (fun e => !e.begun && e.frame.isAskFor font) || s.line.waiting.any (TxFrame.isAskFor font) then
      startWatch (withdraw s (TxFrame.isAskFor font)) (.font font)
    else s
  else s

/-- The frame that a window whose count has run out hands over (R173): the CLAIM, or the WIDTH-TABLE as the slot holds it
at that moment (R31). -/
def windowFrame (s : State) : WindowFor → Option TxFrame
  | .claim _ m cost => some (.claim m.key cost)
  | .answer font => (s.width.table? font).map (fun p => .widthTable font p.1 p.2)

/-- A window whose count is 0 hands its frame over and enters its queued phase (R173). -/
def expireWindow (s : State) (sub : Subject) : State :=
  match s.line.windows.find? (fun w => w.what.subject == sub && !w.queued && w.slots == 0) with
  | some w =>
    match windowFrame s w.what with
    | some f =>
      putFrame { s with line := { s.line with
        windows := s.line.windows.map (fun v => if v.what.subject == sub then { v with queued := true } else v) } } f
    | none => endWindow s (fun x => x.subject == sub)
  | none => s

end Sys2Proof.Machine
end

