-- ==== Sys2Proof/Machine/Compositor.lean ====
section
/-! DEFINITION. The Compositor (chapters 1 and 3): line-level values, boxes and word groups, breaking, the end of a line,
and its offer to the Set-Line Store (R80 to R83, R86). -/

namespace Sys2Proof.Machine

/-! ### The text being read -/

/-- The length of a take's text (R1). -/
def Take.textLen (t : Take) : Nat := t.copyLen - t.preLen

/-- The byte at a text offset (R1). -/
def textByte (m : List Host.Cell) (t : Take) (n : Nat) : Nat := (copyByte m t.blocks (t.preLen + n)).toNat

/-- The Compositor's read position: the resume offset of its context. -/
def Compositor.offset (c : Compositor) : Nat :=
  match c.ctx with
  | some x => x.resume
  | none => 0

/-- The line being built holds a box; boxes of the word being read count (R8). -/
def Compositor.holdsBox (c : Compositor) : Bool := c.line.any BuildItem.isBox || c.group.any BuildItem.isBox

/-- The Compositor may read (R36): it is SETTING and the station is in RUN, or in HOLD or STOPPED, where it reads to the
end of the line or beyond. -/
def State.composing (s : State) : Bool :=
  s.comp.phase == .setting &&
  (s.stop.station == .run || s.stop.station == .hold || s.stop.station == .stopped)

/-- The Compositor pauses at the next line boundary (R36): in HOLD, and in STOPPED with the return state HOLD. -/
def State.pausing (s : State) : Bool :=
  s.stop.station == .hold || (s.stop.station == .stopped && s.stop.record.any (fun r => r.toHold))

/-! ### Counters of the ACTIVE take (R58) -/

def State.count (s : State) (f : Counters → Counters) : State :=
  s.modActive (fun t => { t with counters := f t.counters })

def addCopyErrors (s : State) (n : Nat) : State :=
  s.count (fun c => { c with copyErrors := satAdd Config.top16 c.copyErrors n })
def addClamped (s : State) (n : Nat) : State :=
  s.count (fun c => { c with clamped := satAdd Config.top16 c.clamped n })
def addSubstituted (s : State) (n : Nat) : State :=
  s.count (fun c => { c with substituted := satAdd Config.top16 c.substituted n })

/-! ### Values in force and pending (R8) -/

def modComp (s : State) (f : Compositor → Compositor) : State := { s with comp := f s.comp }
def modCtx (s : State) (f : Context → Context) : State := modComp s (fun c => { c with ctx := c.ctx.map f })
def modPend (s : State) (f : PendingValues → PendingValues) : State := modComp s (fun c => { c with pend := f c.pend })

/-- A new measure, with the indent it lowers, and how many clamped arguments that counts (R8). -/
def withMeasure (c : Context) (m : Nat) : Context × Nat :=
  if indentCap m < c.indent then ({ c with measure := m, indent := indentCap m }, 1) else ({ c with measure := m }, 0)

/-- An indent, clamped against the measure in force (R11). -/
def withIndent (c : Context) (n : Nat) : Context × Nat :=
  ({ c with indent := min (indentCap c.measure) n }, one (indentCap c.measure < n))

/-- A pending value, or the one in force. -/
def pick (p : Option α) (v : α) : α := p.getD v

/-- The pending values applied in the order of R8, and the clamped arguments that counts. -/
def PendingValues.apply (p : PendingValues) (c : Context) : Context × Nat :=
  let c1 : Context := { c with leading := pick p.leading c.leading }
  let (c2, n2) := match p.measure with
    | some m => withMeasure c1 m
    | none => (c1, 0)
  let (c3, n3) := match p.indent with
    | some i => withIndent c2 i
    | none => (c2, 0)
  let sb := pick p.spaceband (c3.sbMin, c3.sbOpt, c3.sbMax)
  ({ c3 with
      sbMin := sb.1, sbOpt := sb.2.1, sbMax := sb.2.2, letterspace := pick p.letterspace c3.letterspace
      mode := pick p.mode c3.mode, hyph := pick p.hyph c3.hyph, caps := pick p.caps c3.caps
      ladderLimit := pick p.ladder c3.ladderLimit },
   n2 + n3)

/-! ### The Set-Line Store takes a line (R81, R82, R86) -/

/-- Items of the pool in use (R80). -/
def LineStore.used (st : LineStore) : Nat := (st.records.map (fun r => r.items.length)).sum

/-- The store takes this line (R81). -/
def LineStore.takes (st : LineStore) (r : LineRecord) : Bool :=
  decide (st.records.length < Config.storeLines) && decide (st.used + r.items.length ≤ Config.storeItems)

/-- The proof state after line `n` went without a proof (R86). -/
def ProofState.without (n : Nat) : ProofState → ProofState
  | .complete => .partialFrom n
  | .partialFrom m => .partialFrom (min m n)
  | .none => .none

def ProofState.isPartial : ProofState → Bool
  | .partialFrom _ => true
  | _ => false

/-- The consumer fields of a line as it is appended (R82). Once the proof of a take has been dropped no later line of its
FILM passes is proofed (R93), be its proof state none (DESIGN CHOICE, Log 45: R82's table has such a line proofed). -/
def consumers (s : State) (t : Take) : Bool × Bool :=
  match s.passKind with
  | .film => (true, !s.paperOut && !t.proofState.isPartial && !t.proofDropped)
  | .proof => (false, true)

/-- The line counters of R58. -/
def Counters.addLine (c : Counters) (r : LineRecord) : Counters :=
  let up (n : Nat) (b : Bool) : Nat := satAdd Config.top16 n (one b)
  { c with
    lines := up c.lines true, hyphenated := up c.hyphenated r.flags.hyphenated, loose := up c.loose r.flags.loose
    letterspaced := up c.letterspaced r.flags.letterspaced, overset := up c.overset r.flags.overset
    absent := satAdd Config.top16 c.absent (r.items.filter (fun i => i.absent)).length }

/-- The ladder count after a line's end (R71). -/
def ladderAfter (count : Nat) (f : LineFlags) : Nat :=
  if f.hyphenated || f.explicitHyphen then min 7 (count + 1) else 0

/-- The context after a line has been appended: the next line number and the ladder count, then the pending values (R58,
R71), then where reading goes on (R47). The galley sequence is that of the take's current galley, which Film Transport writes
as it opens one (R16, `openGalley`). -/
def afterLine (c : Context) (p : PendingValues) (sl : SetLine) : Context × Nat :=
  let c1 : Context :=
    { c with nextLine := satAdd Config.top16 c.nextLine 1, ladderCount := ladderAfter c.ladderCount sl.record.flags }
  let (c2, n) := p.apply c1
  ({ c2 with resume := sl.next.offset, font := sl.next.font, size := sl.next.size }, n)

/-! ### The pass's end and the next line -/

/-- The Compositor reports the end of the pass and goes to IDLE, keeping its context with the resume offset at the end of
the text (R35, R84 case 4); what copy commands after the last line have set in it stays (DESIGN CHOICE, Log 61). -/
def reportEnd (s : State) (t : Take) : State :=
  let c := s.comp.ctx.map (fun x => { x with resume := t.textLen })
  { s with comp := { idleCompositor with ctx := c }
           pass := s.pass.map (fun p => { p with reported := true }) }

/-- A line begins (R17, R36): at the end of the text the pass ends (Log 23); otherwise the snapshot is taken, and the
Compositor reads on or pauses. -/
def startLine (s : State) (t : Take) (ctx : Context) (subst after : Bool) : State :=
  let s1 := { s with comp :=
    { idleCompositor with
      phase := if s.pausing then .paused else .setting
      ctx := some ctx, snap := some ctx, groupStart := ctx.resume, groupFont := ctx.font, groupSize := ctx.size
      groupAfter := after, afterSpace := after, subst := subst } }
  if t.textLen ≤ ctx.resume then reportEnd s1 t else s1

/-- The store takes a complete line: the take's counters and proof state, the context and the next line follow (R58,
R82, R86). -/
def appendLine (s : State) (t : Take) (ctx : Context) (sl : SetLine) : State :=
  let use := consumers s t
  let r := { sl.record with filmPending := use.1, proofPending := use.2 }
  let next := afterLine ctx s.comp.pend sl
  let s1 := s.modActive (fun t =>
    { t with
      counters := let c := t.counters.addLine r; { c with clamped := satAdd Config.top16 c.clamped next.2 }
      proofState := if use.1 && !use.2 then t.proofState.without r.number else t.proofState })
  startLine { s1 with store := { s1.store with records := s1.store.records ++ [r] } } t next.1 sl.next.subst sl.next.after

/-- A complete line is offered to the store (R35, R81): it is appended, or the Compositor waits with it held whole. -/
def offerLine (s : State) (t : Take) (ctx : Context) (sl : SetLine) : State :=
  if s.store.takes sl.record then appendLine s t ctx sl
  else modComp s (fun c => { c with phase := .waiting, held := some sl, line := [], group := [], discs := [] })

/-- A line is completed under the values in force on it (R8, R57). -/
def completeLine (s : State) (t : Take) (ctx : Context) (items : List BuildItem) (e : LineEnd) (next : ReadOn) :
    State :=
  let base := match items.find? BuildItem.isBox with
    | some i => i.size
    | none => ctx.size
  offerLine s t ctx { record := makeRecord ctx (s.comp.snap.getD ctx) base items e, next := next }

/-! ### Word groups (R42 to R47) -/

/-- A kept word space as an item: it carries the font and size of the box before it (R42). -/
def spaceItem (before : List BuildItem) : BuildItem :=
  match before.reverse.find? BuildItem.isBox with
  | some b => { kind := .justifying, code := 0x20, font := b.font, size := b.size, width := 0, absent := false,
                offset := 0, subst := false, after := false }
  | none => { kind := .justifying, code := 0x20, font := 0, size := 10, width := 0, absent := false, offset := 0,
              subst := false, after := false }

/-- The line with its kept word spaces, ready for a group to join (R43). -/
def Compositor.spacedLine (c : Compositor) : List BuildItem :=
  if c.line.isEmpty then [] else c.line ++ List.replicate c.spaces (spaceItem c.line)

/-- The values the line is set under, where these items follow what it holds (R41). -/
def Compositor.values (c : Compositor) (ctx : Context) (items : List BuildItem) : LineValues :=
  lineValues ctx (match (c.line ++ items).find? BuildItem.isBox with
    | some i => i.size
    | none => ctx.size)

/-- Reading goes on at the first box from place `n` of the group on (R47), or, where no box follows, at the byte that ended
the group (Log 22). The mark of a substituting SIZE goes with the box, or still waits for one (R10). -/
def readOnAt (c : Compositor) (ctx : Context) (stop n : Nat) : ReadOn :=
  match (c.group.drop n).find? BuildItem.isBox with
  | some b =>
    { offset := b.offset, font := b.font, size := b.size, subst := b.subst, after := b.after }
  | none =>
    { offset := stop, font := ctx.font, size := ctx.size, subst := c.subst, after := c.afterSpace }

/-- Reading goes on at the first byte of the group (R47), with the values of its first box (R17) and its mark of a
substituting SIZE (R10). -/
def readOnGroup (c : Compositor) : ReadOn :=
  match c.group.find? BuildItem.isBox with
  | some b =>
    { offset := c.groupStart, font := b.font, size := b.size, subst := b.subst, after := c.groupAfter }
  | none =>
    { offset := c.groupStart, font := c.groupFont, size := c.groupSize, subst := c.subst, after := c.groupAfter }

/-- The added hyphen after a prefix that ends in this box, with its width just looked up (R40). -/
def hyphenBox (last : BuildItem) (w : Nat) : BuildItem :=
  { kind := .character, code := 0x2D, font := last.font, size := last.size, width := unitsFine w last.size,
    absent := false, offset := last.offset, subst := false, after := false }

/-- A break that the attempt may take: the items of the prefix, and its candidate. -/
structure Break where
  place : Nat
  items : List BuildItem
  kind : BreakKind
deriving DecidableEq, Repr

/-- The candidates weighed in order along the group, each added hyphen looked up as it is measured; the furthest usable one
is kept (R40, R44, Log 21). -/
def weigh (v : LineValues) (line group : List BuildItem) :
    List (Nat × BreakKind) → State → Option Break → State × Option Break
  | [], s, best => (s, best)
  | (i, .explicit) :: cs, s, best =>
    let items := line ++ group.take (i + 1)
    weigh v line group cs s (if v.fits items then some { place := i, items := items, kind := .explicit } else best)
  | (i, .added) :: cs, s, best =>
    match group[i]? with
    | some last =>
      let (w, s1) := lookup s last.font 0x2D
      let items := line ++ group.take (i + 1) ++ [hyphenBox last w]
      weigh v line group cs s1
        (if 0 < w ∧ v.fits items then some { place := i, items := items, kind := .added } else best)
    | none => weigh v line group cs s best

/-- The longest prefix that ends in a box and meets both fit conditions, or the first box alone (R45, steps 2 and 3): how
many items of the group it takes. -/
def oversetPrefix (v : LineValues) (group : List BuildItem) : Nat :=
  (List.range group.length).foldl
    (fun best i => if (group[i]?).any BuildItem.isBox && v.fits (group.take (i + 1)) then i + 1 else best) 1

/-- How the line ends at a candidate (R44). -/
def BreakKind.lineEnd : BreakKind → LineEnd
  | .added => { paraEnd := false, overset := false, hyphenated := true, explicit := false }
  | .explicit => { paraEnd := false, overset := false, hyphenated := false, explicit := true }

def plainEnd : LineEnd := { paraEnd := false, overset := false, hyphenated := false, explicit := false }

/-- A word group that does not fit (R44, R45): `stop` is the offset of the byte that ended it. -/
def breakGroup (s : State) (t : Take) (ctx : Context) (stop : Nat) : State :=
  let c := s.comp
  let v := c.values ctx c.group
  let asked : AttemptValues := { hyph := ctx.hyph, caps := ctx.caps, limit := ctx.ladderLimit, count := ctx.ladderCount }
  let (s1, best) := weigh v c.spacedLine c.group (candidates s.hyph t.exceptions asked c.group c.discs) s none
  match best with
  | some b => completeLine s1 t ctx b.items b.kind.lineEnd (readOnAt c ctx stop (b.place + 1))
  | none =>
    if c.line.isEmpty then
      let n := oversetPrefix v c.group
      completeLine s1 t ctx (c.group.take n) { plainEnd with overset := true } (readOnAt c ctx stop n)
    else completeLine s1 t ctx c.line plainEnd (readOnGroup c)

/-- A word group ends (R43): `stop` is the offset of the byte that ended it, `next` the offset after that byte, and
`para` says that it was ENDPARA or the end of copy. -/
def closeGroup (s : State) (t : Take) (ctx : Context) (stop next : Nat) (para : Bool) : State :=
  let c := s.comp
  let joined := if c.group.isEmpty then c.line else c.spacedLine ++ c.group
  if (c.values ctx c.group).fits joined || c.group.isEmpty then
    if para then
      completeLine s t ctx joined { plainEnd with paraEnd := true }
        { offset := next, font := ctx.font, size := ctx.size, subst := c.subst, after := c.afterSpace }
    else
      modComp s (fun c =>
        { c with
          ctx := some { ctx with resume := next }, line := joined, group := [], discs := []
          spaces := if c.group.isEmpty then c.spaces + 1 else 1
          groupStart := next, groupFont := ctx.font, groupSize := ctx.size, groupAfter := true, afterSpace := true })
  else breakGroup s t ctx stop

/-! ### Boxes and spaces -/

/-- The byte read is left behind: reading stands at `next`. -/
def readPast (s : State) (next : Nat) : State := modCtx s (fun c => { c with resume := next })

/-- A box is placed in the word being read (R7, R15, R42); a line's first box gives its snapshot the font and size that
apply to it (R17, Log 20), and takes the mark of a substituting SIZE read before it (R57). Only a character byte stands
between two word spaces as a text byte that is no command (R6, Log 19). -/
def placeBox (s : State) (kind : ItemKind) (code width : Nat) (absent : Bool) (next : Nat) : State :=
  match s.comp.ctx with
  | some x =>
    let c := s.comp
    let i : BuildItem :=
      { kind := kind, code := code, font := x.font, size := x.size, width := width, absent := absent
        offset := x.resume, subst := c.subst, after := c.afterSpace }
    let snap := if c.holdsBox then c.snap else c.snap.map (fun y => { y with font := x.font, size := x.size })
    { s with comp :=
      { c with
        ctx := some { x with resume := next }, snap := snap, group := c.group ++ [i], subst := false
        afterSpace := c.afterSpace && kind ≠ .character } }
  | none => s

/-- An NBSPACE: one justifying space of the group, dropped where the line holds no box (R15). As an item of its line it
bears the mark of a substituting SIZE read before it (R57), and the mark goes on to the next box, since it is no box (R10). -/
def placeNbspace (s : State) (next : Nat) : State :=
  match s.comp.ctx with
  | some x =>
    let c := s.comp
    let i := { spaceItem (c.line ++ c.group) with offset := x.resume, subst := c.subst, after := c.afterSpace }
    { s with comp :=
      { c with
        ctx := some { x with resume := next }, group := if c.holdsBox then c.group ++ [i] else c.group } }
  | none => s

/-- A WAITING Compositor offers its held line again (R35). -/
def retryLine (s : State) : Option State :=
  match s.active?, s.comp.ctx, s.comp.held with
  | some t, some x, some h =>
    if s.comp.phase = .waiting ∧ s.store.takes h.record then some (appendLine s t x h) else none
  | _, _, _ => none

/-- The store removes its head lines with both consumer fields clear (R83). -/
def storeRemove (s : State) : Option State :=
  match s.store.records with
  | r :: _ =>
    if r.filmPending || r.proofPending then none
    else some { s with store := { s.store with
      records := s.store.records.dropWhile (fun x => !x.filmPending && !x.proofPending) } }
  | [] => none

/-- The lines of a FILM pass that an emptying discards exposed and not proofed (R85, R86). -/
def State.unproofed (s : State) : List LineRecord :=
  match s.passKind with
  | .film => s.store.records.filter (fun r => !r.filmPending && r.proofPending)
  | .proof => []

/-- The store is emptied (R85): lines of a FILM pass exposed and not proofed make the proof state partial (R86), and the
header marker is cleared; in a PROOF pass the port discards what it has not sent (R89, Log 34). -/
def emptyStore (s : State) : State :=
  let lost := s.unproofed
  let s1 := s.modActive (fun t =>
    { t with proofState := lost.foldl (fun p r => p.without r.number) t.proofState })
  { s1 with
    store := { records := [], marker := none }
    exp := { s1.exp with mark := none }
    proof :=
      if s.proof.kind = .film then { s1.proof with attached := false }
      else { s1.proof with segs := [], attached := false, lineOpen := s1.proof.lineOpen || !s1.proof.segs.isEmpty } }

/-- The argument bytes of the copy command of this byte (section 1.4). -/
def argumentBytes (b : Nat) : Nat :=
  match b with
  | 0x01 | 0x04 | 0x05 => 2
  | 0x02 | 0x03 | 0x07 | 0x08 | 0x09 | 0x0A | 0x0B => 1
  | 0x06 => 3
  | _ => 0

/-- What R6 asks of the byte before text offset `stop`, reading on from `n` with at most `fuel` steps: the last text byte
before it, copy commands with their arguments and rubouts passed over, is a word space (Log 19). -/
def spaceBefore (m : List Host.Cell) (t : Take) (stop : Nat) : (fuel n : Nat) → Bool → Bool
  | 0, _, after => after
  | fuel + 1, n, after =>
    if stop ≤ n then after
    else
      let b := textByte m t n
      if b = 0x20 then spaceBefore m t stop fuel (n + 1) true
      else if b = 0x7F then spaceBefore m t stop fuel (n + 1) after
      else if 1 ≤ b ∧ b ≤ 0x11 then spaceBefore m t stop fuel (n + 1 + argumentBytes b) after
      else spaceBefore m t stop fuel (n + 1) false

/-- The Compositor starts a pass (R35, R16, R18): it takes its context, empties what it holds, sets the counters of a pass
from the take's start, and begins its first line. A size substituted in the record's stands as a SIZE read before the next
box (R10), and the text before the resume offset says whether a word space was read last (R6, R60). -/
def startCompositor (s : State) (t : Take) : State :=
  match t.context with
  | none =>
    let s1 := s.count (fun c =>
      { c with
        lines := 0, hyphenated := 0, loose := 0, letterspaced := 0, overset := 0, absent := 0
        copyErrors := t.preErrors, clamped := 0, substituted := 0 })
    startLine s1 t (defaultContext (t.fonts.headD 0)) false false
  | some r =>
    let (x, n) := rangeContext t.fonts t.textLen r
    startLine (addSubstituted (addClamped (addCopyErrors s n.copyErrors) n.clamped) n.substituted) t x
      (decide (0 < n.substituted)) (spaceBefore s.mem t x.resume x.resume 0 false)

end Sys2Proof.Machine
end

