-- ==== Sys2Proof/Machine/Operands.lean ====
section
/-! DEFINITION. What the copy commands read: the next byte of the text, and the argument bytes of a copy command (R5, R8;
byte values of R178). A command of the table whose byte is not the next one is not due, and changes nothing (Log 4). -/

namespace Sys2Proof.Machine

/-- The take, the context and the next byte of a Compositor that may read; `none` for the byte at the end of the text. -/
structure Reading where
  take : Take
  ctx : Context
  byte : Option Nat
deriving DecidableEq, Repr

/-- What the Compositor is about to read (R5, R36). -/
def reading? (s : State) : Option Reading :=
  match s.composing, s.active?, s.comp.ctx with
  | true, some t, some x =>
    some { take := t, ctx := x, byte := if x.resume < t.textLen then some (textByte s.mem t x.resume) else none }
  | _, _, _ => none

/-- The next byte is one that `p` accepts: the byte is read. -/
def readByte (s : State) (p : Nat → Bool) (act : Reading → Nat → State) : State :=
  match reading? s with
  | some r =>
    match r.byte with
    | some b => if p b then act r b else s
    | none => s
  | none => s

/-- The argument bytes that follow the command byte at the read position (R5). -/
def argBytes (s : State) (r : Reading) (n : Nat) : List Nat :=
  (List.range n).map (fun i => textByte s.mem r.take (r.ctx.resume + 1 + i))

/-- A copy command of this byte value with `n` argument bytes: it acts with reading left after them. Where the end of copy
falls before them, the command is ignored and counted as one copy error, and the text ends (R5). -/
def copyCommand (s : State) (code n : Nat) (act : Reading → List Nat → State → State) : State :=
  readByte s (fun b => b == code) (fun r _ =>
    if r.ctx.resume + 1 + n ≤ r.take.textLen then act r (argBytes s r n) (readPast s (r.ctx.resume + 1 + n))
    else readPast (addCopyErrors s 1) r.take.textLen)

/-- The number of two argument bytes, the first the higher (R178). -/
def twoBytes (args : List Nat) : Nat := 256 * args.headD 0 + (args.drop 1).headD 0

/-- The argument at place `i`. -/
def arg (args : List Nat) (i : Nat) : Nat := (args.drop i).headD 0

/-- A line-level value takes effect at once where the line holds no box, and is held pending otherwise (R8). -/
def setLevel (s : State) (now : Context → Context) (later : PendingValues → PendingValues) : State :=
  if s.comp.holdsBox then modPend s later else modCtx s now

/-! ### The commands' effects -/

/-- FONT (R9). -/
def takeFont (s : State) (t : Take) (font : Nat) : State :=
  if t.fonts.contains font then modCtx s (fun c => { c with font := font }) else addCopyErrors s 1

/-- SIZE (R10). -/
def takeSizeCommand (s : State) (n : Nat) : State :=
  let z := takeSize n
  let s1 := addSubstituted (addClamped s (one z.2.1)) (one z.2.2)
  modComp (modCtx s1 (fun c => { c with size := z.1 })) (fun c => { c with subst := c.subst || z.2.2 })

/-- LEAD (R11). -/
def takeLead (s : State) (n : Nat) : State :=
  let v := clamp 0 192 n
  setLevel (addClamped s (one (v ≠ n))) (fun c => { c with leading := v }) (fun p => { p with leading := some v })

/-- MEASURE (R11), which may lower the indent (R8). -/
def takeMeasure (s : State) (picas points : Nat) : State :=
  let n := 12 * picas + points
  let v := clamp 36 540 n
  let lowered := match s.comp.ctx with
    | some x => if s.comp.holdsBox then 0 else (withMeasure x v).2
    | none => 0
  setLevel (addClamped s (one (v ≠ n) + lowered)) (fun c => (withMeasure c v).1)
    (fun p => { p with measure := some v })

/-- INDENT, clamped against the measure in force when it takes effect (R11). -/
def takeIndent (s : State) (n : Nat) : State :=
  let clamped := match s.comp.ctx with
    | some x => if s.comp.holdsBox then 0 else (withIndent x n).2
    | none => 0
  setLevel (addClamped s clamped) (fun c => (withIndent c n).1) (fun p => { p with indent := some n })

/-- SPACEBAND (R12). -/
def takeSpaceband (s : State) (mn op mx : Nat) : State :=
  let v := clampSpaceband mn op mx
  setLevel (addClamped s (one (v ≠ (mn, op, mx))))
    (fun c => { c with sbMin := v.1, sbOpt := v.2.1, sbMax := v.2.2 }) (fun p => { p with spaceband := some v })

/-- LETTERSPACE (R12). -/
def takeLetterspace (s : State) (n : Nat) : State :=
  let v := clamp 0 6 n
  setLevel (addClamped s (one (v ≠ n))) (fun c => { c with letterspace := v })
    (fun p => { p with letterspace := some v })

/-- LADDER (R12): the ladder count stays as it is. -/
def takeLadder (s : State) (n : Nat) : State :=
  let v := clamp 1 7 n
  setLevel (addClamped s (one (v ≠ n))) (fun c => { c with ladderLimit := v }) (fun p => { p with ladder := some v })

/-- MODE (R13). -/
def takeMode (s : State) (n : Nat) : State :=
  if n ≤ 3 then setLevel s (fun c => { c with mode := n }) (fun p => { p with mode := some n })
  else addCopyErrors s 1

/-- HYPH and CAPS (R13): 0 is off, any other value on. -/
def takeHyph (s : State) (n : Nat) : State :=
  setLevel s (fun c => { c with hyph := decide (n ≠ 0) }) (fun p => { p with hyph := some (decide (n ≠ 0)) })
def takeCaps (s : State) (n : Nat) : State :=
  setLevel s (fun c => { c with caps := decide (n ≠ 0) }) (fun p => { p with caps := some (decide (n ≠ 0)) })

/-- ENDPARA and the end of copy with a box on the line (R14): `stop` is where the byte stands, `next` where reading goes
on. -/
def endParagraph (s : State) (r : Reading) (stop next : Nat) : State := closeGroup s r.take r.ctx stop next true

/-- A fixed space of so many units at the current size (R15, R38). -/
def takeFixedSpace (s : State) (r : Reading) (units : Nat) : State :=
  placeBox s .fixedSpace 0x20 (unitsFine units r.ctx.size) false (r.ctx.resume + 1)

/-- DISC (R15): its place within the word group being read. -/
def takeDisc (s : State) : State := modComp s (fun c => { c with discs := c.discs ++ [c.group.length] })

/-- A character byte (R7, R38, R39): one box whose width is looked up. -/
def takeCharacter (s : State) (r : Reading) (code : Nat) : State :=
  let (w, s1) := lookup s r.ctx.font code
  placeBox s1 .character code (charWidth w r.ctx.size) (decide (w = 0)) (r.ctx.resume + 1)

/-- A word space (R6): dropped at the start of a line and after another word space, and kept otherwise. -/
def takeWordSpace (s : State) (r : Reading) : State :=
  if s.comp.holdsBox = true ∧ s.comp.afterSpace = false then
    closeGroup s r.take r.ctx r.ctx.resume (r.ctx.resume + 1) false
  else modComp (readPast s (r.ctx.resume + 1)) (fun c => { c with afterSpace := true })

/-- An unknown byte (R5): skipped, and counted as a copy error. -/
def takeUnknown (s : State) (r : Reading) : State :=
  modComp (readPast (addCopyErrors s 1) (r.ctx.resume + 1)) (fun c => { c with afterSpace := false })

/-- The end of copy (R14): a paragraph end where the line holds a box, and otherwise the end of the pass. -/
def takeEnd (s : State) : State :=
  match reading? s with
  | some r =>
    match r.byte with
    | none =>
      if s.comp.holdsBox then endParagraph s r r.take.textLen r.take.textLen else reportEnd s r.take
    | some _ => s
  | none => s

/-- The bytes taken as characters, and as unknown (R5). -/
def isCharacterByte (b : Nat) : Bool := decide (0x21 ≤ b) && decide (b ≠ 0x7F)
def isUnknownByte (b : Nat) : Bool := decide (b = 0) || (decide (0x12 ≤ b) && decide (b ≤ 0x1F))

end Sys2Proof.Machine
end

