-- ==== Sys2Proof/Machine/Lamp.lean ====
section
/-! DEFINITION. Lamp Control (section 6.6): the lamp's state, the duration of a flash and its correction. -/

namespace Sys2Proof.Machine

/-- A warm-up request (R120): an OFF lamp starts its 3 s warm-up. -/
def warmUp (s : State) : State :=
  match s.lamp.phase with
  | .off => { s with lamp := { s.lamp with phase := .warming } }
  | _ => s

/-- The lamp goes OFF on entry to STANDBY or HALT (R120). -/
def lampOff (s : State) : State := { s with lamp := { s.lamp with phase := .off } }

/-- The duration of a flash on a lens, in microseconds (R123). -/
def Lamp.duration (l : Lamp) (lens : Nat) : Nat :=
  clamp 20 1000 (((l.bases[lens]?).getD 100 * l.c + 512) / 1024)

/-- The change of the correction that a reading calls for (R124, steps 1 to 3): the division is truncated toward zero. -/
def Lamp.change (l : Lamp) (reading : Nat) : Int :=
  let e : Int := (Config.lampTarget : Int) - (reading : Int)
  ((l.kp : Int) * (e - l.ePrev) + (l.ki : Int) * e).tdiv 8

/-- The correction after a reading, and whether it was clamped (R124, steps 3 and 4). -/
def Lamp.corrected (l : Lamp) (reading : Nat) : Nat × Bool :=
  let c' : Int := (l.c : Int) + l.change reading
  if c' < (Config.lampLow : Int) then (Config.lampLow, true)
  else if (Config.lampHigh : Int) < c' then (Config.lampHigh, true)
  else (c'.toNat, false)

/-- Lamp Control takes a photocell reading (R124, R125): the values left by it. -/
def Lamp.take (l : Lamp) (reading : Nat) : Lamp :=
  let p := l.corrected reading
  { l with c := p.1, ePrev := (Config.lampTarget : Int) - (reading : Int)
           run := if p.2 then min 256 (l.run + 1) else 0 }

/-- The reading corrects the lamp; a clamp that brings the run to 64 gives one LAMP-WEAK notice (R124, R125). -/
def correctLamp (s : State) (reading : Nat) : State :=
  let l := s.lamp.take reading
  let s1 := { s with lamp := l }
  if s.lamp.run = 63 ∧ l.run = 64 then produce s1 none (.lampWeak l.c l.run) else s1

/-- A clamped correction that brings the run to 256, or leaves it there, reports a LAMP fault (R125). -/
def Lamp.faults (l : Lamp) (reading : Nat) : Bool := (l.corrected reading).2 && decide ((l.take reading).run = 256)

/-- The lamp-change switch (R126, R120). -/
def changeLamp (s : State) : State :=
  { s with lamp := { s.lamp with
      c := Config.lampUnity, ePrev := 0, run := 0
      phase := match s.lamp.phase with
        | .off => .off
        | _ => .warming } }

/-- The warm-up timer expires (R120). -/
def warmUpExpires (s : State) : State :=
  if s.lamp.phase = .warming then { s with lamp := { s.lamp with phase := .ready } } else s

/-- Lamp Control's constants from the settings ROM, or their defaults where its check is bad (R121). -/
def Lamp.loadRom (l : Lamp) (rom : Option Rom) : Lamp :=
  match rom with
  | some r =>
    { l with bases := (List.range 12).map (fun i => clamp 20 400 ((r.bases[i]?).getD 100))
             kp := clamp 0 15 r.kp, ki := clamp 0 15 r.ki }
  | none => { l with bases := List.replicate 12 100, kp := 3, ki := 1 }

end Sys2Proof.Machine
end

