-- ==== Sys2Proof/Machine/Stops.lean ====
section
/-! DEFINITION. Freeing and queueing takes, release marks, entry to RUN, and Stop Control's stops, faults and park requests
(chapter 8; R188, R193, R195, R204). -/

namespace Sys2Proof.Machine

/-! ### Takes -/

/-- A record is freed: its pins fall (R21), its blocks and its place in the claim list go with it (R179, R180). -/
def freeTake (s : State) (k : Key) : State :=
  match s.take? k with
  | some t => unpinFonts { s with takes := s.takes.filter (fun x => x.key ≠ k) } t.fonts
  | none => s

/-- A take goes to QUEUED and starts aging when its class is above 0 (R188). -/
def Take.queued (t : Take) : Take :=
  { t with state := .queued, timer := if 0 < t.cls then some .aging else none, parkReason := none }

/-- A STRANDED take whose reason is gone returns to QUEUED with its claim order and context (R195, step 3). -/
def Take.unstranded (t : Take) (allValid : Bool) : Take :=
  { t.queued with release := none, tries := 0, claimant := none, offerDue := false, reoffer := false, reask := none,
                  sending := none, sentEnd := [], scarce := t.scarce && !allValid }

/-- Every listed font has a VALID slot. -/
def State.allValid (s : State) (t : Take) : Bool := t.fonts.all (fun f => s.width.isValid f)

/-- The reason of a STRANDED take's release is gone (R195, step 2). -/
def State.reasonGone (s : State) (t : Take) : Bool :=
  decide (s.stop.station = .run) &&
  match t.release with
  | some .widths => s.allValid t
  | some .fault | some .repeated => s.stop.record.isNone
  | some .filmOut => !s.stop.record.any (fun r => r.kind == .filmOut)
  | some .halt => false
  | none => true

/-- Step 2 of R195 taken for every STRANDED take, as at an entry to RUN. -/
def examineStranded (s : State) : State :=
  { s with takes := s.takes.map (fun t =>
      if t.state == .stranded && s.reasonGone t then t.unstranded (s.allValid t) else t) }

/-- The station enters RUN: a PAUSED Compositor reads on (R36), and STRANDED takes are examined (R195). -/
def enterRun (s : State) : State :=
  examineStranded
    { s with stop := { s.stop with station := .run }
             comp := { s.comp with phase := if s.comp.phase = .paused then .setting else s.comp.phase } }

/-- A station in STANDBY wakes (R204). -/
def wake (s : State) : State := if s.stop.station = .standby then warmUp (enterRun s) else s

/-- A take becomes QUEUED, which wakes a station in STANDBY (R188, R204). -/
def toQueued (s : State) (k : Key) : State := wake (s.modTake k Take.queued)

/-- The place of a release reason in the order of R193. -/
def ReleaseReason.rank : ReleaseReason → Nat
  | .halt => 0
  | .fault => 1
  | .filmOut => 2
  | .widths => 3
  | .repeated => 4

/-- A release mark is placed on a take, which keeps the reason that stands first (R193). -/
def Take.mark (t : Take) (r : ReleaseReason) : Take :=
  match t.release with
  | some r' => if r.rank < r'.rank then { t with release := some r } else t
  | none => { t with release := some r }

/-- Release marks are placed on the takes a request names; the release of a take already RELEASING or STRANDED goes on as
it was (R159, R193), and a request changes nothing for a take being killed (R192). -/
def markTakes (s : State) (r : ReleaseReason) (p : Take → Bool) : State :=
  { s with takes := s.takes.map (fun t =>
      if p t && t.state ≠ .releasing && t.state ≠ .stranded && !(t.state == .active && s.killing) then t.mark r else t) }

/-! ### The stop record -/

/-- The start context of the first unexposed line, as the store answers it (R84): of the first record with film-pending
set; else of the line the Compositor holds; else of the line being built; else the context at the end of the pass. -/
def storeAnswer (s : State) : Option Context :=
  match s.firstUnexposed with
  | some r => some r.start
  | none =>
    match s.comp.phase with
    | .waiting => s.comp.held.map (fun h => h.record.start)
    | .setting | .paused => s.comp.snap
    | .idle => s.comp.ctx

/-- Claim windows are cancelled by entry to any state but RUN and STANDBY (R174). -/
def closeClaims (s : State) : State := cancelWindows s WindowFor.isClaim

/-- The place of a park reason in the order of R154. -/
def ParkReason.rank : ParkReason → Nat
  | .fault => 0
  | .filmOut => 1
  | .repeated => 2
  | .fontCall _ => 3

/-- A park of the ACTIVE take is asked for (R154): it starts, or joins the park in progress with the reason that stands
higher. A take being killed, and one whose end cut has been asked for, are not parked (R192, R150). -/
def Pass.requestPark (p : Pass) (reason : ParkReason) : Pass :=
  if p.killing then p
  else match p.park with
    | some q => if reason.rank < q.reason.rank then { p with park := some { q with reason := reason } } else p
    | none => if p.cutAsked then p else { p with park := some { reason := reason, answered := false, context := none } }

def requestPark (s : State) (reason : ParkReason) : State := s.modPass (fun p => p.requestPark reason)

/-- The park reason of a third stop on one line (R144). -/
def thirdStop (kind : StopKind) (font : Option Nat) : ParkReason :=
  match kind with
  | .fontCall => .fontCall (font.getD 0)
  | _ => .repeated

/-- The line stop count after a stop for this line (R144). -/
def countStop (line : Nat) : Option (Nat × Nat) → Nat
  | some (l, n) => if l = line then n + 1 else 1
  | none => 1

/-- The line stop count of a take after a stop for this line; a stop that names no line counts against none (Log 48). -/
def Take.stopCount (t : Take) (line : Option Nat) : Nat := line.elim 0 (fun l => countStop l t.lineStop)

/-- A restartable stop is counted against its line and recorded, or parks the take on the third (R143, R144). `toHold` is
the state to return to. A stop without a line, which only the cut of a KILL gives, is recorded with none, and its notice
carries line 0 (DESIGN CHOICE, Log 48). -/
def recordStop (s : State) (t : Take) (line : Option Nat) (kind : StopKind) (font : Option Nat) (door : Option Door)
    (toHold : Bool) : State :=
  let n := t.stopCount line
  let s1 := match line with
    | some l => s.modTake t.key (fun x => { x with lineStop := some (l, n) })
    | none => s
  if 3 ≤ n then requestPark { s1 with stop := { s1.stop with record := none } } (thirdStop kind font)
  else
    let rec' : StopRecord :=
      { kind := kind, key := some t.key, line := line, font := font, door := door, mech := none, earlier := none,
        toHold := toHold, timeRaised := Config.moment s.moments,
        timer := decide (kind = .fontCall) || decide (kind = .filmOut) }
    let s2 := closeClaims (s1.noteMoment)
    let s3 := { s2 with stop := { s2.stop with record := some rec', station := .stopped } }
    match kind with
    | .fontCall => produce s3 (some t.key) (.fontCall (line.getD 0) (font.getD 0))
    | _ => produce s3 (some t.key) (.stop kind (line.getD 0) door)

/-- The line a stop names: the first unexposed line of the ACTIVE take, or the one whose start context the store would give
for a park (R143); none where no context is left, as during the cut of a KILL (Log 48). -/
def State.stopLine (s : State) : Option Nat := (storeAnswer s).map (fun c => c.nextLine)

/-- A restartable stop is raised (R143): taken only while the station may go to STOPPED (R142), no stop is pending and no
park of the take is in progress. -/
def raiseStop (s : State) (kind : StopKind) (font : Option Nat) (door : Option Door) : State :=
  if (s.stop.station = .run ∨ s.stop.station = .hold) ∧ s.stop.record = none ∧ s.parking = false then
    match s.active? with
    | some t => recordStop s t s.stopLine kind font door (decide (s.stop.station = .hold))
    | none => s
  else s

/-- The state a cleared stop returns the station to: RUN for DOOR, the return state for any other (R148). -/
def leaveStopped (s : State) (r : StopRecord) : State :=
  let s1 := { s with stop := { s.stop with record := none } }
  if r.toHold ∧ r.kind ≠ .door then { s1 with stop := { s1.stop with station := .hold } } else enterRun s1

/-- A pending restartable stop is cleared (R148): a take-up door open with a galley open puts its DOOR stop in the cleared
stop's place; otherwise the record is emptied and the station leaves STOPPED. -/
def clearStop (s : State) : State :=
  match s.stop.record with
  | some r =>
    if s.stop.station ≠ .stopped then s
    else if s.pins.takeupOpen ∧ s.film.galley.isSome ∧ s.parking = false then
      match s.active? with
      | some t =>
        if 3 ≤ t.stopCount s.stopLine then
          recordStop (leaveStopped s r) t s.stopLine .door none (some .takeup) r.toHold
        else recordStop { s with stop := { s.stop with record := none } } t s.stopLine .door none (some .takeup) r.toHold
      | none => leaveStopped s r
    else leaveStopped s r
  | none => s

/-- A restartable stop that names a take that stops being ACTIVE is cleared without a notice (R148, last paragraph). -/
def dropStop (s : State) (k : Key) : State :=
  match s.stop.record with
  | some r => if s.stop.station = .stopped ∧ r.key = some k then leaveStopped s r else s
  | none => s

/-! ### Faults (R150, R151, R153) -/

/-- A fault taken in RUN, STANDBY, HOLD or STOPPED (R150, R151). -/
def takeFault (s : State) (kind : StopKind) (mech : Option Mech) : State :=
  let earlier := s.stop.record.map (fun r => r.kind)
  let key := s.activeKey
  let line := s.firstUnexposed.map (fun r => r.number)
  let rec' : StopRecord :=
    { kind := kind, key := key, line := line, font := none, door := none, mech := mech, earlier := earlier,
      toHold := false, timeRaised := Config.moment s.moments, timer := false }
  let s1 := closeClaims s.noteMoment
  let s2 := { s1 with stop := { s1.stop with record := some rec', station := .fault } }
  let s3 := markTakes (requestPark s2 .fault) .fault (fun _ => true)
  produce s3 key (.fault kind mech earlier false (line.getD 0))

/-- A further fault, in FAULT before CLEAR has begun its homing (R151). Its notice repeats the record's earlier kind, key and
line (DESIGN CHOICE, Log 49). -/
def furtherFault (s : State) (kind : StopKind) (mech : Option Mech) : State :=
  match s.stop.record with
  | some r =>
    let s1 := { s with stop := { s.stop with record := some { r with mech := if mech.isSome then mech else r.mech } } }
    produce s1 r.key (.fault kind mech r.earlier true (r.line.getD 0))
  | none => s

/-- The station enters HALT (R153): every window is cancelled (R174), the lamp goes OFF (R120), every held take is to be
released, a homing in progress is not gone on with, and a HALT notice is produced. -/
def enterHalt (s : State) (mech : Mech) (atClear : Bool) : State :=
  let rec' : StopRecord :=
    { kind := .mechanism, key := none, line := none, font := none, door := none, mech := some mech, earlier := none,
      toHold := false, timeRaised := Config.moment s.moments, timer := false }
  let s1 := cancelWindows (lampOff s.noteMoment) (fun _ => true)
  let s2 := { s1 with
    stop := { s1.stop with record := some rec', station := .halt, clearing := false }
    exp := { s1.exp with homing := none, phase := if s1.exp.homing.isSome then .idle else s1.exp.phase } }
  produce (markTakes s2 .halt (fun _ => true)) none (.halt mech atClear)

/-- A fault is reported to Stop Control. In START it ends start-up, and the station goes to HALT after the ANNOUNCE (R202);
while CLEAR is homing it sends the station to HALT (R153). -/
def reportFault (s : State) (kind : StopKind) (mech : Option Mech) : State :=
  match s.stop.station with
  | .halt => s
  | .start =>
    { s with panel := { s.panel with
        startFault := if s.panel.startFault.isSome then s.panel.startFault else some (mech.getD .film) } }
  | .fault => if s.stop.clearing then enterHalt s (mech.getD .film) true else furtherFault s kind mech
  | _ => takeFault s kind mech

end Sys2Proof.Machine
end

