-- ==== Sys2Proof/Machine/Film.lean ====
section
/-! DEFINITION. Film Transport (chapter 7): the film check, line advances, galleys, cuts, the manifest and the doors of the
cassette and the take-up. -/

namespace Sys2Proof.Machine

/-! ### Galleys (R133, R137) -/

def noGalleyFlags : GalleyFlags :=
  { complete := false, continuedFrom := false, continuedTo := false, spoiled := none, killed := false, reset := false,
    uncut := false }

/-- A galley is opened for a line: it takes the next galley sequence, and is flagged continued-from when that is 2 or more
(R133). The composition context takes its number as that of the take's current galley (R16); with no galley open the context
keeps the last number it had, and a snapshot the one it was taken with (DESIGN CHOICE, Log 36). -/
def openGalley (s : State) (key : Key) (line : Nat) : State :=
  let seq := s.film.nextSeq.getD 1
  let g : Galley :=
    { key := key, seq := seq, first := line, last := none, length := 0,
      flags := { noGalleyFlags with continuedFrom := decide (2 ≤ seq) } }
  { s with film := { s.film with galley := some g }
           comp := { s.comp with ctx := s.comp.ctx.map (fun c => { c with galleySeq := seq }) } }

/-- The flags a cut gives the galley it closes (R135). -/
def CutRequest.flags (c : CutRequest) (f : GalleyFlags) : GalleyFlags :=
  match c.asker with
  | .endCut => { f with complete := true }
  | .park | .operator => { f with continuedTo := true }
  | .spoil => { f with continuedTo := true, spoiled := c.spoiled }
  | .kill => { f with killed := true }
  | .reset => { f with reset := true }
  | .blank => f

/-- The open galley's record is closed and appended to the manifest (R134, R137): the take's counters take it in, the
next galley sequence of the pass, where there is one (R141), is its sequence plus 1 (R133), and the advanced mark is
cleared (R111). The film used counter takes the galley's whole length, with the trailer of an operator's galley cut (DESIGN
CHOICE, Log 64). -/
def closeGalley (s : State) (mark : GalleyFlags → GalleyFlags) : State :=
  match s.film.galley with
  | some g =>
    let s1 := s.modTake g.key (fun t =>
      { t with counters := { t.counters with
          galleys := satAdd Config.top16 t.counters.galleys 1
          filmUsed := satAdd Config.top24 t.counters.filmUsed g.length } })
    { s1 with
        film := { s1.film with galley := none, nextSeq := s.film.nextSeq.map (fun _ => satAdd Config.top16 g.seq 1)
                               manifest := s1.film.manifest ++ [{ g with flags := mark g.flags }] }
        exp := { s1.exp with mark := none } }
  | none => s

/-- The open galley grows by the steps of film moved (R132, R134). -/
def growGalley (s : State) (n : Nat) : State :=
  { s with film := { s.film with galley := s.film.galley.map (fun g => { g with length := g.length + n }) } }

/-! ### Cuts (R134, R135) -/

/-- A cut of the open galley is in progress (R130). -/
def Transport.cuts : Transport → Bool
  | .trailing c | .cutting c => c.asker ≠ .blank
  | _ => false

/-- A request for a cut of the open galley (R130). -/
def FilmRequest.cuts : FilmRequest → Bool
  | .cut c => c.asker ≠ .blank
  | .advance _ _ => false

/-- A cut of the open galley waits or is in progress: the galley takes no further line (R134, R140). -/
def Film.closing (f : Film) : Bool := f.transport.cuts || f.waiting.any FilmRequest.cuts

/-- A cut is reported done to whoever asked for it (R134). -/
def cutDone (s : State) (c : CutRequest) : State :=
  match c.asker with
  | .endCut | .park | .kill => s.modPass (fun p => { p with cutDone := true })
  | .spoil => { s with stop := { s.stop with spoilCut := false } }
  | .reset | .operator | .blank => s

/-- A cut is asked for: with no galley open it is reported done at once, and otherwise it waits its turn (R130, R134). -/
def askCut (s : State) (c : CutRequest) : State :=
  if s.film.galley.isNone ∧ c.asker ≠ .blank then cutDone s c
  else { s with film := { s.film with waiting := s.film.waiting ++ [.cut c] } }

/-- The end of a cut: the galley's record is closed, Film Transport is IDLE, and the cut is reported done (R134). -/
def finishCut (s : State) (c : CutRequest) (uncut : Bool) : State :=
  let s1 := { s with film := { s.film with transport := .idle } }
  let s2 := if c.asker = .blank then s1
    else closeGalley s1 (fun f => let g := c.flags f; { g with uncut := g.uncut || uncut })
  cutDone s2 c

/-- The second step of a cut: the cutter, or the record closed uncut where the cutter is not usable (R134). -/
def toCutter (s : State) (c : CutRequest) : State :=
  if s.film.cutterOk then { s with film := { s.film with transport := .cutting c } } else finishCut s c true

/-- A cut is begun (R134): its trailer, at most the film remaining, or straight to the cutter where the film drive is not
usable. A trailer of 0 steps changes no count (R129). -/
def beginCut (s : State) (c : CutRequest) : State :=
  if s.film.galley.isNone ∧ c.asker ≠ .blank then cutDone s c
  else if s.film.driveOk then
    let t := min Config.trailer s.film.remaining
    if t = 0 then toCutter s c
    else
      let s1 := growGalley (setFilm s (s.film.remaining - t) s.film.known) t
      { s1 with film := { s1.film with transport := .trailing c } }
  else toCutter s c

/-! ### Line advances (R131, R132) -/

/-- The film check for a line of this leading (R131). -/
def Film.checks (f : Film) (leading : Nat) : Bool := decide (5 * leading + Config.trailer ≤ f.remaining)

/-- No galley is open and the manifest is full, so that an advance would open a galley that could not be recorded (R109,
R131). -/
def Film.manifestFull (f : Film) : Bool := f.galley.isNone && decide (Config.manifestRecords ≤ f.manifest.length)

/-- Why an advance is refused, in the order of R131's table (Log 38). -/
inductive AdvanceRefusal where
  | film | door | takeup | mechanism
deriving DecidableEq, Repr

def refuseAdvance (s : State) (leading : Nat) : Option AdvanceRefusal :=
  if s.film.checks leading = false then some .film
  else if s.film.galley.isNone && s.pins.takeupOpen then some .door
  else if s.film.manifestFull then some .takeup
  else if s.film.driveOk = false then some .mechanism
  else none

/-- An advance that is not refused: a galley is opened if none is, the film moves by 5 steps for each half-point (R132). A
leading of 0 commands nothing. -/
def beginAdvance (s : State) (key : Key) (line leading : Nat) : State :=
  let s1 := if s.film.galley.isNone then openGalley s key line else s
  if leading = 0 then s1
  else
    let s2 := growGalley (setFilm s1 (s1.film.remaining - 5 * leading) s1.film.known) (5 * leading)
    { s2 with film := { s2.film with transport := .advancing } }

/-- The leading galley request is taken off the waiting list. -/
def dropRequest (s : State) : State := { s with film := { s.film with waiting := s.film.waiting.tail } }

/-! ### The manifest (R138) -/

/-- A list cut into pieces of `n`, with fuel. -/
def chunks (n : Nat) : Nat → List Galley → List (List Galley)
  | 0, _ => []
  | fuel + 1, l => if l.length ≤ n then [l] else l.take n :: chunks n fuel (l.drop n)

/-- The MANIFEST notices: 16 records to a notice, numbered from 1; a manifest of no records gives one notice (R138). -/
def produceManifest (s : State) : State :=
  let parts := chunks Config.manifestChunk 8 s.film.manifest
  let s1 := parts.zipIdx.foldl
    (fun st p => produce st none (.manifest (p.2 + 1) parts.length p.1)) s
  { s1 with film := { s1.film with manifest := [], removal := false } }

/-- The steps of film a cassette code stands for (R128). -/
def cassetteSteps (code : Fin 4) : Nat :=
  match code with
  | 0 => 0
  | 1 => 850000
  | 2 => 1275000
  | 3 => 1700000

/-- A cassette load clears the low-notified flag, then sets the count (R128, R129); one of code 0 gives its FILM-LOW notice at
once also during the start-up after power-on, whose own notice still follows (DESIGN CHOICE, Log 54). -/
def loadCassette (s : State) (code : Fin 4) : State :=
  setFilm { s with film := { s.film with lowNotified := false } } (cassetteSteps code) true

end Sys2Proof.Machine
end

