-- ==== Sys2Proof/Machine/Proof.lean ====
section
/-! DEFINITION. The Proof Port (chapter 5): rendering a header and a line, sending characters, and the paper-out condition. -/

namespace Sys2Proof.Machine

/-! ### Rendering (R90, R91, R92) -/

/-- The decimal digits of a number as characters, in so many columns with leading zeros. -/
def digits : (columns n : Nat) → List Nat
  | 0, _ => []
  | k + 1, n => digits k (n / 10) ++ [0x30 + n % 10]

/-- How many decimal digits a number below 10,000 has. -/
def digitCount (n : Nat) : Nat := if n < 10 then 1 else if n < 100 then 2 else if n < 1000 then 3 else 4

/-- A line number in columns 6 to 9 (R90). -/
def lineNumberColumns (n : Nat) : List Nat :=
  if n ≤ 9999 then List.replicate (4 - digitCount n) 0x20 ++ digits (digitCount n) n else digits 4 (n % 10000)

/-- A flag's letter where it is marked. -/
def letter (b : Bool) (c : Nat) : List Nat := if b then [c] else []

/-- The flag letters H, L, S, O, A and Z, padded to five columns (R90). -/
def flagColumns (f : LineFlags) : List Nat :=
  let l := letter f.hyphenated 0x48 ++ letter f.loose 0x4C ++ letter f.letterspaced 0x53 ++ letter f.overset 0x4F ++
    letter f.absentPresent 0x41 ++ letter f.substituted 0x5A
  l ++ List.replicate (5 - l.length) 0x20

/-- The text of a proof line, where `font` is the font of the nearest character box before (R91). An added hyphen is a character
box like any other here: after a fixed space of another font than that box's, whose font the hyphen then carries (R40), it is
preceded by '^' (DESIGN CHOICE, Log 56). -/
def renderItems : (font : Nat) → List LineItem → List Nat
  | _, [] => []
  | font, i :: l =>
    if i.code = 0x20 then 0x20 :: renderItems font l
    else
      (if i.font = font then [] else [0x5E]) ++
      [if i.absent then 0x3F else if i.code ≤ 0x7E then i.code else 0x2A] ++ renderItems i.font l

/-- The text columns 11 to 132 (R91). -/
def textColumns (text : List Nat) : List Nat := if text.length ≤ 122 then text else text.take 121 ++ [0x3E]

/-- A line's characters to its last column that is not blank, then 0x0D 0x0A (R87). -/
def sendable (columns : List Nat) : List Nat :=
  (columns.reverse.dropWhile (fun c => c == 0x20)).reverse ++ [0x0D, 0x0A]

/-- A proof line as its 132 columns, without the blanks that end it (R90). -/
def renderLine (firstFont : Nat) (r : LineRecord) : List Nat :=
  sendable (flagColumns r.flags ++ lineNumberColumns r.number ++ [0x20] ++ textColumns (renderItems firstFont r.items))

/-- The name of a header kind. -/
def HeaderKind.name : HeaderKind → List Nat
  | .film => [0x46, 0x49, 0x4C, 0x4D]
  | .proof => [0x50, 0x52, 0x4F, 0x4F, 0x46]
  | .reproof => [0x52, 0x45, 0x50, 0x52, 0x4F, 0x4F, 0x46]
  | .resumed => [0x52, 0x45, 0x53, 0x55, 0x4D, 0x45, 0x44]

/-- The header line (R92): TAKE, the key, the kind, STN, the station, CLASS, the class. -/
def renderHeader (k : HeaderKind) (t : Take) (station : Nat) : List Nat :=
  sendable ([0x54, 0x41, 0x4B, 0x45, 0x20] ++ digits 2 t.key.origin ++ [0x2D] ++ digits 5 t.key.number ++ [0x20] ++
    k.name ++ [0x20, 0x53, 0x54, 0x4E, 0x20] ++ digits 2 station ++ [0x20, 0x43, 0x4C, 0x41, 0x53, 0x53, 0x20] ++
    digits 1 t.cls)

/-! ### Sending (R87, R89) -/

/-- The Proof Port may take or begin something: in every station state but START and HALT, with paper (R89). -/
def State.printing (s : State) : Bool := s.stop.station ≠ .start && s.stop.station ≠ .halt && !s.paperOut

/-- The port, idle, takes the first record with proof-pending set and renders it, its header before it where the marker is
set; where the line-open flag is set, 0x0D 0x0A is sent first (R89, R87). -/
def takeLine (s : State) : Option State :=
  match s.printing, s.proof.segs, s.proof.inFlight, s.store.records.find? (fun r => r.proofPending), s.active? with
  | true, [], none, some r, some t =>
    let close : List ProofSeg := if s.proof.lineOpen then [{ kind := .close, chars := [0x0D, 0x0A] }] else []
    let header : List ProofSeg := match s.store.marker with
      | some k => [{ kind := .header, chars := renderHeader k t s.number }]
      | none => []
    let body : ProofSeg := { kind := .line r.number, chars := renderLine (t.fonts.headD 0) r }
    some { s with proof := { s.proof with segs := close ++ header ++ [body], kind := s.passKind, attached := true } }
  | _, _, _, _, _ => none

/-- The port begins the next character while BUSY is released (R87). -/
def beginChar (s : State) : Option State :=
  match s.printing && !s.pins.busy, s.proof.inFlight, s.proof.segs with
  | true, none, seg :: rest =>
    match seg.chars with
    | [] => some { s with proof := { s.proof with segs := rest } }
    | [c] =>
      some { s with proof := { s.proof with
        inFlight := some { char := c, ends := some seg.kind }, segs := rest
        lineOpen := s.proof.lineOpen || seg.kind ≠ .close } }
    | c :: cs =>
      some { s with proof := { s.proof with
        inFlight := some { char := c, ends := none }, segs := { seg with chars := cs } :: rest
        lineOpen := s.proof.lineOpen || seg.kind ≠ .close } }
  | _, _, _ => none

/-- The bits of the Proof Port's serial output (R87). -/
inductive SerialBit where
  | start | data (value : Bool) | stop
deriving DecidableEq, Repr

/-- A character on the serial output, at `proofRate` (R87): one start bit, 8 data bits with the least significant first, no
parity bit, and one stop bit. -/
def serialFrame (c : Nat) : List SerialBit :=
  [.start] ++ (List.range 8).map (fun i => .data ((c / 2 ^ i) % 2 == 1)) ++ [.stop]

/-- The bits of the character being sent (R87). -/
def ProofPort.serialOut (p : ProofPort) : List SerialBit := p.inFlight.elim [] (fun c => serialFrame c.char)

/-- A character other than the last of a proof or header line has been sent (R87). -/
def charSent (s : State) : State :=
  match s.proof.inFlight with
  | some { ends := none, .. } => { s with proof := { s.proof with inFlight := none } }
  | some { ends := some .close, .. } => { s with proof := { s.proof with inFlight := none, lineOpen := false } }
  | _ => s

/-- Proof-pending is cleared on the record of this line (R82). -/
def clearProof (s : State) (n : Nat) : State :=
  { s with store := { s.store with
      records := s.store.records.map (fun r => if r.number = n then { r with proofPending := false } else r) } }

/-- The 0x0A of a header line or of a proof line has been sent (R89, R92). -/
def lineSent (s : State) : State :=
  match s.proof.inFlight with
  | some { ends := some .header, .. } =>
    let s1 := { s with proof := { s.proof with inFlight := none, lineOpen := false } }
    if s.proof.attached then { s1 with store := { s1.store with marker := none } } else s1
  | some { ends := some (.line n), .. } =>
    let s1 := { s with proof := { s.proof with inFlight := none, lineOpen := false, attached := false } }
    if s.proof.attached then clearProof s1 n else s1
  | _ => s

/-! ### Paper out (R88, R93, R94) -/

/-- R93: proof-pending is cleared on every record, the proof state becomes partial from the lowest line among them, or from
the next line of the context, and no later line of the take's FILM passes is proofed (Log 45). -/
def dropProof (s : State) : State :=
  let lost := s.store.records.filter (fun r => r.proofPending)
  let s0 : State := { s with store := { s.store with
    records := s.store.records.map (fun r => { r with proofPending := false }) } }
  let s1 := s0.modActive (fun t => { t with proofDropped := true })
  match lost, s.comp.ctx with
  | _ :: _, _ =>
    s1.modActive (fun t => { t with proofState := lost.foldl (fun p r => p.without r.number) t.proofState })
  | [], some x => s1.modActive (fun t => { t with proofState := t.proofState.without x.nextLine })
  | [], none => s1

/-- The pass of the ACTIVE take as a notice gives it (R88). -/
def State.noticePass (s : State) : Option HeaderKind :=
  match s.pass, s.active? with
  | some p, some t => some (headerKind p.kind t)
  | _, _ => none

/-- The paper-out condition begins (R88): a PROOF-PAPER notice, and R93 in a FILM pass or the paper timer in a PROOF pass
(R94). What a port in a FILM pass had not sent is discarded, and the line-open flag left set (R89, Log 34). A port that
still sends a line of an earlier pass goes by the pass that line is of (DESIGN CHOICE, Log 46). -/
def paperBegins (s : State) : State :=
  let s1 := produce s s.activeKey (.proofPaper s.noticePass false)
  let s2 :=
    if s1.proof.kind = .film then
      { s1 with proof := { s1.proof with segs := [], lineOpen := s1.proof.lineOpen || !s1.proof.segs.isEmpty } }
    else s1
  match s2.pass with
  | some p =>
    match p.kind with
    | .film => dropProof s2
    | .proof => { s2 with proof := { s2.proof with paperTimer := true } }
  | none => s2

/-- The paper-out condition ends: the paper timer is stopped (R94). -/
def paperEnds (s : State) : State := { s with proof := { s.proof with paperTimer := false } }

/-- The inputs change the condition from what it was in `s` (R88). -/
def paperChange (s s' : State) : State :=
  match s.paperOut, s'.paperOut with
  | false, true => paperBegins s'
  | true, false => paperEnds s'
  | _, _ => s'

/-- The PAPER input (R88). -/
def setPaper (s : State) (present : Bool) : State := paperChange s { s with pins := { s.pins with paper := present } }

/-- The BUSY input (R87, R88): a BUSY stall ends when BUSY is released. -/
def setBusy (s : State) (asserted : Bool) : State :=
  paperChange s
    { s with pins := { s.pins with busy := asserted }
             proof := { s.proof with stall := s.proof.stall && asserted } }

/-- BUSY has been asserted for 60 s with a character waiting (R88). -/
def busyStall (s : State) : State :=
  if s.pins.busy = true ∧ s.proof.segs ≠ [] then paperChange s { s with proof := { s.proof with stall := true } } else s

/-- A PROOF pass cut short leaves the take with no resume point (R98): the store is emptied, the proof state becomes none,
and the start values are discarded. The paper timer is stopped (R94). -/
def cutProofPass (s : State) : State :=
  let s1 := (emptyStore { s with comp := idleCompositor }).modActive
    (fun t => { t with proofState := .none, startValues := none })
  { s1 with proof := { s1.proof with paperTimer := false } }

/-- The paper timer runs out: the PROOF pass is abandoned, and the take goes to QUEUED (R94). -/
def abandonPass (s : State) : State :=
  match s.proof.paperTimer, s.active? with
  | true, some t =>
    let s1 := cutProofPass s
    let s2 := produce s1 (some t.key) (.proofPaper (some (headerKind .proof t)) true)
    toQueued { s2 with pass := none } t.key
  | _, _ => s

end Sys2Proof.Machine
end

