-- ==== Sys2Proof/Machine/Exposure.lean ====
section
/-! DEFINITION. The Exposure Sequencer (chapter 6): the checks of a line, the seat scanner, the door interlock, MOUNT and
the survey; and the service of Film Transport's waiting requests (R130). -/

namespace Sys2Proof.Machine

/-- An item to be flashed: a character box whose absent flag is clear (R108). -/
def LineItem.flashable (i : LineItem) : Bool := decide (i.code ≠ 0x20) && !i.absent

/-- The record of the line in exposure. -/
def State.exposed? (s : State) : Option LineRecord :=
  s.exp.cur.bind (fun c => s.store.records.find? (fun r => r.number == c.line))

def modExp (s : State) (f : Exposer → Exposer) : State := { s with exp := f s.exp }
def modCur (s : State) (f : Exposure → Exposure) : State := modExp s (fun e => { e with cur := e.cur.map f })

/-- The line's exposure ends and the Exposure Sequencer goes to IDLE (R106). The advanced mark stays as it is. -/
def endExposure (s : State) : State := modExp s (fun e => { e with cur := none, phase := .idle })

/-- A line's exposure ends for a reason that is reported as a fault; a line already halted by a door ends by R116. -/
def endByFault (s : State) : State :=
  if s.exp.cur.any (fun c => c.halt.isSome) then s else endExposure s

/-! ### Beginning a line (R106, R118) -/

/-- In RUN, with no stop pending and a record still to be exposed, an idle Exposure Sequencer begins the first unexposed
line; a mark held by another line is gone (R106). -/
def beginExposure (s : State) : Option State :=
  match s.exp.phase, s.exp.cur, s.exp.homing, s.firstUnexposed with
  | .idle, none, none, some r =>
    if s.stop.station = .run ∧ s.stop.record = none then
      let c : Exposure :=
        { line := r.number, flashed := [], groups := [], used := [], checked := false, halt := none
          closeGalley := false }
      some (modExp s (fun e =>
        { e with phase := .checking, cur := some c, mark := if e.mark = some r.number then e.mark else none }))
    else none
  | _, _, _, _ => none

/-! ### The checks (R108, R109, R110) -/

/-- The font the font check calls for: that of the first item to be flashed whose font is not mounted (R108). -/
def missingFont (s : State) (r : LineRecord) : Option Nat :=
  (r.items.find? (fun i => i.flashable && !s.mounted i.font)).map (fun i => i.font)

/-- The line holds the advanced mark, in a galley that stays open: a galley of which a cut waits or is in progress takes no
further line, and its closing clears the mark (R111, R140, Log 53). -/
def State.holdsMark (s : State) (line : Nat) : Bool := decide (s.exp.mark = some line) && !s.film.closing

/-- The font check, then, for a line without the advanced mark, the film check and the manifest check (R108, R109). -/
def checkLine (s : State) : Option State :=
  match s.exp.phase, s.exp.cur, s.exposed? with
  | .checking, some c, some r =>
    if c.checked then none
    else match missingFont s r with
      | some f => some (raiseStop (endExposure s) .fontCall (some f) none)
      | none =>
        if s.holdsMark c.line then some (modCur s (fun c => { c with checked := true }))
        else if s.film.checks r.leading = false then some (raiseStop (endExposure s) .filmOut none none)
        else if s.film.manifestFull then some (raiseStop (endExposure s) .takeupFull none none)
        else some (modCur s (fun c => { c with checked := true }))
  | _, _, _ => none

/-! ### The seat scanner (R112) -/

/-- The seat of a font: the lowest-numbered one that holds it (R101). -/
def seatOf (seats : List Nat) (font : Nat) : Nat := seats.idxOf font

/-- The places in the line of the items to be flashed from this seat through this lens, in order (R112). -/
def itemsOf (seats : List Nat) (items : List LineItem) (seat lens : Nat) : List Nat :=
  (List.range items.length).filter (fun p =>
    (items[p]?).any (fun i => i.flashable && seatOf seats i.font == seat && i.lens == lens))

/-- The groups of one seat, lenses taken from `lens` in ascending number modulo 12 (R112). -/
def seatGroups (seats : List Nat) (items : List LineItem) (seat lens : Nat) : List FlashGroup :=
  (List.range 12).filterMap (fun k =>
    let l := (lens + k) % 12
    match itemsOf seats items seat l with
    | [] => none
    | is => some { seat := seat, lens := l, items := is })

/-- The lens that stands in the path after these groups. -/
def lensAfter (lens : Nat) (gs : List FlashGroup) : Nat :=
  match gs.getLast? with
  | some g => g.lens
  | none => lens

/-- The group order over `n` more seats, from `seat` on in ascending number modulo 8 (R112). -/
def groupsFrom (seats : List Nat) (items : List LineItem) : (n seat lens : Nat) → List FlashGroup
  | 0, _, _ => []
  | n + 1, seat, lens =>
    let gs := seatGroups seats items seat lens
    gs ++ groupsFrom seats items n ((seat + 1) % 8) (lensAfter lens gs)

/-- The group order of a line as it enters SCANNING (R112); an unknown position counts as 0 (Log 41). -/
def scanOrder (e : Exposer) (r : LineRecord) : List FlashGroup :=
  groupsFrom e.seats r.items 8 (e.turret.getD 0) (e.lens.getD 0)

/-- The line enters SCANNING with an empty flashed set (R111, R112). -/
def startScan (s : State) : State :=
  match s.exposed? with
  | some r =>
    modExp s (fun e =>
      { e with phase := .scanning
               cur := e.cur.map (fun c => { c with flashed := [], groups := scanOrder s.exp r, used := [] }) })
  | none => s

/-- A line that has passed its checks waits for the lamp if it holds an item to be flashed (R110), meets an open
photo-unit door, or goes to its advance or its scanner (R111). -/
def goLine (s : State) : Option State :=
  match s.exp.phase, s.exp.cur, s.exposed? with
  | .checking, some c, some r =>
    if c.checked then
      if r.items.any LineItem.flashable ∧ s.lamp.phase = .off then some (warmUp s)
      else if r.items.any LineItem.flashable ∧ s.lamp.phase = .warming then none
      else if s.pins.photoOpen then some (raiseStop (endExposure s) .door none (some .photo))
      else if s.holdsMark c.line then some (startScan s)
      else
        some (modExp { s with film := { s.film with waiting := s.film.waiting ++ [.advance c.line r.leading] } }
          (fun e => { e with phase := .advancing }))
    else none
  | _, _, _ => none

/-- Seats used by a line move to the most-recent end of the exposure list, in the order of use (R101). -/
def useSeats (order used : List Nat) : List Nat := used.foldl (fun o i => o.erase i ++ [i]) order

/-- The line is complete (R115): film-pending is cleared, the exposure list, the galley's last line (R133) and the line
stop count (R144) follow, and the advanced mark is cleared (R111). -/
def lineExposed (s : State) (c : Exposure) : State :=
  let s1 := s.modActive (fun t => { t with lineStop := none })
  { s1 with
    store := { s1.store with
      records := s1.store.records.map (fun r => if r.number = c.line then { r with filmPending := false } else r) }
    film := { s1.film with galley := s1.film.galley.map (fun g => { g with last := some c.line }) }
    exp := { s1.exp with order := useSeats s1.exp.order c.used, mark := none, cur := none, phase := .idle } }

/-- The seat scanner's next step (R113): the moves to the group's seat and lens, the carriage move to the item's step, and
the flash once the lamp is READY; a group with no item left is passed, and with no group left the line is complete. A
move to where a mechanism stands is complete at once (R103, R104). -/
def scanStep (s : State) : Option State :=
  match s.exp.phase, s.exp.cur, s.exposed? with
  | .scanning, some c, some r =>
    if c.halt.isSome ∨ s.exp.flash.isSome then none
    else match c.groups with
      | [] => some (lineExposed s c)
      | g :: gs =>
        match g.items with
        | [] => some (modCur s (fun c =>
            { c with groups := gs, used := if c.used.contains g.seat then c.used else c.used ++ [g.seat] }))
        | i :: _ =>
          let step := stepOf ((r.items[i]?).elim 0 (fun x => x.x))
          if s.exp.turretMove = none ∧ s.exp.turret ≠ some g.seat then
            some (modExp s (fun e => { e with turretMove := some g.seat }))
          else if s.exp.lensMove = none ∧ s.exp.lens ≠ some g.lens then
            some (modExp s (fun e => { e with lensMove := some g.lens }))
          else if s.exp.turretMove ≠ none ∨ s.exp.lensMove ≠ none ∨ s.exp.carriageMove ≠ none then none
          else if s.exp.carriage ≠ some step then some (modExp s (fun e => { e with carriageMove := some step }))
          else if s.lamp.phase = .ready then
            some (modExp s (fun e => { e with flash := some { item := i, duration := s.lamp.duration g.lens } }))
          else none
  | _, _, _ => none

/-- The flashed item joins the flashed set and leaves its group (R114). -/
def itemFlashed (c : Exposure) (i : Nat) : Exposure :=
  { c with
    flashed := c.flashed ++ [i]
    groups := match c.groups with
      | g :: gs => { g with items := g.items.filter (fun j => j ≠ i) } :: gs
      | [] => [] }

/-- The flash-done event (R114, R124, R125). A clamp run at 256 is a LAMP fault, which halts the line. -/
def flashDone (s : State) (reading : Nat) : State :=
  match s.exp.flash with
  | some f =>
    let s1 := modCur (modExp s (fun e => { e with flash := none })) (fun c => itemFlashed c f.item)
    let s2 := correctLamp s1 reading
    if s.lamp.faults reading then endByFault (reportFault s2 .lamp none) else s2
  | none => s

/-! ### Faults of the mechanisms (R103, R104, R113, R119) -/

/-- A move or flash has failed: a MECHANISM fault, and the line or the MOUNT it belonged to ends. -/
def mechanismFault (s : State) (m : Mech) : State := endByFault (reportFault s .mechanism (some m))

/-- The phase a completed MOUNT move leaves: IDLE, or CHECKING from the font check where a line was there (R119). -/
def mountDone (s : State) : State :=
  if s.exp.phase = .mounting then
    modExp s (fun e =>
      { e with phase := if e.cur.isSome then .checking else .idle
               cur := e.cur.map (fun c => { c with checked := false }) })
  else s

/-- The seat-index event of a turret move (R103). -/
def turretIndex (s : State) (seat : Nat) : State :=
  match s.exp.turretMove with
  | some t =>
    let s1 := modExp s (fun e => { e with turretMove := none, turret := some seat })
    if t = seat then mountDone s1 else mechanismFault s1 .turret
  | none => s

/-- The lens-index event of a lens turret move (R103). -/
def lensIndexEvent (s : State) (lens : Nat) : State :=
  match s.exp.lensMove with
  | some l =>
    let s1 := modExp s (fun e => { e with lensMove := none, lens := some lens })
    if l = lens then s1 else mechanismFault s1 .lens
  | none => s

/-- The position event of a carriage move (R104). -/
def carriagePosition (s : State) : State :=
  match s.exp.carriageMove with
  | some p => modExp s (fun e => { e with carriageMove := none, carriage := some p })
  | none => s

/-- A move times out: its mechanism's position is unknown (R103, R104). -/
def moveTimeout (s : State) (m : Mover) : State :=
  match m with
  | .turret =>
    if s.exp.turretMove.isSome then
      mechanismFault (modExp s (fun e => { e with turretMove := none, turret := none })) .turret
    else s
  | .lens =>
    if s.exp.lensMove.isSome then mechanismFault (modExp s (fun e => { e with lensMove := none, lens := none })) .lens
    else s
  | .carriage =>
    if s.exp.carriageMove.isSome then
      mechanismFault (modExp s (fun e => { e with carriageMove := none, carriage := none })) .carriage
    else s

/-- A flash times out: the item does not join the flashed set (R114). -/
def flashTimeout (s : State) : State :=
  if s.exp.flash.isSome then mechanismFault (modExp s (fun e => { e with flash := none })) .flash else s

/-! ### Doors (R116, R136, R138) -/

/-- A line is in ADVANCING or SCANNING. -/
def State.lineMoving (s : State) : Bool :=
  s.exp.cur.isSome && (s.exp.phase == .advancing || s.exp.phase == .scanning)

/-- A line halted by a door has flashed an item, or is flashing one: it will be spoiled as its exposure ends (R116). -/
def State.spoilDue (s : State) : Bool :=
  s.exp.cur.any (fun c => c.halt.isSome && (!c.flashed.isEmpty || s.exp.flash.isSome))

def FilmRequest.isAdvance : FilmRequest → Bool
  | .advance _ _ => true
  | .cut _ => false

/-- A door-open edge halts a line in ADVANCING or SCANNING (R116): no further flash is requested, an advance still waiting
is withdrawn (Log 26), and a DOOR stop is raised; a line already halted stays so, and a stop is recorded only where none is
pending (R143). -/
def haltLine (s : State) (door : Door) : State :=
  if s.lineMoving then
    let s1 := { s with film := { s.film with waiting := s.film.waiting.filter (fun q => !q.isAdvance) } }
    raiseStop (modCur s1 (fun c => { c with halt := some (c.halt.getD door) })) .door none (some door)
  else s

/-- Nothing of a halted line is still in progress (R116). -/
def State.quietLine (s : State) : Bool :=
  s.exp.flash.isNone && s.exp.turretMove.isNone && s.exp.lensMove.isNone && s.exp.carriageMove.isNone &&
  s.film.transport ≠ .advancing

/-- A halted line's exposure ends once nothing of it is in progress (R116, Log 27): the cassette door's galley is closed
(R136), and a line with flashed items is spoiled and its galley cut (R149). -/
def endHalted (s : State) : Option State :=
  match s.exp.cur with
  | some c =>
    if c.halt.isSome ∧ s.quietLine then
      let spoiled := if c.flashed = [] then none else some c.line
      let s1 := endExposure s
      let s2 := if c.closeGalley then
          closeGalley s1 (fun f => { f with continuedTo := true, spoiled := spoiled })
        else s1
      if c.flashed = [] then some s2
      else
        let s3 := { s2 with
          store := { s2.store with
            records := s2.store.records.map (fun r => if r.number = c.line then { r with spoiled := true } else r) }
          stop := { s2.stop with spoilCut := true } }
        some (askCut s3 { asker := .spoil, spoiled := some c.line })
    else none
  | none => none

/-- The photo-unit door opens (R116). -/
def photoDoorOpen (s : State) : State :=
  if s.pins.photoOpen then s else haltLine { s with pins := { s.pins with photoOpen := true } } .photo

/-- The cassette door opens with a galley open (R136): the galley closes at once, or when the line it halts ends its
exposure, or by the cut in progress, which closes it even where a line is halted too (Log 26). A line in CHECKING takes its
checks again, its advanced mark being gone (R111). -/
def cassetteDoorOpen (s : State) : State :=
  if s.pins.cassetteOpen then s
  else
    let s1 := { s with pins := { s.pins with cassetteOpen := true } }
    if s1.film.galley.isNone then s1
    else if s1.lineMoving then
      modCur (haltLine s1 .cassette) (fun c => { c with closeGalley := c.closeGalley || !s1.film.transport.cuts })
    else if s1.film.transport.cuts then s1
    else
      modCur (closeGalley s1 (fun f => { f with continuedTo := true }))
        (fun c => { c with checked := false })

/-- The take-up door opens (R138): a removal, or a DOOR stop where a galley is open. -/
def takeupDoorOpen (s : State) : State :=
  if s.pins.takeupOpen then s
  else
    let s1 := { s with pins := { s.pins with takeupOpen := true } }
    if s1.film.galley.isNone then { s1 with film := { s1.film with removal := true } }
    else if s1.lineMoving then haltLine s1 .takeup
    else raiseStop s1 .door none (some .takeup)

/-- The stop pending is of this kind. -/
def State.stopIs (s : State) (k : StopKind) : Bool := s.stop.record.any (fun r => r.kind == k)

/-- The take-up door closes (R138): after a removal the manifest is produced and a TAKEUP-FULL stop cleared (R148). -/
def takeupDoorClose (s : State) : State :=
  if s.pins.takeupOpen then
    let s1 := { s with pins := { s.pins with takeupOpen := false } }
    if s1.film.removal then
      let s2 := produceManifest s1
      if s2.stopIs .takeupFull then clearStop s2 else s2
    else s1
  else s

/-- The cassette door closes (R128, R139): the count is set, and a code of 1 to 3 clears a pending FILM-OUT stop (R146), at
once even where the park that its expiry asked for has not ended (DESIGN CHOICE, Log 50). -/
def cassetteDoorClose (s : State) (code : Fin 4) : State :=
  if s.pins.cassetteOpen then
    let s1 := loadCassette { s with pins := { s.pins with cassetteOpen := false, cassette := code } } code
    if code ≠ 0 ∧ s1.stopIs .filmOut then clearStop s1 else s1
  else s

/-! ### Film Transport's service (R130, R132) -/

/-- A line advance is complete: the line's advanced mark is set, and it goes to its scanner unless a door has halted it
(R111, R116). -/
def advanceComplete (s : State) : State :=
  match s.exp.cur with
  | some c =>
    if s.exp.phase = .advancing then
      let s1 := modExp s (fun e => { e with mark := some c.line })
      if c.halt.isSome then s1 else startScan s1
    else s
  | none => s

/-- A refused advance ends the line's exposure with nothing done, and raises its stop or its fault (R131). -/
def advanceRefused (s : State) : AdvanceRefusal → State
  | .film => raiseStop (endExposure s) .filmOut none none
  | .door => raiseStop (endExposure s) .door none (some .takeup)
  | .takeup => raiseStop (endExposure s) .takeupFull none none
  | .mechanism => mechanismFault s .film

/-- An idle Film Transport begins the first waiting request (R130). -/
def serveFilm (s : State) : Option State :=
  match s.film.transport, s.film.waiting with
  | .idle, .cut c :: _ => some (beginCut (dropRequest s) c)
  | .idle, .advance line leading :: _ =>
    let s1 := dropRequest s
    match refuseAdvance s1 leading with
    | some why => some (advanceRefused s1 why)
    | none =>
      let s2 := beginAdvance s1 (s.activeKey.getD { origin := 15, number := 0 }) line leading
      some (if leading = 0 then advanceComplete s2 else s2)
  | _, _ => none

/-- The advance-done event (R132, R134). -/
def advanceDone (s : State) : State :=
  match s.film.transport with
  | .advancing => advanceComplete { s with film := { s.film with transport := .idle } }
  | .trailing c => toCutter s c
  | _ => s

/-- A film movement times out (R132, R134). -/
def advanceTimeout (s : State) : State :=
  match s.film.transport with
  | .advancing =>
    mechanismFault { s with film := { s.film with transport := .idle, driveOk := false } } .film
  | .trailing c =>
    toCutter (reportFault { s with film := { s.film with driveOk := false } } .mechanism (some .film)) c
  | _ => s

/-- The cut event (R134). -/
def cutEvent (s : State) : State :=
  match s.film.transport with
  | .cutting c => finishCut s c false
  | _ => s

/-- The cutter times out: the galley is closed uncut all the same (R134). -/
def cutterTimeout (s : State) : State :=
  match s.film.transport with
  | .cutting c =>
    finishCut (reportFault { s with film := { s.film with cutterOk := false } } .mechanism (some .cutter)) c true
  | _ => s

/-! ### MOUNT (R119) -/

/-- The seat MOUNT presents (R119). -/
def mountSeat (s : State) : Nat :=
  if s.stopIs .fontCall then
    match s.exp.seats.findIdx? (fun f => f == 0) with
    | some i => i
    | none =>
      let fonts := match s.active? with
        | some t => t.fonts
        | none => []
      match s.exp.order.find? (fun i => !fonts.contains ((s.exp.seats[i]?).getD 0)) with
      | some i => i
      | none => s.exp.order.headD 0
  else (s.exp.turret.getD 0 + 1) % 8

/-- The MOUNT key (R119): accepted in HOLD and in STOPPED with the Exposure Sequencer IDLE or in CHECKING. A move to the
seat at the path is complete at once (R103). -/
def mountKey (s : State) : State :=
  if (s.stop.station = .hold ∨ s.stop.station = .stopped) ∧
      (s.exp.phase = .idle ∨ s.exp.phase = .checking) ∧ s.exp.homing = none then
    let seat := mountSeat s
    let s1 := modExp s (fun e => { e with phase := .mounting })
    if s.exp.turret = some seat then mountDone s1 else modExp s1 (fun e => { e with turretMove := some seat })
  else s

/-! ### The survey (R102) -/

/-- A seat code as the table holds it: 1 to 999, and anything else an empty seat (R102). -/
def seatFont (code : Nat) : Nat := if 1 ≤ code ∧ code ≤ 999 then code else 0

/-- The seat table a survey writes from eight readings. -/
def surveyed (tabs : List Nat) : List Nat := (List.range 8).map (fun i => seatFont ((tabs[i]?).getD 0))

/-- The exposure list after a survey: changed seats at the least-recent end, in ascending order (R101). -/
def surveyOrder (order before after : List Nat) : List Nat :=
  let changed := (List.range 8).filter (fun i => decide (before[i]? ≠ after[i]?))
  changed ++ order.filter (fun i => !changed.contains i)

/-- A PARKED take whose called font is on a seat (R102, R157). -/
def Take.calledFor (t : Take) (seats : List Nat) : Bool :=
  match t.state, t.parkReason with
  | .parked, some (.fontCall f) => seats.contains f
  | _, _ => false

/-- Takes parked for a font now mounted return to QUEUED (R102), which wakes a station in STANDBY (R204). -/
def returnCalled (s : State) : State :=
  if s.takes.any (fun t => t.calledFor s.exp.seats) then
    wake { s with takes := s.takes.map (fun t => if t.calledFor s.exp.seats then t.queued else t) }
  else s

/-- A FONT-CALL stop whose font is now mounted is cleared (R102, R145); a park of its take goes on to its end. -/
def clearFontCall (s : State) : State :=
  match s.stop.record with
  | some r =>
    if r.kind = .fontCall ∧ r.font.any (fun f => s.mounted f) then clearStop s else s
  | none => s

/-- A survey (R102): the seat table and the exposure list are written, a line in CHECKING goes back to its font check, and
the fonts now mounted are reported. -/
def survey (s : State) (tabs : List Nat) : State :=
  let s1 := modCur
    (modExp { s with pins := { s.pins with tabs := tabs } } (fun e =>
      { e with seats := surveyed tabs, order := surveyOrder e.order e.seats (surveyed tabs) }))
    (fun c => if s.exp.phase = .checking then { c with checked := false } else c)
  clearFontCall (returnCalled s1)

/-- The photo-unit door closes (R117). -/
def photoDoorClose (s : State) (tabs : List Nat) : State :=
  if s.pins.photoOpen then survey { s with pins := { s.pins with photoOpen := false } } tabs else s

end Sys2Proof.Machine
end

