-- ==== Sys2Proof/Machine/Takes.lean ====
section
/-! DEFINITION. The Take Queue (chapter 10): bids, claims won, reception, selection and passes, parks (R155 to R157), kills,
approvals, and releases. -/

namespace Sys2Proof.Machine

/-! ### The copy store's blocks (R180) -/

/-- Blocks reserved or in use. -/
def State.usedBlocks (s : State) : List Nat := s.takes.foldl (fun l t => l ++ t.blocks ++ t.reserved) []

/-- The free blocks, ascending (R180). -/
def State.freeBlocks (s : State) : List Nat :=
  (List.range Config.copyBlocks).filter (fun b => !s.usedBlocks.contains b)

/-- The blocks a copy of this length needs (R180). -/
def blocksFor (n : Nat) : Nat := ceilDiv n Config.blockBytes

/-! ### Bids (R181, R182) -/

/-- The distinct fonts the held takes name. -/
def State.heldFonts (s : State) : List Nat := distinct (s.takes.foldl (fun l t => l ++ t.fonts) [])

/-- The station bids on this offer, any window already open for its key apart (R181). -/
def State.eligible (s : State) (m : OfferMsg) : Bool :=
  (s.stop.station == .run || s.stop.station == .standby) && !s.line.mute &&
  (s.take? m.key).isNone && decide (s.takes.length < Config.maxTakes) &&
  decide (blocksFor m.copyLen ≤ s.freeBlocks.length) &&
  decide ((distinct (s.heldFonts ++ m.fonts)).length ≤ Config.maxFonts) &&
  decide (m.film + Config.trailer ≤ s.film.remaining) &&
  (decide (m.scarce = 0) || m.fonts.all (fun f => s.width.isValid f)) &&
  (decide (m.mode = 0) || !s.paperOut)

/-- The cost of a bid (R182). -/
def State.cost (s : State) (m : OfferMsg) : Nat :=
  let fonts := distinct m.fonts
  min 31
    (4 * (fonts.filter (fun f => !s.mounted f)).length + (fonts.filter (fun f => !s.width.isValid f)).length +
     min 8 (ceilDiv ((s.takes.map (fun t => t.received)).sum) 4096) +
     (if s.stop.station = .standby then 3 else 0) + (if s.filmShort then 2 else 0))

/-- An OFFER (R181, R182): a claim window of cost·16 + station number slots, where the station bids and the Line Interface
has room for one (R172). -/
def hearOffer (s : State) (sender : Nat) (m : OfferMsg) : State :=
  if s.eligible m ∧ s.line.windows.any (fun w => w.what.isClaimFor m.key) = false ∧ s.windowRoom then
    openWindow s (.claim sender m (s.cost m)) (s.cost m * 16 + s.number) (some (.claim m.key (s.cost m)))
  else s

/-- A claim window whose offer fails the test of R181 is withdrawn (R182). -/
def WindowFor.fails (s : State) : WindowFor → Bool
  | .claim _ m _ => !s.eligible m
  | .answer _ => false

/-- Open claim windows are tested again (R182, R183 step 5). -/
def retestWindows (s : State) : Option State :=
  if s.line.windows.any (fun w => w.what.fails s && !s.line.windowBegun w) then
    some (cancelWindows s (WindowFor.fails s))
  else none

/-! ### A claim won (R183) -/

def zeroCounters : Counters :=
  { lines := 0, hyphenated := 0, loose := 0, letterspaced := 0, overset := 0, absent := 0, substituted := 0
    copyErrors := 0, clamped := 0, galleys := 0, filmUsed := 0 }

/-- The record a won claim makes (R183, step 1). -/
def newTake (sender : Nat) (m : OfferMsg) (reserved : List Nat) : Take :=
  { key := m.key, cls := m.cls, proofFirst := decide (m.mode = 1), fonts := m.fonts, copyLen := m.copyLen
    sender := sender, received := 0, blocks := [], reserved := reserved, mismatched := false, film := m.film
    preLen := 0, preErrors := 0, exceptions := [], context := m.context, state := .receiving, widthsReady := false
    approved := false, approvalPending := false, reproof := false, scarce := false, widthsChanged := false
    copyComplete := false, startValues := none, proofGen := none, counters := zeroCounters, proofState := .none
    proofDropped := false, lineStop := none, parkReason := none, release := none, tries := 0, claimant := none
    timer := some .stall, sentEnd := [], sending := none, offerDue := false, reoffer := false, reask := none }

/-- The mark a take made in FAULT or HALT bears at once, the request naming every held take (R150, R153, Log 17). -/
def State.standingMark (s : State) : Option ReleaseReason :=
  match s.stop.station with
  | .fault => some .fault
  | .halt => some .halt
  | _ => none

/-- The station's CLAIM has been sent (R183): the record is made, its fonts claimed, the lamp warmed and the station woken,
and the other open claim windows are tested again (step 5). -/
def claimWon (s : State) (sender : Nat) (m : OfferMsg) : State :=
  let t := { newTake sender m (s.freeBlocks.take (blocksFor m.copyLen)) with release := s.standingMark }
  let s1 := wake (warmUp (markReady (claimFonts { s with takes := s.takes ++ [t] } m.fonts)))
  cancelWindows s1 (WindowFor.fails s1)

/-! ### Receiving copy (R184, R185) -/

/-- The record that takes a COPY or a COPY-END of this key from this sender (R184). -/
def State.receiver? (s : State) (k : Key) (sender : Nat) : Option Take :=
  (s.take? k).bind (fun t =>
    if t.state = .receiving ∧ t.copyComplete = false ∧ t.sender = sender then some t else none)

/-- The record after `n` more bytes, with the blocks they bring into use (R180). -/
def Take.receive (t : Take) (n : Nat) : Take :=
  let need := blocksFor (t.received + n) - t.blocks.length
  { t with received := t.received + n, blocks := t.blocks ++ t.reserved.take need, reserved := t.reserved.drop need }

/-- A COPY (R184). -/
def hearCopy (s : State) (sender : Nat) (k : Key) (offset : Nat) (data : List Byte) : State :=
  match s.receiver? k sender with
  | some t =>
    let s1 := s.modTake k (fun x => { x with timer := some .stall })
    if t.mismatched then s1
    else if offset = t.received ∧ offset + data.length ≤ t.copyLen then
      let t' := t.receive data.length
      { s1.modTake k (fun x => x.receive data.length) with mem := storeCopy s.mem t'.blocks offset data }
    else s1.modTake k (fun x => { x with mismatched := true })
  | none => s

/-- A frame is handed over, unless the station is muted, when its producer is told that it was not sent (R169). -/
def handFrame (s : State) (f : TxFrame) : State := if s.line.mute then s else putFrame s f

/-- Reception has failed: the record is freed and a REFUSED sent (R185). -/
def refuseCopy (s : State) (t : Take) (reason : Nat) : State :=
  handFrame (freeTake s t.key) (.refused t.key t.sender reason)

/-- A COPY-END (R185). On a muted station the TAKEN is refused at once, and the record freed. -/
def hearCopyEnd (s : State) (sender : Nat) (k : Key) (total : Nat) : State :=
  match s.receiver? k sender with
  | some t =>
    if t.mismatched = false ∧ total = t.copyLen ∧ total = t.received then
      if s.line.mute then freeTake s k
      else putFrame (s.modTake k (fun x => { x with copyComplete := true, timer := none })) (.taken k t.sender)
    else refuseCopy s t 1
  | none => s

/-- The stall timer expires (R185). -/
def stallExpires (s : State) (k : Key) : State :=
  match s.take? k with
  | some t => if t.state = .receiving ∧ t.timer = some .stall then refuseCopy s t 2 else s
  | none => s

/-- The copy of a take as numbers. -/
def copyBytes (s : State) (t : Take) : List Nat := (List.range t.copyLen).map (fun n => (copyByte s.mem t.blocks n).toNat)

/-- The station's own TAKEN has been sent (R185): the preamble is parsed (R1, R2) and the take goes to QUEUED. -/
def takenSent (s : State) (k : Key) : State :=
  match s.take? k with
  | some t =>
    if t.state = .receiving then
      let p := readPreamble (copyBytes s t)
      toQueued (s.modTake k (fun x =>
        { x with preLen := p.length, preErrors := min 255 p.errors, exceptions := p.entries })) k
    else s
  | none => s

/-- The station's own TAKEN will not be sent: the record is freed (R185). -/
def takenLost (s : State) (k : Key) : State :=
  match s.take? k with
  | some t => if t.state = .receiving then freeTake s k else s
  | none => s

/-! ### Selection and passes (R186, R187) -/

/-- The kind of a take's next pass (R187). -/
def Take.nextPass (t : Take) : PassKind := if t.proofFirst && !t.approved then .proof else .film

/-- The take counts as having its fonts mounted (R186). -/
def State.ready (s : State) (t : Take) : Bool := t.nextPass == .proof || t.fonts.all (fun f => s.mounted f)

/-- The selection keys of `t`, the claim order apart: a class, and whether its fonts must be waited for (R186). -/
def State.keyOf (s : State) (t : Take) : Nat := 2 * t.cls + (if s.ready t then 0 else 1)

/-- The first of a list, in claim order, by the keys of R186. -/
def State.first? (s : State) : List Take → Option Take
  | [] => none
  | t :: ts =>
    match s.first? ts with
    | some u => if s.keyOf t ≤ s.keyOf u then some t else some u
    | none => some t

/-- The candidates for selection (R186). -/
def State.candidates (s : State) : List Take :=
  s.takes.filter (fun t =>
    t.state == .queued && t.widthsReady && t.release.isNone && !(s.paperOut && t.nextPass == .proof))

/-- The generation values of a take as they stand (R96). -/
def genValues (s : State) (t : Take) : GenRecord :=
  { dict := s.hyph.gen, revisions := t.fonts.map (fun f => s.width.revision f), mixed := false }

/-- A selected take's pass starts (R187). What the Proof Port still sends is of an earlier pass, and clears nothing of this one
(R89, R92). -/
def startPass (s : State) (t : Take) : State :=
  let kind := t.nextPass
  let t1 : Take :=
    { t with
      state := .active, timer := none
      startValues := if kind = .proof then some (genValues s t) else t.startValues
      proofState := if t.context.isNone then .complete else t.proofState }
  let p : Pass :=
    { kind := kind, reported := false, cutAsked := false, cutDone := false, killing := false, emptied := false
      park := none }
  let seq := match t.context with
    | some c => max 1 c.galleySeq
    | none => 1
  let s1 := { s.modTake t.key (fun _ => t1) with
    pass := some p
    store := { s.store with marker := some (headerKind kind t) }
    proof := { s.proof with attached := false }
    film := { s.film with nextSeq := if kind = .film then some seq else s.film.nextSeq } }
  produce (startCompositor s1 t1) (some t.key)
    (.takeStart (headerKind kind t) t.cls (match t.context with
      | some c => c.nextLine
      | none => 1))

/-- A take is selected: no take is ACTIVE, the station is in RUN, and there is a candidate (R186). -/
def selectTake (s : State) : Option State :=
  if s.stop.station = .run ∧ s.active?.isNone then (s.first? s.candidates).map (startPass s) else none

/-! ### Parks (R155, R156, R157) -/

/-- The store answers a park once no line is in exposure (R84): the Compositor goes to IDLE, the store is emptied and the
park's cut asked for; in a PROOF pass there is no cut and no new context (R156). -/
def parkAnswer (s : State) : Option State :=
  match s.pass with
  | some p =>
    match p.park with
    | some q =>
      if q.answered ∨ s.exp.cur.isSome then none
      else match p.kind with
        | .film =>
          let s1 := s.modPass (fun p =>
            { p with cutAsked := true, park := some { q with answered := true, context := storeAnswer s } })
          some (askCut (emptyStore { s1 with comp := idleCompositor }) { asker := .park, spoiled := none })
        | .proof =>
          some ((cutProofPass s).modPass (fun p => { p with cutDone := true, park := some { q with answered := true } }))
    | none => none
  | none => none

/-- Whether a FILM-OUT stop is kept at the end of a park: its timer has run out (R146). -/
def StopRecord.kept (r : StopRecord) : Bool := r.kind == .filmOut && !r.timer

/-- Step 4 of R155: a restartable stop that names the take is cleared, a FILM-OUT stop at its expiry kept without a take. -/
def parkStop (s : State) (k : Key) : State :=
  match s.stop.record with
  | some r =>
    if r.kept then
      { s with stop := { s.stop with record := some { r with key := none, line := none } } }
    else dropStop s k
  | none => s

/-- What the Take Queue does with a take just PARKED (R157). -/
def afterPark (s : State) (k : Key) (reason : ParkReason) : State :=
  match reason with
  | .fontCall f => if s.mounted f then toQueued s k else s
  | .repeated => markTakes (toQueued s k) .repeated (fun t => t.key == k)
  | .filmOut | .fault => toQueued s k

/-- A park whose cut is done is finished (R155, steps 3 to 6; R156). After a PROOF pass the TAKE-PARKED carries the line number
and the galley sequence of the take's context record as it came, not brought into range (DESIGN CHOICE, Log 62). -/
def parkFinish (s : State) : Option State :=
  match s.pass, s.active? with
  | some p, some t =>
    match p.park with
    | some q =>
      if q.answered ∧ p.cutDone then
        let ctx := match p.kind with
          | .film => q.context.map (fun c => { c with galleySeq := s.film.nextSeq.getD 1 })
          | .proof => t.context
        let s1 := s.modTake t.key (fun x =>
          { x with context := ctx, lineStop := none, state := .parked, parkReason := some q.reason, timer := none })
        let at' := match ctx with
          | some c => (c.nextLine, c.galleySeq)
          | none => (1, 1)
        let s2 := { s1 with pass := none, film := { s1.film with nextSeq := none } }
        let s3 := produce s2 (some t.key) (.takeParked q.reason at'.1 at'.2)
        some (afterPark (parkStop s3 t.key) t.key q.reason)
      else none
    | none => none
  | _, _ => none

/-! ### The end of a pass (R189, R95 to R97) -/

/-- A pass goes on towards its own end: it is neither parked nor killed. -/
def Pass.runs (p : Pass) : Bool := !p.killing && p.park.isNone

/-- The end cut of a FILM pass is asked for (R189, R135). -/
def askEndCut (s : State) : Option State :=
  match s.pass with
  | some p =>
    if p.kind = .film ∧ p.reported ∧ p.runs ∧ p.cutAsked = false ∧ s.firstUnexposed.isNone ∧ s.exp.cur.isNone then
      some (askCut (s.modPass (fun p => { p with cutAsked := true })) { asker := .endCut, spoiled := none })
    else none
  | none => none

/-- The take is complete (R189): a TAKE-DONE notice, the composition context goes with the pass (section 1.5), and the record
is freed. -/
def completeTake (s : State) : Option State :=
  match s.pass, s.active? with
  | some p, some t =>
    if p.kind = .film ∧ p.reported ∧ p.runs ∧ p.cutAsked ∧ p.cutDone ∧ s.store.records = [] then
      let s1 := produce s (some t.key) (.takeDone (counterBlock s t))
      let s2 := { s1 with pass := none, comp := idleCompositor, film := { s1.film with nextSeq := none } }
      some (freeTake (dropStop s2 t.key) t.key)
    else none
  | _, _ => none

/-- The outcome of an approval check (R97): approved, or the reproof flag set with a REPROOF notice; the take goes to QUEUED
either way. -/
def settleApproval (s : State) (k : Key) (passes : Bool) : State :=
  if passes then toQueued (s.modTake k (fun t => { t with approved := true })) k
  else
    let s1 := produce (s.modTake k (fun t => { t with reproof := true })) (some k) .reproof
    toQueued s1 k

/-- The proof generation record of a pass that ends now (R96). -/
def endRecord (s : State) (t : Take) : GenRecord :=
  let v := genValues s t
  { v with mixed := decide (t.startValues ≠ some v) }

/-- A PROOF pass ends (R95 to R97): its record is made, and the take goes to PROOF-HOLD or is checked at once. -/
def endProofPass (s : State) : Option State :=
  match s.pass, s.active? with
  | some p, some t =>
    if p.kind = .proof ∧ p.reported ∧ p.runs ∧ s.store.records = [] then
      let g := endRecord s t
      let s1 := { s.modTake t.key (fun x => { x with proofGen := some g, startValues := none }) with
        pass := none, comp := idleCompositor, proof := { s.proof with paperTimer := false } }
      if t.approvalPending then
        some (settleApproval (s1.modTake t.key (fun x => { x with approvalPending := false })) t.key (!g.mixed))
      else some (s1.modTake t.key (fun x => { x with state := .proofHold, timer := none }))
    else none
  | _, _ => none

/-- The approval check of R97 on a take's record. -/
def approvalPasses (s : State) (t : Take) : Bool :=
  match t.proofGen with
  | some g => g == genValues s t
  | none => false

/-- An APPROVE (R190). -/
def hearApprove (s : State) (k : Key) : State :=
  match s.take? k with
  | some t =>
    if t.proofFirst = false then s
    else match t.state with
      | .proofHold => settleApproval s k (approvalPasses s t)
      | .active => if s.inPass .proof ∧ s.killing = false then s.modTake k (fun x => { x with approvalPending := true }) else s
      | .queued | .parked => if t.approved then s else s.modTake k (fun x => { x with approvalPending := true })
      | .receiving => s.modTake k (fun x => { x with approvalPending := true })
      | .releasing | .stranded => s
  | none => s

/-! ### Kills (R191, R192) -/

/-- Frames of a take's release still queued or waiting are withdrawn, and its watch ended (R191, Log 16). -/
def stopRelease (s : State) (k : Key) : State :=
  endWatch (withdraw s (fun f => f.isCopyOf k || f.isOfferOf k)) (.take k)

/-- A held take that is not ACTIVE is killed (R191): its notice is handed over before its record is freed (DESIGN CHOICE, Log
58). -/
def killHeld (s : State) (t : Take) : State :=
  let s1 := match t.state with
    | .receiving => withdraw s (TxFrame.isTakenOf t.key)
    | .releasing => stopRelease s t.key
    | _ => s
  freeTake (produce s1 (some t.key) (.takeKilled t.state (counterBlock s1 t))) t.key

/-- The ACTIVE take is killed (R192, step 1): the Compositor goes to IDLE, a stop naming the take is cleared, a park in
progress ends, and the paper timer is stopped (R94). -/
def killActive (s : State) (t : Take) : State :=
  if s.killing then s
  else
    let s1 := { s with comp := idleCompositor, proof := { s.proof with paperTimer := false } }
    dropStop (s1.modPass (fun p => { p with killing := true, park := none })) t.key

/-- A KILL (R191, R174). -/
def hearKill (s : State) (k : Key) : State :=
  let s1 := cancelWindows s (WindowFor.isClaimFor k)
  match s1.take? k with
  | some t => if t.state = .active then killActive s1 t else killHeld s1 t
  | none => s1

/-- Steps 2 and 3 of R192, once no line is in exposure: the store is emptied, and the galley cut; a PROOF pass is cut short,
with no cut (R94, R98). -/
def killEmpties (s : State) : Option State :=
  match s.pass with
  | some p =>
    if p.killing ∧ p.emptied = false ∧ s.exp.cur.isNone then
      match p.kind with
      | .proof => some ((cutProofPass s).modPass (fun p => { p with emptied := true, cutDone := true }))
      | .film =>
        let s1 := (emptyStore s).modPass (fun p => { p with emptied := true })
        if p.cutAsked then some s1
        else some (askCut (s1.modPass (fun p => { p with cutAsked := true })) { asker := .kill, spoiled := none })
    else none
  | none => none

/-- Step 4 of R192. -/
def killFinish (s : State) : Option State :=
  match s.pass, s.active? with
  | some p, some t =>
    if p.killing ∧ p.emptied ∧ p.cutDone then
      let s1 := produce s (some t.key) (.takeKilled .active (counterBlock s t))
      let s2 := { s1 with pass := none, film := { s1.film with nextSeq := none } }
      some (freeTake (dropStop s2 t.key) t.key)
    else none
  | _, _ => none

/-! ### Releases (R193 to R196) -/

/-- The text offset from which a released take's text is sent (R194, R17). A context received with an offer and not yet
brought into range may lie beyond the text: the end of the text is then sent from (DESIGN CHOICE, Log 51). -/
def Take.sendFrom (t : Take) : Nat :=
  match t.context with
  | some c => min t.textLen c.resume
  | none => 0

/-- The length of the copy a release sends (R194). -/
def Take.sendLen (t : Take) : Nat := t.copyLen - t.sendFrom

/-- The byte of the released copy at offset `n`: the preamble, then the text from the resume offset (R194). -/
def sendByte (s : State) (t : Take) (n : Nat) : Byte :=
  copyByte s.mem t.blocks (if n < t.preLen then n else n + t.sendFrom)

/-- The OFFER of a release (R194, step 1). -/
def Take.offer (t : Take) : OfferMsg :=
  { key := t.key, cls := t.cls, mode := one t.proofFirst, continuation := one t.context.isSome, scarce := one t.scarce
    copyLen := t.sendLen, film := t.film, fontCount := t.fonts.length, fonts := t.fonts
    context := t.context.map (fun c => { c with resume := 0 }) }

/-- The OFFER is handed over, its watch starting at once where mute refuses it (R194, R175). -/
def sendOffer (s : State) (k : Key) : State :=
  match s.take? k with
  | some t => if s.line.mute then startWatch s (.take k) else putFrame s (.offer t.offer)
  | none => s

/-- A take is offered (R194, step 1). -/
def beginOffer (s : State) (k : Key) (tries : Nat) (again : Bool) : State :=
  sendOffer
    (s.modTake k (fun t =>
      { t with
        state := .releasing, tries := tries, claimant := none, timer := none, parkReason := none, sending := none
        offerDue := false, reoffer := again, reask := none, sentEnd := if t.state = .releasing ∨ again then t.sentEnd else [] })) k

/-- A take whose release has failed goes to STRANDED; a STRANDED notice is produced unless it was offered after a strand
turn (R194, R195). -/
def strand (s : State) (k : Key) : State :=
  match s.take? k with
  | some t =>
    let s1 := s.modTake k (fun x =>
      { x with state := .stranded, timer := some .strandTurn, claimant := none, sending := none, offerDue := false })
    if t.reoffer then s1 else produce s1 (some k) (.stranded t.scarce)
  | none => s

/-- A release fails after its claim (R194): it is offered once more, or stranded. What is still queued of the copy is
withdrawn (Log 42). -/
def releaseFails (s : State) (k : Key) : State :=
  match s.take? k with
  | some t =>
    let s1 := withdraw s (TxFrame.isCopyOf k)
    if t.tries ≤ 1 then beginOffer s1 k 2 t.reoffer else strand s1 k
  | none => s

/-- The takes whose release may begin (R193). -/
def State.releasable (s : State) : List Take :=
  s.takes.filter (fun t => t.release.isSome &&
    (t.state == .queued || t.state == .parked || (t.state == .proofHold && t.release == some .halt)))

/-- The next release begins whenever no take is RELEASING (R193). -/
def beginRelease (s : State) : Option State :=
  if s.releasing?.isSome then none
  else match s.first? (s.takes.filter (fun t => t.state == .stranded && t.offerDue)) with
    | some t => some (beginOffer s t.key 2 true)
    | none => (s.first? s.releasable).map (fun t => beginOffer s t.key 1 false)

/-- The next COPY of a release is handed over, one at a time as the queue gives room (R194, R171); its COPY-END, whose
kind would go ahead of them, once the last COPY has left the queue (Log 14). -/
def feedCopy (s : State) : Option State :=
  match s.releasing? with
  | some t =>
    match t.claimant, t.sending with
    | some dest, some n =>
      if s.line.mute then some (releaseFails s t.key)
      else if s.line.waiting.any (TxFrame.isCopyOf t.key) then none
      else if n < t.sendLen then
        let len := min Config.copyData (t.sendLen - n)
        let data := (List.range len).map (fun i => sendByte s t (n + i))
        some (putFrame (s.modTake t.key (fun x => { x with sending := some (n + len) })) (.copy t.key dest n data))
      else if s.line.queue.any (fun e => e.frame.isCopyOf t.key) then none
      else some (putFrame (s.modTake t.key (fun x => { x with sending := none })) (.copyEnd t.key dest t.sendLen))
    | _, _ => none
  | none => none

/-- A CLAIM of another station (R174, R194, R196). -/
def hearClaim (s : State) (sender : Nat) (k : Key) : State :=
  let s1 := cancelWindows s (WindowFor.isClaimFor k)
  match s1.take? k with
  | some t =>
    if t.state = .releasing ∧ t.claimant = none ∧ s1.watched (.take k) then
      (endWatch s1 (.take k)).modTake k (fun x => { x with claimant := some sender, sending := some 0 })
    else s1
  | none => s1

/-- A TAKEN (R194, R196): from a station sent the take's COPY-END in the present release. The notice is handed over before the
record is freed (DESIGN CHOICE, Log 58). -/
def hearTaken (s : State) (sender : Nat) (k : Key) : State :=
  match s.take? k with
  | some t =>
    if (t.state = .releasing ∨ t.state = .stranded) ∧ t.sentEnd.contains sender then
      freeTake (produce (stopRelease s k) (some k) (.takeReleased sender)) k
    else s
  | none => s

/-- A REFUSED from the claimant (R194). -/
def hearRefused (s : State) (sender : Nat) (k : Key) : State :=
  match s.take? k with
  | some t => if t.state = .releasing ∧ t.claimant = some sender then releaseFails s k else s
  | none => s

/-- The TAKEN wait expires (R194). -/
def takenWaitExpires (s : State) (k : Key) : State :=
  match s.take? k with
  | some t => if t.state = .releasing ∧ t.timer = some .takenWait then releaseFails s k else s
  | none => s

/-- Steps 2 to 4 of R195: a STRANDED take whose reason is gone goes to QUEUED, and another waits to be offered again. -/
def decideStranded (s : State) (t : Take) : State :=
  if s.reasonGone t then s.modTake t.key (fun x => x.unstranded (s.allValid x))
  else s.modTake t.key (fun x => { x with offerDue := true, reask := none })

/-- The strand turn expires (R195): missing widths are re-asked first (R27). -/
def strandTurn (s : State) (k : Key) : State :=
  match s.take? k with
  | some t =>
    if t.state = .stranded ∧ t.timer = some .strandTurn then
      let s1 := s.modTake k (fun x => { x with timer := none })
      if t.scarce then
        let s2 := (distinct t.fonts).foldl reAskFont s1
        s2.modTake k (fun x => { x with reask := some ((distinct t.fonts).filter (fun f => s2.width.isAsking f)) })
      else decideStranded s1 t
    else s
  | none => s

/-- Every ask a re-ask made or joined has been answered or has failed (R27). -/
def reaskReport (s : State) : Option State :=
  (s.takes.find? (fun t => t.state == .stranded && t.reask == some [])).map
    (fun t => decideStranded (s.modTake t.key (fun x => { x with reask := none })) t)

/-- A lapse of an OFFER's watch (R194), or of an ask's (R26). -/
def lapse (s : State) (sub : Subject) : State :=
  if s.watched sub then
    let s1 := endWatch s sub
    match sub with
    | .take k =>
      match s1.take? k with
      | some t => if t.state = .releasing ∧ t.claimant = none then strand s1 k else s1
      | none => s1
    | .font f =>
      if s1.width.isAsking f then
        let s2 := { s1 with
          width := { s1.width with
            slots := s1.width.slots.map (fun sl => if sl.font == some f then { sl with state := .empty } else sl) }
          takes := s1.takes.map (fun t => if t.fonts.contains f then { t with scarce := true } else t) }
        markTakes (askEnded s2 f) .widths (fun t => t.fonts.contains f)
      else s1
  else s

/-- The aging timer of a QUEUED take expires (R188). -/
def agingExpires (s : State) (k : Key) : State :=
  s.modTake k (fun t =>
    if t.state = .queued ∧ t.timer = some .aging then
      { t with cls := t.cls - 1, timer := if 1 < t.cls then some .aging else none }
    else t)

end Sys2Proof.Machine
end

