-- ==== Sys2Proof/Machine/Startup.lean ====
section
/-! DEFINITION. Panel and Start-up (chapter 11): the two resets, the start-up sequence (R202), homing (R105), CLEAR (R152),
the keys (R203), and the timers of the stops and of STANDBY. -/

namespace Sys2Proof.Machine

/-! ### Homing (R105) -/

/-- Homing begins with the font turret; moves and flashes in progress are superseded (Log 29). -/
def startHoming (s : State) : State :=
  modExp s (fun e =>
    { e with
      turret := none, lens := none, carriage := none, turretMove := none, lensMove := none, carriageMove := none
      flash := none, cur := none, phase := .homing, homing := some .turret })

/-- The mechanism a homing names. -/
def moverMech : Mover → Mech
  | .turret => .turret
  | .lens => .lens
  | .carriage => .carriage

/-! ### The start-up sequence (R202) -/

/-- What the ANNOUNCE carries (R202, step 6). -/
def announcement (s : State) : Announcement :=
  { cause := s.panel.cause, seats := s.exp.seats, filmKnown := s.film.known, filmRemaining := s.film.remaining
    patternsValid := s.hyph.valid, patternCount := s.hyph.patterns.length, romGood := s.panel.romGood
    paperOut := s.paperOut }

def setStage (s : State) (g : StartStage) : State := { s with panel := { s.panel with stage := g } }

/-- The FILM-LOW notice of the first start-up to complete after power-on (R129, R201). -/
def dueFilmNotice (s : State) : State :=
  if s.panel.filmNoticeDue then
    let s1 := { s with panel := { s.panel with filmNoticeDue := false } }
    if s1.filmShort then
      produce { s1 with film := { s1.film with lowNotified := true } } none
        (.filmLow s1.film.remaining s1.film.known)
    else s1
  else s

/-- The ANNOUNCE has left the queue (R202, step 7): the station goes to RUN, or to HALT after a fault in start-up (R153). -/
def announceGone (s : State) : State :=
  if s.panel.stage = .announce then
    match s.panel.startFault with
    | some m => enterHalt (setStage s .done) m false
    | none => enterRun (setStage (dueFilmNotice s) .done)
  else s

/-- Step 6 of R202. On a muted station the ANNOUNCE is refused at once. -/
def announce (s : State) : State :=
  let s1 := setStage s .announce
  if s1.line.mute then announceGone s1 else putFrame s1 (.announce (announcement s1))

/-- A fault during homing (R105): in START it ends the sequence, a galley open after line reset being closed flagged reset
and uncut (R202), and while CLEAR is homing it sends the station to HALT (R153). -/
def homingFault (s : State) (m : Mover) : State :=
  let s1 := reportFault (modExp s (fun e => { e with phase := .idle, homing := none })) .mechanism (some (moverMech m))
  if s.stop.station = .start then announce (closeGalley s1 (fun f => { f with reset := true, uncut := true })) else s1

/-- The fault release marks of takes not yet RELEASING are removed (R152, R193). -/
def withdrawFaultMarks (s : State) : State :=
  { s with takes := s.takes.map (fun t =>
      if t.release = some .fault ∧ t.state ≠ .releasing ∧ t.state ≠ .stranded then { t with release := none } else t) }

/-- CLEAR's homing and survey are done (R152, R160, R141). -/
def clearDone (s : State) : State :=
  enterRun (withdrawFaultMarks
    { s with
      stop := { s.stop with record := none, clearing := false }
      film := { s.film with transport := .idle, waiting := [], driveOk := true, cutterOk := true } })

/-- The cassette code read at start-up (R128): code 0 sets the count to 0, known; no notice of its own is produced
(R129, Log 31). -/
def readCassette (s : State) (code : Fin 4) : State :=
  let s1 := { s with
    pins := { s.pins with cassette := code }
    panel := { s.panel with filmShown := true } }
  if code = 0 then { s1 with film := { s1.film with remaining := 0, known := true } } else s1

/-- Homing is done: the survey follows (R105), then, in START, the cassette code, the reset cut and the ANNOUNCE (R202), or
the end of CLEAR (R152). -/
def afterHoming (s : State) (tabs : List Nat) (cassette : Fin 4) : State :=
  let s1 := survey s tabs
  if s1.stop.station = .start then
    let s2 := readCassette s1 cassette
    if s2.film.galley.isSome then askCut (setStage s2 .cut) { asker := .reset, spoiled := none } else announce s2
  else if s1.stop.clearing then clearDone s1
  else s1

/-- The start-up cut has ended (R202, step 5). -/
def startCutDone (s : State) : Option State :=
  if s.panel.stage = .cut ∧ s.film.galley = none ∧ s.film.transport = .idle ∧ s.film.waiting = [] then some (announce s)
  else none

/-- The font turret's seat-index event (R103, R105). A homing that ends at another seat leaves that seat as the position
known (DESIGN CHOICE, Log 47). -/
def seatIndexEvent (s : State) (seat : Nat) : State :=
  if s.exp.homing = some .turret then
    let s1 := modExp s (fun e => { e with turret := some seat })
    if seat = 0 then modExp s1 (fun e => { e with homing := some .lens }) else homingFault s1 .turret
  else turretIndex s seat

/-- The lens turret's lens-index event (R103, R105). A homing that ends at another lens leaves that lens as the position
known (DESIGN CHOICE, Log 47). -/
def lensEvent (s : State) (lens : Nat) : State :=
  if s.exp.homing = some .lens then
    let s1 := modExp s (fun e => { e with lens := some lens })
    if lens = 0 then modExp s1 (fun e => { e with homing := some .carriage }) else homingFault s1 .lens
  else lensIndexEvent s lens

/-- The carriage's position event (R104, R105). -/
def positionEvent (s : State) (tabs : List Nat) (cassette : Fin 4) : State :=
  if s.exp.homing = some .carriage then
    afterHoming (modExp s (fun e => { e with carriage := some 0, homing := none, phase := .idle })) tabs cassette
  else carriagePosition s

/-- A homing's completion event has not been taken within 4 s (R105). -/
def homingTimeout (s : State) : State :=
  match s.exp.homing with
  | some m => homingFault s m
  | none => s

/-- The ROM check is good (R200). -/
def romGood : Option Rom → Bool
  | some r => decide ((r.bytes.map BitVec.toNat).sum % 65536 = r.check)
  | none => false

/-- The settings ROM has been read (R200, R70, R121): homing begins (R202, step 3). -/
def romRead (s : State) (rom : Option Rom) : State :=
  if s.panel.stage = .rom then
    let good := if romGood rom then rom else none
    startHoming
      { s with
        panel := { s.panel with romDone := true, romGood := romGood rom, stage := .homing }
        hyph := s.hyph.loadRom good
        lamp := s.lamp.loadRom good }
  else s

/-! ### Resets (R201) -/

/-- The paper-out condition as start-up takes it from the inputs (R202, step 1; R88, Log 32). -/
def takePaper (s : State) : State := if s.paperOut then produce s none (.proofPaper none false) else s

/-- Station number 15 sets mute as the straps are read (R199). -/
def strapMute (p : Straps) : Bool := decide (p.station.val = 15)

/-- Power-on (R201): every block at its power-on values, the straps and the proof inputs read (R202, step 1). -/
def powerOn (s : State) (pins : Pins) : State :=
  takePaper
    { State.reset with
      pending := s.pending
      moments := s.moments
      pins := pins
      panel := { State.reset.panel with straps := pins.straps }
      line := { freshLine with mute := strapMute pins.straps } }

/-- The Width Cache after line reset (R34). -/
def WidthCache.afterReset (w : WidthCache) : WidthCache :=
  { w with slots := w.slots.map (fun sl =>
      match sl.state with
      | .valid _ _ => { sl with pins := 0 }
      | .asking | .empty => freeSlot) }

/-- The Proof Port after line reset (R100). -/
def ProofPort.afterReset (p : ProofPort) : ProofPort :=
  { State.reset.proof with lineOpen := p.lineOpen || !p.segs.isEmpty || p.inFlight.isSome }

/-- Line reset (R201): every block at its line-reset values (R34, R79, R100, R127, R141, R160, R177, R198), and start-up
begins again, with the ROM read where it stands undone. -/
def lineReset (s : State) (straps : Straps) : State :=
  let s1 : State :=
    { s with
      pins := { s.pins with straps := straps }
      panel := { s.panel with
        straps := straps, cause := .lineReset, stage := if s.panel.romDone then .homing else .rom
        startFault := none, proofShown := true, filmShown := false }
      stop := State.reset.stop
      line := { freshLine with mute := strapMute straps }
      takes := [], pass := none, width := s.width.afterReset, comp := idleCompositor, store := State.reset.store
      proof := s.proof.afterReset
      exp := { State.reset.exp with seats := s.exp.seats, order := s.exp.order }
      lamp := { s.lamp with phase := .off }
      film := { s.film with nextSeq := none, transport := .idle, waiting := [], driveOk := true, cutterOk := true } }
  takePaper (if s.panel.romDone then startHoming s1 else s1)

/-! ### The keys (R203) -/

/-- The Compositor has read no byte of its line since the line began. -/
def Compositor.atBoundary (c : Compositor) : Bool :=
  match c.ctx, c.snap with
  | some x, some y => c.phase == .setting && x.resume == y.resume
  | _, _ => false

/-- The station enters HOLD (R203): claim windows are cancelled (R174), and a Compositor that has read nothing of its line
pauses at once (R36, Log 25). -/
def enterHold (s : State) : State :=
  let s1 := closeClaims { s with stop := { s.stop with station := .hold } }
  if s1.comp.atBoundary then { s1 with comp := { s1.comp with phase := .paused } } else s1

/-- HOLD (R203). -/
def holdKey (s : State) : State := if s.stop.station = .run then enterHold s else s

/-- All three doors are closed. -/
def State.doorsClosed (s : State) : Bool := !s.pins.photoOpen && !s.pins.takeupOpen && !s.pins.cassetteOpen

/-- RUN (R203, R147): a DOOR stop is cleared with every door closed and, where its line was spoiled or is about to be (Log
26), the spoil cut done. -/
def runKey (s : State) : State :=
  match s.stop.station with
  | .hold => enterRun s
  | .stopped =>
    if s.stopIs .door ∧ s.doorsClosed ∧ s.stop.spoilCut = false ∧ s.spoilDue = false then clearStop s else s
  | _ => s

/-- CLEAR (R152, R145). A take being killed in FAULT is waited for as a park is: CLEAR is ignored while any take is ACTIVE
(DESIGN CHOICE, Log 55). -/
def clearKey (s : State) : State :=
  match s.stop.station with
  | .fault =>
    if s.stop.clearing ∨ s.active?.isSome then s
    else startHoming { s with stop := { s.stop with clearing := true } }
  | .stopped =>
    match s.stop.record with
    | some r => if r.kind = .fontCall then requestPark s (.fontCall (r.font.getD 0)) else s
    | none => s
  | _ => s

/-- A CUT of the operator's. -/
def CutRequest.byKey (c : CutRequest) : Bool := c.asker == .operator || c.asker == .blank

def FilmRequest.byKey : FilmRequest → Bool
  | .cut c => c.byKey
  | .advance _ _ => false

def Transport.byKey : Transport → Bool
  | .trailing c | .cutting c => c.byKey
  | _ => false

/-- A CUT taken earlier is waiting or in progress (R140). -/
def State.cutPending (s : State) : Bool := s.film.waiting.any FilmRequest.byKey || s.film.transport.byKey

/-- CUT (R140). -/
def cutKey (s : State) : State :=
  if s.cutPending then s
  else match s.stop.station with
    | .run => if s.film.galley.isNone then askCut s { asker := .blank, spoiled := none } else s
    | .hold =>
      if s.exp.cur.isSome then s
      else askCut s { asker := if s.film.galley.isNone then .blank else .operator, spoiled := none }
    | _ => s

/-! ### Timers of the stops and of STANDBY -/

/-- The stop's timer is running. -/
def State.stopTimer (s : State) (k : StopKind) : Bool :=
  s.stop.station == .stopped && s.stop.record.any (fun r => r.kind == k && r.timer)

def stopTimerOff (s : State) : State :=
  { s with stop := { s.stop with record := s.stop.record.map (fun r => { r with timer := false }) } }

/-- 90 s have passed from a FONT-CALL stop (R145). -/
def fontCallExpires (s : State) : State :=
  match s.stop.record with
  | some r => if s.stopTimer .fontCall then requestPark (stopTimerOff s) (.fontCall (r.font.getD 0)) else s
  | none => s

/-- 120 s have passed from a FILM-OUT stop (R146): the ACTIVE take is parked and, with every QUEUED take, released. -/
def filmOutExpires (s : State) : State :=
  if s.stopTimer .filmOut then
    markTakes (requestPark (stopTimerOff s) .filmOut) .filmOut (fun t => t.state == .active || t.state == .queued)
  else s

/-- The standby timer runs: RUN, no take ACTIVE and none QUEUED (R204). -/
def State.standbyTimerRuns (s : State) : Bool :=
  s.stop.station == .run && !s.takes.any (fun t => t.state == .active || t.state == .queued)

/-- The standby timer expires (R204). -/
def standbyExpires (s : State) : State :=
  if s.standbyTimerRuns then lampOff { s with stop := { s.stop with station := .standby } } else s

end Sys2Proof.Machine
end

