-- ==== Sys2Proof/Machine/Line.lean ====
section
/-! DEFINITION. The Line Interface's events (chapter 9): how a frame of the station ends and what its producer does then,
mute, and the taking of received frames. -/

namespace Sys2Proof.Machine

/-! ### The end of a frame (R165, R169) -/

/-- How a frame left the queue: sent to its end, broken by an abort, or discarded because the station became muted. -/
inductive FrameEnd where
  | sent | broken | muted
deriving DecidableEq, Repr

/-- The end of a CLAIM's window (R174, R183): a CLAIM sent wins the take. -/
def claimEnds (s : State) (k : Key) (e : FrameEnd) : State :=
  match s.line.windows.find? (fun w => w.what.isClaimFor k) with
  | some { what := .claim sender m _, .. } =>
    let s1 := endWindow s (WindowFor.isClaimFor k)
    if e = .sent then claimWon s1 sender m else s1
  | _ => s

/-- The station was sent this take's COPY-END in the present release (R196). -/
def markSent (s : State) (k : Key) (dest : Nat) : State :=
  s.modTake k (fun t =>
    if t.state = .releasing ∨ t.state = .stranded then
      { t with sentEnd := if t.sentEnd.contains dest then t.sentEnd else t.sentEnd ++ [dest] }
    else t)

/-- The TAKEN wait starts at the end of the COPY-END to the present claimant (R194, Log 15). -/
def startTakenWait (s : State) (k : Key) (dest : Nat) : State :=
  s.modTake k (fun t =>
    if t.state = .releasing ∧ t.claimant = some dest then { t with timer := some .takenWait } else t)

/-- A COPY or COPY-END of a release is lost to mute (R194). -/
def copyMuted (s : State) (k : Key) (dest : Nat) : State :=
  match s.take? k with
  | some t => if t.state = .releasing ∧ t.claimant = some dest then releaseFails s k else s
  | none => s

/-- The watch on an OFFER starts at its end (R175). -/
def offerEnds (s : State) (k : Key) : State :=
  match s.take? k with
  | some t => if t.state = .releasing ∧ t.claimant = none then startWatch s (.take k) else s
  | none => s

/-- The producer of a frame is told how it ended. -/
def tellProducer (s : State) (f : TxFrame) (e : FrameEnd) : State :=
  match f with
  | .claim k _ => claimEnds s k e
  | .widthTable font _ _ => endWindow s (WindowFor.isAnswerFor font)
  | .taken k _ => if e = .sent then takenSent s k else takenLost s k
  | .refused _ _ _ => s
  | .widthAsk font => if s.width.isAsking font then startWatch s (.font font) else s
  | .offer m => offerEnds s m.key
  | .copyEnd k dest _ =>
    match e with
    | .sent => startTakenWait (markSent s k dest) k dest
    | .broken => startTakenWait s k dest
    | .muted => copyMuted s k dest
  | .copy k dest _ _ => if e = .muted then copyMuted s k dest else s
  | .announce _ => announceGone s
  | .notice _ _ => s

/-- The frame being sent leaves the queue, and the producer is told; an abort is driven onto the line first, and the line is
then due its gap (R165). -/
def frameEnds (s : State) (e : FrameEnd) : State :=
  match s.line.phase, s.line.sending? with
  | .sending, some f =>
    let s1 := { s with line := { s.line with
      queue := s.line.queue.filter (fun x => !x.begun), phase := if e = .broken then .aborting else .gapDue
      broken := if e = .broken then satAdd Config.top16 s.line.broken 1 else s.line.broken } }
    tellProducer s1 f e
  | _, _ => s

/-! ### Mute (R169) -/

def TxFrame.isNotice : TxFrame → Bool
  | .notice _ _ => true
  | _ => false

/-- The station becomes muted (R169): every frame is discarded, NOTICEs among them counted lost and the other producers
told, and every window is cancelled. -/
def becomeMuted (s : State) : State :=
  if s.line.mute then s
  else
    let gone := s.line.queue.map (fun e => e.frame) ++ s.line.waiting
    let lost := (gone.filter TxFrame.isNotice).length
    let s1 := { s with line := { s.line with
      mute := true, queue := [], waiting := [], windows := [], lost := satAdd Config.top16 s.line.lost lost } }
    gone.foldl (fun st f => tellProducer st f .muted) s1

/-! ### Received frames (R166 to R168) -/

/-- A frame found bad (R167): counted, and the line is busy until 12 released bits are seen. -/
def badFrame (s : State) : State := countBad { s with line := { s.line with phase := .unsynced } }

/-- The Line Interface may be receiving a frame: the line is not taken as busy and the station is not sending (R163,
R166). A frame that is heard after an abort has begun after the abort's end (Log 66). -/
def State.hears (s : State) : Bool :=
  s.line.phase == .free || s.line.phase == .gapDue || s.line.phase == .receiving || s.line.phase == .aborting

/-- A received frame (R167, R168, R169): one that fails its checks is bad; another is taken as `act` says where `taken`
holds, after a sender with this station's number has muted it; a RESET among them then clears mute again (DESIGN CHOICE, Log
59). -/
def receive (s : State) (h : Header) (ok taken : Bool) (act : State → State) : State :=
  if s.hears then
    if ok then
      let s1 := { s with line := { s.line with phase := .gapDue } }
      let s2 := if h.sender = s.number then becomeMuted s1 else s1
      if taken then act s2 else s2
    else badFrame s
  else s

/-- The frame is addressed to this station (R168). -/
def State.addressed (s : State) (h : Header) : Bool := decide (h.addressee = s.number)

/-- A RESET is taken when it is addressed to this station or to 15 (R168). -/
def State.resetAddressed (s : State) (h : Header) : Bool := s.addressed h || decide (h.addressee = 15)

/-- A received frame found broken or bad before its end (R166, R167). -/
def brokenHeard (s : State) : State :=
  if s.hears then countBroken { s with line := { s.line with phase := .unsynced } } else s

def badHeard (s : State) : State := if s.hears then badFrame s else s

/-- A WIDTH-TABLE handed over: its form is checked first (R19). It acts on the answer windows in every station state (R168,
R174, R31), and on the slots in every state but START and HALT (R28), where a table of bad form is counted nowhere (DESIGN
CHOICE, Log 63). -/
def hearTable (s : State) (font revision : Nat) (widths : List Nat) : State :=
  let passedOver : Bool := s.stop.station == .start || s.stop.station == .halt
  if tableFormOk font widths then
    let s1 := tableToWindows s font revision
    if passedOver then s1 else tableToSlot s1 font revision widths
  else if passedOver then s
  else countBad s

/-- An EXCEPTION add (R74, R75). -/
def hearAdd (s : State) (body : List Nat) : State :=
  match parseEntry body with
  | some (w, ps) => if positionsOk w.length ps then addException s w ps else countBad s
  | none => countBad s

/-- An EXCEPTION delete (R74, R77): its positions are not examined. -/
def hearDelete (s : State) (body : List Nat) : State :=
  match parseEntry body with
  | some (w, _) => deleteException s w
  | none => countBad s

/-! ### Start points, slots and gaps (R163, R164, R173) -/

/-- Marking the head of the queue as begun. -/
def beginHead : List TxEntry → List TxEntry
  | [] => []
  | e :: q => { e with begun := true } :: q

/-- The head of the queue is no longer being sent. -/
def rejoinHead : List TxEntry → List TxEntry
  | [] => []
  | e :: q => rejoinFrame e.frame q

/-- A start point (R164): the head frame is begun. -/
def startPoint (s : State) : State :=
  if s.line.phase = .free ∧ s.line.queue ≠ [] then
    { s with line := { s.line with queue := beginHead s.line.queue, phase := .sending } }
  else s

/-- Arbitration is lost (R164): the frame stays in the queue at its place in the order, and the station receives. -/
def arbitrationLost (s : State) : State :=
  if s.line.phase = .sending then
    { s with line := { s.line with queue := rejoinHead s.line.queue, phase := .receiving } }
  else s

/-- The idle gap is complete (R163). -/
def idleGap (s : State) : State :=
  if s.line.phase = .unsynced ∨ s.line.phase = .gapDue ∨ s.line.phase = .aborting then
    { s with line := { s.line with phase := .free } }
  else s

/-- An idle slot completes (R173, R175): windows in their counting phase and watches are lowered. -/
def idleSlot (s : State) : State :=
  if s.line.phase = .free then
    { s with line := { s.line with
      windows := s.line.windows.map (fun w => if w.queued then w else { w with slots := w.slots - 1 })
      watches := s.line.watches.map (fun w => { w with slots := w.slots - 1 }) } }
  else s

end Sys2Proof.Machine
end

