-- ==== Sys2Proof/Machine/Settle.lean ====
section
/-! DEFINITION. The reactions of the blocks to one another inside one step (spec/95_what_each_step_holds.md): what is due
comes about before the next command is taken, one reaction at a time in a fixed order (Log 5). -/

namespace Sys2Proof.Machine

/-- The first reaction of a list that is due. -/
def firstDue (s : State) : List (State → Option State) → Option State
  | [] => none
  | r :: rs =>
    match r s with
    | some s' => some s'
    | none => firstDue s rs

/-- The reactions in the order in which they are looked for: the store's removals and the Compositor's retry (R83, R35); a
park's answer and a kill's emptying (R84, R192); the end cut (R189); the ends of a park, a kill, a take and a PROOF pass
(R155, R192, R189, R95); re-ask reports, releases and their copy (R27, R193, R194); the start-up cut (R202); Film
Transport (R130); the exposure of a line (R106 to R116); selection (R186); the Proof Port (R87, R89); and the test of
open claim windows (R182). -/
def reactions : List (State → Option State) :=
  [storeRemove, retryLine, parkAnswer, killEmpties, askEndCut, parkFinish, killFinish, completeTake, endProofPass,
   reaskReport, beginRelease, feedCopy, startCutDone, serveFilm, endHalted, checkLine, goLine, scanStep, beginExposure,
   selectTake, takeLine, beginChar, retestWindows]

/-- The reaction that comes about next, where one is due. -/
def react (s : State) : Option State := firstDue s reactions

/-- Reactions come about one after another until none is due, at most so many (Log 5). -/
def settleWithin : Nat → State → State
  | 0, s => s
  | n + 1, s =>
    match react s with
    | some s' => settleWithin n s'
    | none => s

/-- The most reactions of one step (Log 5). -/
def settleFuel : Nat := 4096

/-- What a command's own effect leads to once every reaction due has come about. -/
def settle (s : State) : State := settleWithin settleFuel s

/-- Nothing is due: the state rests until the next command. -/
def quiet (s : State) : Bool := (react s).isNone

/-- The next state a command answers: its own effect, settled. -/
def done (s : State) : Host.Outcome State Fault Refusal := .next (settle s)

end Sys2Proof.Machine
end

