-- ==== Sys2Proof/Machine/Flags.lean ====
section
/-! DEFINITION. What the state shows outside, as views of it: panel lamps and display (R205), the states of the copy store's
blocks (R180), free items of the pool (R80), rates (R87, R161), and the ways of turret moves (R103). -/

namespace Sys2Proof.Machine

/-- The six panel lamps (R205). -/
structure PanelLamps where
  run : Bool
  call : Bool
  fault : Bool
  filmLow : Bool
  proof : Bool
  mute : Bool
deriving DecidableEq, Repr

/-- The lamps, each by its condition; FILM LOW and PROOF from the moment start-up has read what they show (R205, Log 40). A
start-up that a homing fault ends has not read the cassette: FILM LOW stays dark in the HALT after it, after a cassette load
there too (DESIGN CHOICE, Log 57). -/
def panelLamps (s : State) : PanelLamps :=
  { run := s.stop.station == .run, call := s.stopIs .fontCall
    fault := s.stop.station == .fault || s.stop.station == .halt || s.line.mute
    filmLow := s.panel.filmShown && s.filmShort, proof := s.panel.proofShown && s.paperOut, mute := s.line.mute }

/-- The three-digit display: the font of a pending FONT-CALL, and otherwise blank (R205). -/
def panelDisplay (s : State) : Option (List Nat) :=
  match s.stop.record with
  | some r => if r.kind = .fontCall then r.font.map (digits 3) else none
  | none => none

/-- The state of a block of the copy store (R180). -/
inductive BlockState where
  | free | reserved (key : Key) | inUse (key : Key)
deriving DecidableEq, Repr

def blockState (s : State) (b : Nat) : BlockState :=
  match s.takes.find? (fun t => t.blocks.contains b) with
  | some t => .inUse t.key
  | none =>
    match s.takes.find? (fun t => t.reserved.contains b) with
    | some t => .reserved t.key
    | none => .free

/-- Free items of the store's pool (R80). -/
def freeItems (s : State) : Nat := Config.storeItems - s.store.used

/-- The galley line's bit rate (R199, R161). -/
def lineRate (s : State) : Nat :=
  match s.panel.straps.lineRate with
  | 0 => 31250
  | 1 => 62500
  | 2 => 125000
  | 3 => 250000

/-- The proof printer's bit rate (R199, R87). -/
def proofRate (s : State) : Nat :=
  match s.panel.straps.proofRate with
  | 0 => 2400
  | 1 => 4800
  | 2 => 9600
  | 3 => 9600

/-- A turret's move over `n` places: none, or so many places ascending or descending (R103). -/
inductive TurretWay where
  | none | ascending (n : Nat) | descending (n : Nat)
deriving DecidableEq, Repr

def turretWay (n current target : Nat) : TurretWay :=
  let d := (target + n - current) % n
  if d = 0 then .none else if d ≤ n / 2 then .ascending d else .descending (n - d)

end Sys2Proof.Machine
end

