-- ==== Sys2Proof/Machine/Wire.lean ====
section
/-! DEFINITION. Frames on the galley line: levels and the bits of a byte (R161), the check (R162), the layouts and codes of
R178, the bytes and levels of a frame the controller sends, and the command that received bytes are (R166, R167, R168). -/

namespace Sys2Proof.Machine

/-! ### Levels and bits (R161) -/

/-- The two levels of the galley line. -/
inductive LineLevel where
  | asserted | released
deriving DecidableEq, Repr

/-- The level the line has: asserted while any of the stations at it drives it so. -/
def lineLevel (stations : List LineLevel) : LineLevel := if stations.contains .asserted then .asserted else .released

/-- The level a bit is sent at: a 0 asserted, a 1 released. -/
def bitLevel (b : Bool) : LineLevel := if b then .released else .asserted

/-- The eight bits of a byte, most significant first. -/
def byteBits (b : Nat) : List Bool := (List.range 8).map (fun i => (b / 2 ^ (7 - i)) % 2 == 1)

/-- A byte on the galley line, at `lineRate`: an asserted start bit, the 8 data bits, most significant first, and a released
stop bit. -/
def byteLevels (b : Nat) : List LineLevel := .asserted :: (byteBits b).map bitLevel ++ [.released]

/-! ### The check (R162) -/

/-- The register takes one data bit. -/
def crcBit (reg : BitVec 16) (b : Bool) : BitVec 16 :=
  let shifted := reg <<< 1
  if reg.msb = b then shifted else shifted ^^^ 0x1021#16

/-- The check over bytes: the register starts at all ones, and is not inverted at the end. -/
def crc (bytes : List Nat) : Nat := ((bytes.flatMap byteBits).foldl crcBit 0xFFFF#16).toNat

/-! ### Numbers and records as bytes (R178) -/

def two (n : Nat) : List Nat := [n / 256 % 256, n % 256]
def three (n : Nat) : List Nat := [n / 65536 % 256, n / 256 % 256, n % 256]
def keyBytes (k : Key) : List Nat := k.origin :: two k.number

/-- The key of a NOTICE: origin 15 and take 0 where there is no take. -/
def noticeKey : Option Key → List Nat
  | some k => keyBytes k
  | none => [15, 0, 0]

/-- The context record (23 bytes). -/
def contextBytes (c : Context) : List Nat :=
  two c.resume ++ two c.font ++ [c.size] ++ two c.measure ++ two c.indent ++
  [c.leading, c.mode, c.sbMin, c.sbOpt, c.sbMax, c.letterspace, one c.hyph, one c.caps, c.ladderLimit, c.ladderCount] ++
  two c.nextLine ++ two c.galleySeq

def offerBytes (m : OfferMsg) : List Nat :=
  keyBytes m.key ++ [m.cls, m.mode, m.continuation, m.scarce] ++ two m.copyLen ++ three m.film ++ [m.fontCount] ++
  m.fonts.flatMap two ++ (match m.context with
    | some c => contextBytes c
    | none => [])

def HeaderKind.code : HeaderKind → Nat
  | .film => 1
  | .proof => 2
  | .reproof => 3
  | .resumed => 4

def StopKind.code : StopKind → Nat
  | .fontCall => 1
  | .filmOut => 2
  | .door => 3
  | .takeupFull => 4
  | .mechanism => 5
  | .lamp => 6

def Mech.code : Mech → Nat
  | .turret => 1
  | .lens => 2
  | .carriage => 3
  | .flash => 4
  | .film => 5
  | .cutter => 6

def doorCode : Door → Nat
  | .photo => 1
  | .takeup => 2
  | .cassette => 3

def ParkReason.code : ParkReason → Nat
  | .fontCall _ => 1
  | .repeated => 2
  | .filmOut => 3
  | .fault => 5

def ParkReason.font : ParkReason → Nat
  | .fontCall f => f
  | _ => 0

def TakeState.code : TakeState → Nat
  | .receiving => 1
  | .queued => 2
  | .active => 3
  | .proofHold => 4
  | .parked => 5
  | .releasing => 6
  | .stranded => 7

def optCode (o : Option α) (f : α → Nat) : Nat :=
  match o with
  | some x => f x
  | none => 0

def proofStateBytes : ProofState → List Nat
  | .complete => [0, 0, 0]
  | .partialFrom n => 1 :: two n
  | .none => [2, 0, 0]

/-- The counter block (35 bytes). -/
def blockBytes (b : CounterBlock) : List Nat :=
  let c := b.counters
  two c.lines ++ two c.hyphenated ++ two c.loose ++ two c.letterspaced ++ two c.overset ++ two c.absent ++
  two c.substituted ++ two c.copyErrors ++ two c.clamped ++ two c.galleys ++ three c.filmUsed ++
  proofStateBytes b.proofState ++ [one b.widthsChanged] ++ two b.widthGen ++ two b.broken ++ two b.bad ++ two b.lost

def flagSum (f : GalleyFlags) : Nat :=
  one f.complete + 2 * one f.continuedFrom + 4 * one f.continuedTo + 8 * one f.spoiled.isSome + 16 * one f.killed +
  32 * one f.reset + 64 * one f.uncut

/-- A galley record (13 bytes). -/
def galleyBytes (g : Galley) : List Nat :=
  keyBytes g.key ++ two g.seq ++ two g.first ++ two (g.last.getD 0) ++ three g.length ++ [flagSum g.flags]

/-- The code and the data of a NOTICE. -/
def noticeBytes : NoticeBody → Nat × List Nat
  | .takeStart p c l => (1, [p.code, c] ++ two l)
  | .takeDone b => (2, blockBytes b)
  | .takeParked r l q => (3, [r.code] ++ two r.font ++ two l ++ two q)
  | .takeReleased c => (4, [c])
  | .takeKilled st b => (5, st.code :: blockBytes b)
  | .fontCall l f => (6, two l ++ two f)
  | .stop k l d => (7, [k.code] ++ two l ++ [optCode d doorCode])
  | .fault k m e f l => (8, [k.code, optCode m Mech.code, optCode e StopKind.code, one f] ++ two l)
  | .halt m c => (9, [m.code, if c then 2 else 1])
  | .filmLow n k => (10, three n ++ [one k])
  | .proofPaper p a => (11, [optCode p HeaderKind.code, one a])
  | .dictFull w => (12, w.length :: w)
  | .manifest n t gs => (13, [n, t, gs.length] ++ gs.flatMap galleyBytes)
  | .lampWeak c r => (14, two c ++ two r)
  | .reproof => (15, [])
  | .stranded w => (16, [one w])

/-- The ANNOUNCE payload (26 bytes). -/
def announceBytes (a : Announcement) : List Nat :=
  [match a.cause with
    | .powerOn => 1
    | .lineReset => 2] ++ a.seats.flatMap two ++ [one a.filmKnown] ++ three a.filmRemaining ++ [one a.patternsValid] ++
  two a.patternCount ++ [one a.romGood, one a.paperOut]

/-- The addressee and the payload of a frame the controller sends (R178). -/
def TxFrame.payload : TxFrame → Nat × List Nat
  | .claim k c => (15, keyBytes k ++ [c])
  | .widthTable f r ws => (15, two f ++ [r] ++ ws)
  | .taken k dest => (dest, keyBytes k)
  | .refused k dest r => (dest, keyBytes k ++ [r])
  | .widthAsk f => (15, two f)
  | .offer m => (15, offerBytes m)
  | .copyEnd k dest t => (dest, keyBytes k ++ two t)
  | .copy k dest o d => (dest, keyBytes k ++ two o ++ d.map BitVec.toNat)
  | .announce a => (15, announceBytes a)
  | .notice k b => (15, (noticeBytes b).1 :: noticeKey k ++ (noticeBytes b).2)

/-- The bytes of a frame, check included (R162). -/
def frameOf (kind sender addressee : Nat) (payload : List Nat) : List Nat :=
  let body := [16 * kind + sender, addressee, payload.length] ++ payload
  body ++ two (crc body)

/-- The bytes the station puts on the line for a frame of its transmit queue (R162). -/
def frameBytes (s : State) (f : TxFrame) : List Nat := frameOf f.kind s.number f.payload.1 f.payload.2

/-- The levels the station drives the line to over a frame it sends: its bytes back to back (R161, R162). -/
def frameLevels (s : State) (f : TxFrame) : List LineLevel := (frameBytes s f).flatMap byteLevels

/-- The levels of an abort: the line driven asserted for 12 bit times (R165). -/
def abortLevels : List LineLevel := List.replicate Config.abortBits .asserted

/-- The levels the station drives onto the line: those of the frame being sent, or of the abort it has been cut short by; after
them, and where there are none, the station leaves the line released (R161, R165). -/
def State.lineOut (s : State) : List LineLevel :=
  if s.line.phase = .aborting then abortLevels else s.line.sending?.elim [] (frameLevels s)

/-! ### Received bytes (R166 to R168) -/

/-- The number of two or three bytes at a place of a payload. -/
def byteAt (p : List Nat) (i : Nat) : Nat := (p.drop i).headD 0
def twoAt (p : List Nat) (i : Nat) : Nat := 256 * byteAt p i + byteAt p (i + 1)
def threeAt (p : List Nat) (i : Nat) : Nat := 65536 * byteAt p i + twoAt p (i + 1)
def keyAt (p : List Nat) : Key := { origin := byteAt p 0, number := twoAt p 1 }

/-- A context record at a place of a payload. -/
def contextAt (p : List Nat) (i : Nat) : Context :=
  { resume := twoAt p i, font := twoAt p (i + 2), size := byteAt p (i + 4), measure := twoAt p (i + 5)
    indent := twoAt p (i + 7), leading := byteAt p (i + 9), mode := byteAt p (i + 10), sbMin := byteAt p (i + 11)
    sbOpt := byteAt p (i + 12), sbMax := byteAt p (i + 13), letterspace := byteAt p (i + 14)
    hyph := decide (byteAt p (i + 15) ≠ 0), caps := decide (byteAt p (i + 16) ≠ 0), ladderLimit := byteAt p (i + 17)
    ladderCount := byteAt p (i + 18), nextLine := twoAt p (i + 19), galleySeq := twoAt p (i + 21) }

/-- An OFFER's payload. Its fonts are those its length holds and its count declares. -/
def offerAt (p : List Nat) : OfferMsg :=
  let f := byteAt p 12
  { key := keyAt p, cls := byteAt p 3, mode := byteAt p 4, continuation := byteAt p 5, scarce := byteAt p 6
    copyLen := twoAt p 7, film := threeAt p 9, fontCount := f
    fonts := (List.range (min f 8)).map (fun i => twoAt p (13 + 2 * i))
    context := if byteAt p 5 = 1 then some (contextAt p (13 + 2 * f)) else none }

/-- The payload has a length its kind's layout allows (R167, R178); that of an EXCEPTION is 3 bytes and its letters and
positions, whose counts the Hyphenation Unit checks (R74). -/
def lengthOk (kind : Nat) (p : List Nat) : Bool :=
  match kind with
  | 0 | 4 | 6 => p.length == 3
  | 1 => p.length == 0
  | 2 | 5 => p.length == 4
  | 3 => p.length == 226
  | 7 => p.length == 2
  | 8 => p.length == 13 + 2 * byteAt p 12 + (if byteAt p 5 = 1 then 23 else 0)
  | 9 => p.length == 5
  | 10 => decide (6 ≤ p.length)
  | 11 => decide (3 ≤ p.length)
  | 12 => p.length == 26
  | 13 => decide (4 ≤ p.length)
  | _ => true

/-- The command a payload of this kind is, its fields still unchecked (R167 is `frameOk`). The strap pins of a RESET are
those at the inputs. An EXCEPTION that is neither an add nor a delete, which fails the form check of R74 as an add of no letters
does, is taken as that add. -/
def commandOf (straps : Straps) (kind : Nat) (h : Header) (p : List Nat) : Instr :=
  match kind with
  | 0 => .kill h (keyAt p)
  | 1 => .reset h straps
  | 2 => .claim h (keyAt p) (byteAt p 3)
  | 3 => .widthTable h (twoAt p 0) (byteAt p 2) (p.drop 3)
  | 4 => .taken h (keyAt p)
  | 5 => .refused h (keyAt p) (byteAt p 3)
  | 6 => .approve h (keyAt p)
  | 7 => .widthAsk h (twoAt p 0)
  | 8 => .offer h (offerAt p)
  | 9 => .copyEnd h (keyAt p) (twoAt p 3)
  | 10 => .copy h (keyAt p) (twoAt p 3) ((p.drop 5).map (BitVec.ofNat 8))
  | 11 =>
    match p with
    | 1 :: body => .exceptionAdd h body
    | 2 :: body => .exceptionDelete h body
    | _ => .exceptionAdd h [0, 0]
  | 12 => .announce h p
  | 13 => .notice h p
  | _ => .badFrame

/-- The command that a received run of bytes is (R166, R167): a frame cut short is broken, and one whose length byte exceeds
240, whose check differs, or whose payload its kind's layout does not allow is bad. -/
def received (straps : Straps) (bytes : List Nat) : Instr :=
  match bytes with
  | header :: addressee :: len :: rest =>
    if 240 < len then .badFrame
    else if rest.length < len + 2 then .brokenFrame
    else
      let p := rest.take len
      let body := [header, addressee, len] ++ p
      if twoAt (rest.drop len) 0 ≠ crc body then .badFrame
      else
        let h : Header := { sender := header % 16, addressee := addressee }
        let c := commandOf straps (header / 16) h p
        if lengthOk (header / 16) p && frameOk c then c else .badFrame
  | _ => .brokenFrame

end Sys2Proof.Machine
end

