-- ==== Sys2Proof/Machine/CopyCommands.lean ====
section
/-! DEFINITION. The copy code's bytes as the Compositor reads them (chapter 1): each command acts when its byte is the next one of the
text (Log 6). -/

namespace Sys2Proof.Machine

/-- FONT (R9, R8). -/
def execFont (s : State) : Host.Outcome State Fault Refusal :=
  done (copyCommand s 0x01 2 (fun r a s => takeFont s r.take (twoBytes a)))

/-- SIZE (R10). -/
def execSize (s : State) : Host.Outcome State Fault Refusal :=
  done (copyCommand s 0x02 1 (fun _ a s => takeSizeCommand s (arg a 0)))

/-- LEAD (R11, R8). -/
def execLead (s : State) : Host.Outcome State Fault Refusal :=
  done (copyCommand s 0x03 1 (fun _ a s => takeLead s (arg a 0)))

/-- MEASURE (R11, R8). -/
def execMeasure (s : State) : Host.Outcome State Fault Refusal :=
  done (copyCommand s 0x04 2 (fun _ a s => takeMeasure s (arg a 0) (arg a 1)))

/-- INDENT (R11, R8). -/
def execIndent (s : State) : Host.Outcome State Fault Refusal :=
  done (copyCommand s 0x05 2 (fun _ a s => takeIndent s (twoBytes a)))

/-- SPACEBAND (R12, R8). -/
def execSpaceband (s : State) : Host.Outcome State Fault Refusal :=
  done (copyCommand s 0x06 3 (fun _ a s => takeSpaceband s (arg a 0) (arg a 1) (arg a 2)))

/-- LETTERSPACE (R12, R8). -/
def execLetterspace (s : State) : Host.Outcome State Fault Refusal :=
  done (copyCommand s 0x07 1 (fun _ a s => takeLetterspace s (arg a 0)))

/-- LADDER (R12, R8). -/
def execLadder (s : State) : Host.Outcome State Fault Refusal :=
  done (copyCommand s 0x0B 1 (fun _ a s => takeLadder s (arg a 0)))

/-- MODE (R13, R8). -/
def execMode (s : State) : Host.Outcome State Fault Refusal :=
  done (copyCommand s 0x08 1 (fun _ a s => takeMode s (arg a 0)))

/-- HYPH (R13, R8). -/
def execHyph (s : State) : Host.Outcome State Fault Refusal :=
  done (copyCommand s 0x09 1 (fun _ a s => takeHyph s (arg a 0)))

/-- CAPS (R13, R8). -/
def execCaps (s : State) : Host.Outcome State Fault Refusal :=
  done (copyCommand s 0x0A 1 (fun _ a s => takeCaps s (arg a 0)))

/-- ENDPARA (R14). -/
def execEndpara (s : State) : Host.Outcome State Fault Refusal :=
  done (copyCommand s 0x0C 0 (fun r _ s => endParagraph s r r.ctx.resume (r.ctx.resume + 1)))

/-- EMSPACE (R15). -/
def execEmspace (s : State) : Host.Outcome State Fault Refusal :=
  done (copyCommand s 0x0D 0 (fun r _ _ => takeFixedSpace s r 48))

/-- ENSPACE (R15). -/
def execEnspace (s : State) : Host.Outcome State Fault Refusal :=
  done (copyCommand s 0x0E 0 (fun r _ _ => takeFixedSpace s r 24))

/-- THINSPACE (R15). -/
def execThinspace (s : State) : Host.Outcome State Fault Refusal :=
  done (copyCommand s 0x0F 0 (fun r _ _ => takeFixedSpace s r 12))

/-- NBSPACE (R15). -/
def execNbspace (s : State) : Host.Outcome State Fault Refusal :=
  done (copyCommand s 0x10 0 (fun r _ _ => placeNbspace s (r.ctx.resume + 1)))

/-- DISC (R15, R65). -/
def execDisc (s : State) : Host.Outcome State Fault Refusal :=
  done (copyCommand s 0x11 0 (fun _ _ s => takeDisc s))

/-- CHARACTER (R7, R38, R39, R33). -/
def execCharacter (s : State) : Host.Outcome State Fault Refusal :=
  done (readByte s isCharacterByte (fun r b => takeCharacter s r b))

/-- WORD_SPACE (R6, R43 to R47). -/
def execWordSpace (s : State) : Host.Outcome State Fault Refusal :=
  done (readByte s (fun b => b == 0x20) (fun r _ => takeWordSpace s r))

/-- RUBOUT (R5). -/
def execRubout (s : State) : Host.Outcome State Fault Refusal :=
  done (readByte s (fun b => b == 0x7F) (fun r _ => readPast s (r.ctx.resume + 1)))

/-- UNKNOWN_BYTE (R5). -/
def execUnknownByte (s : State) : Host.Outcome State Fault Refusal :=
  done (readByte s isUnknownByte (fun r _ => takeUnknown s r))

/-- END_OF_COPY (R14, R35). -/
def execEndOfCopy (s : State) : Host.Outcome State Fault Refusal :=
  done (takeEnd s)


end Sys2Proof.Machine
end

