-- ==== Sys2Proof/Machine/FilmCommands.lean ====
section
/-! DEFINITION. Film Transport's events and the doors of the cassette and the take-up (chapter 7). -/

namespace Sys2Proof.Machine

/-- ADVANCE_DONE (R132, R134). -/
def execAdvanceDone (s : State) : Host.Outcome State Fault Refusal :=
  done (advanceDone s)

/-- ADVANCE_TIMEOUT (R132, R134). -/
def execAdvanceTimeout (s : State) : Host.Outcome State Fault Refusal :=
  done (advanceTimeout s)

/-- CUT_EVENT (R134). -/
def execCutEvent (s : State) : Host.Outcome State Fault Refusal :=
  done (cutEvent s)

/-- CUTTER_TIMEOUT (R134). -/
def execCutterTimeout (s : State) : Host.Outcome State Fault Refusal :=
  done (cutterTimeout s)

/-- CASSETTE_DOOR_OPEN (R136). -/
def execCassetteDoorOpen (s : State) : Host.Outcome State Fault Refusal :=
  done (cassetteDoorOpen s)

/-- CASSETTE_DOOR_CLOSE (R128, R129, R139, R146). -/
def execCassetteDoorClose (code : Fin 4) (s : State) : Host.Outcome State Fault Refusal :=
  done (cassetteDoorClose s code)

/-- TAKEUP_DOOR_OPEN (R138). -/
def execTakeupDoorOpen (s : State) : Host.Outcome State Fault Refusal :=
  done (takeupDoorOpen s)

/-- TAKEUP_DOOR_CLOSE (R138, R148). -/
def execTakeupDoorClose (s : State) : Host.Outcome State Fault Refusal :=
  done (takeupDoorClose s)


end Sys2Proof.Machine
end

