-- ==== Sys2Proof/Machine/FrameCommands.lean ====
section
/-! DEFINITION. The frames received (chapters 2, 4, 9 and 10): each is checked (R167), delivered (R168) and examined for a duplicate
station (R169) by `receive`, and then acts. -/

namespace Sys2Proof.Machine

/-- KILL (R191, R192). -/
def execKill (h : Header) (key : Key) (s : State) : Host.Outcome State Fault Refusal :=
  done (receive s h (frameOk (.kill h key)) true (fun s => hearKill s key))

/-- CLAIM (R174, R194, R196). -/
def execClaim (h : Header) (key : Key) (cost : Nat) (s : State) : Host.Outcome State Fault Refusal :=
  done (receive s h (frameOk (.claim h key cost)) true (fun s => hearClaim s h.sender key))

/-- WIDTH_TABLE (R19, R28, R31). -/
def execWidthTable (h : Header) (font revision : Nat) (widths : List Nat) (s : State) : Host.Outcome State Fault Refusal :=
  done (receive s h (frameOk (.widthTable h font revision widths)) true (fun s => hearTable s font revision widths))

/-- TAKEN (R194, R196). -/
def execTaken (h : Header) (key : Key) (s : State) : Host.Outcome State Fault Refusal :=
  done (receive s h (frameOk (.taken h key)) (s.addressed h) (fun s => hearTaken s h.sender key))

/-- REFUSED (R194, R196). -/
def execRefused (h : Header) (key : Key) (reason : Nat) (s : State) : Host.Outcome State Fault Refusal :=
  done (receive s h (frameOk (.refused h key reason)) (s.addressed h) (fun s => hearRefused s h.sender key))

/-- APPROVE (R190). -/
def execApprove (h : Header) (key : Key) (s : State) : Host.Outcome State Fault Refusal :=
  done (receive s h (frameOk (.approve h key)) true (fun s => hearApprove s key))

/-- WIDTH_ASK (R30, R25). -/
def execWidthAsk (h : Header) (font : Nat) (s : State) : Host.Outcome State Fault Refusal :=
  done (receive s h (frameOk (.widthAsk h font)) true (fun s => hearAsk s font))

/-- OFFER (R181, R182). -/
def execOffer (h : Header) (msg : OfferMsg) (s : State) : Host.Outcome State Fault Refusal :=
  done (receive s h (frameOk (.offer h msg)) true (fun s => hearOffer s h.sender msg))

/-- COPY (R184). -/
def execCopy (h : Header) (key : Key) (offset : Nat) (data : List Byte) (s : State) : Host.Outcome State Fault Refusal :=
  done (receive s h (frameOk (.copy h key offset data)) (s.addressed h) (fun s => hearCopy s h.sender key offset data))

/-- COPY_END (R185). -/
def execCopyEnd (h : Header) (key : Key) (total : Nat) (s : State) : Host.Outcome State Fault Refusal :=
  done (receive s h (frameOk (.copyEnd h key total)) (s.addressed h) (fun s => hearCopyEnd s h.sender key total))

/-- EXCEPTION_ADD (R74, R75, R76). -/
def execExceptionAdd (h : Header) (body : List Nat) (s : State) : Host.Outcome State Fault Refusal :=
  done (receive s h (frameOk (.exceptionAdd h body)) true (fun s => hearAdd s body))

/-- EXCEPTION_DELETE (R74, R77). -/
def execExceptionDelete (h : Header) (body : List Nat) (s : State) : Host.Outcome State Fault Refusal :=
  done (receive s h (frameOk (.exceptionDelete h body)) true (fun s => hearDelete s body))

/-- ANNOUNCE (R168, R169): used for duplicate-station detection alone. -/
def execAnnounce (h : Header) (payload : List Nat) (s : State) : Host.Outcome State Fault Refusal :=
  done (receive s h (frameOk (.announce h payload)) false (fun s => s))

/-- NOTICE (R168, R169): used for duplicate-station detection alone. -/
def execNotice (h : Header) (payload : List Nat) (s : State) : Host.Outcome State Fault Refusal :=
  done (receive s h (frameOk (.notice h payload)) false (fun s => s))


end Sys2Proof.Machine
end

