-- ==== Sys2Proof/Machine/LineCommands.lean ====
section
/-! DEFINITION. The events of the galley line itself (chapter 9). -/

namespace Sys2Proof.Machine

/-- BROKEN_FRAME (R166). -/
def execBrokenFrame (s : State) : Host.Outcome State Fault Refusal :=
  done (brokenHeard s)

/-- BAD_FRAME (R166, R167). -/
def execBadFrame (s : State) : Host.Outcome State Fault Refusal :=
  done (badHeard s)

/-- START_POINT (R164). -/
def execStartPoint (s : State) : Host.Outcome State Fault Refusal :=
  done (startPoint s)

/-- ARBITRATION_LOST (R164). -/
def execArbitrationLost (s : State) : Host.Outcome State Fault Refusal :=
  done (arbitrationLost s)

/-- FRAME_SENT (R165). -/
def execFrameSent (s : State) : Host.Outcome State Fault Refusal :=
  done (frameEnds s .sent)

/-- FRAME_ABORTED (R165). -/
def execFrameAborted (s : State) : Host.Outcome State Fault Refusal :=
  done (frameEnds s .broken)

/-- IDLE_SLOT (R173, R175). -/
def execIdleSlot (s : State) : Host.Outcome State Fault Refusal :=
  done (idleSlot s)

/-- WINDOW_EXPIRED (R173). -/
def execWindowExpired (subject : Subject) (s : State) : Host.Outcome State Fault Refusal :=
  done (expireWindow s subject)

/-- ROOM_GIVEN (R171). -/
def execRoomGiven (s : State) : Host.Outcome State Fault Refusal :=
  done (giveRoom s)

/-- LAPSE (R175, R194, R26). -/
def execLapse (subject : Subject) (s : State) : Host.Outcome State Fault Refusal :=
  done (lapse s subject)

/-- IDLE_GAP (R163). -/
def execIdleGap (s : State) : Host.Outcome State Fault Refusal :=
  done (idleGap s)


end Sys2Proof.Machine
end

