-- ==== Sys2Proof/Machine/PanelCommands.lean ====
section
/-! DEFINITION. The panel's keys (chapter 11, R203). -/

namespace Sys2Proof.Machine

/-- RUN_KEY (R203, R147); any key wakes a station in STANDBY (R204). -/
def execRunKey (s : State) : Host.Outcome State Fault Refusal :=
  done (if s.stop.station = .standby then wake s else runKey s)

/-- HOLD_KEY (R203, R204). -/
def execHoldKey (s : State) : Host.Outcome State Fault Refusal :=
  done (holdKey (wake s))

/-- CLEAR_KEY (R152, R145, R204). -/
def execClearKey (s : State) : Host.Outcome State Fault Refusal :=
  done (if s.stop.station = .standby then wake s else clearKey s)

/-- CUT_KEY (R140, R204). -/
def execCutKey (s : State) : Host.Outcome State Fault Refusal :=
  done (cutKey (wake s))

/-- MOUNT_KEY (R119, R204). -/
def execMountKey (s : State) : Host.Outcome State Fault Refusal :=
  done (if s.stop.station = .standby then wake s else mountKey s)


end Sys2Proof.Machine
end

