-- ==== Sys2Proof/Machine/PhotoCommands.lean ====
section
/-! DEFINITION. The photo unit's events (chapter 6). -/

namespace Sys2Proof.Machine

/-- SEAT_INDEX (R103, R105, R119). -/
def execSeatIndex (seat : Fin 8) (s : State) : Host.Outcome State Fault Refusal :=
  done (seatIndexEvent s seat.val)

/-- LENS_INDEX (R103, R105). -/
def execLensIndex (lens : Fin 12) (s : State) : Host.Outcome State Fault Refusal :=
  done (lensEvent s lens.val)

/-- POSITION (R104, R105): at the end of homing the survey and what follows it are taken (R102, R152, R202). -/
def execPosition (tabs : List Nat) (cassette : Fin 4) (s : State) : Host.Outcome State Fault Refusal :=
  done (positionEvent s tabs cassette)

/-- FLASH_DONE (R114, R124, R125). -/
def execFlashDone (reading : Fin 1024) (s : State) : Host.Outcome State Fault Refusal :=
  done (flashDone s reading.val)

/-- MOVE_TIMEOUT (R103, R104). -/
def execMoveTimeout (mover : Mover) (s : State) : Host.Outcome State Fault Refusal :=
  done (moveTimeout s mover)

/-- FLASH_TIMEOUT (R114). -/
def execFlashTimeout (s : State) : Host.Outcome State Fault Refusal :=
  done (flashTimeout s)

/-- HOMING_TIMEOUT (R105). -/
def execHomingTimeout (s : State) : Host.Outcome State Fault Refusal :=
  done (homingTimeout s)

/-- PHOTO_UNIT_DOOR_OPEN (R116). -/
def execPhotoUnitDoorOpen (s : State) : Host.Outcome State Fault Refusal :=
  done (photoDoorOpen s)

/-- PHOTO_UNIT_DOOR_CLOSE (R117, R102). -/
def execPhotoUnitDoorClose (tabs : List Nat) (s : State) : Host.Outcome State Fault Refusal :=
  done (photoDoorClose s tabs)

/-- LAMP_CHANGE_SWITCH (R126, R120). -/
def execLampChangeSwitch (s : State) : Host.Outcome State Fault Refusal :=
  done (changeLamp s)

/-- WARM_UP_TIMER (R120): a WARMING lamp becomes READY. -/
def execWarmUpTimer (s : State) : Host.Outcome State Fault Refusal :=
  done (warmUpExpires s)


end Sys2Proof.Machine
end

