-- ==== Sys2Proof/Machine/ProofCommands.lean ====
section
/-! DEFINITION. The proof printer's events (chapter 5). -/

namespace Sys2Proof.Machine

/-- PROOF_LINE_SENT (R89, R92). -/
def execProofLineSent (s : State) : Host.Outcome State Fault Refusal :=
  done (lineSent s)

/-- BUSY (R87, R88). -/
def execBusy (asserted : Bool) (s : State) : Host.Outcome State Fault Refusal :=
  done (setBusy s asserted)

/-- PAPER (R88, R93, R94). -/
def execPaper (present : Bool) (s : State) : Host.Outcome State Fault Refusal :=
  done (setPaper s present)

/-- BUSY_STALL (R88). -/
def execBusyStall (s : State) : Host.Outcome State Fault Refusal :=
  done (busyStall s)

/-- PAPER_TIMER (R94). -/
def execPaperTimer (s : State) : Host.Outcome State Fault Refusal :=
  done (abandonPass s)

/-- PROOF_CHARACTER_SENT (R87). -/
def execProofCharacterSent (s : State) : Host.Outcome State Fault Refusal :=
  done (charSent s)


end Sys2Proof.Machine
end

