-- ==== Sys2Proof/Machine/StartCommands.lean ====
section
/-! DEFINITION. The resets and the settings ROM (chapter 11): POWER_ON, RESET, ROM_READ_DONE. -/

namespace Sys2Proof.Machine

/-- POWER_ON (R201, R202). -/
def execPowerOn (pins : Pins) (s : State) : Host.Outcome State Fault Refusal :=
  done (powerOn s pins)

/-- RESET (R201, R168): taken when addressed to this station or to 15. -/
def execReset (h : Header) (straps : Straps) (s : State) : Host.Outcome State Fault Refusal :=
  done (receive s h (frameOk (.reset h straps)) (s.resetAddressed h) (fun s => lineReset s straps))

/-- ROM_READ_DONE (R200): due in the ROM step of start-up. -/
def execRomReadDone (rom : Option Rom) (s : State) : Host.Outcome State Fault Refusal :=
  done (romRead s rom)


end Sys2Proof.Machine
end

