-- ==== Sys2Proof/Machine/TimerCommands.lean ====
section
/-! DEFINITION. The timers' expiries (chapters 8, 10 and 11): each acts while its timer runs (Log 8). -/

namespace Sys2Proof.Machine

/-- FONT_CALL_TIMER (R145). -/
def execFontCallTimer (s : State) : Host.Outcome State Fault Refusal :=
  done (fontCallExpires s)

/-- FILM_OUT_TIMER (R146). -/
def execFilmOutTimer (s : State) : Host.Outcome State Fault Refusal :=
  done (filmOutExpires s)

/-- STANDBY_TIMER (R204). -/
def execStandbyTimer (s : State) : Host.Outcome State Fault Refusal :=
  done (standbyExpires s)

/-- STALL_TIMER (R185). -/
def execStallTimer (key : Key) (s : State) : Host.Outcome State Fault Refusal :=
  done (stallExpires s key)

/-- AGING_TIMER (R188). -/
def execAgingTimer (key : Key) (s : State) : Host.Outcome State Fault Refusal :=
  done (agingExpires s key)

/-- TAKEN_WAIT (R194). -/
def execTakenWait (key : Key) (s : State) : Host.Outcome State Fault Refusal :=
  done (takenWaitExpires s key)

/-- STRAND_TURN (R195, R27). -/
def execStrandTurn (key : Key) (s : State) : Host.Outcome State Fault Refusal :=
  done (strandTurn s key)


end Sys2Proof.Machine
end

