-- ==== Sys2Proof/Machine/Dispatch.lean ====
section
/-! DEFINITION. One arm per command: its meaning. -/

namespace Sys2Proof.Machine

def exec (i : Instr) (s : State) : Host.Outcome State Fault Refusal :=
  match i with
  | .powerOn pins => Sys2Proof.Machine.execPowerOn pins s
  | .reset h straps => Sys2Proof.Machine.execReset h straps s
  | .romReadDone rom => Sys2Proof.Machine.execRomReadDone rom s
  | .kill h key => Sys2Proof.Machine.execKill h key s
  | .claim h key cost => Sys2Proof.Machine.execClaim h key cost s
  | .widthTable h font revision widths => Sys2Proof.Machine.execWidthTable h font revision widths s
  | .taken h key => Sys2Proof.Machine.execTaken h key s
  | .refused h key reason => Sys2Proof.Machine.execRefused h key reason s
  | .approve h key => Sys2Proof.Machine.execApprove h key s
  | .widthAsk h font => Sys2Proof.Machine.execWidthAsk h font s
  | .offer h msg => Sys2Proof.Machine.execOffer h msg s
  | .copy h key offset data => Sys2Proof.Machine.execCopy h key offset data s
  | .copyEnd h key total => Sys2Proof.Machine.execCopyEnd h key total s
  | .exceptionAdd h body => Sys2Proof.Machine.execExceptionAdd h body s
  | .exceptionDelete h body => Sys2Proof.Machine.execExceptionDelete h body s
  | .announce h payload => Sys2Proof.Machine.execAnnounce h payload s
  | .notice h payload => Sys2Proof.Machine.execNotice h payload s
  | .brokenFrame => Sys2Proof.Machine.execBrokenFrame s
  | .badFrame => Sys2Proof.Machine.execBadFrame s
  | .startPoint => Sys2Proof.Machine.execStartPoint s
  | .arbitrationLost => Sys2Proof.Machine.execArbitrationLost s
  | .frameSent => Sys2Proof.Machine.execFrameSent s
  | .frameAborted => Sys2Proof.Machine.execFrameAborted s
  | .idleSlot => Sys2Proof.Machine.execIdleSlot s
  | .windowExpired subject => Sys2Proof.Machine.execWindowExpired subject s
  | .roomGiven => Sys2Proof.Machine.execRoomGiven s
  | .lapse subject => Sys2Proof.Machine.execLapse subject s
  | .font => Sys2Proof.Machine.execFont s
  | .size => Sys2Proof.Machine.execSize s
  | .lead => Sys2Proof.Machine.execLead s
  | .measure => Sys2Proof.Machine.execMeasure s
  | .indent => Sys2Proof.Machine.execIndent s
  | .spaceband => Sys2Proof.Machine.execSpaceband s
  | .letterspace => Sys2Proof.Machine.execLetterspace s
  | .ladder => Sys2Proof.Machine.execLadder s
  | .mode => Sys2Proof.Machine.execMode s
  | .hyph => Sys2Proof.Machine.execHyph s
  | .caps => Sys2Proof.Machine.execCaps s
  | .endpara => Sys2Proof.Machine.execEndpara s
  | .emspace => Sys2Proof.Machine.execEmspace s
  | .enspace => Sys2Proof.Machine.execEnspace s
  | .thinspace => Sys2Proof.Machine.execThinspace s
  | .nbspace => Sys2Proof.Machine.execNbspace s
  | .disc => Sys2Proof.Machine.execDisc s
  | .character => Sys2Proof.Machine.execCharacter s
  | .wordSpace => Sys2Proof.Machine.execWordSpace s
  | .rubout => Sys2Proof.Machine.execRubout s
  | .unknownByte => Sys2Proof.Machine.execUnknownByte s
  | .endOfCopy => Sys2Proof.Machine.execEndOfCopy s
  | .proofLineSent => Sys2Proof.Machine.execProofLineSent s
  | .busy asserted => Sys2Proof.Machine.execBusy asserted s
  | .paper present => Sys2Proof.Machine.execPaper present s
  | .busyStall => Sys2Proof.Machine.execBusyStall s
  | .paperTimer => Sys2Proof.Machine.execPaperTimer s
  | .seatIndex seat => Sys2Proof.Machine.execSeatIndex seat s
  | .lensIndex lens => Sys2Proof.Machine.execLensIndex lens s
  | .position tabs cassette => Sys2Proof.Machine.execPosition tabs cassette s
  | .flashDone reading => Sys2Proof.Machine.execFlashDone reading s
  | .moveTimeout mover => Sys2Proof.Machine.execMoveTimeout mover s
  | .flashTimeout => Sys2Proof.Machine.execFlashTimeout s
  | .homingTimeout => Sys2Proof.Machine.execHomingTimeout s
  | .photoUnitDoorOpen => Sys2Proof.Machine.execPhotoUnitDoorOpen s
  | .photoUnitDoorClose tabs => Sys2Proof.Machine.execPhotoUnitDoorClose tabs s
  | .advanceDone => Sys2Proof.Machine.execAdvanceDone s
  | .advanceTimeout => Sys2Proof.Machine.execAdvanceTimeout s
  | .cutEvent => Sys2Proof.Machine.execCutEvent s
  | .cutterTimeout => Sys2Proof.Machine.execCutterTimeout s
  | .cassetteDoorOpen => Sys2Proof.Machine.execCassetteDoorOpen s
  | .cassetteDoorClose code => Sys2Proof.Machine.execCassetteDoorClose code s
  | .takeupDoorOpen => Sys2Proof.Machine.execTakeupDoorOpen s
  | .takeupDoorClose => Sys2Proof.Machine.execTakeupDoorClose s
  | .lampChangeSwitch => Sys2Proof.Machine.execLampChangeSwitch s
  | .warmUpTimer => Sys2Proof.Machine.execWarmUpTimer s
  | .runKey => Sys2Proof.Machine.execRunKey s
  | .holdKey => Sys2Proof.Machine.execHoldKey s
  | .clearKey => Sys2Proof.Machine.execClearKey s
  | .cutKey => Sys2Proof.Machine.execCutKey s
  | .mountKey => Sys2Proof.Machine.execMountKey s
  | .fontCallTimer => Sys2Proof.Machine.execFontCallTimer s
  | .filmOutTimer => Sys2Proof.Machine.execFilmOutTimer s
  | .standbyTimer => Sys2Proof.Machine.execStandbyTimer s
  | .stallTimer key => Sys2Proof.Machine.execStallTimer key s
  | .agingTimer key => Sys2Proof.Machine.execAgingTimer key s
  | .takenWait key => Sys2Proof.Machine.execTakenWait key s
  | .strandTurn key => Sys2Proof.Machine.execStrandTurn key s
  | .idleGap => Sys2Proof.Machine.execIdleGap s
  | .proofCharacterSent => Sys2Proof.Machine.execProofCharacterSent s

end Sys2Proof.Machine
end

