-- ==== Sys2Proof/Safety.lean ====
section
/-! DEFINITION. What a sound state of the controller is: the ranges and orders the spec gives its stores, tables and counters,
in the terms the statements use. -/

namespace Sys2Proof.Machine

/-! ### The exception dictionary (R73, R74, R78) -/

/-- The positions stand in strictly ascending order, each once (R4, R75). -/
def ascending : List Nat → Bool
  | [] => true
  | p :: ps => (match ps with
      | [] => true
      | q :: _ => decide (p < q)) && ascending ps

/-- An entry as the dictionary holds it: a word of 2 to 24 small letters, its positions each within 1..L − 1 (R73, R74). -/
def entryOk (e : ExceptionEntry) : Bool :=
  decide (2 ≤ e.word.length) && decide (e.word.length ≤ 24) && e.word.all isSmall && ascending e.positions &&
  e.positions.all (fun p => decide (1 ≤ p) && decide (p + 1 ≤ e.word.length))

/-- The dictionary: at most 512 entries in strictly ascending word order (R73), and the generation in two bytes (R78). -/
def dictOk (h : Hyphenation) : Bool :=
  decide (h.dict.length ≤ 512) && dictSorted h.dict && h.dict.all entryOk && decide (h.gen ≤ 65535)

/-! ### Lamp Control (R121, R122) -/

/-- The lamp's values stand within their ranges (R121, R122). -/
def lampOk (l : Lamp) : Prop :=
  512 ≤ l.c ∧ l.c ≤ 2047 ∧ -511 ≤ l.ePrev ∧ l.ePrev ≤ 512 ∧ l.run ≤ 256 ∧ l.bases.length = 12 ∧
  (∀ b ∈ l.bases, 20 ≤ b ∧ b ≤ 400) ∧ l.kp ≤ 15 ∧ l.ki ≤ 15

/-! ### Line Interface, Film Transport, Set-Line Store -/

/-- The transmit queue holds at most 8 frames (R170). Only the one at the front may be being sent, and only while the station
sends (R164); the others stand in the order of their kinds. -/
def queueOk (l : LineInterface) : Prop :=
  l.queue.length ≤ 8 ∧
  l.queue.Pairwise (fun a b => b.begun = false ∧ (a.begun = false → a.frame.kind ≤ b.frame.kind)) ∧
  (l.phase ≠ .sending → ∀ e ∈ l.queue, e.begun = false)

/-- The transmit queue is as R170 has it, the window table holds at most 4 windows (R172), and the three counters stay at
65,535 once they reach it (R176). -/
def lineOk (l : LineInterface) : Prop :=
  queueOk l ∧ l.windows.length ≤ 4 ∧ l.broken ≤ 65535 ∧ l.bad ≤ 65535 ∧ l.lost ≤ 65535

/-- The film remaining is at most the longest cassette's (R128), and the manifest has room for the record of an open galley
in its 64 (R109, R137). -/
def filmOk (f : Film) : Prop :=
  f.remaining ≤ 1700000 ∧ f.manifest.length + (if f.galley.isSome then 1 else 0) ≤ 64

/-- The Set-Line Store holds at most 64 line records, of at most 4,096 items in all (R80, R81). -/
def storeOk (st : LineStore) : Prop := st.records.length ≤ 64 ∧ st.used ≤ 4096

/-! ### Take records, windows and width slots -/

/-- A take record's fields stand within the ranges of R179, and its blocks number what R180 gives it: those in use hold the
bytes received, and with those reserved they hold the whole copy. -/
def takeOk (x : Take) : Prop :=
  x.key.origin ≤ 14 ∧ x.key.number ≤ 65535 ∧ x.cls ≤ 3 ∧ 1 ≤ x.fonts.length ∧ x.fonts.length ≤ 8 ∧
  (∀ f ∈ x.fonts, 1 ≤ f ∧ f ≤ 999) ∧ 1 ≤ x.copyLen ∧ x.copyLen ≤ 16384 ∧ x.film ≤ 16777215 ∧ x.received ≤ x.copyLen ∧
  x.blocks.length = (x.received + 255) / 256 ∧ x.blocks.length + x.reserved.length = (x.copyLen + 255) / 256

/-- At most 8 take records are held, no two with one key (R179), at most one ACTIVE (R186) and at most one RELEASING (R193);
their blocks, in use and reserved, are of the 128 of the copy store, each of one record at a time (R180). -/
def takesOk (takes : List Take) : Prop :=
  takes.length ≤ 8 ∧
  takes.Pairwise (fun x y => x.key ≠ y.key ∧ ¬ (x.state = .active ∧ y.state = .active) ∧
    ¬ (x.state = .releasing ∧ y.state = .releasing)) ∧
  (∀ x ∈ takes, takeOk x) ∧ (takes.flatMap (fun x => x.blocks ++ x.reserved)).Nodup ∧
  ∀ b ∈ takes.flatMap (fun x => x.blocks ++ x.reserved), b < 128

/-- A window counts at most 511 idle slots (R172). The offer of a claim window passed the checks of R167, and the station could
hold its take now: no record has its key, fewer than 8 are held, the free blocks suffice for its copy, and the held fonts and
its own number at most 12 (R181, R182). -/
def windowOk (s : State) (w : Window) : Prop :=
  w.slots ≤ 511 ∧ ∀ sender m cost, w.what = .claim sender m cost →
    offerOk m = true ∧ (∀ x ∈ s.takes, x.key ≠ m.key) ∧ s.takes.length < 8 ∧
    (m.copyLen + 255) / 256 ≤ s.freeBlocks.length ∧ (distinct (s.heldFonts ++ m.fonts)).length ≤ 12

/-- Each window is sound, and no two of one kind have one subject (R172). -/
def windowsOk (s : State) : Prop :=
  (∀ w ∈ s.line.windows, windowOk s w) ∧ s.line.windows.Pairwise (fun v w => v.what.subject ≠ w.what.subject)

/-- How many of the take records name a font (R21). -/
def namedBy (takes : List Take) (font : Nat) : Nat := (takes.filter (fun x => x.fonts.contains font)).length

/-- A table of the form of R19, for a font. -/
def tableOk (font : Nat) (t : List Nat) : Prop :=
  1 ≤ font ∧ font ≤ 999 ∧ t.length = 223 ∧ ∀ i w, t[i]? = some w → w ≤ 255 ∧ (i + 0x21 ≠ 0x7F → w ≤ 96)

/-- A width slot (R20, R21), where `pins` tells how many held takes name a font: a free slot is EMPTY with no pin, any other
has the pins of its font; a VALID one holds a revision in one byte and a table of the form of R19, and an ASKING or held
empty one is pinned. -/
def slotOk (pins : Nat → Nat) (sl : Slot) : Prop :=
  match sl.font with
  | none => sl.state = .empty ∧ sl.pins = 0
  | some f => sl.pins = pins f ∧ match sl.state with
    | .valid r t => r ≤ 255 ∧ tableOk f t
    | .asking | .empty => 1 ≤ sl.pins

/-- The Width Cache: twelve slots, each sound, no two for one font (R20); the use list has the VALID slots, each once (R22);
and every font that a held take names has a slot (R21). -/
def slotsOk (pins : Nat → Nat) (w : WidthCache) : Prop :=
  w.slots.length = 12 ∧ (∀ (i : Nat) (sl : Slot), w.slots[i]? = some sl → slotOk pins sl) ∧
  (∀ (i j : Nat) (a b : Slot) (f : Nat), w.slots[i]? = some a → w.slots[j]? = some b → a.font = some f → b.font = some f → i = j) ∧
  w.useList.Nodup ∧ (∀ i, i ∈ w.useList ↔ ∃ sl r t, w.slots[i]? = some sl ∧ sl.state = .valid r t) ∧
  ∀ f, 1 ≤ pins f → ∃ (i : Nat) (sl : Slot), w.slots[i]? = some sl ∧ sl.font = some f

/-- The Width Cache is sound with the pins of the held takes (R21), the fonts that these name number at most twelve (R21), and
the width generation stands in two bytes (R29). -/
def widthOk (s : State) : Prop :=
  slotsOk (namedBy s.takes) s.width ∧ s.heldFonts.length ≤ 12 ∧ s.width.gen ≤ 65535

/-- The take records, the window table and the Width Cache are sound together. -/
def heldOk (s : State) : Prop := takesOk s.takes ∧ windowsOk s ∧ widthOk s

/-! ### The lines of the pass -/

/-- The store is empty and the Compositor IDLE. -/
def resting (s : State) : Prop := s.store.records = [] ∧ s.comp.phase = .idle

/-- Where the Compositor stands in a text of `n` bytes, its context `x`. A line being built began inside the text, and has
taken no more numbers than the text has bytes before it, from R18's cap on; reading stands beyond its start once it holds an
item, and so does each place where reading may go on after a break of it (R47). A line held is numbered next, and reading goes
on beyond its start. So every line takes at least one byte of the text (R18). -/
def lineAt (c : Compositor) (x : Context) (n : Nat) : Prop :=
  match c.phase with
  | .idle => True
  | .waiting => ∃ h, c.held = some h ∧ h.record.number = x.nextLine ∧ x.nextLine ≤ 65535 ∧
      x.nextLine + 1 ≤ 49152 + h.next.offset
  | .setting | .paused => ∃ y, c.snap = some y ∧ y.resume < n ∧ y.resume ≤ x.resume ∧ x.nextLine ≤ 49152 + y.resume ∧
      (c.line ≠ [] ∨ c.group ≠ [] → y.resume < x.resume) ∧
      (c.line ≠ [] → y.resume < c.groupStart ∧ ∀ b ∈ c.group, y.resume < b.offset) ∧
      ∀ b ∈ c.group.tail, y.resume < b.offset

/-- The lines of the store stand in ascending line number without gaps, from 1 to 65,535 (R80); the line being built, or held,
is the next one (R81). With no take ACTIVE there is no line, and neither is there once a park has been answered or a kill has
emptied the store (R84, R192). -/
def linesOk (s : State) : Prop :=
  (∃ n, 1 ≤ n ∧ n + s.store.records.length ≤ 65536 ∧
    s.store.records.map (fun r => r.number) = List.range' n s.store.records.length ∧
    (s.comp.phase ≠ .idle → ∃ x t, s.comp.ctx = some x ∧ s.active? = some t ∧
      x.nextLine = n + s.store.records.length ∧ lineAt s.comp x t.textLen)) ∧
  (s.active? = none → resting s) ∧
  ∀ p, s.pass = some p → (p.killing = true → s.comp.phase = .idle) ∧ (p.emptied = true → resting s) ∧
    ∀ q, p.park = some q → q.answered = true → resting s

/-- All of them (R20 to R22, R80, R172, R179 to R181, R186, R193). -/
def soundOk (s : State) : Prop := heldOk s ∧ linesOk s

/-! ### Frames heard -/

/-- The header of a command that is a received frame. -/
def frameHeader : Instr → Option Header
  | .reset h _ | .kill h _ | .claim h _ _ | .widthTable h _ _ _ | .taken h _ | .refused h _ _ | .approve h _
  | .widthAsk h _ | .offer h _ | .copy h _ _ _ | .copyEnd h _ _ | .exceptionAdd h _ | .exceptionDelete h _
  | .announce h _ | .notice h _ => some h
  | _ => none

/-- The frame `c` is received whole, passes its checks, and was not sent by a station of this station's number (R167,
R169). -/
def Received (h : Header) (c : Instr) (s : State) : Prop :=
  s.hears = true ∧ frameOk c = true ∧ h.sender ≠ s.number

/-- The state as a received frame has ended: the line is due its gap (R163). -/
def heard (s : State) : State := { s with line := { s.line with phase := .gapDue } }

/-! ### Offers -/

/-- The station bids on this offer (R181): it is in RUN or STANDBY and not muted, holds no record for the key, fewer than 8
records, enough free blocks, at most 12 distinct fonts with the offer's, film for the estimate and the trailer, VALID slots
where the offer is widths-scarce, and paper where it is proof-first. -/
def mayBid (s : State) (m : OfferMsg) : Prop :=
  (s.stop.station = .run ∨ s.stop.station = .standby) ∧ s.line.mute = false ∧
  (∀ x ∈ s.takes, x.key ≠ m.key) ∧ s.takes.length < 8 ∧ (m.copyLen + 255) / 256 ≤ s.freeBlocks.length ∧
  (distinct (s.heldFonts ++ m.fonts)).length ≤ 12 ∧ m.film + 1440 ≤ s.film.remaining ∧
  (m.scarce = 0 ∨ ∀ f ∈ m.fonts, s.width.isValid f = true) ∧ (m.mode = 0 ∨ s.paperOut = false)

/-! ### Movements that fail -/

/-- The mechanism whose movement or flash this command finds failed: a timeout of a movement in progress, or an index event
that names another position than its target (R103, R104, R114, R132, R134). -/
def failedMechanism (s : State) : Instr → Option Mech
  | .moveTimeout .turret => if s.exp.turretMove.isSome then some .turret else none
  | .moveTimeout .lens => if s.exp.lensMove.isSome then some .lens else none
  | .moveTimeout .carriage => if s.exp.carriageMove.isSome then some .carriage else none
  | .flashTimeout => if s.exp.flash.isSome then some .flash else none
  | .seatIndex n =>
    if s.exp.homing ≠ some .turret ∧ s.exp.turretMove.isSome ∧ s.exp.turretMove ≠ some n.val then some .turret else none
  | .lensIndex n =>
    if s.exp.homing ≠ some .lens ∧ s.exp.lensMove.isSome ∧ s.exp.lensMove ≠ some n.val then some .lens else none
  | .advanceTimeout => match s.film.transport with
    | .advancing | .trailing _ => some .film
    | _ => none
  | .cutterTimeout => match s.film.transport with
    | .cutting _ => some .cutter
    | _ => none
  | _ => none

/-- The transmit queue, unmuted, takes a notice at once (R169, R171). -/
def hasRoom (s : State) : Prop := s.line.mute = false ∧ s.line.queue.length + s.line.waiting.length < 8

/-- The queue holds this notice, not yet begun. -/
def noticed (t : State) (key : Option Key) (body : NoticeBody) : Prop :=
  ({ frame := .notice key body, begun := false } : TxEntry) ∈ t.line.queue

/-- A restartable stop raised now would be recorded (R143): the station is in RUN or HOLD with no stop pending and no park in
progress, the take `x` is ACTIVE, `r` is its first unexposed line, and the stop is not that line's third (R144). -/
def mayStop (s : State) (x : Take) (r : LineRecord) : Prop :=
  (s.stop.station = .run ∨ s.stop.station = .hold) ∧ s.stop.record = none ∧ (∀ p, s.pass = some p → p.park = none) ∧
  s.active? = some x ∧ s.firstUnexposed = some r ∧ (∀ n, x.lineStop = some (r.start.nextLine, n) → n ≤ 1)

/-- The context from which the pass would be set again (R84): the start of the first unexposed line, else of the line held,
else of the line being built, else the context at the end of the pass. -/
def unexposedContext (s : State) : Option Context :=
  match s.firstUnexposed, s.comp.phase with
  | some r, _ => some r.start
  | none, .waiting => s.comp.held.map (fun h => h.record.start)
  | none, .setting => s.comp.snap
  | none, .paused => s.comp.snap
  | none, .idle => s.comp.ctx

/-- The line stop count of a take after one more stop for this line (R144). -/
def nextStopCount (x : Take) (line : Nat) : Nat :=
  match x.lineStop with
  | some (l, n) => if l = line then n + 1 else 1
  | none => 1

/-- The takes after a stop of `x` for this line has been counted (R144). -/
def stopCounted (s : State) (x : Take) (line : Nat) : List Take :=
  s.takes.map (fun y => if y.key == x.key then { y with lineStop := some (line, nextStopCount x line) } else y)

/-- A restartable stop of this kind stands recorded in `t`, counted, for the take and the line, to return to the state of `s`
(R143, R144). -/
def stopRecorded (s t : State) (kind : StopKind) (x : Take) (r : LineRecord) (font : Option Nat) (door : Option Door) : Prop :=
  t.stop.station = .stopped ∧ t.stop.record = some
    { kind := kind, key := some x.key, line := some r.start.nextLine, font := font, door := door, mech := none
      earlier := none, toHold := decide (s.stop.station = .hold), timeRaised := Config.moment s.moments
      timer := decide (kind = .fontCall) || decide (kind = .filmOut) } ∧
  t.takes = stopCounted s x r.start.nextLine ∧ t.pass = s.pass

/-- A restartable stop raised now is the third on its line (R144), and would otherwise be recorded as `mayStop` says. -/
def thirdStopOn (s : State) (x : Take) (r : LineRecord) : Prop :=
  (s.stop.station = .run ∨ s.stop.station = .hold) ∧ s.stop.record = none ∧ (∀ p, s.pass = some p → p.park = none) ∧
  s.active? = some x ∧ s.firstUnexposed = some r ∧ ∃ n, x.lineStop = some (r.start.nextLine, n) ∧ 2 ≤ n

/-- A pass with no park in progress, asked to be parked: a take being killed, and one whose end cut has been asked for, are
not parked (R154, R192, R150). -/
def passParked (reason : ParkReason) (p : Pass) : Pass :=
  if p.killing = true ∨ p.cutAsked = true then p
  else { p with park := some { reason := reason, answered := false, context := none } }

/-- The reason with which a third stop of this kind parks its take (R144). -/
def thirdReason (kind : StopKind) (font : Option Nat) : ParkReason :=
  if kind = .fontCall then .fontCall (font.getD 0) else .repeated

/-- From `s` to `t` a third stop on the line was counted, not recorded and not told, and parks the take (R144). -/
def stopParks (s t : State) (kind : StopKind) (x : Take) (r : LineRecord) (font : Option Nat) : Prop :=
  t.stop = s.stop ∧ t.line = s.line ∧ t.takes = stopCounted s x r.start.nextLine ∧
  t.pass = s.pass.map (passParked (thirdReason kind font))

/-- From `s` to `t` a stop `k` that names a line of `x` was cleared with the take-up door open over a galley (R148, step 2): a
DOOR stop, counted, takes its place, with its return state (Log 35); a third one empties the record and parks the take. -/
def takeupReplaces (s t : State) (k : StopRecord) (x : Take) (line : Nat) : Prop :=
  (∀ y ∈ t.takes, y.key = x.key → y.lineStop = some (line, nextStopCount x line)) ∧
  (nextStopCount x line < 3 → t.stop =
    { s.stop with
      record := some
        { kind := .door, key := some x.key, line := some line, font := none, door := some .takeup, mech := none
          earlier := none, toHold := k.toHold, timeRaised := Config.moment s.moments, timer := false } } ∧
    t.pass = s.pass ∧ (hasRoom s → noticed t (some x.key) (.stop .door line (some .takeup)))) ∧
  (3 ≤ nextStopCount x line → t.pass = s.pass.map (passParked .repeated) ∧
    t.stop = { s.stop with station := if k.toHold = true ∧ k.kind ≠ .door then .hold else .run, record := none } ∧
    t.line = s.line)

/-! ### Faults -/

/-- The park that a fault asks for (R150): a park in progress takes the reason fault (R154). -/
def faultPark (p : Pass) : Pass :=
  if p.killing = true then p
  else match p.park with
    | some q => { p with park := some { q with reason := .fault } }
    | none =>
      if p.cutAsked = true then p
      else { p with park := some { reason := .fault, answered := false, context := none } }

/-- The release mark that a fault places on a held take (R150, R193): a release in progress goes on as it was, HALT stands
before a fault, and for the ACTIVE take being killed the request is void (R192). A take in PROOF-HOLD bears it too (Log 43). -/
def faultMarked (s : State) (x : Take) : Take :=
  if x.state = .releasing ∨ x.state = .stranded ∨ (x.state = .active ∧ s.pass.any (fun p => p.killing) = true) then x
  else { x with release := if x.release = some .halt then some .halt else some .fault }

/-- From `s` to `t` a fault was taken (R150, R151): its record, with the kind it replaced, FAULT, the park, the release marks
and the notice. -/
def faultTaken (s t : State) (kind : StopKind) (mech : Option Mech) : Prop :=
  let key := s.active?.map (fun x => x.key)
  let line := s.firstUnexposed.map (fun r => r.number)
  let earlier := s.stop.record.map (fun r => r.kind)
  t.stop =
    { s.stop with
      station := .fault
      record := some
        { kind := kind, key := key, line := line, font := none, door := none, mech := mech, earlier := earlier
          toHold := false, timeRaised := Config.moment s.moments, timer := false } } ∧
  t.pass = s.pass.map faultPark ∧ t.takes = s.takes.map (faultMarked s) ∧
  (hasRoom s → noticed t key (.fault kind mech earlier false (line.getD 0)))

/-! ### Copy commands read -/

/-- The byte value of a copy command and the number of its argument bytes (R5, R178). -/
def copyShape : Instr → Option (Nat × Nat)
  | .font => some (0x01, 2)
  | .size => some (0x02, 1)
  | .lead => some (0x03, 1)
  | .measure => some (0x04, 2)
  | .indent => some (0x05, 2)
  | .spaceband => some (0x06, 3)
  | .letterspace => some (0x07, 1)
  | .mode => some (0x08, 1)
  | .hyph => some (0x09, 1)
  | .caps => some (0x0A, 1)
  | .ladder => some (0x0B, 1)
  | .endpara => some (0x0C, 0)
  | .emspace => some (0x0D, 0)
  | .enspace => some (0x0E, 0)
  | .thinspace => some (0x0F, 0)
  | .nbspace => some (0x10, 0)
  | .disc => some (0x11, 0)
  | _ => none

/-- The next byte of the text of the ACTIVE take `t`, under the context `x`, is `code`, and the `n` argument bytes after it
stand before the end of copy (R5). -/
def Reads (s : State) (t : Take) (x : Context) (code n : Nat) : Prop :=
  reading? s = some { take := t, ctx := x, byte := some code } ∧ x.resume + 1 + n ≤ t.textLen

/-- The `i`-th argument byte after the byte at the context's resume offset. -/
def argAt (s : State) (t : Take) (x : Context) (i : Nat) : Nat := textByte s.mem t (x.resume + 1 + i)

/-- A line-level value read with reading left at `next` (R8): in force at once where the line being built holds no box, and
pending otherwise. -/
def levelPlaced (s : State) (x : Context) (next : Nat) (now : Context → Context)
    (later : PendingValues → PendingValues) : State :=
  if s.comp.holdsBox then
    { s with comp := { s.comp with ctx := some { x with resume := next }, pend := later s.comp.pend } }
  else { s with comp := { s.comp with ctx := some (now { x with resume := next }) } }

/-- The take's counters with so many more copy errors, or clamped arguments (R5, R8), up to 65,535. -/
def moreErrors (n : Nat) (c : Counters) : Counters := { c with copyErrors := min 65535 (c.copyErrors + n) }
def moreClamped (n : Nat) (c : Counters) : Counters := { c with clamped := min 65535 (c.clamped + n) }

/-- A box joined to the word being read, with reading left at `next` (R7, R15, R17): the line's first box gives the snapshot
its font and size, and a box takes the mark of a substituting SIZE before it. -/
def boxPlaced (s : State) (x : Context) (next : Nat) (kind : ItemKind) (code width : Nat) (absent : Bool) : State :=
  { s with comp := { s.comp with
    ctx := some { x with resume := next }
    snap := if s.comp.holdsBox then s.comp.snap else s.comp.snap.map (fun y => { y with font := x.font, size := x.size })
    group := s.comp.group ++
      [{ kind := kind, code := code, font := x.font, size := x.size, width := width, absent := absent, offset := x.resume
         subst := s.comp.subst, after := s.comp.afterSpace }]
    subst := false
    afterSpace := match kind with
      | .character => false
      | _ => s.comp.afterSpace } }

/-- The line as it would stand with the word group added, its kept word spaces before it (R43). -/
def joinedLine (c : Compositor) : List BuildItem := if c.group.isEmpty then c.line else c.spacedLine ++ c.group

/-! ### Items, breaks and preambles, in the terms of their rules -/

/-- An item of a line record that is to be flashed: a character that is not absent (R108). -/
def toFlash (i : LineItem) : Prop := i.code ≠ 0x20 ∧ i.absent = false

/-- A box of code 0x2D, a box of any other code, and a letter of a word group (R62, R64). -/
def hyphenBoxed (i : BuildItem) : Prop := i.kind = .character ∧ i.code = 0x2D
def otherBoxed (i : BuildItem) : Prop := i.kind ≠ .justifying ∧ ¬ hyphenBoxed i
def letterBoxed (i : BuildItem) : Prop :=
  i.kind = .character ∧ ((0x41 ≤ i.code ∧ i.code ≤ 0x5A) ∨ (0x61 ≤ i.code ∧ i.code ≤ 0x7A))

/-- One of these patterns puts the value `v` on the gap after letter `p` of the word `w` (R69): its letters stand at place `q`
of the word between two full stops. -/
def valueFalls (patterns : List Pattern) (w : List Nat) (p v : Nat) : Prop :=
  ∃ pat ∈ patterns, ∃ q, q ≤ p + 1 ∧ (((0x2E :: w) ++ [0x2E]).drop q).take pat.letters.length = pat.letters ∧
    pat.values[p + 1 - q]? = some v

/-- The line as it would stand ended after place `i` of the word group being read, with the hyphen of R40 where the break adds
one (R44). -/
def brokenLine (s : State) (i : Nat) (kind : BreakKind) : List BuildItem :=
  s.comp.spacedLine ++ s.comp.group.take (i + 1) ++
    match kind, s.comp.group[i]? with
    | .added, some b =>
      [{ kind := .character, code := 0x2D, font := b.font, size := b.size, width := s.width.entry b.font 0x2D * 5 * b.size
         absent := false, offset := b.offset, subst := false, after := false }]
    | _, _ => []

/-- A candidate break is usable: the line it gives meets both fit conditions (R44), and an added hyphen is of a font that has
one (R40). -/
def usableBreak (s : State) (x : Context) (i : Nat) (kind : BreakKind) : Prop :=
  (s.comp.values x s.comp.group).fits (brokenLine s i kind) = true ∧
  (kind = .added → ∃ b, s.comp.group[i]? = some b ∧ 0 < s.width.entry b.font 0x2D)

/-- The bytes of a preamble entry of these letters and positions (R3). -/
def entryBytes (e : List Nat × List Nat) : List Nat := e.1.length :: e.1 ++ e.2.length :: e.2

/-- The entries kept of those examined, in order: each of the form R3 asks whose folded word is new (R3, R4). -/
def keptEntries (es : List (List Nat × List Nat)) : List ExceptionEntry :=
  es.foldl (fun kept e =>
    if 2 ≤ e.1.length ∧ e.1.length ≤ 24 ∧ (∀ c ∈ e.1, isLetter c = true) ∧ e.2.length + 1 ≤ e.1.length ∧
        (∀ p ∈ e.2, 1 ≤ p ∧ p + 1 ≤ e.1.length) ∧ (∀ k ∈ kept, k.word ≠ e.1.map fold)
    then kept ++ [{ word := e.1.map fold, positions := positionSet e.2 }] else kept) []

/-- The last bytes of a copy are an entry cut short (R3); no byte at all counts as one (Log 52). -/
def cutShort (tail : List Nat) : Prop :=
  ∀ l rest, tail = l :: rest → ∀ p, rest[l]? = some p → rest.length < l + 1 + p

/-! ### Complete lines -/

/-- The pending values applied to a context in the order of R8, and the clamped arguments that counts: a new measure lowers an
indent above it less 36 (R8), and an indent is held to the measure less 36 (R11). -/
def pendingApplied (p : PendingValues) (c : Context) : Context × Nat :=
  let measure := p.measure.getD c.measure
  let lowered := if p.measure.isSome then min (measure - 36) c.indent else c.indent
  ({ c with
      leading := p.leading.getD c.leading, measure := measure, indent := p.indent.elim lowered (fun i => min (measure - 36) i)
      sbMin := p.spaceband.elim c.sbMin (fun v => v.1), sbOpt := p.spaceband.elim c.sbOpt (fun v => v.2.1)
      sbMax := p.spaceband.elim c.sbMax (fun v => v.2.2), letterspace := p.letterspace.getD c.letterspace
      mode := p.mode.getD c.mode, hyph := p.hyph.getD c.hyph, caps := p.caps.getD c.caps
      ladderLimit := p.ladder.getD c.ladderLimit },
   (if lowered < c.indent then 1 else 0) + p.indent.elim 0 (fun i => if measure - 36 < i then 1 else 0))

/-- The context after a line (R58, R71, R8, R47): the next line number, the ladder count, the pending values, and the offset,
font and size with which reading goes on. -/
def contextAfter (s : State) (x : Context) (ladder resume font size : Nat) : Context :=
  { (pendingApplied s.comp.pend { x with nextLine := min 65535 (x.nextLine + 1), ladderCount := ladder }).1 with
    resume := resume, font := font, size := size }

/-- The ACTIVE take after the line `r` has been appended (R58, R8, R86): its line counts rise, the clamped arguments of the
pending values with them, each up to 65,535 (Log 18 for the last), and a line of a FILM pass without a proof makes its proof
state partial. -/
def lineCounted (clamped : Nat) (r : LineRecord) (y : Take) : Take :=
  let up (n : Nat) (b : Bool) : Nat := min 65535 (n + if b then 1 else 0)
  { y with
    counters := { y.counters with
      lines := min 65535 (y.counters.lines + 1), hyphenated := up y.counters.hyphenated r.flags.hyphenated
      loose := up y.counters.loose r.flags.loose, letterspaced := up y.counters.letterspaced r.flags.letterspaced
      overset := up y.counters.overset r.flags.overset
      absent := min 65535 (y.counters.absent + (r.items.filter (fun i => i.absent)).length)
      clamped := min 65535 (y.counters.clamped + clamped) }
    proofState := if r.filmPending && !r.proofPending then
        match y.proofState with
        | .complete => .partialFrom r.number
        | .partialFrom n => .partialFrom (min n r.number)
        | .none => .none
      else y.proofState }

/-- From `s` to `u` the line `r` of the ACTIVE take `t`, set under `x`, was appended (R81): its consumer fields (R82; a proof
dropped and not partial: Log 45), the take's counts (R58), and no pending value left (R8). -/
def lineAppended (s u : State) (t : Take) (x : Context) (r : LineRecord) : Prop :=
  u.store.records = s.store.records ++ [r] ∧ u.comp.pend = noPending ∧ u.comp.held = none ∧ u.comp.line = [] ∧
  u.comp.group = [] ∧ r.filmPending = decide (s.passKind = .film) ∧
  (r.proofPending = true ↔ s.passKind = .proof ∨
    (s.paperOut = false ∧ t.proofDropped = false ∧ ∀ n, t.proofState ≠ .partialFrom n)) ∧
  u.takes = s.takes.map (fun y => if y.state == .active then lineCounted (pendingApplied s.comp.pend x).2 r y else y)

/-- The record of a line ended now, of so many items (R57): its number, start, leading and mode. -/
def lineOf (s : State) (x : Context) (items : Nat) (r : LineRecord) : Prop :=
  r.number = x.nextLine ∧ r.start = s.comp.snap.getD x ∧ r.leading = x.leading ∧ r.mode = x.mode ∧ r.items.length = items

/-- From `s` to `u` a complete line found no room in the store (R35, R81): the Compositor is WAITING with it held whole, and
nothing else of the pass has changed. -/
def lineHeld (s u : State) (h : SetLine) : Prop :=
  u.comp = { s.comp with ctx := u.comp.ctx, phase := .waiting, held := some h, line := [], group := [], discs := [] } ∧
  u.store = s.store ∧ u.takes = s.takes ∧ u.pass = s.pass

/-- The store has room for a line of so many items (R80, R81). -/
def storeRoom (s : State) (items : Nat) : Prop := s.store.records.length < 64 ∧ s.store.used + items ≤ 4096

/-- This command ends the word group being read (R43): a kept word space, ENDPARA, or the end of copy with a box on the line
(R14). -/
def endsGroup (s : State) (t : Take) (x : Context) (c : Instr) : Prop :=
  (c = .wordSpace ∧ Reads s t x 0x20 0 ∧ s.comp.holdsBox = true ∧ s.comp.afterSpace = false) ∨
  (c = .endpara ∧ Reads s t x 0x0C 0) ∨
  (c = .endOfCopy ∧ reading? s = some { take := t, ctx := x, byte := none } ∧ s.comp.holdsBox = true)

/-! ### Takes on their way -/

/-- The reason of a STRANDED take's release is gone (R195, step 2); a take with no reason has none to wait for. -/
def strandReasonGone (s : State) (x : Take) : Prop :=
  s.stop.station = .run ∧
  match x.release with
  | some .widths => ∀ f ∈ x.fonts, s.width.isValid f = true
  | some .fault | some .repeated => s.stop.record = none
  | some .filmOut => ∀ r, s.stop.record = some r → r.kind ≠ .filmOut
  | some .halt => False
  | none => True

/-- A STRANDED take returned to QUEUED (R195, step 3). -/
def returned (s : State) (z : Take) : Take :=
  { z with
    state := .queued, timer := if 0 < z.cls then some .aging else none, parkReason := none, release := none, tries := 0
    claimant := none, offerDue := false, reoffer := false, reask := none, sending := none, sentEnd := []
    scarce := z.scarce && !z.fonts.all (fun f => s.width.isValid f) }

/-- Of the takes that meet `p`, `x` is the first by class, mounted fonts and claim order (R186). -/
def firstByKeys (s : State) (p : Take → Prop) (x : Take) : Prop :=
  let mounted (y : Take) : Prop := (y.proofFirst = true ∧ y.approved = false) ∨ ∀ f ∈ y.fonts, f ∈ s.exp.seats
  ∃ a b, s.takes = a ++ x :: b ∧ p x ∧
    (∀ y ∈ a, p y → x.cls < y.cls ∨ (x.cls = y.cls ∧ mounted x ∧ ¬ mounted y)) ∧
    (∀ y ∈ b, p y → x.cls < y.cls ∨ (x.cls = y.cls ∧ (mounted y → mounted x)))

/-- The text offset a released take's text is sent from: its context's resume offset, or the end of the text where that lies
beyond it (R194, Log 51). -/
def sentFrom (x : Take) : Nat := x.context.elim 0 (fun c => min (x.copyLen - x.preLen) c.resume)

/-- The OFFER that R194 gives a released take. -/
def releaseOffer (x : Take) : OfferMsg :=
  { key := x.key, cls := x.cls, mode := if x.proofFirst then 1 else 0, continuation := if x.context.isSome then 1 else 0
    scarce := if x.scarce then 1 else 0, copyLen := x.copyLen - sentFrom x, film := x.film, fontCount := x.fonts.length
    fonts := x.fonts, context := x.context.map (fun c => { c with resume := 0 }) }

/-! ### Reactions -/

/-- The line in exposure is `r`, under `c` (R106). -/
def exposing (s : State) (c : Exposure) (r : LineRecord) : Prop :=
  s.exp.cur = some c ∧ s.store.records.find? (fun x => x.number == c.line) = some r

/-- The Exposure Sequencer with no line in exposure. -/
def lineEnded (e : Exposer) : Exposer := { e with cur := none, phase := .idle }

/-- From `s` to `t` the line `r` ended its exposure with nothing done, and a stop of this kind was raised, which is recorded
where it may be, and parks the take where it is the line's third (R108 to R110, R131, R143, R144). -/
def endsWithStop (s t : State) (r : LineRecord) (kind : StopKind) (font : Option Nat) (door : Option Door) : Prop :=
  t.exp = lineEnded s.exp ∧ t.store = s.store ∧
  ∀ x, (mayStop s x r → stopRecorded s t kind x r font door ∧
    (hasRoom s → noticed t (some x.key) (match kind with
      | .fontCall => .fontCall r.start.nextLine (font.getD 0)
      | _ => .stop kind r.start.nextLine door))) ∧
    (thirdStopOn s x r → stopParks s t kind x r font)

/-! ### Cuts -/

/-- The cut `c` has ended: Film Transport is IDLE and has reported it done to whoever asked for it (R134). -/
def cutTold (s : State) (c : CutRequest) : State :=
  { s with
    film := { s.film with transport := .idle }
    pass := s.pass.map (fun p => if c.asker ∈ [CutAsker.endCut, .park, .kill] then { p with cutDone := true } else p)
    stop := { s.stop with spoilCut := s.stop.spoilCut && decide (c.asker ≠ .spoil) } }

/-- The cut `c` has closed the open galley `g`, uncut or not (R134): flagged as its asker has it (R135), it stands at the end of
the manifest (R137); the pass goes on with the next galley sequence (R133), no line is marked advanced (R111), and the galley
and its length are added to its take's counters (Log 64). -/
def galleyCut (s : State) (c : CutRequest) (g : Galley) (uncut : Bool) : State :=
  let closed : Galley :=
    { g with flags :=
      { g.flags with
        complete := g.flags.complete || decide (c.asker = .endCut)
        continuedTo := g.flags.continuedTo || decide (c.asker ∈ [CutAsker.park, .operator, .spoil])
        spoiled := if c.asker = .spoil then c.spoiled else g.flags.spoiled
        killed := g.flags.killed || decide (c.asker = .kill)
        reset := g.flags.reset || decide (c.asker = .reset)
        uncut := g.flags.uncut || uncut } }
  let t := cutTold s c
  { t with
    film := { t.film with
      galley := none, nextSeq := s.film.nextSeq.map (fun _ => min 65535 (g.seq + 1)), manifest := s.film.manifest ++ [closed] }
    exp := { s.exp with mark := none }
    takes := s.takes.map (fun x => if x.key == g.key then
      { x with counters := { x.counters with
        galleys := min 65535 (x.counters.galleys + 1), filmUsed := min 16777215 (x.counters.filmUsed + g.length) } }
      else x) }

/-! ### The copy store's bytes -/

/-- The bytes of the copy store outside a list of addresses are those of `s` (R180). -/
def sameCopyOutside (addresses : List Nat) (s t : State) : Prop :=
  ∀ a, a ∉ addresses → memRead t.mem a = memRead s.mem a

/-- The addresses of the copy offsets `n` to `n + len − 1` of a take with these blocks (R1). -/
def copyAddresses (blocks : List Nat) (n len : Nat) : List Nat :=
  (List.range len).filterMap (fun i => copyAddress blocks (n + i))

end Sys2Proof.Machine
end

