-- ==== Sys2Proof/Certificates/Slice0/Obligations.lean ====
section
/-! DEFINITION. The statements for the provers, group by group: the step and what every step keeps, the setting of a line, and
then the commands in the order of their families. A command's effect is stated as the state it leads to before the
reactions of the other blocks come about: `exec c s = .next (settle t)` with `t` written out, where `settle` runs the
reactions that are due (Log 5) and is the identity on a quiet state (`IdleAndQuietStatesRest`). -/

open Sys2Proof Sys2Proof.Machine

/-! ### The step -/

/-- The command at the front of the queue is what a step runs, on the state with the rest of the queue. -/
def Obligations.StepRunsTheFrontCommand : Prop :=
  ∀ (c : Instr) (rest : List Instr) (s : State), s.pending = c :: rest → step s = exec c { s with pending := rest }

/-- With no command waiting the block idles (the model's choice, Log 2).
A state in which nothing is due is its own settled state (Log 5).
Settling leaves the queue of commands, the copy store, the Hyphenation Unit and Lamp Control's values as they are. -/
def Obligations.IdleAndQuietStatesRest : Prop :=
  (∀ s : State, s.pending = [] → step s = .next s) ∧
  (∀ s : State, quiet s = true → settle s = s) ∧
  (∀ s : State, (settle s).pending = s.pending ∧ (settle s).mem = s.mem ∧ (settle s).hyph = s.hyph ∧
     (settle s).lamp = { s.lamp with phase := (settle s).lamp.phase })

/-- Every command answers a next state, and none touches the commands that wait behind it. -/
def Obligations.EveryCommandAnswers : Prop :=
  ∀ (c : Instr) (s : State), ∃ t, exec c s = .next t ∧ t.pending = s.pending

/-! ### What every step keeps -/

/-- The copy store stays in its canonical form. -/
def Obligations.StepKeepsCopyStoreCanonical : Prop :=
  ∀ s t : State, memWf s.mem = true → step s = .next t → memWf t.mem = true

/-- The exception dictionary stays in strictly ascending word order, within 512 entries, each of the form R74 gives it, and
its generation within two bytes (R73, R74, R75, R77, R78). -/
def Obligations.StepKeepsDictionary : Prop :=
  ∀ s t : State, dictOk s.hyph = true → step s = .next t → dictOk t.hyph = true

/-- Lamp Control's correction, last error, clamp run, base durations and gains stay within their ranges (R121, R122, R124,
R125). -/
def Obligations.StepKeepsLampRanges : Prop :=
  ∀ s t : State, lampOk s.lamp → step s = .next t → lampOk t.lamp

/-- The transmit queue stays within 8 frames and in order: only the frame at the front may be being sent, and only while the
station sends, and the others stand by kind (R170). The window table stays within 4 windows (R172), and the three line counters
within 65,535 (R176).
The film count stays within the longest cassette (R128), the manifest within 64 records with room for an open galley's
(R109, R137), and the Set-Line Store within 64 records and 4,096 items (R80, R81).
At most 8 takes are held, no two with one key (R179), at most one ACTIVE (R186) and one RELEASING (R193), their fields within
their ranges and no block of the copy store with two of them (R180). No two windows of a kind have one subject (R172), and the
offer of each claim window is one the station could hold a take for (R181, R182). No two width slots hold one font (R20), each
held slot has the pins of the held takes that name its font, which are at most 12 fonts (R21), and the use list has the VALID
slots, each once (R22).
The lines of the store stand in ascending line number without gaps (R80), the line being built, or held, is numbered next (R81),
and there is no line with no take ACTIVE (R84, R192). -/
def Obligations.StepKeepsCountersWithinBounds : Prop :=
  (∀ s t : State, lineOk s.line → step s = .next t → lineOk t.line) ∧
  (∀ s t : State, filmOk s.film → storeOk s.store → step s = .next t → filmOk t.film ∧ storeOk t.store) ∧
  (∀ s t : State, heldOk s → step s = .next t → heldOk t) ∧
  (∀ s t : State, heldOk s → linesOk s → step s = .next t → linesOk t)

/-- The state after reset meets all of them. -/
def Obligations.ResetMeetsTheInvariants : Prop :=
  memWf State.reset.mem = true ∧ dictOk State.reset.hyph = true ∧ lampOk State.reset.lamp ∧ lineOk State.reset.line ∧
  filmOk State.reset.film ∧ storeOk State.reset.store ∧ heldOk State.reset ∧ linesOk State.reset

/-- No command but COPY and POWER_ON changes a byte of the copy store; POWER_ON leaves it blank, the model's choice for
bytes nothing has stored (Log 7).
No command but EXCEPTION_ADD, EXCEPTION_DELETE and POWER_ON changes the exception dictionary or its generation, and none
but those, ROM_READ_DONE and POWER_ON the Hyphenation Unit (R70, R75, R77, R78, R79).
No command but FLASH_DONE, LAMP_CHANGE_SWITCH and POWER_ON changes the lamp's correction, last error and clamp run
(R122, R124, R126, R127). -/
def Obligations.OnlyNamedCommandsWriteTheStores : Prop :=
  (∀ (c : Instr) (s t : State), exec c s = .next t → (∀ h k o d, c ≠ .copy h k o d) →
     (∀ p, c ≠ .powerOn p) → t.mem = s.mem) ∧
  (∀ (c : Instr) (s t : State), exec c s = .next t → (∀ h b, c ≠ .exceptionAdd h b) →
     (∀ h b, c ≠ .exceptionDelete h b) → (∀ p, c ≠ .powerOn p) →
     t.hyph.dict = s.hyph.dict ∧ t.hyph.gen = s.hyph.gen ∧ ((∀ r, c ≠ .romReadDone r) → t.hyph = s.hyph)) ∧
  (∀ (c : Instr) (s t : State), exec c s = .next t → (∀ r, c ≠ .flashDone r) → c ≠ .lampChangeSwitch →
     (∀ p, c ≠ .powerOn p) → t.lamp.c = s.lamp.c ∧ t.lamp.ePrev = s.lamp.ePrev ∧ t.lamp.run = s.lamp.run)

/-- Bytes stored at copy offsets of a take's blocks read back from those offsets, and every other byte of the copy store
reads as before (R1, R180). -/
def Obligations.CopyStoreReadsBack : Prop :=
  ∀ (m : List Host.Cell) (blocks : List Nat) (n : Nat) (data : List Byte), memWf m = true → blocks.Nodup →
    n + data.length ≤ 256 * blocks.length →
    (∀ i (h : i < data.length), copyByte (storeCopy m blocks n data) blocks (n + i) = data[i]) ∧
    (∀ a, a ∉ copyAddresses blocks n data.length → memRead (storeCopy m blocks n data) a = memRead m a)

/-! ### Setting a line -/

/-- R48: a justify-mode line that ends no paragraph and is not overset, whose boxes fit at the minimum space, fills its
available width exactly unless it is loose and holds no justifying space; its spaces are no narrower than the minimum
and, unless it is loose, no wider than the maximum; in the normal case they share the slack by q and r. -/
def Obligations.JustifiedLineFillsItsWidth : Prop :=
  ∀ (v : LineValues) (b k g : Nat), v.mode = 0 → b + k * v.minF ≤ v.avail → v.minF ≤ v.maxF →
    let sh := justify v false false b k g
    ((1 ≤ k ∨ sh.loose = false) → b + (k * sh.q + sh.r) + (g * sh.gap + sh.gapRem) = v.avail) ∧
    (1 ≤ k → v.minF ≤ sh.q ∧ sh.r < k) ∧
    (1 ≤ k → sh.loose = false → sh.q + (if 0 < sh.r then 1 else 0) ≤ v.maxF) ∧
    (1 ≤ k → v.avail - b ≤ k * v.maxF →
      sh = { q := (v.avail - b) / k, r := (v.avail - b) % k, gap := 0, gapRem := 0, left := 0, loose := false,
             letterspaced := false })

/-- R49 to R54: how the slack of every other kind of line is shared, by whether it is letterspaced, loose, without a
justifying space, at a paragraph's end, in another mode, or overset. -/
def Obligations.SlackIsShared : Prop :=
  ∀ (v : LineValues) (b k g : Nat),
    let s := v.avail - b
    let none' : Shares := { q := 0, r := 0, gap := 0, gapRem := 0, left := 0, loose := false, letterspaced := false }
    let full : Bool := decide (1 ≤ g) && decide (0 < v.letterF)
    (b ≤ v.avail → v.mode = 0 → 1 ≤ k → k * v.maxF < s →
      (1 ≤ g ∧ s - k * v.maxF ≤ g * v.letterF → justify v false false b k g =
        { none' with q := v.maxF, gap := (s - k * v.maxF) / g, gapRem := (s - k * v.maxF) % g, letterspaced := true }) ∧
      (¬ (1 ≤ g ∧ s - k * v.maxF ≤ g * v.letterF) → justify v false false b k g =
        { none' with q := (s - g * v.letterF) / k, r := (s - g * v.letterF) % k, gap := if g = 0 then 0 else v.letterF
                     loose := true, letterspaced := full })) ∧
    (b ≤ v.avail → v.mode = 0 →
      (1 ≤ g ∧ s ≤ g * v.letterF → justify v false false b 0 g =
        { none' with gap := s / g, gapRem := s % g, letterspaced := decide (0 < s) }) ∧
      (¬ (1 ≤ g ∧ s ≤ g * v.letterF) → justify v false false b 0 g =
        { none' with gap := if g = 0 then 0 else v.letterF, loose := true, letterspaced := full })) ∧
    (b ≤ v.avail → v.mode = 0 →
      (k * v.optF ≤ s → justify v true false b k g = { none' with q := if k = 0 then 0 else v.optF }) ∧
      (s < k * v.optF → justify v true false b k g = { none' with q := s / k, r := s % k })) ∧
    (b ≤ v.avail → 1 ≤ v.mode → v.mode ≤ 3 → ∀ para, justify v para false b k g =
      { none' with q := if k = 0 then 0 else v.optF
                   left := if v.mode = 2 then s - k * v.optF else if v.mode = 3 then (s - k * v.optF) / 2 else 0 }) ∧
    (∀ para, v.mode ≤ 3 → justify v para true b k g =
      { none' with q := if k = 0 then 0 else if v.mode = 0 then v.minF else v.optF
                   left := if v.mode = 2 then s - k * v.fitSpace
                     else if v.mode = 3 then (s - k * v.fitSpace) / 2 else 0 })

/-- R55: in the record of a complete line the first item stands at the indent and the left slack, and each later one at the
place of the item before it, that item's width, and a gap share where both are boxes; the first `r` spaces and the first
`gapRem` gaps take one fine more. -/
def Obligations.ItemsStandWhereTheirSharesPutThem : Prop :=
  (∀ (sh : Shares) (x : Nat) (l : List BuildItem),
    let ps := positions sh x sh.r sh.gapRem false l
    let spaces (n : Nat) : Nat := spaceCount (l.take n)
    let gaps (n : Nat) : Nat := gapCount (l.take n)
    ps.length = l.length ∧ (∀ p, ps[0]? = some p → p = x) ∧
    ∀ (i : Nat) (a b : BuildItem) (p q : Nat), l[i]? = some a → l[i + 1]? = some b → ps[i]? = some p → ps[i + 1]? = some q →
      q = p + (if a.isBox then a.width else sh.q + (if spaces i < sh.r then 1 else 0)) +
        (if a.isBox = true ∧ b.isBox = true then sh.gap + (if gaps (i + 1) < sh.gapRem then 1 else 0) else 0)) ∧
  (∀ (c start : Context) (base : Nat) (l : List BuildItem) (e : LineEnd),
    let sh := justify (lineValues c base) e.paraEnd e.overset (boxesWidth l) (spaceCount l) (gapCount l)
    let r := makeRecord c start base l e
    r.items.map (fun i => i.x) = positions sh (c.indent * 480 + sh.left) sh.r sh.gapRem false l ∧
    r.q = sh.q ∧ r.r = sh.r ∧ r.gap = sh.gap ∧ r.gapRem = sh.gapRem)

/-! ### Frames heard -/

/-- A frame that ends while the line is taken as busy, or while the station sends, is not heard; one heard that fails the
checks of R167 is discarded and counted, and the line is busy again. It holds for every frame of the table.
A frame broken or found bad before its end is counted, and the line is busy until it has been released for its gap
(R166, R167, R163).
R167: the checks made of a received frame, kind by kind: the sender, a take key's origin, and the values and lengths each
kind allows; a field is held to the one or two bytes it has on the line (R178), the form of a table and of an exception to
the size of its fields and its length alone, 3 to 240 bytes for an exception with its operation, and a NOTICE to 4 to 240 bytes
(the model's choice of its upper limit, Log 60). -/
def Obligations.BadAndBrokenFramesAreCounted : Prop :=
  (∀ (c : Instr) (h : Header) (s : State), frameHeader c = some h →
     (s.hears = false → exec c s = .next (settle s)) ∧
     (s.hears = true → frameOk c = false → exec c s = .next (settle
       { s with line := { s.line with phase := .unsynced, bad := satAdd 65535 s.line.bad 1 } }))) ∧
  (∀ s : State,
     (s.hears = true →
       exec .brokenFrame s = .next (settle
         { s with line := { s.line with phase := .unsynced, broken := satAdd 65535 s.line.broken 1 } }) ∧
       exec .badFrame s = .next (settle
         { s with line := { s.line with phase := .unsynced, bad := satAdd 65535 s.line.bad 1 } })) ∧
     (s.hears = false → exec .brokenFrame s = .next (settle s) ∧ exec .badFrame s = .next (settle s))) ∧
  (∀ h : Header,
     let sent : Prop := h.sender ≤ 14 ∧ h.addressee < 256
     let key (k : Key) : Prop := k.origin ≤ 14 ∧ k.number < 65536
     (∀ p, frameOk (.reset h p) = true ↔ sent) ∧
     (∀ k, (frameOk (.kill h k) = true ↔ sent ∧ key k) ∧ (frameOk (.taken h k) = true ↔ sent ∧ key k) ∧
       (frameOk (.approve h k) = true ↔ sent ∧ key k)) ∧
     (∀ k cost, frameOk (.claim h k cost) = true ↔ sent ∧ key k ∧ cost ≤ 31) ∧
     (∀ f r ws, frameOk (.widthTable h f r ws) = true ↔
       sent ∧ f < 65536 ∧ r < 256 ∧ (∀ w ∈ ws, w < 256) ∧ ws.length = 223) ∧
     (∀ k r, frameOk (.refused h k r) = true ↔ sent ∧ key k ∧ r < 256) ∧
     (∀ f, frameOk (.widthAsk h f) = true ↔ sent ∧ 1 ≤ f ∧ f ≤ 999) ∧
     (∀ m, frameOk (.offer h m) = true ↔ sent ∧ key m.key ∧ m.cls ≤ 3 ∧ m.mode ≤ 1 ∧ m.continuation ≤ 1 ∧ m.scarce ≤ 1 ∧
       1 ≤ m.copyLen ∧ m.copyLen ≤ 16384 ∧ m.film ≤ 16777215 ∧ 1 ≤ m.fontCount ∧ m.fontCount ≤ 8 ∧
       (∀ f ∈ m.fonts, 1 ≤ f ∧ f ≤ 999) ∧ m.fonts.length = m.fontCount ∧ (m.context.isSome = true ↔ m.continuation = 1) ∧
       ∀ c, m.context = some c →
         (∀ n ∈ [c.resume, c.font, c.measure, c.indent, c.nextLine, c.galleySeq], n < 65536) ∧
         ∀ n ∈ [c.size, c.leading, c.mode, c.sbMin, c.sbOpt, c.sbMax, c.letterspace, c.ladderLimit, c.ladderCount], n < 256) ∧
     (∀ k o d, frameOk (.copy h k o d) = true ↔
       sent ∧ key k ∧ 1 ≤ d.length ∧ d.length ≤ 235 ∧ o + d.length ≤ 16384) ∧
     (∀ k n, frameOk (.copyEnd h k n) = true ↔ sent ∧ key k ∧ 1 ≤ n ∧ n ≤ 16384) ∧
     (∀ b, (frameOk (.exceptionAdd h b) = true ↔ sent ∧ (∀ n ∈ b, n < 256) ∧ 2 ≤ b.length ∧ b.length ≤ 239) ∧
       (frameOk (.exceptionDelete h b) = true ↔ sent ∧ (∀ n ∈ b, n < 256) ∧ 2 ≤ b.length ∧ b.length ≤ 239)) ∧
     (∀ p, frameOk (.announce h p) = true ↔ sent ∧ (∀ n ∈ p, n < 256) ∧ p.length = 26) ∧
     (∀ p, frameOk (.notice h p) = true ↔ sent ∧ (∀ n ∈ p, n < 256) ∧ 4 ≤ p.length ∧ p.length ≤ 240))

/-- R168: RESET, TAKEN, REFUSED, COPY and COPY-END addressed elsewhere are ignored; RESET is taken for 15 as well. -/
def Obligations.FramesForOthersAreIgnored : Prop :=
  ∀ (c : Instr) (h : Header) (s : State), Received h c s → h.addressee ≠ s.number →
    ((∃ p, c = .reset h p ∧ h.addressee ≠ 15) ∨ (∃ k, c = .taken h k) ∨ (∃ k r, c = .refused h k r) ∨
      (∃ k o d, c = .copy h k o d) ∨ (∃ k n, c = .copyEnd h k n)) →
    exec c s = .next (settle (heard s))

/-- ANNOUNCE and NOTICE of other stations are handed to no block (R168). Any frame of a station of this station's own number
mutes it, empties its transmit queue, its NOTICEs counted lost, and cancels its windows; the producers of its other frames are
told that they were not sent; the frame then acts as one heard by a muted station does (R169), a RESET, which clears mute
again, too (the model's choice of the order, Log 59).
R169, R25, R175, R185: the muting by any frame, told apart from what the frame itself does. -/
def Obligations.AnnounceAndNoticeOnlyDetectDuplicates : Prop :=
  (∀ (c : Instr) (h : Header) (p : List Nat) (s : State), c = .announce h p ∨ c = .notice h p →
     (Received h c s → exec c s = .next (settle (heard s))) ∧
     (s.hears = true → frameOk c = true → h.sender = s.number →
       (s.line.mute = true → exec c s = .next (settle (heard s))) ∧
       (s.line.mute = false → ∃ t, exec c s = .next (settle t) ∧ t.line.mute = true ∧ t.line.queue = [] ∧
         t.line.waiting = [] ∧ t.line.windows = []))) ∧
  (∀ (c : Instr) (h : Header) (s : State), frameHeader c = some h → s.hears = true → frameOk c = true →
     h.sender = s.number → s.line.mute = false →
     let frames : List TxFrame := s.line.queue.map (fun e => e.frame) ++ s.line.waiting
     let silent : LineInterface :=
       { s.line with phase := .gapDue, mute := true, queue := [], waiting := [], windows := [] }
     ∃ u, exec c s = exec c u ∧ u.line.mute = true ∧ u.line.queue = [] ∧ u.line.waiting = [] ∧ u.line.windows = [] ∧
       u.line.phase = .gapDue ∧ u.panel.straps = s.panel.straps ∧ u.mem = s.mem ∧
       ((∀ f ∈ frames, ∃ k b, f = .notice k b) →
         u = { s with line := { silent with lost := min 65535 (s.line.lost + frames.length) } }) ∧
       (∀ font, frames = [.widthAsk font] → s.width.isAsking font = true → u = { s with line := { silent with
         lost := min 65535 s.line.lost
         watches := s.line.watches.filter (fun w => w.subject ≠ .font font) ++ [{ subject := .font font, slots := 520 }] } }) ∧
       (∀ m x, frames = [.offer m] → s.take? m.key = some x → x.state = .releasing → x.claimant = none →
         u = { s with line := { silent with
           lost := min 65535 s.line.lost
           watches := s.line.watches.filter (fun w => w.subject ≠ .take m.key) ++
             [{ subject := .take m.key, slots := 520 }] } }) ∧
       (∀ k d x, frames = [.taken k d] → s.take? k = some x → x.state = .receiving →
         u.takes = s.takes.filter (fun y => y.key ≠ k)) ∧
       ∀ (c' : Instr) (h' : Header), h'.sender ≤ 14 → h'.addressee = h.addressee →
         ((∃ k, c = .kill h k ∧ c' = .kill h' k) ∨ (∃ k, c = .approve h k ∧ c' = .approve h' k) ∨
           (∃ m, c = .offer h m ∧ c' = .offer h' m) ∨ (∃ f, c = .widthAsk h f ∧ c' = .widthAsk h' f) ∨
           (∃ f r ws, c = .widthTable h f r ws ∧ c' = .widthTable h' f r ws) ∨
           (∃ b, c = .exceptionAdd h b ∧ c' = .exceptionAdd h' b) ∨
           (∃ b, c = .exceptionDelete h b ∧ c' = .exceptionDelete h' b) ∨
           (∃ p, c = .reset h p ∧ c' = .reset h' p)) → exec c s = exec c' u)

/-! ### Resets and the settings ROM -/

/-- R201, R202: power-on brings every block to its power-on values, with the straps read and the proof inputs taken; the
commands that wait and the model's moment count stay (Log 9). The notice at a start-up without paper is Log 32. That the copy
store is blank (Log 7), and that Lamp Control's bases are 100, its Kp 3 and its Ki 1 and the pattern set empty before
ROM_READ_DONE (Log 44), are the model's choices.
The values the spec gives the blocks at power-on: START, no take, no film known beyond 57,000 steps, an unused lamp at
1,024 and OFF, twelve free width slots, an empty dictionary, pattern set, store and queue, positions unknown, eight
empty seats, both mechanisms of the film usable (R20, R34, R70, R79, R80, R100, R101, R122, R127, R128, R129, R141); of
them, the pattern set before the settings ROM has been read is the model's choice (Log 44). -/
def Obligations.PowerOnStartsAfreshAtItsValues : Prop :=
  (∀ (p : Pins) (s : State),
     let t : State := { State.reset with
       pending := s.pending, moments := s.moments, pins := p
       panel := { State.reset.panel with straps := p.straps }
       line := { freshLine with mute := decide (p.straps.station.val = 15) } }
     (p.paper = true → exec (.powerOn p) s = .next (settle t)) ∧
     (p.paper = false → p.straps.station.val ≠ 15 → exec (.powerOn p) s = .next (settle
       { t with line := { t.line with queue := [{ frame := .notice none (.proofPaper none false), begun := false }] } })) ∧
     (p.paper = false → p.straps.station.val = 15 → exec (.powerOn p) s = .next (settle
       { t with line := { t.line with lost := 1 } }))) ∧
  (let s := State.reset
   s.stop = { station := .start, record := none, spoilCut := false, clearing := false } ∧
   s.panel.cause = .powerOn ∧ s.panel.stage = .rom ∧ s.takes = [] ∧ s.pass = none ∧
   s.film.remaining = 57000 ∧ s.film.known = false ∧ s.film.lowNotified = true ∧ s.film.galley = none ∧
   s.film.manifest = [] ∧ s.film.driveOk = true ∧ s.film.cutterOk = true ∧
   s.lamp.phase = .off ∧ s.lamp.c = 1024 ∧ s.lamp.ePrev = 0 ∧ s.lamp.run = 0 ∧
   s.width.slots = List.replicate 12 { state := .empty, font := none, pins := 0 } ∧ s.width.useList = [] ∧ s.width.gen = 0 ∧
   s.hyph = { patterns := [], valid := false, dict := [], gen := 0 } ∧ s.store = { records := [], marker := none } ∧
   s.comp.phase = .idle ∧ s.comp.ctx = none ∧ s.proof.segs = [] ∧ s.proof.lineOpen = false ∧
   s.exp.seats = List.replicate 8 0 ∧ s.exp.order = [0, 1, 2, 3, 4, 5, 6, 7] ∧ s.exp.turret = none ∧ s.exp.lens = none ∧
   s.exp.carriage = none ∧ s.line.queue = [] ∧ s.line.windows = [] ∧ s.line.broken = 0 ∧ s.line.bad = 0 ∧ s.line.lost = 0)

/-- R201: a RESET for this station or for 15 is taken in every station state: the take records, windows, queue and lines go,
and the film count, the manifest, the open galley, the seat table, the dictionary, the patterns, the lamp's values and the
VALID width slots stay; homing begins where the ROM has been read; the bytes of the copy store stay (Log 7). -/
def Obligations.LineResetKeepsWhatItMust : Prop :=
  ∀ (h : Header) (p : Straps) (s : State), Received h (.reset h p) s → h.addressee = s.number ∨ h.addressee = 15 →
    ∃ t, exec (.reset h p) s = .next (settle t) ∧
      t.stop = { station := .start, record := none, spoilCut := false, clearing := false } ∧
      t.panel.cause = .lineReset ∧ t.panel.straps = p ∧ t.panel.romDone = s.panel.romDone ∧ t.panel.startFault = none ∧
      (s.panel.romDone = true → t.panel.stage = .homing ∧ t.exp.homing = some .turret) ∧
      (s.panel.romDone = false → t.panel.stage = .rom ∧ t.exp.homing = none) ∧
      t.takes = [] ∧ t.pass = none ∧ t.mem = s.mem ∧ t.hyph = s.hyph ∧ t.comp = idleCompositor ∧
      t.store = { records := [], marker := none } ∧ t.proof.segs = [] ∧ t.proof.inFlight = none ∧
      t.width.slots = s.width.slots.map (fun sl => match sl.state with
        | .valid _ _ => { sl with pins := 0 }
        | _ => { state := .empty, font := none, pins := 0 }) ∧ t.width.useList = s.width.useList ∧
      t.width.gen = s.width.gen ∧
      t.exp.seats = s.exp.seats ∧ t.exp.order = s.exp.order ∧ t.exp.cur = none ∧ t.exp.turret = none ∧
      t.lamp = { s.lamp with phase := .off } ∧
      t.film = { s.film with nextSeq := none, transport := .idle, waiting := [], driveOk := true, cutterOk := true } ∧
      t.line.windows = [] ∧ t.line.watches = [] ∧ t.line.waiting = [] ∧ t.line.broken = 0 ∧ t.line.bad = 0 ∧
      t.line.phase = .unsynced ∧ t.line.mute = decide (p.station.val = 15) ∧
      (s.pins.paper = true → t.line.queue = [] ∧ t.line.lost = 0)

/-- R200, R70, R121: the settings ROM is read in its step of start-up; a good check loads the lamp's constants and, where
every pattern record has its form, the pattern set, and a bad check gives an empty set and the defaults. Homing begins
(R202). At any other time the command is not due and changes nothing (Log 4).
R68 to R70 and R61 to R67: a pattern record has the form R68 requires; the candidates of a word group come in order, none
after its last box; an explicit one falls as R64 has it; the added ones come from the DISC marks, else, for an eligible
word, from a local exception, the dictionary or the patterns, and a group with an NBSPACE has none. -/
def Obligations.RomReadLoadsPatternsAndLamp : Prop :=
  (∀ (r : Option Rom) (s : State),
     (s.panel.stage ≠ .rom → exec (.romReadDone r) s = .next (settle s)) ∧
     (s.panel.stage = .rom → ∃ t, exec (.romReadDone r) s = .next (settle t) ∧
       t.panel.romDone = true ∧ t.panel.stage = .homing ∧ t.exp.phase = .homing ∧ t.exp.homing = some .turret ∧
       t.exp.turret = none ∧ t.exp.lens = none ∧ t.exp.carriage = none ∧ t.hyph.dict = s.hyph.dict ∧
       t.hyph.gen = s.hyph.gen ∧
       (∀ m, r = some m → (m.bytes.map BitVec.toNat).sum % 65536 = m.check → t.panel.romGood = true ∧
         t.lamp.kp = min 15 m.kp ∧ t.lamp.ki = min 15 m.ki ∧
         (∀ i, i < 12 → t.lamp.bases[i]? = some (max 20 (min 400 ((m.bases[i]?).getD 100)))) ∧
         (m.patternCount ≤ 4096 → m.patterns.length = m.patternCount → m.patterns.all patternOk = true →
           t.hyph.patterns = m.patterns ∧ t.hyph.valid = true) ∧
         (4096 < m.patternCount ∨ m.patterns.length ≠ m.patternCount ∨ m.patterns.all patternOk = false →
           t.hyph.patterns = [] ∧ t.hyph.valid = false)) ∧
       ((r = none ∨ ∃ m, r = some m ∧ (m.bytes.map BitVec.toNat).sum % 65536 ≠ m.check) → t.panel.romGood = false ∧
         t.hyph.patterns = [] ∧ t.hyph.valid = false ∧ t.lamp.bases = List.replicate 12 100 ∧ t.lamp.kp = 3 ∧
         t.lamp.ki = 1))) ∧
  ((∀ p : Pattern, patternOk p = true ↔ 1 ≤ p.letters.length ∧ p.letters.length ≤ 8 ∧
     p.values.length = p.letters.length + 1 ∧ (∀ v ∈ p.values, v ≤ 9) ∧ (∃ c ∈ p.letters, 0x61 ≤ c ∧ c ≤ 0x7A) ∧
     ∀ j c, p.letters[j]? = some c →
       (0x61 ≤ c ∧ c ≤ 0x7A) ∨ (c = 0x2E ∧ (j = 0 ∨ j + 1 = p.letters.length))) ∧
   (∀ (u : Hyphenation) (locals : List ExceptionEntry) (v : AttemptValues) (g : List BuildItem) (discs : List Nat),
     let cs := candidates u locals v g discs
     let marked (n : Nat) : Prop := n ∈ discs ∧ ∃ m a b, n = m + 1 ∧ g[m]? = some a ∧ otherBoxed a ∧ g[n]? = some b ∧
       b.kind ≠ .justifying
     (cs.map (fun c => c.1)).Pairwise (· < ·) ∧ (∀ c ∈ cs, c.1 + 1 < g.length) ∧
     (∀ i, (i, .explicit) ∈ cs ↔ ∃ a b, g[i]? = some a ∧ hyphenBoxed a ∧ g[i + 1]? = some b ∧ otherBoxed b ∧
       ∃ j e, j < i ∧ g[j]? = some e ∧ otherBoxed e ∧ ∀ n y, j < n → n < i → g[n]? = some y → y.kind ≠ .justifying) ∧
     ((∃ b ∈ g, b.kind = .justifying) → ∀ i, (i, .added) ∉ cs) ∧
     ((∀ b ∈ g, b.kind ≠ .justifying) → (∃ n, marked n) →
       ∀ i, (i, .added) ∈ cs ↔ marked (i + 1) ∧ v.count < v.limit) ∧
     (∀ before core after, g = before ++ core ++ after → (∀ b ∈ g, b.kind ≠ .justifying) → (∀ n, ¬ marked n) →
       (∀ b ∈ before ++ after, ¬ letterBoxed b) → (∀ b, core.head? = some b → letterBoxed b) →
       (∀ b, core.getLast? = some b → letterBoxed b) →
       let w := core.map (fun b => fold b.code)
       let eligible : Prop := v.hyph = true ∧ 5 ≤ core.length ∧ core.length ≤ 40 ∧ (∀ b ∈ core, letterBoxed b) ∧
         (v.caps = true ∨ ∃ b ∈ core, ¬ (0x41 ≤ b.code ∧ b.code ≤ 0x5A)) ∧ v.count < v.limit
       let breaksAt (ok : Nat → Prop) : Prop := ∀ i, (i, .added) ∈ cs ↔ ∃ p, i + 1 = before.length + p ∧ ok p
       let inside (e : ExceptionEntry) : Prop := ∀ p ∈ e.positions, 1 ≤ p ∧ p < core.length
       (¬ eligible → ∀ i, (i, .added) ∉ cs) ∧
       (∀ a e b, eligible → locals = a ++ e :: b → (∀ f ∈ a, f.word ≠ w) → e.word = w → inside e →
         breaksAt (fun p => p ∈ e.positions)) ∧
       (∀ a e b, eligible → (∀ f ∈ locals, f.word ≠ w) → u.dict = a ++ e :: b → (∀ f ∈ a, f.word ≠ w) → e.word = w →
         inside e → breaksAt (fun p => p ∈ e.positions)) ∧
       (eligible → (∀ f ∈ locals, f.word ≠ w) → (∀ f ∈ u.dict, f.word ≠ w) →
         breaksAt (fun p => 2 ≤ p ∧ p + 3 ≤ core.length ∧ ∃ k, k % 2 = 1 ∧ valueFalls u.patterns w p k ∧
           ∀ k', valueFalls u.patterns w p k' → k' ≤ k)))))

/-! ### Keys and STANDBY -/

/-- R203: RUN returns a station in HOLD to RUN, where a PAUSED Compositor reads on (R36), and clears a DOOR stop in STOPPED
with every door closed and, where its line was spoiled, the spoil cut done (R147); a halted line that has flashed, or
flashes, an item counts as spoiled before its exposure ends (Log 26). With any other stop, and in RUN, FAULT, HALT and
START, it is ignored.
R203: HOLD takes a station in RUN to HOLD; claim windows whose frame has not begun are cancelled (R174), and a
Compositor that has read nothing of its line pauses, while one inside a line reads on (R36, Log 25). Elsewhere but in
STANDBY it is ignored. -/
def Obligations.RunAndHoldKeysAct : Prop :=
  (∀ s : State,
     (s.stop.station = .hold → ∃ t, exec .runKey s = .next (settle t) ∧ t.stop = { s.stop with station := .run } ∧
       t.comp = { s.comp with phase := if s.comp.phase = .paused then .setting else s.comp.phase } ∧ t.film = s.film ∧
       t.exp = s.exp ∧ t.line = s.line) ∧
     (∀ r, s.stop.station = .stopped → s.stop.record = some r → r.kind = .door → s.pins.photoOpen = false →
       s.pins.takeupOpen = false → s.pins.cassetteOpen = false → s.stop.spoilCut = false →
       (∀ c, s.exp.cur = some c → c.halt = none ∨ (c.flashed = [] ∧ s.exp.flash = none)) →
       ∃ t, exec .runKey s = .next (settle t) ∧ t.stop = { s.stop with station := .run, record := none } ∧
         t.exp = s.exp ∧ t.line = s.line) ∧
     (∀ r, s.stop.station = .stopped → s.stop.record = some r →
       r.kind ≠ .door ∨ s.pins.photoOpen = true ∨ s.pins.takeupOpen = true ∨ s.pins.cassetteOpen = true ∨
         s.stop.spoilCut = true ∨
         (∃ c, s.exp.cur = some c ∧ c.halt.isSome = true ∧ (c.flashed ≠ [] ∨ s.exp.flash.isSome = true)) →
       exec .runKey s = .next (settle s)) ∧
     (s.stop.station = .run ∨ s.stop.station = .fault ∨ s.stop.station = .halt ∨ s.stop.station = .start →
       exec .runKey s = .next (settle s))) ∧
  (∀ s : State,
     (s.stop.station = .run → ∃ t, exec .holdKey s = .next (settle t) ∧ t.stop = { s.stop with station := .hold } ∧
       (∀ w ∈ t.line.windows, w.what.isClaim = true → t.line.windowBegun w = true) ∧ t.exp = s.exp ∧ t.film = s.film ∧
       t.takes = s.takes ∧ (s.comp.phase ≠ .setting → t.comp = s.comp) ∧
       (∀ x y, s.comp.phase = .setting → s.comp.ctx = some x → s.comp.snap = some y →
         t.comp = { s.comp with phase := if x.resume = y.resume then .paused else .setting })) ∧
     (s.stop.station ≠ .run → s.stop.station ≠ .standby → exec .holdKey s = .next (settle s)))

/-- R152, R145: CLEAR in FAULT with no take ACTIVE begins the homing that ends in RUN; in STOPPED with a FONT-CALL pending
it parks the ACTIVE take for that font, or joins the park in progress, whose reason it does not change (R154). With any
other stop pending, and anywhere else but in STANDBY, it is ignored; in FAULT with a take ACTIVE too, also where that take is
being killed (the model's choice, Log 55). -/
def Obligations.ClearKeyHomesOrParks : Prop :=
  ∀ s : State,
    (s.stop.station = .fault → s.stop.clearing = false → s.active? = none →
      ∃ t, exec .clearKey s = .next (settle t) ∧ t.stop = { s.stop with clearing := true } ∧ t.exp.phase = .homing ∧
        t.exp.homing = some .turret ∧ t.exp.turret = none ∧ t.exp.lens = none ∧ t.exp.carriage = none ∧
        t.takes = s.takes ∧ t.film = s.film) ∧
    (∀ r p f, s.stop.station = .stopped → s.stop.record = some r → r.kind = .fontCall → r.font = some f →
      s.pass = some p → p.killing = false → p.park = none → p.cutAsked = false →
      exec .clearKey s = .next (settle
        { s with pass := some { p with park := some { reason := .fontCall f, answered := false, context := none } } })) ∧
    (∀ r, s.stop.station = .stopped → s.stop.record = some r →
      r.kind ≠ .fontCall ∨ s.pass = none ∨ (∃ p, s.pass = some p ∧
        (p.killing = true ∨ p.park.isSome = true ∨ p.cutAsked = true)) →
      exec .clearKey s = .next (settle s)) ∧
    (s.stop.station = .run ∨ s.stop.station = .hold ∨ s.stop.station = .halt ∨ s.stop.station = .start ∨
        (s.stop.station = .fault ∧ (s.stop.clearing = true ∨ s.active?.isSome = true)) →
      exec .clearKey s = .next (settle s))

/-- R140: CUT asks for a blank cut where no galley is open, in RUN or HOLD, and for the galley's cut in HOLD; it is ignored
while an operator's cut is waiting or in progress. -/
def Obligations.CutKeyAsksForACut : Prop :=
  ∀ s : State,
    (s.cutPending = false → s.stop.station = .run → s.film.galley = none → exec .cutKey s = .next (settle
      { s with film := { s.film with waiting := s.film.waiting ++ [.cut { asker := .blank, spoiled := none }] } })) ∧
    (s.cutPending = false → s.stop.station = .run → s.film.galley.isSome = true → exec .cutKey s = .next (settle s)) ∧
    (s.cutPending = false → s.stop.station = .hold → s.exp.cur = none → exec .cutKey s = .next (settle
      { s with film := { s.film with waiting := s.film.waiting ++
        [.cut { asker := if s.film.galley.isSome then .operator else .blank, spoiled := none }] } })) ∧
    (s.stop.station = .hold → s.exp.cur.isSome = true → exec .cutKey s = .next (settle s)) ∧
    (s.cutPending = true ∨ s.stop.station = .stopped ∨ s.stop.station = .fault ∨ s.stop.station = .halt ∨
      s.stop.station = .start → s.stop.station ≠ .standby → exec .cutKey s = .next (settle s))

/-- R119: MOUNT in HOLD or STOPPED, with the Exposure Sequencer IDLE or in CHECKING, presents the next seat from the path, or,
with a FONT-CALL pending, the lowest empty seat, else the least recently exposed seat whose font the ACTIVE take does
not list, else the least recently exposed seat. A seat already at the path takes no move: the press completes at once, and a line in
CHECKING takes its font check again. An unknown position of the turret counts as 0 (the model's choice, Log 41). In any other case
the press moves nothing. -/
def Obligations.MountKeyPresentsASeat : Prop :=
  ∀ s : State,
    let taken : Prop := (s.stop.station = .hold ∨ s.stop.station = .stopped) ∧
      (s.exp.phase = .idle ∨ s.exp.phase = .checking) ∧ s.exp.homing = none
    let presents (i : Nat) : Prop :=
      (s.exp.turret ≠ some i → exec .mountKey s = .next (settle
        { s with exp := { s.exp with phase := .mounting, turretMove := some i } })) ∧
      (s.exp.turret = some i → exec .mountKey s = .next (settle
        { s with exp := { s.exp with
          phase := if s.exp.cur.isSome then .checking else .idle
          cur := s.exp.cur.map (fun c => { c with checked := false }) } }))
    let empty : Option Nat := s.exp.seats.findIdx? (fun f => f == 0)
    let unlisted (t : Take) : Option Nat := s.exp.order.find? (fun i => !t.fonts.contains ((s.exp.seats[i]?).getD 0))
    (∀ n, taken → s.stopIs .fontCall = false → s.exp.turret = some n → presents ((n + 1) % 8)) ∧
    (taken → s.stopIs .fontCall = false → s.exp.turret = none → presents 1) ∧
    (∀ i, taken → s.stopIs .fontCall = true → empty = some i → presents i) ∧
    (∀ t i, taken → s.stopIs .fontCall = true → empty = none → s.active? = some t → unlisted t = some i → presents i) ∧
    (∀ i l, taken → s.stopIs .fontCall = true → empty = none → (∀ t, s.active? = some t → unlisted t = none) →
      s.exp.order = i :: l → presents i) ∧
    (¬ taken → s.stop.station ≠ .standby → exec .mountKey s = .next (settle s))

/-- R204: any key wakes a station in STANDBY to RUN and asks for the lamp; RUN, CLEAR and MOUNT do no more, HOLD and CUT act
as in RUN.
R204: the standby timer expires in RUN with no take ACTIVE or QUEUED: the station goes to STANDBY and the lamp OFF; at
any other time its timer does not run, and the event is not due (Log 4). -/
def Obligations.StandbyWakesAndExpires : Prop :=
  (∀ s : State, s.stop.station = .standby →
     let lamp : Lamp := { s.lamp with phase := match s.lamp.phase with
       | .off => .warming
       | .warming => .warming
       | .ready => .ready }
     (∀ c : Instr, c = .runKey ∨ c = .clearKey ∨ c = .mountKey → ∃ t, exec c s = .next (settle t) ∧
       t.stop = { s.stop with station := .run } ∧ t.lamp = lamp ∧ t.film = s.film ∧ t.exp = s.exp) ∧
     (∃ t, exec .holdKey s = .next (settle t) ∧ t.stop = { s.stop with station := .hold } ∧ t.lamp = lamp ∧
       t.film = s.film ∧ t.exp = s.exp) ∧
     (s.cutPending = true ∨ s.film.galley.isSome = true → ∃ t, exec .cutKey s = .next (settle t) ∧
       t.stop = { s.stop with station := .run } ∧ t.lamp = lamp ∧ t.film = s.film ∧ t.exp = s.exp) ∧
     (s.cutPending = false → s.film.galley = none → ∃ t, exec .cutKey s = .next (settle t) ∧
       t.stop = { s.stop with station := .run } ∧ t.lamp = lamp ∧ t.exp = s.exp ∧
       t.film = { s.film with waiting := s.film.waiting ++ [.cut { asker := .blank, spoiled := none }] })) ∧
  (∀ s : State,
     (s.stop.station = .run → (∀ t ∈ s.takes, t.state ≠ .active ∧ t.state ≠ .queued) →
       exec .standbyTimer s = .next (settle
         { s with stop := { s.stop with station := .standby }, lamp := { s.lamp with phase := .off } })) ∧
     (s.stop.station ≠ .run ∨ (∃ t ∈ s.takes, t.state = .active ∨ t.state = .queued) →
       exec .standbyTimer s = .next (settle s)))

/-! ### The line's own events -/

/-- R164, R170: at a start point the frame at the head of the queue is begun; with the line not free or no frame queued,
nothing is (Log 4).
R164: a station that loses arbitration becomes a receiver; its frame, no longer begun, stays in the queue at its place in
the order of R170, before the others of its kind and behind those of lower kinds that entered while it was being sent (Log
65). With no frame being sent the event is not due (Log 4).
R161: the line is asserted while any station drives it so. Each byte goes out as an asserted start bit, its 8 data bits,
most significant first, a 0 asserted and a 1 released, and a released stop bit, at the rate of the strap code read at start-up.
R162: the bytes of the frame being sent go out back to back, ten bits for each of its 5 bytes and of its payload's. With no
frame being sent the station drives nothing, but that an abort drives the line asserted for 12 bit times and releases it (R165;
its end, a moment no command tells of, is counted with the gap after it: the model's choice, Log 66).
R163, R173, R175: the idle gap frees the line; each idle slot of a free line lowers every window in its counting phase
and every lapse watch by one. Neither is due on a line where it cannot come (Log 4). -/
def Obligations.StartPointsGapsAndSlotsMoveTheLine : Prop :=
  (∀ s : State,
     (∀ e q, s.line.phase = .free → s.line.queue = e :: q → exec .startPoint s = .next (settle
       { s with line := { s.line with phase := .sending, queue := { e with begun := true } :: q } })) ∧
     (s.line.phase ≠ .free ∨ s.line.queue = [] → exec .startPoint s = .next (settle s))) ∧
  (∀ s : State,
     (∀ f q, s.line.phase = .sending → s.line.queue = { frame := f, begun := true } :: q →
       ∃ a b, q = a ++ b ∧ (∀ e ∈ a, e.frame.kind < f.kind) ∧ (∀ e ∈ b.head?, f.kind ≤ e.frame.kind) ∧
         exec .arbitrationLost s = .next (settle
           { s with line := { s.line with phase := .receiving, queue := a ++ { frame := f, begun := false } :: b } })) ∧
     (s.line.phase ≠ .sending → exec .arbitrationLost s = .next (settle s))) ∧
  ((∀ l : List LineLevel, lineLevel l = .asserted ↔ .asserted ∈ l) ∧
   (∀ b : Nat, (byteLevels b).length = 10 ∧ (byteLevels b)[0]? = some .asserted ∧ (byteLevels b)[9]? = some .released ∧
     ∀ i, i < 8 → (byteLevels b)[i + 1]? = some (if b.testBit (7 - i) then .released else .asserted)) ∧
   ∀ s : State,
     lineRate s = 31250 * 2 ^ s.panel.straps.lineRate.val ∧
     (∀ f q, s.line.phase ≠ .aborting → s.line.queue = { frame := f, begun := true } :: q →
       s.lineOut = (frameBytes s f).flatMap byteLevels ∧ s.lineOut.length = 10 * (5 + f.payload.2.length)) ∧
     (s.line.phase ≠ .aborting → (∀ e ∈ s.line.queue, e.begun = false) → s.lineOut = []) ∧
     (s.line.phase = .aborting → s.lineOut = List.replicate 12 .asserted)) ∧
  (∀ s : State,
     (s.line.phase = .unsynced ∨ s.line.phase = .gapDue ∨ s.line.phase = .aborting → exec .idleGap s = .next (settle
       { s with line := { s.line with phase := .free } })) ∧
     (s.line.phase ≠ .unsynced → s.line.phase ≠ .gapDue → s.line.phase ≠ .aborting →
       exec .idleGap s = .next (settle s)) ∧
     (s.line.phase = .free → exec .idleSlot s = .next (settle
       { s with line := { s.line with
         windows := s.line.windows.map (fun w => { w with slots := w.slots - (if w.queued then 0 else 1) })
         watches := s.line.watches.map (fun w => { w with slots := w.slots - 1 }) } })) ∧
     (s.line.phase ≠ .free → exec .idleSlot s = .next (settle s)))

/-- R170: a frame joins the queue behind every frame of its kind or a lower one and before every frame of a higher kind; the
frame being sent stays at the front, whatever the kind of the one that enters.
R171: a freed place goes to the waiting frame of lowest kind, the first of that kind to have begun waiting; with no
place free, or no frame waiting, the event is not due (Log 4).
R165, R206: a NOTICE or REFUSED sent, or broken, leaves the queue and is not sent again; an abort is counted, and driven onto
the line (`StartPointsGapsAndSlotsMoveTheLine`, Log 66); with no frame being sent neither event is due (Log 4).
What a frame's producer does as it ends, sent or broken alike where nothing is said. R202, R129, R153: with the ANNOUNCE
gone the station goes from START to RUN, with the FILM-LOW notice due after power-on, or after a fault to HALT. R175, R25: the
watch of an OFFER not yet claimed, and that of an ask, start. R194, R196: a COPY-END sent is noted, and its TAKEN wait starts,
sent or broken (the model's reading, Log 15).
A WIDTH-TABLE ends its window (R174), a COPY changes nothing, and a TAKEN broken frees its record (R185). -/
def Obligations.QueuedFramesKeepTheirOrderAndLeave : Prop :=
  ((∀ (f : TxFrame) (q : List TxEntry), (∀ e ∈ q, e.begun = false) → (q.map (fun e => e.frame.kind)).Pairwise (· ≤ ·) →
     ((insertFrame f q).map (fun e => e.frame.kind)).Pairwise (· ≤ ·) ∧
     ∃ a b, q = a ++ b ∧ insertFrame f q = a ++ { frame := f, begun := false } :: b ∧
       (∀ e ∈ a, e.frame.kind ≤ f.kind) ∧ (∀ e ∈ b, f.kind < e.frame.kind)) ∧
   (∀ (f g : TxFrame) (q : List TxEntry), insertFrame f ({ frame := g, begun := true } :: q) =
     { frame := g, begun := true } :: insertFrame f q)) ∧
  (∀ s : State,
     (∀ a f b, s.line.queue.length < 8 → s.line.waiting = a ++ f :: b → (∀ g ∈ a, f.kind < g.kind) →
       (∀ g ∈ b, f.kind ≤ g.kind) → exec .roomGiven s = .next (settle
         { s with line := { s.line with queue := insertFrame f s.line.queue, waiting := a ++ b } })) ∧
     (s.line.waiting = [] ∨ 8 ≤ s.line.queue.length → exec .roomGiven s = .next (settle s))) ∧
  (∀ s : State,
     (∀ f q, s.line.phase = .sending → s.line.queue = { frame := f, begun := true } :: q → (∀ e ∈ q, e.begun = false) →
       ((∃ k b, f = .notice k b) ∨ ∃ k dest r, f = .refused k dest r) →
       exec .frameSent s = .next (settle { s with line := { s.line with phase := .gapDue, queue := q } }) ∧
       exec .frameAborted s = .next (settle
         { s with line := { s.line with phase := .aborting, queue := q, broken := satAdd 65535 s.line.broken 1 } })) ∧
     (s.line.phase ≠ .sending → exec .frameSent s = .next (settle s) ∧ exec .frameAborted s = .next (settle s))) ∧
  (∀ (s : State) (f : TxFrame) (q : List TxEntry), s.line.phase = .sending →
     s.line.queue = { frame := f, begun := true } :: q → (∀ e ∈ q, e.begun = false) →
     let out (c : Instr) : LineInterface :=
       { s.line with
         phase := if c = .frameAborted then .aborting else .gapDue, queue := q
         broken := if c = .frameAborted then satAdd 65535 s.line.broken 1 else s.line.broken }
     let ends (g : Instr → State) : Prop := ∀ c ∈ [Instr.frameSent, .frameAborted], exec c s = .next (settle (g c))
     let watched (sub : Subject) (l : LineInterface) : LineInterface :=
       { l with watches := l.watches.filter (fun w => w.subject ≠ sub) ++ [{ subject := sub, slots := 520 }] }
     let unchanged : Prop := ends (fun c => { s with line := out c })
     (∀ a, f = .announce a →
       (s.panel.stage ≠ .announce → unchanged) ∧
       (s.panel.stage = .announce → s.panel.startFault = none → s.stop.station = .start → s.line.mute = false →
         q.length + s.line.waiting.length < 8 →
         let due : Bool := s.panel.filmNoticeDue && (decide (s.film.remaining < 57000) || !s.film.known)
         ∀ c ∈ [Instr.frameSent, .frameAborted], ∃ t, exec c s = .next (settle t) ∧
           t.stop = { s.stop with station := .run } ∧ t.panel = { s.panel with stage := .done, filmNoticeDue := false } ∧
           t.film = { s.film with lowNotified := s.film.lowNotified || due } ∧ t.exp = s.exp ∧ t.lamp = s.lamp ∧
           t.line = (if due then
             { out c with queue := insertFrame (.notice none (.filmLow s.film.remaining s.film.known)) q } else out c) ∧
           t.takes.map (fun x => x.key) = s.takes.map (fun x => x.key)) ∧
       (∀ m, s.panel.stage = .announce → s.panel.startFault = some m → s.line.mute = false → s.line.windows = [] →
         q.length + s.line.waiting.length < 8 →
         ∀ c ∈ [Instr.frameSent, .frameAborted], ∃ t r, exec c s = .next (settle t) ∧
           t.stop = { s.stop with station := .halt, record := some r, clearing := false } ∧ r.kind = .mechanism ∧
           r.mech = some m ∧ r.key = none ∧ t.panel = { s.panel with stage := .done } ∧
           t.lamp = { s.lamp with phase := .off } ∧ noticed t none (.halt m false) ∧ t.film = s.film)) ∧
     (∀ font, f = .widthAsk font →
       (s.width.isAsking font = true → ends (fun c => { s with line := watched (.font font) (out c) })) ∧
       (s.width.isAsking font = false → unchanged)) ∧
     (∀ font rev ws, f = .widthTable font rev ws → ends (fun c =>
       { s with line := { out c with windows := s.line.windows.filter (fun w => !w.what.isAnswerFor font) } })) ∧
     (∀ m, f = .offer m →
       (∀ x, s.take? m.key = some x → x.state = .releasing → x.claimant = none →
         ends (fun c => { s with line := watched (.take m.key) (out c) })) ∧
       ((∀ x, s.take? m.key = some x → x.state ≠ .releasing ∨ x.claimant ≠ none) → unchanged)) ∧
     (∀ k d o data, f = .copy k d o data → unchanged) ∧
     (∀ k d n, f = .copyEnd k d n → ends (fun c =>
       { s with
         line := out c
         takes := s.takes.map (fun y => if y.key == k then
           { y with
             sentEnd := if c = .frameSent ∧ (y.state = .releasing ∨ y.state = .stranded) ∧ d ∉ y.sentEnd
               then y.sentEnd ++ [d] else y.sentEnd
             timer := if y.state = .releasing ∧ y.claimant = some d then some .takenWait else y.timer } else y) })) ∧
     (∀ k d, f = .taken k d →
       (∀ x, s.take? k = some x → x.state = .receiving → ∃ t, exec .frameAborted s = .next (settle t) ∧
         t.takes = s.takes.filter (fun y => y.key ≠ k) ∧ t.mem = s.mem ∧ t.line.broken = (out .frameAborted).broken) ∧
       ((∀ x, s.take? k = some x → x.state ≠ .receiving) → unchanged)))

/-- R183: the station's CLAIM sent wins the take: a record RECEIVING is made at the end of the claim list, with as many of the
lowest free blocks reserved as its copy needs, and the stall timer running (R185); a station in STANDBY wakes (R204), and a
take won in FAULT or HALT, its CLAIM begun before, bears the mark of its release at once (R150, R153; Log 17). The other open
claim windows are tested again, and those whose offer fails the test of R181 are withdrawn (R182). A CLAIM broken only ends its
window (R174). The take's fonts are claimed in the Width Cache (R23), and the take, like any held take, is widths-ready once
every font of its list has a VALID slot (R24).
R23, R21, R25, R174: the Width Cache takes the fonts of a claimed take in list order, once each. A font's VALID or ASKING
slot gains a pin; a held empty one gains a pin and asks again; a font with no slot takes the lowest free slot or, with none
free, that of the slot without pins nearest the least-recent end of the use list, whose table is evicted with its answer
window, and its table is asked for: by a WIDTH-ASK, which waits where the queue's places are taken or belong to frames that wait
already (R171; that last is the model's reading, Log 13), or, muted, by its limits alone.
R185, R179: the station's TAKEN sent takes the preamble from the copy and the take to QUEUED, aging where its class is
above 0 (R188), which wakes a station in STANDBY: RUN, the lamp warming, and STRANDED takes examined (R204, R195).
R1, R3, R4: the preamble is its count byte and the entries it declares; the first sixteen are examined, each kept or one
copy error, and one error more is counted for all after them; a preamble that runs past the end of copy ends there, its
entry cut short being an error (the entry of which no byte stands: Log 52). -/
def Obligations.ClaimAndTakenSentAct : Prop :=
  (∀ (s : State) (q : List TxEntry) (m : OfferMsg) (sender cost : Nat) (w : Window),
     s.line.phase = .sending → s.line.queue = { frame := .claim m.key cost, begun := true } :: q →
     (∀ e ∈ q, e.begun = false) → s.line.windows.find? (fun v => v.what.isClaimFor m.key) = some w →
     w.what = .claim sender m cost →
     (∃ t x, exec .frameSent s = .next (settle t) ∧
       t.takes.map (fun y => y.key) = s.takes.map (fun y => y.key) ++ [m.key] ∧ t.takes.getLast? = some x ∧
       x.state = .receiving ∧ x.cls = m.cls ∧ x.proofFirst = decide (m.mode = 1) ∧ x.fonts = m.fonts ∧
       x.copyLen = m.copyLen ∧ x.sender = sender ∧ x.film = m.film ∧ x.context = m.context ∧ x.received = 0 ∧ x.blocks = [] ∧
       x.reserved = s.freeBlocks.take ((m.copyLen + 255) / 256) ∧ x.timer = some .stall ∧
       x.release = (if s.stop.station = .fault then some .fault else if s.stop.station = .halt then some .halt else none) ∧
       t.width = (claimFonts s m.fonts).width ∧ x.widthsReady = m.fonts.all (fun f => t.width.isValid f) ∧
       (∀ (i : Nat) (y z : Take), s.takes[i]? = some y → t.takes[i]? = some z →
         y.state ≠ .stranded ∨ s.stop.station ≠ .standby →
         z = { y with widthsReady := y.widthsReady || y.fonts.all (fun f => t.width.isValid f) }) ∧
       t.line.windows.all (fun v => !v.what.isClaimFor m.key) = true ∧
       (∀ v ∈ t.line.windows, ∀ a n c, v.what = .claim a n c → mayBid t n) ∧
       t.stop = { s.stop with station := if s.stop.station = .standby then .run else s.stop.station }) ∧
     (∃ t, exec .frameAborted s = .next (settle t) ∧ t.takes = s.takes ∧
       t.line = { s.line with
         phase := .aborting, queue := q, broken := satAdd 65535 s.line.broken 1
         windows := s.line.windows.filter (fun v => !v.what.isClaimFor m.key) })) ∧
  ((∀ (s : State) (fonts : List Nat), ∃ order : List Nat,
     claimFonts s fonts = order.foldl claimFont s ∧ order.Sublist fonts ∧
     ∀ f, order.count f = if f ∈ fonts then 1 else 0) ∧
   ∀ (s : State) (font : Nat),
     let t := claimFont s font
     let pinned : WidthCache :=
       { s.width with
         slots := s.width.slots.map (fun sl => if sl.font == some font then { sl with pins := sl.pins + 1 } else sl) }
     let new : Slot := { state := .asking, font := some font, pins := 1 }
     let asked (l : LineInterface) : LineInterface :=
       if l.mute = true then
         { l with watches := l.watches.filter (fun w => w.subject ≠ .font font) ++ [{ subject := .font font, slots := 520 }] }
       else if l.queue.length + l.waiting.length < 8 then { l with queue := insertFrame (.widthAsk font) l.queue }
       else { l with waiting := l.waiting ++ [.widthAsk font] }
     (∀ i sl, s.width.slotOf font = some i → s.width.slots[i]? = some sl → sl.state ≠ .empty →
       t = { s with width := pinned }) ∧
     (∀ i sl, s.width.slotOf font = some i → s.width.slots[i]? = some sl → sl.state = .empty → t =
       { s with
         width := { pinned with slots := pinned.slots.set i { sl with state := .asking, pins := sl.pins + 1 } }
         line := asked s.line }) ∧
     (∀ i, s.width.slotOf font = none → s.width.freeSlot? = some i →
       t = { s with width := { s.width with slots := s.width.slots.set i new }, line := asked s.line }) ∧
     (∀ a i b sl old, s.width.slotOf font = none → s.width.freeSlot? = none → s.width.useList = a ++ i :: b →
       s.width.slots[i]? = some sl → sl.pins = 0 → sl.font = some old →
       (∀ j ∈ a, ∀ y, s.width.slots[j]? = some y → y.pins ≠ 0) →
       t.width = { s.width with slots := s.width.slots.set i new, useList := a ++ b } ∧
       t.line.windows =
         s.line.windows.filter (fun w => !(w.what.isAnswerFor old && !s.line.windowBegun w)) ∧
       (s.line.mute = false → { frame := .widthAsk font, begun := false } ∈ t.line.queue ∨ .widthAsk font ∈ t.line.waiting) ∧
       ((∀ w ∈ s.line.windows, w.what.isAnswerFor old = false) → t.line = asked s.line) ∧ t.takes = s.takes)) ∧
  (∀ (s : State) (q : List TxEntry) (x : Take) (dest : Nat),
     s.line.phase = .sending → s.line.queue = { frame := .taken x.key dest, begun := true } :: q →
     (∀ e ∈ q, e.begun = false) → s.take? x.key = some x → x.state = .receiving →
     let p := readPreamble (copyBytes s x)
     let queued (y : Take) : Take :=
       { y with
         preLen := p.length, preErrors := min 255 p.errors, exceptions := p.entries, state := .queued
         timer := if 0 < y.cls then some .aging else none, parkReason := none }
     (s.stop.station ≠ .standby → exec .frameSent s = .next (settle
       { s with
         line := { s.line with phase := .gapDue, queue := q }
         takes := s.takes.map (fun y => if y.key == x.key then queued y else y) })) ∧
     (s.stop.station = .standby → ∃ t, exec .frameSent s = .next (settle t) ∧ t.stop = { s.stop with station := .run } ∧
       t.lamp = { s.lamp with phase := if s.lamp.phase = .off then .warming else s.lamp.phase } ∧
       t.line = { s.line with phase := .gapDue, queue := q } ∧ t.takes.length = s.takes.length ∧
       ∀ (i : Nat) (y z : Take), s.takes[i]? = some y → t.takes[i]? = some z →
         let gone : Prop := strandReasonGone { s with stop := { s.stop with station := .run } } y
         (y.key = x.key → z = queued y) ∧
         (y.key ≠ x.key → (y.state = .stranded → gone → z = returned s y) ∧ (y.state ≠ .stranded ∨ ¬ gone → z = y)))) ∧
  (∀ es : List (List Nat × List Nat),
     (∀ text, let p := readPreamble (es.length :: es.flatMap entryBytes ++ text)
       p.length = 1 + (es.map (fun e => 2 + e.1.length + e.2.length)).sum ∧ p.entries = keptEntries (es.take 16) ∧
       p.errors + p.entries.length = (es.take 16).length + (if 16 < es.length then 1 else 0)) ∧
     (∀ n tail, es.length < n → cutShort tail → let p := readPreamble (n :: es.flatMap entryBytes ++ tail)
       p.length = (n :: es.flatMap entryBytes ++ tail).length ∧ p.entries = keptEntries (es.take 16) ∧
       p.errors + p.entries.length = (es.take 16).length + 1))

/-- R173, R31: a window whose count has reached 0 hands its frame to the queue: the CLAIM, or the WIDTH-TABLE as the font's
slot holds it then. With no such window nothing happens (Log 4). -/
def Obligations.ExpiredWindowHandsItsFrameOver : Prop :=
  ∀ (s : State) (sub : Subject),
    let due := s.line.windows.find? (fun w => w.what.subject == sub && !w.queued && w.slots == 0)
    let marked := s.line.windows.map (fun v => if v.what.subject == sub then { v with queued := true } else v)
    (∀ w sender m cost, due = some w → w.what = .claim sender m cost → s.line.queue.length + s.line.waiting.length < 8 →
      exec (.windowExpired sub) s = .next (settle
        { s with line := { s.line with windows := marked, queue := insertFrame (.claim m.key cost) s.line.queue } })) ∧
    (∀ w font rev ws, due = some w → w.what = .answer font → s.width.table? font = some (rev, ws) →
      s.line.queue.length + s.line.waiting.length < 8 →
      exec (.windowExpired sub) s = .next (settle
        { s with line := { s.line with windows := marked, queue := insertFrame (.widthTable font rev ws) s.line.queue } })) ∧
    (∀ w font, due = some w → w.what = .answer font → s.width.table? font = none →
      exec (.windowExpired sub) s = .next (settle
        { s with line := { s.line with windows := s.line.windows.filter (fun v => !(v.what.subject == sub)) } })) ∧
    (due = none → exec (.windowExpired sub) s = .next (settle s))

/-- R175, R194, R26: a lapse with no claimant strands the take, with a STRANDED notice unless it was offered after a strand turn; the lapse of an ask leaves the font's slot held empty and
puts the widths-scarce flag and a release mark on every take that names the font, but that a request to release the ACTIVE
take while it is being killed is void (R192). Without a watch it is not due (Log 4). -/
def Obligations.LapsesStrandOrReleaseTakes : Prop :=
  ∀ s : State,
    (∀ x : Take, s.watched (.take x.key) = true → s.take? x.key = some x → x.state = .releasing → x.claimant = none →
      ∃ t, exec (.lapse (.take x.key)) s = .next (settle t) ∧
        t.takes = s.takes.map (fun y => if y.key == x.key then
          { y with state := .stranded, timer := some .strandTurn, claimant := none, sending := none, offerDue := false }
          else y) ∧
        t.line.watches = s.line.watches.filter (fun w => w.subject ≠ .take x.key) ∧ t.width = s.width ∧
        (x.reoffer = false → hasRoom s → noticed t (some x.key) (.stranded x.scarce)) ∧
        (x.reoffer = true → t.line.queue = s.line.queue ∧ t.line.lost = s.line.lost)) ∧
    (∀ font, s.watched (.font font) = true → s.width.isAsking font = true →
      ∃ t, exec (.lapse (.font font)) s = .next (settle t) ∧
        t.width.slots = s.width.slots.map (fun sl => if sl.font == some font then { sl with state := .empty } else sl) ∧
        t.takes.length = s.takes.length ∧
        (∀ y ∈ t.takes, y.fonts.contains font = true → y.scarce = true ∧
          (y.state = .releasing ∨ y.state = .stranded ∨ y.release.isSome = true ∨
            (y.state = .active ∧ ∃ p, s.pass = some p ∧ p.killing = true))) ∧
        (∀ p, s.pass = some p → p.killing = true → ∀ y ∈ t.takes, y.state = .active →
          ∃ x ∈ s.takes, x.state = .active ∧ x.key = y.key ∧ x.release = y.release) ∧
        (∀ y ∈ t.takes, ∀ l, y.reask = some l → font ∉ l) ∧
        t.line.watches = s.line.watches.filter (fun w => w.subject ≠ .font font)) ∧
    (∀ sub, s.watched sub = false → exec (.lapse sub) s = .next (settle s))

/-! ### Takes offered, claimed, received and given up -/

/-- R181, R182, R172: a station in RUN or STANDBY that is not muted, holds no record for the key, fewer than 8 records, enough
free blocks, at most 12 distinct fonts with the offer's, film for the estimate and the trailer, VALID slots where the
offer is widths-scarce, and paper where it is proof-first, opens a claim window of 16 slots to a unit of cost and the
station's number; any other passes the OFFER over.
R182, R174: a claim window whose offer no longer meets the test of R181 is withdrawn, with its CLAIM where that waits to be
sent, unless the CLAIM's first bit has been sent; every other window and frame stays. It is one of the reactions that `settle`
runs. -/
def Obligations.OffersOpenClaimWindows : Prop :=
  (∀ (h : Header) (m : OfferMsg) (s : State), Received h (.offer h m) s →
     let bids : Prop := mayBid s m
     let cost := min 31
       (4 * ((distinct m.fonts).filter (fun f => !s.mounted f)).length +
        ((distinct m.fonts).filter (fun f => !s.width.isValid f)).length +
        min 8 (((s.takes.map (fun t => t.received)).sum + 4095) / 4096) +
        (if s.stop.station = .standby then 3 else 0) +
        (if s.film.remaining < 57000 ∨ s.film.known = false then 2 else 0))
     (bids → s.line.windows.length < 4 → (∀ w ∈ s.line.windows, w.what.isClaimFor m.key = false) →
       0 < cost * 16 + s.panel.straps.station.val → exec (.offer h m) s = .next (settle
         { s with line := { s.line with
           phase := .gapDue
           windows := s.line.windows ++
             [{ what := .claim h.sender m cost, slots := cost * 16 + s.panel.straps.station.val, queued := false }] } })) ∧
     (bids → s.line.windows.length < 4 → (∀ w ∈ s.line.windows, w.what.isClaimFor m.key = false) →
       cost * 16 + s.panel.straps.station.val = 0 → s.line.queue.length + s.line.waiting.length < 8 →
       exec (.offer h m) s = .next (settle
         { s with line := { s.line with
           phase := .gapDue, queue := insertFrame (.claim m.key cost) s.line.queue
           windows := s.line.windows ++ [{ what := .claim h.sender m cost, slots := 0, queued := true }] } })) ∧
     (¬ bids ∨ 4 ≤ s.line.windows.length ∨ (∃ w ∈ s.line.windows, w.what.isClaimFor m.key = true) →
       exec (.offer h m) s = .next (settle (heard s)))) ∧
  (retestWindows ∈ reactions ∧
   ∀ s : State,
     let withdrawn (w : Window) : Prop := s.line.windowBegun w = false ∧
       ∃ sender m cost, w.what = .claim sender m cost ∧ ¬ mayBid s m
     ((∀ w ∈ s.line.windows, ¬ withdrawn w) → retestWindows s = none) ∧
     ((∃ w ∈ s.line.windows, withdrawn w) → ∃ t, retestWindows s = some t ∧ t = { s with line := t.line } ∧
       t.line.windows.Sublist s.line.windows ∧ (∀ w, w ∈ t.line.windows ↔ w ∈ s.line.windows ∧ ¬ withdrawn w) ∧
       t.line.queue.Sublist s.line.queue ∧
       (∀ e, e ∈ t.line.queue ↔ e ∈ s.line.queue ∧
         (e.begun = true ∨ ∀ w ∈ s.line.windows, withdrawn w → w.queued = true → w.what.owns e.frame = false)) ∧
       (∀ f, f ∈ t.line.waiting ↔ f ∈ s.line.waiting ∧
         ∀ w ∈ s.line.windows, withdrawn w → w.queued = true → w.what.owns f = false) ∧
       t.line.watches = s.line.watches ∧ t.line.lost = s.line.lost))

/-- R184, R180: a COPY from the take's sender that goes on where the last ended is stored in the take's blocks, the next
reserved ones coming into use as they are needed; one that does not marks the take mismatched; either starts the stall
timer again. A COPY of no RECEIVING take of that sender is passed over.
R184: a COPY for a key of which no record is held is passed over. -/
def Obligations.CopyIsStoredInOrder : Prop :=
  (∀ (h : Header) (k : Key) (offset : Nat) (data : List Byte) (s : State) (x : Take),
     Received h (.copy h k offset data) s → h.addressee = s.number → s.take? k = some x → (∀ y ∈ s.takes, y.key = k → y = x) →
     (x.state = .receiving → x.copyComplete = false → x.sender = h.sender → x.mismatched = false → offset = x.received →
       offset + data.length ≤ x.copyLen →
       let need := (x.received + data.length + 255) / 256 - x.blocks.length
       let blocks := x.blocks ++ x.reserved.take need
       exec (.copy h k offset data) s = .next (settle
         { heard s with
           mem := storeCopy s.mem blocks offset data
           takes := s.takes.map (fun y => if y.key == k then
             { x with received := x.received + data.length, blocks := blocks, reserved := x.reserved.drop need
                      timer := some .stall } else y) })) ∧
     (x.state = .receiving → x.copyComplete = false → x.sender = h.sender → x.mismatched = false →
       offset ≠ x.received ∨ x.copyLen < offset + data.length → exec (.copy h k offset data) s = .next (settle
         { heard s with takes := s.takes.map (fun y => if y.key == k then
             { x with mismatched := true, timer := some .stall } else y) })) ∧
     (x.state = .receiving → x.copyComplete = false → x.sender = h.sender → x.mismatched = true →
       exec (.copy h k offset data) s = .next (settle
         { heard s with takes := s.takes.map (fun y => if y.key == k then { x with timer := some .stall } else y) })) ∧
     (x.state ≠ .receiving ∨ x.copyComplete = true ∨ x.sender ≠ h.sender →
       exec (.copy h k offset data) s = .next (settle (heard s)))) ∧
  (∀ (h : Header) (k : Key) (offset : Nat) (data : List Byte) (s : State), Received h (.copy h k offset data) s →
     (∀ y ∈ s.takes, y.key ≠ k) → exec (.copy h k offset data) s = .next (settle (heard s)))

/-- R185: a COPY-END whose total is the copy length and the bytes received has the TAKEN sent and ends the stall timer; any
other total, and an expired stall timer, free the record and send a REFUSED with reason 1 or 2. A stall timer that does not
run does not expire (Log 4).
R184, R185, R169, R171: a COPY-END of no RECEIVING take of its sender is passed over, and a stall timer of no RECEIVING
take is not due (Log 4). A muted station answers nothing and frees the record; with no place in the transmit queue the TAKEN or
the REFUSED waits for one, and so it does where the free places belong to frames that wait already (the model's reading,
Log 13). -/
def Obligations.CopyEndIsAnswered : Prop :=
  (∀ (h : Header) (k : Key) (total : Nat) (s : State) (x : Take),
     s.take? k = some x → x.state = .receiving → s.line.mute = false → s.line.queue.length + s.line.waiting.length < 8 →
     (Received h (.copyEnd h k total) s → h.addressee = s.number → x.copyComplete = false → x.sender = h.sender →
       (x.mismatched = false → total = x.copyLen → total = x.received →
         exec (.copyEnd h k total) s = .next (settle
           { s with
             line := { s.line with phase := .gapDue, queue := insertFrame (.taken k h.sender) s.line.queue }
             takes := s.takes.map (fun y => if y.key == k then { y with copyComplete := true, timer := none } else y) })) ∧
       (x.mismatched = true ∨ total ≠ x.copyLen ∨ total ≠ x.received →
         ∃ t, exec (.copyEnd h k total) s = .next (settle t) ∧ t.takes = s.takes.filter (fun y => y.key ≠ k) ∧
           { frame := .refused k x.sender 1, begun := false } ∈ t.line.queue ∧ t.mem = s.mem)) ∧
     (x.timer = some .stall → ∃ t, exec (.stallTimer k) s = .next (settle t) ∧
       t.takes = s.takes.filter (fun y => y.key ≠ k) ∧ { frame := .refused k x.sender 2, begun := false } ∈ t.line.queue ∧
       t.mem = s.mem) ∧
     (x.timer ≠ some .stall → exec (.stallTimer k) s = .next (settle s))) ∧
  (∀ (h : Header) (k : Key) (total : Nat) (s : State),
     (Received h (.copyEnd h k total) s →
       ((∀ x, s.take? k = some x → x.state ≠ .receiving ∨ x.copyComplete = true ∨ x.sender ≠ h.sender) →
         exec (.copyEnd h k total) s = .next (settle (heard s))) ∧
       (∀ x, h.addressee = s.number → s.take? k = some x → x.state = .receiving → x.copyComplete = false →
         x.sender = h.sender →
         (s.line.mute = true → ∃ t, exec (.copyEnd h k total) s = .next (settle t) ∧
           t.takes = s.takes.filter (fun y => y.key ≠ k) ∧ t.mem = s.mem ∧
           ∀ e ∈ t.line.queue, e ∈ s.line.queue) ∧
         (s.line.mute = false → 8 ≤ s.line.queue.length + s.line.waiting.length → x.mismatched = false → total = x.copyLen →
           total = x.received → exec (.copyEnd h k total) s = .next (settle
             { s with
               line := { s.line with phase := .gapDue, waiting := s.line.waiting ++ [.taken k h.sender] }
               takes := s.takes.map (fun y =>
                 if y.key == k then { y with copyComplete := true, timer := none } else y) })) ∧
         (s.line.mute = false → x.mismatched = true ∨ total ≠ x.copyLen ∨ total ≠ x.received →
           ∃ t, exec (.copyEnd h k total) s = .next (settle t) ∧ t.takes = s.takes.filter (fun y => y.key ≠ k) ∧
             ({ frame := .refused k x.sender 1, begun := false } ∈ t.line.queue ∨ .refused k x.sender 1 ∈ t.line.waiting)))) ∧
     (∀ x, s.take? k = some x → x.state = .receiving → x.timer = some .stall → s.line.mute = true →
       ∃ t, exec (.stallTimer k) s = .next (settle t) ∧ t.takes = s.takes.filter (fun y => y.key ≠ k) ∧ t.mem = s.mem ∧
         ∀ e ∈ t.line.queue, e ∈ s.line.queue) ∧
     ((∀ x, s.take? k = some x → x.state ≠ .receiving ∨ x.timer ≠ some .stall) →
       exec (.stallTimer k) s = .next (settle s)))

/-- R174, R194: a CLAIM heard cancels the station's own claim window for the key, where its frame has not begun, and makes
its sender the claimant of a RELEASING take whose OFFER is watched; the copy is then sent from its first byte.
R194, R196: a TAKEN from a station sent the take's COPY-END frees the record with a TAKE-RELEASED notice; a TAKEN of any
other station, or for any other take, is passed over. -/
def Obligations.ClaimAndTakenHeardAct : Prop :=
  (∀ (h : Header) (k : Key) (cost : Nat) (s : State), Received h (.claim h k cost) s →
     (∀ x, s.take? k = some x → x.state = .releasing → x.claimant = none → s.watched (.take k) = true →
       (∀ w ∈ s.line.windows, w.what.isClaimFor k = false) → exec (.claim h k cost) s = .next (settle
         { s with
           line := { s.line with phase := .gapDue, watches := s.line.watches.filter (fun w => w.subject ≠ .take k) }
           takes := s.takes.map (fun y => if y.key == k then
             { y with claimant := some h.sender, sending := some 0 } else y) })) ∧
     (s.take? k = none → ∃ t, exec (.claim h k cost) s = .next (settle t) ∧ t.takes = s.takes ∧
       (∀ w ∈ t.line.windows, w.what.isClaimFor k = true → t.line.windowBegun w = true))) ∧
  (∀ (h : Header) (k : Key) (s : State) (x : Take), Received h (.taken h k) s → h.addressee = s.number →
     s.take? k = some x →
     (x.state = .releasing ∨ x.state = .stranded → x.sentEnd.contains h.sender = true → s.line.mute = false →
       s.line.queue.length + s.line.waiting.length < 8 →
       ∃ t, exec (.taken h k) s = .next (settle t) ∧ t.takes = s.takes.filter (fun y => y.key ≠ k) ∧
         { frame := .notice (some k) (.takeReleased h.sender), begun := false } ∈ t.line.queue) ∧
     ((x.state ≠ .releasing ∧ x.state ≠ .stranded) ∨ x.sentEnd.contains h.sender = false →
       exec (.taken h k) s = .next (settle (heard s))))

/-- R194: a REFUSED from the claimant, and an expired TAKEN wait, fail the release: the first time the take is offered again,
the second time it is STRANDED, with a STRANDED notice unless the offer followed a strand turn (R195).
R193, R194: one take is released at a time: a STRANDED take waiting to be offered again first, else the first marked take
QUEUED, PARKED, or in PROOF-HOLD under halt, by the selection keys; it goes to RELEASING and its OFFER is handed over, its
watch starting at once on a muted station. The copy of a claimed take goes out 235 bytes at a time, preamble first and then
the text from the resume offset (beyond the text: Log 51), and a COPY-END after the last COPY has left (Log 14). -/
def Obligations.FailedReleasesAreOfferedAgainOrStranded : Prop :=
  (∀ (h : Header) (k : Key) (reason : Nat) (s : State) (x : Take),
     s.take? k = some x → x.state = .releasing → s.line.mute = false → s.line.queue.length + s.line.waiting.length < 8 →
     ∀ c : Instr, ((c = .refused h k reason ∧ Received h c s ∧ h.addressee = s.number ∧ x.claimant = some h.sender) ∨
         (c = .takenWait k ∧ x.timer = some .takenWait)) →
       (x.tries ≤ 1 → ∃ t y, exec c s = .next (settle t) ∧ t.take? k = some y ∧ y.state = .releasing ∧ y.tries = 2 ∧
         y.claimant = none ∧ y.timer = none ∧ y.context = x.context ∧ y.sentEnd = x.sentEnd ∧
         { frame := .offer y.offer, begun := false } ∈ t.line.queue ∧
         t.takes.map (fun z => z.key) = s.takes.map (fun z => z.key)) ∧
       (2 ≤ x.tries → ∃ t y, exec c s = .next (settle t) ∧ t.take? k = some y ∧ y.state = .stranded ∧
         y.timer = some .strandTurn ∧ y.claimant = none ∧ y.context = x.context ∧
         (x.reoffer = false →
           { frame := .notice (some k) (.stranded x.scarce), begun := false } ∈ t.line.queue) ∧
         t.takes.map (fun z => z.key) = s.takes.map (fun z => z.key))) ∧
  (beginRelease ∈ reactions ∧ feedCopy ∈ reactions ∧
   ∀ s : State,
     let due (x : Take) : Prop := x.state = .stranded ∧ x.offerDue = true
     let marked (x : Take) : Prop := x.release.isSome = true ∧
       (x.state = .queued ∨ x.state = .parked ∨ (x.state = .proofHold ∧ x.release = some .halt))
     let begins (x : Take) (tries : Nat) (again : Bool) : Prop := ∃ t y, beginRelease s = some t ∧ t.take? x.key = some y ∧
       y = { x with state := .releasing, tries := tries, claimant := none, timer := none, parkReason := none, sending := none
                    offerDue := false, reoffer := again, reask := none, sentEnd := if again then x.sentEnd else [] } ∧
       t.takes = s.takes.map (fun z => if z.key == x.key then y else z) ∧
       (hasRoom s → t.line = { s.line with queue := insertFrame (.offer (releaseOffer x)) s.line.queue }) ∧
       (s.line.mute = true → t.line = { s.line with
         watches := s.line.watches.filter (fun w => w.subject ≠ .take x.key) ++ [{ subject := .take x.key, slots := 520 }] })
     ((∃ x ∈ s.takes, x.state = .releasing) ∨ (∀ x ∈ s.takes, ¬ due x ∧ ¬ marked x) → beginRelease s = none) ∧
     (∀ x, (∀ y ∈ s.takes, y.state ≠ .releasing ∧ (y.key = x.key → y = x)) →
       (firstByKeys s due x → begins x 2 true) ∧
       ((∀ y ∈ s.takes, ¬ due y) → firstByKeys s marked x → begins x 1 false)) ∧
     (∀ x dest n, s.releasing? = some x → x.claimant = some dest → x.sending = some n → hasRoom s →
       (∀ f ∈ s.line.waiting, f.isCopyOf x.key = false) →
       let total := x.copyLen - sentFrom x
       let len := min 235 (total - n)
       (n < total → feedCopy s = some
         { s with
           takes := s.takes.map (fun y => if y.key == x.key then { y with sending := some (n + len) } else y)
           line := { s.line with queue := insertFrame (.copy x.key dest n ((List.range len).map (fun i =>
             copyByte s.mem x.blocks (if n + i < x.preLen then n + i else n + i + sentFrom x)))) s.line.queue } }) ∧
       (total ≤ n → (∀ e ∈ s.line.queue, e.frame.isCopyOf x.key = false) → feedCopy s = some
         { s with
           takes := s.takes.map (fun y => if y.key == x.key then { y with sending := none } else y)
           line := { s.line with queue := insertFrame (.copyEnd x.key dest total) s.line.queue } })))

/-- R195: a strand turn takes a STRANDED take whose reason is gone back to QUEUED, and has any other offered again: the
station is in RUN, and for widths every listed font is VALID, for a fault or a repeated stop no stop is pending, for
film-out no FILM-OUT stop is; a reason of halt is never gone. For a take whose widths are scarce each held empty slot of
its fonts becomes ASKING first and its WIDTH-ASK is handed over, or its limits run at once on a muted station (R25, R27),
and the same is decided once every ask so made or joined has ended. Only a running strand turn expires (Log 4).
R188: an aging timer lowers its QUEUED take's class by one and starts again while the class is above 0. -/
def Obligations.StrandTurnsAndAgingAct : Prop :=
  ((∀ (k : Key) (s : State), s.take? k = none → exec (.strandTurn k) s = .next (settle s)) ∧
   (∀ (k : Key) (s : State) (x : Take), s.take? k = some x →
     (x.state = .stranded → x.timer = some .strandTurn → x.scarce = false →
       (strandReasonGone s x → exec (.strandTurn k) s = .next (settle
         { s with takes := s.takes.map (fun z => if z.key == k then returned s z else z) })) ∧
       (¬ strandReasonGone s x → exec (.strandTurn k) s = .next (settle
         { s with takes := s.takes.map (fun z => if z.key == k then { z with timer := none, offerDue := true, reask := none }
           else z) }))) ∧
     (x.state = .stranded → x.timer = some .strandTurn → x.scarce = true →
       (s.width.slots.filterMap (fun sl => sl.font)).Nodup →
       ∃ t, exec (.strandTurn k) s = .next (settle t) ∧
         t.width = { s.width with slots := s.width.slots.map (fun sl =>
           if sl.state = .empty ∧ ∃ f ∈ x.fonts, sl.font = some f then { sl with state := .asking } else sl) } ∧
         t.takes = s.takes.map (fun z => if z.key == k then
           { z with timer := none, reask := some ((distinct x.fonts).filter (fun f => t.width.isAsking f)) } else z) ∧
         t.stop = s.stop ∧
         ∀ f ∈ x.fonts, s.width.isHeldEmpty f = true →
           (s.line.mute = false → { frame := .widthAsk f, begun := false } ∈ t.line.queue ∨
             (8 < t.line.queue.length + t.line.waiting.length ∧ .widthAsk f ∈ t.line.waiting)) ∧
           (s.line.mute = true → { subject := .font f, slots := 520 } ∈ t.line.watches)) ∧
     (x.state ≠ .stranded ∨ x.timer ≠ some .strandTurn → exec (.strandTurn k) s = .next (settle s))) ∧
   (reaskReport ∈ reactions ∧ ∀ (s : State) (a b : List Take) (x : Take), s.takes = a ++ x :: b →
     x.state = .stranded → x.reask = some [] → (∀ y ∈ a, y.state = .stranded → y.reask ≠ some []) →
     (strandReasonGone s x → reaskReport s = some
       { s with takes := s.takes.map (fun z => if z.key == x.key then
           returned s z else z) }) ∧
     (¬ strandReasonGone s x → reaskReport s = some
       { s with takes := s.takes.map (fun z => if z.key == x.key then { z with offerDue := true, reask := none } else z) }))) ∧
  (∀ (k : Key) (s : State),
     exec (.agingTimer k) s = .next (settle
       { s with takes := s.takes.map (fun x =>
         if x.key = k ∧ x.state = .queued ∧ x.timer = some .aging then
           { x with cls := x.cls - 1, timer := if 1 < x.cls then some .aging else none }
         else x) }))

/-- R186, R187: with no take ACTIVE and the station in RUN, the first candidate by lowest class, then fonts mounted, then claim
order becomes ACTIVE, and its pass is a PROOF pass where it is PROOF-FIRST and not approved; at any other time, and with no
candidate, no take is selected. R187: the pass starts with the values of R96 noted in a PROOF pass, the header marker of R92,
the next galley sequence of R133 in a FILM pass, the proof state of R86, and a TAKE-START notice; the Compositor sets its first
line from the context of R16, or from the take's record brought into range (R18), and at the end of the text has ended
already (Log 23). The counters a record's corrections raise stop at 65,535 (the model's choice, Log 18), and TAKE-START carries
the record's line number as it came, before it is brought into range (the model's choice, Log 24). What the Proof Port still
sends of an earlier pass clears nothing of the new one (R89, R92). Selection is one of the reactions that `settle` runs.
R18: a context record is brought into range field by field; each field changed without a copy error counts one clamped
argument, the spaceband's three values together (Log 24), and a size as its command counts it (R10).
R189: the end cut is asked for once the Compositor has reported the end of a FILM pass, no record is still to be exposed
and no line is in exposure; with the cut done and the store empty the take is complete: a TAKE-DONE notice, and its record
freed, in HALT too (the model's reading, Log 33). A take being parked or killed does not complete so. -/
def Obligations.SelectionTakesTheFirstByItsKeys : Prop :=
  (∀ s : State,
     let may (x : Take) : Prop := x.state = .queued ∧ x.widthsReady = true ∧ x.release = none ∧
       (s.paperOut = true → x.proofFirst = true → x.approved = true)
     let mounted (x : Take) : Prop := (x.proofFirst = true ∧ x.approved = false) ∨ ∀ f ∈ x.fonts, f ∈ s.exp.seats
     selectTake ∈ reactions ∧
     (s.stop.station ≠ .run ∨ s.active?.isSome = true ∨ (∀ x ∈ s.takes, ¬ may x) → selectTake s = none) ∧
     (∀ a x b, s.stop.station = .run → s.active? = none → s.takes = a ++ x :: b → may x →
       (∀ y ∈ a, may y → x.cls < y.cls ∨ (x.cls = y.cls ∧ mounted x ∧ ¬ mounted y)) →
       (∀ y ∈ b, may y → x.cls < y.cls ∨ (x.cls = y.cls ∧ (mounted y → mounted x))) →
       ∃ t, selectTake s = some t ∧ t.takes.map (fun z => z.key) = s.takes.map (fun z => z.key) ∧
         t.pass.map (fun p => p.kind) = some (if x.proofFirst = true ∧ x.approved = false then .proof else .film) ∧
         (∀ z ∈ t.takes, z.key = x.key → z.state = .active ∧ z.timer = none) ∧
         (∀ z ∈ s.takes, z.key ≠ x.key → z ∈ t.takes) ∧ t.mem = s.mem ∧ t.exp = s.exp ∧ t.proof = { s.proof with attached := false } ∧
         let proof : Bool := x.proofFirst && !x.approved
         let header : HeaderKind :=
           if proof then (if x.reproof then .reproof else .proof) else if x.context.isSome then .resumed else .film
         let textLen : Nat := x.copyLen - x.preLen
         let begins : Context := x.context.elim
           { resume := 0, font := x.fonts.headD 0, size := 12, measure := 132, indent := 0, leading := 13, mode := 0
             sbMin := 10, sbOpt := 14, sbMax := 28, letterspace := 2, hyph := true, caps := false, ladderLimit := 3
             ladderCount := 0, nextLine := 1, galleySeq := 1 } (fun c => (rangeContext x.fonts textLen c).1)
         t.pass = some
           { kind := if proof then .proof else .film, reported := decide (textLen ≤ begins.resume), cutAsked := false
             cutDone := false, killing := false, emptied := false, park := none } ∧
         t.store = { s.store with marker := some header } ∧
         t.film = { s.film with
           nextSeq := if proof then s.film.nextSeq else some (x.context.elim 1 (fun c => max 1 c.galleySeq)) } ∧
         (∀ z ∈ t.takes, z.key = x.key →
           z.startValues = (if proof then
             some { dict := s.hyph.gen, revisions := x.fonts.map (fun f => s.width.revision f), mixed := false }
             else x.startValues) ∧
           z.proofState = (if x.context.isSome then x.proofState else .complete) ∧ z.context = x.context ∧
           (x.context = none → z.counters.copyErrors = x.preErrors ∧ z.counters.clamped = 0 ∧ z.counters.substituted = 0) ∧
           (∀ c, x.context = some c →
             let n := (rangeContext x.fonts textLen c).2
             z.counters = { x.counters with
               copyErrors := min 65535 (x.counters.copyErrors + n.copyErrors)
               clamped := min 65535 (x.counters.clamped + n.clamped)
               substituted := min 65535 (x.counters.substituted + n.substituted) })) ∧
         t.comp.line = [] ∧ t.comp.group = [] ∧ t.comp.held = none ∧
         (begins.resume < textLen →
           t.comp.phase = .setting ∧ t.comp.ctx = some begins ∧ t.comp.snap = some begins ∧ t.comp.groupStart = begins.resume) ∧
         (textLen ≤ begins.resume → t.comp.phase = .idle ∧ t.comp.ctx = some { begins with resume := textLen }) ∧
         (hasRoom s → noticed t (some x.key) (.takeStart header x.cls (x.context.elim 1 (fun c => c.nextLine)))))) ∧
  (∀ (fonts : List Nat) (len h : Nat) (c : Context),
     let m := max 10 (min 48 c.size)
     h ∈ [10, 11, 12, 13, 14, 16, 18, 20, 24, 28, 36, 48] → h ≤ m →
     (∀ g ∈ [10, 11, 12, 13, 14, 16, 18, 20, 24, 28, 36, 48], g ≤ m → g ≤ h) →
     let measure := max 36 (min 540 c.measure)
     let sbMin := max 4 (min 48 c.sbMin)
     let sbOpt := min 64 (max sbMin c.sbOpt)
     let x : Context :=
       { resume := min len c.resume, font := if c.font ∈ fonts then c.font else fonts.headD 0, size := h, measure := measure
         indent := min (measure - 36) c.indent, leading := min 192 c.leading, mode := if 3 < c.mode then 0 else c.mode
         sbMin := sbMin, sbOpt := sbOpt, sbMax := min 96 (max sbOpt c.sbMax), letterspace := min 6 c.letterspace
         hyph := c.hyph, caps := c.caps, ladderLimit := max 1 (min 7 c.ladderLimit)
         ladderCount := min (max 1 (min 7 c.ladderLimit)) c.ladderCount, nextLine := max 1 (min 49152 c.nextLine)
         galleySeq := max 1 c.galleySeq }
     let changed (p : Prop) [Decidable p] : Nat := if p then 1 else 0
     rangeContext fonts len c =
       (x,
        { copyErrors := changed (c.font ∉ fonts) + changed (3 < c.mode)
          clamped := changed (m ≠ c.size) + changed (x.leading ≠ c.leading) + changed (x.measure ≠ c.measure) +
            changed (x.indent ≠ c.indent) + changed (x.sbMin ≠ c.sbMin ∨ x.sbOpt ≠ c.sbOpt ∨ x.sbMax ≠ c.sbMax) +
            changed (x.letterspace ≠ c.letterspace) + changed (x.ladderLimit ≠ c.ladderLimit) +
            changed (x.ladderCount ≠ c.ladderCount) + changed (x.nextLine ≠ c.nextLine) +
            changed (x.galleySeq ≠ c.galleySeq) + changed (x.resume ≠ c.resume)
          substituted := changed (h ≠ m) })) ∧
  (askEndCut ∈ reactions ∧ completeTake ∈ reactions ∧
   ∀ (s : State) (p : Pass), s.pass = some p →
     let ends : Prop := p.kind = .film ∧ p.reported = true ∧ p.killing = false ∧ p.park = none
     let exposed : Prop := (∀ r ∈ s.store.records, r.filmPending = false) ∧ s.exp.cur = none
     (ends → p.cutAsked = false → exposed →
       (s.film.galley = none → askEndCut s = some { s with pass := some { p with cutAsked := true, cutDone := true } }) ∧
       (s.film.galley.isSome = true → askEndCut s = some
         { s with pass := some { p with cutAsked := true }
                  film := { s.film with waiting := s.film.waiting ++ [.cut { asker := .endCut, spoiled := none }] } })) ∧
     (¬ ends ∨ p.cutAsked = true ∨ ¬ exposed → askEndCut s = none) ∧
     (∀ x, s.active? = some x → ends → p.cutAsked = true → p.cutDone = true → s.store.records = [] → hasRoom s →
       (∀ r, s.stop.record = some r → r.key ≠ some x.key) →
       ∃ t, completeTake s = some t ∧ t.takes = s.takes.filter (fun y => y.key ≠ x.key) ∧ t.pass = none ∧
         t.comp = idleCompositor ∧ t.film = { s.film with nextSeq := none } ∧ t.stop = s.stop ∧ t.exp = s.exp ∧
         noticed t (some x.key) (.takeDone
           { counters := x.counters, proofState := x.proofState, widthsChanged := x.widthsChanged, widthGen := s.width.gen
             broken := s.line.broken, bad := s.line.bad, lost := s.line.lost })) ∧
     (¬ ends ∨ p.cutDone = false ∨ s.store.records ≠ [] → completeTake s = none))

/-- R191, R192, R174: a KILL frees a held take that is not ACTIVE, with a TAKE-KILLED notice; it ends the ACTIVE take's
composition at once, with the park in progress, clears a restartable stop that names the take without a notice (R148), and
cancels a claim window for its key; a second KILL changes nothing.
R192, R85, R86, R98: once the line in exposure has ended, the store of a take being killed is emptied, which makes a FILM
pass's proof state partial where a line was exposed and not proofed, and a PROOF pass's none; a cut flagged killed is asked
for unless the pass's cut is asked for already; with the cut done a TAKE-KILLED notice is produced and the record freed. -/
def Obligations.KillEndsATake : Prop :=
  (∀ (h : Header) (k : Key) (s : State), Received h (.kill h k) s →
     (∀ x, s.take? k = some x → x.state ≠ .active → s.line.mute = false → s.line.queue.length + s.line.waiting.length < 8 →
       ∃ t block, exec (.kill h k) s = .next (settle t) ∧ t.takes = s.takes.filter (fun y => y.key ≠ k) ∧
         { frame := .notice (some k) (.takeKilled x.state block), begun := false } ∈ t.line.queue ∧
         block.counters = x.counters ∧ block.proofState = x.proofState) ∧
     (∀ x p, s.take? k = some x → x.state = .active → s.pass = some p → p.killing = false → s.stop.record = none →
       (∀ w ∈ s.line.windows, w.what.isClaimFor k = false) → exec (.kill h k) s = .next (settle
         { heard s with
           pass := some { p with killing := true, park := none }, comp := idleCompositor
           proof := { s.proof with paperTimer := false } })) ∧
     (∀ x p r, s.take? k = some x → x.state = .active → s.pass = some p → p.killing = false → s.stop.station = .stopped →
       s.stop.record = some r → r.key = some k → (∀ w ∈ s.line.windows, w.what.isClaimFor k = false) →
       ∃ t, exec (.kill h k) s = .next (settle t) ∧
         t.stop = { s.stop with station := if r.toHold = true ∧ r.kind ≠ .door then .hold else .run, record := none } ∧
         t.pass = some { p with killing := true, park := none } ∧ t.comp = idleCompositor ∧ t.line = (heard s).line ∧
         t.exp = s.exp ∧ t.film = s.film ∧ t.store = s.store ∧ t.proof = { s.proof with paperTimer := false }) ∧
     (∀ x p, s.take? k = some x → x.state = .active → s.pass = some p → p.killing = true →
       (∀ w ∈ s.line.windows, w.what.isClaimFor k = false) → exec (.kill h k) s = .next (settle (heard s))) ∧
     (s.take? k = none → ∃ t, exec (.kill h k) s = .next (settle t) ∧ t.takes = s.takes ∧
       (∀ w ∈ t.line.windows, w.what.isClaimFor k = true → t.line.windowBegun w = true))) ∧
  (killEmpties ∈ reactions ∧ killFinish ∈ reactions ∧
   ∀ (s : State) (p : Pass), s.pass = some p →
     let unproofed (r : LineRecord) : Prop := r.filmPending = false ∧ r.proofPending = true
     (p.killing = true → p.emptied = false → s.exp.cur = none →
       (p.kind = .film → ∃ t, killEmpties s = some t ∧ t.store = { records := [], marker := none } ∧
         t.pass = some { p with emptied := true, cutAsked := true
                                cutDone := p.cutDone || (!p.cutAsked && s.film.galley.isNone) } ∧
         t.film = (if p.cutAsked = true ∨ s.film.galley = none then s.film
           else { s.film with waiting := s.film.waiting ++ [.cut { asker := .kill, spoiled := none }] }) ∧
         ((∀ r ∈ s.store.records, ¬ unproofed r) → t.takes = s.takes) ∧
         (∀ r ∈ s.store.records, unproofed r → (∀ q ∈ s.store.records, unproofed q → r.number ≤ q.number) →
           t.takes = s.takes.map (fun y => if y.state == .active then
             { y with proofState := match y.proofState with
                 | .complete => .partialFrom r.number
                 | .partialFrom n => .partialFrom (min n r.number)
                 | .none => .none } else y))) ∧
       (p.kind = .proof → ∃ t, killEmpties s = some t ∧ t.store = { records := [], marker := none } ∧
         t.pass = some { p with emptied := true, cutDone := true } ∧ t.film = s.film ∧ t.proof.paperTimer = false ∧
         t.takes = s.takes.map (fun y =>
           if y.state == .active then { y with proofState := .none, startValues := none } else y))) ∧
     (p.killing = false ∨ p.emptied = true ∨ s.exp.cur.isSome = true → killEmpties s = none) ∧
     (∀ x, s.active? = some x → p.killing = true → p.emptied = true → p.cutDone = true → hasRoom s →
       (∀ r, s.stop.record = some r → r.key ≠ some x.key) →
       ∃ t, killFinish s = some t ∧ t.takes = s.takes.filter (fun y => y.key ≠ x.key) ∧ t.pass = none ∧
         t.film = { s.film with nextSeq := none } ∧ t.stop = s.stop ∧
         noticed t (some x.key) (.takeKilled .active
           { counters := x.counters, proofState := x.proofState, widthsChanged := x.widthsChanged, widthGen := s.width.gen
             broken := s.line.broken, bad := s.line.bad, lost := s.line.lost })) ∧
     (p.killing = false ∨ p.emptied = false ∨ p.cutDone = false → killFinish s = none))

/-- R190, R97: an APPROVE for a take in PROOF-HOLD approves it where its proof generation record is what stands now, and sets
its reproof flag with a REPROOF notice, in HALT too (the model's reading, Log 33), otherwise, the take going to QUEUED either way, which wakes a station in STANDBY
(R204); one that comes before the proof is done is held pending; one for a take that is not PROOF-FIRST, is approved, in a
FILM pass, RELEASING or STRANDED is passed over.
R95 to R97: a PROOF pass ends when its end is reported and the store is empty: its record is made from the values as they
stand, mixed where they differ from the start values, and the take goes to PROOF-HOLD, or, with approval pending, to QUEUED,
approved where the record is not mixed and for another proof with a REPROOF notice, in HALT too (the model's reading, Log 33),
where it is. -/
def Obligations.ApproveChecksTheGeneration : Prop :=
  (∀ (h : Header) (k : Key) (s : State) (x : Take), Received h (.approve h k) s → s.take? k = some x →
     let queued (b : Bool) (y : Take) : Take :=
       { y with approved := y.approved || b, reproof := y.reproof || !b, state := .queued
                timer := if 0 < y.cls then some .aging else none, parkReason := none }
     (x.proofFirst = true → x.state = .proofHold → x.proofGen = some (genValues s x) → s.stop.station ≠ .standby →
       exec (.approve h k) s = .next (settle
         { heard s with takes := s.takes.map (fun y => if y.key == k then queued true y else y) })) ∧
     (x.proofFirst = true → x.state = .proofHold → x.proofGen ≠ some (genValues s x) → s.stop.station ≠ .standby →
       ∃ t, exec (.approve h k) s = .next (settle t) ∧
         t.takes = s.takes.map (fun y => if y.key == k then queued false y else y) ∧
         (hasRoom s → noticed t (some k) .reproof)) ∧
     (x.proofFirst = true → x.state = .proofHold → s.stop.station = .standby →
       ∃ t, exec (.approve h k) s = .next (settle t) ∧ t.stop = { s.stop with station := .run } ∧
         (s.lamp.phase = .off → t.lamp.phase = .warming) ∧
         (∀ y ∈ t.takes, y.key = k → y.state = .queued ∧
           (x.proofGen = some (genValues s x) → y.approved = true) ∧
           (x.proofGen ≠ some (genValues s x) → y.reproof = true)) ∧
         (x.proofGen ≠ some (genValues s x) → hasRoom s → noticed t (some k) .reproof)) ∧
     (x.proofFirst = true → x.state = .receiving ∨ ((x.state = .queued ∨ x.state = .parked) ∧ x.approved = false) →
       exec (.approve h k) s = .next (settle
         { heard s with takes := s.takes.map (fun y => if y.key == k then { y with approvalPending := true } else y) })) ∧
     (∀ p, x.proofFirst = true → x.state = .active → s.pass = some p → p.kind = .proof → p.killing = false →
       exec (.approve h k) s = .next (settle
         { heard s with takes := s.takes.map (fun y => if y.key == k then { y with approvalPending := true } else y) })) ∧
     (x.proofFirst = false ∨ x.state = .releasing ∨ x.state = .stranded ∨
         ((x.state = .queued ∨ x.state = .parked) ∧ x.approved = true) ∨
         (x.state = .active ∧ ∀ p, s.pass = some p → p.kind = .film ∨ p.killing = true) →
       exec (.approve h k) s = .next (settle (heard s)))) ∧
  (endProofPass ∈ reactions ∧
   ∀ (s : State) (p : Pass) (x : Take), s.pass = some p → s.active? = some x →
     let ends : Prop := p.kind = .proof ∧ p.reported = true ∧ p.killing = false ∧ p.park = none ∧ s.store.records = []
     let stands : GenRecord := { dict := s.hyph.gen, revisions := x.fonts.map (fun f => s.width.revision f), mixed := false }
     let made : GenRecord := { stands with mixed := decide (x.startValues ≠ some stands) }
     let after : State := { s with pass := none, comp := idleCompositor, proof := { s.proof with paperTimer := false } }
     let queued (y : Take) : Take :=
       { y with proofGen := some made, startValues := none, approvalPending := false, state := .queued
                timer := if 0 < y.cls then some .aging else none, parkReason := none }
     (ends → x.approvalPending = false → endProofPass s = some
       { after with takes := s.takes.map (fun y => if y.key == x.key then
           { y with proofGen := some made, startValues := none, state := .proofHold, timer := none } else y) }) ∧
     (ends → x.approvalPending = true → x.startValues = some stands → s.stop.station ≠ .standby → endProofPass s = some
       { after with takes := s.takes.map (fun y => if y.key == x.key then { queued y with approved := true } else y) }) ∧
     (ends → x.approvalPending = true → x.startValues ≠ some stands → s.stop.station ≠ .standby → ∃ t,
       endProofPass s = some t ∧ t.pass = none ∧
       t.takes = s.takes.map (fun y => if y.key == x.key then { queued y with reproof := true } else y) ∧
       (hasRoom s → noticed t (some x.key) .reproof)) ∧
     (¬ ends → endProofPass s = none))

/-! ### The copy code -/

/-- R5: a copy command acts only where its byte is the next one of the text; where the end of copy falls before its argument
bytes it is ignored, counted as one copy error, and the text ends. It holds for all seventeen. A command whose byte is not
the next one is not due (Log 4); the copy errors stay at 65,535 (Log 18). -/
def Obligations.CopyCommandsStandAtTheirByte : Prop :=
  ∀ (c : Instr) (code n : Nat) (s : State), copyShape c = some (code, n) →
    (reading? s = none ∨ (∃ r, reading? s = some r ∧ r.byte ≠ some code) → exec c s = .next (settle s)) ∧
    (∀ t x, reading? s = some { take := t, ctx := x, byte := some code } → t.textLen < x.resume + 1 + n →
      exec c s = .next (settle
        { s.count (moreErrors 1) with comp := { s.comp with ctx := some { x with resume := t.textLen } } }))

/-- R9, R10: FONT sets a font of the take's list, and counts any other as a copy error; SIZE sets the largest lens size not
above its argument brought into 10..48, counting a clamp and a substitution, which marks the next box; the three counts stay
at 65,535 (Log 18). -/
def Obligations.FontAndSizeActAtOnce : Prop :=
  ∀ (s : State) (t : Take) (x : Context),
    (Reads s t x 0x01 2 →
      let f := 256 * argAt s t x 0 + argAt s t x 1
      exec .font s = .next (settle (if f ∈ t.fonts
        then { s with comp := { s.comp with ctx := some { x with resume := x.resume + 3, font := f } } }
        else { s.count (moreErrors 1) with comp := { s.comp with ctx := some { x with resume := x.resume + 3 } } }))) ∧
    (Reads s t x 0x02 1 → ∀ h,
      let n := argAt s t x 0
      let m := max 10 (min 48 n)
      h ∈ [10, 11, 12, 13, 14, 16, 18, 20, 24, 28, 36, 48] → h ≤ m →
      (∀ g ∈ [10, 11, 12, 13, 14, 16, 18, 20, 24, 28, 36, 48], g ≤ m → g ≤ h) →
      exec .size s = .next (settle
        { s.count (fun c =>
            { c with
              clamped := min 65535 (c.clamped + (if m = n then 0 else 1))
              substituted := min 65535 (c.substituted + (if h = m then 0 else 1)) }) with
          comp := { s.comp with
            ctx := some { x with resume := x.resume + 2, size := h }, subst := s.comp.subst || decide (h ≠ m) } }))

/-- R11, R8: LEAD, MEASURE and INDENT are clamped, with one clamped argument counted where that changes the value; a new
measure in force lowers an indent too great for it, and counts that; an indent is clamped when it takes effect.
R12, R8: SPACEBAND's three values in order, LETTERSPACE and LADDER are clamped, with one clamped argument counted for a
command whose value that changes.
R13, R8: MODE takes 0 to 3 and counts a greater value as a copy error, up to 65,535 (Log 18); HYPH and CAPS are off at 0
and on at any other value. -/
def Obligations.LineValuesAreSet : Prop :=
  (∀ (s : State) (t : Take) (x : Context),
     (Reads s t x 0x03 1 →
       let n := argAt s t x 0
       exec .lead s = .next (settle (levelPlaced (s.count (moreClamped (if 192 < n then 1 else 0))) x (x.resume + 2)
         (fun c => { c with leading := min 192 n }) (fun p => { p with leading := some (min 192 n) })))) ∧
     (Reads s t x 0x04 2 →
       let n := 12 * argAt s t x 0 + argAt s t x 1
       let v := max 36 (min 540 n)
       let lowers : Nat := if s.comp.holdsBox = false ∧ v - 36 < x.indent then 1 else 0
       exec .measure s = .next (settle (levelPlaced (s.count (moreClamped ((if v = n then 0 else 1) + lowers))) x (x.resume + 3)
         (fun c => { c with measure := v, indent := min (v - 36) c.indent }) (fun p => { p with measure := some v })))) ∧
     (Reads s t x 0x05 2 →
       let n := 256 * argAt s t x 0 + argAt s t x 1
       let clamps : Nat := if s.comp.holdsBox = false ∧ x.measure - 36 < n then 1 else 0
       exec .indent s = .next (settle (levelPlaced (s.count (moreClamped clamps)) x (x.resume + 3)
         (fun c => { c with indent := min (c.measure - 36) n }) (fun p => { p with indent := some n }))))) ∧
  (∀ (s : State) (t : Take) (x : Context),
     (Reads s t x 0x06 3 →
       let mn := max 4 (min 48 (argAt s t x 0))
       let op := min 64 (max mn (argAt s t x 1))
       let mx := min 96 (max op (argAt s t x 2))
       exec .spaceband s = .next (settle (levelPlaced
         (s.count (moreClamped (if mn = argAt s t x 0 ∧ op = argAt s t x 1 ∧ mx = argAt s t x 2 then 0 else 1))) x (x.resume + 4)
         (fun c => { c with sbMin := mn, sbOpt := op, sbMax := mx }) (fun p => { p with spaceband := some (mn, op, mx) })))) ∧
     (Reads s t x 0x07 1 →
       let n := argAt s t x 0
       exec .letterspace s = .next (settle (levelPlaced (s.count (moreClamped (if n ≤ 6 then 0 else 1))) x (x.resume + 2)
         (fun c => { c with letterspace := min 6 n }) (fun p => { p with letterspace := some (min 6 n) })))) ∧
     (Reads s t x 0x0B 1 →
       let n := argAt s t x 0
       let v := max 1 (min 7 n)
       exec .ladder s = .next (settle (levelPlaced (s.count (moreClamped (if v = n then 0 else 1))) x (x.resume + 2)
         (fun c => { c with ladderLimit := v }) (fun p => { p with ladder := some v }))))) ∧
  (∀ (s : State) (t : Take) (x : Context),
     (Reads s t x 0x08 1 →
       let n := argAt s t x 0
       exec .mode s = .next (settle (if n ≤ 3
         then levelPlaced s x (x.resume + 2) (fun c => { c with mode := n }) (fun p => { p with mode := some n })
         else { s.count (moreErrors 1) with comp := { s.comp with ctx := some { x with resume := x.resume + 2 } } }))) ∧
     (Reads s t x 0x09 1 → exec .hyph s = .next (settle (levelPlaced s x (x.resume + 2)
       (fun c => { c with hyph := decide (argAt s t x 0 ≠ 0) }) (fun p => { p with hyph := some (decide (argAt s t x 0 ≠ 0)) })))) ∧
     (Reads s t x 0x0A 1 → exec .caps s = .next (settle (levelPlaced s x (x.resume + 2)
       (fun c => { c with caps := decide (argAt s t x 0 ≠ 0) }) (fun p => { p with caps := some (decide (argAt s t x 0 ≠ 0)) })))))

/-- R15: EMSPACE, ENSPACE and THINSPACE place a fixed space of 48, 24 or 12 units at the current size, NBSPACE a justifying
space inside the word group, dropped where the line holds no box, and DISC a mark at its place in the word. A substitution
mark that waits for its item stands on the NBSPACE placed and waits on for the next box (R10, R57, Log 20). -/
def Obligations.SpacesAndMarksArePlaced : Prop :=
  ∀ (s : State) (t : Take) (x : Context),
    (Reads s t x 0x0D 0 → exec .emspace s = .next (settle
      (boxPlaced s x (x.resume + 1) .fixedSpace 0x20 (48 * 5 * x.size) false))) ∧
    (Reads s t x 0x0E 0 → exec .enspace s = .next (settle
      (boxPlaced s x (x.resume + 1) .fixedSpace 0x20 (24 * 5 * x.size) false))) ∧
    (Reads s t x 0x0F 0 → exec .thinspace s = .next (settle
      (boxPlaced s x (x.resume + 1) .fixedSpace 0x20 (12 * 5 * x.size) false))) ∧
    (Reads s t x 0x10 0 → ∃ u, exec .nbspace s = .next (settle u) ∧ u.comp.ctx = some { x with resume := x.resume + 1 } ∧
      u.comp.subst = s.comp.subst ∧ (s.comp.holdsBox = false → u.comp.group = s.comp.group) ∧
      (s.comp.holdsBox = true → ∃ i, u.comp.group = s.comp.group ++ [i] ∧ i.kind = .justifying ∧ i.offset = x.resume ∧
        i.subst = s.comp.subst)) ∧
    (Reads s t x 0x11 0 → exec .disc s = .next (settle
      { s with comp := { s.comp with
        ctx := some { x with resume := x.resume + 1 }, discs := s.comp.discs ++ [s.comp.group.length] } }))

/-- R5, R7, R33, R38, R39: the next byte, where it is 0x21 or above and not 0x7F, is a box of the current font and size, as
wide as its entry in the font's table, 24 units where the entry is 0, and the font's slot becomes the most recently used;
0x7F is passed over; 0x00 and 0x12 to 0x1F are skipped and counted as copy errors, up to 65,535 (Log 18). That an unknown byte
stands between two word spaces is Log 19; that the first box of a line gives its snapshot the font and the size (R17), and that
a box bears the mark of a substituting SIZE that waits (R10), is Log 20. A byte event for a byte of another class is not due
(Log 4). -/
def Obligations.TextBytesAreTaken : Prop :=
  ∀ (s : State) (t : Take) (x : Context) (b : Nat), Reads s t x b 0 →
    (0x21 ≤ b → b ≠ 0x7F → ∀ i rev ws, s.width.slotOf x.font = some i → s.width.table? x.font = some (rev, ws) →
      let entry := (ws[b - 0x21]?).getD 0
      exec .character s = .next (settle (boxPlaced
        { s with width := { s.width with useList := s.width.useList.erase i ++ [i] } } x (x.resume + 1) .character b
        ((if entry = 0 then 24 else entry) * 5 * x.size) (decide (entry = 0))))) ∧
    (b = 0x7F → exec .rubout s = .next (settle
      { s with comp := { s.comp with ctx := some { x with resume := x.resume + 1 } } })) ∧
    (b = 0 ∨ (0x12 ≤ b ∧ b ≤ 0x1F) → exec .unknownByte s = .next (settle
      { s.count (moreErrors 1) with comp := { s.comp with
        ctx := some { x with resume := x.resume + 1 }, afterSpace := false } })) ∧
    (b < 0x21 ∨ b = 0x7F → exec .character s = .next (settle s)) ∧
    (b ≠ 0x7F → exec .rubout s = .next (settle s)) ∧
    (b ≠ 0 → b < 0x12 ∨ 0x1F < b → exec .unknownByte s = .next (settle s))

/-- R6, R43 to R47, R71: a word space at the start of a line or after another is dropped; a kept one ends the word group, which
joins the line where it fits; one that ends an empty group is one more space before the next (Log 19). A group that does not fit,
ended by a word space, ENDPARA or the end of copy alike, ends the line at the furthest usable candidate break, with the hyphen of
R40 where that adds one, and reading goes on at the first box after it; with none usable, a line that holds a box ends
before the group, and on a line that holds none the group is broken overset after the last box that fits, or after its
first box alone; where nothing of the group remains, reading goes on at the byte that ended it (Log 22). R8, R58, R82: the line
goes to the store, and then the pending values are applied in their order; R35, R81: a store without room leaves it held. -/
def Obligations.WordSpaceEndsTheGroup : Prop :=
  ∀ (s : State) (t : Take) (x : Context),
    let c := s.comp
    let asked : AttemptValues := { hyph := x.hyph, caps := x.caps, limit := x.ladderLimit, count := x.ladderCount }
    let cands := candidates s.hyph t.exceptions asked c.group c.discs
    (Reads s t x 0x20 0 →
      (c.holdsBox = false ∨ c.afterSpace = true → exec .wordSpace s = .next (settle
        { s with comp := { c with ctx := some { x with resume := x.resume + 1 }, afterSpace := true } })) ∧
      (c.holdsBox = true → c.afterSpace = false → c.group = [] ∨ (c.values x c.group).fits (joinedLine c) = true →
        exec .wordSpace s = .next (settle
          { s with comp := { c with
            ctx := some { x with resume := x.resume + 1 }, line := joinedLine c, group := [], discs := []
            spaces := if c.group.isEmpty then c.spaces + 1 else 1
            groupStart := x.resume + 1, groupFont := x.font, groupSize := x.size, groupAfter := true
            afterSpace := true } }))) ∧
    ∀ cmd, endsGroup s t x cmd → c.group ≠ [] → (c.values x c.group).fits (joinedLine c) = false →
      let ends (n : Nat) (flags : LineFlags → Prop) (next : Option Context → Prop) : Prop :=
        (storeRoom s n → ∃ u r, exec cmd s = .next (settle u) ∧ lineAppended s u t x r ∧ lineOf s x n r ∧ flags r.flags ∧
          next u.comp.ctx) ∧
        (¬ storeRoom s n → ∃ u h, exec cmd s = .next (settle u) ∧ lineHeld s u h ∧ lineOf s x n h.record ∧ flags h.record.flags)
      (∀ i kind, (i, kind) ∈ cands → usableBreak s x i kind → (∀ j k, (j, k) ∈ cands → i < j → ¬ usableBreak s x j k) →
        ends (brokenLine s i kind).length
          (fun f => f.hyphenated = decide (kind = .added) ∧ f.explicitHyphen = decide (kind = .explicit) ∧
            f.overset = false ∧ f.paragraphEnd = false)
          (fun y => ∀ b, c.group[i + 1]? = some b → b.kind ≠ .justifying →
            y = some (contextAfter s x (min 7 (x.ladderCount + 1)) (min t.textLen b.offset) b.font b.size))) ∧
      ((∀ j k, (j, k) ∈ cands → ¬ usableBreak s x j k) →
        (c.line = [] → ∃ n, 1 ≤ n ∧
          (1 < n → (∃ b, c.group[n - 1]? = some b ∧ b.kind ≠ .justifying) ∧
            (c.values x c.group).fits (c.group.take n) = true) ∧
          (∀ m b, n < m → c.group[m - 1]? = some b → b.kind ≠ .justifying →
            (c.values x c.group).fits (c.group.take m) = false) ∧
          ends n (fun f => f.overset = true ∧ f.hyphenated = false ∧ f.explicitHyphen = false ∧ f.paragraphEnd = false)
            (fun y => y = match (c.group.drop n).find? (fun i => i.kind ≠ .justifying) with
              | some b => some (contextAfter s x 0 (min t.textLen b.offset) b.font b.size)
              | none => some (contextAfter s x 0 (min t.textLen x.resume) x.font x.size))) ∧
        (c.line ≠ [] → ends c.line.length
          (fun f => f.overset = false ∧ f.hyphenated = false ∧ f.explicitHyphen = false ∧ f.paragraphEnd = false)
          (fun y => y = match c.group.find? (fun i => i.kind ≠ .justifying) with
            | some b => some (contextAfter s x 0 (min t.textLen c.groupStart) b.font b.size)
            | none => some (contextAfter s x 0 (min t.textLen c.groupStart) c.groupFont c.groupSize))))

/-- R14, R58, R71, R82: ENDPARA with its last group fitting ends the line as a paragraph end, with the items it holds, be it
none; the record goes to the store, the next line number rises, the ladder count is 0 and the pending values are applied in the
order of R8; at the end of the text the pass ends (Log 23). R35, R81: a store without room leaves the line held.
R14, R35: the end of copy with no box on the line ends the pass without a further record; with a box it ends the line as a
paragraph end, where the last group fits, and then the pass, once the store has room for the line. The context kept holds what the
copy commands after the last line have set (R84; the model's choice, Log 61).
R83, R82, R35: the lines at the head of the store with both consumer fields clear leave it, down to the first with one set;
a WAITING Compositor's held line is appended once the store has room for it, to be exposed in a FILM pass, and to be proofed
in a PROOF pass, or with paper where the take's proof is whole (one dropped and not partial: Log 45), and the pending values are
then applied in the order of R8. -/
def Obligations.ParagraphAndCopyEndTheLine : Prop :=
  (∀ (s : State) (t : Take) (x : Context), Reads s t x 0x0C 0 →
     s.comp.group = [] ∨ (s.comp.values x s.comp.group).fits (joinedLine s.comp) = true →
     let n := (joinedLine s.comp).length
     let flags (f : LineFlags) : Prop := f.paragraphEnd = true ∧ f.loose = false ∧ f.letterspaced = false ∧
       f.overset = false ∧ f.hyphenated = false ∧ f.explicitHyphen = false
     (storeRoom s n → ∃ u r, exec .endpara s = .next (settle u) ∧ lineAppended s u t x r ∧ lineOf s x n r ∧ flags r.flags ∧
       u.comp.ctx = some (contextAfter s x 0 (x.resume + 1) x.font x.size) ∧
       u.pass = (if x.resume + 1 < t.textLen then s.pass else s.pass.map (fun p => { p with reported := true }))) ∧
     (¬ storeRoom s n → ∃ u h, exec .endpara s = .next (settle u) ∧ lineHeld s u h ∧ lineOf s x n h.record ∧
       flags h.record.flags)) ∧
  (∀ (s : State) (t : Take) (x : Context), reading? s = some { take := t, ctx := x, byte := none } →
     (s.comp.holdsBox = false → exec .endOfCopy s = .next (settle
       { s with
         comp := { idleCompositor with ctx := some { x with resume := t.textLen } }
         pass := s.pass.map (fun p => { p with reported := true }) })) ∧
     (s.comp.holdsBox = true → s.comp.group = [] ∨ (s.comp.values x s.comp.group).fits (joinedLine s.comp) = true →
       let n := (joinedLine s.comp).length
       (storeRoom s n → ∃ u r, exec .endOfCopy s = .next (settle u) ∧ lineAppended s u t x r ∧ lineOf s x n r ∧
         r.flags.paragraphEnd = true ∧ u.comp.phase = .idle ∧
         u.comp.ctx = some (contextAfter s x 0 t.textLen x.font x.size) ∧
         u.pass = s.pass.map (fun p => { p with reported := true })) ∧
       (¬ storeRoom s n → ∃ u h, exec .endOfCopy s = .next (settle u) ∧ lineHeld s u h ∧ lineOf s x n h.record ∧
         h.record.flags.paragraphEnd = true))) ∧
  (storeRemove ∈ reactions ∧ retryLine ∈ reactions ∧
   ∀ s : State,
     let clear (r : LineRecord) : Prop := r.filmPending = false ∧ r.proofPending = false
     (∀ a b, s.store.records = a ++ b → a ≠ [] → (∀ r ∈ a, clear r) → (∀ r, b.head? = some r → ¬ clear r) →
       storeRemove s = some { s with store := { s.store with records := b } }) ∧
     ((∀ r, s.store.records.head? = some r → ¬ clear r) → storeRemove s = none) ∧
     (∀ t x h, s.active? = some t → s.comp.ctx = some x → s.comp.held = some h → s.comp.phase = .waiting →
       (storeRoom s h.record.items.length → ∃ u r, retryLine s = some u ∧ lineAppended s u t x r ∧
         r = { h.record with filmPending := r.filmPending, proofPending := r.proofPending } ∧
         u.comp.ctx = some (contextAfter s x
           (if h.record.flags.hyphenated = true ∨ h.record.flags.explicitHyphen = true then min 7 (x.ladderCount + 1) else 0)
           (min t.textLen h.next.offset) h.next.font h.next.size) ∧
         u.comp.phase = (if t.textLen ≤ h.next.offset then .idle
           else if s.stop.station = .hold ∨ (s.stop.station = .stopped ∧ ∃ k, s.stop.record = some k ∧ k.toHold = true)
             then .paused else .setting)) ∧
       (¬ storeRoom s h.record.items.length → retryLine s = none)) ∧
     (s.comp.phase ≠ .waiting → retryLine s = none))

/-- R28, R29, R19, R31: a WIDTH-TABLE of good form fills its font's ASKING or held empty slot, replaces a VALID slot's table of
lower revision, is ignored at an equal or lower one, and snoop-fills the lowest free slot; one of bad form is counted. As a slot
is filled the ask for its font ends (R27), and takes whose fonts are all VALID become widths-ready (R24). In START
and HALT it changes no slot, and one of bad form is not counted (the model's choice, Log 63). In every station state (R168), at
a revision equal to or above the slot's it cancels the answer window open for its font, with
the table waiting to be sent, unless that table's first bit has been sent (R174); at a lower one the window stands.
R19: the form of a table is good where its font is 1 to 999, it holds 223 entries, and none but that of 0x7F is above
96. -/
def Obligations.TablesActByTheirSlot : Prop :=
  (∀ (h : Header) (font rev : Nat) (ws : List Nat) (s : State), Received h (.widthTable h font rev ws) s →
     let begun : Prop := ∃ e ∈ s.line.queue, e.begun = true ∧ ∃ r ws, e.frame = .widthTable font r ws
     let open' : Prop := ∃ w ∈ s.line.windows, w.what.isAnswerFor font = true
     let cancelled (t : State) : Prop :=
       (begun → t.line = (heard s).line) ∧
       (¬ begun → t.line.windows = s.line.windows.filter (fun w => !w.what.isAnswerFor font) ∧
         ∀ w ∈ s.line.windows, w.what.isAnswerFor font = true → w.queued = true →
           t.line.queue = s.line.queue.filter (fun e => !w.what.owns e.frame) ∧
           t.line.waiting = s.line.waiting.filter (fun f => !w.what.owns f))
     let higher : Prop := ∃ r tb, s.width.table? font = some (r, tb) ∧ rev < r
     let readied (t : State) (y : Take) : Take :=
       { y with widthsReady := y.widthsReady || y.fonts.all (fun f => t.width.isValid f) }
     (s.stop.station = .start ∨ s.stop.station = .halt →
       (tableFormOk font ws = false ∨ higher ∨ ¬ open' → exec (.widthTable h font rev ws) s = .next (settle (heard s))) ∧
       (tableFormOk font ws = true → ¬ higher → open' → ∃ t, exec (.widthTable h font rev ws) s = .next (settle t) ∧
         t = { heard s with line := t.line } ∧ cancelled t)) ∧
     (s.stop.station ≠ .start → s.stop.station ≠ .halt → tableFormOk font ws = false →
       exec (.widthTable h font rev ws) s = .next (settle
         { s with line := { s.line with phase := .gapDue, bad := satAdd 65535 s.line.bad 1 } })) ∧
     (s.stop.station ≠ .start → s.stop.station ≠ .halt → tableFormOk font ws = true →
       (∀ i sl, s.width.slotOf font = some i → s.width.slots[i]? = some sl → sl.state = .asking ∨ sl.state = .empty →
         ∃ t, exec (.widthTable h font rev ws) s = .next (settle t) ∧
           t.width = { s.width with slots := s.width.slots.set i { sl with state := .valid rev ws }
                                    useList := s.width.useList.erase i ++ [i] } ∧
           t.line.watches = s.line.watches.filter (fun w => w.subject ≠ .font font) ∧
           (∀ e ∈ t.line.queue, e.begun = true ∨ e.frame.isAskFor font = false) ∧
           t.takes = s.takes.map (fun y => { readied t y with reask := y.reask.map (fun l => l.filter (fun f => f ≠ font)) })) ∧
       (∀ i sl r tb, s.width.slotOf font = some i → s.width.slots[i]? = some sl → sl.state = .valid r tb → r ≤ rev → open' →
         ∃ t, exec (.widthTable h font rev ws) s = .next (settle t) ∧ cancelled t ∧
           (r = rev → t.width = s.width ∧ t.takes = s.takes) ∧
           (r < rev → t.width = { s.width with slots := s.width.slots.set i { sl with state := .valid rev ws }
                                               gen := (s.width.gen + 1) % 65536 })) ∧
       (∀ i sl r tb, s.width.slotOf font = some i → s.width.slots[i]? = some sl → sl.state = .valid r tb → r < rev →
         ¬ open' → exec (.widthTable h font rev ws) s = .next (settle
           { heard s with
             width := { s.width with slots := s.width.slots.set i { sl with state := .valid rev ws }
                                     gen := (s.width.gen + 1) % 65536 }
             takes := s.takes.map (fun x =>
               if x.state == .active then (if x.fonts.contains font then { x with widthsChanged := true } else x) else x) })) ∧
       (∀ i sl r tb, s.width.slotOf font = some i → s.width.slots[i]? = some sl → sl.state = .valid r tb →
         rev < r ∨ (rev = r ∧ ¬ open') → exec (.widthTable h font rev ws) s = .next (settle (heard s))) ∧
       (∀ i, s.width.slotOf font = none → s.width.freeSlot? = some i →
         ∃ t, exec (.widthTable h font rev ws) s = .next (settle t) ∧
           t.width = { s.width with slots := s.width.slots.set i { state := .valid rev ws, font := some font, pins := 0 }
                                    useList := i :: s.width.useList.erase i } ∧ t.takes = s.takes.map (readied t)) ∧
       (s.width.slotOf font = none → s.width.freeSlot? = none → ¬ open' →
         exec (.widthTable h font rev ws) s = .next (settle (heard s))))) ∧
  (∀ (font : Nat) (ws : List Nat), tableFormOk font ws = true ↔
     1 ≤ font ∧ font ≤ 999 ∧ ws.length = 223 ∧ ∀ i w, ws[i]? = some w → i + 0x21 ≠ 0x7F → w ≤ 96)

/-- R30, R25: another station's WIDTH-ASK for a VALID font opens an answer window of 2·s + 1 idle slots, unless one for the font
is open, 4 windows are held, the station is muted, or it is in START or HALT; for an ASKING font whose own WIDTH-ASK
still waits, in the transmit queue or for room in it, that ask is withdrawn and its watch starts; where it has been sent or begun,
and for any other font, nothing happens. -/
def Obligations.AsksAreAnsweredOrJoined : Prop :=
  ∀ (h : Header) (font : Nat) (s : State), Received h (.widthAsk h font) s →
    let may : Prop := s.stop.station ≠ .start ∧ s.stop.station ≠ .halt ∧ s.line.windows.length < 4 ∧ s.line.mute = false ∧
      ∀ w ∈ s.line.windows, w.what.isAnswerFor font = false
    (s.width.isValid font = true → may → exec (.widthAsk h font) s = .next (settle
      { s with line := { s.line with
        phase := .gapDue
        windows := s.line.windows ++
          [{ what := .answer font, slots := 2 * s.panel.straps.station.val + 1, queued := false }] } })) ∧
    (s.width.isValid font = true → ¬ may → exec (.widthAsk h font) s = .next (settle (heard s))) ∧
    (s.width.isValid font = false → s.width.isAsking font = true →
      { frame := .widthAsk font, begun := false } ∈ s.line.queue ∨ .widthAsk font ∈ s.line.waiting → exec (.widthAsk h font) s = .next (settle
        { s with line := { s.line with
          phase := .gapDue
          queue := s.line.queue.filter (fun e => e.begun || !e.frame.isAskFor font)
          waiting := s.line.waiting.filter (fun f => !f.isAskFor font)
          watches := s.line.watches.filter (fun w => w.subject ≠ .font font) ++
            [{ subject := .font font, slots := 520 }] } })) ∧
    (s.width.isValid font = false → s.width.isAsking font = false ∨
      ({ frame := .widthAsk font, begun := false } ∉ s.line.queue ∧ .widthAsk font ∉ s.line.waiting) →
      exec (.widthAsk h font) s = .next (settle (heard s)))

/-- R75: an add of good form whose folded word is in the dictionary replaces that entry's positions, each once and ascending, in
its place; one whose word is new, with fewer than 512 entries held, is inserted at its place in the order. The
generation rises by one either way. -/
def Obligations.ExceptionAddReplacesOrInserts : Prop :=
  ∀ (h : Header) (letters ps : List Nat) (s : State),
    let body := letters.length :: letters ++ ps.length :: ps
    let w := letters.map fold
    let e : ExceptionEntry := { word := w, positions := positionSet ps }
    s.hears = true → frameOk (.exceptionAdd h body) = true → 2 ≤ letters.length → letters.length ≤ 24 →
    (∀ c ∈ letters, isLetter c = true) → ps.length + 1 ≤ letters.length →
    (∀ p ∈ ps, 1 ≤ p ∧ p + 1 ≤ letters.length) → dictSorted s.hyph.dict = true →
    (∀ p, p ∈ e.positions ↔ p ∈ ps) ∧ ascending e.positions = true ∧
    ((∃ f ∈ s.hyph.dict, f.word = w) → ∃ t, exec (.exceptionAdd h body) s = .next t ∧
      t.hyph = { s.hyph with dict := s.hyph.dict.map (fun f => if f.word = w then e else f)
                             gen := (s.hyph.gen + 1) % 65536 }) ∧
    ((∀ f ∈ s.hyph.dict, f.word ≠ w) → s.hyph.dict.length < 512 →
      ∃ t before after, exec (.exceptionAdd h body) s = .next t ∧ s.hyph.dict = before ++ after ∧
        t.hyph = { s.hyph with dict := before ++ e :: after, gen := (s.hyph.gen + 1) % 65536 } ∧
        dictSorted t.hyph.dict = true)

/-- R76, R74: an add of good form of a new word to a full dictionary is refused with a DICT-FULL notice that names no take, in
HALT without one. An EXCEPTION of bad form is counted: one whose word is not of 2 to 24 letters, or whose length is not as it
declares, and an add with L or more positions, or one outside 1 to L − 1. Neither changes the dictionary or its generation. -/
def Obligations.ExceptionAddRefused : Prop :=
  ∀ (h : Header) (s : State),
    let laidOut (letters ps body : List Nat) : Prop :=
      body = letters.length :: letters ++ ps.length :: ps ∧ 2 ≤ letters.length ∧ letters.length ≤ 24 ∧
      ∀ c ∈ letters, isLetter c = true
    let within (letters ps : List Nat) : Prop := ps.length + 1 ≤ letters.length ∧ ∀ p ∈ ps, 1 ≤ p ∧ p + 1 ≤ letters.length
    let counted : State := { s with line := { s.line with phase := .gapDue, bad := satAdd 65535 s.line.bad 1 } }
    (∀ letters ps body, Received h (.exceptionAdd h body) s → laidOut letters ps body → within letters ps →
      512 ≤ s.hyph.dict.length → (∀ f ∈ s.hyph.dict, f.word ≠ letters.map fold) →
      (s.stop.station ≠ .halt → hasRoom s → exec (.exceptionAdd h body) s = .next (settle
        { s with line := { s.line with
          phase := .gapDue, queue := insertFrame (.notice none (.dictFull (letters.map fold))) s.line.queue } })) ∧
      (s.stop.station = .halt → exec (.exceptionAdd h body) s = .next (settle (heard s)))) ∧
    (∀ body, Received h (.exceptionAdd h body) s → (∀ letters ps, laidOut letters ps body → ¬ within letters ps) →
      exec (.exceptionAdd h body) s = .next (settle counted)) ∧
    (∀ body, Received h (.exceptionDelete h body) s → (∀ letters ps, ¬ laidOut letters ps body) →
      exec (.exceptionDelete h body) s = .next (settle counted))

/-- R77: a delete whose folded word is in the dictionary removes that entry and raises the generation by one; one whose word is
not there changes nothing and produces no notice. The positions of a delete are not examined. -/
def Obligations.ExceptionDeleteRemoves : Prop :=
  ∀ (h : Header) (letters ps : List Nat) (s : State),
    let body := letters.length :: letters ++ ps.length :: ps
    let w := letters.map fold
    s.hears = true → frameOk (.exceptionDelete h body) = true → 2 ≤ letters.length → letters.length ≤ 24 →
    (∀ c ∈ letters, isLetter c = true) →
    (∀ before e after, s.hyph.dict = before ++ e :: after → e.word = w →
      (∀ f ∈ before ++ after, f.word ≠ w) → ∃ t, exec (.exceptionDelete h body) s = .next t ∧
        t.hyph = { s.hyph with dict := before ++ after, gen := (s.hyph.gen + 1) % 65536 }) ∧
    ((∀ f ∈ s.hyph.dict, f.word ≠ w) → (∃ t, exec (.exceptionDelete h body) s = .next t ∧ t.hyph = s.hyph) ∧
      (h.sender ≠ s.number → exec (.exceptionDelete h body) s = .next (settle (heard s))))

/-! ### Exposure and the lamp -/

/-- R103, R104: an index or position event that ends a move leaves its mechanism where the move led; a MOUNT move's end returns
the Exposure Sequencer to IDLE, or the line in CHECKING to its font check (R119). With no move in progress the events are
ignored.
R105, R102, R128, R202, R152: homing goes on from the turret to the lens turret to the carriage, and ends with a survey:
in START the cassette code is read, with no FILM-LOW notice of its own and the low-notified flag as it was (R129; the model's
reading, Log 31), and the ANNOUNCE follows where no galley is open; after CLEAR the station goes to RUN with its film mechanisms
usable and the fault's release marks gone.
R202, R135, R105, R153: a start-up that finds a galley open has it cut, flagged reset, before its ANNOUNCE, which is handed
over once no galley is open, no request waits and nothing moves. A film movement of that cut that fails is kept as the fault
the start-up ends with, the first of them alone, and the ANNOUNCE still follows (the model's reading, Log 30); the galley is
closed all the same. A muted station's ANNOUNCE is refused at once, and the station goes
to RUN. -/
def Obligations.MovesAndHomingComplete : Prop :=
  (∀ (s : State) (seat : Fin 8) (lens : Fin 12) (tabs : List Nat) (cassette : Fin 4),
     (s.exp.homing ≠ some .turret → s.exp.turretMove = some seat.val → s.exp.phase ≠ .mounting →
       exec (.seatIndex seat) s = .next (settle { s with exp := { s.exp with turretMove := none, turret := some seat.val } })) ∧
     (s.exp.homing ≠ some .turret → s.exp.turretMove = some seat.val → s.exp.phase = .mounting →
       exec (.seatIndex seat) s = .next (settle { s with exp := { s.exp with
         turretMove := none, turret := some seat.val, phase := if s.exp.cur.isSome then .checking else .idle
         cur := s.exp.cur.map (fun c => { c with checked := false }) } })) ∧
     (s.exp.homing ≠ some .turret → s.exp.turretMove = none → exec (.seatIndex seat) s = .next (settle s)) ∧
     (s.exp.homing ≠ some .lens → s.exp.lensMove = some lens.val →
       exec (.lensIndex lens) s = .next (settle { s with exp := { s.exp with lensMove := none, lens := some lens.val } })) ∧
     (s.exp.homing ≠ some .lens → s.exp.lensMove = none → exec (.lensIndex lens) s = .next (settle s)) ∧
     (s.exp.homing ≠ some .carriage → ∀ p, s.exp.carriageMove = some p → exec (.position tabs cassette) s = .next (settle
       { s with exp := { s.exp with carriageMove := none, carriage := some p } })) ∧
     (s.exp.homing ≠ some .carriage → s.exp.carriageMove = none → exec (.position tabs cassette) s = .next (settle s))) ∧
  (∀ (s : State) (tabs : List Nat) (cassette : Fin 4),
     let seats : List Nat :=
       (List.range 8).map (fun i => let c := (tabs[i]?).getD 0; if 1 ≤ c ∧ c ≤ 999 then c else 0)
     let changed : List Nat := (List.range 8).filter (fun i => decide (s.exp.seats[i]? ≠ seats[i]?))
     let order : List Nat := changed ++ s.exp.order.filter (fun i => !changed.contains i)
     (s.exp.homing = some .turret → exec (.seatIndex 0) s = .next (settle
       { s with exp := { s.exp with turret := some 0, homing := some .lens } })) ∧
     (s.exp.homing = some .lens → exec (.lensIndex 0) s = .next (settle
       { s with exp := { s.exp with lens := some 0, homing := some .carriage } })) ∧
     (s.exp.homing = some .carriage → s.stop.station = .start → s.stop.record = none → s.takes = [] → s.film.galley = none →
       hasRoom s →
       let film : Film := if cassette = 0 then { s.film with remaining := 0, known := true } else s.film
       let told : Announcement :=
         { cause := s.panel.cause, seats := seats, filmKnown := film.known, filmRemaining := film.remaining
           patternsValid := s.hyph.valid, patternCount := s.hyph.patterns.length, romGood := s.panel.romGood
           paperOut := !s.pins.paper || s.proof.stall }
       exec (.position tabs cassette) s = .next (settle
         { s with
           pins := { s.pins with tabs := tabs, cassette := cassette }
           panel := { s.panel with filmShown := true, stage := .announce }
           exp := { s.exp with carriage := some 0, homing := none, phase := .idle, seats := seats, order := order }
           film := film, line := { s.line with queue := insertFrame (.announce told) s.line.queue } })) ∧
     (s.exp.homing = some .carriage → s.stop.station = .fault → s.stop.clearing = true →
       ∃ t, exec (.position tabs cassette) s = .next (settle t) ∧
         t.stop = { s.stop with station := .run, record := none, clearing := false } ∧
         t.exp.seats = seats ∧ t.exp.order = order ∧ t.exp.carriage = some 0 ∧ t.exp.homing = none ∧ t.exp.phase = .idle ∧
         t.film = { s.film with transport := .idle, waiting := [], driveOk := true, cutterOk := true } ∧ t.lamp = s.lamp ∧
         t.line = s.line ∧
         t.takes.map (fun x => x.key) = s.takes.map (fun x => x.key) ∧
         ∀ x ∈ t.takes, x.release = some .fault → x.state = .releasing)) ∧
  (startCutDone ∈ reactions ∧
   (∀ (s : State) (tabs : List Nat) (cassette : Fin 4),
     let seats : List Nat :=
       (List.range 8).map (fun i => let c := (tabs[i]?).getD 0; if 1 ≤ c ∧ c ≤ 999 then c else 0)
     let changed : List Nat := (List.range 8).filter (fun i => decide (s.exp.seats[i]? ≠ seats[i]?))
     s.exp.homing = some .carriage → s.stop.station = .start → s.stop.record = none → s.takes = [] →
     s.film.galley.isSome = true →
     let film : Film := if cassette = 0 then { s.film with remaining := 0, known := true } else s.film
     exec (.position tabs cassette) s = .next (settle
       { s with
         pins := { s.pins with tabs := tabs, cassette := cassette }
         panel := { s.panel with filmShown := true, stage := .cut }
         exp := { s.exp with
           carriage := some 0, homing := none, phase := .idle, seats := seats
           order := changed ++ s.exp.order.filter (fun i => !changed.contains i) }
         film := { film with waiting := s.film.waiting ++ [.cut { asker := .reset, spoiled := none }] } })) ∧
   ∀ s : State,
     let ended : Prop := s.panel.stage = .cut ∧ s.film.galley = none ∧ s.film.transport = .idle ∧ s.film.waiting = []
     let told : Announcement :=
       { cause := s.panel.cause, seats := s.exp.seats, filmKnown := s.film.known, filmRemaining := s.film.remaining
         patternsValid := s.hyph.valid, patternCount := s.hyph.patterns.length, romGood := s.panel.romGood
         paperOut := !s.pins.paper || s.proof.stall }
     (¬ ended → startCutDone s = none) ∧
     (ended → hasRoom s → startCutDone s = some
       { s with
         panel := { s.panel with stage := .announce }
         line := { s.line with queue := insertFrame (.announce told) s.line.queue } }) ∧
     (ended → s.line.mute = true → s.panel.startFault = none → s.stop.station = .start → ∃ t, startCutDone s = some t ∧
       t.stop = { s.stop with station := .run } ∧ t.panel = { s.panel with stage := .done, filmNoticeDue := false } ∧
       t.line.queue = s.line.queue) ∧
     (∀ c g, s.stop.station = .start → s.film.transport = .cutting c → c.asker = .reset → s.film.galley = some g →
       ∃ t, exec .cutterTimeout s = .next (settle t) ∧ t.stop = s.stop ∧ t.line = s.line ∧
         t.panel = { s.panel with startFault := s.panel.startFault.or (some .cutter) } ∧
         t.film.galley = none ∧ t.film.transport = .idle ∧ t.film.cutterOk = false ∧
         t.film.manifest = s.film.manifest ++ [{ g with flags := { g.flags with reset := true, uncut := true } }]) ∧
     (∀ c, s.stop.station = .start → s.film.transport = .trailing c → s.film.cutterOk = true →
       exec .advanceTimeout s = .next (settle
         { s with
           panel := { s.panel with startFault := s.panel.startFault.or (some .film) }
           film := { s.film with driveOk := false, transport := .cutting c } })))

/-- R105, R202, R153: a homing that has not ended within its limit, or that ends at another position, names its mechanism:
in START a galley open is closed, flagged reset and uncut, without a cut, and the ANNOUNCE is still sent; after CLEAR the
station goes to HALT, its lamp OFF and every held take to be
released, but that the request is void for the ACTIVE take while it is being killed (R192). With no homing in progress the
timeout is ignored (Log 4). -/
def Obligations.HomingFaultsLeadToHalt : Prop :=
  ∀ (s : State) (m : Mover),
    let mech : Mech := match m with
      | .turret => .turret
      | .lens => .lens
      | .carriage => .carriage
    (∀ c : Instr, s.exp.homing = some m → (c = .homingTimeout ∨ (m = .turret ∧ ∃ n : Fin 8, n ≠ 0 ∧ c = .seatIndex n) ∨
        (m = .lens ∧ ∃ n : Fin 12, n ≠ 0 ∧ c = .lensIndex n)) →
      (s.stop.station = .start → s.panel.startFault = none → hasRoom s →
        ∃ t a, exec c s = .next (settle t) ∧ t.panel = { s.panel with startFault := some mech, stage := .announce } ∧
          t.stop = s.stop ∧ t.exp.homing = none ∧ t.exp.phase = .idle ∧ t.exp.seats = s.exp.seats ∧
          t.film = (match s.film.galley with
            | none => s.film
            | some g => { s.film with
                galley := none, nextSeq := s.film.nextSeq.map (fun _ => min 65535 (g.seq + 1))
                manifest := s.film.manifest ++ [{ g with flags := { g.flags with reset := true, uncut := true } }] }) ∧
          t.line.queue = insertFrame (.announce a) s.line.queue ∧ a.cause = s.panel.cause ∧ a.seats = s.exp.seats) ∧
      (s.stop.station = .start → s.panel.startFault = none → s.line.mute = true → s.line.windows = [] →
        ∃ t r, exec c s = .next (settle t) ∧ t.stop = { s.stop with station := .halt, record := some r, clearing := false } ∧
          r.mech = some mech ∧ t.panel = { s.panel with startFault := some mech, stage := .done } ∧
          t.lamp = { s.lamp with phase := .off }) ∧
      (s.stop.station = .fault → s.stop.clearing = true → hasRoom s → s.line.windows = [] →
        ∃ t r, exec c s = .next (settle t) ∧ t.stop = { s.stop with station := .halt, record := some r, clearing := false } ∧
          r.kind = .mechanism ∧ r.mech = some mech ∧ r.key = none ∧ t.exp.homing = none ∧ t.exp.phase = .idle ∧
          t.lamp = { s.lamp with phase := .off } ∧ noticed t none (.halt mech true) ∧
          t.takes.map (fun x => x.key) = s.takes.map (fun x => x.key) ∧
          (∀ x ∈ t.takes, x.release = some .halt ∨ x.state = .releasing ∨ x.state = .stranded ∨
            (x.state = .active ∧ ∃ p, s.pass = some p ∧ p.killing = true)) ∧
          ∀ p, s.pass = some p → p.killing = true → ∀ y ∈ t.takes, y.state = .active →
            ∃ x ∈ s.takes, x.state = .active ∧ x.key = y.key ∧ x.release = y.release)) ∧
    (s.exp.homing = none → exec .homingTimeout s = .next (settle s))

/-- R114, R124, R125: flash-done puts the item flashed in the flashed set and corrects the lamp from the reading: by an
eighth, truncated toward zero, of Kp times the error's change and Ki times the error, held to 512..2,047; a clamp raises the
clamp run, which gives a LAMP-WEAK notice at 64, in HALT too (the model's reading, Log 33), and a LAMP fault at 256: R150, R151: its
record, FAULT notice, park and release marks (on a take in PROOF-HOLD too: the model's reading, Log 43), the line ended but for one
a door has halted; in FAULT a further notice alone, with the record's key and line (the model's choice, Log 49) and the record as
it was (Log 43), and in HALT nothing. With no flash in progress it is ignored
(Log 4).
R126, R120: the lamp-change switch sets the correction to 1,024, the previous error and the clamp run to 0, and warms an
unextinguished lamp up again; the warm-up timer makes a WARMING lamp READY, and runs in no other state, where its event is
not due (Log 4). -/
def Obligations.FlashesAndLampChangesCorrectTheLamp : Prop :=
  (∀ (s : State) (m : Fin 1024),
     (s.exp.flash = none → exec (.flashDone m) s = .next (settle s)) ∧
     (∀ f c g gs, s.exp.flash = some f → s.exp.cur = some c → c.groups = g :: gs →
       let e : Int := 512 - (m.val : Int)
       let c' : Int := (s.lamp.c : Int) + ((s.lamp.kp : Int) * (e - s.lamp.ePrev) + (s.lamp.ki : Int) * e).tdiv 8
       let exp : Exposer :=
         { s.exp with
           flash := none
           cur := some
             { c with
               flashed := c.flashed ++ [f.item], groups := { g with items := g.items.filter (fun j => j ≠ f.item) } :: gs } }
       let limit : Nat := if c' < 512 then 512 else 2047
       (512 ≤ c' → c' ≤ 2047 → exec (.flashDone m) s = .next (settle
         { s with exp := exp, lamp := { s.lamp with c := c'.toNat, ePrev := e, run := 0 } })) ∧
       (c' < 512 ∨ 2047 < c' →
         (s.lamp.run < 255 → s.lamp.run ≠ 63 → exec (.flashDone m) s = .next (settle
           { s with exp := exp, lamp := { s.lamp with c := limit, ePrev := e, run := s.lamp.run + 1 } })) ∧
         (s.lamp.run = 63 → hasRoom s → exec (.flashDone m) s = .next (settle
           { s with
             exp := exp, lamp := { s.lamp with c := limit, ePrev := e, run := 64 }
             line := { s.line with queue := insertFrame (.notice none (.lampWeak limit 64)) s.line.queue } })) ∧
         (255 ≤ s.lamp.run →
           let lamp : Lamp := { s.lamp with c := limit, ePrev := e, run := 256 }
           let ended : Exposer := if c.halt = none then { exp with cur := none, phase := .idle } else exp
           (s.stop.station = .run ∨ s.stop.station = .standby ∨ s.stop.station = .hold ∨ s.stop.station = .stopped →
             ∃ t, exec (.flashDone m) s = .next (settle t) ∧ t.lamp = lamp ∧ t.exp = ended ∧ faultTaken s t .lamp none) ∧
           (∀ r, s.stop.station = .fault → s.stop.clearing = false → s.stop.record = some r → hasRoom s →
             exec (.flashDone m) s = .next (settle
               { s with
                 exp := ended, lamp := lamp
                 line := { s.line with
                   queue := insertFrame (.notice r.key (.fault .lamp none r.earlier true (r.line.getD 0))) s.line.queue } })) ∧
           (s.stop.station = .halt → exec (.flashDone m) s = .next (settle { s with exp := ended, lamp := lamp })))))) ∧
  (∀ s : State,
     (exec .lampChangeSwitch s = .next (settle
       { s with lamp := { s.lamp with
         c := 1024, ePrev := 0, run := 0, phase := if s.lamp.phase = .off then .off else .warming } })) ∧
     (s.lamp.phase = .warming → exec .warmUpTimer s = .next (settle { s with lamp := { s.lamp with phase := .ready } })) ∧
     (s.lamp.phase ≠ .warming → exec .warmUpTimer s = .next (settle s)))

/-- R103, R104, R114, R132, R134, R150, R151: a movement or flash that fails in RUN, STANDBY, HOLD or STOPPED is a MECHANISM
fault: the stop record and a FAULT notice name it, with the stop it replaced, the station goes to FAULT, the ACTIVE take is
to be parked for the fault, a park in progress taking that reason, unless its end cut has been asked for, and every held take not
yet RELEASING or STRANDED bears the release mark fault, or keeps that of HALT, but for the ACTIVE take
while it is being killed, for which the request is void (R192); a line in exposure that no door has halted ends. A timeout with no such movement in progress is ignored (R130, Log 4). The mark on a take in
PROOF-HOLD is the reading of Log 43, and the end of a line in CHECKING at a failed MOUNT move that of Log 28: both are the
model's choice.
R151, R153: a movement that fails in FAULT before CLEAR's homing is a further fault: the record keeps its kind and takes the
mechanism, and a FAULT notice marked further is produced, with the record's earlier kind, key and line (the model's choice, Log
49). In HALT it changes nothing of the stop, the takes or the line. While CLEAR is homing it sends the station to HALT, its lamp
OFF, every held take to be released, and a HALT notice. -/
def Obligations.FailedMovementsAreFaults : Prop :=
  (∀ (s : State) (c : Instr),
     (∀ m, failedMechanism s c = some m → hasRoom s →
       s.stop.station = .run ∨ s.stop.station = .standby ∨ s.stop.station = .hold ∨ s.stop.station = .stopped →
       let key := s.active?.map (fun x => x.key)
       let line := s.firstUnexposed.map (fun r => r.number)
       let earlier := s.stop.record.map (fun r => r.kind)
       ∃ t, exec c s = .next (settle t) ∧ t.stop.station = .fault ∧
         t.stop.record = some
           { kind := .mechanism, key := key, line := line, font := none, door := none, mech := some m, earlier := earlier
             toHold := false, timeRaised := Config.moment s.moments, timer := false } ∧
         noticed t key (.fault .mechanism (some m) earlier false (line.getD 0)) ∧
         t.pass.map (fun q => (q.kind, q.killing, q.cutAsked, q.park)) =
           s.pass.map (fun p => (p.kind, p.killing, p.cutAsked, (faultPark p).park)) ∧
         t.takes.map (fun x => (x.key, x.state, x.release)) =
           s.takes.map (fun x => (x.key, x.state, (faultMarked s x).release)) ∧
         ((∀ q, s.film.transport ≠ .trailing q ∧ s.film.transport ≠ .cutting q) → faultTaken s t .mechanism (some m)) ∧
         t.film.remaining = s.film.remaining ∧ t.lamp = s.lamp ∧
         (c = .moveTimeout .turret → t.exp.turret = none ∧ t.exp.turretMove = none) ∧
         (c = .moveTimeout .lens → t.exp.lens = none ∧ t.exp.lensMove = none) ∧
         (c = .moveTimeout .carriage → t.exp.carriage = none ∧ t.exp.carriageMove = none) ∧
         (∀ n : Fin 8, c = .seatIndex n → t.exp.turret = some n.val ∧ t.exp.turretMove = none) ∧
         (∀ n : Fin 12, c = .lensIndex n → t.exp.lens = some n.val ∧ t.exp.lensMove = none) ∧
         (c = .flashTimeout → t.exp.flash = none) ∧ (c = .advanceTimeout → t.film.driveOk = false) ∧
         (c = .cutterTimeout → t.film.cutterOk = false) ∧
         ((∃ m, c = .moveTimeout m) ∨ c = .flashTimeout ∨ (c = .advanceTimeout ∧ s.film.transport = .advancing) →
           (∀ l, s.exp.cur = some l → l.halt = none) → t.exp.cur = none ∧ t.exp.phase = .idle)) ∧
     (failedMechanism s c = none →
       (∃ m, c = .moveTimeout m) ∨ c = .flashTimeout ∨ c = .advanceTimeout ∨ c = .cutterTimeout →
       exec c s = .next (settle s))) ∧
  (∀ (s : State) (c : Instr) (m : Mech), failedMechanism s c = some m →
     let takesStand (t : State) : Prop :=
       t.takes.map (fun x => (x.key, x.state, x.release)) = s.takes.map (fun x => (x.key, x.state, x.release)) ∧
       t.pass.map (fun p => p.park) = s.pass.map (fun p => p.park)
     (∀ r, s.stop.station = .fault → s.stop.clearing = false → s.stop.record = some r →
       ∃ t, exec c s = .next (settle t) ∧ t.stop.station = .fault ∧ t.stop.record = some { r with mech := some m } ∧
         takesStand t ∧ (hasRoom s → noticed t r.key (.fault .mechanism (some m) r.earlier true (r.line.getD 0)))) ∧
     (s.stop.station = .halt → ∃ t, exec c s = .next (settle t) ∧ t.stop.station = .halt ∧ t.stop.record = s.stop.record ∧
       takesStand t ∧ t.line = s.line ∧ t.lamp = s.lamp) ∧
     (s.stop.station = .fault → s.stop.clearing = true → ∃ t, exec c s = .next (settle t) ∧ t.stop.station = .halt ∧
       t.stop.clearing = false ∧ t.stop.record = some
         { kind := .mechanism, key := none, line := none, font := none, door := none, mech := some m, earlier := none
           toHold := false, timeRaised := Config.moment s.moments, timer := false } ∧
       t.lamp = { s.lamp with phase := .off } ∧ t.exp.homing = none ∧ (hasRoom s → noticed t none (.halt m true)) ∧
       ∀ x ∈ t.takes, x.release = some .halt ∨ x.state = .releasing ∨ x.state = .stranded ∨
         (x.state = .active ∧ ∃ p, s.pass = some p ∧ p.killing = true)))

/-- R112, R115: with every font to be flashed on a seat, the scanner's groups hold every item to be flashed exactly once and
nothing else, each in the group of its seat and its lens. The seats come in ascending number modulo 8 from the one at the path,
and the lenses of a seat, once each, in ascending number modulo 12 from the lens of the last group before it, at the first seat from
the lens in the path; an unknown position counts as 0 (the model's reading, Log 41).
R106, R108 to R111: in RUN with no stop pending an idle Exposure Sequencer begins the first unexposed line; its font check
raises FONT-CALL for the first item in order whose font is not mounted, and a line without the advanced mark, or whose
mark's galley has a cut waiting or in progress (R140; the model's reading, Log 53), takes the film check and the manifest
check; a line to be flashed waits for the lamp, which is warmed up where it is OFF; an open
photo-unit door is a DOOR stop, and the line then asks for its advance or, advanced already, enters SCANNING.
R113, R114, R123: the scanner brings the turret and the lens turret to the seat and the lens of the group in front, in
whichever order they complete, then the carriage to the step of the item in front, and then asks, with the lamp READY, for the
item's flash, of its lens's base duration scaled by the correction and held to 20..1,000 µs; a group with no item left is
passed. R115, R101, R133: with no group left the line is complete: its film-pending field is cleared, the seats it used go to
the most-recent end of the exposure list, it is the open galley's last line, and its line stop count ends (R144). Nothing is done while a door has halted the
line or a flash is in progress (R116). -/
def Obligations.ScannerTakesEachItemOnce : Prop :=
  (∀ (e : Exposer) (r : LineRecord), e.seats.length = 8 → (∀ n, e.turret = some n → n < 8) → (∀ n, e.lens = some n → n < 12) →
     (∀ i ∈ r.items, i.lens < 12) →
     (∀ i ∈ r.items, i.code ≠ 0x20 → i.absent = false → i.font ∈ e.seats) →
     let groups := scanOrder e r
     (∀ p : Nat, (groups.flatMap (fun g => g.items)).count p =
       if ∃ i, r.items[p]? = some i ∧ i.code ≠ 0x20 ∧ i.absent = false then 1 else 0) ∧
     (∀ g ∈ groups, g.items ≠ [] ∧ g.items.Pairwise (· < ·) ∧ ∀ p ∈ g.items, ∃ i, r.items[p]? = some i ∧
       i.lens = g.lens ∧ e.seats[g.seat]? = some i.font ∧ ∀ n, n < g.seat → e.seats[n]? ≠ some i.font) ∧
     (groups.map (fun g => (g.seat + 8 - e.turret.getD 0) % 8)).Pairwise (· ≤ ·) ∧
     (∀ a mid b seat, groups = a ++ mid ++ b → (∀ g ∈ a, g.seat ≠ seat) → (∀ g ∈ mid, g.seat = seat) →
       let start : Nat := a.getLast?.elim (e.lens.getD 0) (fun g => g.lens)
       (mid.map (fun g => (g.lens + 12 - start) % 12)).Pairwise (· < ·))) ∧
  (beginExposure ∈ reactions ∧ checkLine ∈ reactions ∧ goLine ∈ reactions ∧
   (∀ s : State,
     (∀ r, s.exp.phase = .idle → s.exp.cur = none → s.exp.homing = none → s.firstUnexposed = some r →
       s.stop.station = .run → s.stop.record = none → beginExposure s = some
         { s with exp := { s.exp with
           phase := .checking, mark := if s.exp.mark = some r.number then s.exp.mark else none
           cur := some { line := r.number, flashed := [], groups := [], used := [], checked := false, halt := none
                         closeGalley := false } } }) ∧
     (s.exp.phase ≠ .idle ∨ s.firstUnexposed = none ∨ s.stop.station ≠ .run ∨ s.stop.record.isSome = true →
       beginExposure s = none)) ∧
   ∀ (s : State) (c : Exposure) (r : LineRecord), s.exp.phase = .checking → exposing s c r →
     let fontsMounted : Prop := ∀ i ∈ r.items, toFlash i → i.font ∈ s.exp.seats
     let passes : State := { s with exp := { s.exp with cur := some { c with checked := true } } }
     let flashes : Prop := ∃ i ∈ r.items, toFlash i
     let closing : Prop := (∃ q : CutRequest, (s.film.transport = .trailing q ∨ s.film.transport = .cutting q) ∧ q.asker ≠ .blank) ∨
       ∃ q : CutRequest, .cut q ∈ s.film.waiting ∧ q.asker ≠ .blank
     let holds : Prop := s.exp.mark = some c.line ∧ ¬ closing
     (c.checked = false →
       (∀ a i b, r.items = a ++ i :: b → toFlash i → i.font ∉ s.exp.seats → (∀ j ∈ a, toFlash j → j.font ∈ s.exp.seats) →
         ∃ t, checkLine s = some t ∧ endsWithStop s t r .fontCall (some i.font) none ∧ t.film = s.film) ∧
       (fontsMounted → holds → checkLine s = some passes) ∧
       (fontsMounted → ¬ holds → s.film.remaining < 5 * r.leading + 1440 →
         ∃ t, checkLine s = some t ∧ endsWithStop s t r .filmOut none none ∧ t.film = s.film) ∧
       (fontsMounted → ¬ holds → 5 * r.leading + 1440 ≤ s.film.remaining →
         (s.film.galley = none → 64 ≤ s.film.manifest.length →
           ∃ t, checkLine s = some t ∧ endsWithStop s t r .takeupFull none none ∧ t.film = s.film) ∧
         (s.film.galley.isSome = true ∨ s.film.manifest.length < 64 → checkLine s = some passes))) ∧
     (c.checked = true → checkLine s = none ∧
       (flashes → s.lamp.phase = .off → goLine s = some { s with lamp := { s.lamp with phase := .warming } }) ∧
       (flashes → s.lamp.phase = .warming → goLine s = none) ∧
       (¬ flashes ∨ s.lamp.phase = .ready →
         (s.pins.photoOpen = true →
           ∃ t, goLine s = some t ∧ endsWithStop s t r .door none (some .photo) ∧ t.film = s.film) ∧
         (s.pins.photoOpen = false → holds → goLine s = some
           { s with exp := { s.exp with
             phase := .scanning, cur := some { c with flashed := [], groups := scanOrder s.exp r, used := [] } } }) ∧
         (s.pins.photoOpen = false → ¬ holds → goLine s = some
           { s with exp := { s.exp with phase := .advancing }
                    film := { s.film with waiting := s.film.waiting ++ [.advance c.line r.leading] } }))) ∧
     (c.checked = false → goLine s = none)) ∧
  (scanStep ∈ reactions ∧ (∀ s : State, s.exp.phase ≠ .scanning → scanStep s = none) ∧
   ∀ (s : State) (c : Exposure) (r : LineRecord), s.exp.phase = .scanning → exposing s c r →
     (c.halt.isSome = true ∨ s.exp.flash.isSome = true → scanStep s = none) ∧
     (c.halt = none → s.exp.flash = none →
       (c.groups = [] → scanStep s = some
         { s with
           takes := s.takes.map (fun x => if x.state == .active then { x with lineStop := none } else x)
           store := { s.store with
             records := s.store.records.map (fun y => if y.number = c.line then { y with filmPending := false } else y) }
           film := { s.film with galley := s.film.galley.map (fun g => { g with last := some c.line }) }
           exp := { lineEnded s.exp with
             order := c.used.foldl (fun o i => o.erase i ++ [i]) s.exp.order, mark := none } }) ∧
       (∀ g gs, c.groups = g :: gs →
         (g.items = [] → scanStep s = some { s with exp := { s.exp with
           cur := some { c with groups := gs, used := if g.seat ∈ c.used then c.used else c.used ++ [g.seat] } } }) ∧
         (∀ i is x, g.items = i :: is → r.items[i]? = some x →
           let step := (x.x + 24) / 48
           (s.exp.turretMove = none → s.exp.turret ≠ some g.seat →
             scanStep s = some { s with exp := { s.exp with turretMove := some g.seat } }) ∧
           (s.exp.turretMove.isSome = true ∨ s.exp.turret = some g.seat →
             (s.exp.lensMove = none → s.exp.lens ≠ some g.lens →
               scanStep s = some { s with exp := { s.exp with lensMove := some g.lens } }) ∧
             (s.exp.lensMove.isSome = true ∨ s.exp.lens = some g.lens →
               (s.exp.turretMove.isSome = true ∨ s.exp.lensMove.isSome = true ∨ s.exp.carriageMove.isSome = true →
                 scanStep s = none) ∧
               (s.exp.turretMove = none → s.exp.lensMove = none → s.exp.carriageMove = none →
                 (s.exp.carriage ≠ some step →
                   scanStep s = some { s with exp := { s.exp with carriageMove := some step } }) ∧
                 (s.exp.carriage = some step → s.lamp.phase = .ready → ∀ base, s.lamp.bases[g.lens]? = some base →
                   scanStep s = some { s with exp := { s.exp with
                     flash := some { item := i, duration := max 20 (min 1000 ((base * s.lamp.c + 512) / 1024)) } } }) ∧
                 (s.exp.carriage = some step → s.lamp.phase ≠ .ready → scanStep s = none))))))))

/-- R116, R117, R102, R145, R157, R188: opening the photo-unit door halts a line in ADVANCING or SCANNING with a DOOR stop, and
does nothing else; closing it surveys the seats, which returns takes parked for a font now mounted to QUEUED, each in its
place of the claim list and with its aging timer started, and clears a FONT-CALL stop for one, with a park in progress too; R148:
with the take-up door open over a galley a DOOR stop takes its place (Log 35). A DOOR stop that is its line's third parks the take
(R144). A line already halted is
halted by the door that came first, and its waiting advance is withdrawn (Log 26). An opening with the door open, and a closing
with it closed, is not due (Log 4).
R116, R136, R149: in every station state, after a double stop too (the model's reading, Log 27), a halted line ends its exposure once no flash, move or advance of it is in progress. With no item flashed
it is not spoiled; with one its record is, and a cut of the galley flagged with it is asked for. After a cassette-door edge the
galley is closed instead, continued-to and without a cut, flagged with the line where it is spoiled.
R143, R144: a restartable stop is taken in RUN or HOLD with no stop pending and no park in progress. It is counted against the
line it names: a count below 3 is recorded and told, and the third neither; it parks the take, PARKED for the font of a FONT-CALL,
to be released as repeated for any other kind. Only the cut of a KILL leaves no line to name (the model's choice, Log 48). A take-up
door opened with no line in ADVANCING or SCANNING raises its stop so. -/
def Obligations.PhotoUnitDoorHaltsAndSurveys : Prop :=
  (∀ (s : State) (tabs : List Nat),
     let opened : State := { s with pins := { s.pins with photoOpen := true } }
     let seats : List Nat :=
       (List.range 8).map (fun i => let c := (tabs[i]?).getD 0; if 1 ≤ c ∧ c ≤ 999 then c else 0)
     let changed : List Nat := (List.range 8).filter (fun i => decide (s.exp.seats[i]? ≠ seats[i]?))
     let order : List Nat := changed ++ s.exp.order.filter (fun i => !changed.contains i)
     let cur : Option Exposure :=
       if s.exp.phase = .checking then s.exp.cur.map (fun c => { c with checked := false }) else s.exp.cur
     (s.pins.photoOpen = true → exec .photoUnitDoorOpen s = .next (settle s)) ∧
     (s.pins.photoOpen = false →
       s.exp.cur = none ∨ (s.exp.phase ≠ .advancing ∧ s.exp.phase ≠ .scanning) ∨
         (∃ c, s.exp.cur = some c ∧ c.halt.isSome = true ∧ s.stop.record.isSome = true ∧
           ∀ l n, .advance l n ∉ s.film.waiting) →
       exec .photoUnitDoorOpen s = .next (settle opened)) ∧
     (∀ c x r, s.pins.photoOpen = false → s.exp.cur = some c → s.exp.phase = .advancing ∨ s.exp.phase = .scanning →
       mayStop s x r → hasRoom s →
       ∃ t, exec .photoUnitDoorOpen s = .next (settle t) ∧ t.pins = opened.pins ∧
         t.exp = { s.exp with cur := some { c with halt := some (c.halt.getD .photo) } } ∧
         t.film = { s.film with waiting := s.film.waiting.filter (fun q => match q with
           | .advance _ _ => false
           | .cut _ => true) } ∧ stopRecorded s t .door x r none (some .photo) ∧
         noticed t (some x.key) (.stop .door r.start.nextLine (some .photo))) ∧
     (∀ c x r, s.pins.photoOpen = false → s.exp.cur = some c → s.exp.phase = .advancing ∨ s.exp.phase = .scanning →
       thirdStopOn s x r → ∃ t, exec .photoUnitDoorOpen s = .next (settle t) ∧ t.pins = opened.pins ∧
         t.exp = { s.exp with cur := some { c with halt := some (c.halt.getD .photo) } } ∧ stopParks s t .door x r none) ∧
     (s.pins.photoOpen = false → exec (.photoUnitDoorClose tabs) s = .next (settle s)) ∧
     (s.pins.photoOpen = true → ∃ t, exec (.photoUnitDoorClose tabs) s = .next (settle t) ∧
       t.pins = { s.pins with photoOpen := false, tabs := tabs } ∧
       t.exp = { s.exp with seats := seats, order := order, cur := cur } ∧ t.film = s.film ∧
       t.takes.map (fun x => x.key) = s.takes.map (fun x => x.key) ∧
       (∀ (i : Nat) (x y : Take) (f : Nat), s.takes[i]? = some x → t.takes[i]? = some y → x.state = .parked →
         x.parkReason = some (.fontCall f) →
         (f ∈ seats → y.state = .queued ∧ y.parkReason = none ∧ y.timer = (if 0 < x.cls then some .aging else none) ∧
           y.cls = x.cls ∧ y.context = x.context ∧ y.release = x.release ∧ y.widthsReady = x.widthsReady) ∧
         (f ∉ seats → y.state = .parked ∧ y.parkReason = x.parkReason ∧ y.timer = x.timer ∧ y.context = x.context)) ∧
       (s.stop.record = none → (∀ x ∈ s.takes, x.state ≠ .parked) → t.takes = s.takes ∧ t.stop = s.stop) ∧
       (∀ r f, s.stop.station = .stopped → s.stop.record = some r → r.kind = .fontCall → r.font = some f →
         (f ∈ seats → s.pins.takeupOpen = false ∨ s.film.galley = none ∨ s.active? = none ∨
             (∃ p, s.pass = some p ∧ p.park.isSome = true) →
           t.stop = { s.stop with station := if r.toHold then .hold else .run, record := none }) ∧
         (∀ x k, f ∈ seats → s.pins.takeupOpen = true → s.film.galley.isSome = true → s.active? = some x →
           (∀ p, s.pass = some p → p.park = none) → unexposedContext s = some k → takeupReplaces s t r x k.nextLine) ∧
         (f ∉ seats → t.stop = s.stop)))) ∧
  (endHalted ∈ reactions ∧
   (∀ s : State, (∀ c, s.exp.cur = some c → c.halt = none) ∨ s.exp.flash.isSome = true ∨ s.exp.turretMove.isSome = true ∨
     s.exp.lensMove.isSome = true ∨ s.exp.carriageMove.isSome = true ∨ s.film.transport = .advancing → endHalted s = none) ∧
   ∀ (s : State) (c : Exposure), s.exp.cur = some c → c.halt.isSome = true → s.exp.flash = none → s.exp.turretMove = none →
     s.exp.lensMove = none → s.exp.carriageMove = none → s.film.transport ≠ .advancing →
     let spoiled : Option Nat := if c.flashed = [] then none else some c.line
     let store : LineStore :=
       { s.store with records := s.store.records.map (fun r => if r.number = c.line then { r with spoiled := true } else r) }
     (c.flashed = [] → c.closeGalley = false ∨ s.film.galley = none →
       endHalted s = some { s with exp := lineEnded s.exp }) ∧
     (c.flashed ≠ [] → c.closeGalley = false → ∀ g, s.film.galley = some g → endHalted s = some
       { s with
         exp := lineEnded s.exp, store := store, stop := { s.stop with spoilCut := true }
         film := { s.film with waiting := s.film.waiting ++ [.cut { asker := .spoil, spoiled := spoiled }] } }) ∧
     (c.flashed ≠ [] → s.film.galley = none → endHalted s = some
       { s with exp := lineEnded s.exp, store := store, stop := { s.stop with spoilCut := false } }) ∧
     (∀ g, c.closeGalley = true → s.film.galley = some g → endHalted s = some
       { s with
         exp := { lineEnded s.exp with mark := none }
         store := if c.flashed = [] then s.store else store
         stop := { s.stop with spoilCut := s.stop.spoilCut && decide (c.flashed = []) }
         film := { s.film with
           galley := none, nextSeq := s.film.nextSeq.map (fun _ => min 65535 (g.seq + 1))
           manifest := s.film.manifest ++ [{ g with flags := { g.flags with continuedTo := true, spoiled := spoiled } }] }
         takes := s.takes.map (fun x => if x.key == g.key then
           { x with counters := { x.counters with
             galleys := min 65535 (x.counters.galleys + 1), filmUsed := min 16777215 (x.counters.filmUsed + g.length) } }
           else x) })) ∧
  (∀ s : State,
     let taken : Prop := (s.stop.station = .run ∨ s.stop.station = .hold) ∧ s.stop.record = none ∧
       ∀ p, s.pass = some p → p.park = none
     (s.pins.takeupOpen = false → s.film.galley.isSome = true →
       s.exp.cur = none ∨ (s.exp.phase ≠ .advancing ∧ s.exp.phase ≠ .scanning) → exec .takeupDoorOpen s = .next (settle
         (raiseStop { s with pins := { s.pins with takeupOpen := true } } .door none (some .takeup)))) ∧
     ∀ (kind : StopKind) (font : Option Nat) (door : Option Door),
       let t := raiseStop s kind font door
       let stands (x : Take) (line : Option Nat) : StopControl :=
         { s.stop with
           station := .stopped
           record := some
             { kind := kind, key := some x.key, line := line, font := font, door := door, mech := none, earlier := none
               toHold := decide (s.stop.station = .hold), timeRaised := Config.moment s.moments
               timer := decide (kind = .fontCall) || decide (kind = .filmOut) } }
       let told (line : Nat) : NoticeBody := match kind with
         | .fontCall => .fontCall line (font.getD 0)
         | k => .stop k line door
       (¬ taken ∨ s.active? = none → t = s) ∧
       (∀ x, taken → s.active? = some x →
         (∀ c, unexposedContext s = some c →
           (nextStopCount x c.nextLine < 3 → t.stop = stands x (some c.nextLine) ∧ t.takes = stopCounted s x c.nextLine ∧
             t.pass = s.pass ∧ t.exp = s.exp ∧ t.film = s.film ∧ (hasRoom s → noticed t (some x.key) (told c.nextLine))) ∧
           (3 ≤ nextStopCount x c.nextLine → t =
             { s with takes := stopCounted s x c.nextLine, pass := s.pass.map (passParked (thirdReason kind font)) })) ∧
         (unexposedContext s = none → t.stop = stands x none ∧ t.takes = s.takes ∧ t.pass = s.pass ∧
           (hasRoom s → noticed t (some x.key) (told 0)))))

/-! ### Film -/

/-- R132, R134, R111, R133, R137: advance-done marks the line advanced and sends it to its scanner, or takes a cut from its
trailer to the cutter, or, with the cutter unusable, ends the cut there, its galley uncut. The cut event ends the cut too. A cut
that ends closes the open galley, flagged as its asker has it (R135), at the end of the manifest, tells its asker, and the
galley's whole length goes to its take's film used, also where the operator asked for the cut, whose trailer it holds (the
model's choice, Log 64); a blank cut closes nothing. With no such movement in progress either event is ignored.
R130 to R134, R129: Film Transport, idle, begins the first waiting request. An advance is refused where the film check
fails, where a galley would open under an open take-up door or over a full manifest, or without its drive, and nothing
moves; else it moves 5 steps a half-point in the open galley, or in one it opens, numbered next and continued-from at 2 or
more, whose number the composition context takes (R16). A count that falls below 57,000 with the low-notified flag clear gives a
FILM-LOW notice, in HALT too (the model's reading, Log 33), and sets the flag. Of the refusals that hold together, the film
check's comes first, then the take-up door's, the full manifest's and the missing drive's: R131 gives them no order, and this
one is the model's choice (Log 38). A cut moves its trailer, goes to the cutter, or closes the galley uncut with neither
usable. -/
def Obligations.FilmMovementsComplete : Prop :=
  (∀ s : State,
     (∀ c r, s.film.transport = .advancing → s.exp.phase = .advancing → s.exp.cur = some c → c.halt = none →
       s.store.records.find? (fun x => x.number == c.line) = some r → exec .advanceDone s = .next (settle
         { s with
           film := { s.film with transport := .idle }
           exp := { s.exp with
             mark := some c.line, phase := .scanning
             cur := some { c with flashed := [], groups := scanOrder s.exp r, used := [] } } })) ∧
     (∀ c, s.film.transport = .advancing → s.exp.phase = .advancing → s.exp.cur = some c → c.halt.isSome = true →
       exec .advanceDone s = .next (settle
         { s with film := { s.film with transport := .idle }, exp := { s.exp with mark := some c.line } })) ∧
     (s.film.transport ≠ .advancing → (∀ c, s.film.transport ≠ .trailing c) → exec .advanceDone s = .next (settle s)) ∧
     ((∀ c, s.film.transport ≠ .cutting c) → exec .cutEvent s = .next (settle s)) ∧
     ∀ c : CutRequest,
       (s.film.transport = .trailing c → s.film.cutterOk = true → exec .advanceDone s = .next (settle
         { s with film := { s.film with transport := .cutting c } })) ∧
       ∀ (event : Instr) (uncut : Bool),
         (event = .advanceDone ∧ s.film.transport = .trailing c ∧ s.film.cutterOk = false ∧ uncut = true) ∨
           (event = .cutEvent ∧ s.film.transport = .cutting c ∧ uncut = false) →
         (∀ g, c.asker ≠ .blank → s.film.galley = some g → exec event s = .next (settle (galleyCut s c g uncut))) ∧
         (c.asker = .blank ∨ s.film.galley = none → exec event s = .next (settle (cutTold s c)))) ∧
  (serveFilm ∈ reactions ∧
   (∀ s : State, s.film.transport ≠ .idle ∨ s.film.waiting = [] → serveFilm s = none) ∧
   (∀ (s : State) (c : Exposure) (r : LineRecord) (x : Take) (l : Nat) (q : List FilmRequest), s.film.transport = .idle →
     s.film.waiting = .advance r.number l :: q → s.exp.phase = .advancing → exposing s c r → c.halt = none →
     s.active? = some x →
     let opens : Prop := s.film.galley = none
     let rest : Film := { s.film with waiting := q }
     let galley : Galley := s.film.galley.getD
       { key := x.key, seq := s.film.nextSeq.getD 1, first := r.number, last := none, length := 0
         flags := { complete := false, continuedFrom := decide (2 ≤ s.film.nextSeq.getD 1), continuedTo := false
                    spoiled := none, killed := false, reset := false, uncut := false } }
     let comp : Compositor := if s.film.galley.isSome then s.comp
       else { s.comp with ctx := s.comp.ctx.map (fun y => { y with galleySeq := galley.seq }) }
     (s.film.remaining < 5 * l + 1440 →
       ∃ t, serveFilm s = some t ∧ endsWithStop s t r .filmOut none none ∧ t.film = rest) ∧
     (5 * l + 1440 ≤ s.film.remaining →
       (opens → s.pins.takeupOpen = true →
         ∃ t, serveFilm s = some t ∧ endsWithStop s t r .door none (some .takeup) ∧ t.film = rest) ∧
       (opens → s.pins.takeupOpen = false → 64 ≤ s.film.manifest.length →
         ∃ t, serveFilm s = some t ∧ endsWithStop s t r .takeupFull none none ∧ t.film = rest) ∧
       (¬ opens ∨ (s.pins.takeupOpen = false ∧ s.film.manifest.length < 64) →
         (s.film.driveOk = false → s.stop.station = .run ∨ s.stop.station = .hold ∨ s.stop.station = .stopped →
           ∃ t k, serveFilm s = some t ∧ t.film = rest ∧ t.exp = lineEnded s.exp ∧ t.stop.station = .fault ∧
             t.stop.record = some k ∧ k.kind = .mechanism ∧ k.mech = some .film) ∧
         (s.film.driveOk = true → 0 < l → ∃ t, serveFilm s = some t ∧ t.exp = s.exp ∧ t.comp = comp ∧
           (s.film.remaining - 5 * l < 57000 → s.film.lowNotified = false → hasRoom s →
             t.line = { s.line with
               queue := insertFrame (.notice (some x.key) (.filmLow (s.film.remaining - 5 * l) s.film.known)) s.line.queue }) ∧
           (57000 ≤ s.film.remaining - 5 * l ∨ s.film.lowNotified = true → t.line = s.line) ∧ t.film =
           { rest with
             remaining := s.film.remaining - 5 * l, galley := some { galley with length := galley.length + 5 * l }
             transport := .advancing
             lowNotified := s.film.lowNotified || decide (s.film.remaining - 5 * l < 57000) }) ∧
         (s.film.driveOk = true → l = 0 → serveFilm s = some
           { s with
             film := { rest with galley := some galley }, comp := comp
             exp := { s.exp with
               mark := some c.line, phase := .scanning
               cur := some { c with flashed := [], groups := scanOrder s.exp r, used := [] } } })))) ∧
   (∀ (s : State) (c : CutRequest) (q : List FilmRequest), s.film.transport = .idle → s.film.waiting = .cut c :: q →
     let rest : Film := { s.film with waiting := q }
     (s.film.galley = none → c.asker ≠ .blank → ∃ t, serveFilm s = some t ∧ t.film = rest ∧
       (c.asker ∈ [CutAsker.endCut, .park, .kill] → t.pass = s.pass.map (fun p => { p with cutDone := true })) ∧
       (c.asker = .spoil → t.stop = { s.stop with spoilCut := false })) ∧
     (s.film.galley.isSome = true ∨ c.asker = .blank →
       (s.film.driveOk = true → 0 < s.film.remaining → ∃ t, serveFilm s = some t ∧
         (s.film.remaining - 1440 < 57000 → s.film.lowNotified = false → hasRoom s →
           t.line = { s.line with
             queue := insertFrame (.notice (s.active?.map (fun x => x.key))
               (.filmLow (s.film.remaining - 1440) s.film.known)) s.line.queue }) ∧
         (57000 ≤ s.film.remaining - 1440 ∨ s.film.lowNotified = true → t.line = s.line) ∧ t.film =
         { rest with
           remaining := s.film.remaining - 1440
           galley := s.film.galley.map (fun g => { g with length := g.length + min 1440 s.film.remaining })
           transport := .trailing c, lowNotified := s.film.lowNotified || decide (s.film.remaining - 1440 < 57000) }) ∧
       (s.film.driveOk = false ∨ s.film.remaining = 0 → s.film.cutterOk = true →
         serveFilm s = some { s with film := { rest with transport := .cutting c } }) ∧
       (s.film.driveOk = false ∨ s.film.remaining = 0 → s.film.cutterOk = false →
         (∀ g, s.film.galley = some g → c.asker ≠ .blank → serveFilm s = some (galleyCut { s with film := rest } c g true)) ∧
         (c.asker = .blank → serveFilm s = some { s with film := rest })))))

/-- R136, R128, R129, R139, R146: opening the cassette door closes an open galley at once, continued-to and without a cut, a line
in CHECKING then taking its checks again (R111), or as the line it halts ends, or leaves the closing to the cut in progress, with a line halted too (Log 26); with no galley open
it changes nothing; closing it sets the film remaining by its code, known, gives a FILM-LOW notice at code 0 (in the start-up
after power-on too: the model's choice, Log 54), and clears a FILM-OUT stop at any other; R148: with the take-up door open over a
galley a DOOR stop takes the cleared one's place (Log 35). A DOOR stop that is its line's third parks the take (R144). That the load clears the stop with
the park after its timer's expiry still in progress is the model's choice, Log 50; so is it that an opening with the door
open, or a closing with it closed, does nothing, Log 4.
R138, R148, R116: opening the take-up door with no galley open begins a removal, and with one open raises a DOOR stop, which
halts a line in ADVANCING or SCANNING and leaves a line in CHECKING as it is, and parks the take as its line's third (R144); closing it
after a removal produces the manifest, 16 records to a notice, empties it, and clears a TAKEUP-FULL stop; closing it
with no removal changes nothing. The FILM-LOW and the MANIFEST are produced in HALT too (the model's reading, Log 33). -/
def Obligations.FilmDoorsActOnGalleyAndManifest : Prop :=
  (∀ (s : State) (code : Fin 4),
     let steps : Nat := if code = 0 then 0 else if code = 1 then 850000 else if code = 2 then 1275000 else 1700000
     (s.pins.cassetteOpen = true → exec .cassetteDoorOpen s = .next (settle s)) ∧
     (s.pins.cassetteOpen = false → s.film.galley = none → exec .cassetteDoorOpen s = .next (settle
       { s with pins := { s.pins with cassetteOpen := true } })) ∧
     (∀ g, s.pins.cassetteOpen = false → s.film.galley = some g →
       s.exp.cur = none ∨ (s.exp.phase ≠ .advancing ∧ s.exp.phase ≠ .scanning) →
       (∀ c, s.film.transport ≠ .trailing c ∧ s.film.transport ≠ .cutting c) → exec .cassetteDoorOpen s = .next (settle
         { s with
           pins := { s.pins with cassetteOpen := true }
           film := { s.film with
             galley := none, nextSeq := s.film.nextSeq.map (fun _ => min 65535 (g.seq + 1))
             manifest := s.film.manifest ++ [{ g with flags := { g.flags with continuedTo := true } }] }
           exp := { s.exp with mark := none, cur := s.exp.cur.map (fun c => { c with checked := false }) }
           takes := s.takes.map (fun x => if x.key == g.key then
             { x with counters := { x.counters with
               galleys := min 65535 (x.counters.galleys + 1), filmUsed := min 16777215 (x.counters.filmUsed + g.length) } }
             else x) })) ∧
     (∀ g c, s.pins.cassetteOpen = false → s.film.galley = some g →
       s.exp.cur = none ∨ (s.exp.phase ≠ .advancing ∧ s.exp.phase ≠ .scanning) →
       (s.film.transport = .trailing c ∨ s.film.transport = .cutting c) → c.asker ≠ .blank →
       exec .cassetteDoorOpen s = .next (settle { s with pins := { s.pins with cassetteOpen := true } })) ∧
     (∀ g c x r, s.pins.cassetteOpen = false → s.film.galley = some g → s.exp.cur = some c →
       s.exp.phase = .advancing ∨ s.exp.phase = .scanning → mayStop s x r → hasRoom s →
       ∃ t d, exec .cassetteDoorOpen s = .next (settle t) ∧ t.film.galley = some g ∧ t.film.manifest = s.film.manifest ∧
         t.exp = { s.exp with cur := some { c with halt := some (c.halt.getD .cassette), closeGalley := d } } ∧
         ((∀ k, s.film.transport = .trailing k ∨ s.film.transport = .cutting k → k.asker = .blank) → d = true) ∧
         (∀ k, s.film.transport = .trailing k ∨ s.film.transport = .cutting k → k.asker ≠ .blank → d = c.closeGalley) ∧
         stopRecorded s t .door x r none (some .cassette) ∧
         noticed t (some x.key) (.stop .door r.start.nextLine (some .cassette))) ∧
     (∀ g c x r, s.pins.cassetteOpen = false → s.film.galley = some g → s.exp.cur = some c →
       s.exp.phase = .advancing ∨ s.exp.phase = .scanning → thirdStopOn s x r →
       ∃ t, exec .cassetteDoorOpen s = .next (settle t) ∧ t.film.galley = some g ∧ stopParks s t .door x r none) ∧
     (s.pins.cassetteOpen = false → exec (.cassetteDoorClose code) s = .next (settle s)) ∧
     (s.pins.cassetteOpen = true → code ≠ 0 → (∀ r, s.stop.record = some r → r.kind ≠ .filmOut) →
       exec (.cassetteDoorClose code) s = .next (settle
         { s with
           pins := { s.pins with cassetteOpen := false, cassette := code }
           film := { s.film with remaining := steps, known := true, lowNotified := false } })) ∧
     (s.pins.cassetteOpen = true → code = 0 → hasRoom s →
       exec (.cassetteDoorClose code) s = .next (settle
         { s with
           pins := { s.pins with cassetteOpen := false, cassette := 0 }
           film := { s.film with remaining := 0, known := true, lowNotified := true }
           line := { s.line with
             queue := insertFrame (.notice (s.active?.map (fun x => x.key)) (.filmLow 0 true)) s.line.queue } })) ∧
     (∀ r, s.pins.cassetteOpen = true → code ≠ 0 → s.stop.station = .stopped → s.stop.record = some r → r.kind = .filmOut →
       ∃ t, exec (.cassetteDoorClose code) s = .next (settle t) ∧ t.film.remaining = steps ∧ t.film.known = true ∧
         (s.pins.takeupOpen = false ∨ s.film.galley = none ∨ s.active? = none ∨
             (∃ p, s.pass = some p ∧ p.park.isSome = true) →
           t.stop = { s.stop with station := if r.toHold then .hold else .run, record := none }) ∧
         (∀ x k, s.pins.takeupOpen = true → s.film.galley.isSome = true → s.active? = some x →
           (∀ p, s.pass = some p → p.park = none) → unexposedContext s = some k → takeupReplaces s t r x k.nextLine))) ∧
  (∀ s : State,
     (s.pins.takeupOpen = true → exec .takeupDoorOpen s = .next (settle s)) ∧
     (s.pins.takeupOpen = false → s.film.galley = none → exec .takeupDoorOpen s = .next (settle
       { s with pins := { s.pins with takeupOpen := true }, film := { s.film with removal := true } })) ∧
     (∀ x r, s.pins.takeupOpen = false → s.film.galley.isSome = true →
       s.exp.cur = none ∨ (s.exp.phase ≠ .advancing ∧ s.exp.phase ≠ .scanning) → mayStop s x r → hasRoom s →
       ∃ t, exec .takeupDoorOpen s = .next (settle t) ∧ t.film = s.film ∧ t.exp = s.exp ∧
         stopRecorded s t .door x r none (some .takeup) ∧
         noticed t (some x.key) (.stop .door r.start.nextLine (some .takeup))) ∧
     (∀ c x r, s.pins.takeupOpen = false → s.film.galley.isSome = true → s.exp.cur = some c →
       s.exp.phase = .advancing ∨ s.exp.phase = .scanning → mayStop s x r → hasRoom s →
       ∃ t, exec .takeupDoorOpen s = .next (settle t) ∧ t.pins = { s.pins with takeupOpen := true } ∧
         t.exp = { s.exp with cur := some { c with halt := some (c.halt.getD .takeup) } } ∧
         t.film = { s.film with waiting := s.film.waiting.filter (fun q => match q with
           | .advance _ _ => false
           | .cut _ => true) } ∧ stopRecorded s t .door x r none (some .takeup) ∧
         noticed t (some x.key) (.stop .door r.start.nextLine (some .takeup))) ∧
     (∀ x r, s.pins.takeupOpen = false → s.film.galley.isSome = true → thirdStopOn s x r →
       ∃ t, exec .takeupDoorOpen s = .next (settle t) ∧ t.pins = { s.pins with takeupOpen := true } ∧
         stopParks s t .door x r none) ∧
     (∀ c, s.pins.takeupOpen = false → s.film.galley.isSome = true → s.exp.cur = some c → c.halt.isSome = true →
       s.exp.phase = .advancing ∨ s.exp.phase = .scanning → s.stop.record.isSome = true →
       (∀ l n, .advance l n ∉ s.film.waiting) → exec .takeupDoorOpen s = .next (settle
         { s with pins := { s.pins with takeupOpen := true } })) ∧
     (s.pins.takeupOpen = false → exec .takeupDoorClose s = .next (settle s)) ∧
     (s.pins.takeupOpen = true → s.film.removal = false → exec .takeupDoorClose s = .next (settle
       { s with pins := { s.pins with takeupOpen := false } })) ∧
     (s.pins.takeupOpen = true → s.film.removal = true → s.film.manifest.length ≤ 16 → hasRoom s →
       (∀ r, s.stop.record = some r → r.kind ≠ .takeupFull) → exec .takeupDoorClose s = .next (settle
         { s with
           pins := { s.pins with takeupOpen := false }
           film := { s.film with manifest := [], removal := false }
           line := { s.line with queue := insertFrame (.notice none (.manifest 1 1 s.film.manifest)) s.line.queue } })) ∧
     (s.pins.takeupOpen = true → s.film.removal = true → 16 < s.film.manifest.length → s.film.manifest.length ≤ 64 →
       s.line.mute = false → s.line.queue = [] → s.line.waiting = [] →
       ∃ t, exec .takeupDoorClose s = .next (settle t) ∧ t.film = { s.film with manifest := [], removal := false } ∧
         let total := (s.film.manifest.length + 15) / 16
         t.line.queue = (List.range total).map (fun i =>
           { frame := .notice none (.manifest (i + 1) total ((s.film.manifest.drop (16 * i)).take 16)), begun := false })) ∧
     (∀ r, s.pins.takeupOpen = true → s.film.removal = true → s.stop.station = .stopped → s.stop.record = some r →
       r.kind = .takeupFull → ∃ t, exec .takeupDoorClose s = .next (settle t) ∧
         t.film = { s.film with manifest := [], removal := false } ∧
         t.stop = { s.stop with station := if r.toHold then .hold else .run, record := none }))

/-- R145, R146: the font-call timer asks for a park of the ACTIVE take for its font, and the film-out timer for a park and
for the release of the ACTIVE and the QUEUED takes; each runs only while its stop is pending, and at any other time its
event is not due (Log 4).
R84, R155, R156, R157: once no line is in exposure the store answers a park with the start context of the first unexposed
line; the Compositor goes to IDLE at that moment, and not when the park is asked for (the model's reading, Log 25), the store is
emptied and a cut asked for, or, in a PROOF pass, no cut and no context;
with the cut done the context goes to the take, its galley sequence the next one, with a TAKE-PARKED notice, which after a PROOF
pass carries the values of the take's record as they came (the model's choice, Log 62), and which is produced in HALT too (the
model's reading, Log 33). A pending stop that names the take is cleared and the station leaves STOPPED, but for a FILM-OUT stop
at its expiry, which is kept without a take; a fault record stays. In each of these cases the take
is PARKED for a font not mounted and QUEUED in any other case, to be released after a repeated stop. R86: lines exposed and not
proofed make the proof state partial as a FILM pass is parked. -/
def Obligations.StopTimersParkTheTake : Prop :=
  (∀ s : State,
     (∀ r p f, s.stop.station = .stopped → s.stop.record = some r → r.kind = .fontCall → r.timer = true → r.font = some f →
       s.pass = some p → p.killing = false → p.park = none → p.cutAsked = false → exec .fontCallTimer s = .next (settle
         { s with
           stop := { s.stop with record := some { r with timer := false } }
           pass := some { p with park := some { reason := .fontCall f, answered := false, context := none } } })) ∧
     (∀ r p, s.stop.station = .stopped → s.stop.record = some r → r.kind = .filmOut → r.timer = true →
       s.pass = some p → p.killing = false → p.park = none → p.cutAsked = false →
       ∃ t, exec .filmOutTimer s = .next (settle t) ∧
         t.stop = { s.stop with record := some { r with timer := false } } ∧
         t.pass = some { p with park := some { reason := .filmOut, answered := false, context := none } } ∧
         t.takes.length = s.takes.length ∧
         ∀ (i : Nat) (x y : Take), s.takes[i]? = some x → t.takes[i]? = some y →
           (x.state = .active ∨ x.state = .queued → y.release.isSome = true ∧ y.state = x.state) ∧
           (x.state ≠ .active → x.state ≠ .queued → y = x)) ∧
     ((∀ r, s.stop.record = some r → r.kind ≠ .fontCall ∨ r.timer = false) ∨ s.stop.station ≠ .stopped →
       exec .fontCallTimer s = .next (settle s)) ∧
     ((∀ r, s.stop.record = some r → r.kind ≠ .filmOut ∨ r.timer = false) ∨ s.stop.station ≠ .stopped →
       exec .filmOutTimer s = .next (settle s))) ∧
  (parkAnswer ∈ reactions ∧ parkFinish ∈ reactions ∧
   ∀ (s : State) (p : Pass) (q : Park), s.pass = some p → p.park = some q →
     let unproofed (r : LineRecord) : Prop := r.filmPending = false ∧ r.proofPending = true
     (q.answered = false → s.exp.cur = none →
       (p.kind = .film → ∃ t, parkAnswer s = some t ∧ t.comp = idleCompositor ∧ t.store = { records := [], marker := none } ∧
         t.pass = some { p with cutAsked := true, cutDone := p.cutDone || s.film.galley.isNone
                                park := some { q with answered := true, context := unexposedContext s } } ∧
         t.film = (if s.film.galley = none then s.film
           else { s.film with waiting := s.film.waiting ++ [.cut { asker := .park, spoiled := none }] }) ∧
         t.exp = { s.exp with mark := none } ∧
         ((∀ r ∈ s.store.records, ¬ unproofed r) → t.takes = s.takes) ∧
         (∀ r ∈ s.store.records, unproofed r → (∀ z ∈ s.store.records, unproofed z → r.number ≤ z.number) →
           t.takes = s.takes.map (fun y => if y.state == .active then
             { y with proofState := match y.proofState with
                 | .complete => .partialFrom r.number
                 | .partialFrom n => .partialFrom (min n r.number)
                 | .none => .none } else y))) ∧
       (p.kind = .proof → ∃ t, parkAnswer s = some t ∧ t.comp = idleCompositor ∧
         t.store = { records := [], marker := none } ∧ t.film = s.film ∧
         t.pass = some { p with cutDone := true, park := some { q with answered := true } } ∧
         t.takes = s.takes.map (fun y =>
           if y.state == .active then { y with proofState := .none, startValues := none } else y))) ∧
     (q.answered = true ∨ s.exp.cur.isSome = true → parkAnswer s = none) ∧
     (∀ x, s.active? = some x → q.answered = true → p.cutDone = true →
       let context : Option Context := match p.kind with
         | .film => q.context.map (fun c => { c with galleySeq := s.film.nextSeq.getD 1 })
         | .proof => x.context
       let at' : Nat × Nat := context.elim (1, 1) (fun c => (c.nextLine, c.galleySeq))
       let parked (y : Take) : Take :=
         { y with context := context, lineStop := none, state := .parked, parkReason := some q.reason, timer := none }
       let queued (y : Take) : Take :=
         { parked y with state := .queued, parkReason := none, timer := if 0 < y.cls then some .aging else none }
       let becomes (y : Take) : Take := match q.reason with
         | .fontCall f => if f ∈ s.exp.seats then queued y else parked y
         | .repeated => { queued y with release := y.release.or (some .repeated) }
         | .filmOut => queued y
         | .fault => queued y
       let takes : List Take := s.takes.map (fun y => if y.key == x.key then becomes y else y)
       let kept (r : StopRecord) : Prop := r.kind = .filmOut ∧ r.timer = false
       ∃ t, parkFinish s = some t ∧ t.pass = none ∧ t.film = { s.film with nextSeq := none } ∧ t.exp = s.exp ∧
         (hasRoom s → noticed t (some x.key) (.takeParked q.reason at'.1 at'.2)) ∧
         (s.stop.station ≠ .standby →
           (s.stop.record = none → t.stop = s.stop ∧ t.takes = takes) ∧
           (∀ r, s.stop.record = some r →
             (kept r → t.stop = { s.stop with record := some { r with key := none, line := none } } ∧ t.takes = takes) ∧
             (¬ kept r → s.stop.station ≠ .stopped ∨ r.key ≠ some x.key → t.stop = s.stop ∧ t.takes = takes) ∧
             (¬ kept r → s.stop.station = .stopped → r.key = some x.key →
               (r.toHold = true → r.kind ≠ .door →
                 t.stop = { s.stop with station := .hold, record := none } ∧ t.takes = takes) ∧
               (r.toHold = false ∨ r.kind = .door →
                 t.stop = { s.stop with station := .run, record := none } ∧ t.takes.length = s.takes.length ∧
                 ∀ (i : Nat) (y z : Take), s.takes[i]? = some y → t.takes[i]? = some z →
                   let gone : Prop := strandReasonGone { s with stop := { s.stop with station := .run, record := none } } y
                   (y.key = x.key → z = becomes y) ∧
                   (y.key ≠ x.key → (y.state = .stranded → gone → z = returned s y) ∧
                     (y.state ≠ .stranded ∨ ¬ gone → z = y))))))) ∧
     (q.answered = false ∨ p.cutDone = false → parkFinish s = none))

/-! ### Proofs -/

/-- R87, R89: the Proof Port, in every state but START and HALT and with paper, takes the first record with proof-pending set
once it has nothing left to send: first 0x0D 0x0A where the line-open flag is set, then the pass's header where the marker is
set, then the line. With BUSY released it begins the next character, and the line-open flag is set as one of a header or a
line is begun (the model's reading, Log 34). Both are reactions that `settle` runs.
R90 to R92, R87: a proof line is its flag letters in five columns, its number in four, a blank, and the text of its items,
a long one cut to 121 columns and '>'; a header is TAKE, the key, the pass, the station and the class. Either is sent to its
last column that is not blank, and then 0x0D 0x0A. In the text a character box whose font differs from that of the nearest one
before it has '^' before it, an added hyphen after a fixed space of another font too (the model's choice, Log 56).
R87, R89, R92: a character goes out as a start bit, its 8 bits the lowest first, and a stop bit; the end of one frees the
port for the next; the last of a line cut short, of a header or of a proof line closes the line, a header's clearing the
header marker and a proof line's its record's proof-pending. With no such character in flight neither event is due
(Log 4).
R88, R93, R94: paper gone, or a BUSY stall, begins the paper-out condition: a PROOF-PAPER notice, in HALT too (the model's
reading, Log 33); in a FILM pass every
record's proof is dropped and the proof state goes partial; in a PROOF pass the paper timer starts, and at its end the pass
is abandoned, the store emptied and what the port has not sent discarded (R85, R89). The condition ends when neither holds. What the port does with the characters of an earlier pass is Log 46; a
stall or timer event that is not due changes nothing (Log 4). -/
def Obligations.ProofIsSentHeldOrDropped : Prop :=
  (takeLine ∈ reactions ∧ beginChar ∈ reactions ∧
   ∀ s : State,
     let open' : Prop := s.stop.station ≠ .start ∧ s.stop.station ≠ .halt ∧ s.pins.paper = true ∧ s.proof.stall = false
     (¬ open' ∨ s.proof.segs ≠ [] ∨ s.proof.inFlight.isSome = true ∨ (∀ r ∈ s.store.records, r.proofPending = false) ∨
       s.active? = none → takeLine s = none) ∧
     (∀ a r b x, open' → s.proof.segs = [] → s.proof.inFlight = none → s.store.records = a ++ r :: b →
       (∀ y ∈ a, y.proofPending = false) → r.proofPending = true → s.active? = some x → takeLine s = some
         { s with proof := { s.proof with
           segs := (if s.proof.lineOpen = true then [{ kind := .close, chars := [0x0D, 0x0A] }] else []) ++
             (s.store.marker.map (fun k => ({ kind := .header, chars := renderHeader k x s.number } : ProofSeg))).toList ++
             [{ kind := .line r.number, chars := renderLine (x.fonts.headD 0) r }]
           kind := s.pass.elim .film (fun p => p.kind), attached := true } }) ∧
     (¬ open' ∨ s.pins.busy = true ∨ s.proof.inFlight.isSome = true ∨ s.proof.segs = [] → beginChar s = none) ∧
     (∀ k c cs rest, open' → s.pins.busy = false → s.proof.inFlight = none →
       s.proof.segs = { kind := k, chars := c :: cs } :: rest → beginChar s = some
         { s with proof := { s.proof with
           inFlight := some { char := c, ends := if cs = [] then some k else none }
           segs := if cs = [] then rest else { kind := k, chars := cs } :: rest
           lineOpen := s.proof.lineOpen || decide (k ≠ .close) } })) ∧
  ((∀ (first : Nat) (r : LineRecord),
     let letters : List Nat :=
       [(r.flags.hyphenated, 0x48), (r.flags.loose, 0x4C), (r.flags.letterspaced, 0x53), (r.flags.overset, 0x4F),
         (r.flags.absentPresent, 0x41), (r.flags.substituted, 0x5A)].filterMap (fun p => if p.1 = true then some p.2 else none)
     let number : List Nat := (List.range 4).map (fun i =>
       let d := r.number / 10 ^ (3 - i)
       if d = 0 ∧ i < 3 then 0x20 else 0x30 + d % 10)
     let text := renderItems first r.items
     let columns := letters ++ List.replicate (5 - letters.length) 0x20 ++ number ++ [0x20] ++
       (if text.length ≤ 122 then text else text.take 121 ++ [0x3E])
     ∃ (sent : List Nat) (blanks : Nat), renderLine first r = sent ++ [0x0D, 0x0A] ∧
       columns = sent ++ List.replicate blanks 0x20 ∧ sent.getLast? ≠ some 0x20) ∧
   (∀ (font : Nat) (i : LineItem) (l : List LineItem), renderItems font [] = [] ∧
     (i.code = 0x20 → renderItems font (i :: l) = 0x20 :: renderItems font l) ∧
     (i.code ≠ 0x20 → renderItems font (i :: l) = (if i.font = font then [] else [0x5E]) ++
       (if i.absent = true then 0x3F else if i.code ≤ 0x7E then i.code else 0x2A) :: renderItems i.font l)) ∧
   (∀ (k : HeaderKind) (x : Take) (station : Nat),
     let decimal (places n : Nat) : List Nat := (List.range places).map (fun i => 0x30 + n / 10 ^ (places - 1 - i) % 10)
     let name : List Nat := match k with
       | .film => [0x46, 0x49, 0x4C, 0x4D]
       | .proof => [0x50, 0x52, 0x4F, 0x4F, 0x46]
       | .reproof => [0x52, 0x45, 0x50, 0x52, 0x4F, 0x4F, 0x46]
       | .resumed => [0x52, 0x45, 0x53, 0x55, 0x4D, 0x45, 0x44]
     renderHeader k x station = [0x54, 0x41, 0x4B, 0x45, 0x20] ++ decimal 2 x.key.origin ++ [0x2D] ++
       decimal 5 x.key.number ++ [0x20] ++ name ++ [0x20, 0x53, 0x54, 0x4E, 0x20] ++ decimal 2 station ++
       [0x20, 0x43, 0x4C, 0x41, 0x53, 0x53, 0x20] ++ decimal 1 x.cls ++ [0x0D, 0x0A])) ∧
  (∀ s : State,
     (∀ c, s.proof.inFlight = some { char := c, ends := none } → exec .proofCharacterSent s = .next (settle
       { s with proof := { s.proof with inFlight := none } }) ∧ exec .proofLineSent s = .next (settle s)) ∧
     (∀ c, s.proof.inFlight = some { char := c, ends := some .close } → exec .proofCharacterSent s = .next (settle
       { s with proof := { s.proof with inFlight := none, lineOpen := false } }) ∧
       exec .proofLineSent s = .next (settle s)) ∧
     (∀ c, s.proof.inFlight = some { char := c, ends := some .header } → exec .proofLineSent s = .next (settle
       { s with
         proof := { s.proof with inFlight := none, lineOpen := false }
         store := { s.store with marker := if s.proof.attached then none else s.store.marker } }) ∧
       exec .proofCharacterSent s = .next (settle s)) ∧
     (∀ c n, s.proof.inFlight = some { char := c, ends := some (.line n) } → exec .proofLineSent s = .next (settle
       { s with
         proof := { s.proof with inFlight := none, lineOpen := false, attached := false }
         store := { s.store with records := s.store.records.map (fun r =>
           if r.number = n ∧ s.proof.attached = true then { r with proofPending := false } else r) } }) ∧
       exec .proofCharacterSent s = .next (settle s)) ∧
     (s.proof.inFlight = none → exec .proofLineSent s = .next (settle s) ∧ exec .proofCharacterSent s = .next (settle s)) ∧
     (∀ c : Nat, (serialFrame c).length = 10 ∧ (serialFrame c)[0]? = some .start ∧ (serialFrame c)[9]? = some .stop ∧
       ∀ i, i < 8 → (serialFrame c)[i + 1]? = some (.data (c.testBit i)))) ∧
  (∀ s : State,
     let gone (c : Instr) (t : State) : Prop := s.pins.paper = true ∧ s.proof.stall = false ∧
       ((c = .paper false ∧ t = { s with pins := { s.pins with paper := false } }) ∨
        (c = .busyStall ∧ s.pins.busy = true ∧ s.proof.segs ≠ [] ∧ t = { s with proof := { s.proof with stall := true } }))
     (∀ c u, gone c u → hasRoom s → s.pass = none → s.active? = none → s.proof.kind = .proof →
       exec c s = .next (settle
         { u with line := { s.line with queue := insertFrame (.notice none (.proofPaper none false)) s.line.queue } })) ∧
     (∀ c u p x, gone c u → hasRoom s → s.pass = some p → p.kind = .proof → s.active? = some x →
       s.proof.kind = .proof → exec c s = .next (settle
         { u with
           proof := { u.proof with paperTimer := true }
           line := { s.line with
             queue := insertFrame (.notice (some x.key) (.proofPaper (some (if x.reproof then .reproof else .proof)) false))
               s.line.queue } })) ∧
     (∀ c u p x, gone c u → hasRoom s → s.pass = some p → p.kind = .film → s.active? = some x →
       ∃ t, exec c s = .next (settle t) ∧
         t.store = { s.store with records := s.store.records.map (fun r => { r with proofPending := false }) } ∧
         (s.proof.kind = .film → t.proof.segs = [] ∧ t.proof.inFlight = s.proof.inFlight) ∧ t.film = s.film ∧ t.exp = s.exp ∧
         (∀ y ∈ t.takes, y.state = .active → y.proofDropped = true) ∧
         noticed t (some x.key) (.proofPaper (some (if x.context.isSome then .resumed else .film)) false) ∧
         (x.proofState = .complete →
           (s.store.records.any (fun r => r.proofPending) = true → ∃ y n, t.active? = some y ∧ y.proofState = .partialFrom n ∧
             (∃ r ∈ s.store.records, r.proofPending = true ∧ r.number = n) ∧
             ∀ r ∈ s.store.records, r.proofPending = true → n ≤ r.number) ∧
           (∀ l, s.store.records.any (fun r => r.proofPending) = false → s.comp.ctx = some l →
             ∃ y, t.active? = some y ∧ y.proofState = .partialFrom l.nextLine))) ∧
     (s.pins.paper = false → s.proof.stall = false → exec (.paper true) s = .next (settle
       { s with pins := { s.pins with paper := true }, proof := { s.proof with paperTimer := false } })) ∧
     (∀ b, s.pins.paper = true → s.proof.stall = false → exec (.paper true) s = .next (settle s) ∧
       exec (.busy b) s = .next (settle { s with pins := { s.pins with busy := b } })) ∧
     (s.pins.paper = true → s.proof.stall = true → exec (.busy false) s = .next (settle
       { s with pins := { s.pins with busy := false }, proof := { s.proof with stall := false, paperTimer := false } })) ∧
     (s.pins.busy = false ∨ s.proof.segs = [] → exec .busyStall s = .next (settle s)) ∧
     (∀ x, s.proof.paperTimer = true → s.active? = some x → (∀ y ∈ s.takes, y.key = x.key ∨ y.state = .active → y = x) →
       hasRoom s → s.stop.station ≠ .standby → ∃ t, exec .paperTimer s = .next (settle t) ∧
         t.pass = none ∧ t.comp = idleCompositor ∧ t.store = { records := [], marker := none } ∧
         t.proof = { s.proof with
           paperTimer := false, attached := false, segs := if s.proof.kind = .proof then [] else s.proof.segs
           lineOpen := s.proof.lineOpen || (decide (s.proof.kind = .proof) && !s.proof.segs.isEmpty) } ∧
         t.takes = s.takes.map (fun y => if y.key = x.key then
           { y with
             proofState := .none, startValues := none, state := .queued, parkReason := none
             timer := if 0 < y.cls then some .aging else none } else y) ∧
         noticed t (some x.key) (.proofPaper (some (if x.reproof then .reproof else .proof)) true)) ∧
     (s.proof.paperTimer = false ∨ s.active? = none → exec .paperTimer s = .next (settle s)))
end

