-- ==== Sys2Proof/Laws/Still.lean ====
section
/-! SUPPORT. What the operations leave alone: the queue of commands, the copy store, the Hyphenation Unit and all of Lamp
Control but its phase. One lemma for each operation and reaction, and for settling; the operations that do change one of
these (`hearCopy`, `addException`, `deleteException`, `romRead`, `correctLamp`, `changeLamp`, `powerOn`, `lineReset`)
have theirs at the end. -/

namespace Sys2Proof.Machine

/-- Lamp Control without its phase. -/
def Lamp.fixed (l : Lamp) : Lamp := { l with phase := .off }
/-- `t` has the queue, copy store, Hyphenation Unit and lamp values of `s`. -/
abbrev Still (t s : State) : Prop :=
  t.pending = s.pending ∧ t.mem = s.mem ∧ t.hyph = s.hyph ∧ t.lamp.fixed = s.lamp.fixed

theorem Still.trans {a b c : State} (h : Still a b) (k : Still b c) : Still a c :=
  ⟨h.1.trans k.1, h.2.1.trans k.2.1, h.2.2.1.trans k.2.2.1, h.2.2.2.trans k.2.2.2⟩

theorem foldl_still {α : Type} (f : State → α → State) (h : ∀ s a, Still (f s a) s) (l : List α) :
    ∀ s, Still (l.foldl f s) s := by
  induction l with
  | nil => intro s; exact ⟨rfl, rfl, rfl, rfl⟩
  | cons a l ih => intro s; exact (ih (f s a)).trans (h s a)

@[simp] theorem State.modTake_still (s k f) : Still (State.modTake s k f) s := by
  unfold State.modTake
  refine ⟨?_, ?_, ?_, ?_⟩ <;> (try dsimp only)

@[simp] theorem State.modActive_still (s f) : Still (State.modActive s f) s := by
  unfold State.modActive
  refine ⟨?_, ?_, ?_, ?_⟩ <;> (try dsimp only)

@[simp] theorem State.modPass_still (s f) : Still (State.modPass s f) s := by
  unfold State.modPass
  refine ⟨?_, ?_, ?_, ?_⟩ <;> (try dsimp only)

@[simp] theorem State.noteMoment_still (s) : Still (State.noteMoment s) s := by
  unfold State.noteMoment
  refine ⟨?_, ?_, ?_, ?_⟩ <;> (try dsimp only)

@[simp] theorem putFrame_still (s f) : Still (putFrame s f) s := by
  unfold putFrame
  refine ⟨?_, ?_, ?_, ?_⟩ <;> (try dsimp only) <;> (repeat' split) <;> rfl

@[simp] theorem produce_still (s key body) : Still (produce s key body) s := by
  unfold produce
  refine ⟨?_, ?_, ?_, ?_⟩ <;> (try dsimp only) <;> (repeat' split) <;> rfl

@[simp] theorem giveRoom_still (s) : Still (giveRoom s) s := by
  unfold giveRoom
  refine ⟨?_, ?_, ?_, ?_⟩ <;> (try dsimp only) <;> (repeat' split) <;> rfl

@[simp] theorem withdraw_still (s p) : Still (withdraw s p) s := by
  unfold withdraw
  refine ⟨?_, ?_, ?_, ?_⟩ <;> (try dsimp only)

@[simp] theorem cancelWindows_still (s p) : Still (cancelWindows s p) s := by
  unfold cancelWindows
  refine ⟨?_, ?_, ?_, ?_⟩ <;> (try dsimp only) <;> rfl

@[simp] theorem endWindow_still (s p) : Still (endWindow s p) s := by
  unfold endWindow
  refine ⟨?_, ?_, ?_, ?_⟩ <;> (try dsimp only)

@[simp] theorem startWatch_still (s sub) : Still (startWatch s sub) s := by
  unfold startWatch
  refine ⟨?_, ?_, ?_, ?_⟩ <;> (try dsimp only)

@[simp] theorem endWatch_still (s sub) : Still (endWatch s sub) s := by
  unfold endWatch
  refine ⟨?_, ?_, ?_, ?_⟩ <;> (try dsimp only)

@[simp] theorem countBad_still (s) : Still (countBad s) s := by
  unfold countBad
  refine ⟨?_, ?_, ?_, ?_⟩ <;> (try dsimp only)

@[simp] theorem countBroken_still (s) : Still (countBroken s) s := by
  unfold countBroken
  refine ⟨?_, ?_, ?_, ?_⟩ <;> (try dsimp only)

@[simp] theorem setFilm_still (s n known) : Still (setFilm s n known) s := by
  unfold setFilm
  refine ⟨?_, ?_, ?_, ?_⟩ <;> (try dsimp only) <;> (repeat' split) <;> first | rfl | simp

@[simp] theorem lookup_still (s font code) : Still (lookup s font code).2 s := by
  unfold lookup; refine ⟨?_, ?_, ?_, ?_⟩ <;> (repeat' split) <;> rfl

@[simp] theorem ask_still (s font) : Still (ask s font) s := by
  unfold ask
  refine ⟨?_, ?_, ?_, ?_⟩ <;> (repeat' split) <;> first | rfl | simp

@[simp] theorem endAsk_still (s font) : Still (endAsk s font) s := by
  unfold endAsk
  refine ⟨?_, ?_, ?_, ?_⟩ <;> rfl

@[simp] theorem reAskFont_still (s font) : Still (reAskFont s font) s := by
  unfold reAskFont
  refine ⟨?_, ?_, ?_, ?_⟩ <;> (repeat' split) <;> first | rfl | simp

@[simp] theorem claimFont_still (s font) : Still (claimFont s font) s := by
  unfold claimFont
  refine ⟨?_, ?_, ?_, ?_⟩ <;> (try dsimp only) <;> (repeat' split) <;> first | rfl | simp

@[simp] theorem claimFonts_still (s fonts) : Still (claimFonts s fonts) s :=
  foldl_still _ (fun s f => claimFont_still s f) _ s

@[simp] theorem unpinFont_still (s font) : Still (unpinFont s font) s := by
  unfold unpinFont
  refine ⟨?_, ?_, ?_, ?_⟩ <;> (try dsimp only) <;> (repeat' split) <;> rfl

@[simp] theorem unpinFonts_still (s fonts) : Still (unpinFonts s fonts) s :=
  foldl_still _ (fun s f => unpinFont_still s f) _ s

@[simp] theorem markReady_still (s) : Still (markReady s) s := by
  unfold markReady
  refine ⟨?_, ?_, ?_, ?_⟩ <;> (try dsimp only)

@[simp] theorem fillSlot_still (s i sl font revision widths) : Still (fillSlot s i sl font revision widths) s := by
  unfold fillSlot
  refine ⟨?_, ?_, ?_, ?_⟩ <;> rfl

@[simp] theorem replaceTable_still (s i sl font revision widths) : Still (replaceTable s i sl font revision widths) s := by
  unfold replaceTable
  refine ⟨?_, ?_, ?_, ?_⟩ <;> (try dsimp only) <;> rfl

@[simp] theorem tableToSlot_still (s font revision widths) : Still (tableToSlot s font revision widths) s := by
  unfold tableToSlot
  refine ⟨?_, ?_, ?_, ?_⟩ <;> (try dsimp only) <;> (repeat' split) <;> rfl

@[simp] theorem tableToWindows_still (s font revision) : Still (tableToWindows s font revision) s := by
  unfold tableToWindows
  refine ⟨?_, ?_, ?_, ?_⟩ <;> (repeat' split) <;> rfl

@[simp] theorem openWindow_still (s what slots frame) : Still (openWindow s what slots frame) s := by
  unfold openWindow
  refine ⟨?_, ?_, ?_, ?_⟩ <;> (try dsimp only) <;> (repeat' split) <;> first | rfl | simp

@[simp] theorem hearAsk_still (s font) : Still (hearAsk s font) s := by
  unfold hearAsk
  refine ⟨?_, ?_, ?_, ?_⟩ <;> (repeat' split) <;> rfl

@[simp] theorem expireWindow_still (s sub) : Still (expireWindow s sub) s := by
  unfold expireWindow
  refine ⟨?_, ?_, ?_, ?_⟩ <;> (try dsimp only) <;> (repeat' split) <;> first | rfl | simp

@[simp] theorem warmUp_still (s) : Still (warmUp s) s := by
  unfold warmUp
  refine ⟨?_, ?_, ?_, ?_⟩ <;> (try dsimp only) <;> (repeat' split) <;> rfl

@[simp] theorem lampOff_still (s) : Still (lampOff s) s := by
  unfold lampOff
  refine ⟨?_, ?_, ?_, ?_⟩ <;> (try dsimp only) <;> rfl

@[simp] theorem warmUpExpires_still (s) : Still (warmUpExpires s) s := by
  unfold warmUpExpires
  refine ⟨?_, ?_, ?_, ?_⟩ <;> (try dsimp only) <;> (repeat' split) <;> rfl

@[simp] theorem freeTake_still (s k) : Still (freeTake s k) s := by
  unfold freeTake
  refine ⟨?_, ?_, ?_, ?_⟩ <;> (repeat' split) <;> first | rfl | simp

@[simp] theorem examineStranded_still (s) : Still (examineStranded s) s := by
  unfold examineStranded
  refine ⟨?_, ?_, ?_, ?_⟩ <;> (try dsimp only)

@[simp] theorem enterRun_still (s) : Still (enterRun s) s := by
  unfold enterRun
  refine ⟨?_, ?_, ?_, ?_⟩ <;> (try dsimp only) <;> (repeat' split) <;> rfl

@[simp] theorem wake_still (s) : Still (wake s) s := by
  unfold wake
  refine ⟨?_, ?_, ?_, ?_⟩ <;> (repeat' split) <;> first | rfl | simp

@[simp] theorem toQueued_still (s k) : Still (toQueued s k) s := by
  unfold toQueued
  refine ⟨?_, ?_, ?_, ?_⟩ <;> first | rfl | simp

@[simp] theorem markTakes_still (s r p) : Still (markTakes s r p) s := by
  unfold markTakes
  refine ⟨?_, ?_, ?_, ?_⟩ <;> (try dsimp only)

@[simp] theorem closeClaims_still (s) : Still (closeClaims s) s := by
  unfold closeClaims
  refine ⟨?_, ?_, ?_, ?_⟩ <;> rfl

@[simp] theorem requestPark_still (s reason) : Still (requestPark s reason) s := by
  unfold requestPark
  refine ⟨?_, ?_, ?_, ?_⟩ <;> rfl

@[simp] theorem recordStop_still (s t line kind font door toHold) : Still (recordStop s t line kind font door toHold) s := by
  unfold recordStop
  refine ⟨?_, ?_, ?_, ?_⟩ <;> (try dsimp only) <;> (repeat' split) <;> first | rfl | simp

@[simp] theorem raiseStop_still (s kind font door) : Still (raiseStop s kind font door) s := by
  unfold raiseStop
  refine ⟨?_, ?_, ?_, ?_⟩ <;> (repeat' split) <;> first | rfl | simp

@[simp] theorem leaveStopped_still (s r) : Still (leaveStopped s r) s := by
  unfold leaveStopped
  refine ⟨?_, ?_, ?_, ?_⟩ <;> (try dsimp only) <;> (repeat' split) <;> rfl

@[simp] theorem clearStop_still (s) : Still (clearStop s) s := by
  unfold clearStop
  refine ⟨?_, ?_, ?_, ?_⟩ <;> (try dsimp only) <;> (repeat' split) <;> first | rfl | simp

@[simp] theorem dropStop_still (s k) : Still (dropStop s k) s := by
  unfold dropStop
  refine ⟨?_, ?_, ?_, ?_⟩ <;> (repeat' split) <;> first | rfl | simp

@[simp] theorem takeFault_still (s kind mech) : Still (takeFault s kind mech) s := by
  unfold takeFault
  refine ⟨?_, ?_, ?_, ?_⟩ <;> (try dsimp only) <;> first | rfl | simp

@[simp] theorem furtherFault_still (s kind mech) : Still (furtherFault s kind mech) s := by
  unfold furtherFault
  refine ⟨?_, ?_, ?_, ?_⟩ <;> (try dsimp only) <;> (repeat' split) <;> first | rfl | simp

@[simp] theorem enterHalt_still (s mech atClear) : Still (enterHalt s mech atClear) s := by
  unfold enterHalt
  refine ⟨?_, ?_, ?_, ?_⟩ <;> (try dsimp only) <;> (repeat' split) <;> first | rfl | simp

@[simp] theorem reportFault_still (s kind mech) : Still (reportFault s kind mech) s := by
  unfold reportFault
  refine ⟨?_, ?_, ?_, ?_⟩ <;> (try dsimp only) <;> (repeat' split) <;> first | rfl | simp

@[simp] theorem openGalley_still (s key line) : Still (openGalley s key line) s := by
  unfold openGalley
  refine ⟨?_, ?_, ?_, ?_⟩ <;> (try dsimp only)

@[simp] theorem closeGalley_still (s mark) : Still (closeGalley s mark) s := by
  unfold closeGalley
  refine ⟨?_, ?_, ?_, ?_⟩ <;> (try dsimp only) <;> (repeat' split) <;> rfl

@[simp] theorem growGalley_still (s n) : Still (growGalley s n) s := by
  unfold growGalley
  refine ⟨?_, ?_, ?_, ?_⟩ <;> (try dsimp only)

@[simp] theorem cutDone_still (s c) : Still (cutDone s c) s := by
  unfold cutDone
  refine ⟨?_, ?_, ?_, ?_⟩ <;> (try dsimp only) <;> (repeat' split) <;> rfl

@[simp] theorem askCut_still (s c) : Still (askCut s c) s := by
  unfold askCut
  refine ⟨?_, ?_, ?_, ?_⟩ <;> (try dsimp only) <;> (repeat' split) <;> first | rfl | simp

@[simp] theorem finishCut_still (s c uncut) : Still (finishCut s c uncut) s := by
  unfold finishCut
  refine ⟨?_, ?_, ?_, ?_⟩ <;> (try dsimp only) <;> (repeat' split) <;> first | rfl | simp

@[simp] theorem toCutter_still (s c) : Still (toCutter s c) s := by
  unfold toCutter
  refine ⟨?_, ?_, ?_, ?_⟩ <;> (try dsimp only) <;> (repeat' split) <;> first | rfl | simp

@[simp] theorem beginCut_still (s c) : Still (beginCut s c) s := by
  unfold beginCut
  refine ⟨?_, ?_, ?_, ?_⟩ <;> (try dsimp only) <;> (repeat' split) <;> first | rfl | simp

@[simp] theorem beginAdvance_still (s key line leading) : Still (beginAdvance s key line leading) s := by
  unfold beginAdvance
  refine ⟨?_, ?_, ?_, ?_⟩ <;> (try dsimp only) <;> (repeat' split) <;> first | rfl | simp

@[simp] theorem dropRequest_still (s) : Still (dropRequest s) s := by
  unfold dropRequest
  refine ⟨?_, ?_, ?_, ?_⟩ <;> (try dsimp only)

@[simp] theorem produceManifest_still (s) : Still (produceManifest s) s :=
  foldl_still _ (fun s _ => produce_still s none _) _ s

@[simp] theorem loadCassette_still (s code) : Still (loadCassette s code) s := by
  unfold loadCassette
  refine ⟨?_, ?_, ?_, ?_⟩ <;> (try dsimp only) <;> first | rfl | simp

@[simp] theorem State.count_still (s f) : Still (State.count s f) s := by
  unfold State.count
  refine ⟨?_, ?_, ?_, ?_⟩ <;> rfl

@[simp] theorem addCopyErrors_still (s n) : Still (addCopyErrors s n) s := by
  unfold addCopyErrors
  refine ⟨?_, ?_, ?_, ?_⟩ <;> rfl

@[simp] theorem addClamped_still (s n) : Still (addClamped s n) s := by
  unfold addClamped
  refine ⟨?_, ?_, ?_, ?_⟩ <;> rfl

@[simp] theorem addSubstituted_still (s n) : Still (addSubstituted s n) s := by
  unfold addSubstituted
  refine ⟨?_, ?_, ?_, ?_⟩ <;> rfl

@[simp] theorem modComp_still (s f) : Still (modComp s f) s := by
  unfold modComp
  refine ⟨?_, ?_, ?_, ?_⟩ <;> (try dsimp only)

@[simp] theorem modCtx_still (s f) : Still (modCtx s f) s := by
  unfold modCtx
  refine ⟨?_, ?_, ?_, ?_⟩ <;> rfl

@[simp] theorem modPend_still (s f) : Still (modPend s f) s := by
  unfold modPend
  refine ⟨?_, ?_, ?_, ?_⟩ <;> rfl

@[simp] theorem reportEnd_still (s t) : Still (reportEnd s t) s := by
  unfold reportEnd
  refine ⟨?_, ?_, ?_, ?_⟩ <;> (try dsimp only)

@[simp] theorem startLine_still (s t ctx subst after) : Still (startLine s t ctx subst after) s := by
  unfold startLine
  refine ⟨?_, ?_, ?_, ?_⟩ <;> (try dsimp only) <;> (repeat' split) <;> rfl

@[simp] theorem appendLine_still (s t ctx sl) : Still (appendLine s t ctx sl) s := by
  unfold appendLine
  refine ⟨?_, ?_, ?_, ?_⟩ <;> (try dsimp only) <;> (repeat' split) <;> first | rfl | simp

@[simp] theorem offerLine_still (s t ctx sl) : Still (offerLine s t ctx sl) s := by
  unfold offerLine
  refine ⟨?_, ?_, ?_, ?_⟩ <;> (repeat' split) <;> first | rfl | simp

@[simp] theorem completeLine_still (s t ctx items e next) : Still (completeLine s t ctx items e next) s :=
  offerLine_still s t ctx _

theorem weigh_still (v line group) : ∀ cs s best, Still (weigh v line group cs s best).1 s := by
  intro cs
  induction cs with
  | nil => intro s best; exact ⟨rfl, rfl, rfl, rfl⟩
  | cons c cs ih =>
    intro s best
    obtain ⟨i, k⟩ := c
    cases k with
    | explicit => exact ih _ _
    | added =>
      unfold weigh
      split
      · exact (ih _ _).trans (lookup_still s _ 0x2D)
      · exact ih _ _

@[simp] theorem breakGroup_still (s t ctx stop) : Still (breakGroup s t ctx stop) s := by
  have h : ∀ x : State × Option Break, Still x.1 s → Still
      (match x with
       | (s1, best) =>
         match best with
         | some b => completeLine s1 t ctx b.items b.kind.lineEnd (readOnAt s.comp ctx stop (b.place + 1))
         | none =>
           if s.comp.line.isEmpty then
             let n := oversetPrefix (s.comp.values ctx s.comp.group) s.comp.group
             completeLine s1 t ctx (s.comp.group.take n) { plainEnd with overset := true } (readOnAt s.comp ctx stop n)
           else completeLine s1 t ctx s.comp.line plainEnd (readOnGroup s.comp)) s := by
    rintro ⟨s1, best⟩ h
    cases best with
    | some b => exact (completeLine_still _ _ _ _ _ _).trans h
    | none => dsimp only; split <;> exact (completeLine_still _ _ _ _ _ _).trans h
  exact h _ (weigh_still _ _ _ _ s _)

@[simp] theorem closeGroup_still (s t ctx stop next para) : Still (closeGroup s t ctx stop next para) s := by
  unfold closeGroup
  refine ⟨?_, ?_, ?_, ?_⟩ <;> (try dsimp only) <;> (repeat' split) <;> first | rfl | simp

@[simp] theorem readPast_still (s next) : Still (readPast s next) s := by
  unfold readPast
  refine ⟨?_, ?_, ?_, ?_⟩ <;> rfl

@[simp] theorem placeBox_still (s kind code width absent next) : Still (placeBox s kind code width absent next) s := by
  unfold placeBox
  refine ⟨?_, ?_, ?_, ?_⟩ <;> (try dsimp only) <;> (repeat' split) <;> rfl

@[simp] theorem placeNbspace_still (s next) : Still (placeNbspace s next) s := by
  unfold placeNbspace
  refine ⟨?_, ?_, ?_, ?_⟩ <;> (try dsimp only) <;> (repeat' split) <;> rfl

theorem retryLine_still {s t} (h : retryLine s = some t) : Still t s := by
  unfold retryLine at h
  (repeat' split at h) <;> first
    | (injection h with h; subst h
       refine ⟨?_, ?_, ?_, ?_⟩ <;> first | rfl | simp)
    | simp at h

theorem storeRemove_still {s t} (h : storeRemove s = some t) : Still t s := by
  unfold storeRemove at h
  (repeat' split at h) <;> first
    | (injection h with h; subst h
       refine ⟨?_, ?_, ?_, ?_⟩ <;> (try dsimp only))
    | simp at h

@[simp] theorem emptyStore_still (s) : Still (emptyStore s) s := by
  unfold emptyStore
  refine ⟨?_, ?_, ?_, ?_⟩ <;> (try dsimp only) <;> rfl

@[simp] theorem startCompositor_still (s t) : Still (startCompositor s t) s := by
  unfold startCompositor
  refine ⟨?_, ?_, ?_, ?_⟩ <;> (try dsimp only) <;> (repeat' split) <;> first | rfl | simp

@[simp] theorem setLevel_still (s now later) : Still (setLevel s now later) s := by
  unfold setLevel
  refine ⟨?_, ?_, ?_, ?_⟩ <;> (repeat' split) <;> rfl

@[simp] theorem takeFont_still (s t font) : Still (takeFont s t font) s := by
  unfold takeFont
  refine ⟨?_, ?_, ?_, ?_⟩ <;> (repeat' split) <;> rfl

@[simp] theorem takeSizeCommand_still (s n) : Still (takeSizeCommand s n) s := by
  unfold takeSizeCommand
  refine ⟨?_, ?_, ?_, ?_⟩ <;> (try dsimp only) <;> rfl

@[simp] theorem takeLead_still (s n) : Still (takeLead s n) s := by
  unfold takeLead
  refine ⟨?_, ?_, ?_, ?_⟩ <;> (try dsimp only) <;> first | rfl | simp

@[simp] theorem takeMeasure_still (s picas points) : Still (takeMeasure s picas points) s := by
  unfold takeMeasure
  refine ⟨?_, ?_, ?_, ?_⟩ <;> (try dsimp only) <;> (repeat' split) <;> first | rfl | simp

@[simp] theorem takeIndent_still (s n) : Still (takeIndent s n) s := by
  unfold takeIndent
  refine ⟨?_, ?_, ?_, ?_⟩ <;> (try dsimp only) <;> (repeat' split) <;> first | rfl | simp

@[simp] theorem takeSpaceband_still (s mn op mx) : Still (takeSpaceband s mn op mx) s := by
  unfold takeSpaceband
  refine ⟨?_, ?_, ?_, ?_⟩ <;> (try dsimp only) <;> first | rfl | simp

@[simp] theorem takeLetterspace_still (s n) : Still (takeLetterspace s n) s := by
  unfold takeLetterspace
  refine ⟨?_, ?_, ?_, ?_⟩ <;> (try dsimp only) <;> first | rfl | simp

@[simp] theorem takeLadder_still (s n) : Still (takeLadder s n) s := by
  unfold takeLadder
  refine ⟨?_, ?_, ?_, ?_⟩ <;> (try dsimp only) <;> first | rfl | simp

@[simp] theorem takeMode_still (s n) : Still (takeMode s n) s := by
  unfold takeMode
  refine ⟨?_, ?_, ?_, ?_⟩ <;> (repeat' split) <;> first | rfl | simp

@[simp] theorem takeHyph_still (s n) : Still (takeHyph s n) s := by
  unfold takeHyph
  refine ⟨?_, ?_, ?_, ?_⟩ <;> first | rfl | simp

@[simp] theorem takeCaps_still (s n) : Still (takeCaps s n) s := by
  unfold takeCaps
  refine ⟨?_, ?_, ?_, ?_⟩ <;> first | rfl | simp

@[simp] theorem endParagraph_still (s r stop next) : Still (endParagraph s r stop next) s := by
  unfold endParagraph
  refine ⟨?_, ?_, ?_, ?_⟩ <;> first | rfl | simp

@[simp] theorem takeFixedSpace_still (s r units) : Still (takeFixedSpace s r units) s := by
  unfold takeFixedSpace
  refine ⟨?_, ?_, ?_, ?_⟩ <;> first | rfl | simp

@[simp] theorem takeDisc_still (s) : Still (takeDisc s) s := by
  unfold takeDisc
  refine ⟨?_, ?_, ?_, ?_⟩ <;> rfl

@[simp] theorem takeCharacter_still (s r code) : Still (takeCharacter s r code) s :=
  (placeBox_still _ _ _ _ _ _).trans (lookup_still s _ code)

@[simp] theorem takeWordSpace_still (s r) : Still (takeWordSpace s r) s := by
  unfold takeWordSpace
  refine ⟨?_, ?_, ?_, ?_⟩ <;> (repeat' split) <;> first | rfl | simp

@[simp] theorem takeUnknown_still (s r) : Still (takeUnknown s r) s := by
  unfold takeUnknown
  refine ⟨?_, ?_, ?_, ?_⟩ <;> rfl

@[simp] theorem takeEnd_still (s) : Still (takeEnd s) s := by
  unfold takeEnd
  refine ⟨?_, ?_, ?_, ?_⟩ <;> (repeat' split) <;> first | rfl | simp

theorem takeLine_still {s t} (h : takeLine s = some t) : Still t s := by
  unfold takeLine at h
  (repeat' split at h) <;> first
    | (injection h with h; subst h
       refine ⟨?_, ?_, ?_, ?_⟩ <;> (try dsimp only))
    | simp at h

theorem beginChar_still {s t} (h : beginChar s = some t) : Still t s := by
  unfold beginChar at h
  (repeat' split at h) <;> first
    | (injection h with h; subst h
       refine ⟨?_, ?_, ?_, ?_⟩ <;> (try dsimp only))
    | simp at h

@[simp] theorem charSent_still (s) : Still (charSent s) s := by
  unfold charSent
  refine ⟨?_, ?_, ?_, ?_⟩ <;> (try dsimp only) <;> (repeat' split) <;> rfl

@[simp] theorem clearProof_still (s n) : Still (clearProof s n) s := by
  unfold clearProof
  refine ⟨?_, ?_, ?_, ?_⟩ <;> (try dsimp only)

@[simp] theorem lineSent_still (s) : Still (lineSent s) s := by
  unfold lineSent
  refine ⟨?_, ?_, ?_, ?_⟩ <;> (try dsimp only) <;> (repeat' split) <;> rfl

@[simp] theorem dropProof_still (s) : Still (dropProof s) s := by
  unfold dropProof
  refine ⟨?_, ?_, ?_, ?_⟩ <;> (try dsimp only) <;> (repeat' split) <;> rfl

@[simp] theorem paperBegins_still (s) : Still (paperBegins s) s := by
  unfold paperBegins
  refine ⟨?_, ?_, ?_, ?_⟩ <;> (try dsimp only) <;> (repeat' split) <;> first | rfl | simp

@[simp] theorem paperEnds_still (s) : Still (paperEnds s) s := by
  unfold paperEnds
  refine ⟨?_, ?_, ?_, ?_⟩ <;> (try dsimp only)

@[simp] theorem paperChange_still (s s') : Still (paperChange s s') s' := by
  unfold paperChange; refine ⟨?_, ?_, ?_, ?_⟩ <;> (repeat' split) <;> first | rfl | simp

@[simp] theorem setPaper_still (s present) : Still (setPaper s present) s := by
  unfold setPaper
  refine ⟨?_, ?_, ?_, ?_⟩ <;> (try dsimp only) <;> first | rfl | simp

@[simp] theorem setBusy_still (s asserted) : Still (setBusy s asserted) s := by
  unfold setBusy
  refine ⟨?_, ?_, ?_, ?_⟩ <;> (try dsimp only) <;> first | rfl | simp

@[simp] theorem busyStall_still (s) : Still (busyStall s) s := by
  unfold busyStall
  refine ⟨?_, ?_, ?_, ?_⟩ <;> (try dsimp only) <;> (repeat' split) <;> first | rfl | simp

@[simp] theorem cutProofPass_still (s) : Still (cutProofPass s) s := by
  unfold cutProofPass
  refine ⟨?_, ?_, ?_, ?_⟩ <;> (try dsimp only) <;> rfl

@[simp] theorem abandonPass_still (s) : Still (abandonPass s) s := by
  unfold abandonPass
  refine ⟨?_, ?_, ?_, ?_⟩ <;> (try dsimp only) <;> (repeat' split) <;> first | rfl | simp

@[simp] theorem modExp_still (s f) : Still (modExp s f) s := by
  unfold modExp
  refine ⟨?_, ?_, ?_, ?_⟩ <;> (try dsimp only)

@[simp] theorem modCur_still (s f) : Still (modCur s f) s := by
  unfold modCur
  refine ⟨?_, ?_, ?_, ?_⟩ <;> rfl

@[simp] theorem endExposure_still (s) : Still (endExposure s) s := by
  unfold endExposure
  refine ⟨?_, ?_, ?_, ?_⟩ <;> rfl

@[simp] theorem endByFault_still (s) : Still (endByFault s) s := by
  unfold endByFault
  refine ⟨?_, ?_, ?_, ?_⟩ <;> (repeat' split) <;> rfl

theorem beginExposure_still {s t} (h : beginExposure s = some t) : Still t s := by
  unfold beginExposure at h
  (repeat' split at h) <;> first
    | (injection h with h; subst h
       refine ⟨?_, ?_, ?_, ?_⟩ <;> rfl)
    | simp at h

theorem checkLine_still {s t} (h : checkLine s = some t) : Still t s := by
  unfold checkLine at h
  (repeat' split at h) <;> first
    | (injection h with h; subst h
       refine ⟨?_, ?_, ?_, ?_⟩ <;> first | rfl | simp)
    | simp at h

@[simp] theorem startScan_still (s) : Still (startScan s) s := by
  unfold startScan
  refine ⟨?_, ?_, ?_, ?_⟩ <;> (repeat' split) <;> rfl

theorem goLine_still {s t} (h : goLine s = some t) : Still t s := by
  unfold goLine at h
  (repeat' split at h) <;> first
    | (injection h with h; subst h
       refine ⟨?_, ?_, ?_, ?_⟩ <;> (try dsimp only) <;> first | rfl | simp)
    | simp at h

@[simp] theorem lineExposed_still (s c) : Still (lineExposed s c) s := by
  unfold lineExposed
  refine ⟨?_, ?_, ?_, ?_⟩ <;> (try dsimp only) <;> rfl

theorem scanStep_still {s t} (h : scanStep s = some t) : Still t s := by
  unfold scanStep at h
  dsimp only at h
  (repeat' split at h) <;> first
    | (injection h with h; subst h; exact modExp_still _ _)
    | (injection h with h; subst h; exact modCur_still _ _)
    | (injection h with h; subst h; exact lineExposed_still _ _)
    | simp at h

@[simp] theorem mechanismFault_still (s m) : Still (mechanismFault s m) s := by
  unfold mechanismFault
  refine ⟨?_, ?_, ?_, ?_⟩ <;> first | rfl | simp

@[simp] theorem mountDone_still (s) : Still (mountDone s) s := by
  unfold mountDone
  refine ⟨?_, ?_, ?_, ?_⟩ <;> (repeat' split) <;> rfl

@[simp] theorem turretIndex_still (s seat) : Still (turretIndex s seat) s := by
  unfold turretIndex
  refine ⟨?_, ?_, ?_, ?_⟩ <;> (try dsimp only) <;> (repeat' split) <;> first | rfl | simp

@[simp] theorem lensIndexEvent_still (s lens) : Still (lensIndexEvent s lens) s := by
  unfold lensIndexEvent
  refine ⟨?_, ?_, ?_, ?_⟩ <;> (try dsimp only) <;> (repeat' split) <;> first | rfl | simp

@[simp] theorem carriagePosition_still (s) : Still (carriagePosition s) s := by
  unfold carriagePosition
  refine ⟨?_, ?_, ?_, ?_⟩ <;> (repeat' split) <;> rfl

@[simp] theorem moveTimeout_still (s m) : Still (moveTimeout s m) s := by
  unfold moveTimeout
  refine ⟨?_, ?_, ?_, ?_⟩ <;> (repeat' split) <;> first | rfl | simp

@[simp] theorem flashTimeout_still (s) : Still (flashTimeout s) s := by
  unfold flashTimeout
  refine ⟨?_, ?_, ?_, ?_⟩ <;> (repeat' split) <;> first | rfl | simp

@[simp] theorem haltLine_still (s door) : Still (haltLine s door) s := by
  unfold haltLine
  refine ⟨?_, ?_, ?_, ?_⟩ <;> (try dsimp only) <;> (repeat' split) <;> first | rfl | simp

theorem endHalted_still {s t} (h : endHalted s = some t) : Still t s := by
  unfold endHalted at h
  (repeat' split at h) <;> first
    | (injection h with h; subst h
       refine ⟨?_, ?_, ?_, ?_⟩ <;> (try dsimp only) <;> first | rfl | simp)
    | simp at h

@[simp] theorem photoDoorOpen_still (s) : Still (photoDoorOpen s) s := by
  unfold photoDoorOpen
  refine ⟨?_, ?_, ?_, ?_⟩ <;> (try dsimp only) <;> (repeat' split) <;> first | rfl | simp

@[simp] theorem cassetteDoorOpen_still (s) : Still (cassetteDoorOpen s) s := by
  unfold cassetteDoorOpen
  refine ⟨?_, ?_, ?_, ?_⟩ <;> (try dsimp only) <;> (repeat' split) <;> first | rfl | simp

@[simp] theorem takeupDoorOpen_still (s) : Still (takeupDoorOpen s) s := by
  unfold takeupDoorOpen
  refine ⟨?_, ?_, ?_, ?_⟩ <;> (try dsimp only) <;> (repeat' split) <;> first | rfl | simp

@[simp] theorem takeupDoorClose_still (s) : Still (takeupDoorClose s) s := by
  unfold takeupDoorClose
  refine ⟨?_, ?_, ?_, ?_⟩ <;> (try dsimp only) <;> (repeat' split) <;> first | rfl | simp

@[simp] theorem cassetteDoorClose_still (s code) : Still (cassetteDoorClose s code) s := by
  unfold cassetteDoorClose
  refine ⟨?_, ?_, ?_, ?_⟩ <;> (try dsimp only) <;> (repeat' split) <;> first | rfl | simp

@[simp] theorem advanceComplete_still (s) : Still (advanceComplete s) s := by
  unfold advanceComplete
  refine ⟨?_, ?_, ?_, ?_⟩ <;> (try dsimp only) <;> (repeat' split) <;> first | rfl | simp

@[simp] theorem advanceRefused_still (s w) : Still (advanceRefused s w) s := by
  cases w <;> refine ⟨?_, ?_, ?_, ?_⟩ <;> simp [advanceRefused]

theorem serveFilm_still {s t} (h : serveFilm s = some t) : Still t s := by
  unfold serveFilm at h
  dsimp only at h
  (repeat' split at h) <;> first
    | (injection h with h; subst h; refine ⟨?_, ?_, ?_, ?_⟩ <;> simp)
    | simp at h

@[simp] theorem advanceDone_still (s) : Still (advanceDone s) s := by
  unfold advanceDone
  refine ⟨?_, ?_, ?_, ?_⟩ <;> (try dsimp only) <;> (repeat' split) <;> first | rfl | simp

@[simp] theorem advanceTimeout_still (s) : Still (advanceTimeout s) s := by
  unfold advanceTimeout
  refine ⟨?_, ?_, ?_, ?_⟩ <;> (try dsimp only) <;> (repeat' split) <;> first | rfl | simp

@[simp] theorem cutEvent_still (s) : Still (cutEvent s) s := by
  unfold cutEvent
  refine ⟨?_, ?_, ?_, ?_⟩ <;> (repeat' split) <;> first | rfl | simp

@[simp] theorem cutterTimeout_still (s) : Still (cutterTimeout s) s := by
  unfold cutterTimeout
  refine ⟨?_, ?_, ?_, ?_⟩ <;> (try dsimp only) <;> (repeat' split) <;> first | rfl | simp

@[simp] theorem mountKey_still (s) : Still (mountKey s) s := by
  unfold mountKey
  refine ⟨?_, ?_, ?_, ?_⟩ <;> (try dsimp only) <;> (repeat' split) <;> rfl

@[simp] theorem returnCalled_still (s) : Still (returnCalled s) s := by
  unfold returnCalled
  refine ⟨?_, ?_, ?_, ?_⟩ <;> (repeat' split) <;> first | rfl | simp

@[simp] theorem clearFontCall_still (s) : Still (clearFontCall s) s := by
  unfold clearFontCall
  refine ⟨?_, ?_, ?_, ?_⟩ <;> (repeat' split) <;> first | rfl | simp

@[simp] theorem survey_still (s tabs) : Still (survey s tabs) s := by
  unfold survey
  refine ⟨?_, ?_, ?_, ?_⟩ <;> (try dsimp only) <;> (repeat' split) <;> first | rfl | simp

@[simp] theorem photoDoorClose_still (s tabs) : Still (photoDoorClose s tabs) s := by
  unfold photoDoorClose
  refine ⟨?_, ?_, ?_, ?_⟩ <;> (try dsimp only) <;> (repeat' split) <;> first | rfl | simp

@[simp] theorem hearOffer_still (s sender m) : Still (hearOffer s sender m) s := by
  unfold hearOffer
  refine ⟨?_, ?_, ?_, ?_⟩ <;> (repeat' split) <;> first | rfl | simp

theorem retestWindows_still {s t} (h : retestWindows s = some t) : Still t s := by
  unfold retestWindows at h
  (repeat' split at h) <;> first
    | (injection h with h; subst h
       refine ⟨?_, ?_, ?_, ?_⟩ <;> rfl)
    | simp at h

@[simp] theorem claimWon_still (s sender m) : Still (claimWon s sender m) s := by
  unfold claimWon
  refine ⟨?_, ?_, ?_, ?_⟩ <;> (try dsimp only) <;> first | rfl | simp

@[simp] theorem handFrame_still (s f) : Still (handFrame s f) s := by
  unfold handFrame
  refine ⟨?_, ?_, ?_, ?_⟩ <;> (repeat' split) <;> first | rfl | simp

@[simp] theorem refuseCopy_still (s t reason) : Still (refuseCopy s t reason) s := by
  unfold refuseCopy
  refine ⟨?_, ?_, ?_, ?_⟩ <;> first | rfl | simp

@[simp] theorem hearCopyEnd_still (s sender k total) : Still (hearCopyEnd s sender k total) s := by
  unfold hearCopyEnd
  refine ⟨?_, ?_, ?_, ?_⟩ <;> (repeat' split) <;> first | rfl | simp

@[simp] theorem stallExpires_still (s k) : Still (stallExpires s k) s := by
  unfold stallExpires
  refine ⟨?_, ?_, ?_, ?_⟩ <;> (repeat' split) <;> first | rfl | simp

@[simp] theorem takenSent_still (s k) : Still (takenSent s k) s := by
  unfold takenSent
  refine ⟨?_, ?_, ?_, ?_⟩ <;> (try dsimp only) <;> (repeat' split) <;> first | rfl | simp

@[simp] theorem takenLost_still (s k) : Still (takenLost s k) s := by
  unfold takenLost
  refine ⟨?_, ?_, ?_, ?_⟩ <;> (repeat' split) <;> first | rfl | simp

@[simp] theorem startPass_still (s t) : Still (startPass s t) s := by
  unfold startPass
  refine ⟨?_, ?_, ?_, ?_⟩ <;> (try dsimp only) <;> (repeat' split) <;> first | rfl | simp

theorem selectTake_still {s t} (h : selectTake s = some t) : Still t s := by
  unfold selectTake at h
  split at h
  · obtain ⟨x, -, rfl⟩ := Option.map_eq_some_iff.mp h
    exact startPass_still s x
  · simp at h

theorem parkAnswer_still {s t} (h : parkAnswer s = some t) : Still t s := by
  unfold parkAnswer at h
  (repeat' split at h) <;> first
    | (injection h with h; subst h
       refine ⟨?_, ?_, ?_, ?_⟩ <;> first | rfl | simp)
    | simp at h

@[simp] theorem parkStop_still (s k) : Still (parkStop s k) s := by
  unfold parkStop
  refine ⟨?_, ?_, ?_, ?_⟩ <;> (try dsimp only) <;> (repeat' split) <;> first | rfl | simp

@[simp] theorem afterPark_still (s k reason) : Still (afterPark s k reason) s := by
  unfold afterPark
  refine ⟨?_, ?_, ?_, ?_⟩ <;> (repeat' split) <;> first | rfl | simp

theorem parkFinish_still {s t} (h : parkFinish s = some t) : Still t s := by
  unfold parkFinish at h
  (repeat' split at h) <;> first
    | (injection h with h; subst h
       refine ⟨?_, ?_, ?_, ?_⟩ <;> (try dsimp only) <;> (repeat' split) <;> first | rfl | simp)
    | simp at h

theorem askEndCut_still {s t} (h : askEndCut s = some t) : Still t s := by
  unfold askEndCut at h
  (repeat' split at h) <;> first
    | (injection h with h; subst h
       refine ⟨?_, ?_, ?_, ?_⟩ <;> first | rfl | simp)
    | simp at h

theorem completeTake_still {s t} (h : completeTake s = some t) : Still t s := by
  unfold completeTake at h
  (repeat' split at h) <;> first
    | (injection h with h; subst h
       refine ⟨?_, ?_, ?_, ?_⟩ <;> (try dsimp only) <;> first | rfl | simp)
    | simp at h

@[simp] theorem settleApproval_still (s k passes) : Still (settleApproval s k passes) s := by
  unfold settleApproval
  refine ⟨?_, ?_, ?_, ?_⟩ <;> (try dsimp only) <;> (repeat' split) <;> first | rfl | simp

theorem endProofPass_still {s t} (h : endProofPass s = some t) : Still t s := by
  unfold endProofPass at h
  (repeat' split at h) <;> first
    | (injection h with h; subst h
       refine ⟨?_, ?_, ?_, ?_⟩ <;> (try dsimp only) <;> first | rfl | simp)
    | simp at h

@[simp] theorem hearApprove_still (s k) : Still (hearApprove s k) s := by
  unfold hearApprove
  refine ⟨?_, ?_, ?_, ?_⟩ <;> (repeat' split) <;> first | rfl | simp

@[simp] theorem stopRelease_still (s k) : Still (stopRelease s k) s := by
  unfold stopRelease
  refine ⟨?_, ?_, ?_, ?_⟩ <;> rfl

@[simp] theorem killHeld_still (s t) : Still (killHeld s t) s := by
  unfold killHeld
  refine ⟨?_, ?_, ?_, ?_⟩ <;> (try dsimp only) <;> (repeat' split) <;> first | rfl | simp

@[simp] theorem killActive_still (s t) : Still (killActive s t) s := by
  unfold killActive
  refine ⟨?_, ?_, ?_, ?_⟩ <;> (try dsimp only) <;> (repeat' split) <;> first | rfl | simp

@[simp] theorem hearKill_still (s k) : Still (hearKill s k) s := by
  unfold hearKill
  refine ⟨?_, ?_, ?_, ?_⟩ <;> (try dsimp only) <;> (repeat' split) <;> first | rfl | simp

theorem killEmpties_still {s t} (h : killEmpties s = some t) : Still t s := by
  unfold killEmpties at h
  (repeat' split at h) <;> first
    | (injection h with h; subst h
       refine ⟨?_, ?_, ?_, ?_⟩ <;> first | rfl | simp)
    | simp at h

theorem killFinish_still {s t} (h : killFinish s = some t) : Still t s := by
  unfold killFinish at h
  (repeat' split at h) <;> first
    | (injection h with h; subst h
       refine ⟨?_, ?_, ?_, ?_⟩ <;> (try dsimp only) <;> first | rfl | simp)
    | simp at h

@[simp] theorem sendOffer_still (s k) : Still (sendOffer s k) s := by
  unfold sendOffer
  refine ⟨?_, ?_, ?_, ?_⟩ <;> (repeat' split) <;> first | rfl | simp

@[simp] theorem beginOffer_still (s k tries again) : Still (beginOffer s k tries again) s := by
  unfold beginOffer
  refine ⟨?_, ?_, ?_, ?_⟩ <;> first | rfl | simp

@[simp] theorem strand_still (s k) : Still (strand s k) s := by
  unfold strand
  refine ⟨?_, ?_, ?_, ?_⟩ <;> (try dsimp only) <;> (repeat' split) <;> first | rfl | simp

@[simp] theorem releaseFails_still (s k) : Still (releaseFails s k) s := by
  unfold releaseFails
  refine ⟨?_, ?_, ?_, ?_⟩ <;> (try dsimp only) <;> (repeat' split) <;> first | rfl | simp

theorem beginRelease_still {s t} (h : beginRelease s = some t) : Still t s := by
  unfold beginRelease at h
  split at h
  · simp at h
  · split at h
    · injection h with h; subst h; exact beginOffer_still _ _ _ _
    · obtain ⟨x, -, rfl⟩ := Option.map_eq_some_iff.mp h
      exact beginOffer_still _ _ _ _

theorem feedCopy_still {s t} (h : feedCopy s = some t) : Still t s := by
  unfold feedCopy at h
  (repeat' split at h) <;> first
    | (injection h with h; subst h
       refine ⟨?_, ?_, ?_, ?_⟩ <;> first | rfl | simp)
    | simp at h

@[simp] theorem hearClaim_still (s sender k) : Still (hearClaim s sender k) s := by
  unfold hearClaim
  refine ⟨?_, ?_, ?_, ?_⟩ <;> (try dsimp only) <;> (repeat' split) <;> rfl

@[simp] theorem hearTaken_still (s sender k) : Still (hearTaken s sender k) s := by
  unfold hearTaken
  refine ⟨?_, ?_, ?_, ?_⟩ <;> (repeat' split) <;> first | rfl | simp

@[simp] theorem hearRefused_still (s sender k) : Still (hearRefused s sender k) s := by
  unfold hearRefused
  refine ⟨?_, ?_, ?_, ?_⟩ <;> (repeat' split) <;> first | rfl | simp

@[simp] theorem takenWaitExpires_still (s k) : Still (takenWaitExpires s k) s := by
  unfold takenWaitExpires
  refine ⟨?_, ?_, ?_, ?_⟩ <;> (repeat' split) <;> first | rfl | simp

@[simp] theorem decideStranded_still (s t) : Still (decideStranded s t) s := by
  unfold decideStranded
  refine ⟨?_, ?_, ?_, ?_⟩ <;> (repeat' split) <;> rfl

@[simp] theorem strandTurn_still (s k) : Still (strandTurn s k) s := by
  have re (l : List Nat) (u : State) : Still (l.foldl reAskFont u) u := foldl_still _ (fun s f => reAskFont_still s f) l u
  unfold strandTurn
  split
  · split
    · dsimp only
      split
      · exact (State.modTake_still _ _ _).trans ((re _ _).trans (State.modTake_still s _ _))
      · exact (decideStranded_still _ _).trans (State.modTake_still s _ _)
    · exact ⟨rfl, rfl, rfl, rfl⟩
  · exact ⟨rfl, rfl, rfl, rfl⟩

theorem reaskReport_still {s t} (h : reaskReport s = some t) : Still t s := by
  obtain ⟨x, -, rfl⟩ := Option.map_eq_some_iff.mp h
  exact (decideStranded_still _ _).trans (State.modTake_still s _ _)

@[simp] theorem lapse_still (s sub) : Still (lapse s sub) s := by
  unfold lapse
  refine ⟨?_, ?_, ?_, ?_⟩ <;> (try dsimp only) <;> (repeat' split) <;> first | rfl | simp

@[simp] theorem agingExpires_still (s k) : Still (agingExpires s k) s := by
  unfold agingExpires
  refine ⟨?_, ?_, ?_, ?_⟩ <;> rfl

@[simp] theorem startHoming_still (s) : Still (startHoming s) s := by
  unfold startHoming
  refine ⟨?_, ?_, ?_, ?_⟩ <;> rfl

@[simp] theorem setStage_still (s g) : Still (setStage s g) s := by
  unfold setStage
  refine ⟨?_, ?_, ?_, ?_⟩ <;> (try dsimp only)

@[simp] theorem dueFilmNotice_still (s) : Still (dueFilmNotice s) s := by
  unfold dueFilmNotice
  refine ⟨?_, ?_, ?_, ?_⟩ <;> (try dsimp only) <;> (repeat' split) <;> first | rfl | simp

@[simp] theorem announceGone_still (s) : Still (announceGone s) s := by
  unfold announceGone
  refine ⟨?_, ?_, ?_, ?_⟩ <;> (repeat' split) <;> first | rfl | simp

@[simp] theorem announce_still (s) : Still (announce s) s := by
  unfold announce
  refine ⟨?_, ?_, ?_, ?_⟩ <;> (try dsimp only) <;> (repeat' split) <;> first | rfl | simp

@[simp] theorem homingFault_still (s m) : Still (homingFault s m) s := by
  unfold homingFault
  refine ⟨?_, ?_, ?_, ?_⟩ <;> (try dsimp only) <;> (repeat' split) <;> first | rfl | simp

@[simp] theorem withdrawFaultMarks_still (s) : Still (withdrawFaultMarks s) s := by
  unfold withdrawFaultMarks
  refine ⟨?_, ?_, ?_, ?_⟩ <;> (try dsimp only)

@[simp] theorem clearDone_still (s) : Still (clearDone s) s := by
  unfold clearDone
  refine ⟨?_, ?_, ?_, ?_⟩ <;> (try dsimp only) <;> rfl

@[simp] theorem readCassette_still (s code) : Still (readCassette s code) s := by
  unfold readCassette
  refine ⟨?_, ?_, ?_, ?_⟩ <;> (try dsimp only) <;> (repeat' split) <;> rfl

@[simp] theorem afterHoming_still (s tabs cassette) : Still (afterHoming s tabs cassette) s := by
  unfold afterHoming
  refine ⟨?_, ?_, ?_, ?_⟩ <;> (try dsimp only) <;> (repeat' split) <;> first | rfl | simp

theorem startCutDone_still {s t} (h : startCutDone s = some t) : Still t s := by
  unfold startCutDone at h
  (repeat' split at h) <;> first
    | (injection h with h; subst h
       refine ⟨?_, ?_, ?_, ?_⟩ <;> first | rfl | simp)
    | simp at h

@[simp] theorem seatIndexEvent_still (s seat) : Still (seatIndexEvent s seat) s := by
  unfold seatIndexEvent
  refine ⟨?_, ?_, ?_, ?_⟩ <;> (try dsimp only) <;> (repeat' split) <;> first | rfl | simp

@[simp] theorem lensEvent_still (s lens) : Still (lensEvent s lens) s := by
  unfold lensEvent
  refine ⟨?_, ?_, ?_, ?_⟩ <;> (try dsimp only) <;> (repeat' split) <;> first | rfl | simp

@[simp] theorem positionEvent_still (s tabs cassette) : Still (positionEvent s tabs cassette) s := by
  unfold positionEvent
  refine ⟨?_, ?_, ?_, ?_⟩ <;> (repeat' split) <;> first | rfl | simp

@[simp] theorem homingTimeout_still (s) : Still (homingTimeout s) s := by
  unfold homingTimeout
  refine ⟨?_, ?_, ?_, ?_⟩ <;> (repeat' split) <;> first | rfl | simp

@[simp] theorem takePaper_still (s) : Still (takePaper s) s := by
  unfold takePaper
  refine ⟨?_, ?_, ?_, ?_⟩ <;> (repeat' split) <;> first | rfl | simp

@[simp] theorem enterHold_still (s) : Still (enterHold s) s := by
  unfold enterHold
  refine ⟨?_, ?_, ?_, ?_⟩ <;> (try dsimp only) <;> (repeat' split) <;> rfl

@[simp] theorem holdKey_still (s) : Still (holdKey s) s := by
  unfold holdKey
  refine ⟨?_, ?_, ?_, ?_⟩ <;> (repeat' split) <;> first | rfl | simp

@[simp] theorem runKey_still (s) : Still (runKey s) s := by
  unfold runKey
  refine ⟨?_, ?_, ?_, ?_⟩ <;> (repeat' split) <;> first | rfl | simp

@[simp] theorem clearKey_still (s) : Still (clearKey s) s := by
  unfold clearKey
  refine ⟨?_, ?_, ?_, ?_⟩ <;> (try dsimp only) <;> (repeat' split) <;> rfl

@[simp] theorem cutKey_still (s) : Still (cutKey s) s := by
  unfold cutKey
  refine ⟨?_, ?_, ?_, ?_⟩ <;> (repeat' split) <;> first | rfl | simp

@[simp] theorem stopTimerOff_still (s) : Still (stopTimerOff s) s := by
  unfold stopTimerOff
  refine ⟨?_, ?_, ?_, ?_⟩ <;> (try dsimp only)

@[simp] theorem fontCallExpires_still (s) : Still (fontCallExpires s) s := by
  unfold fontCallExpires
  refine ⟨?_, ?_, ?_, ?_⟩ <;> (repeat' split) <;> rfl

@[simp] theorem filmOutExpires_still (s) : Still (filmOutExpires s) s := by
  unfold filmOutExpires
  refine ⟨?_, ?_, ?_, ?_⟩ <;> (repeat' split) <;> rfl

@[simp] theorem standbyExpires_still (s) : Still (standbyExpires s) s := by
  unfold standbyExpires
  refine ⟨?_, ?_, ?_, ?_⟩ <;> (try dsimp only) <;> (repeat' split) <;> rfl

@[simp] theorem claimEnds_still (s k e) : Still (claimEnds s k e) s := by
  unfold claimEnds
  refine ⟨?_, ?_, ?_, ?_⟩ <;> (try dsimp only) <;> (repeat' split) <;> first | rfl | simp

@[simp] theorem markSent_still (s k dest) : Still (markSent s k dest) s := by
  unfold markSent
  refine ⟨?_, ?_, ?_, ?_⟩ <;> rfl

@[simp] theorem startTakenWait_still (s k dest) : Still (startTakenWait s k dest) s := by
  unfold startTakenWait
  refine ⟨?_, ?_, ?_, ?_⟩ <;> rfl

@[simp] theorem copyMuted_still (s k dest) : Still (copyMuted s k dest) s := by
  unfold copyMuted
  refine ⟨?_, ?_, ?_, ?_⟩ <;> (repeat' split) <;> first | rfl | simp

@[simp] theorem offerEnds_still (s k) : Still (offerEnds s k) s := by
  unfold offerEnds
  refine ⟨?_, ?_, ?_, ?_⟩ <;> (repeat' split) <;> rfl

@[simp] theorem tellProducer_still (s f e) : Still (tellProducer s f e) s := by
  unfold tellProducer
  refine ⟨?_, ?_, ?_, ?_⟩ <;> (repeat' split) <;> first | rfl | simp

@[simp] theorem frameEnds_still (s e) : Still (frameEnds s e) s := by
  unfold frameEnds
  refine ⟨?_, ?_, ?_, ?_⟩ <;> (try dsimp only) <;> (repeat' split) <;> first | rfl | simp

@[simp] theorem becomeMuted_still (s) : Still (becomeMuted s) s := by
  unfold becomeMuted
  split
  · exact ⟨rfl, rfl, rfl, rfl⟩
  · exact foldl_still _ (fun s f => tellProducer_still s f .muted) _ _

@[simp] theorem badFrame_still (s) : Still (badFrame s) s := by
  unfold badFrame
  refine ⟨?_, ?_, ?_, ?_⟩ <;> (try dsimp only) <;> rfl

@[simp] theorem brokenHeard_still (s) : Still (brokenHeard s) s := by
  unfold brokenHeard
  refine ⟨?_, ?_, ?_, ?_⟩ <;> (try dsimp only) <;> (repeat' split) <;> rfl

@[simp] theorem badHeard_still (s) : Still (badHeard s) s := by
  unfold badHeard
  refine ⟨?_, ?_, ?_, ?_⟩ <;> (repeat' split) <;> rfl

@[simp] theorem hearTable_still (s font revision widths) : Still (hearTable s font revision widths) s := by
  unfold hearTable
  dsimp only
  refine ⟨?_, ?_, ?_, ?_⟩ <;> (repeat' split) <;> first | rfl | simp

@[simp] theorem startPoint_still (s) : Still (startPoint s) s := by
  unfold startPoint
  refine ⟨?_, ?_, ?_, ?_⟩ <;> (try dsimp only) <;> (repeat' split) <;> rfl

@[simp] theorem arbitrationLost_still (s) : Still (arbitrationLost s) s := by
  unfold arbitrationLost
  refine ⟨?_, ?_, ?_, ?_⟩ <;> (try dsimp only) <;> (repeat' split) <;> rfl

@[simp] theorem idleGap_still (s) : Still (idleGap s) s := by
  unfold idleGap
  refine ⟨?_, ?_, ?_, ?_⟩ <;> (try dsimp only) <;> (repeat' split) <;> rfl

@[simp] theorem idleSlot_still (s) : Still (idleSlot s) s := by
  unfold idleSlot
  refine ⟨?_, ?_, ?_, ?_⟩ <;> (try dsimp only) <;> (repeat' split) <;> rfl

theorem firstDue_cases {s t : State} {l : List (State → Option State)} (h : firstDue s l = some t) :
    ∃ r ∈ l, r s = some t := by
  induction l with
  | nil => simp [firstDue] at h
  | cons r l ih =>
    unfold firstDue at h
    split at h
    · exact ⟨r, by simp, by simp_all⟩
    · obtain ⟨q, hq, e⟩ := ih h
      exact ⟨q, List.mem_cons_of_mem _ hq, e⟩

theorem reaction_still {r : State → Option State} (hr : r ∈ reactions) {s t : State} (h : r s = some t) : Still t s := by
  simp only [reactions, List.mem_cons, List.not_mem_nil, or_false] at hr
  obtain rfl | rfl | rfl | rfl | rfl | rfl | rfl | rfl | rfl | rfl | rfl | rfl | rfl | rfl | rfl | rfl | rfl | rfl |
    rfl | rfl | rfl | rfl | rfl := hr
  · exact storeRemove_still h
  · exact retryLine_still h
  · exact parkAnswer_still h
  · exact killEmpties_still h
  · exact askEndCut_still h
  · exact parkFinish_still h
  · exact killFinish_still h
  · exact completeTake_still h
  · exact endProofPass_still h
  · exact reaskReport_still h
  · exact beginRelease_still h
  · exact feedCopy_still h
  · exact startCutDone_still h
  · exact serveFilm_still h
  · exact endHalted_still h
  · exact checkLine_still h
  · exact goLine_still h
  · exact scanStep_still h
  · exact beginExposure_still h
  · exact selectTake_still h
  · exact takeLine_still h
  · exact beginChar_still h
  · exact retestWindows_still h

/-- A property that every reaction keeps is kept by settling. -/

theorem settle_keeps {P : State → Prop} (h : ∀ r ∈ reactions, ∀ s t, P s → r s = some t → P t) {s : State} (p : P s) :
    P (settle s) := by
  have go : ∀ n s, P s → P (settleWithin n s) := by
    intro n
    induction n with
    | zero => intro s p; exact p
    | succ n ih =>
      intro s p
      unfold settleWithin
      split
      · next t e =>
        obtain ⟨r, hr, he⟩ := firstDue_cases e
        exact ih t (h r hr s t p he)
      · exact p
  exact go _ s p

@[simp] theorem settle_still (s : State) : Still (settle s) s :=
  settle_keeps (P := fun t => Still t s) (fun _ hr _ _ p e => (reaction_still hr e).trans p) ⟨rfl, rfl, rfl, rfl⟩

/-! ### The operations that change one of them -/

@[simp] theorem correctLamp_pending (s n) :
    (correctLamp s n).pending = s.pending ∧ (correctLamp s n).mem = s.mem ∧ (correctLamp s n).hyph = s.hyph ∧
      (correctLamp s n).lamp = s.lamp.take n := by
  unfold correctLamp
  refine ⟨?_, ?_, ?_, ?_⟩ <;> dsimp only <;> split <;> simp [produce] <;> split <;> (try split) <;> rfl

@[simp] theorem flashDone_pending (s n) :
    (flashDone s n).pending = s.pending ∧ (flashDone s n).mem = s.mem ∧ (flashDone s n).hyph = s.hyph ∧
      ((flashDone s n).lamp.fixed = s.lamp.fixed ∨ (flashDone s n).lamp.fixed = (s.lamp.take n).fixed) := by
  unfold flashDone
  split
  · dsimp only
    split <;> simp [modCur, modExp]
  · simp

@[simp] theorem hearCopy_other (s a k o d) :
    (hearCopy s a k o d).pending = s.pending ∧ (hearCopy s a k o d).hyph = s.hyph ∧
      (hearCopy s a k o d).lamp = s.lamp := by
  unfold hearCopy
  refine ⟨?_, ?_, ?_⟩ <;> split <;> (try dsimp only) <;> (repeat' split) <;> rfl

@[simp] theorem produce_lamp (s k b) : (produce s k b).lamp = s.lamp := by
  unfold produce
  (repeat' split) <;> rfl

@[simp] theorem hearAdd_other (s b) :
    (hearAdd s b).pending = s.pending ∧ (hearAdd s b).mem = s.mem ∧ (hearAdd s b).lamp = s.lamp := by
  unfold hearAdd addException
  refine ⟨?_, ?_, ?_⟩ <;> (repeat' split) <;> (try dsimp only) <;> (repeat' split) <;> simp [countBad]

@[simp] theorem hearDelete_other (s b) :
    (hearDelete s b).pending = s.pending ∧ (hearDelete s b).mem = s.mem ∧ (hearDelete s b).lamp = s.lamp := by
  unfold hearDelete deleteException
  refine ⟨?_, ?_, ?_⟩ <;> (repeat' split) <;> (try dsimp only) <;> (repeat' split) <;> simp [countBad]

@[simp] theorem romRead_other (s r) : (romRead s r).pending = s.pending ∧ (romRead s r).mem = s.mem := by
  unfold romRead
  refine ⟨?_, ?_⟩ <;> split <;> simp

@[simp] theorem lineReset_still (s p) : Still (lineReset s p) s := by
  unfold lineReset
  refine ⟨?_, ?_, ?_, ?_⟩ <;> dsimp only <;> split <;> simp <;> rfl

@[simp] theorem powerOn_other (s p) : (powerOn s p).pending = s.pending ∧ (powerOn s p).mem = [] ∧
    (powerOn s p).hyph = State.reset.hyph ∧ (powerOn s p).lamp.fixed = State.reset.lamp := by
  unfold powerOn
  refine ⟨(takePaper_still _).1, (takePaper_still _).2.1, (takePaper_still _).2.2.1, (takePaper_still _).2.2.2⟩

/-- Reading a byte keeps what its action keeps. -/

theorem readByte_still {s p act} (h : ∀ r b, Still (act r b) s) : Still (readByte s p act) s := by
  unfold readByte
  (repeat' split) <;> first | exact h _ _ | exact ⟨rfl, rfl, rfl, rfl⟩

/-- A copy command keeps what its action keeps. -/

theorem copyCommand_still {s code n act} (h : ∀ r a u, Still (act r a u) u) :
    Still (copyCommand s code n act) s := by
  unfold copyCommand
  apply readByte_still
  intro r b
  split
  · exact (h _ _ _).trans (readPast_still _ _)
  · exact (readPast_still _ _).trans (addCopyErrors_still _ _)

/-- What a received frame comes to: passed over, bad, or heard, with the station muted by its own number and the frame taken
or not. -/

theorem receive_cases (s : State) (h : Header) (ok taken : Bool) (act : State → State) :
    receive s h ok taken act = s ∨ receive s h ok taken act = badFrame s ∨
      ∃ u, Still u s ∧ (receive s h ok taken act = u ∨ receive s h ok taken act = act u) := by
  unfold receive
  split
  · split
    · right; right
      dsimp only
      refine ⟨if h.sender = s.number then becomeMuted { s with line := { s.line with phase := .gapDue } }
        else { s with line := { s.line with phase := .gapDue } }, ?_, ?_⟩
      · split
        · exact becomeMuted_still _
        · exact ⟨rfl, rfl, rfl, rfl⟩
      · cases taken
        · exact Or.inl rfl
        · exact Or.inr rfl
    · exact Or.inr (Or.inl rfl)
  · exact Or.inl rfl

end Sys2Proof.Machine
end

