-- ==== Sys2Proof/Laws/Bounds.lean ====
section
/-! SUPPORT. Every operation and reaction keeps the bounds of the Line Interface, the Film Transport and the Set-Line Store
(`lineOk`, `filmOk`, `storeOk` of Safety.lean): one lemma for each, and one for settling. -/

namespace Sys2Proof.Machine

/-- Each bound that holds of `s` holds of `t`. -/
abbrev Within (s t : State) : Prop :=
  (lineOk s.line → lineOk t.line) ∧ (filmOk s.film → filmOk t.film) ∧ (storeOk s.store → storeOk t.store)

theorem Within.rfl {s : State} : Within s s := ⟨id, id, id⟩
theorem Within.trans {s t u : State} (h : Within s t) (k : Within t u) : Within s u :=
  ⟨k.1 ∘ h.1, k.2.1 ∘ h.2.1, k.2.2 ∘ h.2.2⟩

theorem insertFrame_length (f : TxFrame) (q) : (insertFrame f q).length = q.length + 1 := by
  induction q with
  | nil => rfl
  | cons e q ih => unfold insertFrame; split <;> simp [ih]
theorem mem_insertFrame_cases {f : TxFrame} {x : TxEntry} {q : List TxEntry} (h : x ∈ insertFrame f q) :
    x = { frame := f, begun := false } ∨ x ∈ q := by
  induction q with
  | nil => exact .inl (by simpa [insertFrame] using h)
  | cons e q ih =>
    unfold insertFrame at h; split at h <;> simp only [List.mem_cons] at h ⊢
    · rcases h with h | h
      · exact .inr (.inl h)
      · exact (ih h).imp_right .inr
    · exact h

/-- The order of the transmit queue (R170). -/
abbrev Queued (a b : TxEntry) : Prop := b.begun = false ∧ (a.begun = false → a.frame.kind ≤ b.frame.kind)

/-- A frame that enters keeps the order (R170). -/
theorem insertFrame_queued (f : TxFrame) {q : List TxEntry} (h : q.Pairwise Queued) : (insertFrame f q).Pairwise Queued := by
  induction q with
  | nil => simp [insertFrame]
  | cons e q ih =>
    rw [List.pairwise_cons] at h
    unfold insertFrame
    split
    · next n =>
      refine List.pairwise_cons.2 ⟨fun x hx => ?_, ih h.2⟩
      rcases mem_insertFrame_cases hx with rfl | hx
      · exact ⟨rfl, fun k => by simpa [k] using n⟩
      · exact h.1 x hx
    · next n =>
      simp only [not_or, Bool.not_eq_true] at n
      refine List.pairwise_cons.2 ⟨fun x hx => ?_, List.pairwise_cons.2 h⟩
      rcases List.mem_cons.1 hx with rfl | hx
      · exact ⟨n.1, fun _ => by dsimp only; omega⟩
      · exact ⟨(h.1 x hx).1, fun _ => by have := (h.1 x hx).2 n.1; dsimp only; omega⟩

/-- A queue with room takes a frame (R170). -/
theorem insertFrame_queueOk {l : LineInterface} (f : TxFrame) (n : l.queue.length < 8) (h : queueOk l) :
    queueOk { l with queue := insertFrame f l.queue } := by
  refine ⟨by simp only [insertFrame_length]; omega, insertFrame_queued f h.2.1, fun k x hx => ?_⟩
  rcases mem_insertFrame_cases hx with rfl | hx
  · rfl
  · exact h.2.2 k x hx

/-- Frames that leave keep the order of the others. -/
theorem filter_queueOk {l : LineInterface} (p : TxEntry → Bool) (h : queueOk l) :
    queueOk { l with queue := l.queue.filter p } :=
  ⟨Nat.le_trans (List.length_filter_le _ _) h.1, h.2.1.filter _, fun k x hx => h.2.2 k x (List.mem_filter.1 hx).1⟩

theorem rejoinFrame_mem {f : TxFrame} {x : TxEntry} {q : List TxEntry} (h : x ∈ rejoinFrame f q) :
    x = { frame := f, begun := false } ∨ x ∈ q := by
  induction q with
  | nil => exact .inl (by simpa [rejoinFrame] using h)
  | cons e q ih =>
    unfold rejoinFrame at h; split at h <;> simp only [List.mem_cons] at h ⊢
    · rcases h with h | h
      · exact .inr (.inl h)
      · exact (ih h).imp_right .inr
    · exact h
theorem rejoinFrame_length (f : TxFrame) (q) : (rejoinFrame f q).length = q.length + 1 := by
  induction q with
  | nil => rfl
  | cons e q ih => unfold rejoinFrame; split <;> simp [ih]

/-- A frame no longer being sent takes its place in the order (R164, R170). -/
theorem rejoinFrame_queued (f : TxFrame) {q : List TxEntry} (n : ∀ e ∈ q, e.begun = false) (h : q.Pairwise Queued) :
    (rejoinFrame f q).Pairwise Queued := by
  induction q with
  | nil => simp [rejoinFrame]
  | cons e q ih =>
    rw [List.pairwise_cons] at h
    rw [List.forall_mem_cons] at n
    unfold rejoinFrame
    split
    · refine List.pairwise_cons.2 ⟨fun x hx => ?_, ih n.2 h.2⟩
      rcases rejoinFrame_mem hx with rfl | hx
      · exact ⟨rfl, fun _ => by dsimp only; omega⟩
      · exact h.1 x hx
    · refine List.pairwise_cons.2 ⟨fun x hx => ?_, List.pairwise_cons.2 h⟩
      rcases List.mem_cons.1 hx with rfl | hx
      · exact ⟨n.1, fun _ => by dsimp only; omega⟩
      · exact ⟨(h.1 x hx).1, fun _ => by have := (h.1 x hx).2 n.1; dsimp only; omega⟩

theorem satAdd_le (t n k : Nat) : satAdd t n k ≤ t := Nat.min_le_left _ _
theorem foldl_within {α : Type} (f : State → α → State) (h : ∀ s a, Within s (f s a)) (l : List α) :
    ∀ s, Within s (l.foldl f s) := by
  induction l with
  | nil => intro s; exact Within.rfl
  | cons a l ih => intro s; exact (h s a).trans (ih _)

/-- Only the line interface changes, within its bounds. -/
theorem within_line {s t : State} (h : lineOk s.line → lineOk t.line) (f : t.film = s.film) (g : t.store = s.store) :
    Within s t := ⟨h, fun k => f ▸ k, fun k => g ▸ k⟩

theorem sameItems_storeOk {st : LineStore} (f : LineRecord → LineRecord) (h : ∀ r, (f r).items = r.items) {m}
    (k : storeOk st) : storeOk { records := st.records.map f, marker := m } := by
  refine ⟨by simpa using k.1, ?_⟩
  have : LineStore.used { records := st.records.map f, marker := m } = st.used := by
    simp [LineStore.used, Function.comp_def, h]
  rw [this]; exact k.2
@[simp] theorem State.modTake_within (s k f) : Within s (State.modTake s k f) := by
  unfold State.modTake
  refine ⟨fun h => ?_, fun h => ?_, fun h => ?_⟩ <;> (try dsimp only) <;>
    exact h

@[simp] theorem State.modActive_within (s f) : Within s (State.modActive s f) := by
  unfold State.modActive
  refine ⟨fun h => ?_, fun h => ?_, fun h => ?_⟩ <;> (try dsimp only) <;>
    exact h

@[simp] theorem State.modPass_within (s f) : Within s (State.modPass s f) := by
  unfold State.modPass
  refine ⟨fun h => ?_, fun h => ?_, fun h => ?_⟩ <;> (try dsimp only) <;>
    exact h

@[simp] theorem State.noteMoment_within (s) : Within s (State.noteMoment s) := by
  unfold State.noteMoment
  refine ⟨fun h => ?_, fun h => ?_, fun h => ?_⟩ <;> (try dsimp only) <;>
    exact h

@[simp] theorem putFrame_within (s f) : Within s (putFrame s f) := by
  unfold putFrame
  split
  · exact Within.rfl
  · next n =>
    simp [LineInterface.full] at n; simp only [Config.queueFrames] at n
    exact within_line (fun h => ⟨insertFrame_queueOk f (by omega) h.1, h.2⟩) rfl rfl

@[simp] theorem produce_within (s k b) : Within s (produce s k b) := by
  unfold produce
  split
  · exact within_line (fun h => ⟨h.1, h.2.1, h.2.2.1, h.2.2.2.1, satAdd_le _ _ _⟩) rfl rfl
  · next n =>
    simp [LineInterface.full] at n; simp only [Config.queueFrames] at n
    exact within_line (fun h => ⟨insertFrame_queueOk _ (by omega) h.1, h.2⟩) rfl rfl

@[simp] theorem giveRoom_within (s) : Within s (giveRoom s) := by
  unfold giveRoom
  split
  · next n =>
    simp only [Config.queueFrames] at n
    split
    · exact within_line (fun h => ⟨insertFrame_queueOk _ n h.1, h.2⟩) rfl rfl
    · exact Within.rfl
  · exact Within.rfl

@[simp] theorem withdraw_within (s p) : Within s (withdraw s p) :=
  within_line (fun h => ⟨filter_queueOk _ h.1, h.2⟩) rfl rfl

@[simp] theorem cancelWindows_within (s p) : Within s (cancelWindows s p) :=
  within_line (fun h => ⟨filter_queueOk _ h.1, Nat.le_trans (List.length_filter_le _ _) h.2.1, h.2.2⟩) rfl rfl

@[simp] theorem endWindow_within (s p) : Within s (endWindow s p) :=
  within_line (fun h => ⟨h.1, Nat.le_trans (List.length_filter_le _ _) h.2.1, h.2.2⟩) rfl rfl

@[simp] theorem startWatch_within (s p) : Within s (startWatch s p) := within_line id rfl rfl

@[simp] theorem endWatch_within (s p) : Within s (endWatch s p) := within_line id rfl rfl

@[simp] theorem countBad_within (s) : Within s (countBad s) :=
  within_line (fun h => ⟨h.1, h.2.1, h.2.2.1, satAdd_le _ _ _, h.2.2.2.2⟩) rfl rfl

@[simp] theorem countBroken_within (s) : Within s (countBroken s) :=
  within_line (fun h => ⟨h.1, h.2.1, satAdd_le _ _ _, h.2.2.2⟩) rfl rfl

theorem setFilm_within (s n k) (r : n ≤ 1700000) : Within s (setFilm s n k) := by
  unfold setFilm
  dsimp only
  split
  · refine Within.trans ?_ (produce_within _ _ _)
    exact ⟨id, fun h => ⟨r, h.2⟩, id⟩
  · exact ⟨id, fun h => ⟨r, h.2⟩, id⟩
theorem lowerFilm_within (s n k) : Within s (setFilm s (s.film.remaining - n) k) := by
  refine ⟨?_, fun h => (setFilm_within s _ k (Nat.le_trans (Nat.sub_le _ _) h.1)).2.1 h, ?_⟩
  · unfold setFilm
    dsimp only
    split
    · intro h; exact (produce_within _ _ _).1 h
    · exact id
  · unfold setFilm
    dsimp only
    split
    · intro h; exact (produce_within _ _ _).2.2 h
    · exact id

@[simp] theorem lookup_within (s f c) : Within s (lookup s f c).2 := by
  unfold lookup; dsimp only; (repeat' split) <;> exact Within.rfl

@[simp] theorem ask_within (s font) : Within s (ask s font) := by
  unfold ask
  refine ⟨fun h => ?_, fun h => ?_, fun h => ?_⟩ <;> (repeat' split) <;>
    first | exact h | simp (maxDischargeDepth := 12) [h]

@[simp] theorem endAsk_within (s font) : Within s (endAsk s font) := by
  unfold endAsk
  refine ⟨fun h => ?_, fun h => ?_, fun h => ?_⟩ <;>
    first | exact h | simp (maxDischargeDepth := 12) [h]

@[simp] theorem reAskFont_within (s font) : Within s (reAskFont s font) := by
  unfold reAskFont
  refine ⟨fun h => ?_, fun h => ?_, fun h => ?_⟩ <;> (repeat' split) <;>
    first | exact h | simp (maxDischargeDepth := 12) [h]

@[simp] theorem claimFont_within (s font) : Within s (claimFont s font) := by
  unfold claimFont
  refine ⟨fun h => ?_, fun h => ?_, fun h => ?_⟩ <;> (try dsimp only) <;> (repeat' split) <;>
    first | exact h | simp (maxDischargeDepth := 12) [h]

@[simp] theorem claimFonts_within (s fonts) : Within s (claimFonts s fonts) :=
  foldl_within _ (fun s f => claimFont_within s f) _ s

@[simp] theorem unpinFont_within (s font) : Within s (unpinFont s font) := by
  unfold unpinFont
  refine ⟨fun h => ?_, fun h => ?_, fun h => ?_⟩ <;> (try dsimp only) <;> (repeat' split) <;>
    first | exact h | simp (maxDischargeDepth := 12) [h]

@[simp] theorem unpinFonts_within (s fonts) : Within s (unpinFonts s fonts) :=
  foldl_within _ (fun s f => unpinFont_within s f) _ s

@[simp] theorem markReady_within (s) : Within s (markReady s) := by
  unfold markReady
  refine ⟨fun h => ?_, fun h => ?_, fun h => ?_⟩ <;> (try dsimp only) <;>
    exact h

@[simp] theorem askEnded_within (s font) : Within s (askEnded s font) := ⟨id, id, id⟩

@[simp] theorem fillSlot_within (s i sl font revision widths) : Within s (fillSlot s i sl font revision widths) := by
  unfold fillSlot
  have k : Within s { askEnded s font with
      width := (s.width.setSlot i { sl with state := .valid revision widths }).toRecent i } := ⟨id, id, id⟩
  exact k.trans ((endAsk_within _ _).trans (markReady_within _))

@[simp] theorem replaceTable_within (s i sl font revision widths) : Within s (replaceTable s i sl font revision widths) := by
  unfold replaceTable
  refine ⟨fun h => ?_, fun h => ?_, fun h => ?_⟩ <;> (try dsimp only) <;>
    exact h

@[simp] theorem tableToSlot_within (s font revision widths) : Within s (tableToSlot s font revision widths) := by
  unfold tableToSlot
  refine ⟨fun h => ?_, fun h => ?_, fun h => ?_⟩ <;> (try dsimp only) <;> (repeat' split) <;>
    first | exact h | simp (maxDischargeDepth := 12) [h]

@[simp] theorem tableToWindows_within (s font revision) : Within s (tableToWindows s font revision) := by
  unfold tableToWindows
  refine ⟨fun h => ?_, fun h => ?_, fun h => ?_⟩ <;> (repeat' split) <;>
    first | exact h | simp (maxDischargeDepth := 12) [h]

theorem openWindow_within (s w n f) (r : s.windowRoom = true) : Within s (openWindow s w n f) := by
  unfold openWindow
  simp [State.windowRoom] at r; simp only [Config.maxWindows] at r
  have k : ∀ w : Window, Within s { s with line := { s.line with windows := s.line.windows ++ [w] } } := by
    intro w
    refine within_line (fun h => ⟨h.1, ?_, h.2.2⟩) rfl rfl
    simp only [List.length_append, List.length_singleton]; omega
  dsimp only
  split
  · split
    · exact (k _).trans (putFrame_within _ _)
    · exact k _
  · exact k _

@[simp] theorem hearAsk_within (s font) : Within s (hearAsk s font) := by
  unfold hearAsk
  split
  · split
    · next c => exact openWindow_within _ _ _ _ c.2.2.1
    · exact Within.rfl
  · split
    · split
      · exact (withdraw_within _ _).trans (startWatch_within _ _)
      · exact Within.rfl
    · exact Within.rfl

@[simp] theorem expireWindow_within (s x) : Within s (expireWindow s x) := by
  unfold expireWindow
  split
  · split
    · refine Within.trans (t := { s with line := { s.line with windows := s.line.windows.map (fun v =>
        if v.what.subject == x then { v with queued := true } else v) } }) ?_ (putFrame_within _ _)
      exact within_line (fun h => ⟨h.1, by simpa using h.2.1, h.2.2⟩) rfl rfl
    · exact endWindow_within _ _
  · exact Within.rfl

@[simp] theorem warmUp_within (s) : Within s (warmUp s) := by
  unfold warmUp
  refine ⟨fun h => ?_, fun h => ?_, fun h => ?_⟩ <;> (try dsimp only) <;> (repeat' split) <;>
    exact h

@[simp] theorem lampOff_within (s) : Within s (lampOff s) := by
  unfold lampOff
  refine ⟨fun h => ?_, fun h => ?_, fun h => ?_⟩ <;> (try dsimp only) <;>
    exact h

@[simp] theorem warmUpExpires_within (s) : Within s (warmUpExpires s) := by
  unfold warmUpExpires
  refine ⟨fun h => ?_, fun h => ?_, fun h => ?_⟩ <;> (try dsimp only) <;> (repeat' split) <;>
    exact h

@[simp] theorem freeTake_within (s k) : Within s (freeTake s k) := by
  unfold freeTake
  refine ⟨fun h => ?_, fun h => ?_, fun h => ?_⟩ <;> (repeat' split) <;>
    first | exact h | simp (maxDischargeDepth := 12) [h]

@[simp] theorem examineStranded_within (s) : Within s (examineStranded s) := by
  unfold examineStranded
  refine ⟨fun h => ?_, fun h => ?_, fun h => ?_⟩ <;> (try dsimp only) <;>
    exact h

@[simp] theorem enterRun_within (s) : Within s (enterRun s) := by
  unfold enterRun
  refine ⟨fun h => ?_, fun h => ?_, fun h => ?_⟩ <;> (try dsimp only) <;> (repeat' split) <;>
    exact h

@[simp] theorem wake_within (s) : Within s (wake s) := by
  unfold wake
  refine ⟨fun h => ?_, fun h => ?_, fun h => ?_⟩ <;> (repeat' split) <;>
    first | exact h | simp (maxDischargeDepth := 12) [h]

@[simp] theorem toQueued_within (s k) : Within s (toQueued s k) := by
  unfold toQueued
  refine ⟨fun h => ?_, fun h => ?_, fun h => ?_⟩ <;>
    first | exact h | simp (maxDischargeDepth := 12) [h]

@[simp] theorem markTakes_within (s r p) : Within s (markTakes s r p) := by
  unfold markTakes
  refine ⟨fun h => ?_, fun h => ?_, fun h => ?_⟩ <;> (try dsimp only) <;>
    exact h

@[simp] theorem closeClaims_within (s) : Within s (closeClaims s) := by
  unfold closeClaims
  refine ⟨fun h => ?_, fun h => ?_, fun h => ?_⟩ <;>
    first | exact h | simp (maxDischargeDepth := 12) [h]

@[simp] theorem requestPark_within (s reason) : Within s (requestPark s reason) := by
  unfold requestPark
  refine ⟨fun h => ?_, fun h => ?_, fun h => ?_⟩ <;>
    exact h

@[simp] theorem recordStop_within (s t line kind font door toHold) : Within s (recordStop s t line kind font door toHold) := by
  unfold recordStop
  refine ⟨fun h => ?_, fun h => ?_, fun h => ?_⟩ <;> (try dsimp only) <;> (repeat' split) <;>
    first | exact h | simp (maxDischargeDepth := 12) [h]

@[simp] theorem raiseStop_within (s kind font door) : Within s (raiseStop s kind font door) := by
  unfold raiseStop
  refine ⟨fun h => ?_, fun h => ?_, fun h => ?_⟩ <;> (repeat' split) <;>
    first | exact h | simp (maxDischargeDepth := 12) [h]

@[simp] theorem leaveStopped_within (s r) : Within s (leaveStopped s r) := by
  unfold leaveStopped
  refine ⟨fun h => ?_, fun h => ?_, fun h => ?_⟩ <;> (try dsimp only) <;> (repeat' split) <;>
    exact h

@[simp] theorem clearStop_within (s) : Within s (clearStop s) := by
  unfold clearStop
  refine ⟨fun h => ?_, fun h => ?_, fun h => ?_⟩ <;> (try dsimp only) <;> (repeat' split) <;>
    first | exact h | simp (maxDischargeDepth := 12) [h]

@[simp] theorem dropStop_within (s k) : Within s (dropStop s k) := by
  unfold dropStop
  refine ⟨fun h => ?_, fun h => ?_, fun h => ?_⟩ <;> (repeat' split) <;>
    first | exact h | simp (maxDischargeDepth := 12) [h]

@[simp] theorem takeFault_within (s kind mech) : Within s (takeFault s kind mech) := by
  unfold takeFault
  refine ⟨fun h => ?_, fun h => ?_, fun h => ?_⟩ <;> (try dsimp only) <;>
    first | exact h | simp (maxDischargeDepth := 12) [h]

@[simp] theorem furtherFault_within (s kind mech) : Within s (furtherFault s kind mech) := by
  unfold furtherFault
  refine ⟨fun h => ?_, fun h => ?_, fun h => ?_⟩ <;> (try dsimp only) <;> (repeat' split) <;>
    first | exact h | simp (maxDischargeDepth := 12) [h]

@[simp] theorem enterHalt_within (s mech atClear) : Within s (enterHalt s mech atClear) := by
  unfold enterHalt
  refine ⟨fun h => ?_, fun h => ?_, fun h => ?_⟩ <;> (try dsimp only) <;> (repeat' split) <;>
    first | exact h | simp (maxDischargeDepth := 12) [h]

@[simp] theorem reportFault_within (s kind mech) : Within s (reportFault s kind mech) := by
  unfold reportFault
  refine ⟨fun h => ?_, fun h => ?_, fun h => ?_⟩ <;> (try dsimp only) <;> (repeat' split) <;>
    first | exact h | simp (maxDischargeDepth := 12) [h]


@[simp] theorem closeGalley_within (s m) : Within s (closeGalley s m) := by
  unfold closeGalley
  split
  · next g e =>
    refine ⟨id, fun h => ⟨h.1, ?_⟩, id⟩
    have := h.2
    simp [e] at this
    simpa [State.modTake] using this
  · exact Within.rfl

@[simp] theorem growGalley_within (s n) : Within s (growGalley s n) := by
  refine ⟨id, fun h => ⟨h.1, ?_⟩, id⟩
  have := h.2
  simpa [growGalley] using this

@[simp] theorem cutDone_within (s c) : Within s (cutDone s c) := by
  unfold cutDone
  refine ⟨fun h => ?_, fun h => ?_, fun h => ?_⟩ <;> (try dsimp only) <;> (repeat' split) <;>
    exact h

@[simp] theorem askCut_within (s c) : Within s (askCut s c) := by
  unfold askCut
  refine ⟨fun h => ?_, fun h => ?_, fun h => ?_⟩ <;> (try dsimp only) <;> (repeat' split) <;>
    first | exact h | simp (maxDischargeDepth := 12) [h]

@[simp] theorem finishCut_within (s c uncut) : Within s (finishCut s c uncut) := by
  have k : Within s { s with film := { s.film with transport := .idle } } := ⟨id, id, id⟩
  unfold finishCut
  dsimp only
  refine Within.trans ?_ (cutDone_within _ c)
  split
  · exact k
  · exact k.trans (closeGalley_within _ _)

@[simp] theorem toCutter_within (s c) : Within s (toCutter s c) := by
  unfold toCutter
  refine ⟨fun h => ?_, fun h => ?_, fun h => ?_⟩ <;> (try dsimp only) <;> (repeat' split) <;>
    first | exact h | simp (maxDischargeDepth := 12) [h]

@[simp] theorem beginCut_within (s c) : Within s (beginCut s c) := by
  unfold beginCut
  split
  · exact cutDone_within _ _
  · split
    · have k := (lowerFilm_within s (min Config.trailer s.film.remaining) s.film.known).trans
        (growGalley_within _ (min Config.trailer s.film.remaining))
      dsimp only
      split
      · exact toCutter_within _ _
      · exact k.trans ⟨id, id, id⟩
    · exact toCutter_within _ _

theorem beginAdvance_within (s key line leading) (r : s.film.manifestFull = false) :
    Within s (beginAdvance s key line leading) := by
  have o : Within s (if s.film.galley.isNone then openGalley s key line else s) := by
    split
    · next g =>
      refine ⟨id, fun h => ⟨h.1, ?_⟩, id⟩
      simp [Film.manifestFull, g] at r
      simp only [Config.manifestRecords] at r
      simp [openGalley]; omega
    · exact Within.rfl
  unfold beginAdvance
  dsimp only
  split
  · exact o
  · exact (o.trans ((lowerFilm_within _ _ _).trans (growGalley_within _ _))).trans ⟨id, id, id⟩

@[simp] theorem dropRequest_within (s) : Within s (dropRequest s) := by
  unfold dropRequest
  refine ⟨fun h => ?_, fun h => ?_, fun h => ?_⟩ <;> (try dsimp only) <;>
    exact h

@[simp] theorem produceManifest_within (s) : Within s (produceManifest s) := by
  have k := foldl_within (fun (st : State) (p : List Galley × Nat) =>
      produce st none (.manifest (p.2 + 1) (chunks Config.manifestChunk 8 s.film.manifest).length p.1))
    (fun st p => produce_within st none _) (chunks Config.manifestChunk 8 s.film.manifest).zipIdx s
  refine ⟨k.1, fun h => ?_, k.2.2⟩
  have := k.2.1 h
  refine ⟨this.1, ?_⟩
  show 0 + (if _ then 1 else 0) ≤ 64
  split <;> simp

@[simp] theorem loadCassette_within (s code) : Within s (loadCassette s code) := by
  refine Within.trans (t := { s with film := { s.film with lowNotified := false } }) ⟨id, id, id⟩
    (setFilm_within _ _ _ ?_)
  unfold cassetteSteps; split <;> simp

@[simp] theorem State.count_within (s f) : Within s (State.count s f) := by
  unfold State.count
  refine ⟨fun h => ?_, fun h => ?_, fun h => ?_⟩ <;>
    exact h

@[simp] theorem addCopyErrors_within (s n) : Within s (addCopyErrors s n) := by
  unfold addCopyErrors
  refine ⟨fun h => ?_, fun h => ?_, fun h => ?_⟩ <;>
    exact h

@[simp] theorem addClamped_within (s n) : Within s (addClamped s n) := by
  unfold addClamped
  refine ⟨fun h => ?_, fun h => ?_, fun h => ?_⟩ <;>
    exact h

@[simp] theorem addSubstituted_within (s n) : Within s (addSubstituted s n) := by
  unfold addSubstituted
  refine ⟨fun h => ?_, fun h => ?_, fun h => ?_⟩ <;>
    exact h

@[simp] theorem modComp_within (s f) : Within s (modComp s f) := by
  unfold modComp
  refine ⟨fun h => ?_, fun h => ?_, fun h => ?_⟩ <;> (try dsimp only) <;>
    exact h

@[simp] theorem modCtx_within (s f) : Within s (modCtx s f) := by
  unfold modCtx
  refine ⟨fun h => ?_, fun h => ?_, fun h => ?_⟩ <;>
    exact h

@[simp] theorem modPend_within (s f) : Within s (modPend s f) := by
  unfold modPend
  refine ⟨fun h => ?_, fun h => ?_, fun h => ?_⟩ <;>
    exact h

@[simp] theorem reportEnd_within (s t) : Within s (reportEnd s t) := by
  unfold reportEnd
  refine ⟨fun h => ?_, fun h => ?_, fun h => ?_⟩ <;> (try dsimp only) <;>
    exact h

@[simp] theorem startLine_within (s t ctx subst after) : Within s (startLine s t ctx subst after) := by
  unfold startLine
  refine ⟨fun h => ?_, fun h => ?_, fun h => ?_⟩ <;> (try dsimp only) <;> (repeat' split) <;>
    exact h

theorem appendLine_within (s t ctx sl) (r : s.store.takes sl.record = true) : Within s (appendLine s t ctx sl) := by
  unfold appendLine
  refine Within.trans ?_ (startLine_within _ _ _ _ _)
  refine ⟨id, id, fun h => ?_⟩
  simp [LineStore.takes] at r
  simp only [Config.storeLines, Config.storeItems] at r
  refine ⟨by simp [State.modActive]; omega, ?_⟩
  simp only [LineStore.used, State.modActive, List.map_append, List.sum_append, List.map_cons, List.map_nil,
    List.sum_cons, List.sum_nil] at r ⊢
  omega

@[simp] theorem offerLine_within (s t ctx sl) : Within s (offerLine s t ctx sl) := by
  unfold offerLine
  split
  · next r => exact appendLine_within _ _ _ _ r
  · exact modComp_within _ _


@[simp] theorem completeLine_within (s t ctx items e next) : Within s (completeLine s t ctx items e next) :=
  offerLine_within s t ctx _
theorem weigh_within (v line group) : ∀ cs s best, Within s (weigh v line group cs s best).1 := by
  intro cs
  induction cs with
  | nil => intro s best; exact Within.rfl
  | cons c cs ih =>
    intro s best
    obtain ⟨i, k⟩ := c
    cases k with
    | explicit => exact ih _ _
    | added =>
      unfold weigh
      split
      · exact (lookup_within s _ 0x2D).trans (ih _ _)
      · exact ih _ _
@[simp] theorem breakGroup_within (s t ctx stop) : Within s (breakGroup s t ctx stop) := by
  have hw := weigh_within (s.comp.values ctx s.comp.group) s.comp.spacedLine s.comp.group
    (candidates s.hyph t.exceptions
      { hyph := ctx.hyph, caps := ctx.caps, limit := ctx.ladderLimit, count := ctx.ladderCount } s.comp.group
      s.comp.discs) s none
  unfold breakGroup
  dsimp only
  split
  · exact hw.trans (completeLine_within _ _ _ _ _ _)
  · split <;> exact hw.trans (completeLine_within _ _ _ _ _ _)

@[simp] theorem closeGroup_within (s t ctx stop next para) : Within s (closeGroup s t ctx stop next para) := by
  unfold closeGroup
  refine ⟨fun h => ?_, fun h => ?_, fun h => ?_⟩ <;> (try dsimp only) <;> (repeat' split) <;>
    first | exact h | simp (maxDischargeDepth := 12) [h]

@[simp] theorem readPast_within (s next) : Within s (readPast s next) := by
  unfold readPast
  refine ⟨fun h => ?_, fun h => ?_, fun h => ?_⟩ <;>
    exact h

@[simp] theorem placeBox_within (s kind code width absent next) : Within s (placeBox s kind code width absent next) := by
  unfold placeBox
  refine ⟨fun h => ?_, fun h => ?_, fun h => ?_⟩ <;> (try dsimp only) <;> (repeat' split) <;>
    exact h

@[simp] theorem placeNbspace_within (s next) : Within s (placeNbspace s next) := by
  unfold placeNbspace
  refine ⟨fun h => ?_, fun h => ?_, fun h => ?_⟩ <;> (try dsimp only) <;> (repeat' split) <;>
    exact h

theorem retryLine_within {s t} (e : retryLine s = some t) : Within s t := by
  unfold retryLine at e
  split at e
  · split at e
    · next c => injection e with e; subst e; exact appendLine_within _ _ _ _ c.2
    · simp at e
  · simp at e

theorem storeRemove_within {s t} (e : storeRemove s = some t) : Within s t := by
  unfold storeRemove at e
  split at e
  · split at e
    · simp at e
    · injection e with e; subst e
      refine ⟨id, id, fun h => ?_⟩
      have sub := (List.dropWhile_sublist (l := s.store.records) (fun x => !x.filmPending && !x.proofPending))
      refine ⟨Nat.le_trans sub.length_le h.1, ?_⟩
      have all := h.2
      rw [LineStore.used, ← List.takeWhile_append_dropWhile (p := fun x : LineRecord => !x.filmPending && !x.proofPending)
        (l := s.store.records), List.map_append, List.sum_append] at all
      exact Nat.le_trans (Nat.le_add_left _ _) all
  · simp at e

@[simp] theorem emptyStore_within (s) : Within s (emptyStore s) :=
  ⟨id, id, fun _ => ⟨Nat.zero_le _, Nat.zero_le _⟩⟩

@[simp] theorem startCompositor_within (s t) : Within s (startCompositor s t) := by
  unfold startCompositor
  split
  · exact (State.count_within _ _).trans (startLine_within _ _ _ _ _)
  · exact (((addCopyErrors_within _ _).trans (addClamped_within _ _)).trans (addSubstituted_within _ _)).trans
      (startLine_within _ _ _ _ _)

@[simp] theorem setLevel_within (s now later) : Within s (setLevel s now later) := by
  unfold setLevel
  refine ⟨fun h => ?_, fun h => ?_, fun h => ?_⟩ <;> (repeat' split) <;>
    exact h

@[simp] theorem takeFont_within (s t font) : Within s (takeFont s t font) := by
  unfold takeFont
  refine ⟨fun h => ?_, fun h => ?_, fun h => ?_⟩ <;> (repeat' split) <;>
    exact h

@[simp] theorem takeSizeCommand_within (s n) : Within s (takeSizeCommand s n) := by
  unfold takeSizeCommand
  refine ⟨fun h => ?_, fun h => ?_, fun h => ?_⟩ <;> (try dsimp only) <;>
    exact h

@[simp] theorem takeLead_within (s n) : Within s (takeLead s n) := by
  unfold takeLead
  refine ⟨fun h => ?_, fun h => ?_, fun h => ?_⟩ <;> (try dsimp only) <;>
    first | exact h | simp (maxDischargeDepth := 12) [h]

@[simp] theorem takeMeasure_within (s picas points) : Within s (takeMeasure s picas points) := by
  unfold takeMeasure
  refine ⟨fun h => ?_, fun h => ?_, fun h => ?_⟩ <;> (try dsimp only) <;> (repeat' split) <;>
    first | exact h | simp (maxDischargeDepth := 12) [h]

@[simp] theorem takeIndent_within (s n) : Within s (takeIndent s n) := by
  unfold takeIndent
  refine ⟨fun h => ?_, fun h => ?_, fun h => ?_⟩ <;> (try dsimp only) <;> (repeat' split) <;>
    first | exact h | simp (maxDischargeDepth := 12) [h]

@[simp] theorem takeSpaceband_within (s mn op mx) : Within s (takeSpaceband s mn op mx) := by
  unfold takeSpaceband
  refine ⟨fun h => ?_, fun h => ?_, fun h => ?_⟩ <;> (try dsimp only) <;>
    first | exact h | simp (maxDischargeDepth := 12) [h]

@[simp] theorem takeLetterspace_within (s n) : Within s (takeLetterspace s n) := by
  unfold takeLetterspace
  refine ⟨fun h => ?_, fun h => ?_, fun h => ?_⟩ <;> (try dsimp only) <;>
    first | exact h | simp (maxDischargeDepth := 12) [h]

@[simp] theorem takeLadder_within (s n) : Within s (takeLadder s n) := by
  unfold takeLadder
  refine ⟨fun h => ?_, fun h => ?_, fun h => ?_⟩ <;> (try dsimp only) <;>
    first | exact h | simp (maxDischargeDepth := 12) [h]

@[simp] theorem takeMode_within (s n) : Within s (takeMode s n) := by
  unfold takeMode
  refine ⟨fun h => ?_, fun h => ?_, fun h => ?_⟩ <;> (repeat' split) <;>
    first | exact h | simp (maxDischargeDepth := 12) [h]

@[simp] theorem takeHyph_within (s n) : Within s (takeHyph s n) := by
  unfold takeHyph
  refine ⟨fun h => ?_, fun h => ?_, fun h => ?_⟩ <;>
    first | exact h | simp (maxDischargeDepth := 12) [h]

@[simp] theorem takeCaps_within (s n) : Within s (takeCaps s n) := by
  unfold takeCaps
  refine ⟨fun h => ?_, fun h => ?_, fun h => ?_⟩ <;>
    first | exact h | simp (maxDischargeDepth := 12) [h]

@[simp] theorem endParagraph_within (s r stop next) : Within s (endParagraph s r stop next) := by
  unfold endParagraph
  refine ⟨fun h => ?_, fun h => ?_, fun h => ?_⟩ <;>
    first | exact h | simp (maxDischargeDepth := 12) [h]

@[simp] theorem takeFixedSpace_within (s r units) : Within s (takeFixedSpace s r units) := by
  unfold takeFixedSpace
  refine ⟨fun h => ?_, fun h => ?_, fun h => ?_⟩ <;>
    first | exact h | simp (maxDischargeDepth := 12) [h]

@[simp] theorem takeDisc_within (s) : Within s (takeDisc s) := by
  unfold takeDisc
  refine ⟨fun h => ?_, fun h => ?_, fun h => ?_⟩ <;>
    exact h

@[simp] theorem takeCharacter_within (s r code) : Within s (takeCharacter s r code) :=
  (lookup_within s _ code).trans (placeBox_within _ _ _ _ _ _)

@[simp] theorem takeWordSpace_within (s r) : Within s (takeWordSpace s r) := by
  unfold takeWordSpace
  refine ⟨fun h => ?_, fun h => ?_, fun h => ?_⟩ <;> (repeat' split) <;>
    first | exact h | simp (maxDischargeDepth := 12) [h]

@[simp] theorem takeUnknown_within (s r) : Within s (takeUnknown s r) := by
  unfold takeUnknown
  refine ⟨fun h => ?_, fun h => ?_, fun h => ?_⟩ <;>
    exact h

@[simp] theorem takeEnd_within (s) : Within s (takeEnd s) := by
  unfold takeEnd
  refine ⟨fun h => ?_, fun h => ?_, fun h => ?_⟩ <;> (repeat' split) <;>
    first | exact h | simp (maxDischargeDepth := 12) [h]

theorem takeLine_within {s t} (e : takeLine s = some t) : Within s t := by
  unfold takeLine at e
  (repeat' split at e) <;> first
    | (injection e with e; subst e
       refine ⟨fun h => ?_, fun h => ?_, fun h => ?_⟩ <;> (try dsimp only) <;>
         exact h)
    | simp at e

theorem beginChar_within {s t} (e : beginChar s = some t) : Within s t := by
  unfold beginChar at e
  (repeat' split at e) <;> first
    | (injection e with e; subst e
       refine ⟨fun h => ?_, fun h => ?_, fun h => ?_⟩ <;> (try dsimp only) <;>
         exact h)
    | simp at e

@[simp] theorem charSent_within (s) : Within s (charSent s) := by
  unfold charSent
  refine ⟨fun h => ?_, fun h => ?_, fun h => ?_⟩ <;> (try dsimp only) <;> (repeat' split) <;>
    exact h

@[simp] theorem clearProof_within (s n) : Within s (clearProof s n) :=
  ⟨id, id, sameItems_storeOk _ (fun r => by split <;> rfl)⟩

@[simp] theorem lineSent_within (s) : Within s (lineSent s) := by
  unfold lineSent
  refine ⟨fun h => ?_, fun h => ?_, fun h => ?_⟩ <;> (try dsimp only) <;> (repeat' split) <;>
    first | exact h | simp (maxDischargeDepth := 12) [h]

@[simp] theorem dropProof_within (s) : Within s (dropProof s) := by
  have k : Within s { s with store := { s.store with
      records := s.store.records.map (fun r => { r with proofPending := false }) } } :=
    ⟨id, id, sameItems_storeOk (fun r : LineRecord => { r with proofPending := false }) (fun _ => Eq.refl _)⟩
  have k1 := k.trans (State.modActive_within _ (fun t => { t with proofDropped := true }))
  unfold dropProof
  dsimp only
  split
  · exact k1.trans (State.modActive_within _ _)
  · exact k1.trans (State.modActive_within _ _)
  · exact k1

@[simp] theorem paperBegins_within (s) : Within s (paperBegins s) := by
  unfold paperBegins
  refine ⟨fun h => ?_, fun h => ?_, fun h => ?_⟩ <;> (try dsimp only) <;> (repeat' split) <;>
    first | exact h | simp (maxDischargeDepth := 12) [h]

@[simp] theorem paperEnds_within (s) : Within s (paperEnds s) := by
  unfold paperEnds
  refine ⟨fun h => ?_, fun h => ?_, fun h => ?_⟩ <;> (try dsimp only) <;>
    exact h

@[simp] theorem paperChange_within (s s') : Within s' (paperChange s s') := by
  unfold paperChange
  split
  · exact paperBegins_within _
  · exact paperEnds_within _
  · exact Within.rfl

@[simp] theorem setPaper_within (s present) : Within s (setPaper s present) := by
  unfold setPaper
  refine ⟨fun h => ?_, fun h => ?_, fun h => ?_⟩ <;> (try dsimp only) <;>
    first | exact h | simp (maxDischargeDepth := 12) [h]

@[simp] theorem setBusy_within (s asserted) : Within s (setBusy s asserted) := by
  unfold setBusy
  refine ⟨fun h => ?_, fun h => ?_, fun h => ?_⟩ <;> (try dsimp only) <;>
    first | exact h | simp (maxDischargeDepth := 12) [h]

@[simp] theorem busyStall_within (s) : Within s (busyStall s) := by
  unfold busyStall
  refine ⟨fun h => ?_, fun h => ?_, fun h => ?_⟩ <;> (try dsimp only) <;> (repeat' split) <;>
    first | exact h | simp (maxDischargeDepth := 12) [h]

@[simp] theorem cutProofPass_within (s) : Within s (cutProofPass s) := by
  unfold cutProofPass
  refine ⟨fun h => ?_, fun h => ?_, fun h => ?_⟩ <;> (try dsimp only) <;>
    first | exact h | simp (maxDischargeDepth := 12) [h]

@[simp] theorem abandonPass_within (s) : Within s (abandonPass s) := by
  unfold abandonPass
  refine ⟨fun h => ?_, fun h => ?_, fun h => ?_⟩ <;> (try dsimp only) <;> (repeat' split) <;>
    first | exact h | simp (maxDischargeDepth := 12) [h]

@[simp] theorem modExp_within (s f) : Within s (modExp s f) := by
  unfold modExp
  refine ⟨fun h => ?_, fun h => ?_, fun h => ?_⟩ <;> (try dsimp only) <;>
    exact h

@[simp] theorem modCur_within (s f) : Within s (modCur s f) := by
  unfold modCur
  refine ⟨fun h => ?_, fun h => ?_, fun h => ?_⟩ <;>
    exact h

@[simp] theorem endExposure_within (s) : Within s (endExposure s) := by
  unfold endExposure
  refine ⟨fun h => ?_, fun h => ?_, fun h => ?_⟩ <;>
    exact h

@[simp] theorem endByFault_within (s) : Within s (endByFault s) := by
  unfold endByFault
  refine ⟨fun h => ?_, fun h => ?_, fun h => ?_⟩ <;> (repeat' split) <;>
    exact h

theorem beginExposure_within {s t} (e : beginExposure s = some t) : Within s t := by
  unfold beginExposure at e
  (repeat' split at e) <;> first
    | (injection e with e; subst e
       refine ⟨fun h => ?_, fun h => ?_, fun h => ?_⟩ <;>
         exact h)
    | simp at e

theorem checkLine_within {s t} (e : checkLine s = some t) : Within s t := by
  unfold checkLine at e
  (repeat' split at e) <;> first
    | (injection e with e; subst e
       refine ⟨fun h => ?_, fun h => ?_, fun h => ?_⟩ <;>
         first | exact h | simp (maxDischargeDepth := 12) [h])
    | simp at e

@[simp] theorem startScan_within (s) : Within s (startScan s) := by
  unfold startScan
  refine ⟨fun h => ?_, fun h => ?_, fun h => ?_⟩ <;> (repeat' split) <;>
    exact h

theorem goLine_within {s t} (e : goLine s = some t) : Within s t := by
  unfold goLine at e
  (repeat' split at e) <;> first
    | (injection e with e; subst e
       refine ⟨fun h => ?_, fun h => ?_, fun h => ?_⟩ <;> (try dsimp only) <;>
         first | exact h | simp (maxDischargeDepth := 12) [h])
    | simp at e

@[simp] theorem lineExposed_within (s c) : Within s (lineExposed s c) := by
  refine ⟨id, fun h => ⟨h.1, ?_⟩, sameItems_storeOk _ (fun r => by split <;> rfl)⟩
  have := h.2
  simpa [lineExposed, State.modActive] using this

theorem scanStep_within {s t} (e : scanStep s = some t) : Within s t := by
  unfold scanStep at e
  dsimp only at e
  (repeat' split at e) <;> first
    | (injection e with e; subst e; exact modExp_within _ _)
    | (injection e with e; subst e; exact modCur_within _ _)
    | (injection e with e; subst e; exact lineExposed_within _ _)
    | simp at e

@[simp] theorem mechanismFault_within (s m) : Within s (mechanismFault s m) := by
  unfold mechanismFault
  refine ⟨fun h => ?_, fun h => ?_, fun h => ?_⟩ <;>
    first | exact h | simp (maxDischargeDepth := 12) [h]

@[simp] theorem mountDone_within (s) : Within s (mountDone s) := by
  unfold mountDone
  refine ⟨fun h => ?_, fun h => ?_, fun h => ?_⟩ <;> (repeat' split) <;>
    exact h

@[simp] theorem turretIndex_within (s seat) : Within s (turretIndex s seat) := by
  unfold turretIndex
  refine ⟨fun h => ?_, fun h => ?_, fun h => ?_⟩ <;> (try dsimp only) <;> (repeat' split) <;>
    first | exact h | simp (maxDischargeDepth := 12) [h]

@[simp] theorem lensIndexEvent_within (s lens) : Within s (lensIndexEvent s lens) := by
  unfold lensIndexEvent
  refine ⟨fun h => ?_, fun h => ?_, fun h => ?_⟩ <;> (try dsimp only) <;> (repeat' split) <;>
    first | exact h | simp (maxDischargeDepth := 12) [h]

@[simp] theorem carriagePosition_within (s) : Within s (carriagePosition s) := by
  unfold carriagePosition
  refine ⟨fun h => ?_, fun h => ?_, fun h => ?_⟩ <;> (repeat' split) <;>
    exact h

@[simp] theorem moveTimeout_within (s m) : Within s (moveTimeout s m) := by
  unfold moveTimeout
  refine ⟨fun h => ?_, fun h => ?_, fun h => ?_⟩ <;> (repeat' split) <;>
    first | exact h | simp (maxDischargeDepth := 12) [h]

@[simp] theorem flashTimeout_within (s) : Within s (flashTimeout s) := by
  unfold flashTimeout
  refine ⟨fun h => ?_, fun h => ?_, fun h => ?_⟩ <;> (repeat' split) <;>
    first | exact h | simp (maxDischargeDepth := 12) [h]

@[simp] theorem haltLine_within (s door) : Within s (haltLine s door) := by
  unfold haltLine
  split
  · exact Within.trans (t := { s with film := { s.film with waiting := s.film.waiting.filter (fun q => !q.isAdvance) } })
      ⟨id, id, id⟩ ((modCur_within _ _).trans (raiseStop_within _ _ _ _))
  · exact Within.rfl

theorem endHalted_within {s t} (e : endHalted s = some t) : Within s t := by
  unfold endHalted at e
  dsimp only at e
  split at e
  · next c _ =>
    split at e
    · have k : ∀ b m, Within s (if b = true then closeGalley (endExposure s) m else endExposure s) := by
        intro b m
        split
        · exact (endExposure_within s).trans (closeGalley_within _ _)
        · exact endExposure_within s
      split at e
      · injection e with e; subst e; exact k _ _
      · injection e with e; subst e
        refine Within.trans (k c.closeGalley (fun f => { f with continuedTo := true, spoiled := some c.line }))
          (Within.trans ?_ (askCut_within _ _))
        exact ⟨id, id, sameItems_storeOk (fun r : LineRecord => if r.number = c.line then { r with spoiled := true } else r)
          (fun r => by split <;> rfl)⟩
    · simp at e
  · simp at e

@[simp] theorem photoDoorOpen_within (s) : Within s (photoDoorOpen s) := by
  unfold photoDoorOpen
  refine ⟨fun h => ?_, fun h => ?_, fun h => ?_⟩ <;> (try dsimp only) <;> (repeat' split) <;>
    first | exact h | simp (maxDischargeDepth := 12) [h]

@[simp] theorem cassetteDoorOpen_within (s) : Within s (cassetteDoorOpen s) := by
  unfold cassetteDoorOpen
  refine ⟨fun h => ?_, fun h => ?_, fun h => ?_⟩ <;> (try dsimp only) <;> (repeat' split) <;>
    first | exact h | simp (maxDischargeDepth := 12) [h]

@[simp] theorem takeupDoorOpen_within (s) : Within s (takeupDoorOpen s) := by
  unfold takeupDoorOpen
  refine ⟨fun h => ?_, fun h => ?_, fun h => ?_⟩ <;> (try dsimp only) <;> (repeat' split) <;>
    first | exact h | simp (maxDischargeDepth := 12) [h]

@[simp] theorem takeupDoorClose_within (s) : Within s (takeupDoorClose s) := by
  unfold takeupDoorClose
  refine ⟨fun h => ?_, fun h => ?_, fun h => ?_⟩ <;> (try dsimp only) <;> (repeat' split) <;>
    first | exact h | simp (maxDischargeDepth := 12) [h]

@[simp] theorem cassetteDoorClose_within (s code) : Within s (cassetteDoorClose s code) := by
  unfold cassetteDoorClose
  refine ⟨fun h => ?_, fun h => ?_, fun h => ?_⟩ <;> (try dsimp only) <;> (repeat' split) <;>
    first | exact h | simp (maxDischargeDepth := 12) [h]

@[simp] theorem advanceComplete_within (s) : Within s (advanceComplete s) := by
  unfold advanceComplete
  refine ⟨fun h => ?_, fun h => ?_, fun h => ?_⟩ <;> (try dsimp only) <;> (repeat' split) <;>
    first | exact h | simp (maxDischargeDepth := 12) [h]

@[simp] theorem advanceRefused_within (s w) : Within s (advanceRefused s w) := by
  cases w
  · exact (endExposure_within _).trans (raiseStop_within _ _ _ _)
  · exact (endExposure_within _).trans (raiseStop_within _ _ _ _)
  · exact (endExposure_within _).trans (raiseStop_within _ _ _ _)
  · exact mechanismFault_within _ _
theorem serveFilm_within {s t} (e : serveFilm s = some t) : Within s t := by
  unfold serveFilm at e
  dsimp only at e
  split at e
  · injection e with e; subst e
    exact (dropRequest_within _).trans (beginCut_within _ _)
  · next line leading _ _ _ =>
    split at e
    · injection e with e; subst e
      exact (dropRequest_within _).trans (advanceRefused_within _ _)
    · next r =>
      have m : (dropRequest s).film.manifestFull = false := by
        unfold refuseAdvance at r
        (repeat' split at r) <;> simp_all
      injection e with e; subst e
      refine (dropRequest_within s).trans
        (Within.trans (beginAdvance_within _ (s.activeKey.getD { origin := 15, number := 0 }) line leading m) ?_)
      split
      · exact advanceComplete_within _
      · exact Within.rfl
  · simp at e

@[simp] theorem advanceDone_within (s) : Within s (advanceDone s) := by
  unfold advanceDone
  split
  · exact Within.trans (t := { s with film := { s.film with transport := .idle } }) ⟨id, id, id⟩ (advanceComplete_within _)
  · exact toCutter_within _ _
  · exact Within.rfl

@[simp] theorem advanceTimeout_within (s) : Within s (advanceTimeout s) := by
  unfold advanceTimeout
  split
  · exact Within.trans (t := { s with film := { s.film with transport := .idle, driveOk := false } }) ⟨id, id, id⟩
      (mechanismFault_within _ _)
  · exact Within.trans (t := { s with film := { s.film with driveOk := false } }) ⟨id, id, id⟩
      ((reportFault_within _ _ _).trans (toCutter_within _ _))
  · exact Within.rfl

@[simp] theorem cutEvent_within (s) : Within s (cutEvent s) := by
  unfold cutEvent
  refine ⟨fun h => ?_, fun h => ?_, fun h => ?_⟩ <;> (repeat' split) <;>
    first | exact h | simp (maxDischargeDepth := 12) [h]

@[simp] theorem cutterTimeout_within (s) : Within s (cutterTimeout s) := by
  unfold cutterTimeout
  split
  · exact Within.trans (t := { s with film := { s.film with cutterOk := false } }) ⟨id, id, id⟩
      ((reportFault_within _ _ _).trans (finishCut_within _ _ _))
  · exact Within.rfl

@[simp] theorem mountKey_within (s) : Within s (mountKey s) := by
  unfold mountKey
  refine ⟨fun h => ?_, fun h => ?_, fun h => ?_⟩ <;> (try dsimp only) <;> (repeat' split) <;>
    exact h

@[simp] theorem returnCalled_within (s) : Within s (returnCalled s) := by
  unfold returnCalled
  refine ⟨fun h => ?_, fun h => ?_, fun h => ?_⟩ <;> (repeat' split) <;>
    first | exact h | simp (maxDischargeDepth := 12) [h]

@[simp] theorem clearFontCall_within (s) : Within s (clearFontCall s) := by
  unfold clearFontCall
  refine ⟨fun h => ?_, fun h => ?_, fun h => ?_⟩ <;> (repeat' split) <;>
    first | exact h | simp (maxDischargeDepth := 12) [h]

@[simp] theorem survey_within (s tabs) : Within s (survey s tabs) := by
  unfold survey
  refine ⟨fun h => ?_, fun h => ?_, fun h => ?_⟩ <;> (try dsimp only) <;> (repeat' split) <;>
    first | exact h | simp (maxDischargeDepth := 12) [h]

@[simp] theorem photoDoorClose_within (s tabs) : Within s (photoDoorClose s tabs) := by
  unfold photoDoorClose
  refine ⟨fun h => ?_, fun h => ?_, fun h => ?_⟩ <;> (try dsimp only) <;> (repeat' split) <;>
    first | exact h | simp (maxDischargeDepth := 12) [h]

@[simp] theorem hearOffer_within (s sender m) : Within s (hearOffer s sender m) := by
  unfold hearOffer
  split
  · next c => exact openWindow_within _ _ _ _ c.2.2
  · exact Within.rfl

theorem retestWindows_within {s t} (e : retestWindows s = some t) : Within s t := by
  unfold retestWindows at e
  (repeat' split at e) <;> first
    | (injection e with e; subst e
       refine ⟨fun h => ?_, fun h => ?_, fun h => ?_⟩ <;>
         first | exact h | simp (maxDischargeDepth := 12) [h])
    | simp at e

@[simp] theorem claimWon_within (s sender m) : Within s (claimWon s sender m) := by
  unfold claimWon
  refine ⟨fun h => ?_, fun h => ?_, fun h => ?_⟩ <;> (try dsimp only) <;>
    first | exact h | simp (maxDischargeDepth := 12) [h]

@[simp] theorem handFrame_within (s f) : Within s (handFrame s f) := by
  unfold handFrame
  refine ⟨fun h => ?_, fun h => ?_, fun h => ?_⟩ <;> (repeat' split) <;>
    first | exact h | simp (maxDischargeDepth := 12) [h]

@[simp] theorem refuseCopy_within (s t reason) : Within s (refuseCopy s t reason) := by
  unfold refuseCopy
  refine ⟨fun h => ?_, fun h => ?_, fun h => ?_⟩ <;>
    first | exact h | simp (maxDischargeDepth := 12) [h]

@[simp] theorem hearCopyEnd_within (s sender k total) : Within s (hearCopyEnd s sender k total) := by
  unfold hearCopyEnd
  refine ⟨fun h => ?_, fun h => ?_, fun h => ?_⟩ <;> (repeat' split) <;>
    first | exact h | simp (maxDischargeDepth := 12) [h]

@[simp] theorem stallExpires_within (s k) : Within s (stallExpires s k) := by
  unfold stallExpires
  refine ⟨fun h => ?_, fun h => ?_, fun h => ?_⟩ <;> (repeat' split) <;>
    first | exact h | simp (maxDischargeDepth := 12) [h]

@[simp] theorem takenSent_within (s k) : Within s (takenSent s k) := by
  unfold takenSent
  refine ⟨fun h => ?_, fun h => ?_, fun h => ?_⟩ <;> (try dsimp only) <;> (repeat' split) <;>
    first | exact h | simp (maxDischargeDepth := 12) [h]

@[simp] theorem takenLost_within (s k) : Within s (takenLost s k) := by
  unfold takenLost
  refine ⟨fun h => ?_, fun h => ?_, fun h => ?_⟩ <;> (repeat' split) <;>
    first | exact h | simp (maxDischargeDepth := 12) [h]

@[simp] theorem startPass_within (s t) : Within s (startPass s t) := by
  unfold startPass
  dsimp only
  refine Within.trans ?_ (produce_within _ _ _)
  refine Within.trans ?_ (startCompositor_within _ _)
  exact ⟨id, id, id⟩

theorem selectTake_within {s t} (e : selectTake s = some t) : Within s t := by
  unfold selectTake at e
  split at e
  · obtain ⟨x, -, rfl⟩ := Option.map_eq_some_iff.mp e
    exact startPass_within s x
  · simp at e

theorem parkAnswer_within {s t} (e : parkAnswer s = some t) : Within s t := by
  unfold parkAnswer at e
  (repeat' split at e) <;> first
    | (injection e with e; subst e
       refine ⟨fun h => ?_, fun h => ?_, fun h => ?_⟩ <;>
         first | exact h | simp (maxDischargeDepth := 12) [h])
    | simp at e

@[simp] theorem parkStop_within (s k) : Within s (parkStop s k) := by
  unfold parkStop
  refine ⟨fun h => ?_, fun h => ?_, fun h => ?_⟩ <;> (try dsimp only) <;> (repeat' split) <;>
    first | exact h | simp (maxDischargeDepth := 12) [h]

@[simp] theorem afterPark_within (s k reason) : Within s (afterPark s k reason) := by
  unfold afterPark
  refine ⟨fun h => ?_, fun h => ?_, fun h => ?_⟩ <;> (repeat' split) <;>
    first | exact h | simp (maxDischargeDepth := 12) [h]

theorem parkFinish_within {s t} (e : parkFinish s = some t) : Within s t := by
  unfold parkFinish at e
  dsimp only at e
  (repeat' split at e) <;> first
    | (injection e with e; subst e
       refine Within.trans ?_ (afterPark_within _ _ _)
       refine Within.trans ?_ (parkStop_within _ _)
       refine Within.trans ?_ (produce_within _ _ _)
       exact ⟨id, id, id⟩)
    | simp at e

theorem askEndCut_within {s t} (e : askEndCut s = some t) : Within s t := by
  unfold askEndCut at e
  (repeat' split at e) <;> first
    | (injection e with e; subst e
       refine ⟨fun h => ?_, fun h => ?_, fun h => ?_⟩ <;>
         first | exact h | simp (maxDischargeDepth := 12) [h])
    | simp at e

theorem completeTake_within {s t} (e : completeTake s = some t) : Within s t := by
  unfold completeTake at e
  dsimp only at e
  (repeat' split at e) <;> first
    | (injection e with e; subst e
       refine Within.trans ?_ (freeTake_within _ _)
       refine Within.trans ?_ (dropStop_within _ _)
       exact (produce_within s _ _).trans ⟨id, id, id⟩)
    | simp at e

@[simp] theorem settleApproval_within (s k passes) : Within s (settleApproval s k passes) := by
  unfold settleApproval
  refine ⟨fun h => ?_, fun h => ?_, fun h => ?_⟩ <;> (try dsimp only) <;> (repeat' split) <;>
    first | exact h | simp (maxDischargeDepth := 12) [h]

theorem endProofPass_within {s t} (e : endProofPass s = some t) : Within s t := by
  unfold endProofPass at e
  (repeat' split at e) <;> first
    | (injection e with e; subst e
       refine ⟨fun h => ?_, fun h => ?_, fun h => ?_⟩ <;> (try dsimp only) <;>
         first | exact h | simp (maxDischargeDepth := 12) [h])
    | simp at e

@[simp] theorem hearApprove_within (s k) : Within s (hearApprove s k) := by
  unfold hearApprove
  refine ⟨fun h => ?_, fun h => ?_, fun h => ?_⟩ <;> (repeat' split) <;>
    first | exact h | simp (maxDischargeDepth := 12) [h]

@[simp] theorem stopRelease_within (s k) : Within s (stopRelease s k) := by
  unfold stopRelease
  refine ⟨fun h => ?_, fun h => ?_, fun h => ?_⟩ <;>
    first | exact h | simp (maxDischargeDepth := 12) [h]

@[simp] theorem killHeld_within (s t) : Within s (killHeld s t) := by
  unfold killHeld
  refine ⟨fun h => ?_, fun h => ?_, fun h => ?_⟩ <;> (try dsimp only) <;> (repeat' split) <;>
    first | exact h | simp (maxDischargeDepth := 12) [h]

@[simp] theorem killActive_within (s t) : Within s (killActive s t) := by
  unfold killActive
  refine ⟨fun h => ?_, fun h => ?_, fun h => ?_⟩ <;> (try dsimp only) <;> (repeat' split) <;>
    first | exact h | simp (maxDischargeDepth := 12) [h]

@[simp] theorem hearKill_within (s k) : Within s (hearKill s k) := by
  unfold hearKill
  refine ⟨fun h => ?_, fun h => ?_, fun h => ?_⟩ <;> (try dsimp only) <;> (repeat' split) <;>
    first | exact h | simp (maxDischargeDepth := 12) [h]

theorem killEmpties_within {s t} (e : killEmpties s = some t) : Within s t := by
  unfold killEmpties at e
  (repeat' split at e) <;> first
    | (injection e with e; subst e
       refine ⟨fun h => ?_, fun h => ?_, fun h => ?_⟩ <;>
         first | exact h | simp (maxDischargeDepth := 12) [h])
    | simp at e

theorem killFinish_within {s t} (e : killFinish s = some t) : Within s t := by
  unfold killFinish at e
  dsimp only at e
  (repeat' split at e) <;> first
    | (injection e with e; subst e
       refine Within.trans ?_ (freeTake_within _ _)
       refine Within.trans ?_ (dropStop_within _ _)
       exact (produce_within s _ _).trans ⟨id, id, id⟩)
    | simp at e

@[simp] theorem sendOffer_within (s k) : Within s (sendOffer s k) := by
  unfold sendOffer
  refine ⟨fun h => ?_, fun h => ?_, fun h => ?_⟩ <;> (repeat' split) <;>
    first | exact h | simp (maxDischargeDepth := 12) [h]

@[simp] theorem beginOffer_within (s k tries again) : Within s (beginOffer s k tries again) := by
  unfold beginOffer
  refine ⟨fun h => ?_, fun h => ?_, fun h => ?_⟩ <;>
    first | exact h | simp (maxDischargeDepth := 12) [h]

@[simp] theorem strand_within (s k) : Within s (strand s k) := by
  unfold strand
  refine ⟨fun h => ?_, fun h => ?_, fun h => ?_⟩ <;> (try dsimp only) <;> (repeat' split) <;>
    first | exact h | simp (maxDischargeDepth := 12) [h]

@[simp] theorem releaseFails_within (s k) : Within s (releaseFails s k) := by
  unfold releaseFails
  refine ⟨fun h => ?_, fun h => ?_, fun h => ?_⟩ <;> (try dsimp only) <;> (repeat' split) <;>
    first | exact h | simp (maxDischargeDepth := 12) [h]

theorem beginRelease_within {s t} (e : beginRelease s = some t) : Within s t := by
  unfold beginRelease at e
  split at e
  · simp at e
  · split at e
    · injection e with e; subst e; exact beginOffer_within _ _ _ _
    · obtain ⟨x, -, rfl⟩ := Option.map_eq_some_iff.mp e
      exact beginOffer_within _ _ _ _

theorem feedCopy_within {s t} (e : feedCopy s = some t) : Within s t := by
  unfold feedCopy at e
  (repeat' split at e) <;> first
    | (injection e with e; subst e
       refine ⟨fun h => ?_, fun h => ?_, fun h => ?_⟩ <;>
         first | exact h | simp (maxDischargeDepth := 12) [h])
    | simp at e

@[simp] theorem hearClaim_within (s sender k) : Within s (hearClaim s sender k) := by
  unfold hearClaim
  refine ⟨fun h => ?_, fun h => ?_, fun h => ?_⟩ <;> (try dsimp only) <;> (repeat' split) <;>
    first | exact h | simp (maxDischargeDepth := 12) [h]

@[simp] theorem hearTaken_within (s sender k) : Within s (hearTaken s sender k) := by
  unfold hearTaken
  refine ⟨fun h => ?_, fun h => ?_, fun h => ?_⟩ <;> (repeat' split) <;>
    first | exact h | simp (maxDischargeDepth := 12) [h]

@[simp] theorem hearRefused_within (s sender k) : Within s (hearRefused s sender k) := by
  unfold hearRefused
  refine ⟨fun h => ?_, fun h => ?_, fun h => ?_⟩ <;> (repeat' split) <;>
    first | exact h | simp (maxDischargeDepth := 12) [h]

@[simp] theorem takenWaitExpires_within (s k) : Within s (takenWaitExpires s k) := by
  unfold takenWaitExpires
  refine ⟨fun h => ?_, fun h => ?_, fun h => ?_⟩ <;> (repeat' split) <;>
    first | exact h | simp (maxDischargeDepth := 12) [h]

@[simp] theorem decideStranded_within (s t) : Within s (decideStranded s t) := by
  unfold decideStranded
  refine ⟨fun h => ?_, fun h => ?_, fun h => ?_⟩ <;> (repeat' split) <;>
    exact h

@[simp] theorem strandTurn_within (s k) : Within s (strandTurn s k) := by
  have re (l : List Nat) (u : State) : Within u (l.foldl reAskFont u) :=
    foldl_within _ (fun s f => reAskFont_within s f) l u
  unfold strandTurn
  split
  · split
    · dsimp only
      split
      · exact (State.modTake_within s _ _).trans ((re _ _).trans (State.modTake_within _ _ _))
      · exact (State.modTake_within s _ _).trans (decideStranded_within _ _)
    · exact Within.rfl
  · exact Within.rfl

theorem reaskReport_within {s t} (e : reaskReport s = some t) : Within s t := by
  obtain ⟨x, -, rfl⟩ := Option.map_eq_some_iff.mp e
  exact (State.modTake_within s _ _).trans (decideStranded_within _ _)

@[simp] theorem lapse_within (s sub) : Within s (lapse s sub) := by
  unfold lapse
  refine ⟨fun h => ?_, fun h => ?_, fun h => ?_⟩ <;> (try dsimp only) <;> (repeat' split) <;>
    first | exact h | simp (maxDischargeDepth := 12) [h]

@[simp] theorem agingExpires_within (s k) : Within s (agingExpires s k) := by
  unfold agingExpires
  refine ⟨fun h => ?_, fun h => ?_, fun h => ?_⟩ <;>
    exact h

@[simp] theorem startHoming_within (s) : Within s (startHoming s) := by
  unfold startHoming
  refine ⟨fun h => ?_, fun h => ?_, fun h => ?_⟩ <;>
    exact h

@[simp] theorem setStage_within (s g) : Within s (setStage s g) := by
  unfold setStage
  refine ⟨fun h => ?_, fun h => ?_, fun h => ?_⟩ <;> (try dsimp only) <;>
    exact h

@[simp] theorem dueFilmNotice_within (s) : Within s (dueFilmNotice s) := by
  unfold dueFilmNotice
  dsimp only
  split
  · split
    · refine Within.trans ?_ (produce_within _ _ _)
      exact ⟨id, id, id⟩
    · exact ⟨id, id, id⟩
  · exact Within.rfl

@[simp] theorem announceGone_within (s) : Within s (announceGone s) := by
  unfold announceGone
  refine ⟨fun h => ?_, fun h => ?_, fun h => ?_⟩ <;> (repeat' split) <;>
    first | exact h | simp (maxDischargeDepth := 12) [h]

@[simp] theorem announce_within (s) : Within s (announce s) := by
  unfold announce
  refine ⟨fun h => ?_, fun h => ?_, fun h => ?_⟩ <;> (try dsimp only) <;> (repeat' split) <;>
    first | exact h | simp (maxDischargeDepth := 12) [h]

@[simp] theorem homingFault_within (s m) : Within s (homingFault s m) := by
  unfold homingFault
  refine ⟨fun h => ?_, fun h => ?_, fun h => ?_⟩ <;> (try dsimp only) <;> (repeat' split) <;>
    first | exact h | simp (maxDischargeDepth := 12) [h]

@[simp] theorem withdrawFaultMarks_within (s) : Within s (withdrawFaultMarks s) := by
  unfold withdrawFaultMarks
  refine ⟨fun h => ?_, fun h => ?_, fun h => ?_⟩ <;> (try dsimp only) <;>
    exact h

@[simp] theorem clearDone_within (s) : Within s (clearDone s) := by
  unfold clearDone
  refine ⟨fun h => ?_, fun h => ?_, fun h => ?_⟩ <;> (try dsimp only) <;>
    exact h

@[simp] theorem readCassette_within (s code) : Within s (readCassette s code) := by
  unfold readCassette
  dsimp only
  split
  · exact ⟨id, fun h => ⟨Nat.zero_le _, h.2⟩, id⟩
  · exact ⟨id, id, id⟩

@[simp] theorem afterHoming_within (s tabs cassette) : Within s (afterHoming s tabs cassette) := by
  unfold afterHoming
  refine ⟨fun h => ?_, fun h => ?_, fun h => ?_⟩ <;> (try dsimp only) <;> (repeat' split) <;>
    first | exact h | simp (maxDischargeDepth := 12) [h]

theorem startCutDone_within {s t} (e : startCutDone s = some t) : Within s t := by
  unfold startCutDone at e
  (repeat' split at e) <;> first
    | (injection e with e; subst e
       refine ⟨fun h => ?_, fun h => ?_, fun h => ?_⟩ <;>
         first | exact h | simp (maxDischargeDepth := 12) [h])
    | simp at e

@[simp] theorem seatIndexEvent_within (s seat) : Within s (seatIndexEvent s seat) := by
  unfold seatIndexEvent
  refine ⟨fun h => ?_, fun h => ?_, fun h => ?_⟩ <;> (try dsimp only) <;> (repeat' split) <;>
    first | exact h | simp (maxDischargeDepth := 12) [h]

@[simp] theorem lensEvent_within (s lens) : Within s (lensEvent s lens) := by
  unfold lensEvent
  refine ⟨fun h => ?_, fun h => ?_, fun h => ?_⟩ <;> (try dsimp only) <;> (repeat' split) <;>
    first | exact h | simp (maxDischargeDepth := 12) [h]

@[simp] theorem positionEvent_within (s tabs cassette) : Within s (positionEvent s tabs cassette) := by
  unfold positionEvent
  refine ⟨fun h => ?_, fun h => ?_, fun h => ?_⟩ <;> (repeat' split) <;>
    first | exact h | simp (maxDischargeDepth := 12) [h]

@[simp] theorem homingTimeout_within (s) : Within s (homingTimeout s) := by
  unfold homingTimeout
  refine ⟨fun h => ?_, fun h => ?_, fun h => ?_⟩ <;> (repeat' split) <;>
    first | exact h | simp (maxDischargeDepth := 12) [h]

@[simp] theorem takePaper_within (s) : Within s (takePaper s) := by
  unfold takePaper
  refine ⟨fun h => ?_, fun h => ?_, fun h => ?_⟩ <;> (repeat' split) <;>
    first | exact h | simp (maxDischargeDepth := 12) [h]

@[simp] theorem enterHold_within (s) : Within s (enterHold s) := by
  unfold enterHold
  refine ⟨fun h => ?_, fun h => ?_, fun h => ?_⟩ <;> (try dsimp only) <;> (repeat' split) <;>
    first | exact h | simp (maxDischargeDepth := 12) [h]

@[simp] theorem holdKey_within (s) : Within s (holdKey s) := by
  unfold holdKey
  refine ⟨fun h => ?_, fun h => ?_, fun h => ?_⟩ <;> (repeat' split) <;>
    first | exact h | simp (maxDischargeDepth := 12) [h]

@[simp] theorem runKey_within (s) : Within s (runKey s) := by
  unfold runKey
  refine ⟨fun h => ?_, fun h => ?_, fun h => ?_⟩ <;> (repeat' split) <;>
    first | exact h | simp (maxDischargeDepth := 12) [h]

@[simp] theorem clearKey_within (s) : Within s (clearKey s) := by
  unfold clearKey
  refine ⟨fun h => ?_, fun h => ?_, fun h => ?_⟩ <;> (try dsimp only) <;> (repeat' split) <;>
    exact h

@[simp] theorem cutKey_within (s) : Within s (cutKey s) := by
  unfold cutKey
  refine ⟨fun h => ?_, fun h => ?_, fun h => ?_⟩ <;> (repeat' split) <;>
    first | exact h | simp (maxDischargeDepth := 12) [h]

@[simp] theorem stopTimerOff_within (s) : Within s (stopTimerOff s) := by
  unfold stopTimerOff
  refine ⟨fun h => ?_, fun h => ?_, fun h => ?_⟩ <;> (try dsimp only) <;>
    exact h

@[simp] theorem fontCallExpires_within (s) : Within s (fontCallExpires s) := by
  unfold fontCallExpires
  refine ⟨fun h => ?_, fun h => ?_, fun h => ?_⟩ <;> (repeat' split) <;>
    exact h

@[simp] theorem filmOutExpires_within (s) : Within s (filmOutExpires s) := by
  unfold filmOutExpires
  refine ⟨fun h => ?_, fun h => ?_, fun h => ?_⟩ <;> (repeat' split) <;>
    exact h

@[simp] theorem standbyExpires_within (s) : Within s (standbyExpires s) := by
  unfold standbyExpires
  refine ⟨fun h => ?_, fun h => ?_, fun h => ?_⟩ <;> (try dsimp only) <;> (repeat' split) <;>
    exact h

@[simp] theorem claimEnds_within (s k e) : Within s (claimEnds s k e) := by
  unfold claimEnds
  refine ⟨fun h => ?_, fun h => ?_, fun h => ?_⟩ <;> (try dsimp only) <;> (repeat' split) <;>
    first | exact h | simp (maxDischargeDepth := 12) [h]

@[simp] theorem markSent_within (s k dest) : Within s (markSent s k dest) := by
  unfold markSent
  refine ⟨fun h => ?_, fun h => ?_, fun h => ?_⟩ <;>
    exact h

@[simp] theorem startTakenWait_within (s k dest) : Within s (startTakenWait s k dest) := by
  unfold startTakenWait
  refine ⟨fun h => ?_, fun h => ?_, fun h => ?_⟩ <;>
    exact h

@[simp] theorem copyMuted_within (s k dest) : Within s (copyMuted s k dest) := by
  unfold copyMuted
  refine ⟨fun h => ?_, fun h => ?_, fun h => ?_⟩ <;> (repeat' split) <;>
    first | exact h | simp (maxDischargeDepth := 12) [h]

@[simp] theorem offerEnds_within (s k) : Within s (offerEnds s k) := by
  unfold offerEnds
  refine ⟨fun h => ?_, fun h => ?_, fun h => ?_⟩ <;> (repeat' split) <;>
    exact h

@[simp] theorem tellProducer_within (s f e) : Within s (tellProducer s f e) := by
  unfold tellProducer
  refine ⟨fun h => ?_, fun h => ?_, fun h => ?_⟩ <;> (repeat' split) <;>
    first | exact h | simp (maxDischargeDepth := 12) [h]

@[simp] theorem frameEnds_within (s e) : Within s (frameEnds s e) := by
  unfold frameEnds
  split
  · refine Within.trans (t := { s with line := { s.line with
      queue := s.line.queue.filter (fun x => !x.begun), phase := if e = .broken then .aborting else .gapDue
      broken := if e = .broken then satAdd Config.top16 s.line.broken 1 else s.line.broken } }) ?_ (tellProducer_within _ _ _)
    refine within_line (fun h => ⟨⟨(filter_queueOk _ h.1).1, (filter_queueOk _ h.1).2.1, fun _ x hx => by
      simpa using (List.mem_filter.1 hx).2⟩, h.2.1, ?_, h.2.2.2⟩) rfl rfl
    dsimp only; split
    · exact satAdd_le _ _ _
    · exact h.2.2.1
  · exact Within.rfl

@[simp] theorem becomeMuted_within (s) : Within s (becomeMuted s) := by
  unfold becomeMuted
  split
  · exact Within.rfl
  · dsimp only
    refine Within.trans (t := { s with line := { s.line with
      mute := true, queue := [], waiting := [], windows := []
      lost := satAdd Config.top16 s.line.lost
        ((s.line.queue.map (fun e => e.frame) ++ s.line.waiting).filter TxFrame.isNotice).length } }) ?_
      (foldl_within _ (fun s f => tellProducer_within s f .muted) _ _)
    exact within_line (fun h => ⟨⟨Nat.zero_le _, .nil, fun _ _ hx => nomatch hx⟩, Nat.zero_le _, h.2.2.1, h.2.2.2.1,
      satAdd_le _ _ _⟩) rfl rfl

/-- The line's phase changes while the station is not sending. -/
theorem phase_within {s : State} (n : s.line.phase ≠ .sending) (p : LinePhase) :
    Within s { s with line := { s.line with phase := p } } :=
  within_line (fun k => ⟨⟨k.1.1, k.1.2.1, fun _ => k.1.2.2 n⟩, k.2⟩) rfl rfl
theorem hears_within {s : State} (h : s.hears = true) (p : LinePhase) :
    Within s { s with line := { s.line with phase := p } } :=
  phase_within (fun e => by simp [State.hears, e] at h) p

theorem badFrame_within {s} (h : s.hears = true) : Within s (badFrame s) := (hears_within h _).trans (countBad_within _)

@[simp] theorem brokenHeard_within (s) : Within s (brokenHeard s) := by
  unfold brokenHeard; split
  · next h => exact (hears_within h _).trans (countBroken_within _)
  · exact Within.rfl

@[simp] theorem badHeard_within (s) : Within s (badHeard s) := by
  unfold badHeard; split
  · next h => exact badFrame_within h
  · exact Within.rfl

@[simp] theorem hearTable_within (s font revision widths) : Within s (hearTable s font revision widths) := by
  unfold hearTable
  dsimp only
  refine ⟨fun h => ?_, fun h => ?_, fun h => ?_⟩ <;> (repeat' split) <;>
    first | exact h | simp (maxDischargeDepth := 12) [h]

@[simp] theorem startPoint_within (s) : Within s (startPoint s) := by
  unfold startPoint
  split
  · next c =>
    refine within_line (fun h => ⟨?_, h.2⟩) rfl rfl
    obtain ⟨a, b, n⟩ := h.1
    have n := n (by simp [c.1])
    cases e : s.line.queue with
    | nil => exact absurd e c.2
    | cons x q =>
      rw [e] at a b
      rw [List.pairwise_cons] at b
      exact ⟨a, List.pairwise_cons.2 ⟨fun y hy => ⟨(b.1 y hy).1, fun k => nomatch k⟩, b.2⟩, fun k => absurd rfl k⟩
  · exact Within.rfl

@[simp] theorem arbitrationLost_within (s) : Within s (arbitrationLost s) := by
  unfold arbitrationLost
  split
  · refine within_line (fun h => ⟨?_, h.2⟩) rfl rfl
    obtain ⟨a, b, _⟩ := h.1
    cases e : s.line.queue with
    | nil => exact ⟨Nat.zero_le _, .nil, fun _ _ hx => nomatch hx⟩
    | cons x q =>
      rw [e] at a b
      rw [List.pairwise_cons] at b
      have n : ∀ y ∈ q, y.begun = false := fun y hy => (b.1 y hy).1
      refine ⟨by simpa [rejoinHead, rejoinFrame_length] using a, rejoinFrame_queued _ n b.2, fun _ y hy => ?_⟩
      rcases rejoinFrame_mem hy with rfl | hy
      · rfl
      · exact n y hy
  · exact Within.rfl

@[simp] theorem idleGap_within (s) : Within s (idleGap s) := by
  unfold idleGap
  split
  · next h => exact phase_within (by rcases h with h | h | h <;> simp [h]) _
  · exact Within.rfl

@[simp] theorem idleSlot_within (s) : Within s (idleSlot s) := by
  unfold idleSlot
  split
  · exact within_line (fun h => ⟨h.1, by simpa using h.2.1, h.2.2⟩) rfl rfl
  · exact Within.rfl

@[simp] theorem correctLamp_within (s n) : Within s (correctLamp s n) := by
  unfold correctLamp
  dsimp only
  split
  · exact Within.trans (t := { s with lamp := s.lamp.take n }) ⟨id, id, id⟩ (produce_within _ _ _)
  · exact ⟨id, id, id⟩

@[simp] theorem changeLamp_within (s) : Within s (changeLamp s) := ⟨id, id, id⟩

@[simp] theorem flashDone_within (s n) : Within s (flashDone s n) := by
  unfold flashDone
  split
  · dsimp only
    split
    · exact ((modExp_within _ _).trans (modCur_within _ _)).trans
        ((correctLamp_within _ _).trans ((reportFault_within _ _ _).trans (endByFault_within _)))
    · exact ((modExp_within _ _).trans (modCur_within _ _)).trans (correctLamp_within _ _)
  · exact Within.rfl

@[simp] theorem hearCopy_within (s a k o d) : Within s (hearCopy s a k o d) := by
  unfold hearCopy
  (repeat' split) <;> exact ⟨id, id, id⟩

@[simp] theorem addException_within (s w p) : Within s (addException s w p) := by
  unfold addException
  dsimp only
  (repeat' split) <;> first | exact ⟨id, id, id⟩ | exact produce_within _ _ _

@[simp] theorem deleteException_within (s w) : Within s (deleteException s w) := by
  unfold deleteException
  dsimp only
  (repeat' split) <;> exact ⟨id, id, id⟩

@[simp] theorem hearAdd_within (s b) : Within s (hearAdd s b) := by
  unfold hearAdd
  (repeat' split) <;> first | exact addException_within _ _ _ | exact countBad_within _

@[simp] theorem hearDelete_within (s b) : Within s (hearDelete s b) := by
  unfold hearDelete
  (repeat' split) <;> first | exact deleteException_within _ _ | exact countBad_within _

@[simp] theorem romRead_within (s r) : Within s (romRead s r) := by
  unfold romRead
  split
  · refine Within.trans ?_ (startHoming_within _)
    exact ⟨id, id, id⟩
  · exact Within.rfl

theorem reset_bounds : lineOk State.reset.line ∧ filmOk State.reset.film ∧ storeOk State.reset.store := by
  simp [lineOk, queueOk, filmOk, storeOk, State.reset, freshLine, LineStore.used]

@[simp] theorem powerOn_within (s p) : Within s (powerOn s p) := by
  obtain ⟨a, b, c⟩ := reset_bounds
  unfold powerOn
  refine Within.trans ?_ (takePaper_within _)
  exact ⟨fun _ => a, fun _ => b, fun _ => c⟩

@[simp] theorem lineReset_within (s p) : Within s (lineReset s p) := by
  obtain ⟨a, b, c⟩ := reset_bounds
  unfold lineReset
  dsimp only
  refine Within.trans ?_ (takePaper_within _)
  split
  · refine Within.trans ?_ (startHoming_within _)
    exact ⟨fun _ => a, id, fun _ => c⟩
  · exact ⟨fun _ => a, id, fun _ => c⟩

theorem readByte_within {s p act} (h : ∀ r b, Within s (act r b)) : Within s (readByte s p act) := by
  unfold readByte
  (repeat' split) <;> first | exact h _ _ | exact Within.rfl

theorem copyCommand_within {s code n act} (h : ∀ r a u, Within u (act r a u)) : Within s (copyCommand s code n act) := by
  unfold copyCommand
  apply readByte_within
  intro r b
  split
  · exact (readPast_within _ _).trans (h _ _ _)
  · exact (addCopyErrors_within _ _).trans (readPast_within _ _)

theorem receive_within {s h ok taken act} (k : ∀ u, Within u (act u)) : Within s (receive s h ok taken act) := by
  unfold receive
  split
  · next hs =>
    split
    · dsimp only
      have m : Within s (if h.sender = s.number then becomeMuted { s with line := { s.line with phase := .gapDue } }
          else { s with line := { s.line with phase := .gapDue } }) := by
        split
        · exact (hears_within hs _).trans (becomeMuted_within _)
        · exact hears_within hs _
      split
      · exact m.trans (k _)
      · exact m
    · exact badFrame_within hs
  · exact Within.rfl

theorem reaction_within {r : State → Option State} (hr : r ∈ reactions) {s t : State} (h : r s = some t) : Within s t := by
  simp only [reactions, List.mem_cons, List.not_mem_nil, or_false] at hr
  obtain rfl | rfl | rfl | rfl | rfl | rfl | rfl | rfl | rfl | rfl | rfl | rfl | rfl | rfl | rfl | rfl | rfl | rfl |
    rfl | rfl | rfl | rfl | rfl := hr
  · exact storeRemove_within h
  · exact retryLine_within h
  · exact parkAnswer_within h
  · exact killEmpties_within h
  · exact askEndCut_within h
  · exact parkFinish_within h
  · exact killFinish_within h
  · exact completeTake_within h
  · exact endProofPass_within h
  · exact reaskReport_within h
  · exact beginRelease_within h
  · exact feedCopy_within h
  · exact startCutDone_within h
  · exact serveFilm_within h
  · exact endHalted_within h
  · exact checkLine_within h
  · exact goLine_within h
  · exact scanStep_within h
  · exact beginExposure_within h
  · exact selectTake_within h
  · exact takeLine_within h
  · exact beginChar_within h
  · exact retestWindows_within h

@[simp] theorem settle_within (s : State) : Within s (settle s) :=
  settle_keeps (P := fun t => Within s t) (fun _ hr _ _ p e => p.trans (reaction_within hr e)) Within.rfl

end Sys2Proof.Machine
end

