-- ==== Sys2Proof/Laws/Dictionary.lean ====
section
/-! SUPPORT. The exception dictionary keeps its order, size and entries under adds and deletes (R73 to R78), and Lamp Control its
ranges under readings and the lamp-change switch (R121 to R126). -/

namespace Sys2Proof.Machine

/-! ### Word order (R73) -/

theorem wordLt_total : ∀ a b : List Nat, wordLt a b = false → a ≠ b → wordLt b a = true
  | [], [], _, h => absurd rfl h
  | [], _ :: _, h, _ => by simp [wordLt] at h
  | _ :: _, [], _, _ => rfl
  | a :: as, b :: bs, h, n => by
    simp only [wordLt, Bool.or_eq_false_iff, Bool.and_eq_false_iff, decide_eq_false_iff_not] at h
    simp only [wordLt, Bool.or_eq_true, Bool.and_eq_true, decide_eq_true_eq]
    by_cases e : a = b
    · subst e
      right
      exact ⟨rfl, wordLt_total as bs (by simpa using h.2) (fun q => n (by rw [q]))⟩
    · left; omega

theorem wordLt_trans : ∀ {a b c : List Nat}, wordLt a b = true → wordLt b c = true → wordLt a c = true
  | [], [], _, h, _ => by simp [wordLt] at h
  | [], _ :: _, [], _, k => by simp [wordLt] at k
  | [], _ :: _, _ :: _, _, _ => rfl
  | _ :: _, [], _, h, _ => by simp [wordLt] at h
  | _ :: _, _ :: _, [], _, k => by simp [wordLt] at k
  | a :: as, b :: bs, c :: cs, h, k => by
    simp only [wordLt, Bool.or_eq_true, Bool.and_eq_true, decide_eq_true_eq] at h k ⊢
    rcases h with h | ⟨h, h'⟩ <;> rcases k with k | ⟨k, k'⟩
    · left; omega
    · left; omega
    · left; omega
    · right; exact ⟨by omega, wordLt_trans h' k'⟩

/-- The head of a dictionary, if any, stands after a word. -/
def headAfter (w : List Nat) : List ExceptionEntry → Bool
  | [] => true
  | f :: _ => wordLt w f.word

theorem dictSorted_cons (e : ExceptionEntry) (d : List ExceptionEntry) :
    dictSorted (e :: d) = (headAfter e.word d && dictSorted d) := by
  cases d <;> rfl

theorem insertEntry_sorted (e : ExceptionEntry) : ∀ d, dictSorted d = true → (∀ f ∈ d, f.word ≠ e.word) →
    dictSorted (insertEntry e d) = true ∧ ∀ w, headAfter w d = true → wordLt w e.word = true →
      headAfter w (insertEntry e d) = true
  | [], _, _ => ⟨rfl, fun _ _ h => h⟩
  | f :: d, s, n => by
    unfold insertEntry
    rw [dictSorted_cons, Bool.and_eq_true] at s
    split
    · next h =>
      have front : headAfter e.word (f :: d) = true := h
      exact ⟨by rw [dictSorted_cons, front, dictSorted_cons, s.1, s.2]; rfl, fun _ _ k => k⟩
    · next h =>
      have ih := insertEntry_sorted e d s.2 (fun g hg => n g (List.mem_cons_of_mem _ hg))
      have lt : wordLt f.word e.word = true :=
        wordLt_total _ _ (by simpa using h) (fun q => n f (by simp) q.symm)
      exact ⟨by rw [dictSorted_cons, ih.2 _ s.1 lt, ih.1]; rfl, fun _ k _ => k⟩

theorem insertEntry_length (e : ExceptionEntry) (d) : (insertEntry e d).length = d.length + 1 := by
  induction d with
  | nil => rfl
  | cons f d ih => unfold insertEntry; split <;> simp [ih]

theorem insertEntry_all {p : ExceptionEntry → Bool} {e : ExceptionEntry} {d} (he : p e = true) (hd : d.all p = true) :
    (insertEntry e d).all p = true := by
  induction d with
  | nil => simp [insertEntry, he]
  | cons f d ih =>
    simp only [List.all_cons, Bool.and_eq_true] at hd
    unfold insertEntry
    split <;> simp [he, hd.1, hd.2, ih hd.2]

theorem replace_sorted (e : ExceptionEntry) : ∀ d, dictSorted d = true →
    dictSorted (d.map (fun f => if f.word == e.word then e else f)) = true ∧
      ∀ w, headAfter w d = true → headAfter w (d.map (fun f => if f.word == e.word then e else f)) = true
  | [], _ => ⟨rfl, fun _ _ => rfl⟩
  | f :: d, s => by
    rw [dictSorted_cons, Bool.and_eq_true] at s
    have ih := replace_sorted e d s.2
    have word : (if f.word == e.word then e else f).word = f.word := by
      split
      · next h => exact (beq_iff_eq.mp h).symm
      · rfl
    refine ⟨?_, fun w h => ?_⟩
    · rw [List.map_cons, dictSorted_cons, word, ih.2 _ s.1, ih.1]; rfl
    · rw [List.map_cons]; simp only [headAfter, word]; exact h

theorem filter_sorted (p : ExceptionEntry → Bool) : ∀ d, dictSorted d = true →
    dictSorted (d.filter p) = true ∧ ∀ w, headAfter w d = true → headAfter w (d.filter p) = true
  | [], _ => ⟨rfl, fun _ h => h⟩
  | f :: d, s => by
    rw [dictSorted_cons, Bool.and_eq_true] at s
    have ih := filter_sorted p d s.2
    have head : ∀ w, wordLt w f.word = true → headAfter w (d.filter p) = true := by
      intro w h
      apply ih.2
      cases d with
      | nil => rfl
      | cons g d => exact wordLt_trans h s.1
    rw [List.filter_cons]
    split
    · exact ⟨by rw [dictSorted_cons, ih.2 _ s.1, ih.1]; rfl, fun _ h => h⟩
    · exact ⟨ih.1, fun w h => head w h⟩

/-! ### Entries (R74, R75) -/

theorem fold_small {c : Nat} (h : isLetter c = true) : isSmall (fold c) = true := by
  simp only [isLetter, isCapital, isSmall, Bool.or_eq_true, Bool.and_eq_true, decide_eq_true_eq] at h
  unfold fold isCapital isSmall
  split <;> simp_all
  all_goals omega

/-- The head of a position set, if any, is above a position. -/
def headAbove (p : Nat) : List Nat → Bool
  | [] => true
  | q :: _ => decide (p < q)

theorem ascending_cons (p : Nat) (l : List Nat) : ascending (p :: l) = (headAbove p l && ascending l) := by
  cases l <;> rfl

theorem insertPosition_ascending (p : Nat) : ∀ l, ascending l = true →
    ascending (insertPosition p l) = true ∧ ∀ q, q < p → headAbove q l = true → headAbove q (insertPosition p l) = true
  | [], _ => ⟨rfl, fun _ h _ => by simpa [insertPosition, headAbove] using h⟩
  | q :: l, s => by
    have s' := s
    rw [ascending_cons, Bool.and_eq_true] at s
    unfold insertPosition
    split
    · next h =>
      refine ⟨by rw [ascending_cons, s']; simp [headAbove, h], fun r hr _ => by simpa [headAbove] using hr⟩
    · split
      · exact ⟨s', fun _ _ k => k⟩
      · next h1 h2 =>
        have ih := insertPosition_ascending p l s.2
        exact ⟨by rw [ascending_cons, ih.2 q (by omega) s.1, ih.1]; rfl, fun _ _ k => k⟩

theorem positionSet_ascending (l : List Nat) : ascending (positionSet l) = true := by
  induction l with
  | nil => rfl
  | cons p l ih => exact (insertPosition_ascending p _ ih).1

theorem mem_insertPosition {p q : Nat} {l : List Nat} (h : q ∈ insertPosition p l) : q = p ∨ q ∈ l := by
  induction l with
  | nil => simpa [insertPosition] using h
  | cons r l ih =>
    unfold insertPosition at h
    split at h
    · simpa using h
    · split at h
      · exact Or.inr h
      · rcases List.mem_cons.mp h with h | h
        · exact Or.inr (by simp [h])
        · exact (ih h).imp id (List.mem_cons_of_mem _)

theorem mem_positionSet {q : Nat} {l : List Nat} (h : q ∈ positionSet l) : q ∈ l := by
  induction l with
  | nil => simp [positionSet] at h
  | cons p l ih => exact (mem_insertPosition h).elim (fun e => by simp [e]) (fun k => List.mem_cons_of_mem _ (ih k))

/-- What an EXCEPTION of the right form reads as (R74). -/
theorem parseEntry_form {body w ps : List Nat} (h : parseEntry body = some (w, ps)) :
    2 ≤ w.length ∧ w.length ≤ 24 ∧ w.all isLetter = true := by
  unfold parseEntry at h
  (repeat' split at h) <;> simp only [Option.some.injEq, Prod.mk.injEq, reduceCtorEq] at h
  next l rest hl _ _ _ _ c =>
  obtain ⟨rfl, rfl⟩ := h
  rw [c.1]
  exact ⟨hl.1, hl.2, c.2.1⟩

theorem newEntry_ok {w ps : List Nat} (h2 : 2 ≤ w.length) (h24 : w.length ≤ 24) (hl : w.all isLetter = true)
    (hp : positionsOk w.length ps = true) : entryOk { word := w.map fold, positions := positionSet ps } = true := by
  simp only [positionsOk, Bool.and_eq_true, decide_eq_true_eq, List.all_eq_true] at hp
  simp only [entryOk, List.length_map, Bool.and_eq_true, decide_eq_true_eq, List.all_eq_true]
  refine ⟨⟨⟨⟨h2, h24⟩, ?_⟩, positionSet_ascending ps⟩, ?_⟩
  · intro x hx
    obtain ⟨c, hc, rfl⟩ := List.mem_map.mp hx
    exact fold_small (List.all_eq_true.mp hl c hc)
  · intro p hp'
    have := hp.2 p (mem_positionSet hp')
    omega

theorem wrap16_le (n : Nat) : wrap16 n ≤ 65535 := by unfold wrap16; omega

/-- An add keeps the dictionary (R75, R76). -/
theorem hearAdd_dictOk (s : State) (body : List Nat) (h : dictOk s.hyph = true) : dictOk (hearAdd s body).hyph = true := by
  unfold hearAdd
  split
  · next w ps e =>
    split
    · next hp =>
      obtain ⟨h2, h24, hl⟩ := parseEntry_form e
      have ok := newEntry_ok h2 h24 hl hp
      have h' := h
      simp only [dictOk, Bool.and_eq_true, decide_eq_true_eq] at h
      unfold addException
      dsimp only
      split
      · have r := (replace_sorted { word := w.map fold, positions := positionSet ps } _ h.1.1.2).1
        simp only [dictOk, Bool.and_eq_true, decide_eq_true_eq, List.length_map]
        refine ⟨⟨⟨h.1.1.1, r⟩, ?_⟩, wrap16_le _⟩
        rw [List.all_eq_true]
        intro x hx
        obtain ⟨f, hf, rfl⟩ := List.mem_map.mp hx
        split
        · exact ok
        · exact List.all_eq_true.mp h.1.2 f hf
      · next new =>
        split
        · next room =>
          simp only [Config.dictEntries] at room
          have n : ∀ f ∈ s.hyph.dict, f.word ≠ w.map fold := by
            intro f hf q
            exact new (List.any_eq_true.mpr ⟨f, hf, by simp [q]⟩)
          simp only [dictOk, Bool.and_eq_true, decide_eq_true_eq, insertEntry_length]
          exact ⟨⟨⟨by omega, (insertEntry_sorted _ _ h.1.1.2 n).1⟩, insertEntry_all ok h.1.2⟩, wrap16_le _⟩
        · split
          · exact h'
          · rw [(produce_still _ _ _).2.2.1]; exact h'
    · exact h
  · exact h

/-- A delete keeps the dictionary (R77). -/
theorem hearDelete_dictOk (s : State) (body : List Nat) (h : dictOk s.hyph = true) :
    dictOk (hearDelete s body).hyph = true := by
  unfold hearDelete
  split
  · next w _ _ =>
    have h' := h
    simp only [dictOk, Bool.and_eq_true, decide_eq_true_eq] at h
    unfold deleteException
    dsimp only
    split
    · simp only [dictOk, Bool.and_eq_true, decide_eq_true_eq]
      refine ⟨⟨⟨Nat.le_trans (List.length_filter_le _ _) h.1.1.1, (filter_sorted _ _ h.1.1.2).1⟩, ?_⟩, wrap16_le _⟩
      rw [List.all_eq_true]
      intro x hx
      exact List.all_eq_true.mp h.1.2 x (List.mem_filter.mp hx).1
    · exact h'
  · exact h

/-! ### Lamp Control (R121 to R126) -/

/-- A reading keeps the lamp's values in range (R124, R125). -/
theorem take_lampOk {l : Lamp} (h : lampOk l) {n : Nat} (hn : n < 1024) : lampOk (l.take n) := by
  obtain ⟨a, b, c, d, e, f⟩ := h
  have target : Config.lampTarget = 512 := rfl
  have low : Config.lampLow = 512 := rfl
  have high : Config.lampHigh = 2047 := rfl
  have bounds : 512 ≤ (l.corrected n).1 ∧ (l.corrected n).1 ≤ 2047 := by
    unfold Lamp.corrected
    dsimp only
    split
    · simp [low]
    · split
      · simp [high]
      · next h1 h2 => rw [low] at h1; rw [high] at h2; constructor <;> omega
  refine ⟨bounds.1, bounds.2, ?_, ?_, ?_, f⟩
  · show (-511 : Int) ≤ (Config.lampTarget : Int) - (n : Int)
    omega
  · show (Config.lampTarget : Int) - (n : Int) ≤ 512
    omega
  · show (if _ then min 256 (l.run + 1) else 0) ≤ 256
    split
    · exact Nat.min_le_left _ _
    · omega

theorem clamp_range (lo hi n : Nat) (h : lo ≤ hi) : lo ≤ clamp lo hi n ∧ clamp lo hi n ≤ hi := by
  unfold clamp; omega

/-- The ROM's constants are in range (R121). -/
theorem loadRom_lampOk {l : Lamp} (h : lampOk l) (r : Option Rom) : lampOk (l.loadRom r) := by
  obtain ⟨a, b, c, d, e, -⟩ := h
  cases r with
  | none =>
    refine ⟨a, b, c, d, e, rfl, fun x hx => ?_, by simp [Lamp.loadRom], by simp [Lamp.loadRom]⟩
    rw [List.eq_of_mem_replicate hx]; omega
  | some r =>
    refine ⟨a, b, c, d, e, by simp [Lamp.loadRom], fun x hx => ?_, (clamp_range 0 15 _ (by omega)).2,
      (clamp_range 0 15 _ (by omega)).2⟩
    obtain ⟨i, -, rfl⟩ := List.mem_map.mp hx
    exact clamp_range 20 400 _ (by omega)

/-- The range holds of the lamp's values whatever its phase. -/
theorem fixed_lampOk (l : Lamp) : lampOk l.fixed ↔ lampOk l := Iff.rfl

theorem changeLamp_lampOk {s : State} (h : lampOk s.lamp) : lampOk (changeLamp s).lamp := by
  obtain ⟨-, -, -, -, -, f⟩ := h
  have c : (changeLamp s).lamp.c = 1024 := rfl
  have e : (changeLamp s).lamp.ePrev = 0 := rfl
  exact ⟨by omega, by omega, by omega, by omega, Nat.zero_le _, f⟩

end Sys2Proof.Machine
end

