-- ==== Sys2Proof/Laws/Slots.lean ====
section
/-! SUPPORT. The Width Cache's slots and use list stay sound (`slotsOk`, R20 to R22) under every operation on them: claims,
frees, re-asks, tables heard, lookups, failed asks and line reset. -/

namespace Sys2Proof.Machine

/-! ### Lists of distinct fonts -/

theorem distinct_go (l : List Nat) : ∀ acc : List Nat, acc.Nodup →
    (l.foldl (fun acc x => if acc.contains x then acc else acc ++ [x]) acc).Nodup ∧
    ∀ x, x ∈ l.foldl (fun acc x => if acc.contains x then acc else acc ++ [x]) acc ↔ x ∈ acc ∨ x ∈ l := by
  induction l with
  | nil => intro acc h; simpa using h
  | cons a l ih =>
    intro acc h
    rw [List.foldl_cons]
    split
    · next c =>
      have c : a ∈ acc := by simpa using c
      refine ⟨(ih acc h).1, fun x => ?_⟩
      rw [(ih acc h).2 x, List.mem_cons]
      exact ⟨fun k => k.imp_right .inr, fun k => k.elim .inl (fun k => k.elim (fun e => .inl (e ▸ c)) .inr)⟩
    · next c =>
      have c : a ∉ acc := by simpa using c
      have d : (acc ++ [a]).Nodup := by
        rw [List.nodup_append]
        exact ⟨h, by simp, fun x hx y hy => by rw [List.mem_singleton.1 hy]; exact fun e => c (e ▸ hx)⟩
      refine ⟨(ih _ d).1, fun x => ?_⟩
      rw [(ih _ d).2 x]
      simp [or_assoc]

theorem distinct_nodup (l : List Nat) : (distinct l).Nodup := (distinct_go l [] .nil).1
@[simp] theorem mem_distinct {l : List Nat} {x : Nat} : x ∈ distinct l ↔ x ∈ l := by
  rw [distinct, (distinct_go l [] .nil).2 x]; simp

/-- A list without repeats is no longer than one that holds its members. -/
theorem nodup_length_le {l : List Nat} (d : l.Nodup) : ∀ {k : List Nat}, (∀ x ∈ l, x ∈ k) → l.length ≤ k.length := by
  induction l with
  | nil => exact fun _ => Nat.zero_le _
  | cons a l ih =>
    intro k h
    rw [List.nodup_cons] at d
    have m := h a (List.mem_cons_self ..)
    have r := ih d.2 (k := k.erase a) (fun x hx =>
      (List.mem_erase_of_ne (fun e : x = a => d.1 (e ▸ hx))).2 (h x (List.mem_cons_of_mem _ hx)))
    rw [List.length_erase_of_mem m] at r
    have := List.length_pos_of_mem m
    rw [List.length_cons]; omega
theorem distinct_length_le {l k : List Nat} (h : ∀ x ∈ l, x ∈ k) : (distinct l).length ≤ (distinct k).length :=
  nodup_length_le (distinct_nodup l) (by simpa using h)

/-! ### Finding slots -/

theorem slotOf_some {w : WidthCache} {font i : Nat} (h : w.slotOf font = some i) :
    ∃ sl, w.slots[i]? = some sl ∧ sl.font = some font := by
  obtain ⟨hi, p, -⟩ := List.findIdx?_eq_some_iff_getElem.1 h
  exact ⟨w.slots[i], List.getElem?_eq_getElem hi, by simpa using p⟩
theorem slotOf_none {w : WidthCache} {font : Nat} (h : w.slotOf font = none) :
    ∀ (i : Nat) (sl : Slot), w.slots[i]? = some sl → sl.font ≠ some font := by
  intro i sl hi
  simpa using List.findIdx?_eq_none_iff.1 h sl (List.mem_of_getElem? hi)
theorem freeSlot_some {w : WidthCache} {i : Nat} (h : w.freeSlot? = some i) :
    ∃ sl, w.slots[i]? = some sl ∧ sl.font = none := by
  obtain ⟨hi, p, -⟩ := List.findIdx?_eq_some_iff_getElem.1 h
  exact ⟨w.slots[i], List.getElem?_eq_getElem hi, by simpa using p⟩
theorem freeSlot_none {w : WidthCache} (h : w.freeSlot? = none) : ∀ sl ∈ w.slots, sl.font ≠ none := by
  intro sl hs e; simpa [e] using List.findIdx?_eq_none_iff.1 h sl hs
theorem victim_some {w : WidthCache} {i : Nat} (h : w.victim? = some i) :
    i ∈ w.useList ∧ ∃ sl, w.slots[i]? = some sl ∧ sl.pins = 0 := by
  refine ⟨List.mem_of_find?_eq_some h, ?_⟩
  have := List.find?_some h
  cases e : w.slots[i]? with
  | none => simp [e] at this
  | some sl => exact ⟨sl, rfl, by simpa [e] using this⟩
theorem victim_none {w : WidthCache} (h : w.victim? = none) :
    ∀ i ∈ w.useList, ∀ sl, w.slots[i]? = some sl → sl.pins ≠ 0 := by
  intro i hi sl e
  simpa [e] using List.find?_eq_none.1 h i hi

/-! ### One slot is changed -/

/-- The slot holds a table. -/
abbrev Slot.holds (sl : Slot) : Prop := ∃ r t, sl.state = .valid r t

theorem slotOk_congr {n n' : Nat → Nat} {sl : Slot} (h : ∀ f, sl.font = some f → n' f = n f) (k : slotOk n sl) :
    slotOk n' sl := by
  unfold slotOk at *
  split <;> rename_i e
  · simpa [e] using k
  · simp only [e] at k
    exact ⟨by rw [k.1, h _ e], k.2⟩

/-- One slot is replaced, and the use list with it. -/
theorem slotsOk_set {n n' : Nat → Nat} {w : WidthCache} {i : Nat} {old new : Slot} {use : List Nat} {gen : Nat}
    (h : slotsOk n w) (at_ : w.slots[i]? = some old) (ok : slotOk n' new)
    (pins : ∀ f, old.font ≠ some f → new.font ≠ some f → n' f = n f)
    (fresh : ∀ f, new.font = some f → ∀ (j : Nat) (sl : Slot), j ≠ i → w.slots[j]? = some sl → sl.font ≠ some f)
    (gone : ∀ f, old.font = some f → new.font = some f ∨ n' f = 0)
    (nodup : use.Nodup) (holds : ∀ j, j ∈ use ↔ if j = i then new.holds else j ∈ w.useList) :
    slotsOk n' { slots := w.slots.set i new, useList := use, gen := gen } := by
  obtain ⟨len, ok', one, -, list, all⟩ := h
  have hi : i < w.slots.length := (List.getElem?_eq_some_iff.1 at_).1
  have get (j : Nat) (sl : Slot) : (w.slots.set i new)[j]? = some sl ↔
      (j = i ∧ sl = new) ∨ (j ≠ i ∧ w.slots[j]? = some sl) := by
    rw [List.getElem?_set]
    split
    · next e => subst e; simp [hi, eq_comm]
    · next e =>
      exact ⟨fun k => .inr ⟨fun c => e c.symm, k⟩, fun k => k.elim (fun k => absurd k.1.symm e) (fun k => k.2)⟩
  refine ⟨by simpa using len, ?_, ?_, nodup, ?_, ?_⟩
  · intro j sl hj
    rcases (get j sl).1 hj with ⟨rfl, rfl⟩ | ⟨ne, hj⟩
    · exact ok
    · refine slotOk_congr (fun f hf => pins f (fun c => ne (one j i sl old f hj at_ hf c)) ?_) (ok' j sl hj)
      exact fun c => fresh f c j sl ne hj hf
  · intro j k a b f hj hk ha hb
    rcases (get j a).1 hj with ⟨ej, ea⟩ | ⟨ne, hj'⟩ <;> rcases (get k b).1 hk with ⟨ek, eb⟩ | ⟨ne', hk'⟩
    · exact ej.trans ek.symm
    · exact absurd hb (fresh f (ea ▸ ha) k b ne' hk')
    · exact absurd ha (fresh f (eb ▸ hb) j a ne hj')
    · exact one j k a b f hj' hk' ha hb
  · intro j
    rw [holds j]
    split
    · next e =>
      subst e
      refine ⟨fun ⟨r, t, k⟩ => ⟨new, r, t, (get j new).2 (.inl ⟨rfl, rfl⟩), k⟩, fun ⟨sl, r, t, a, k⟩ => ?_⟩
      rcases (get j sl).1 a with ⟨-, rfl⟩ | ⟨ne, -⟩
      · exact ⟨r, t, k⟩
      · exact absurd rfl ne
    · next e =>
      rw [list j]
      refine exists_congr fun sl => exists_congr fun r => exists_congr fun t => and_congr_left fun _ => ?_
      rw [get j sl]; simp [e]
  · intro f hf
    by_cases c : new.font = some f
    · exact ⟨i, new, (get i new).2 (.inl ⟨rfl, rfl⟩), c⟩
    · have o : old.font ≠ some f := fun e => (gone f e).elim c (fun z => by omega)
      obtain ⟨j, sl, hj, e⟩ := all f (by rw [← pins f o c]; exact hf)
      exact ⟨j, sl, (get j sl).2 (.inr ⟨fun ne => o (by subst ne; rw [at_] at hj; cases hj; exact e), hj⟩), e⟩

/-- With one slot for a font, its pins are changed in that slot alone. -/
theorem modPins_eq_set {n : Nat → Nat} {w : WidthCache} {font i : Nat} {sl : Slot} (h : slotsOk n w)
    (at_ : w.slots[i]? = some sl) (e : sl.font = some font) (f : Nat → Nat) :
    w.modPins font f = w.setSlot i { sl with pins := f sl.pins } := by
  have one := h.2.2.1
  unfold WidthCache.modPins WidthCache.setSlot
  congr 1
  apply List.ext_getElem?
  intro j
  rw [List.getElem?_map, List.getElem?_set]
  split
  · next c =>
    subst c
    rw [if_pos (List.getElem?_eq_some_iff.1 at_).1, at_]
    simp [e]
  · next c =>
    cases hj : w.slots[j]? with
    | none => rfl
    | some a =>
      have : a.font ≠ some font := fun k => c (one i j sl a font at_ hj e k)
      simp [this]

/-- With no slot for a font, no slot's pins change. -/
theorem modPins_none {w : WidthCache} {font : Nat} (h : w.slotOf font = none) (f : Nat → Nat) : w.modPins font f = w := by
  unfold WidthCache.modPins
  have : w.slots.map (fun sl => if sl.font == some font then { sl with pins := f sl.pins } else sl) = w.slots := by
    refine (List.map_congr_left fun sl hs => ?_).trans (List.map_id _)
    obtain ⟨i, hi, rfl⟩ := List.getElem_of_mem hs
    have := slotOf_none h i _ (List.getElem?_eq_getElem hi)
    simp [this]
  rw [this]

/-! ### What leaves the slots alone -/

@[simp] theorem putFrame_width (s f) : (putFrame s f).width = s.width := by unfold putFrame; split <;> rfl
@[simp] theorem ask_width (s font) : (ask s font).width = s.width := by unfold ask; split <;> simp [startWatch]
@[simp] theorem endAsk_width (s font) : (endAsk s font).width = s.width := rfl
@[simp] theorem cancelWindows_width (s p) : (cancelWindows s p).width = s.width := rfl

/-- The pins do not matter where no font is concerned. -/
theorem slotsOk_congr {n n' : Nat → Nat} {w : WidthCache} (h : ∀ f, n' f = n f) (k : slotsOk n w) : slotsOk n' w := by
  have : n' = n := funext h
  rwa [this]

/-- A font with no slot is named by no held take (R21). -/
theorem pins_zero {n : Nat → Nat} {w : WidthCache} {font : Nat} (h : slotsOk n w) (e : w.slotOf font = none) : n font = 0 := by
  rcases Nat.eq_zero_or_pos (n font) with z | z
  · exact z
  · obtain ⟨i, sl, hi, c⟩ := h.2.2.2.2.2 font z
    exact absurd c (slotOf_none e i sl hi)

/-- A slot of a font has the font's pins. -/
theorem slot_pins {n : Nat → Nat} {w : WidthCache} {font i : Nat} {sl : Slot} (h : slotsOk n w) (at_ : w.slots[i]? = some sl)
    (e : sl.font = some font) : sl.pins = n font := by
  have := h.2.1 i sl at_
  simp only [slotOk, e] at this
  exact this.1

theorem mem_use {n : Nat → Nat} {w : WidthCache} {i : Nat} {sl : Slot} (h : slotsOk n w) (at_ : w.slots[i]? = some sl) :
    i ∈ w.useList ↔ sl.holds := by
  rw [h.2.2.2.2.1 i]
  exact ⟨fun ⟨a, r, t, ha, e⟩ => by rw [at_] at ha; cases ha; exact ⟨r, t, e⟩, fun ⟨r, t, e⟩ => ⟨sl, r, t, at_, e⟩⟩

/-- A slot with a font, replaced by one for the same font that holds a table just where it did. -/
theorem slotsOk_same {n n' : Nat → Nat} {w : WidthCache} {i font : Nat} {old new : Slot} (h : slotsOk n w)
    (at_ : w.slots[i]? = some old) (eo : old.font = some font) (en : new.font = some font) (ok : slotOk n' new)
    (pins : ∀ f, f ≠ font → n' f = n f) (holds : new.holds ↔ old.holds) : slotsOk n' (w.setSlot i new) := by
  refine slotsOk_set (use := w.useList) h at_ ok (fun f a _ => pins f fun c => a (c ▸ eo)) ?_ (fun f a => .inl (by rw [en, ← eo, a]))
    h.2.2.2.1 (fun j => ?_)
  · intro f a j sl ne hj c
    exact ne (h.2.2.1 j i sl old f hj at_ c (by rw [eo, ← en, a]))
  · split
    · next c => subst c; rw [mem_use h at_, holds]
    · exact Iff.rfl

/-- One more pin (R21). -/
theorem modPins_up {n : Nat → Nat} {w : WidthCache} {font i : Nat} {sl : Slot} (h : slotsOk n w)
    (at_ : w.slots[i]? = some sl) (e : sl.font = some font) :
    slotsOk (fun f => n f + if f = font then 1 else 0) (w.modPins font (· + 1)) := by
  rw [modPins_eq_set h at_ e]
  refine slotsOk_same h at_ e e ?_ (fun f c => by simp [c]) Iff.rfl
  have := h.2.1 i sl at_
  simp only [slotOk, e, ↓reduceIte] at this ⊢
  refine ⟨by rw [this.1], ?_⟩
  have t := this.2
  split <;> simp_all

/-- A slot that is asked for again stays pinned (R23, R27). -/
theorem reAskFont_slotsOk {n : Nat → Nat} {s : State} (font : Nat) (h : slotsOk n s.width) :
    slotsOk n (reAskFont s font).width := by
  unfold reAskFont
  split
  · next i e =>
    obtain ⟨sl, at_, ef⟩ := slotOf_some e
    rw [at_]
    dsimp only
    split
    · next c =>
      rw [ask_width]
      refine slotsOk_same h at_ ef ef ?_ (fun _ _ => rfl) ?_
      · have := h.2.1 i sl at_
        simp only [slotOk, ef, c] at this ⊢
        exact this
      · simp [Slot.holds, c]
    · exact h
  · exact h

/-! ### Claims (R21, R23) -/

/-- With at most twelve fonts named, the claimed one among them, a font with no slot finds one free, or one to evict (R21). -/
theorem slot_or_victim {n : Nat → Nat} {w : WidthCache} {font : Nat} (h : slotsOk n w)
    (room : ∃ l : List Nat, l.length ≤ 12 ∧ font ∈ l ∧ ∀ f, 1 ≤ n f → f ∈ l)
    (e : w.slotOf font = none) (f : w.freeSlot? = none) (v : w.victim? = none) : False := by
  obtain ⟨l, len, mem, all⟩ := room
  have k : ∀ sl ∈ w.slots, ∃ g, sl.font = some g ∧ g ≠ font ∧ 1 ≤ n g := by
    intro sl hs
    obtain ⟨i, hi, rfl⟩ := List.getElem_of_mem hs
    have at_ := List.getElem?_eq_getElem hi
    obtain ⟨g, eg⟩ := Option.ne_none_iff_exists'.1 (freeSlot_none f _ hs)
    refine ⟨g, eg, fun c => slotOf_none e i _ at_ (c ▸ eg), ?_⟩
    have p := slot_pins h at_ eg
    have ok := h.2.1 i _ at_
    simp only [slotOk, eg] at ok
    cases st : w.slots[i].state with
    | valid r t =>
      have := victim_none v i ((mem_use h at_).2 ⟨r, t, st⟩) _ at_
      omega
    | asking => rw [st] at ok; have := ok.2; omega
    | empty => rw [st] at ok; have := ok.2; omega
  have d : (font :: w.slots.map (fun sl => sl.font.getD 0)).Nodup := by
    rw [List.nodup_cons, List.Nodup, List.pairwise_iff_getElem]
    refine ⟨fun c => ?_, fun i j hi hj lt c => ?_⟩
    · obtain ⟨sl, hs, c⟩ := List.mem_map.1 c
      obtain ⟨g, eg, ne, -⟩ := k sl hs
      rw [eg] at c; exact ne c
    · rw [List.length_map] at hi hj
      simp only [List.getElem_map] at c
      obtain ⟨a, ea, -⟩ := k _ (List.getElem_mem hi)
      obtain ⟨b, eb, -⟩ := k _ (List.getElem_mem hj)
      rw [ea, eb] at c
      have := h.2.2.1 i j _ _ a (List.getElem?_eq_getElem hi) (List.getElem?_eq_getElem hj) ea (by rw [eb]; exact congrArg some c.symm)
      omega
  have := nodup_length_le d (k := l) (fun x hx => by
    rcases List.mem_cons.1 hx with rfl | hx
    · exact mem
    · obtain ⟨sl, hs, rfl⟩ := List.mem_map.1 hx
      obtain ⟨g, eg, -, p⟩ := k sl hs
      rw [eg]; exact all g p)
  rw [List.length_cons, List.length_map, h.1] at this
  omega

/-- A slot newly asked for, in the place of a free one or of an evicted one (R23). -/
theorem slotsOk_ask {n : Nat → Nat} {w : WidthCache} {font i : Nat} {old : Slot} {use : List Nat} (h : slotsOk n w)
    (e : w.slotOf font = none) (at_ : w.slots[i]? = some old) (gone : ∀ f, old.font = some f → n f = 0)
    (nodup : use.Nodup) (mem : ∀ j, j ∈ use ↔ j ≠ i ∧ j ∈ w.useList) :
    slotsOk (fun f => n f + if f = font then 1 else 0)
      { slots := w.slots.set i { state := .asking, font := some font, pins := 1 }, useList := use, gen := w.gen } := by
  refine slotsOk_set h at_ ?_ (fun f _ c => ?_) (fun f c j sl _ hj => ?_) (fun f c => ?_) nodup (fun j => ?_)
  · simp [slotOk, pins_zero h e]
  · have : f ≠ font := fun k => c (by rw [k])
    simp [this]
  · have : font = f := by simpa using c
    exact this ▸ slotOf_none e j sl hj
  · by_cases k : f = font
    · exact .inl (by rw [k])
    · exact .inr (by simp [k, gone f c])
  · rw [mem j]; split <;> simp_all [Slot.holds]

/-- One font of a claimed take (R21, R23). -/
theorem claimFont_slotsOk {n : Nat → Nat} {s : State} {font : Nat} (h : slotsOk n s.width)
    (room : ∃ l : List Nat, l.length ≤ 12 ∧ font ∈ l ∧ ∀ f, 1 ≤ n f → f ∈ l) :
    slotsOk (fun f => n f + if f = font then 1 else 0) (claimFont s font).width := by
  unfold claimFont
  split
  · next i e =>
    obtain ⟨sl, at_, ef⟩ := slotOf_some e
    exact reAskFont_slotsOk font (s := { s with width := _ }) (modPins_up h at_ ef)
  · next e =>
    split
    · next i f =>
      obtain ⟨sl, at_, ef⟩ := freeSlot_some f
      rw [ask_width]
      refine slotsOk_ask h e at_ (by simp [ef]) h.2.2.2.1 (fun j => ⟨fun k => ⟨?_, k⟩, fun k => k.2⟩)
      rintro rfl
      obtain ⟨r, t, c⟩ := (mem_use h at_).1 k
      have := h.2.1 j sl at_
      simp [slotOk, ef, c] at this
    · next f =>
      split
      · next i v =>
        obtain ⟨mem, sl, at_, z⟩ := victim_some v
        have gone : ∀ f, sl.font = some f → n f = 0 := fun f c => by rw [← slot_pins h at_ c, z]
        have key : slotsOk (fun f => n f + if f = font then 1 else 0)
            { slots := s.width.slots.set i { state := .asking, font := some font, pins := 1 }
              useList := s.width.useList.erase i, gen := s.width.gen } :=
          slotsOk_ask h e at_ gone (h.2.2.2.1.erase i) (fun j => h.2.2.2.1.mem_erase_iff)
        dsimp only
        rw [ask_width]
        split <;> exact key
      · next v => exact (slot_or_victim h room e f v).elim

/-- The fonts of a claimed take, once each (R21, R23). -/
theorem claimFonts_slotsOk {n : Nat → Nat} {s : State} {fonts : List Nat} (h : slotsOk n s.width)
    (room : ∃ l : List Nat, l.length ≤ 12 ∧ (∀ f ∈ fonts, f ∈ l) ∧ ∀ f, 1 ≤ n f → f ∈ l) :
    slotsOk (fun f => n f + if f ∈ fonts then 1 else 0) (claimFonts s fonts).width := by
  obtain ⟨l, len, mem, all⟩ := room
  have go : ∀ fs : List Nat, fs.Nodup → (∀ f ∈ fs, f ∈ l) → ∀ (n : Nat → Nat) (s : State), slotsOk n s.width →
      (∀ f, 1 ≤ n f → f ∈ l) → slotsOk (fun f => n f + if f ∈ fs then 1 else 0) (fs.foldl claimFont s).width := by
    intro fs
    induction fs with
    | nil => intro _ _ n s h _; simpa using h
    | cons a fs ih =>
      intro d m n s h all
      rw [List.nodup_cons] at d
      rw [List.forall_mem_cons] at m
      refine slotsOk_congr (fun f => ?_) (ih d.2 m.2 _ _ (claimFont_slotsOk h ⟨l, len, m.1, all⟩) (fun f hf => ?_))
      · by_cases c : f = a
        · subst c; simp [d.1]
        · simp [c]
      · by_cases c : f = a
        · exact c ▸ m.1
        · exact all f (by simpa [c] using hf)
  have := go (distinct fonts) (distinct_nodup _) (fun f hf => mem f (mem_distinct.1 hf)) n s h all
  simpa [claimFonts] using this

/-! ### Frees (R21) -/

/-- One font of a freed take (R21). -/
theorem unpinFont_slotsOk {n : Nat → Nat} {s : State} {font : Nat} (h : slotsOk n s.width) (p : 1 ≤ n font) :
    slotsOk (fun f => n f - if f = font then 1 else 0) (unpinFont s font).width := by
  obtain ⟨i, sl, at_, ef⟩ := h.2.2.2.2.2 font p
  have ok := h.2.1 i sl at_
  simp only [slotOk, ef] at ok
  have hi := (List.getElem?_eq_some_iff.1 at_).1
  have e1 : s.width.modPins font (· - 1) = s.width.setSlot i { sl with pins := sl.pins - 1 } := modPins_eq_set h at_ ef _
  have at1 : (s.width.modPins font (· - 1)).slots[i]? = some { sl with pins := sl.pins - 1 } := by
    rw [e1]; simp [WidthCache.setSlot, hi]
  -- the slot kept, where it is VALID or still pinned
  have keep : (∃ r t, sl.state = .valid r t) ∨ 2 ≤ sl.pins →
      slotsOk (fun f => n f - if f = font then 1 else 0) (s.width.modPins font (· - 1)) := by
    intro c
    rw [e1]
    refine slotsOk_same h at_ ef ef ?_ (fun f k => by simp [k]) Iff.rfl
    simp only [slotOk, ef, ↓reduceIte]
    refine ⟨by rw [ok.1], ?_⟩
    have t := ok.2
    rcases c with ⟨r, t', c⟩ | c
    · simp only [c] at t ⊢; exact t
    · split <;> rename_i z <;> simp only [z] at t
      · exact t
      all_goals omega
  -- the slot freed
  have free : (¬ ∃ r t, sl.state = .valid r t) → sl.pins ≤ 1 →
      slotsOk (fun f => n f - if f = font then 1 else 0) (s.width.setSlot i freeSlot) := by
    intro c z
    refine slotsOk_set (use := s.width.useList) h at_ ⟨rfl, rfl⟩ (fun f k _ => ?_) (fun _ k => nomatch k) (fun f k => .inr ?_)
      h.2.2.2.1 (fun j => ?_)
    · have : f ≠ font := fun e => k (e ▸ ef)
      simp [this]
    · have : font = f := by rw [ef] at k; exact Option.some.inj k
      have := ok.1
      subst f; simp; omega
    · split
      · next e => subst e; rw [mem_use h at_]; simp [Slot.holds, freeSlot]; simpa using c
      · exact Iff.rfl
  have find : (s.width.modPins font (· - 1)).slotOf font = some i := by
    cases q : (s.width.modPins font (· - 1)).slotOf font with
    | none => exact absurd (by simpa using ef) (slotOf_none q i _ at1)
    | some j =>
      obtain ⟨b, hb, eb⟩ := slotOf_some q
      rw [e1] at hb
      simp only [WidthCache.setSlot, List.getElem?_set] at hb
      split at hb
      · next c => rw [c]
      · rw [h.2.2.1 j i b sl font hb at_ eb ef]
  unfold unpinFont
  simp only [find, at1]
  split
  · next z =>
    have z : sl.pins ≤ 1 := by omega
    have e2 : (s.width.modPins font (· - 1)).setSlot i freeSlot = s.width.setSlot i freeSlot := by
      rw [e1]; simp [WidthCache.setSlot]
    split
    · next r t c => exact keep (.inl ⟨r, t, c⟩)
    · next c => rw [endAsk_width, e2]; exact free (by simp_all) z
    · next c => rw [e2]; exact free (by simp_all) z
  · next z => exact keep (.inr (by omega))

/-- The fonts of a freed take, once each (R21). -/
theorem unpinFonts_slotsOk {n : Nat → Nat} {s : State} {fonts : List Nat} (h : slotsOk n s.width) (p : ∀ f ∈ fonts, 1 ≤ n f) :
    slotsOk (fun f => n f - if f ∈ fonts then 1 else 0) (unpinFonts s fonts).width := by
  have go : ∀ fs : List Nat, fs.Nodup → ∀ (n : Nat → Nat) (s : State), slotsOk n s.width → (∀ f ∈ fs, 1 ≤ n f) →
      slotsOk (fun f => n f - if f ∈ fs then 1 else 0) (fs.foldl unpinFont s).width := by
    intro fs
    induction fs with
    | nil => intro _ n s h _; simpa using h
    | cons a fs ih =>
      intro d n s h p
      rw [List.nodup_cons] at d
      rw [List.forall_mem_cons] at p
      refine slotsOk_congr (fun f => ?_) (ih d.2 _ _ (unpinFont_slotsOk h p.1) (fun f hf => ?_))
      · by_cases c : f = a
        · subst c; simp [d.1]
        · simp [c]
      · have : f ≠ a := fun e => d.1 (e ▸ hf)
        simpa [this] using p.2 f hf
  have := go (distinct fonts) (distinct_nodup _) n s h (fun f hf => p f (mem_distinct.1 hf))
  simpa [unpinFonts] using this

/-! ### Tables heard, lookups and failed asks (R22, R26 to R29, R33) -/

/-- The check of a WIDTH-TABLE's form, and its bytes, give a table of the form of R19. -/
theorem tableOk_of_form {font : Nat} {widths : List Nat} (h : tableFormOk font widths = true)
    (b : ∀ w ∈ widths, w ≤ 255) : tableOk font widths := by
  simp only [tableFormOk, fontOk, Bool.and_eq_true, decide_eq_true_eq, List.all_eq_true, List.mem_range,
    Bool.or_eq_true] at h
  refine ⟨by omega, by omega, h.1.1, fun i w e => ⟨b w (List.mem_of_getElem? e), fun c => ?_⟩⟩
  have hi := (List.getElem?_eq_some_iff.1 e).1
  have := h.2 i (by omega)
  rw [e] at this
  exact this.resolve_left c

/-- A table in the slot of its font, moved to an end of the use list or left where it was (R28, R29). -/
theorem slotsOk_table {n : Nat → Nat} {w : WidthCache} {i font r : Nat} {old : Slot} {t : List Nat} {use : List Nat} {gen : Nat}
    (h : slotsOk n w) (at_ : w.slots[i]? = some old)
    (mine : old.font = some font ∨ (old.font = none ∧ w.slotOf font = none)) (hr : r ≤ 255) (ht : tableOk font t)
    (nodup : use.Nodup) (mem : ∀ j, j ∈ use ↔ j = i ∨ j ∈ w.useList) :
    slotsOk n { slots := w.slots.set i { state := .valid r t, font := some font, pins := old.pins }, useList := use, gen := gen } := by
  refine slotsOk_set h at_ ?_ (fun _ _ _ => rfl) (fun f c j sl ne hj k => ?_) (fun f c => ?_) nodup (fun j => ?_)
  · have p : old.pins = n font := by
      rcases mine with c | ⟨c, z⟩
      · exact slot_pins h at_ c
      · have := h.2.1 i old at_
        simp only [slotOk, c] at this
        rw [this.2, pins_zero h z]
    exact ⟨p, hr, ht⟩
  · have c : font = f := by simpa using c
    subst c
    rcases mine with c | ⟨-, z⟩
    · exact ne (h.2.2.1 j i sl old font hj at_ k c)
    · exact slotOf_none z j sl hj k
  · rcases mine with k | ⟨k, -⟩
    · exact .inl (by rw [← c, k])
    · rw [k] at c; exact nomatch c
  · rw [mem j]; split <;> simp_all [Slot.holds]

/-- Moving a slot to an end of the use list keeps each of its members once. -/
theorem nodup_recent {l : List Nat} (i : Nat) (h : l.Nodup) : (l.erase i ++ [i]).Nodup := by
  rw [List.nodup_append]
  refine ⟨h.erase i, by simp, fun x hx y hy e => ?_⟩
  rw [List.mem_singleton.1 hy] at e
  exact ((h.mem_erase_iff).1 hx).1 e
theorem mem_recent {l : List Nat} (i : Nat) (h : l.Nodup) (j : Nat) : j ∈ l.erase i ++ [i] ↔ j = i ∨ j ∈ l := by
  rw [List.mem_append, h.mem_erase_iff, List.mem_singleton]
  exact ⟨fun k => k.elim (fun k => .inr k.2) .inl, fun k => (Classical.em (j = i)).elim .inr fun c => .inl ⟨c, k.resolve_left c⟩⟩

/-- A lookup (R33). -/
theorem lookup_slotsOk {n : Nat → Nat} {s : State} (font code : Nat) (h : slotsOk n s.width) :
    slotsOk n (lookup s font code).2.width := by
  unfold lookup
  dsimp only
  split
  · next i e =>
    split
    · next v =>
      obtain ⟨sl, at_, ef⟩ := slotOf_some e
      obtain ⟨a, b, c, d, u, f⟩ := h
      refine ⟨a, b, c, nodup_recent i d, fun j => ?_, f⟩
      refine (mem_recent i d j).trans (Iff.trans ?_ (u j))
      refine ⟨fun k => k.elim (fun k => ?_) id, .inr⟩
      subst k
      rw [u j]
      unfold WidthCache.isValid WidthCache.table? at v
      split at v
      · next r t p q hf =>
        have hm := List.mem_of_find?_eq_some hf
        have hp := List.find?_some hf
        obtain ⟨m, hm, em⟩ := List.getElem_of_mem hm
        have hk := List.getElem?_eq_getElem hm
        rw [em] at hk
        have : m = j := c m j _ sl font hk at_ (by simpa using hp) ef
        exact ⟨_, r, t, this ▸ hk, rfl⟩
      · simp at v
    · exact h
  · exact h

/-- The ask for a font has failed (R26): its slot stays, held empty. -/
theorem lapse_slotsOk {n : Nat → Nat} {w : WidthCache} {font : Nat} (h : slotsOk n w) (a : w.isAsking font = true) :
    slotsOk n { w with slots := w.slots.map (fun sl => if sl.font == some font then { sl with state := .empty } else sl) } := by
  simp only [WidthCache.isAsking, List.any_eq_true, Bool.and_eq_true, beq_iff_eq] at a
  obtain ⟨sl, hs, ef, st⟩ := a
  obtain ⟨i, hi, rfl⟩ := List.getElem_of_mem hs
  have at_ := List.getElem?_eq_getElem hi
  have e : w.slots.map (fun sl => if sl.font == some font then { sl with state := .empty } else sl) =
      w.slots.set i { w.slots[i] with state := .empty } := by
    apply List.ext_getElem?
    intro j
    rw [List.getElem?_map, List.getElem?_set]
    split
    · next c => subst c; simp [ef, hi]
    · next c =>
      cases hj : w.slots[j]? with
      | none => rfl
      | some b =>
        have : b.font ≠ some font := fun k => c (h.2.2.1 i j _ b font at_ hj ef k)
        simp [this]
  rw [e]
  refine slotsOk_same h at_ ef ef ?_ (fun _ _ => rfl) (by simp [Slot.holds, st])
  have := h.2.1 i _ at_
  simp only [slotOk, ef, st] at this ⊢
  exact this

/-- The Width Cache after line reset (R34), with no take held. -/
theorem afterReset_slotsOk {n : Nat → Nat} {w : WidthCache} (h : slotsOk n w) : slotsOk (fun _ => 0) w.afterReset := by
  have get (i : Nat) (sl : Slot) (k : w.afterReset.slots[i]? = some sl) : ∃ old, w.slots[i]? = some old ∧
      ((∃ r t, old.state = .valid r t ∧ sl = { old with pins := 0 }) ∨ ((¬ ∃ r t, old.state = .valid r t) ∧ sl = freeSlot)) := by
    simp only [WidthCache.afterReset, List.getElem?_map, Option.map_eq_some_iff] at k
    obtain ⟨old, ho, rfl⟩ := k
    refine ⟨old, ho, ?_⟩
    split
    · next r t e => exact .inl ⟨r, t, e, rfl⟩
    · next e => exact .inr ⟨by simp [e], rfl⟩
    · next e => exact .inr ⟨by simp [e], rfl⟩
  refine ⟨by simpa [WidthCache.afterReset] using h.1, fun i sl k => ?_, fun i j a b f hi hj ha hb => ?_, h.2.2.2.1, fun i => ?_,
    fun f z => absurd z (Nat.not_succ_le_zero _)⟩
  · obtain ⟨old, ho, ⟨r, t, e, rfl⟩ | ⟨-, rfl⟩⟩ := get i sl k
    · have := h.2.1 i old ho
      simp only [slotOk, e] at this ⊢
      split <;> rename_i c <;> simp only [c] at this
      · exact nomatch this.1
      · exact ⟨trivial, this.2⟩
    · exact ⟨rfl, rfl⟩
  · obtain ⟨x, hx, ⟨r, t, -, rfl⟩ | ⟨-, rfl⟩⟩ := get i a hi
    · obtain ⟨y, hy, ⟨r, t, -, rfl⟩ | ⟨-, rfl⟩⟩ := get j b hj
      · exact h.2.2.1 i j x y f hx hy ha hb
      · exact nomatch hb
    · exact nomatch ha
  · show i ∈ w.useList ↔ _
    rw [h.2.2.2.2.1 i]
    constructor
    · rintro ⟨sl, r, t, hs, e⟩
      refine ⟨{ sl with pins := 0 }, r, t, ?_, e⟩
      simp [WidthCache.afterReset, hs, e]
    · rintro ⟨sl, r, t, hs, e⟩
      obtain ⟨old, ho, ⟨r', t', e', rfl⟩ | ⟨-, rfl⟩⟩ := get i sl hs
      · exact ⟨old, r', t', ho, e'⟩
      · exact nomatch e

end Sys2Proof.Machine
end

