-- ==== Sys2Proof/Laws/Keeps.lean ====
section
/-! SUPPORT. What the operations leave of the take records, the window table and the Width Cache: records keep their key, fonts,
film and blocks, and become neither ACTIVE nor RELEASING; windows only leave, are queued or count down; the slots stay. One lemma
for each operation that does no more; those that make, free, offer or select a take, open a window or change a slot have theirs
in Held.lean. -/

namespace Sys2Proof.Machine

/-- The record `y` is `x` with nothing of its key, fonts, film and copy changed, of no higher class, and ACTIVE or RELEASING only
where `x` is. -/
def TakeKept (x y : Take) : Prop :=
  y.key = x.key ∧ y.fonts = x.fonts ∧ y.copyLen = x.copyLen ∧ y.film = x.film ∧ y.received = x.received ∧ y.blocks = x.blocks ∧
  y.reserved = x.reserved ∧ y.cls ≤ x.cls ∧ (y.state = .active → x.state = .active) ∧ (y.state = .releasing → x.state = .releasing)

theorem TakeKept.rfl {x : Take} : TakeKept x x := ⟨.refl _, .refl _, .refl _, .refl _, .refl _, .refl _, .refl _, Nat.le_refl _, id, id⟩
theorem TakeKept.trans {x y z : Take} (h : TakeKept x y) (k : TakeKept y z) : TakeKept x z := by
  obtain ⟨a, b, c, d, e, f, g, i, j, l⟩ := h
  obtain ⟨a', b', c', d', e', f', g', i', j', l'⟩ := k
  exact ⟨a'.trans a, b'.trans b, c'.trans c, d'.trans d, e'.trans e, f'.trans f, g'.trans g, Nat.le_trans i' i, j ∘ j', l ∘ l'⟩

/-- The records stand where they stood, each kept. -/
def TakesKept (l m : List Take) : Prop := ∃ g : Take → Take, m = l.map g ∧ ∀ x ∈ l, TakeKept x (g x)

theorem TakesKept.rfl {l : List Take} : TakesKept l l := ⟨id, by simp, fun _ _ => .rfl⟩
theorem TakesKept.map {a l : List Take} (h : TakesKept a l) {g : Take → Take} (k : ∀ x ∈ l, TakeKept x (g x)) :
    TakesKept a (l.map g) := by
  obtain ⟨f, rfl, p⟩ := h
  exact ⟨g ∘ f, by simp, fun x hx => (p x hx).trans (k _ (List.mem_map_of_mem hx))⟩
theorem TakesKept.trans {l m k : List Take} (h : TakesKept l m) (i : TakesKept m k) : TakesKept l k := by
  obtain ⟨g, rfl, p⟩ := i
  exact h.map p

/-- The windows left stood in this order before, for the same things, with no fewer slots to count. -/
def WindowsKept (l m : List Window) : Prop :=
  ∃ (p : Window → Bool) (g : Window → Window), m = (l.filter p).map g ∧ ∀ w, (g w).what = w.what ∧ (g w).slots ≤ w.slots

theorem WindowsKept.rfl {l : List Window} : WindowsKept l l :=
  ⟨fun _ => true, id, by rw [List.filter_eq_self.2 (by simp)]; simp, fun _ => ⟨.refl _, Nat.le_refl _⟩⟩
theorem WindowsKept.filter {a l : List Window} (h : WindowsKept a l) (q : Window → Bool) : WindowsKept a (l.filter q) := by
  obtain ⟨p, g, rfl, k⟩ := h
  exact ⟨fun w => q (g w) && p w, g, by rw [List.filter_map, List.filter_filter]; rfl, k⟩
theorem WindowsKept.map {a l : List Window} (h : WindowsKept a l) {f : Window → Window}
    (i : ∀ w, (f w).what = w.what ∧ (f w).slots ≤ w.slots) : WindowsKept a (l.map f) := by
  obtain ⟨p, g, rfl, k⟩ := h
  exact ⟨p, f ∘ g, by simp, fun w => ⟨(i _).1.trans (k w).1, Nat.le_trans (i _).2 (k w).2⟩⟩
theorem WindowsKept.nil {a : List Window} : WindowsKept a [] := ⟨fun _ => false, id, by simp, fun _ => ⟨.refl _, Nat.le_refl _⟩⟩

/-- The cache is sound with whatever pins it was, at its generation. -/
def WidthKept (u w : WidthCache) : Prop := w.gen = u.gen ∧ ∀ n, slotsOk n u → slotsOk n w

theorem WidthKept.rfl {u : WidthCache} : WidthKept u u := ⟨.refl _, fun _ => id⟩

/-- What is kept of anything in `s` is kept in `t`. -/
abbrev Keeps (s t : State) : Prop :=
  (∀ a, TakesKept a s.takes → TakesKept a t.takes) ∧ (∀ a, WindowsKept a s.line.windows → WindowsKept a t.line.windows) ∧
  (∀ a, WidthKept a s.width → WidthKept a t.width)

theorem Keeps.rfl {s : State} : Keeps s s := ⟨fun _ => id, fun _ => id, fun _ => id⟩
theorem Keeps.trans {s t u : State} (h : Keeps s t) (k : Keeps t u) : Keeps s u :=
  ⟨fun a => k.1 a ∘ h.1 a, fun a => k.2.1 a ∘ h.2.1 a, fun a => k.2.2 a ∘ h.2.2 a⟩

/-- None of the three changes. -/
theorem keeps_of {s t : State} (a : t.takes = s.takes) (b : t.line.windows = s.line.windows) (c : t.width = s.width) :
    Keeps s t := ⟨fun _ h => a ▸ h, fun _ h => b ▸ h, fun _ h => c ▸ h⟩

theorem foldl_keeps {α : Type} (f : State → α → State) (h : ∀ s a, Keeps s (f s a)) (l : List α) :
    ∀ s, Keeps s (l.foldl f s) := by
  induction l with
  | nil => intro s; exact Keeps.rfl
  | cons a l ih => intro s; exact (h s a).trans (ih _)

@[simp] theorem takesKept_map {a l : List Take} {g : Take → Take} (k : ∀ x, TakeKept x (g x)) (h : TakesKept a l) :
    TakesKept a (l.map g) := h.map fun x _ => k x
@[simp] theorem windowsKept_filter {a l : List Window} {q} (h : WindowsKept a l) : WindowsKept a (l.filter q) := h.filter q

theorem State.modTake_keeps (s k) {f} (i : ∀ x, TakeKept x (f x)) : Keeps s (State.modTake s k f) := by
  refine ⟨fun a h => takesKept_map (fun x => ?_) h, fun _ => id, fun _ => id⟩
  split
  · exact i x
  · exact .rfl

theorem State.modActive_keeps (s) {f} (i : ∀ x, TakeKept x (f x)) : Keeps s (State.modActive s f) := by
  refine ⟨fun a h => takesKept_map (fun x => ?_) h, fun _ => id, fun _ => id⟩
  split
  · exact i x
  · exact .rfl

@[simp] theorem State.modPass_keeps (s f) : Keeps s (State.modPass s f) := keeps_of rfl rfl rfl

@[simp] theorem lookup_keeps (s f c) : Keeps s (lookup s f c).2 := by
  refine ⟨?_, ?_, fun a h => ⟨?_, fun n k => lookup_slotsOk f c (h.2 n k)⟩⟩
  · unfold lookup; dsimp only; (repeat' split) <;> exact fun _ => id
  · unfold lookup; dsimp only; (repeat' split) <;> exact fun _ => id
  · unfold lookup; dsimp only; (repeat' split) <;> exact h.1

@[simp] theorem State.noteMoment_keeps (s) : Keeps s (State.noteMoment s) := by
  unfold State.noteMoment
  refine ⟨fun a h => ?_, fun a h => ?_, fun a h => ?_⟩ <;> (try dsimp only) <;> (repeat' split) <;>
    first | exact h | simp (maxDischargeDepth := 12) [h, TakeKept]

@[simp] theorem putFrame_keeps (s f) : Keeps s (putFrame s f) := by
  unfold putFrame
  refine ⟨fun a h => ?_, fun a h => ?_, fun a h => ?_⟩ <;> (try dsimp only) <;> (repeat' split) <;>
    first | exact h | simp (maxDischargeDepth := 12) [h, TakeKept]

@[simp] theorem produce_keeps (s k b) : Keeps s (produce s k b) := by
  unfold produce
  refine ⟨fun a h => ?_, fun a h => ?_, fun a h => ?_⟩ <;> (try dsimp only) <;> (repeat' split) <;>
    first | exact h | simp (maxDischargeDepth := 12) [h, TakeKept]

@[simp] theorem giveRoom_keeps (s) : Keeps s (giveRoom s) := by
  unfold giveRoom
  refine ⟨fun a h => ?_, fun a h => ?_, fun a h => ?_⟩ <;> (try dsimp only) <;> (repeat' split) <;>
    first | exact h | simp (maxDischargeDepth := 12) [h, TakeKept]

@[simp] theorem withdraw_keeps (s p) : Keeps s (withdraw s p) := by
  unfold withdraw
  refine ⟨fun a h => ?_, fun a h => ?_, fun a h => ?_⟩ <;> (try dsimp only) <;> (repeat' split) <;>
    first | exact h | simp (maxDischargeDepth := 12) [h, TakeKept]

@[simp] theorem cancelWindows_keeps (s p) : Keeps s (cancelWindows s p) := by
  unfold cancelWindows
  refine ⟨fun a h => ?_, fun a h => ?_, fun a h => ?_⟩ <;> (try dsimp only) <;> (repeat' split) <;>
    first | exact h | simp (maxDischargeDepth := 12) [h, TakeKept]

@[simp] theorem endWindow_keeps (s p) : Keeps s (endWindow s p) := by
  unfold endWindow
  refine ⟨fun a h => ?_, fun a h => ?_, fun a h => ?_⟩ <;> (try dsimp only) <;> (repeat' split) <;>
    first | exact h | simp (maxDischargeDepth := 12) [h, TakeKept]

@[simp] theorem startWatch_keeps (s p) : Keeps s (startWatch s p) := by
  unfold startWatch
  refine ⟨fun a h => ?_, fun a h => ?_, fun a h => ?_⟩ <;> (try dsimp only) <;> (repeat' split) <;>
    first | exact h | simp (maxDischargeDepth := 12) [h, TakeKept]

@[simp] theorem endWatch_keeps (s p) : Keeps s (endWatch s p) := by
  unfold endWatch
  refine ⟨fun a h => ?_, fun a h => ?_, fun a h => ?_⟩ <;> (try dsimp only) <;> (repeat' split) <;>
    first | exact h | simp (maxDischargeDepth := 12) [h, TakeKept]

@[simp] theorem countBad_keeps (s) : Keeps s (countBad s) := by
  unfold countBad
  refine ⟨fun a h => ?_, fun a h => ?_, fun a h => ?_⟩ <;> (try dsimp only) <;> (repeat' split) <;>
    first | exact h | simp (maxDischargeDepth := 12) [h, TakeKept]

@[simp] theorem countBroken_keeps (s) : Keeps s (countBroken s) := by
  unfold countBroken
  refine ⟨fun a h => ?_, fun a h => ?_, fun a h => ?_⟩ <;> (try dsimp only) <;> (repeat' split) <;>
    first | exact h | simp (maxDischargeDepth := 12) [h, TakeKept]

@[simp] theorem setFilm_keeps (s n known) : Keeps s (setFilm s n known) := by
  unfold setFilm
  refine ⟨fun a h => ?_, fun a h => ?_, fun a h => ?_⟩ <;> dsimp only <;> split <;> first | exact h | simp [h]

@[simp] theorem lowerFilm_keeps (s n k) : Keeps s (setFilm s (s.film.remaining - n) k) := by
  unfold setFilm
  refine ⟨fun a h => ?_, fun a h => ?_, fun a h => ?_⟩ <;> (try dsimp only) <;> (repeat' split) <;>
    first | exact h | simp (maxDischargeDepth := 12) [h, TakeKept]

@[simp] theorem ask_keeps (s font) : Keeps s (ask s font) := by
  unfold ask
  refine ⟨fun a h => ?_, fun a h => ?_, fun a h => ?_⟩ <;> (try dsimp only) <;> (repeat' split) <;>
    first | exact h | simp (maxDischargeDepth := 12) [h, TakeKept]

@[simp] theorem endAsk_keeps (s font) : Keeps s (endAsk s font) := by
  unfold endAsk
  refine ⟨fun a h => ?_, fun a h => ?_, fun a h => ?_⟩ <;> (try dsimp only) <;> (repeat' split) <;>
    first | exact h | simp (maxDischargeDepth := 12) [h, TakeKept]

@[simp] theorem markReady_keeps (s) : Keeps s (markReady s) := by
  refine ⟨fun a h => takesKept_map (fun x => ?_) h, fun _ => id, fun _ => id⟩
  exact .rfl

@[simp] theorem askEnded_keeps (s font) : Keeps s (askEnded s font) := by
  refine ⟨fun a h => takesKept_map (fun x => ?_) h, fun _ => id, fun _ => id⟩
  exact .rfl

@[simp] theorem tableToWindows_keeps (s font revision) : Keeps s (tableToWindows s font revision) := by
  unfold tableToWindows
  refine ⟨fun a h => ?_, fun a h => ?_, fun a h => ?_⟩ <;> (try dsimp only) <;> (repeat' split) <;>
    first | exact h | simp (maxDischargeDepth := 12) [h, TakeKept]

@[simp] theorem expireWindow_keeps (s x) : Keeps s (expireWindow s x) := by
  unfold expireWindow
  split
  · split
    · refine Keeps.trans (t := { s with line := { s.line with windows := s.line.windows.map (fun v =>
        if v.what.subject == x then { v with queued := true } else v) } }) ?_ (putFrame_keeps _ _)
      refine ⟨fun _ => id, fun _ h => h.map fun w => ?_, fun _ => id⟩
      split <;> exact ⟨rfl, Nat.le_refl _⟩
    · exact endWindow_keeps _ _
  · exact Keeps.rfl

@[simp] theorem warmUp_keeps (s) : Keeps s (warmUp s) := by
  unfold warmUp
  refine ⟨fun a h => ?_, fun a h => ?_, fun a h => ?_⟩ <;> (try dsimp only) <;> (repeat' split) <;>
    first | exact h | simp (maxDischargeDepth := 12) [h, TakeKept]

@[simp] theorem lampOff_keeps (s) : Keeps s (lampOff s) := by
  unfold lampOff
  refine ⟨fun a h => ?_, fun a h => ?_, fun a h => ?_⟩ <;> (try dsimp only) <;> (repeat' split) <;>
    first | exact h | simp (maxDischargeDepth := 12) [h, TakeKept]

@[simp] theorem warmUpExpires_keeps (s) : Keeps s (warmUpExpires s) := by
  unfold warmUpExpires
  refine ⟨fun a h => ?_, fun a h => ?_, fun a h => ?_⟩ <;> (try dsimp only) <;> (repeat' split) <;>
    first | exact h | simp (maxDischargeDepth := 12) [h, TakeKept]

@[simp] theorem examineStranded_keeps (s) : Keeps s (examineStranded s) := by
  refine ⟨fun a h => takesKept_map (fun x => ?_) h, fun _ => id, fun _ => id⟩
  split
  · simp [TakeKept, Take.unstranded, Take.queued]
  · exact .rfl

@[simp] theorem enterRun_keeps (s) : Keeps s (enterRun s) := by
  unfold enterRun
  refine ⟨fun a h => ?_, fun a h => ?_, fun a h => ?_⟩ <;> (try dsimp only) <;> (repeat' split) <;>
    first | exact h | simp (maxDischargeDepth := 12) [h, TakeKept]

@[simp] theorem wake_keeps (s) : Keeps s (wake s) := by
  unfold wake
  refine ⟨fun a h => ?_, fun a h => ?_, fun a h => ?_⟩ <;> (try dsimp only) <;> (repeat' split) <;>
    first | exact h | simp (maxDischargeDepth := 12) [h, TakeKept]

theorem Take.queued_kept (x : Take) : TakeKept x x.queued := by simp [TakeKept, Take.queued]
@[simp] theorem toQueued_keeps (s k) : Keeps s (toQueued s k) :=
  (State.modTake_keeps _ _ Take.queued_kept).trans (wake_keeps _)

@[simp] theorem markTakes_keeps (s r p) : Keeps s (markTakes s r p) := by
  refine ⟨fun a h => takesKept_map (fun x => ?_) h, fun _ => id, fun _ => id⟩
  unfold Take.mark
  (repeat' split) <;> exact .rfl

@[simp] theorem closeClaims_keeps (s) : Keeps s (closeClaims s) := by
  unfold closeClaims
  refine ⟨fun a h => ?_, fun a h => ?_, fun a h => ?_⟩ <;> (try dsimp only) <;> (repeat' split) <;>
    first | exact h | simp (maxDischargeDepth := 12) [h, TakeKept]

@[simp] theorem requestPark_keeps (s reason) : Keeps s (requestPark s reason) := by
  unfold requestPark
  refine ⟨fun a h => ?_, fun a h => ?_, fun a h => ?_⟩ <;> (try dsimp only) <;> (repeat' split) <;>
    first | exact h | simp (maxDischargeDepth := 12) [h, TakeKept]

@[simp] theorem recordStop_keeps (s t line kind font door toHold) : Keeps s (recordStop s t line kind font door toHold) := by
  have k : Keeps s (match line with
      | some l => s.modTake t.key (fun x => { x with lineStop := some (l, t.stopCount line) })
      | none => s) := by
    split
    · exact State.modTake_keeps _ _ fun _ => .rfl
    · exact Keeps.rfl
  unfold recordStop
  dsimp only
  split
  · refine k.trans (Keeps.trans ?_ (requestPark_keeps _ _))
    exact keeps_of rfl rfl rfl
  · split <;>
    · refine k.trans ((State.noteMoment_keeps _).trans ((closeClaims_keeps _).trans (Keeps.trans ?_ (produce_keeps _ _ _))))
      exact keeps_of rfl rfl rfl

@[simp] theorem raiseStop_keeps (s kind font door) : Keeps s (raiseStop s kind font door) := by
  unfold raiseStop
  refine ⟨fun a h => ?_, fun a h => ?_, fun a h => ?_⟩ <;> (try dsimp only) <;> (repeat' split) <;>
    first | exact h | simp (maxDischargeDepth := 12) [h, TakeKept]

@[simp] theorem leaveStopped_keeps (s r) : Keeps s (leaveStopped s r) := by
  unfold leaveStopped
  refine ⟨fun a h => ?_, fun a h => ?_, fun a h => ?_⟩ <;> (try dsimp only) <;> (repeat' split) <;>
    first | exact h | simp (maxDischargeDepth := 12) [h, TakeKept]

@[simp] theorem clearStop_keeps (s) : Keeps s (clearStop s) := by
  unfold clearStop
  refine ⟨fun a h => ?_, fun a h => ?_, fun a h => ?_⟩ <;> (try dsimp only) <;> (repeat' split) <;>
    first | exact h | simp (maxDischargeDepth := 12) [h, TakeKept]

@[simp] theorem dropStop_keeps (s k) : Keeps s (dropStop s k) := by
  unfold dropStop
  refine ⟨fun a h => ?_, fun a h => ?_, fun a h => ?_⟩ <;> (try dsimp only) <;> (repeat' split) <;>
    first | exact h | simp (maxDischargeDepth := 12) [h, TakeKept]

@[simp] theorem takeFault_keeps (s kind mech) : Keeps s (takeFault s kind mech) := by
  unfold takeFault
  refine ⟨fun a h => ?_, fun a h => ?_, fun a h => ?_⟩ <;> (try dsimp only) <;> (repeat' split) <;>
    first | exact h | simp (maxDischargeDepth := 12) [h, TakeKept]

@[simp] theorem furtherFault_keeps (s kind mech) : Keeps s (furtherFault s kind mech) := by
  unfold furtherFault
  refine ⟨fun a h => ?_, fun a h => ?_, fun a h => ?_⟩ <;> (try dsimp only) <;> (repeat' split) <;>
    first | exact h | simp (maxDischargeDepth := 12) [h, TakeKept]

@[simp] theorem enterHalt_keeps (s mech atClear) : Keeps s (enterHalt s mech atClear) := by
  unfold enterHalt
  refine ⟨fun a h => ?_, fun a h => ?_, fun a h => ?_⟩ <;> (try dsimp only) <;> (repeat' split) <;>
    first | exact h | simp (maxDischargeDepth := 12) [h, TakeKept]

@[simp] theorem reportFault_keeps (s kind mech) : Keeps s (reportFault s kind mech) := by
  unfold reportFault
  refine ⟨fun a h => ?_, fun a h => ?_, fun a h => ?_⟩ <;> (try dsimp only) <;> (repeat' split) <;>
    first | exact h | simp (maxDischargeDepth := 12) [h, TakeKept]

@[simp] theorem closeGalley_keeps (s m) : Keeps s (closeGalley s m) := by
  unfold closeGalley
  split
  · next g _ =>
    exact (State.modTake_keeps s g.key (f := fun t => { t with counters := { t.counters with
      galleys := satAdd Config.top16 t.counters.galleys 1
      filmUsed := satAdd Config.top24 t.counters.filmUsed g.length } }) fun _ => .rfl).trans ⟨fun _ => id, fun _ => id, fun _ => id⟩
  · exact Keeps.rfl

@[simp] theorem growGalley_keeps (s n) : Keeps s (growGalley s n) := by
  unfold growGalley
  refine ⟨fun a h => ?_, fun a h => ?_, fun a h => ?_⟩ <;> (try dsimp only) <;> (repeat' split) <;>
    first | exact h | simp (maxDischargeDepth := 12) [h, TakeKept]

@[simp] theorem cutDone_keeps (s c) : Keeps s (cutDone s c) := by
  unfold cutDone
  refine ⟨fun a h => ?_, fun a h => ?_, fun a h => ?_⟩ <;> (try dsimp only) <;> (repeat' split) <;>
    first | exact h | simp (maxDischargeDepth := 12) [h, TakeKept]

@[simp] theorem askCut_keeps (s c) : Keeps s (askCut s c) := by
  unfold askCut
  refine ⟨fun a h => ?_, fun a h => ?_, fun a h => ?_⟩ <;> (try dsimp only) <;> (repeat' split) <;>
    first | exact h | simp (maxDischargeDepth := 12) [h, TakeKept]

@[simp] theorem finishCut_keeps (s c uncut) : Keeps s (finishCut s c uncut) := by
  unfold finishCut
  refine ⟨fun a h => ?_, fun a h => ?_, fun a h => ?_⟩ <;> (try dsimp only) <;> (repeat' split) <;>
    first | exact h | simp (maxDischargeDepth := 12) [h, TakeKept]

@[simp] theorem toCutter_keeps (s c) : Keeps s (toCutter s c) := by
  unfold toCutter
  refine ⟨fun a h => ?_, fun a h => ?_, fun a h => ?_⟩ <;> (try dsimp only) <;> (repeat' split) <;>
    first | exact h | simp (maxDischargeDepth := 12) [h, TakeKept]

@[simp] theorem beginCut_keeps (s c) : Keeps s (beginCut s c) := by
  unfold beginCut
  refine ⟨fun a h => ?_, fun a h => ?_, fun a h => ?_⟩ <;> (try dsimp only) <;> (repeat' split) <;>
    first | exact h | simp (maxDischargeDepth := 12) [h, TakeKept]

@[simp] theorem openGalley_keeps (s key line) : Keeps s (openGalley s key line) := keeps_of rfl rfl rfl
@[simp] theorem beginAdvance_keeps (s key line leading) : Keeps s (beginAdvance s key line leading) := by
  have o : Keeps s (if s.film.galley.isNone then openGalley s key line else s) := by
    split
    · exact openGalley_keeps _ _ _
    · exact Keeps.rfl
  unfold beginAdvance
  generalize (if s.film.galley.isNone = true then openGalley s key line else s) = u at o ⊢
  dsimp only
  split
  · exact o
  · refine o.trans ((setFilm_keeps u (u.film.remaining - 5 * leading) u.film.known).trans
      ((growGalley_keeps _ (5 * leading)).trans ?_))
    exact ⟨fun _ => id, fun _ => id, fun _ => id⟩

@[simp] theorem dropRequest_keeps (s) : Keeps s (dropRequest s) := by
  unfold dropRequest
  refine ⟨fun a h => ?_, fun a h => ?_, fun a h => ?_⟩ <;> (try dsimp only) <;> (repeat' split) <;>
    first | exact h | simp (maxDischargeDepth := 12) [h, TakeKept]

@[simp] theorem produceManifest_keeps (s) : Keeps s (produceManifest s) :=
  (foldl_keeps _ (fun st (p : List Galley × Nat) => produce_keeps st none _) _ s).trans (keeps_of rfl rfl rfl)

@[simp] theorem loadCassette_keeps (s code) : Keeps s (loadCassette s code) := by
  refine Keeps.trans ?_ (setFilm_keeps _ _ _)
  exact keeps_of rfl rfl rfl

@[simp] theorem State.count_keeps (s f) : Keeps s (State.count s f) := State.modActive_keeps _ fun _ => .rfl

@[simp] theorem addCopyErrors_keeps (s n) : Keeps s (addCopyErrors s n) := by
  unfold addCopyErrors
  refine ⟨fun a h => ?_, fun a h => ?_, fun a h => ?_⟩ <;> (try dsimp only) <;> (repeat' split) <;>
    first | exact h | simp (maxDischargeDepth := 12) [h, TakeKept]

@[simp] theorem addClamped_keeps (s n) : Keeps s (addClamped s n) := by
  unfold addClamped
  refine ⟨fun a h => ?_, fun a h => ?_, fun a h => ?_⟩ <;> (try dsimp only) <;> (repeat' split) <;>
    first | exact h | simp (maxDischargeDepth := 12) [h, TakeKept]

@[simp] theorem addSubstituted_keeps (s n) : Keeps s (addSubstituted s n) := by
  unfold addSubstituted
  refine ⟨fun a h => ?_, fun a h => ?_, fun a h => ?_⟩ <;> (try dsimp only) <;> (repeat' split) <;>
    first | exact h | simp (maxDischargeDepth := 12) [h, TakeKept]

@[simp] theorem modComp_keeps (s f) : Keeps s (modComp s f) := by
  unfold modComp
  refine ⟨fun a h => ?_, fun a h => ?_, fun a h => ?_⟩ <;> (try dsimp only) <;> (repeat' split) <;>
    first | exact h | simp (maxDischargeDepth := 12) [h, TakeKept]

@[simp] theorem modCtx_keeps (s f) : Keeps s (modCtx s f) := by
  unfold modCtx
  refine ⟨fun a h => ?_, fun a h => ?_, fun a h => ?_⟩ <;> (try dsimp only) <;> (repeat' split) <;>
    first | exact h | simp (maxDischargeDepth := 12) [h, TakeKept]

@[simp] theorem modPend_keeps (s f) : Keeps s (modPend s f) := by
  unfold modPend
  refine ⟨fun a h => ?_, fun a h => ?_, fun a h => ?_⟩ <;> (try dsimp only) <;> (repeat' split) <;>
    first | exact h | simp (maxDischargeDepth := 12) [h, TakeKept]

@[simp] theorem reportEnd_keeps (s t) : Keeps s (reportEnd s t) := by
  unfold reportEnd
  refine ⟨fun a h => ?_, fun a h => ?_, fun a h => ?_⟩ <;> (try dsimp only) <;> (repeat' split) <;>
    first | exact h | simp (maxDischargeDepth := 12) [h, TakeKept]

@[simp] theorem startLine_keeps (s t ctx subst after) : Keeps s (startLine s t ctx subst after) := by
  unfold startLine
  refine ⟨fun a h => ?_, fun a h => ?_, fun a h => ?_⟩ <;> (try dsimp only) <;> (repeat' split) <;>
    first | exact h | simp (maxDischargeDepth := 12) [h, TakeKept]

@[simp] theorem appendLine_keeps (s t ctx sl) : Keeps s (appendLine s t ctx sl) := by
  unfold appendLine
  refine Keeps.trans ?_ (startLine_keeps _ _ _ _ _)
  refine Keeps.trans (State.modActive_keeps s fun x => ?_) (keeps_of rfl rfl rfl)
  exact .rfl

@[simp] theorem offerLine_keeps (s t ctx sl) : Keeps s (offerLine s t ctx sl) := by
  unfold offerLine
  refine ⟨fun a h => ?_, fun a h => ?_, fun a h => ?_⟩ <;> (try dsimp only) <;> (repeat' split) <;>
    first | exact h | simp (maxDischargeDepth := 12) [h, TakeKept]

@[simp] theorem completeLine_keeps (s t ctx items e next) : Keeps s (completeLine s t ctx items e next) := by
  unfold completeLine
  refine ⟨fun a h => ?_, fun a h => ?_, fun a h => ?_⟩ <;> (try dsimp only) <;> (repeat' split) <;>
    first | exact h | simp (maxDischargeDepth := 12) [h, TakeKept]

theorem weigh_keeps (v line group) : ∀ cs s best, Keeps s (weigh v line group cs s best).1 := by
  intro cs
  induction cs with
  | nil => intro s best; exact Keeps.rfl
  | cons c cs ih =>
    intro s best
    obtain ⟨i, k⟩ := c
    cases k with
    | explicit => exact ih _ _
    | added =>
      unfold weigh
      split
      · exact (lookup_keeps s _ 0x2D).trans (ih _ _)
      · exact ih _ _
@[simp] theorem breakGroup_keeps (s t ctx stop) : Keeps s (breakGroup s t ctx stop) := by
  have hw := weigh_keeps (s.comp.values ctx s.comp.group) s.comp.spacedLine s.comp.group
    (candidates s.hyph t.exceptions
      { hyph := ctx.hyph, caps := ctx.caps, limit := ctx.ladderLimit, count := ctx.ladderCount } s.comp.group
      s.comp.discs) s none
  unfold breakGroup
  dsimp only
  split
  · exact hw.trans (completeLine_keeps _ _ _ _ _ _)
  · split <;> exact hw.trans (completeLine_keeps _ _ _ _ _ _)

@[simp] theorem closeGroup_keeps (s t ctx stop next para) : Keeps s (closeGroup s t ctx stop next para) := by
  unfold closeGroup
  refine ⟨fun a h => ?_, fun a h => ?_, fun a h => ?_⟩ <;> (try dsimp only) <;> (repeat' split) <;>
    first | exact h | simp (maxDischargeDepth := 12) [h, TakeKept]

@[simp] theorem readPast_keeps (s next) : Keeps s (readPast s next) := by
  unfold readPast
  refine ⟨fun a h => ?_, fun a h => ?_, fun a h => ?_⟩ <;> (try dsimp only) <;> (repeat' split) <;>
    first | exact h | simp (maxDischargeDepth := 12) [h, TakeKept]

@[simp] theorem placeBox_keeps (s kind code width absent next) : Keeps s (placeBox s kind code width absent next) := by
  unfold placeBox
  refine ⟨fun a h => ?_, fun a h => ?_, fun a h => ?_⟩ <;> (try dsimp only) <;> (repeat' split) <;>
    first | exact h | simp (maxDischargeDepth := 12) [h, TakeKept]

@[simp] theorem placeNbspace_keeps (s next) : Keeps s (placeNbspace s next) := by
  unfold placeNbspace
  refine ⟨fun a h => ?_, fun a h => ?_, fun a h => ?_⟩ <;> (try dsimp only) <;> (repeat' split) <;>
    first | exact h | simp (maxDischargeDepth := 12) [h, TakeKept]

theorem retryLine_keeps {s t} (e : retryLine s = some t) : Keeps s t := by
  unfold retryLine at e
  (repeat' split at e) <;> first
    | (injection e with e; subst e; refine ⟨fun a h => ?_, fun a h => ?_, fun a h => ?_⟩ <;> (try dsimp only) <;> (repeat' split) <;>
        first | exact h | simp (maxDischargeDepth := 12) [h, TakeKept])
    | simp at e

theorem storeRemove_keeps {s t} (e : storeRemove s = some t) : Keeps s t := by
  unfold storeRemove at e
  (repeat' split at e) <;> first
    | (injection e with e; subst e; refine ⟨fun a h => ?_, fun a h => ?_, fun a h => ?_⟩ <;> (try dsimp only) <;> (repeat' split) <;>
        first | exact h | simp (maxDischargeDepth := 12) [h, TakeKept])
    | simp at e

@[simp] theorem emptyStore_keeps (s) : Keeps s (emptyStore s) := by
  unfold emptyStore
  exact (State.modActive_keeps (f := fun t =>
    { t with proofState := s.unproofed.foldl (fun p r => p.without r.number) t.proofState }) _ fun _ => .rfl).trans
    ⟨fun _ => id, fun _ => id, fun _ => id⟩

@[simp] theorem startCompositor_keeps (s t) : Keeps s (startCompositor s t) := by
  unfold startCompositor
  refine ⟨fun a h => ?_, fun a h => ?_, fun a h => ?_⟩ <;> (try dsimp only) <;> (repeat' split) <;>
    first | exact h | simp (maxDischargeDepth := 12) [h, TakeKept]

@[simp] theorem setLevel_keeps (s now later) : Keeps s (setLevel s now later) := by
  unfold setLevel
  refine ⟨fun a h => ?_, fun a h => ?_, fun a h => ?_⟩ <;> (try dsimp only) <;> (repeat' split) <;>
    first | exact h | simp (maxDischargeDepth := 12) [h, TakeKept]

@[simp] theorem takeFont_keeps (s t font) : Keeps s (takeFont s t font) := by
  unfold takeFont
  refine ⟨fun a h => ?_, fun a h => ?_, fun a h => ?_⟩ <;> (try dsimp only) <;> (repeat' split) <;>
    first | exact h | simp (maxDischargeDepth := 12) [h, TakeKept]

@[simp] theorem takeSizeCommand_keeps (s n) : Keeps s (takeSizeCommand s n) := by
  unfold takeSizeCommand
  refine ⟨fun a h => ?_, fun a h => ?_, fun a h => ?_⟩ <;> (try dsimp only) <;> (repeat' split) <;>
    first | exact h | simp (maxDischargeDepth := 12) [h, TakeKept]

@[simp] theorem takeLead_keeps (s n) : Keeps s (takeLead s n) := by
  unfold takeLead
  refine ⟨fun a h => ?_, fun a h => ?_, fun a h => ?_⟩ <;> (try dsimp only) <;> (repeat' split) <;>
    first | exact h | simp (maxDischargeDepth := 12) [h, TakeKept]

@[simp] theorem takeMeasure_keeps (s picas points) : Keeps s (takeMeasure s picas points) := by
  unfold takeMeasure
  refine ⟨fun a h => ?_, fun a h => ?_, fun a h => ?_⟩ <;> (try dsimp only) <;> (repeat' split) <;>
    first | exact h | simp (maxDischargeDepth := 12) [h, TakeKept]

@[simp] theorem takeIndent_keeps (s n) : Keeps s (takeIndent s n) := by
  unfold takeIndent
  refine ⟨fun a h => ?_, fun a h => ?_, fun a h => ?_⟩ <;> (try dsimp only) <;> (repeat' split) <;>
    first | exact h | simp (maxDischargeDepth := 12) [h, TakeKept]

@[simp] theorem takeSpaceband_keeps (s mn op mx) : Keeps s (takeSpaceband s mn op mx) := by
  unfold takeSpaceband
  refine ⟨fun a h => ?_, fun a h => ?_, fun a h => ?_⟩ <;> (try dsimp only) <;> (repeat' split) <;>
    first | exact h | simp (maxDischargeDepth := 12) [h, TakeKept]

@[simp] theorem takeLetterspace_keeps (s n) : Keeps s (takeLetterspace s n) := by
  unfold takeLetterspace
  refine ⟨fun a h => ?_, fun a h => ?_, fun a h => ?_⟩ <;> (try dsimp only) <;> (repeat' split) <;>
    first | exact h | simp (maxDischargeDepth := 12) [h, TakeKept]

@[simp] theorem takeLadder_keeps (s n) : Keeps s (takeLadder s n) := by
  unfold takeLadder
  refine ⟨fun a h => ?_, fun a h => ?_, fun a h => ?_⟩ <;> (try dsimp only) <;> (repeat' split) <;>
    first | exact h | simp (maxDischargeDepth := 12) [h, TakeKept]

@[simp] theorem takeMode_keeps (s n) : Keeps s (takeMode s n) := by
  unfold takeMode
  refine ⟨fun a h => ?_, fun a h => ?_, fun a h => ?_⟩ <;> (try dsimp only) <;> (repeat' split) <;>
    first | exact h | simp (maxDischargeDepth := 12) [h, TakeKept]

@[simp] theorem takeHyph_keeps (s n) : Keeps s (takeHyph s n) := by
  unfold takeHyph
  refine ⟨fun a h => ?_, fun a h => ?_, fun a h => ?_⟩ <;> (try dsimp only) <;> (repeat' split) <;>
    first | exact h | simp (maxDischargeDepth := 12) [h, TakeKept]

@[simp] theorem takeCaps_keeps (s n) : Keeps s (takeCaps s n) := by
  unfold takeCaps
  refine ⟨fun a h => ?_, fun a h => ?_, fun a h => ?_⟩ <;> (try dsimp only) <;> (repeat' split) <;>
    first | exact h | simp (maxDischargeDepth := 12) [h, TakeKept]

@[simp] theorem endParagraph_keeps (s r stop next) : Keeps s (endParagraph s r stop next) := by
  unfold endParagraph
  refine ⟨fun a h => ?_, fun a h => ?_, fun a h => ?_⟩ <;> (try dsimp only) <;> (repeat' split) <;>
    first | exact h | simp (maxDischargeDepth := 12) [h, TakeKept]

@[simp] theorem takeFixedSpace_keeps (s r units) : Keeps s (takeFixedSpace s r units) := by
  unfold takeFixedSpace
  refine ⟨fun a h => ?_, fun a h => ?_, fun a h => ?_⟩ <;> (try dsimp only) <;> (repeat' split) <;>
    first | exact h | simp (maxDischargeDepth := 12) [h, TakeKept]

@[simp] theorem takeDisc_keeps (s) : Keeps s (takeDisc s) := by
  unfold takeDisc
  refine ⟨fun a h => ?_, fun a h => ?_, fun a h => ?_⟩ <;> (try dsimp only) <;> (repeat' split) <;>
    first | exact h | simp (maxDischargeDepth := 12) [h, TakeKept]

@[simp] theorem takeCharacter_keeps (s r code) : Keeps s (takeCharacter s r code) := by
  unfold takeCharacter
  refine ⟨fun a h => ?_, fun a h => ?_, fun a h => ?_⟩ <;> (try dsimp only) <;> (repeat' split) <;>
    first | exact h | simp (maxDischargeDepth := 12) [h, TakeKept]

@[simp] theorem takeWordSpace_keeps (s r) : Keeps s (takeWordSpace s r) := by
  unfold takeWordSpace
  refine ⟨fun a h => ?_, fun a h => ?_, fun a h => ?_⟩ <;> (try dsimp only) <;> (repeat' split) <;>
    first | exact h | simp (maxDischargeDepth := 12) [h, TakeKept]

@[simp] theorem takeUnknown_keeps (s r) : Keeps s (takeUnknown s r) := by
  unfold takeUnknown
  refine ⟨fun a h => ?_, fun a h => ?_, fun a h => ?_⟩ <;> (try dsimp only) <;> (repeat' split) <;>
    first | exact h | simp (maxDischargeDepth := 12) [h, TakeKept]

@[simp] theorem takeEnd_keeps (s) : Keeps s (takeEnd s) := by
  unfold takeEnd
  refine ⟨fun a h => ?_, fun a h => ?_, fun a h => ?_⟩ <;> (try dsimp only) <;> (repeat' split) <;>
    first | exact h | simp (maxDischargeDepth := 12) [h, TakeKept]

theorem takeLine_keeps {s t} (e : takeLine s = some t) : Keeps s t := by
  unfold takeLine at e
  (repeat' split at e) <;> first
    | (injection e with e; subst e; refine ⟨fun a h => ?_, fun a h => ?_, fun a h => ?_⟩ <;> (try dsimp only) <;> (repeat' split) <;>
        first | exact h | simp (maxDischargeDepth := 12) [h, TakeKept])
    | simp at e

theorem beginChar_keeps {s t} (e : beginChar s = some t) : Keeps s t := by
  unfold beginChar at e
  (repeat' split at e) <;> first
    | (injection e with e; subst e; refine ⟨fun a h => ?_, fun a h => ?_, fun a h => ?_⟩ <;> (try dsimp only) <;> (repeat' split) <;>
        first | exact h | simp (maxDischargeDepth := 12) [h, TakeKept])
    | simp at e

@[simp] theorem charSent_keeps (s) : Keeps s (charSent s) := by
  unfold charSent
  refine ⟨fun a h => ?_, fun a h => ?_, fun a h => ?_⟩ <;> (try dsimp only) <;> (repeat' split) <;>
    first | exact h | simp (maxDischargeDepth := 12) [h, TakeKept]

@[simp] theorem clearProof_keeps (s n) : Keeps s (clearProof s n) := by
  unfold clearProof
  refine ⟨fun a h => ?_, fun a h => ?_, fun a h => ?_⟩ <;> (try dsimp only) <;> (repeat' split) <;>
    first | exact h | simp (maxDischargeDepth := 12) [h, TakeKept]

@[simp] theorem lineSent_keeps (s) : Keeps s (lineSent s) := by
  unfold lineSent
  refine ⟨fun a h => ?_, fun a h => ?_, fun a h => ?_⟩ <;> (try dsimp only) <;> (repeat' split) <;>
    first | exact h | simp (maxDischargeDepth := 12) [h, TakeKept]

@[simp] theorem dropProof_keeps (s) : Keeps s (dropProof s) := by
  have k1 : Keeps s (State.modActive { s with store := { s.store with
      records := s.store.records.map (fun r => { r with proofPending := false }) } } (fun t => { t with proofDropped := true })) :=
    Keeps.trans (keeps_of rfl rfl rfl) (State.modActive_keeps _ fun _ => .rfl)
  unfold dropProof
  dsimp only
  split
  · exact k1.trans (State.modActive_keeps _ fun _ => .rfl)
  · exact k1.trans (State.modActive_keeps _ fun _ => .rfl)
  · exact k1

@[simp] theorem paperBegins_keeps (s) : Keeps s (paperBegins s) := by
  unfold paperBegins
  refine ⟨fun a h => ?_, fun a h => ?_, fun a h => ?_⟩ <;> (try dsimp only) <;> (repeat' split) <;>
    first | exact h | simp (maxDischargeDepth := 12) [h, TakeKept]

@[simp] theorem paperEnds_keeps (s) : Keeps s (paperEnds s) := by
  unfold paperEnds
  refine ⟨fun a h => ?_, fun a h => ?_, fun a h => ?_⟩ <;> (try dsimp only) <;> (repeat' split) <;>
    first | exact h | simp (maxDischargeDepth := 12) [h, TakeKept]

@[simp] theorem paperChange_keeps (s s') : Keeps s' (paperChange s s') := by
  unfold paperChange
  split
  · exact paperBegins_keeps _
  · exact paperEnds_keeps _
  · exact Keeps.rfl

@[simp] theorem setPaper_keeps (s present) : Keeps s (setPaper s present) := by
  refine Keeps.trans ?_ (paperChange_keeps _ _)
  exact keeps_of rfl rfl rfl

@[simp] theorem setBusy_keeps (s asserted) : Keeps s (setBusy s asserted) := by
  refine Keeps.trans ?_ (paperChange_keeps _ _)
  exact keeps_of rfl rfl rfl

@[simp] theorem busyStall_keeps (s) : Keeps s (busyStall s) := by
  unfold busyStall
  split
  · refine Keeps.trans ?_ (paperChange_keeps _ _)
    exact keeps_of rfl rfl rfl
  · exact Keeps.rfl

@[simp] theorem cutProofPass_keeps (s) : Keeps s (cutProofPass s) := by
  unfold cutProofPass
  have k : Keeps s (emptyStore { s with comp := idleCompositor }) := by
    refine Keeps.trans ?_ (emptyStore_keeps _)
    exact keeps_of rfl rfl rfl
  exact k.trans ((State.modActive_keeps (f := fun t => { t with proofState := .none, startValues := none }) _ fun _ => .rfl).trans
    (keeps_of rfl rfl rfl))

@[simp] theorem abandonPass_keeps (s) : Keeps s (abandonPass s) := by
  unfold abandonPass
  refine ⟨fun a h => ?_, fun a h => ?_, fun a h => ?_⟩ <;> (try dsimp only) <;> (repeat' split) <;>
    first | exact h | simp (maxDischargeDepth := 12) [h, TakeKept]

@[simp] theorem modExp_keeps (s f) : Keeps s (modExp s f) := by
  unfold modExp
  refine ⟨fun a h => ?_, fun a h => ?_, fun a h => ?_⟩ <;> (try dsimp only) <;> (repeat' split) <;>
    first | exact h | simp (maxDischargeDepth := 12) [h, TakeKept]

@[simp] theorem modCur_keeps (s f) : Keeps s (modCur s f) := by
  unfold modCur
  refine ⟨fun a h => ?_, fun a h => ?_, fun a h => ?_⟩ <;> (try dsimp only) <;> (repeat' split) <;>
    first | exact h | simp (maxDischargeDepth := 12) [h, TakeKept]

@[simp] theorem endExposure_keeps (s) : Keeps s (endExposure s) := by
  unfold endExposure
  refine ⟨fun a h => ?_, fun a h => ?_, fun a h => ?_⟩ <;> (try dsimp only) <;> (repeat' split) <;>
    first | exact h | simp (maxDischargeDepth := 12) [h, TakeKept]

@[simp] theorem endByFault_keeps (s) : Keeps s (endByFault s) := by
  unfold endByFault
  refine ⟨fun a h => ?_, fun a h => ?_, fun a h => ?_⟩ <;> (try dsimp only) <;> (repeat' split) <;>
    first | exact h | simp (maxDischargeDepth := 12) [h, TakeKept]

theorem beginExposure_keeps {s t} (e : beginExposure s = some t) : Keeps s t := by
  unfold beginExposure at e
  (repeat' split at e) <;> first
    | (injection e with e; subst e; refine ⟨fun a h => ?_, fun a h => ?_, fun a h => ?_⟩ <;> (try dsimp only) <;> (repeat' split) <;>
        first | exact h | simp (maxDischargeDepth := 12) [h, TakeKept])
    | simp at e

theorem checkLine_keeps {s t} (e : checkLine s = some t) : Keeps s t := by
  unfold checkLine at e
  (repeat' split at e) <;> first
    | (injection e with e; subst e; refine ⟨fun a h => ?_, fun a h => ?_, fun a h => ?_⟩ <;> (try dsimp only) <;> (repeat' split) <;>
        first | exact h | simp (maxDischargeDepth := 12) [h, TakeKept])
    | simp at e

@[simp] theorem startScan_keeps (s) : Keeps s (startScan s) := by
  unfold startScan
  refine ⟨fun a h => ?_, fun a h => ?_, fun a h => ?_⟩ <;> (try dsimp only) <;> (repeat' split) <;>
    first | exact h | simp (maxDischargeDepth := 12) [h, TakeKept]

theorem goLine_keeps {s t} (e : goLine s = some t) : Keeps s t := by
  unfold goLine at e
  (repeat' split at e) <;> first
    | (injection e with e; subst e; refine ⟨fun a h => ?_, fun a h => ?_, fun a h => ?_⟩ <;> (try dsimp only) <;> (repeat' split) <;>
        first | exact h | simp (maxDischargeDepth := 12) [h, TakeKept])
    | simp at e

@[simp] theorem lineExposed_keeps (s c) : Keeps s (lineExposed s c) := by
  refine Keeps.trans (t := s.modActive _) (State.modActive_keeps s fun x => ?_) (keeps_of rfl rfl rfl)
  exact .rfl

theorem scanStep_keeps {s t} (e : scanStep s = some t) : Keeps s t := by
  unfold scanStep at e
  dsimp only at e
  (repeat' split at e) <;> first
    | (injection e with e; subst e; exact modExp_keeps _ _)
    | (injection e with e; subst e; exact modCur_keeps _ _)
    | (injection e with e; subst e; exact lineExposed_keeps _ _)
    | simp at e

@[simp] theorem mechanismFault_keeps (s m) : Keeps s (mechanismFault s m) := by
  unfold mechanismFault
  refine ⟨fun a h => ?_, fun a h => ?_, fun a h => ?_⟩ <;> (try dsimp only) <;> (repeat' split) <;>
    first | exact h | simp (maxDischargeDepth := 12) [h, TakeKept]

@[simp] theorem mountDone_keeps (s) : Keeps s (mountDone s) := by
  unfold mountDone
  refine ⟨fun a h => ?_, fun a h => ?_, fun a h => ?_⟩ <;> (try dsimp only) <;> (repeat' split) <;>
    first | exact h | simp (maxDischargeDepth := 12) [h, TakeKept]

@[simp] theorem turretIndex_keeps (s seat) : Keeps s (turretIndex s seat) := by
  unfold turretIndex
  refine ⟨fun a h => ?_, fun a h => ?_, fun a h => ?_⟩ <;> (try dsimp only) <;> (repeat' split) <;>
    first | exact h | simp (maxDischargeDepth := 12) [h, TakeKept]

@[simp] theorem lensIndexEvent_keeps (s lens) : Keeps s (lensIndexEvent s lens) := by
  unfold lensIndexEvent
  refine ⟨fun a h => ?_, fun a h => ?_, fun a h => ?_⟩ <;> (try dsimp only) <;> (repeat' split) <;>
    first | exact h | simp (maxDischargeDepth := 12) [h, TakeKept]

@[simp] theorem carriagePosition_keeps (s) : Keeps s (carriagePosition s) := by
  unfold carriagePosition
  refine ⟨fun a h => ?_, fun a h => ?_, fun a h => ?_⟩ <;> (try dsimp only) <;> (repeat' split) <;>
    first | exact h | simp (maxDischargeDepth := 12) [h, TakeKept]

@[simp] theorem moveTimeout_keeps (s m) : Keeps s (moveTimeout s m) := by
  unfold moveTimeout
  refine ⟨fun a h => ?_, fun a h => ?_, fun a h => ?_⟩ <;> (try dsimp only) <;> (repeat' split) <;>
    first | exact h | simp (maxDischargeDepth := 12) [h, TakeKept]

@[simp] theorem flashTimeout_keeps (s) : Keeps s (flashTimeout s) := by
  unfold flashTimeout
  refine ⟨fun a h => ?_, fun a h => ?_, fun a h => ?_⟩ <;> (try dsimp only) <;> (repeat' split) <;>
    first | exact h | simp (maxDischargeDepth := 12) [h, TakeKept]

@[simp] theorem haltLine_keeps (s door) : Keeps s (haltLine s door) := by
  unfold haltLine
  refine ⟨fun a h => ?_, fun a h => ?_, fun a h => ?_⟩ <;> (try dsimp only) <;> (repeat' split) <;>
    first | exact h | simp (maxDischargeDepth := 12) [h, TakeKept]

theorem endHalted_keeps {s t} (e : endHalted s = some t) : Keeps s t := by
  unfold endHalted at e
  (repeat' split at e) <;> first
    | (injection e with e; subst e; refine ⟨fun a h => ?_, fun a h => ?_, fun a h => ?_⟩ <;> (try dsimp only) <;> (repeat' split) <;>
        first | exact h | simp (maxDischargeDepth := 12) [h, TakeKept])
    | simp at e

@[simp] theorem photoDoorOpen_keeps (s) : Keeps s (photoDoorOpen s) := by
  unfold photoDoorOpen
  refine ⟨fun a h => ?_, fun a h => ?_, fun a h => ?_⟩ <;> (try dsimp only) <;> (repeat' split) <;>
    first | exact h | simp (maxDischargeDepth := 12) [h, TakeKept]

@[simp] theorem cassetteDoorOpen_keeps (s) : Keeps s (cassetteDoorOpen s) := by
  unfold cassetteDoorOpen
  refine ⟨fun a h => ?_, fun a h => ?_, fun a h => ?_⟩ <;> (try dsimp only) <;> (repeat' split) <;>
    first | exact h | simp (maxDischargeDepth := 12) [h, TakeKept]

@[simp] theorem takeupDoorOpen_keeps (s) : Keeps s (takeupDoorOpen s) := by
  unfold takeupDoorOpen
  refine ⟨fun a h => ?_, fun a h => ?_, fun a h => ?_⟩ <;> (try dsimp only) <;> (repeat' split) <;>
    first | exact h | simp (maxDischargeDepth := 12) [h, TakeKept]

@[simp] theorem takeupDoorClose_keeps (s) : Keeps s (takeupDoorClose s) := by
  unfold takeupDoorClose
  refine ⟨fun a h => ?_, fun a h => ?_, fun a h => ?_⟩ <;> (try dsimp only) <;> (repeat' split) <;>
    first | exact h | simp (maxDischargeDepth := 12) [h, TakeKept]

@[simp] theorem cassetteDoorClose_keeps (s code) : Keeps s (cassetteDoorClose s code) := by
  unfold cassetteDoorClose
  refine ⟨fun a h => ?_, fun a h => ?_, fun a h => ?_⟩ <;> (try dsimp only) <;> (repeat' split) <;>
    first | exact h | simp (maxDischargeDepth := 12) [h, TakeKept]

@[simp] theorem advanceComplete_keeps (s) : Keeps s (advanceComplete s) := by
  unfold advanceComplete
  refine ⟨fun a h => ?_, fun a h => ?_, fun a h => ?_⟩ <;> (try dsimp only) <;> (repeat' split) <;>
    first | exact h | simp (maxDischargeDepth := 12) [h, TakeKept]

@[simp] theorem advanceRefused_keeps (s w) : Keeps s (advanceRefused s w) := by
  unfold advanceRefused
  refine ⟨fun a h => ?_, fun a h => ?_, fun a h => ?_⟩ <;> (try dsimp only) <;> (repeat' split) <;>
    first | exact h | simp (maxDischargeDepth := 12) [h, TakeKept]

theorem serveFilm_keeps {s t} (e : serveFilm s = some t) : Keeps s t := by
  unfold serveFilm at e
  dsimp only at e
  split at e
  · injection e with e; subst e
    exact (dropRequest_keeps _).trans (beginCut_keeps _ _)
  · next line leading _ _ _ =>
    split at e
    · injection e with e; subst e
      exact (dropRequest_keeps _).trans (advanceRefused_keeps _ _)
    · injection e with e; subst e
      refine (dropRequest_keeps s).trans
        (Keeps.trans (beginAdvance_keeps _ (s.activeKey.getD { origin := 15, number := 0 }) line leading) ?_)
      split
      · exact advanceComplete_keeps _
      · exact Keeps.rfl
  · simp at e

@[simp] theorem advanceDone_keeps (s) : Keeps s (advanceDone s) := by
  unfold advanceDone
  refine ⟨fun a h => ?_, fun a h => ?_, fun a h => ?_⟩ <;> (try dsimp only) <;> (repeat' split) <;>
    first | exact h | simp (maxDischargeDepth := 12) [h, TakeKept]

@[simp] theorem advanceTimeout_keeps (s) : Keeps s (advanceTimeout s) := by
  unfold advanceTimeout
  refine ⟨fun a h => ?_, fun a h => ?_, fun a h => ?_⟩ <;> (try dsimp only) <;> (repeat' split) <;>
    first | exact h | simp (maxDischargeDepth := 12) [h, TakeKept]

@[simp] theorem cutEvent_keeps (s) : Keeps s (cutEvent s) := by
  unfold cutEvent
  refine ⟨fun a h => ?_, fun a h => ?_, fun a h => ?_⟩ <;> (try dsimp only) <;> (repeat' split) <;>
    first | exact h | simp (maxDischargeDepth := 12) [h, TakeKept]

@[simp] theorem cutterTimeout_keeps (s) : Keeps s (cutterTimeout s) := by
  unfold cutterTimeout
  refine ⟨fun a h => ?_, fun a h => ?_, fun a h => ?_⟩ <;> (try dsimp only) <;> (repeat' split) <;>
    first | exact h | simp (maxDischargeDepth := 12) [h, TakeKept]

@[simp] theorem mountKey_keeps (s) : Keeps s (mountKey s) := by
  unfold mountKey
  refine ⟨fun a h => ?_, fun a h => ?_, fun a h => ?_⟩ <;> (try dsimp only) <;> (repeat' split) <;>
    first | exact h | simp (maxDischargeDepth := 12) [h, TakeKept]

@[simp] theorem returnCalled_keeps (s) : Keeps s (returnCalled s) := by
  unfold returnCalled
  split
  · refine Keeps.trans ?_ (wake_keeps _)
    refine ⟨fun a h => takesKept_map (fun x => ?_) h, fun _ => id, fun _ => id⟩
    split
    · exact Take.queued_kept x
    · exact .rfl
  · exact Keeps.rfl

@[simp] theorem clearFontCall_keeps (s) : Keeps s (clearFontCall s) := by
  unfold clearFontCall
  refine ⟨fun a h => ?_, fun a h => ?_, fun a h => ?_⟩ <;> (try dsimp only) <;> (repeat' split) <;>
    first | exact h | simp (maxDischargeDepth := 12) [h, TakeKept]

@[simp] theorem survey_keeps (s tabs) : Keeps s (survey s tabs) := by
  unfold survey
  refine ⟨fun a h => ?_, fun a h => ?_, fun a h => ?_⟩ <;> (try dsimp only) <;> (repeat' split) <;>
    first | exact h | simp (maxDischargeDepth := 12) [h, TakeKept]

@[simp] theorem photoDoorClose_keeps (s tabs) : Keeps s (photoDoorClose s tabs) := by
  unfold photoDoorClose
  refine ⟨fun a h => ?_, fun a h => ?_, fun a h => ?_⟩ <;> (try dsimp only) <;> (repeat' split) <;>
    first | exact h | simp (maxDischargeDepth := 12) [h, TakeKept]

theorem retestWindows_keeps {s t} (e : retestWindows s = some t) : Keeps s t := by
  unfold retestWindows at e
  (repeat' split at e) <;> first
    | (injection e with e; subst e; refine ⟨fun a h => ?_, fun a h => ?_, fun a h => ?_⟩ <;> (try dsimp only) <;> (repeat' split) <;>
        first | exact h | simp (maxDischargeDepth := 12) [h, TakeKept])
    | simp at e

@[simp] theorem handFrame_keeps (s f) : Keeps s (handFrame s f) := by
  unfold handFrame
  refine ⟨fun a h => ?_, fun a h => ?_, fun a h => ?_⟩ <;> (try dsimp only) <;> (repeat' split) <;>
    first | exact h | simp (maxDischargeDepth := 12) [h, TakeKept]

@[simp] theorem takenSent_keeps (s k) : Keeps s (takenSent s k) := by
  unfold takenSent
  split
  · split
    · refine Keeps.trans ?_ (toQueued_keeps _ _)
      exact State.modTake_keeps _ _ fun _ => TakeKept.rfl
    · exact Keeps.rfl
  · exact Keeps.rfl

theorem parkAnswer_keeps {s t} (e : parkAnswer s = some t) : Keeps s t := by
  unfold parkAnswer at e
  (repeat' split at e) <;> first
    | (injection e with e; subst e; refine ⟨fun a h => ?_, fun a h => ?_, fun a h => ?_⟩ <;> (try dsimp only) <;> (repeat' split) <;>
        first | exact h | simp (maxDischargeDepth := 12) [h, TakeKept])
    | simp at e

@[simp] theorem parkStop_keeps (s k) : Keeps s (parkStop s k) := by
  unfold parkStop
  refine ⟨fun a h => ?_, fun a h => ?_, fun a h => ?_⟩ <;> (try dsimp only) <;> (repeat' split) <;>
    first | exact h | simp (maxDischargeDepth := 12) [h, TakeKept]

@[simp] theorem afterPark_keeps (s k reason) : Keeps s (afterPark s k reason) := by
  unfold afterPark
  refine ⟨fun a h => ?_, fun a h => ?_, fun a h => ?_⟩ <;> (try dsimp only) <;> (repeat' split) <;>
    first | exact h | simp (maxDischargeDepth := 12) [h, TakeKept]

theorem parkFinish_keeps {s t} (e : parkFinish s = some t) : Keeps s t := by
  unfold parkFinish at e
  (repeat' split at e) <;> first
    | (injection e with e; subst e
       refine Keeps.trans ?_ ((parkStop_keeps _ _).trans (afterPark_keeps _ _ _))
       refine Keeps.trans ?_ (produce_keeps _ _ _)
       refine Keeps.trans (State.modTake_keeps _ _ fun x => ?_) ⟨fun _ => id, fun _ => id, fun _ => id⟩
       simp [TakeKept])
    | simp at e

theorem askEndCut_keeps {s t} (e : askEndCut s = some t) : Keeps s t := by
  unfold askEndCut at e
  (repeat' split at e) <;> first
    | (injection e with e; subst e; refine ⟨fun a h => ?_, fun a h => ?_, fun a h => ?_⟩ <;> (try dsimp only) <;> (repeat' split) <;>
        first | exact h | simp (maxDischargeDepth := 12) [h, TakeKept])
    | simp at e

@[simp] theorem settleApproval_keeps (s k p) : Keeps s (settleApproval s k p) := by
  unfold settleApproval
  split
  · refine Keeps.trans ?_ (toQueued_keeps _ _)
    exact State.modTake_keeps _ _ fun _ => TakeKept.rfl
  · refine Keeps.trans ?_ ((produce_keeps _ _ _).trans (toQueued_keeps _ _))
    exact State.modTake_keeps _ _ fun _ => TakeKept.rfl

theorem endProofPass_keeps {s t} (e : endProofPass s = some t) : Keeps s t := by
  unfold endProofPass at e
  split at e
  · next p x _ _ =>
    dsimp only at e
    have k : Keeps s { s.modTake x.key (fun y => { y with proofGen := some (endRecord s x), startValues := none }) with
        pass := none, comp := idleCompositor, proof := { s.proof with paperTimer := false } } :=
      (State.modTake_keeps s x.key (f := fun y => { y with proofGen := some (endRecord s x), startValues := none })
        fun _ => TakeKept.rfl).trans ⟨fun _ => id, fun _ => id, fun _ => id⟩
    split at e
    · split at e <;> (injection e with e; subst e)
      · refine k.trans (Keeps.trans ?_ (settleApproval_keeps _ _ _))
        exact State.modTake_keeps _ _ fun _ => TakeKept.rfl
      · exact k.trans (State.modTake_keeps _ _ fun y => by simp [TakeKept])
    · simp at e
  · simp at e

@[simp] theorem hearApprove_keeps (s k) : Keeps s (hearApprove s k) := by
  unfold hearApprove
  (repeat' split) <;> first
    | exact Keeps.rfl
    | exact settleApproval_keeps _ _ _
    | exact State.modTake_keeps _ _ fun _ => TakeKept.rfl

@[simp] theorem stopRelease_keeps (s k) : Keeps s (stopRelease s k) := by
  unfold stopRelease
  refine ⟨fun a h => ?_, fun a h => ?_, fun a h => ?_⟩ <;> (try dsimp only) <;> (repeat' split) <;>
    first | exact h | simp (maxDischargeDepth := 12) [h, TakeKept]

@[simp] theorem killActive_keeps (s t) : Keeps s (killActive s t) := by
  unfold killActive
  refine ⟨fun a h => ?_, fun a h => ?_, fun a h => ?_⟩ <;> (try dsimp only) <;> (repeat' split) <;>
    first | exact h | simp (maxDischargeDepth := 12) [h, TakeKept]

theorem killEmpties_keeps {s t} (e : killEmpties s = some t) : Keeps s t := by
  unfold killEmpties at e
  (repeat' split at e) <;> first
    | (injection e with e; subst e; refine ⟨fun a h => ?_, fun a h => ?_, fun a h => ?_⟩ <;> (try dsimp only) <;> (repeat' split) <;>
        first | exact h | simp (maxDischargeDepth := 12) [h, TakeKept])
    | simp at e

@[simp] theorem sendOffer_keeps (s k) : Keeps s (sendOffer s k) := by
  unfold sendOffer
  refine ⟨fun a h => ?_, fun a h => ?_, fun a h => ?_⟩ <;> (try dsimp only) <;> (repeat' split) <;>
    first | exact h | simp (maxDischargeDepth := 12) [h, TakeKept]

@[simp] theorem strand_keeps (s k) : Keeps s (strand s k) := by
  have m : Keeps s (s.modTake k (fun x =>
      { x with state := .stranded, timer := some .strandTurn, claimant := none, sending := none, offerDue := false })) :=
    State.modTake_keeps _ _ fun x => by simp [TakeKept]
  unfold strand
  (repeat' split) <;> first
    | exact Keeps.rfl
    | exact m
    | exact m.trans (produce_keeps _ _ _)

@[simp] theorem hearClaim_keeps (s a k) : Keeps s (hearClaim s a k) := by
  unfold hearClaim
  dsimp only
  split
  · split
    · refine (cancelWindows_keeps _ _).trans ((endWatch_keeps _ _).trans (State.modTake_keeps _ _ fun _ => ?_))
      exact TakeKept.rfl
    · exact cancelWindows_keeps _ _
  · exact cancelWindows_keeps _ _

theorem Take.unstranded_kept (x : Take) (b) : TakeKept x (x.unstranded b) := by simp [TakeKept, Take.unstranded, Take.queued]
@[simp] theorem decideStranded_keeps (s t) : Keeps s (decideStranded s t) := by
  unfold decideStranded
  split
  · exact State.modTake_keeps _ _ fun x => Take.unstranded_kept x _
  · exact State.modTake_keeps _ _ fun _ => TakeKept.rfl

theorem reaskReport_keeps {s t} (e : reaskReport s = some t) : Keeps s t := by
  unfold reaskReport at e
  obtain ⟨x, -, rfl⟩ := Option.map_eq_some_iff.1 e
  refine Keeps.trans ?_ (decideStranded_keeps _ _)
  exact State.modTake_keeps _ _ fun _ => TakeKept.rfl

@[simp] theorem agingExpires_keeps (s k) : Keeps s (agingExpires s k) := by
  refine State.modTake_keeps _ _ fun x => ?_
  split
  · simp [TakeKept]
  · exact .rfl

@[simp] theorem startHoming_keeps (s) : Keeps s (startHoming s) := by
  unfold startHoming
  refine ⟨fun a h => ?_, fun a h => ?_, fun a h => ?_⟩ <;> (try dsimp only) <;> (repeat' split) <;>
    first | exact h | simp (maxDischargeDepth := 12) [h, TakeKept]

@[simp] theorem setStage_keeps (s g) : Keeps s (setStage s g) := by
  unfold setStage
  refine ⟨fun a h => ?_, fun a h => ?_, fun a h => ?_⟩ <;> (try dsimp only) <;> (repeat' split) <;>
    first | exact h | simp (maxDischargeDepth := 12) [h, TakeKept]

@[simp] theorem dueFilmNotice_keeps (s) : Keeps s (dueFilmNotice s) := by
  unfold dueFilmNotice
  refine ⟨fun a h => ?_, fun a h => ?_, fun a h => ?_⟩ <;> (try dsimp only) <;> (repeat' split) <;>
    first | exact h | simp (maxDischargeDepth := 12) [h, TakeKept]

@[simp] theorem announceGone_keeps (s) : Keeps s (announceGone s) := by
  unfold announceGone
  refine ⟨fun a h => ?_, fun a h => ?_, fun a h => ?_⟩ <;> (try dsimp only) <;> (repeat' split) <;>
    first | exact h | simp (maxDischargeDepth := 12) [h, TakeKept]

@[simp] theorem announce_keeps (s) : Keeps s (announce s) := by
  unfold announce
  refine ⟨fun a h => ?_, fun a h => ?_, fun a h => ?_⟩ <;> (try dsimp only) <;> (repeat' split) <;>
    first | exact h | simp (maxDischargeDepth := 12) [h, TakeKept]

@[simp] theorem homingFault_keeps (s m) : Keeps s (homingFault s m) := by
  unfold homingFault
  refine ⟨fun a h => ?_, fun a h => ?_, fun a h => ?_⟩ <;> (try dsimp only) <;> (repeat' split) <;>
    first | exact h | simp (maxDischargeDepth := 12) [h, TakeKept]

@[simp] theorem withdrawFaultMarks_keeps (s) : Keeps s (withdrawFaultMarks s) := by
  refine ⟨fun a h => takesKept_map (fun x => ?_) h, fun _ => id, fun _ => id⟩
  split <;> exact .rfl

@[simp] theorem clearDone_keeps (s) : Keeps s (clearDone s) := by
  unfold clearDone
  refine ⟨fun a h => ?_, fun a h => ?_, fun a h => ?_⟩ <;> (try dsimp only) <;> (repeat' split) <;>
    first | exact h | simp (maxDischargeDepth := 12) [h, TakeKept]

@[simp] theorem readCassette_keeps (s code) : Keeps s (readCassette s code) := by
  unfold readCassette
  refine ⟨fun a h => ?_, fun a h => ?_, fun a h => ?_⟩ <;> (try dsimp only) <;> (repeat' split) <;>
    first | exact h | simp (maxDischargeDepth := 12) [h, TakeKept]

@[simp] theorem afterHoming_keeps (s tabs cassette) : Keeps s (afterHoming s tabs cassette) := by
  unfold afterHoming
  refine ⟨fun a h => ?_, fun a h => ?_, fun a h => ?_⟩ <;> (try dsimp only) <;> (repeat' split) <;>
    first | exact h | simp (maxDischargeDepth := 12) [h, TakeKept]

theorem startCutDone_keeps {s t} (e : startCutDone s = some t) : Keeps s t := by
  unfold startCutDone at e
  (repeat' split at e) <;> first
    | (injection e with e; subst e; refine ⟨fun a h => ?_, fun a h => ?_, fun a h => ?_⟩ <;> (try dsimp only) <;> (repeat' split) <;>
        first | exact h | simp (maxDischargeDepth := 12) [h, TakeKept])
    | simp at e

@[simp] theorem seatIndexEvent_keeps (s seat) : Keeps s (seatIndexEvent s seat) := by
  unfold seatIndexEvent
  refine ⟨fun a h => ?_, fun a h => ?_, fun a h => ?_⟩ <;> (try dsimp only) <;> (repeat' split) <;>
    first | exact h | simp (maxDischargeDepth := 12) [h, TakeKept]

@[simp] theorem lensEvent_keeps (s lens) : Keeps s (lensEvent s lens) := by
  unfold lensEvent
  refine ⟨fun a h => ?_, fun a h => ?_, fun a h => ?_⟩ <;> (try dsimp only) <;> (repeat' split) <;>
    first | exact h | simp (maxDischargeDepth := 12) [h, TakeKept]

@[simp] theorem positionEvent_keeps (s tabs cassette) : Keeps s (positionEvent s tabs cassette) := by
  unfold positionEvent
  refine ⟨fun a h => ?_, fun a h => ?_, fun a h => ?_⟩ <;> (try dsimp only) <;> (repeat' split) <;>
    first | exact h | simp (maxDischargeDepth := 12) [h, TakeKept]

@[simp] theorem homingTimeout_keeps (s) : Keeps s (homingTimeout s) := by
  unfold homingTimeout
  refine ⟨fun a h => ?_, fun a h => ?_, fun a h => ?_⟩ <;> (try dsimp only) <;> (repeat' split) <;>
    first | exact h | simp (maxDischargeDepth := 12) [h, TakeKept]

@[simp] theorem takePaper_keeps (s) : Keeps s (takePaper s) := by
  unfold takePaper
  refine ⟨fun a h => ?_, fun a h => ?_, fun a h => ?_⟩ <;> (try dsimp only) <;> (repeat' split) <;>
    first | exact h | simp (maxDischargeDepth := 12) [h, TakeKept]

@[simp] theorem enterHold_keeps (s) : Keeps s (enterHold s) := by
  unfold enterHold
  refine ⟨fun a h => ?_, fun a h => ?_, fun a h => ?_⟩ <;> (try dsimp only) <;> (repeat' split) <;>
    first | exact h | simp (maxDischargeDepth := 12) [h, TakeKept]

@[simp] theorem holdKey_keeps (s) : Keeps s (holdKey s) := by
  unfold holdKey
  refine ⟨fun a h => ?_, fun a h => ?_, fun a h => ?_⟩ <;> (try dsimp only) <;> (repeat' split) <;>
    first | exact h | simp (maxDischargeDepth := 12) [h, TakeKept]

@[simp] theorem runKey_keeps (s) : Keeps s (runKey s) := by
  unfold runKey
  refine ⟨fun a h => ?_, fun a h => ?_, fun a h => ?_⟩ <;> (try dsimp only) <;> (repeat' split) <;>
    first | exact h | simp (maxDischargeDepth := 12) [h, TakeKept]

@[simp] theorem clearKey_keeps (s) : Keeps s (clearKey s) := by
  unfold clearKey
  refine ⟨fun a h => ?_, fun a h => ?_, fun a h => ?_⟩ <;> (try dsimp only) <;> (repeat' split) <;>
    first | exact h | simp (maxDischargeDepth := 12) [h, TakeKept]

@[simp] theorem cutKey_keeps (s) : Keeps s (cutKey s) := by
  unfold cutKey
  refine ⟨fun a h => ?_, fun a h => ?_, fun a h => ?_⟩ <;> (try dsimp only) <;> (repeat' split) <;>
    first | exact h | simp (maxDischargeDepth := 12) [h, TakeKept]

@[simp] theorem stopTimerOff_keeps (s) : Keeps s (stopTimerOff s) := by
  unfold stopTimerOff
  refine ⟨fun a h => ?_, fun a h => ?_, fun a h => ?_⟩ <;> (try dsimp only) <;> (repeat' split) <;>
    first | exact h | simp (maxDischargeDepth := 12) [h, TakeKept]

@[simp] theorem fontCallExpires_keeps (s) : Keeps s (fontCallExpires s) := by
  unfold fontCallExpires
  refine ⟨fun a h => ?_, fun a h => ?_, fun a h => ?_⟩ <;> (try dsimp only) <;> (repeat' split) <;>
    first | exact h | simp (maxDischargeDepth := 12) [h, TakeKept]

@[simp] theorem filmOutExpires_keeps (s) : Keeps s (filmOutExpires s) := by
  unfold filmOutExpires
  refine ⟨fun a h => ?_, fun a h => ?_, fun a h => ?_⟩ <;> (try dsimp only) <;> (repeat' split) <;>
    first | exact h | simp (maxDischargeDepth := 12) [h, TakeKept]

@[simp] theorem standbyExpires_keeps (s) : Keeps s (standbyExpires s) := by
  unfold standbyExpires
  refine ⟨fun a h => ?_, fun a h => ?_, fun a h => ?_⟩ <;> (try dsimp only) <;> (repeat' split) <;>
    first | exact h | simp (maxDischargeDepth := 12) [h, TakeKept]

@[simp] theorem markSent_keeps (s k dest) : Keeps s (markSent s k dest) := by
  refine State.modTake_keeps _ _ fun x => ?_
  split <;> exact .rfl

@[simp] theorem startTakenWait_keeps (s k dest) : Keeps s (startTakenWait s k dest) := by
  refine State.modTake_keeps _ _ fun x => ?_
  split <;> exact .rfl

@[simp] theorem offerEnds_keeps (s k) : Keeps s (offerEnds s k) := by
  unfold offerEnds
  refine ⟨fun a h => ?_, fun a h => ?_, fun a h => ?_⟩ <;> (try dsimp only) <;> (repeat' split) <;>
    first | exact h | simp (maxDischargeDepth := 12) [h, TakeKept]

@[simp] theorem brokenHeard_keeps (s) : Keeps s (brokenHeard s) := by
  unfold brokenHeard
  refine ⟨fun a h => ?_, fun a h => ?_, fun a h => ?_⟩ <;> (try dsimp only) <;> (repeat' split) <;>
    first | exact h | simp (maxDischargeDepth := 12) [h, TakeKept]

@[simp] theorem badHeard_keeps (s) : Keeps s (badHeard s) := by
  unfold badHeard
  refine ⟨fun a h => ?_, fun a h => ?_, fun a h => ?_⟩ <;> (try dsimp only) <;> (repeat' split) <;>
    first | exact h | simp (maxDischargeDepth := 12) [h, TakeKept]

@[simp] theorem startPoint_keeps (s) : Keeps s (startPoint s) := by
  unfold startPoint
  refine ⟨fun a h => ?_, fun a h => ?_, fun a h => ?_⟩ <;> (try dsimp only) <;> (repeat' split) <;>
    first | exact h | simp (maxDischargeDepth := 12) [h, TakeKept]

@[simp] theorem arbitrationLost_keeps (s) : Keeps s (arbitrationLost s) := by
  unfold arbitrationLost
  refine ⟨fun a h => ?_, fun a h => ?_, fun a h => ?_⟩ <;> (try dsimp only) <;> (repeat' split) <;>
    first | exact h | simp (maxDischargeDepth := 12) [h, TakeKept]

@[simp] theorem idleGap_keeps (s) : Keeps s (idleGap s) := by
  unfold idleGap
  refine ⟨fun a h => ?_, fun a h => ?_, fun a h => ?_⟩ <;> (try dsimp only) <;> (repeat' split) <;>
    first | exact h | simp (maxDischargeDepth := 12) [h, TakeKept]

@[simp] theorem idleSlot_keeps (s) : Keeps s (idleSlot s) := by
  unfold idleSlot
  split
  · refine ⟨fun _ => id, fun _ h => h.map fun w => ?_, fun _ => id⟩
    split
    · exact ⟨rfl, Nat.le_refl _⟩
    · exact ⟨rfl, Nat.sub_le _ _⟩
  · exact Keeps.rfl

@[simp] theorem correctLamp_keeps (s n) : Keeps s (correctLamp s n) := by
  unfold correctLamp
  refine ⟨fun a h => ?_, fun a h => ?_, fun a h => ?_⟩ <;> (try dsimp only) <;> (repeat' split) <;>
    first | exact h | simp (maxDischargeDepth := 12) [h, TakeKept]

@[simp] theorem changeLamp_keeps (s) : Keeps s (changeLamp s) := by
  unfold changeLamp
  refine ⟨fun a h => ?_, fun a h => ?_, fun a h => ?_⟩ <;> (try dsimp only) <;> (repeat' split) <;>
    first | exact h | simp (maxDischargeDepth := 12) [h, TakeKept]

@[simp] theorem flashDone_keeps (s n) : Keeps s (flashDone s n) := by
  unfold flashDone
  refine ⟨fun a h => ?_, fun a h => ?_, fun a h => ?_⟩ <;> (try dsimp only) <;> (repeat' split) <;>
    first | exact h | simp (maxDischargeDepth := 12) [h, TakeKept]

@[simp] theorem addException_keeps (s w p) : Keeps s (addException s w p) := by
  unfold addException
  refine ⟨fun a h => ?_, fun a h => ?_, fun a h => ?_⟩ <;> (try dsimp only) <;> (repeat' split) <;>
    first | exact h | simp (maxDischargeDepth := 12) [h, TakeKept]

@[simp] theorem deleteException_keeps (s w) : Keeps s (deleteException s w) := by
  unfold deleteException
  refine ⟨fun a h => ?_, fun a h => ?_, fun a h => ?_⟩ <;> (try dsimp only) <;> (repeat' split) <;>
    first | exact h | simp (maxDischargeDepth := 12) [h, TakeKept]

@[simp] theorem hearAdd_keeps (s b) : Keeps s (hearAdd s b) := by
  unfold hearAdd
  refine ⟨fun a h => ?_, fun a h => ?_, fun a h => ?_⟩ <;> (try dsimp only) <;> (repeat' split) <;>
    first | exact h | simp (maxDischargeDepth := 12) [h, TakeKept]

@[simp] theorem hearDelete_keeps (s b) : Keeps s (hearDelete s b) := by
  unfold hearDelete
  refine ⟨fun a h => ?_, fun a h => ?_, fun a h => ?_⟩ <;> (try dsimp only) <;> (repeat' split) <;>
    first | exact h | simp (maxDischargeDepth := 12) [h, TakeKept]

@[simp] theorem romRead_keeps (s r) : Keeps s (romRead s r) := by
  unfold romRead
  refine ⟨fun a h => ?_, fun a h => ?_, fun a h => ?_⟩ <;> (try dsimp only) <;> (repeat' split) <;>
    first | exact h | simp (maxDischargeDepth := 12) [h, TakeKept]

/-- What is done with a byte that is due, or with the arguments of a copy command past which reading has gone (R5). -/
theorem readByte_keeps {s p act} (h : ∀ r b, Keeps s (act r b)) : Keeps s (readByte s p act) := by
  unfold readByte
  (repeat' split) <;> first | exact h _ _ | exact Keeps.rfl
theorem copyCommand_keeps {s code n act} (h : ∀ r a u, Keeps s u → Keeps s (act r a u)) : Keeps s (copyCommand s code n act) := by
  unfold copyCommand
  apply readByte_keeps
  intro r b
  split
  · exact h _ _ _ (readPast_keeps _ _)
  · exact (addCopyErrors_keeps _ _).trans (readPast_keeps _ _)

end Sys2Proof.Machine
end

