-- ==== Sys2Proof/Laws/Held.lean ====
section
/-! SUPPORT. The take records, the window table and the Width Cache stay sound together (`heldOk` of Safety.lean) under the
operations that make, free, offer, select or fill a take, open a window or change a slot, under every reaction and under settling. -/

namespace Sys2Proof.Machine

/-! ### What the records are read for -/

theorem mem_foldl_append {α β : Type} (f : α → List β) (l : List α) : ∀ (a : List β) (b : β),
    b ∈ l.foldl (fun a x => a ++ f x) a ↔ b ∈ a ∨ ∃ x ∈ l, b ∈ f x := by
  induction l with
  | nil => simp
  | cons x l ih => intro a b; rw [List.foldl_cons, ih]; simp [or_assoc]

theorem mem_usedBlocks {s : State} {b : Nat} : b ∈ s.usedBlocks ↔ ∃ x ∈ s.takes, b ∈ x.blocks ++ x.reserved := by
  unfold State.usedBlocks
  have := mem_foldl_append (fun t : Take => t.blocks ++ t.reserved) s.takes [] b
  simpa [List.append_assoc] using this

theorem mem_heldFonts {s : State} {f : Nat} : f ∈ s.heldFonts ↔ ∃ x ∈ s.takes, f ∈ x.fonts := by
  unfold State.heldFonts
  rw [mem_distinct, mem_foldl_append]
  simp

theorem heldFonts_nodup (s : State) : s.heldFonts.Nodup := distinct_nodup _

theorem mem_freeBlocks {s : State} {b : Nat} : b ∈ s.freeBlocks ↔ b < 128 ∧ ¬ ∃ x ∈ s.takes, b ∈ x.blocks ++ x.reserved := by
  unfold State.freeBlocks
  rw [List.mem_filter, List.mem_range, ← mem_usedBlocks]
  simp [Config.copyBlocks]
theorem freeBlocks_nodup (s : State) : s.freeBlocks.Nodup := List.Pairwise.filter _ List.nodup_range

theorem namedBy_pos {takes : List Take} {f : Nat} : 1 ≤ namedBy takes f ↔ ∃ x ∈ takes, f ∈ x.fonts := by
  unfold namedBy
  rw [Nat.succ_le_iff, List.length_pos_iff_exists_mem]
  simp [List.mem_filter]

/-- What a window's offer was tested against holds on, where no key, block or font is held that was not. -/
theorem windowOk_mono {s t : State} {v w : Window} (what : w.what = v.what) (slots : w.slots ≤ v.slots)
    (keys : ∀ y ∈ t.takes, ∃ x ∈ s.takes, y.key = x.key) (len : t.takes.length ≤ s.takes.length)
    (blocks : ∀ y ∈ t.takes, ∃ x ∈ s.takes, ∀ b ∈ y.blocks ++ y.reserved, b ∈ x.blocks ++ x.reserved)
    (fonts : ∀ y ∈ t.takes, ∃ x ∈ s.takes, ∀ f ∈ y.fonts, f ∈ x.fonts) (h : windowOk s v) : windowOk t w := by
  refine ⟨Nat.le_trans slots h.1, fun a m c e => ?_⟩
  obtain ⟨ok, key, n, free, f⟩ := h.2 a m c (what ▸ e)
  refine ⟨ok, fun y hy => ?_, by omega, ?_, ?_⟩
  · obtain ⟨x, hx, k⟩ := keys y hy
    exact k ▸ key x hx
  · refine Nat.le_trans free (nodup_length_le (freeBlocks_nodup s) fun b hb => ?_)
    rw [mem_freeBlocks] at hb ⊢
    refine ⟨hb.1, fun ⟨y, hy, k⟩ => hb.2 ?_⟩
    obtain ⟨x, hx, i⟩ := blocks y hy
    exact ⟨x, hx, i b k⟩
  · refine Nat.le_trans (distinct_length_le fun g hg => ?_) f
    rw [List.mem_append, mem_heldFonts] at hg ⊢
    refine hg.imp_left fun ⟨y, hy, k⟩ => ?_
    obtain ⟨x, hx, i⟩ := fonts y hy
    exact ⟨x, hx, i g k⟩

/-! ### One record changes -/

/-- The record `y` is `x` with nothing of its key, fonts, film and copy changed, and of no higher class. -/
def TakeSame (x y : Take) : Prop :=
  y.key = x.key ∧ y.fonts = x.fonts ∧ y.copyLen = x.copyLen ∧ y.film = x.film ∧ y.received = x.received ∧ y.blocks = x.blocks ∧
  y.reserved = x.reserved ∧ y.cls ≤ x.cls

theorem TakeKept.same {x y : Take} (h : TakeKept x y) : TakeSame x y :=
  ⟨h.1, h.2.1, h.2.2.1, h.2.2.2.1, h.2.2.2.2.1, h.2.2.2.2.2.1, h.2.2.2.2.2.2.1, h.2.2.2.2.2.2.2.1⟩
theorem TakeSame.rfl {x : Take} : TakeSame x x := TakeKept.rfl.same

theorem TakeSame.ok {x y : Take} (h : TakeSame x y) (k : takeOk x) : takeOk y := by
  obtain ⟨a, b, c, d, e, f, g, i⟩ := h
  obtain ⟨k1, k2, k3, k4, k5, k6, k7, k8, k9, k10, k11, k12⟩ := k
  unfold takeOk
  rw [a, b, c, d, e, f, g]
  exact ⟨k1, k2, Nat.le_trans i k3, k4, k5, k6, k7, k8, k9, k10, k11, k12⟩

/-- Two records may be held together (R179, R186, R193). -/
abbrev Apart (x y : Take) : Prop :=
  x.key ≠ y.key ∧ ¬ (x.state = .active ∧ y.state = .active) ∧ ¬ (x.state = .releasing ∧ y.state = .releasing)

theorem Apart.symm {x y : Take} (h : Apart x y) : Apart y x :=
  ⟨h.1.symm, fun k => h.2.1 k.symm, fun k => h.2.2 k.symm⟩

/-- Records changed where they stand, none of them in its key, fonts, film or copy. -/
theorem takesOk_map {l : List Take} {g : Take → Take} (h : takesOk l) (same : ∀ x ∈ l, TakeSame x (g x))
    (apart : ∀ x ∈ l, ∀ y ∈ l, Apart x y → Apart (g x) (g y)) : takesOk (l.map g) := by
  obtain ⟨len, two, ok, dup, lt⟩ := h
  have e : (l.map g).flatMap (fun x => x.blocks ++ x.reserved) = l.flatMap (fun x => x.blocks ++ x.reserved) := by
    rw [List.flatMap_map, List.flatMap_def, List.flatMap_def]
    refine congrArg _ (List.map_congr_left fun x hx => ?_)
    obtain ⟨-, -, -, -, -, b, r, -⟩ := same x hx
    simp only [b, r]
  refine ⟨by simpa using len, ?_, ?_, e ▸ dup, e ▸ lt⟩
  · rw [List.pairwise_map]
    exact two.imp_of_mem fun {x y} hx hy k => apart x hx y hy k
  · intro y hy
    obtain ⟨x, hx, rfl⟩ := List.mem_map.1 hy
    exact (same x hx).ok (ok x hx)

theorem namedBy_map {l : List Take} {g : Take → Take} (h : ∀ x ∈ l, (g x).fonts = x.fonts) : namedBy (l.map g) = namedBy l := by
  funext f
  unfold namedBy
  rw [List.filter_map, List.length_map]
  congr 1
  exact List.filter_congr fun x hx => by simp [h x hx]

/-- Records changed where they stand, windows that only leave or count down, and a cache that stays sound. -/
theorem heldOk_map {s t : State} {g : Take → Take} (h : heldOk s) (e : t.takes = s.takes.map g)
    (same : ∀ x ∈ s.takes, TakeSame x (g x)) (apart : ∀ x ∈ s.takes, ∀ y ∈ s.takes, Apart x y → Apart (g x) (g y))
    (w : WindowsKept s.line.windows t.line.windows) (gen : t.width.gen ≤ 65535)
    (slots : slotsOk (namedBy s.takes) s.width → slotsOk (namedBy s.takes) t.width) : heldOk t := by
  obtain ⟨takes, windows, width⟩ := h
  have back : ∀ y ∈ t.takes, ∃ x ∈ s.takes, TakeSame x y := by
    rw [e]; intro y hy
    obtain ⟨x, hx, rfl⟩ := List.mem_map.1 hy
    exact ⟨x, hx, same x hx⟩
  refine ⟨e ▸ takesOk_map takes same apart, ⟨?_, ?_⟩, ?_, ?_, gen⟩
  · obtain ⟨p, f, ew, k⟩ := w
    rw [ew]; intro v hv
    obtain ⟨u, hu, rfl⟩ := List.mem_map.1 hv
    refine windowOk_mono (k u).1 (k u).2 (fun y hy => ?_) (by simp [e]) (fun y hy => ?_) (fun y hy => ?_)
      (windows.1 u (List.mem_filter.1 hu).1) <;> obtain ⟨x, hx, a⟩ := back y hy <;> refine ⟨x, hx, ?_⟩
    · exact a.1
    · intro b hb; rwa [a.2.2.2.2.2.1, a.2.2.2.2.2.2.1] at hb
    · intro b hb; rwa [a.2.1] at hb
  · obtain ⟨p, f, ew, k⟩ := w
    rw [ew, List.pairwise_map]
    exact (windows.2.filter p).imp fun {x y} c => by rw [(k x).1, (k y).1]; exact c
  · rw [e, namedBy_map fun x hx => (same x hx).2.1]
    exact slots width.1
  · refine Nat.le_trans (nodup_length_le (heldFonts_nodup t) fun f hf => ?_) width.2.1
    rw [mem_heldFonts] at hf ⊢
    obtain ⟨y, hy, k⟩ := hf
    obtain ⟨x, hx, a⟩ := back y hy
    exact ⟨x, hx, a.2.1 ▸ k⟩

/-- What `Keeps` says keeps them sound. -/
theorem Keeps.held {s t : State} (k : Keeps s t) (h : heldOk s) : heldOk t := by
  obtain ⟨g, e, a⟩ := k.1 _ TakesKept.rfl
  have w := k.2.2 _ WidthKept.rfl
  refine heldOk_map h e (fun x hx => (a x hx).same) (fun x hx y hy c => ?_) (k.2.1 _ WindowsKept.rfl) ?_ (w.2 _)
  · obtain ⟨ka, -, -, -, -, -, -, -, act, rel⟩ := a x hx
    obtain ⟨kb, -, -, -, -, -, -, -, act', rel'⟩ := a y hy
    exact ⟨by rw [ka, kb]; exact c.1, fun z => c.2.1 ⟨act z.1, act' z.2⟩, fun z => c.2.2 ⟨rel z.1, rel' z.2⟩⟩
  · rw [w.1]; exact h.2.2.2.2

/-- Nothing they speak of changes. -/
theorem heldOk_of {s t : State} (a : t.takes = s.takes) (b : t.line.windows = s.line.windows) (c : t.width = s.width) (h : heldOk s) :
    heldOk t := (keeps_of a b c).held h

/-- The record with a key is the one found. -/
theorem take_some {s : State} {k : Key} {t : Take} (e : s.take? k = some t) : t ∈ s.takes ∧ t.key = k :=
  ⟨List.mem_of_find?_eq_some e, by simpa using List.find?_some e⟩
theorem take_none {s : State} {k : Key} (e : s.take? k = none) : ∀ x ∈ s.takes, x.key ≠ k := by
  simpa [State.take?, List.find?_eq_none] using e
theorem active_some {s : State} {t : Take} (e : s.active? = some t) : t ∈ s.takes ∧ t.state = .active :=
  ⟨List.mem_of_find?_eq_some e, by simpa using List.find?_some e⟩
theorem releasing_some {s : State} {t : Take} (e : s.releasing? = some t) : t ∈ s.takes ∧ t.state = .releasing :=
  ⟨List.mem_of_find?_eq_some e, by simpa using List.find?_some e⟩

theorem apart_of {l : List Take} (h : takesOk l) {x y : Take} (hx : x ∈ l) (hy : y ∈ l) (n : x ≠ y) : Apart x y := by
  have := h.2.1
  rw [List.pairwise_iff_getElem] at this
  obtain ⟨i, hi, rfl⟩ := List.getElem_of_mem hx
  obtain ⟨j, hj, rfl⟩ := List.getElem_of_mem hy
  rcases Nat.lt_trichotomy i j with c | c | c
  · exact this i j hi hj c
  · subst c; exact absurd rfl n
  · exact Apart.symm (this j i hj hi c)

/-- No two records have one key (R179). -/
theorem key_unique {l : List Take} (h : takesOk l) {x y : Take} (hx : x ∈ l) (hy : y ∈ l) (k : x.key = y.key) : x = y :=
  Classical.byContradiction fun n => (apart_of h hx hy n).1 k

/-- One record changed. -/
theorem modTake_held {s : State} {k : Key} {f : Take → Take} (h : heldOk s) (same : ∀ x ∈ s.takes, x.key = k → TakeSame x (f x))
    (act : ∀ x ∈ s.takes, x.key = k → (f x).state = .active → x.state = .active ∨ ∀ y ∈ s.takes, y.state ≠ .active)
    (rel : ∀ x ∈ s.takes, x.key = k → (f x).state = .releasing → x.state = .releasing ∨ ∀ y ∈ s.takes, y.state ≠ .releasing) :
    heldOk (s.modTake k f) := by
  refine heldOk_map (g := fun t => if t.key == k then f t else t) h rfl ?_ ?_ .rfl h.2.2.2.2 id
  · intro x hx; split
    · next c => exact same x hx (by simpa using c)
    · exact .rfl
  · intro x hx y hy c
    by_cases a : x.key = k <;> by_cases b : y.key = k <;> simp only [a, b, beq_self_eq_true, beq_iff_eq, ↓reduceIte]
    · exact absurd (a.trans b.symm) c.1
    · refine ⟨by rw [(same x hx a).1]; exact c.1, fun z => ?_, fun z => ?_⟩
      · exact (act x hx a z.1).elim (fun i => c.2.1 ⟨i, z.2⟩) (fun i => i y hy z.2)
      · exact (rel x hx a z.1).elim (fun i => c.2.2 ⟨i, z.2⟩) (fun i => i y hy z.2)
    · refine ⟨by rw [(same y hy b).1]; exact c.1, fun z => ?_, fun z => ?_⟩
      · exact (act y hy b z.2).elim (fun i => c.2.1 ⟨z.1, i⟩) (fun i => i x hx z.1)
      · exact (rel y hy b z.2).elim (fun i => c.2.2 ⟨z.1, i⟩) (fun i => i x hx z.1)
    · exact c

/-! ### Frees -/

/-- What leaves the records, the windows and the pins of other fonts alone. -/
theorem unpinFont_same (s f) : (unpinFont s f).takes = s.takes ∧ (unpinFont s f).line.windows = s.line.windows ∧
    (unpinFont s f).width.gen = s.width.gen := by
  unfold unpinFont
  dsimp only
  (repeat' split) <;> exact ⟨rfl, rfl, rfl⟩
theorem unpinFonts_same (s fs) : (unpinFonts s fs).takes = s.takes ∧ (unpinFonts s fs).line.windows = s.line.windows ∧
    (unpinFonts s fs).width.gen = s.width.gen := by
  unfold unpinFonts
  generalize distinct fs = l
  induction l generalizing s with
  | nil => exact ⟨rfl, rfl, rfl⟩
  | cons a l ih =>
    obtain ⟨a1, b1, c1⟩ := unpinFont_same s a
    obtain ⟨a2, b2, c2⟩ := ih (unpinFont s a)
    exact ⟨a2.trans a1, b2.trans b1, c2.trans c1⟩

theorem filter_one {l : List Take} {t : Take} (d : l.Pairwise (fun x y => x.key ≠ y.key)) (m : t ∈ l) :
    ∃ a b, l = a ++ t :: b ∧ l.filter (fun x => x.key ≠ t.key) = a ++ b := by
  obtain ⟨a, b, rfl⟩ := List.append_of_mem m
  refine ⟨a, b, rfl, ?_⟩
  rw [List.pairwise_append, List.pairwise_cons] at d
  rw [List.filter_append, List.filter_cons_of_neg (by simp)]
  congr 1
  · exact List.filter_eq_self.2 fun x hx => by simpa using d.2.2 x hx t (List.mem_cons_self ..)
  · exact List.filter_eq_self.2 fun x hx => by simpa using (d.2.1.1 x hx).symm

/-- A record is freed (R21, R179, R180). -/
theorem freeTake_held {s : State} (k : Key) (h : heldOk s) : heldOk (freeTake s k) := by
  unfold freeTake
  split
  · next t e =>
    obtain ⟨hm, rfl⟩ := take_some e
    obtain ⟨takes, windows, width⟩ := h
    obtain ⟨a, b, el, ef⟩ := filter_one (takes.2.1.imp fun c => c.1) hm
    obtain ⟨e1, e2, e3⟩ := unpinFonts_same { s with takes := s.takes.filter (fun x => x.key ≠ t.key) } t.fonts
    have sub : ∀ y ∈ s.takes.filter (fun x => x.key ≠ t.key), y ∈ s.takes := fun y hy => (List.mem_filter.1 hy).1
    have pins : ∀ f, namedBy (s.takes.filter (fun x => x.key ≠ t.key)) f = namedBy s.takes f - if f ∈ t.fonts then 1 else 0 := by
      intro f
      rw [ef, el]
      unfold namedBy
      rw [List.filter_append, List.filter_append, List.filter_cons]
      by_cases c : f ∈ t.fonts <;> simp [c] <;> omega
    refine ⟨?_, ⟨?_, ?_⟩, ?_, ?_, ?_⟩
    · rw [e1]
      obtain ⟨len, two, ok, dup, lt⟩ := takes
      refine ⟨Nat.le_trans (List.length_filter_le _ _) len, two.filter _, fun x hx => ok x (sub x hx), ?_, ?_⟩
      · rw [ef, List.flatMap_append]
        rw [el, List.flatMap_append, List.flatMap_cons] at dup
        exact dup.sublist ((List.Sublist.refl _).append (List.sublist_append_right _ _))
      · intro b hb
        obtain ⟨x, hx, i⟩ := List.mem_flatMap.1 hb
        exact lt b (List.mem_flatMap.2 ⟨x, sub x hx, i⟩)
    · intro w hw
      rw [e2] at hw
      refine windowOk_mono (.refl _) (Nat.le_refl _) ?_ ?_ ?_ ?_ (windows.1 w hw) <;> rw [e1]
      · exact fun y hy => ⟨y, sub y hy, rfl⟩
      · exact List.length_filter_le _ _
      · exact fun y hy => ⟨y, sub y hy, fun _ i => i⟩
      · exact fun y hy => ⟨y, sub y hy, fun _ i => i⟩
    · rw [e2]; exact windows.2
    · rw [e1]
      refine slotsOk_congr pins (unpinFonts_slotsOk (s := { s with takes := _ }) width.1 fun f hf => ?_)
      exact namedBy_pos.2 ⟨t, hm, hf⟩
    · refine Nat.le_trans (nodup_length_le (heldFonts_nodup _) fun f hf => ?_) width.2.1
      rw [mem_heldFonts, e1] at hf
      obtain ⟨y, hy, i⟩ := hf
      exact mem_heldFonts.2 ⟨y, sub y hy, i⟩
    · rw [e3]; exact width.2.2
  · exact h

/-! ### The Width Cache's own operations -/

/-- Records and windows kept, and a cache that stays sound under the same pins. -/
theorem width_held {s t : State} (h : heldOk s) (a : TakesKept s.takes t.takes) (b : WindowsKept s.line.windows t.line.windows)
    (gen : t.width.gen ≤ 65535) (slots : slotsOk (namedBy s.takes) s.width → slotsOk (namedBy s.takes) t.width) : heldOk t := by
  obtain ⟨g, e, a⟩ := a
  refine heldOk_map h e (fun x hx => (a x hx).same) (fun x hx y hy c => ?_) b gen slots
  obtain ⟨ka, -, -, -, -, -, -, -, act, rel⟩ := a x hx
  obtain ⟨kb, -, -, -, -, -, -, -, act', rel'⟩ := a y hy
  exact ⟨by rw [ka, kb]; exact c.1, fun z => c.2.1 ⟨act z.1, act' z.2⟩, fun z => c.2.2 ⟨rel z.1, rel' z.2⟩⟩

theorem reAskFont_same (s f) : (reAskFont s f).takes = s.takes ∧ (reAskFont s f).line.windows = s.line.windows ∧
    (reAskFont s f).width.gen = s.width.gen := by
  unfold reAskFont ask putFrame
  (repeat' split) <;> exact ⟨rfl, rfl, rfl⟩
theorem reAskFont_held (s : State) (f : Nat) (h : heldOk s) : heldOk (reAskFont s f) := by
  obtain ⟨a, b, c⟩ := reAskFont_same s f
  exact width_held h (a ▸ .rfl) (b ▸ .rfl) (c ▸ h.2.2.2.2) (reAskFont_slotsOk f)

/-- A table that acts on a slot (R28, R29). -/
theorem tableToSlot_held {s : State} {font r : Nat} {widths : List Nat} (h : heldOk s) (hr : r ≤ 255) (ht : tableOk font widths) :
    heldOk (tableToSlot s font r widths) := by
  have hs := h.2.2.1
  unfold tableToSlot
  split
  · next i e =>
    obtain ⟨sl, at_, ef⟩ := slotOf_some e
    rw [at_]
    dsimp only
    have fill (hl : ¬ sl.holds) : heldOk (fillSlot s i sl font r widths) := by
      unfold fillSlot
      refine (markReady_keeps _).held ((endAsk_keeps _ _).held (width_held h ((askEnded_keeps s font).1 _ .rfl) .rfl h.2.2.2.2 fun k => ?_))
      have := slotsOk_table (gen := s.width.gen) k at_ (.inl ef) hr ht (nodup_recent i k.2.2.2.1) (mem_recent i k.2.2.2.1)
      rw [← ef] at this
      exact this
    split
    · next q u st =>
      split
      · unfold replaceTable
        refine (State.modActive_keeps _ fun x => ?_).held
          (width_held h .rfl .rfl (by simp [wrap16]; omega) fun k => ?_)
        · split <;> exact .rfl
        · have := slotsOk_table (use := s.width.useList) (gen := wrap16 s.width.gen) k at_ (.inl ef) hr ht k.2.2.2.1
            (fun j => ⟨.inr, fun c => c.elim (fun c => c ▸ (mem_use k at_).2 ⟨q, u, st⟩) id⟩)
          rw [← ef] at this
          exact this
      · exact h
    · next st => exact fill (by simp [Slot.holds, st])
    · next st => exact fill (by simp [Slot.holds, st])
  · next e =>
    split
    · next i f =>
      obtain ⟨sl, at_, ef⟩ := freeSlot_some f
      refine (markReady_keeps _).held (width_held h .rfl .rfl h.2.2.2.2 fun k => ?_)
      have ok := k.2.1 i sl at_
      simp only [slotOk, ef] at ok
      have notin : i ∉ s.width.useList := fun m => by
        obtain ⟨q, u, st⟩ := (mem_use k at_).1 m
        rw [ok.1] at st; exact nomatch st
      have d : (s.width.useList.erase i) = s.width.useList := List.erase_of_not_mem notin
      have := slotsOk_table (use := i :: s.width.useList.erase i) (gen := s.width.gen) k at_ (.inr ⟨ef, e⟩) hr ht
        (by rw [d]; exact List.nodup_cons.2 ⟨notin, k.2.2.2.1⟩) (fun j => by rw [d, List.mem_cons])
      rw [ok.2] at this
      exact this
    · exact h

/-- A WIDTH-TABLE handed over: its revision and entries came in bytes (R178). -/
theorem hearTable_held {s : State} {font r : Nat} {widths : List Nat} (h : heldOk s) (hr : r ≤ 255) (b : ∀ w ∈ widths, w ≤ 255) :
    heldOk (hearTable s font r widths) := by
  have k := (tableToWindows_keeps s font r).held h
  unfold hearTable
  dsimp only
  split
  · next f =>
    split
    · exact k
    · exact tableToSlot_held k hr (tableOk_of_form f b)
  · split
    · exact h
    · exact (countBad_keeps s).held h

/-- A lapse (R26, R194). -/
theorem lapse_held {s : State} (sub : Subject) (h : heldOk s) : heldOk (lapse s sub) := by
  unfold lapse
  split
  · have h1 := (endWatch_keeps s sub).held h
    generalize endWatch s sub = u at h1
    dsimp only
    split
    · split
      · split
        · exact (strand_keeps _ _).held h1
        · exact h1
      · exact h1
    · next f =>
      split
      · next a =>
        refine (markTakes_keeps _ _ _).held ((askEnded_keeps _ _).held (width_held h1 ?_ .rfl h1.2.2.2.2 fun k => lapse_slotsOk k a))
        refine takesKept_map (fun x => ?_) .rfl
        split <;> exact .rfl
      · exact h1
  · exact h

theorem foldl_held {α : Type} {f : State → α → State} (h : ∀ s a, heldOk s → heldOk (f s a)) (l : List α) :
    ∀ s, heldOk s → heldOk (l.foldl f s) := by
  induction l with
  | nil => exact fun _ => id
  | cons a l ih => exact fun s k => ih _ (h s a k)

/-- A strand turn (R195). -/
theorem strandTurn_held {s : State} (k : Key) (h : heldOk s) : heldOk (strandTurn s k) := by
  unfold strandTurn
  split
  · next t _ =>
    split
    · have h1 := (State.modTake_keeps s k (f := fun x => { x with timer := none }) fun _ => .rfl).held h
      dsimp only
      split
      · refine Keeps.held ?_ (foldl_held reAskFont_held (distinct t.fonts) _ h1)
        exact State.modTake_keeps _ _ fun _ => TakeKept.rfl
      · exact (decideStranded_keeps _ _).held h1
    · exact h
  · exact h

/-! ### Windows opened -/

/-- A window opened for something that no window is for (R172). -/
theorem openWindow_held {s : State} {what : WindowFor} {n : Nat} {f : Option TxFrame} (h : heldOk s)
    (ok : ∀ q, windowOk s { what := what, slots := n, queued := q })
    (fresh : ∀ w ∈ s.line.windows, w.what.subject ≠ what.subject) : heldOk (openWindow s what n f) := by
  have k : ∀ q, heldOk { s with line := { s.line with windows := s.line.windows ++ [{ what := what, slots := n, queued := q }] } } := by
    intro q
    refine ⟨h.1, ⟨fun w hw => ?_, ?_⟩, h.2.2⟩
    · rcases List.mem_append.1 hw with hw | hw
      · exact h.2.1.1 w hw
      · rw [List.mem_singleton.1 hw]; exact ok q
    · rw [List.pairwise_append]
      refine ⟨h.2.1.2, List.pairwise_singleton _ _, fun v hv w hw => ?_⟩
      rw [List.mem_singleton.1 hw]; exact fresh v hv
  unfold openWindow
  dsimp only
  split
  · split
    · exact (putFrame_keeps _ _).held (k _)
    · exact k _
  · exact k _

theorem subject_take {w : WindowFor} {k : Key} : w.subject = .take k ↔ w.isClaimFor k = true := by
  cases w <;> simp [WindowFor.subject, WindowFor.isClaimFor]
theorem subject_font {w : WindowFor} {f : Nat} : w.subject = .font f ↔ w.isAnswerFor f = true := by
  cases w <;> simp [WindowFor.subject, WindowFor.isAnswerFor]

/-- A station that bids may hold the take (R181). -/
theorem windowOk_of_eligible {s : State} {m : OfferMsg} {w : Window} (ok : offerOk m = true) (slots : w.slots ≤ 511)
    (what : ∀ a m' c, w.what = .claim a m' c → m' = m) (e : s.eligible m = true) : windowOk s w := by
  refine ⟨slots, fun a m' c h => ?_⟩
  obtain rfl := what a m' c h
  simp only [State.eligible, Bool.and_eq_true, decide_eq_true_eq, Option.isNone_iff_eq_none] at e
  obtain ⟨⟨⟨⟨⟨⟨⟨-, key⟩, len⟩, free⟩, fonts⟩, -⟩, -⟩, -⟩ := e
  refine ⟨ok, take_none key, len, ?_, fonts⟩
  have := free
  simp only [blocksFor, ceilDiv, Config.blockBytes] at this
  exact this

theorem number_le (s : State) : s.number ≤ 15 := by have := s.panel.straps.station.isLt; unfold State.number; omega
theorem cost_le (s : State) (m : OfferMsg) : s.cost m ≤ 31 := Nat.min_le_left _ _

theorem hearOffer_held {s : State} (a : Nat) {m : OfferMsg} (h : heldOk s) (ok : offerOk m = true) : heldOk (hearOffer s a m) := by
  unfold hearOffer
  split
  · next c =>
    refine openWindow_held h (fun q => windowOk_of_eligible ok ?_ (fun _ _ _ e => ?_) c.1) fun w hw e => ?_
    · have := number_le s; have := cost_le s m; dsimp only; omega
    · injection e with _ e _; exact e.symm
    · have := c.2.1
      rw [List.any_eq_false] at this
      exact this w hw (subject_take.1 e)
  · exact h

theorem hearAsk_held {s : State} (f : Nat) (h : heldOk s) : heldOk (hearAsk s f) := by
  unfold hearAsk
  split
  · split
    · next c =>
      refine openWindow_held h (fun q => ⟨?_, fun _ _ _ e => nomatch e⟩) fun w hw e => ?_
      · have := number_le s; dsimp only; omega
      · have := c.2.2.2
        rw [List.any_eq_false] at this
        exact this w hw (subject_font.1 e)
    · exact h
  · split
    · split
      · exact ((withdraw_keeps _ _).trans (startWatch_keeps _ _)).held h
      · exact h
    · exact h

/-! ### A claim won (R183) -/

/-- No frame of the queue is being sent. -/
abbrev NoneBegun (s : State) : Prop := ∀ e ∈ s.line.queue, e.begun = false

theorem mem_of_insertFrame {f : TxFrame} {x : TxEntry} {q : List TxEntry} (h : x ∈ insertFrame f q) :
    x = { frame := f, begun := false } ∨ x ∈ q := by
  induction q with
  | nil => exact .inl (by simpa [insertFrame] using h)
  | cons e q ih =>
    unfold insertFrame at h; split at h <;> simp only [List.mem_cons] at h ⊢
    · rcases h with h | h
      · exact .inr (.inl h)
      · exact (ih h).imp_right .inr
    · exact h

theorem claimFont_same (s f) : (claimFont s f).takes = s.takes ∧ (claimFont s f).width.gen = s.width.gen ∧
    WindowsKept s.line.windows (claimFont s f).line.windows ∧ (NoneBegun s → NoneBegun (claimFont s f)) := by
  have a : ∀ u : State, (ask u f).takes = u.takes ∧ (ask u f).width = u.width ∧ (ask u f).line.windows = u.line.windows ∧
      (NoneBegun u → NoneBegun (ask u f)) := by
    intro u
    unfold ask putFrame
    (repeat' split) <;> refine ⟨rfl, rfl, rfl, ?_⟩
    · exact id
    · exact id
    · intro h e he
      rcases mem_of_insertFrame he with rfl | he
      · rfl
      · exact h e he
  unfold claimFont reAskFont
  dsimp only
  split
  · split
    · split
      · split
        · obtain ⟨p, q, r, n⟩ := a _
          exact ⟨p, by rw [q]; rfl, by rw [r]; exact .rfl, n⟩
        · exact ⟨rfl, rfl, .rfl, id⟩
      · exact ⟨rfl, rfl, .rfl, id⟩
    · exact ⟨rfl, rfl, .rfl, id⟩
  · split
    · obtain ⟨p, q, r, n⟩ := a _
      exact ⟨p, by rw [q]; rfl, by rw [r]; exact .rfl, n⟩
    · split
      · obtain ⟨p, q, r, n⟩ := a _
        refine ⟨p.trans ?_, by rw [q]; split <;> rfl, ?_, fun h => n ?_⟩
        · split <;> rfl
        · rw [r]; split
          · exact WindowsKept.rfl.filter _
          · exact .rfl
        · split
          · exact fun e he => h e (List.mem_filter.1 he).1
          · exact h
      · exact ⟨rfl, rfl, .rfl, id⟩

theorem claimFonts_same (s fs) : (claimFonts s fs).takes = s.takes ∧ (claimFonts s fs).width.gen = s.width.gen ∧
    WindowsKept s.line.windows (claimFonts s fs).line.windows ∧ (NoneBegun s → NoneBegun (claimFonts s fs)) := by
  unfold claimFonts
  generalize distinct fs = l
  induction l generalizing s with
  | nil => exact ⟨rfl, rfl, .rfl, id⟩
  | cons a l ih =>
    obtain ⟨a1, b1, c1, d1⟩ := claimFont_same s a
    obtain ⟨a2, b2, c2, d2⟩ := ih (claimFont s a)
    refine ⟨a2.trans a1, b2.trans b1, ?_, d2 ∘ d1⟩
    obtain ⟨p, g, e, k⟩ := c2
    rw [List.foldl_cons, e]
    exact (c1.filter p).map k

/-- The record of a won claim, with the fonts claimed: sound but for the windows (R183). -/
theorem claim_core {s : State} {m : OfferMsg} {y : Take} (h : heldOk s) (ok : offerOk m = true)
    (key : ∀ x ∈ s.takes, x.key ≠ m.key) (n : s.takes.length < 8) (free : (m.copyLen + 255) / 256 ≤ s.freeBlocks.length)
    (fonts : (distinct (s.heldFonts ++ m.fonts)).length ≤ 12)
    (new : y.key = m.key ∧ y.cls = m.cls ∧ y.fonts = m.fonts ∧ y.copyLen = m.copyLen ∧ y.film = m.film ∧ y.received = 0 ∧
      y.blocks = [] ∧ y.reserved = s.freeBlocks.take (blocksFor m.copyLen) ∧ y.state = .receiving) :
    takesOk (claimFonts { s with takes := s.takes ++ [y] } m.fonts).takes ∧
    widthOk (claimFonts { s with takes := s.takes ++ [y] } m.fonts) := by
  obtain ⟨e1, e2, -, -⟩ := claimFonts_same { s with takes := s.takes ++ [y] } m.fonts
  generalize eu : claimFonts { s with takes := s.takes ++ [y] } m.fonts = u at e1 e2
  dsimp only at e1 e2
  obtain ⟨n1, n2, n3, n4, n5, n6, n7, n8, n9⟩ := new
  have hf : ∀ f, f ∈ u.heldFonts ↔ f ∈ distinct (s.heldFonts ++ m.fonts) := by
    intro f
    rw [mem_heldFonts, e1, mem_distinct, List.mem_append, mem_heldFonts]
    simp [or_and_right, exists_or, n3]
  have hb : blocksFor m.copyLen = (m.copyLen + 255) / 256 := by simp [blocksFor, ceilDiv, Config.blockBytes]
  have yb : ∀ b ∈ y.blocks ++ y.reserved, b ∈ s.freeBlocks := fun b hb => by
    rw [n7, n8] at hb; exact List.mem_of_mem_take hb
  obtain ⟨⟨len, two, oks, dup, lt⟩, windows, width⟩ := h
  refine ⟨?_, ?_, ?_, by rw [e2]; exact width.2.2⟩
  · rw [e1]
    refine ⟨by simp only [List.length_append, List.length_singleton]; omega, ?_, ?_, ?_, ?_⟩
    · rw [List.pairwise_append]
      refine ⟨two, List.pairwise_singleton _ _, fun x hx z hz => ?_⟩
      rw [List.mem_singleton.1 hz, n1, n9]
      exact ⟨key x hx, by simp, by simp⟩
    · intro x hx
      rcases List.mem_append.1 hx with hx | hx
      · exact oks x hx
      rw [List.mem_singleton.1 hx]
      simp only [offerOk, keyOk, isWord, Bool.and_eq_true, decide_eq_true_eq, List.all_eq_true, fontOk, Config.maxCopy,
        Config.top24] at ok
      obtain ⟨⟨⟨⟨⟨⟨⟨⟨⟨⟨⟨⟨⟨⟨k1, k2⟩, k3⟩, -⟩, -⟩, -⟩, k7⟩, k8⟩, k9⟩, k10⟩, k11⟩, k12⟩, k13⟩, -⟩, -⟩ := ok
      unfold takeOk
      rw [n1, n2, n3, n4, n5, n6, n7, n8, List.length_take, hb]
      refine ⟨by omega, by omega, k3, by omega, by omega, k12, k7, of_decide_eq_true k8, of_decide_eq_true k9, Nat.zero_le _, rfl, ?_⟩
      simp only [List.length_nil]; omega
    · rw [List.flatMap_append, List.nodup_append]
      refine ⟨dup, ?_, fun x hx z hz c => ?_⟩
      · simpa [n7, n8] using (freeBlocks_nodup s).sublist (List.take_sublist _ _)
      · exact (mem_freeBlocks.1 (yb z (by simpa using hz))).2 (c ▸ List.mem_flatMap.1 hx)
    · intro b hb
      rw [List.flatMap_append, List.mem_append] at hb
      rcases hb with hb | hb
      · exact lt b hb
      · exact (mem_freeBlocks.1 (yb b (by simpa using hb))).1
  · have := claimFonts_slotsOk (s := { s with takes := s.takes ++ [y] }) (fonts := m.fonts) width.1
      ⟨distinct (s.heldFonts ++ m.fonts), fonts, fun f hf => by simp [hf], fun f hf => by
        rw [mem_distinct, List.mem_append, mem_heldFonts]; exact .inl (namedBy_pos.1 hf)⟩
    rw [eu] at this
    refine slotsOk_congr (fun f => ?_) this
    rw [e1]
    unfold namedBy
    rw [List.filter_append, List.length_append]
    by_cases c : f ∈ m.fonts <;> simp [c, n3]
  · exact Nat.le_trans (nodup_length_le (heldFonts_nodup u) fun f i => (hf f).1 i) fonts

/-- Windows of which every one that fails the test of R181 goes, as none has begun (R182, R183 step 5). -/
theorem retest_held {s : State} (a : takesOk s.takes) (w : widthOk s) (n : NoneBegun s)
    (ok : ∀ v ∈ s.line.windows, v.slots ≤ 511 ∧ ∀ b m c, v.what = .claim b m c → offerOk m = true)
    (two : s.line.windows.Pairwise (fun v w => v.what.subject ≠ w.what.subject)) :
    heldOk (cancelWindows s (WindowFor.fails s)) := by
  refine ⟨a, ⟨fun v hv => ?_, two.filter _⟩, w⟩
  obtain ⟨hv, f⟩ := List.mem_filter.1 hv
  have : windowOk s v := by
    refine ⟨(ok v hv).1, fun b m c e => ?_⟩
    have nb : s.line.windowBegun v = false := by
      simp only [LineInterface.windowBegun, List.any_eq_false]
      intro x hx; simp [n x hx]
    have el : s.eligible m = true := by
      simpa [nb, WindowFor.fails, e] using f
    exact (windowOk_of_eligible (w := v) ((ok v hv).2 b m c e) (ok v hv).1
      (fun b' m' c' e' => by rw [e] at e'; injection e' with _ q _; exact q.symm) el).2 b m c e
  exact this

/-- A claim won (R183), with what its window's offer was tested against. -/
theorem claimWon_held {s : State} (a : Nat) {m : OfferMsg} (h : heldOk s) (n : NoneBegun s) (ok : offerOk m = true)
    (key : ∀ x ∈ s.takes, x.key ≠ m.key) (len : s.takes.length < 8) (free : (m.copyLen + 255) / 256 ≤ s.freeBlocks.length)
    (fonts : (distinct (s.heldFonts ++ m.fonts)).length ≤ 12) : heldOk (claimWon s a m) := by
  unfold claimWon
  dsimp only
  generalize ey : ({ newTake a m (s.freeBlocks.take (blocksFor m.copyLen)) with release := s.standingMark } : Take) = y
  have new : y.key = m.key ∧ y.cls = m.cls ∧ y.fonts = m.fonts ∧ y.copyLen = m.copyLen ∧ y.film = m.film ∧ y.received = 0 ∧
      y.blocks = [] ∧ y.reserved = s.freeBlocks.take (blocksFor m.copyLen) ∧ y.state = .receiving := by
    subst ey; exact ⟨rfl, rfl, rfl, rfl, rfl, rfl, rfl, rfl, rfl⟩
  obtain ⟨c1, c2⟩ := claim_core h ok key len free fonts new
  obtain ⟨-, -, c3, c4⟩ := claimFonts_same { s with takes := s.takes ++ [y] } m.fonts
  have c4 := c4 n
  generalize claimFonts { s with takes := s.takes ++ [y] } m.fonts = u at c1 c2 c3 c4
  -- what follows keeps the records, windows and cache, and begins no frame
  have k : Keeps u (wake (warmUp (markReady u))) := (markReady_keeps u).trans ((warmUp_keeps _).trans (wake_keeps _))
  have q : (wake (warmUp (markReady u))).line = u.line := by
    have wl : ∀ x : State, (warmUp x).line = x.line := by intro x; unfold warmUp; split <;> rfl
    unfold wake
    split
    · rw [wl]; exact wl _
    · exact wl _
  generalize wake (warmUp (markReady u)) = v at k q
  obtain ⟨p, g, ew, kw⟩ := c3
  have core : heldOk { v with line := { v.line with windows := [] } } := by
    have e : heldOk { u with line := { u.line with windows := [] } } :=
      ⟨c1, ⟨fun _ h => absurd h List.not_mem_nil, List.Pairwise.nil⟩, c2⟩
    exact Keeps.held (s := { u with line := { u.line with windows := [] } }) ⟨k.1, fun _ h => h, k.2.2⟩ e
  refine retest_held core.1 core.2.2 (by rw [NoneBegun, q]; exact c4) ?_ ?_
  · rw [q, ew]
    intro w hw
    obtain ⟨x, hx, rfl⟩ := List.mem_map.1 hw
    have wx := h.2.1.1 x (List.mem_filter.1 hx).1
    refine ⟨Nat.le_trans (kw x).2 wx.1, fun b m c e => (wx.2 b m c ((kw x).1 ▸ e)).1⟩
  · rw [q, ew, List.pairwise_map]
    exact (h.2.1.2.filter p).imp fun {x y} c => by rw [(kw x).1, (kw y).1]; exact c

/-- A window ends with the frame of a claim, sent or not (R173, R174, R183). -/
theorem claimEnds_held {s : State} (k : Key) (e : FrameEnd) (h : heldOk s) (n : e = .sent → NoneBegun s) :
    heldOk (claimEnds s k e) := by
  unfold claimEnds
  dsimp only
  split
  · next a m c _ q w =>
    have hw := List.mem_of_find?_eq_some w
    obtain ⟨ok, key, len, free, fonts⟩ := (h.2.1.1 _ hw).2 a m c rfl
    have h1 := (endWindow_keeps s (WindowFor.isClaimFor k)).held h
    split
    · next i => exact claimWon_held a h1 (n i) ok key len free fonts
    · exact h1
  · exact h

/-! ### Copy received (R180, R184) -/

/-- A copy store's record takes more bytes into blocks that were reserved for it (R180, R184). -/
theorem receive_takesOk {l : List Take} {k : Key} {n : Nat} (h : takesOk l)
    (room : ∀ x ∈ l, x.key = k → x.received + n ≤ x.copyLen) :
    takesOk (l.map (fun x => if x.key == k then x.receive n else x)) := by
  obtain ⟨len, two, ok, dup, lt⟩ := h
  have e : (l.map (fun x => if x.key == k then x.receive n else x)).flatMap (fun x => x.blocks ++ x.reserved) =
      l.flatMap (fun x => x.blocks ++ x.reserved) := by
    rw [List.flatMap_map, List.flatMap_def, List.flatMap_def]
    refine congrArg _ (List.map_congr_left fun x _ => ?_)
    split <;> simp [Take.receive, List.append_assoc]
  refine ⟨by simpa using len, ?_, ?_, e ▸ dup, e ▸ lt⟩
  · rw [List.pairwise_map]
    refine two.imp fun {x y} c => ?_
    split <;> split <;> exact c
  · intro y hy
    obtain ⟨x, hx, rfl⟩ := List.mem_map.1 hy
    obtain ⟨k1, k2, k3, k4, k5, k6, k7, k8, k9, k10, k11, k12⟩ := ok x hx
    split
    · next c =>
      have r := room x hx (by simpa using c)
      refine ⟨k1, k2, k3, k4, k5, k6, k7, k8, k9, r, ?_, ?_⟩ <;>
        simp only [Take.receive, List.length_append, List.length_take, List.length_drop, blocksFor, ceilDiv, Config.blockBytes] <;>
        omega
    · exact ok x hx

/-- The bytes of a COPY (R184). -/
theorem hearCopy_held {s : State} (a : Nat) (k : Key) (o : Nat) (d : List Byte) (h : heldOk s) : heldOk (hearCopy s a k o d) := by
  unfold hearCopy
  split
  · next t e =>
    have m : t ∈ s.takes ∧ t.key = k := by
      unfold State.receiver? at e
      cases f : s.take? k with
      | none => simp [f] at e
      | some x =>
        simp only [f, Option.bind_some] at e
        split at e
        · injection e with e; exact e ▸ take_some f
        · simp at e
    have h1 := (State.modTake_keeps s k (f := fun x => { x with timer := some .stall }) fun _ => .rfl).held h
    dsimp only
    split
    · exact h1
    · split
      · next c =>
        have room : ∀ x ∈ (s.modTake k (fun x => { x with timer := some .stall })).takes, x.key = k → x.received + d.length ≤ x.copyLen := by
          intro x hx ek
          obtain ⟨y, hy, rfl⟩ := List.mem_map.1 hx
          have ey : y.key = k := by split at ek <;> exact ek
          have : y = t := key_unique h.1 hy m.1 (ey.trans m.2.symm)
          subst this
          split <;> (show y.received + _ ≤ y.copyLen; omega)
        generalize s.modTake k (fun x => { x with timer := some .stall }) = u at h1 room
        obtain ⟨takes, windows, width⟩ := h1
        have fonts : ∀ x ∈ u.takes, (if x.key == k then x.receive d.length else x).fonts = x.fonts := by
          intro x _; split <;> rfl
        have back : ∀ y ∈ (u.modTake k (fun x => x.receive d.length)).takes, ∃ x ∈ u.takes, y.key = x.key ∧ y.fonts = x.fonts ∧
            ∀ b ∈ y.blocks ++ y.reserved, b ∈ x.blocks ++ x.reserved := by
          intro y hy
          obtain ⟨x, hx, rfl⟩ := List.mem_map.1 hy
          refine ⟨x, hx, ?_⟩
          split
          · refine ⟨rfl, rfl, fun b hb => ?_⟩
            simpa [Take.receive] using hb
          · exact ⟨rfl, rfl, fun _ i => i⟩
        have r : heldOk (u.modTake k (fun x => x.receive d.length)) := by
          refine ⟨receive_takesOk takes room, ⟨fun w hw => ?_, windows.2⟩, ?_, ?_, width.2.2⟩
          · refine windowOk_mono (.refl _) (Nat.le_refl _) (fun y hy => ?_) (by simp [State.modTake]) (fun y hy => ?_) (fun y hy => ?_)
              (windows.1 w hw) <;> obtain ⟨x, hx, p, q, z⟩ := back y hy <;> refine ⟨x, hx, ?_⟩
            · exact p
            · exact z
            · rw [q]; exact fun _ i => i
          · show slotsOk (namedBy (u.takes.map _)) _
            rw [namedBy_map fonts]; exact width.1
          · refine Nat.le_trans (nodup_length_le (heldFonts_nodup _) fun f hf => ?_) width.2.1
            obtain ⟨y, hy, i⟩ := mem_heldFonts.1 hf
            obtain ⟨x, hx, -, q, -⟩ := back y hy
            exact mem_heldFonts.2 ⟨x, hx, q ▸ i⟩
        exact heldOk_of rfl rfl rfl r
      · refine (State.modTake_keeps _ _ fun _ => ?_).held h1
        exact .rfl
  · exact h

/-! ### Passes and releases (R186, R193, R194) -/

/-- A pass starts over a QUEUED take, with no take ACTIVE (R186, R187). -/
theorem startPass_held {s : State} {t : Take} (h : heldOk s) (m : t ∈ s.takes) (n : s.active? = none) : heldOk (startPass s t) := by
  unfold startPass
  dsimp only
  refine (produce_keeps _ _ _).held ((startCompositor_keeps _ _).held (heldOk_of rfl rfl rfl (modTake_held (k := t.key)
    (f := fun _ => { t with
      state := .active, timer := none
      startValues := if t.nextPass = .proof then some (genValues s t) else t.startValues
      proofState := if t.context.isNone then .complete else t.proofState }) h (fun x hx e => ?_) (fun x hx e _ => ?_) fun x hx e c => ?_)))
  · rw [key_unique h.1 hx m e]; exact TakeKept.rfl.same
  · right; simpa [State.active?, List.find?_eq_none] using n
  · exact nomatch c

theorem first_mem {s : State} {l : List Take} {t : Take} (e : s.first? l = some t) : t ∈ l := by
  induction l generalizing t with
  | nil => simp [State.first?] at e
  | cons a l ih =>
    unfold State.first? at e
    split at e
    · next u f =>
      split at e <;> (injection e with e; subst e)
      · exact List.mem_cons_self ..
      · exact List.mem_cons_of_mem _ (ih f)
    · injection e with e; subst e; exact List.mem_cons_self ..

theorem selectTake_held {s t} (e : selectTake s = some t) (h : heldOk s) : heldOk t := by
  unfold selectTake at e
  split at e
  · next c =>
    obtain ⟨x, hx, rfl⟩ := Option.map_eq_some_iff.1 e
    exact startPass_held h (List.mem_filter.1 (first_mem hx)).1 (by simpa using c.2)
  · simp at e

/-- A take is offered, with no other RELEASING (R193, R194). -/
theorem beginOffer_held {s : State} {k : Key} (n : Nat) (b : Bool) (h : heldOk s)
    (r : ∀ x ∈ s.takes, x.key ≠ k → x.state ≠ .releasing) : heldOk (beginOffer s k n b) := by
  unfold beginOffer
  have so : ∀ u : State, Keeps u (sendOffer u k) := by
    intro u
    unfold sendOffer
    (repeat' split) <;> first | exact Keeps.rfl | exact startWatch_keeps _ _ | exact putFrame_keeps _ _
  refine (so _).held (modTake_held h (fun x _ _ => TakeKept.rfl.same) (fun x hx e c => nomatch c) fun x hx e c => ?_)
  by_cases i : x.state = .releasing
  · exact .inl i
  · refine .inr fun y hy => ?_
    by_cases j : y.key = k
    · rw [key_unique h.1 hy hx (j.trans e.symm)]; exact i
    · exact r y hy j

/-- A release of a RELEASING take fails (R194). -/
theorem releaseFails_held {s : State} {k : Key} {t : Take} (e : s.take? k = some t) (r : t.state = .releasing) (h : heldOk s) :
    heldOk (releaseFails s k) := by
  obtain ⟨m, ek⟩ := take_some e
  unfold releaseFails
  simp only [e]
  have h1 := (withdraw_keeps s (TxFrame.isCopyOf k)).held h
  split
  · refine beginOffer_held _ _ h1 fun x hx n c => ?_
    exact (apart_of h.1 hx m (fun z => n (z ▸ ek))).2.2 ⟨c, r⟩
  · exact (strand_keeps _ _).held h1

theorem beginRelease_held {s t} (e : beginRelease s = some t) (h : heldOk s) : heldOk t := by
  unfold beginRelease at e
  split at e
  · simp at e
  · next n =>
    have n : ∀ x ∈ s.takes, x.state ≠ .releasing := by simpa [State.releasing?, List.find?_eq_none] using n
    split at e
    · injection e with e; subst e; exact beginOffer_held _ _ h fun x hx _ => n x hx
    · obtain ⟨x, -, rfl⟩ := Option.map_eq_some_iff.1 e
      exact beginOffer_held _ _ h fun x hx _ => n x hx

/-- The RELEASING take is the one found by its key. -/
theorem releasing_found {s : State} {t : Take} (h : heldOk s) (e : s.releasing? = some t) : s.take? t.key = some t := by
  obtain ⟨m, -⟩ := releasing_some e
  cases f : s.take? t.key with
  | none => exact absurd rfl (take_none f t m)
  | some x =>
    obtain ⟨mx, kx⟩ := take_some f
    rw [key_unique h.1 mx m kx]

theorem feedCopy_held {s t} (e : feedCopy s = some t) (h : heldOk s) : heldOk t := by
  unfold feedCopy at e
  split at e
  · next x r =>
    split at e
    · split at e
      · injection e with e; subst e
        exact releaseFails_held (releasing_found h r) (releasing_some r).2 h
      · split at e
        · simp at e
        · dsimp only at e
          split at e
          · injection e with e; subst e
            refine (putFrame_keeps _ _).held (Keeps.held ?_ h)
            exact State.modTake_keeps _ _ fun _ => .rfl
          · split at e
            · simp at e
            · injection e with e; subst e
              refine (putFrame_keeps _ _).held (Keeps.held ?_ h)
              exact State.modTake_keeps _ _ fun _ => .rfl
    · simp at e
  · simp at e

theorem hearRefused_held {s : State} (a : Nat) (k : Key) (h : heldOk s) : heldOk (hearRefused s a k) := by
  unfold hearRefused
  split
  · next t e =>
    split
    · next c => exact releaseFails_held e c.1 h
    · exact h
  · exact h
theorem takenWaitExpires_held {s : State} (k : Key) (h : heldOk s) : heldOk (takenWaitExpires s k) := by
  unfold takenWaitExpires
  split
  · next t e =>
    split
    · next c => exact releaseFails_held e c.1 h
    · exact h
  · exact h
theorem copyMuted_held {s : State} (k : Key) (d : Nat) (h : heldOk s) : heldOk (copyMuted s k d) := by
  unfold copyMuted
  split
  · next t e =>
    split
    · next c => exact releaseFails_held e c.1 h
    · exact h
  · exact h

/-! ### Records freed (R185, R189, R191, R192, R194) -/

theorem refuseCopy_held {s : State} (t : Take) (r : Nat) (h : heldOk s) : heldOk (refuseCopy s t r) :=
  (handFrame_keeps _ _).held (freeTake_held _ h)

theorem hearCopyEnd_held {s : State} (a : Nat) (k : Key) (n : Nat) (h : heldOk s) : heldOk (hearCopyEnd s a k n) := by
  unfold hearCopyEnd
  split
  · split
    · split
      · exact freeTake_held _ h
      · refine (putFrame_keeps _ _).held (Keeps.held ?_ h)
        exact State.modTake_keeps _ _ fun _ => .rfl
    · exact refuseCopy_held _ _ h
  · exact h

theorem stallExpires_held {s : State} (k : Key) (h : heldOk s) : heldOk (stallExpires s k) := by
  unfold stallExpires
  (repeat' split) <;> first | exact refuseCopy_held _ _ h | exact h

theorem takenLost_held {s : State} (k : Key) (h : heldOk s) : heldOk (takenLost s k) := by
  unfold takenLost
  (repeat' split) <;> first | exact freeTake_held _ h | exact h

theorem hearTaken_held {s : State} (a : Nat) (k : Key) (h : heldOk s) : heldOk (hearTaken s a k) := by
  unfold hearTaken
  (repeat' split) <;> first
    | exact freeTake_held _ (((stopRelease_keeps _ _).trans (produce_keeps _ _ _)).held h)
    | exact h

theorem completeTake_held {s t} (e : completeTake s = some t) (h : heldOk s) : heldOk t := by
  unfold completeTake at e
  split at e
  · next p x _ _ =>
    dsimp only at e
    split at e
    · injection e with e; subst e
      have k := (produce_keeps s (some x.key) (.takeDone (counterBlock s x))).held h
      exact freeTake_held _ ((dropStop_keeps _ _).held (heldOk_of rfl rfl rfl k))
    · simp at e
  · simp at e

theorem killFinish_held {s t} (e : killFinish s = some t) (h : heldOk s) : heldOk t := by
  unfold killFinish at e
  split at e
  · next p x _ _ =>
    dsimp only at e
    split at e
    · injection e with e; subst e
      have k := (produce_keeps s (some x.key) (.takeKilled .active (counterBlock s x))).held h
      exact freeTake_held _ ((dropStop_keeps _ _).held (heldOk_of rfl rfl rfl k))
    · simp at e
  · simp at e

theorem killHeld_held {s : State} (t : Take) (h : heldOk s) : heldOk (killHeld s t) := by
  unfold killHeld
  refine freeTake_held _ ((produce_keeps _ _ _).held ?_)
  split
  · exact (withdraw_keeps _ _).held h
  · exact (stopRelease_keeps _ _).held h
  · exact h

theorem hearKill_held {s : State} (k : Key) (h : heldOk s) : heldOk (hearKill s k) := by
  have h1 := (cancelWindows_keeps s (WindowFor.isClaimFor k)).held h
  unfold hearKill
  dsimp only
  split
  · split
    · exact (killActive_keeps _ _).held h1
    · exact killHeld_held _ h1
  · exact h1

/-! ### Frames ended and received (R165, R167 to R169) -/

theorem tellProducer_held {s : State} (f : TxFrame) (e : FrameEnd) (h : heldOk s) (n : e = .sent → NoneBegun s) :
    heldOk (tellProducer s f e) := by
  unfold tellProducer
  split
  · exact claimEnds_held _ _ h n
  · exact (endWindow_keeps _ _).held h
  · split
    · exact (takenSent_keeps _ _).held h
    · exact takenLost_held _ h
  · exact h
  · split
    · exact (startWatch_keeps _ _).held h
    · exact h
  · exact (offerEnds_keeps _ _).held h
  · split
    · exact ((markSent_keeps _ _ _).trans (startTakenWait_keeps _ _ _)).held h
    · exact (startTakenWait_keeps _ _ _).held h
    · exact copyMuted_held _ _ h
  · split
    · exact copyMuted_held _ _ h
    · exact h
  · exact (announceGone_keeps _).held h
  · exact h

theorem frameEnds_held {s : State} (e : FrameEnd) (h : heldOk s) : heldOk (frameEnds s e) := by
  unfold frameEnds
  split
  · exact tellProducer_held _ _ (heldOk_of rfl rfl rfl h) fun _ x hx => by simpa using (List.mem_filter.1 hx).2
  · exact h

theorem becomeMuted_held {s : State} (h : heldOk s) : heldOk (becomeMuted s) := by
  unfold becomeMuted
  split
  · exact h
  · refine foldl_held (fun u f k => tellProducer_held f .muted k (fun c => nomatch c)) _ _ ?_
    exact Keeps.held (s := s) ⟨fun _ h => h, fun _ _ => .nil, fun _ h => h⟩ h

theorem receive_held {s : State} {a : Header} {ok taken : Bool} {act : State → State} (h : heldOk s)
    (k : ok = true → ∀ u, heldOk u → heldOk (act u)) : heldOk (receive s a ok taken act) := by
  unfold receive
  split
  · split
    · next o =>
      have h1 : heldOk { s with line := { s.line with phase := .gapDue } } := heldOk_of rfl rfl rfl h
      dsimp only
      have h2 : heldOk (if a.sender = s.number then becomeMuted { s with line := { s.line with phase := .gapDue } }
          else { s with line := { s.line with phase := .gapDue } }) := by
        split
        · exact becomeMuted_held h1
        · exact h1
      split
      · exact k o _ h2
      · exact h2
    · exact Keeps.held (keeps_of (s := s) rfl rfl rfl) h
  · exact h

/-! ### Resets -/

theorem held_empty {s : State} (a : s.takes = []) (b : s.line.windows = []) (c : slotsOk (fun _ => 0) s.width) (g : s.width.gen ≤ 65535) :
    heldOk s := by
  refine ⟨?_, ⟨?_, ?_⟩, ?_, ?_, g⟩
  · rw [a]
    exact ⟨Nat.zero_le _, .nil, fun _ h => absurd h List.not_mem_nil, by simp, by simp⟩
  · rw [b]; exact fun _ h => absurd h List.not_mem_nil
  · rw [b]; exact .nil
  · rw [a]; exact c
  · rw [State.heldFonts, a]; exact Nat.zero_le _

theorem reset_slotsOk : slotsOk (fun _ => 0) State.reset.width := by
  have f : ∀ (i : Nat) (sl : Slot), (List.replicate 12 freeSlot)[i]? = some sl → sl = freeSlot := fun i sl h =>
    List.eq_of_mem_replicate (List.mem_of_getElem? h)
  refine ⟨rfl, fun i sl h => ?_, fun i j a b g h _ k _ => ?_, .nil, fun i => ⟨fun h => absurd h List.not_mem_nil, ?_⟩, fun _ h => ?_⟩
  · rw [f i sl h]; exact ⟨rfl, rfl⟩
  · rw [f i a h] at k; exact nomatch k
  · rintro ⟨sl, r, t, h, k⟩; rw [f i sl h] at k; exact nomatch k
  · exact absurd h (Nat.not_succ_le_zero _)

theorem reset_held : heldOk State.reset := held_empty rfl rfl reset_slotsOk (Nat.zero_le _)

theorem powerOn_held (s : State) (p : Pins) : heldOk (powerOn s p) := by
  unfold powerOn
  refine (takePaper_keeps _).held ?_
  exact held_empty rfl rfl reset_slotsOk (Nat.zero_le _)

theorem lineReset_held {s : State} (p : Straps) (h : heldOk s) : heldOk (lineReset s p) := by
  have k := afterReset_slotsOk h.2.2.1
  unfold lineReset
  dsimp only
  refine (takePaper_keeps _).held ?_
  split
  · refine (startHoming_keeps _).held ?_
    exact held_empty rfl rfl k h.2.2.2.2
  · exact held_empty rfl rfl k h.2.2.2.2

/-! ### Reactions, settling and steps -/

theorem reaction_held {r : State → Option State} (hr : r ∈ reactions) {s t : State} (e : r s = some t) (h : heldOk s) : heldOk t := by
  simp only [reactions, List.mem_cons, List.not_mem_nil, or_false] at hr
  obtain rfl | rfl | rfl | rfl | rfl | rfl | rfl | rfl | rfl | rfl | rfl | rfl | rfl | rfl | rfl | rfl | rfl | rfl |
    rfl | rfl | rfl | rfl | rfl := hr
  · exact (storeRemove_keeps e).held h
  · exact (retryLine_keeps e).held h
  · exact (parkAnswer_keeps e).held h
  · exact (killEmpties_keeps e).held h
  · exact (askEndCut_keeps e).held h
  · exact (parkFinish_keeps e).held h
  · exact killFinish_held e h
  · exact completeTake_held e h
  · exact (endProofPass_keeps e).held h
  · exact (reaskReport_keeps e).held h
  · exact beginRelease_held e h
  · exact feedCopy_held e h
  · exact (startCutDone_keeps e).held h
  · exact (serveFilm_keeps e).held h
  · exact (endHalted_keeps e).held h
  · exact (checkLine_keeps e).held h
  · exact (goLine_keeps e).held h
  · exact (scanStep_keeps e).held h
  · exact (beginExposure_keeps e).held h
  · exact selectTake_held e h
  · exact (takeLine_keeps e).held h
  · exact (beginChar_keeps e).held h
  · exact (retestWindows_keeps e).held h

theorem settle_held {s : State} (h : heldOk s) : heldOk (settle s) :=
  Sys2Proof.Machine.settle_keeps (P := heldOk) (fun _ hr _ _ p e => reaction_held hr e p) h

theorem done_held {s t : State} (h : heldOk s) (e : done s = .next t) : heldOk t := by
  injection e with e; subst e; exact settle_held h

end Sys2Proof.Machine
end

