-- ==== Sys2Proof/Laws/Lines.lean ====
section
/-! SUPPORT. What a complete line does to the state, said once: the operations by which it is offered to the Set-Line Store, is
appended or is held, and the next line begins (R35, R81, R82, R58, R8). -/

namespace Sys2Proof.Machine

/-- The pending values are applied as R8 has it. -/
theorem pending_apply_eq (p : PendingValues) (c : Context) : p.apply c = pendingApplied p c := by
  unfold PendingValues.apply pendingApplied withMeasure withIndent pick indentCap one
  rcases p with ⟨pl, pm, pi, ps, pt, po, ph, pc, pd⟩
  cases pm <;> cases pi <;> cases ps <;> simp <;> split <;> simp_all <;> omega

/-- A line without a proof makes the proof state partial (R86). -/
theorem proofState_without (n : Nat) (p : ProofState) : p.without n = match p with
    | .complete => .partialFrom n
    | .partialFrom m => .partialFrom (min m n)
    | .none => .none := by cases p <;> rfl

/-- All that the beginning of a line leaves (R17, R36), the end of the text among it (Log 23). -/
theorem startLine_next (s : State) (t : Take) (y : Context) (a b : Bool) :
    (startLine s t y a b).comp.pend = noPending ∧ (startLine s t y a b).comp.held = none ∧
    (startLine s t y a b).comp.line = [] ∧ (startLine s t y a b).comp.group = [] ∧
    (startLine s t y a b).store = s.store ∧ (startLine s t y a b).takes = s.takes ∧
    (startLine s t y a b).comp.ctx = some { y with resume := min t.textLen y.resume } ∧
    (startLine s t y a b).comp.phase = (if t.textLen ≤ y.resume then .idle else if s.pausing then .paused else .setting) ∧
    (startLine s t y a b).pass =
      (if t.textLen ≤ y.resume then s.pass.map (fun p => { p with reported := true }) else s.pass) := by
  unfold startLine reportEnd
  by_cases h : t.textLen ≤ y.resume
  · simp [h, idleCompositor]
  · have : min t.textLen y.resume = y.resume := by omega
    simp [h, idleCompositor, this]

/-- All that appending a line does to the store, the take, the context and the pass (R58, R82, R86, R8). -/
theorem appendLine_next (s : State) (t : Take) (x : Context) (sl : SetLine) :
    s.active? = some t →
    let u := appendLine s t x sl
    ∃ r, lineAppended s u t x r ∧ r = { sl.record with filmPending := r.filmPending, proofPending := r.proofPending } ∧
      u.comp.ctx = some (contextAfter s x (ladderAfter x.ladderCount sl.record.flags) (min t.textLen sl.next.offset)
        sl.next.font sl.next.size) ∧
      u.comp.phase = (if t.textLen ≤ sl.next.offset then .idle else if s.pausing then .paused else .setting) ∧
      u.pass = (if t.textLen ≤ sl.next.offset then s.pass.map (fun p => { p with reported := true }) else s.pass) := by
  intro _ u
  refine ⟨{ sl.record with filmPending := (consumers s t).1, proofPending := (consumers s t).2 }, ⟨?_, ?_, ?_, ?_, ?_, ?_, ?_, ?_⟩, rfl, ?_, ?_, ?_⟩
  all_goals simp only [u, appendLine, startLine_next]
  · rfl
  · unfold consumers; cases s.passKind <;> simp
  · unfold consumers; cases hk : s.passKind <;> simp
    cases s.paperOut <;> cases t.proofDropped <;> cases hp : t.proofState <;> simp [ProofState.isPartial]
  · simp only [State.modActive]
    congr 1; funext y; split
    · simp [lineCounted, afterLine, pending_apply_eq, Counters.addLine, satAdd, one, Config.top16, pendingApplied, proofState_without] <;>
        (split <;> cases y.proofState <;> rfl)
    · rfl
  · simp [afterLine, pending_apply_eq, contextAfter, satAdd, Config.top16]
  · simp [afterLine]; rfl
  · simp [afterLine, State.modActive]

/-- A store with room takes the line offered (R81). -/
theorem offerLine_with_room (s : State) (t : Take) (x : Context) (sl : SetLine) (h : storeRoom s sl.record.items.length) :
    offerLine s t x sl = appendLine s t x sl := by
  have : s.store.takes sl.record = true := by
    simp [LineStore.takes, Config.storeLines, Config.storeItems, h.1, h.2]
  simp [offerLine, this]

/-- A store without room leaves the line held whole (R35, R81). -/
theorem offerLine_without_room (s : State) (t : Take) (x : Context) (sl : SetLine) (h : ¬ storeRoom s sl.record.items.length) :
    lineHeld s (offerLine s t x sl) sl ∧ (offerLine s t x sl).comp.ctx = s.comp.ctx := by
  have : s.store.takes sl.record = false := by
    cases hb : s.store.takes sl.record with
    | false => rfl
    | true =>
      simp only [LineStore.takes, Bool.and_eq_true, decide_eq_true_eq] at hb
      exact absurd hb h
  simp [offerLine, this, lineHeld, modComp]

/-- Every item of a line has a position (R55). -/
theorem positions_length (sh : Shares) : ∀ (l : List BuildItem) (x r gr : Nat) (p : Bool), (positions sh x r gr p l).length = l.length
  | [], _, _, _, _ => rfl
  | i :: l, x, r, gr, p => by simp [positions, positions_length sh l]

/-- The record of a line ended now (R57). -/
theorem makeRecord_lineOf (s : State) (x : Context) (base : Nat) (items : List BuildItem) (e : LineEnd) :
    lineOf s x items.length (makeRecord x (s.comp.snap.getD x) base items e) := by
  simp [lineOf, makeRecord, placeItems, positions_length]

/-- A complete line is appended, or held where the store has no room (R35, R81). -/
theorem completeLine_next (s : State) (t : Take) (x : Context) (items : List BuildItem) (e : LineEnd) (next : ReadOn)
    (ha : s.active? = some t) :
    (storeRoom s items.length → ∃ r, let u := completeLine s t x items e next
      lineAppended s u t x r ∧ lineOf s x items.length r ∧ r.flags.hyphenated = e.hyphenated ∧
      r.flags.explicitHyphen = e.explicit ∧ r.flags.overset = e.overset ∧ r.flags.paragraphEnd = e.paraEnd ∧
      u.comp.ctx = some (contextAfter s x (if e.hyphenated || e.explicit then min 7 (x.ladderCount + 1) else 0)
        (min t.textLen next.offset) next.font next.size) ∧
      u.comp.phase = (if t.textLen ≤ next.offset then .idle else if s.pausing then .paused else .setting) ∧
      u.pass = (if t.textLen ≤ next.offset then s.pass.map (fun p => { p with reported := true }) else s.pass)) ∧
    (¬ storeRoom s items.length → ∃ h, let u := completeLine s t x items e next
      lineHeld s u h ∧ lineOf s x items.length h.record ∧ h.record.flags.hyphenated = e.hyphenated ∧
      h.record.flags.explicitHyphen = e.explicit ∧ h.record.flags.overset = e.overset ∧
      h.record.flags.paragraphEnd = e.paraEnd) := by
  have hl : ∀ base, (makeRecord x (s.comp.snap.getD x) base items e).items.length = items.length := fun base =>
    (makeRecord_lineOf s x base items e).2.2.2.2
  constructor
  · intro hr
    unfold completeLine
    simp only
    rw [offerLine_with_room _ _ _ _ (by simpa [hl] using hr)]
    obtain ⟨r, h1, h2, h3, h4, h5⟩ := appendLine_next s t x
      { record := makeRecord x (s.comp.snap.getD x) (match items.find? BuildItem.isBox with
          | some i => i.size
          | none => x.size) items e, next := next } ha
    refine ⟨r, h1, ?_, ?_, ?_, ?_, ?_, h3, h4, h5⟩
    · rw [h2]; exact makeRecord_lineOf s x _ items e
    all_goals rw [h2]; rfl
  · intro hr
    unfold completeLine
    simp only
    refine ⟨_, (offerLine_without_room s t x _ (by simpa [hl] using hr)).1, makeRecord_lineOf s x _ items e, rfl, rfl, rfl, rfl⟩

end Sys2Proof.Machine
end

