-- ==== Sys2Proof/Laws/Memory.lean ====
section
/-! SUPPORT. The copy store: its canonical form is kept by every operation on it, and a byte read is the byte last
written. -/

namespace Sys2Proof.Machine

theorem memAbove_mono {lo lo' : Nat} {m : List Host.Cell} (h : lo' ≤ lo) (k : memAbove lo m = true) :
    memAbove lo' m = true := by
  cases m with
  | nil => rfl
  | cons c m => simp only [memAbove, decide_eq_true_eq] at k ⊢; omega

theorem memWrite_above {lo : Nat} (m : List Host.Cell) {a : Nat} (b : Byte) (h : memAbove lo m = true)
    (w : memWf m = true) (ha : lo < a) : memAbove lo (memWrite m a b) = true := by
  cases m with
  | nil => unfold memWrite; split <;> simp [memAbove, ha]
  | cons c m =>
    obtain ⟨k, v⟩ := c
    simp only [memAbove, decide_eq_true_eq] at h
    simp only [memWf, Bool.and_eq_true] at w
    unfold memWrite
    split
    · split <;> simp [memAbove, ha, h]
    · split
      · split
        · exact memAbove_mono (by omega) w.1.2
        · simp [memAbove, ha]
      · simp [memAbove, h]

/-- Storing a byte keeps the canonical form. -/
theorem memWrite_wf (m : List Host.Cell) (a : Nat) (b : Byte) (w : memWf m = true) : memWf (memWrite m a b) = true := by
  induction m with
  | nil => unfold memWrite; split <;> simp_all [memWf, memAbove]
  | cons c m ih =>
    obtain ⟨k, v⟩ := c
    have w' := w
    simp only [memWf, Bool.and_eq_true, decide_eq_true_eq] at w
    unfold memWrite
    split
    · split
      · exact w'
      · next h hb =>
        have above : memAbove a ((k, v) :: m) = true := by simpa [memAbove] using h
        rw [memWf, above, w']; simp [hb]
    · split
      · split
        · exact w.2
        · next e hb => subst e; simp [memWf, hb, w.1.2, w.2]
      · next h1 h2 =>
        simp only [memWf, Bool.and_eq_true, decide_eq_true_eq]
        exact ⟨⟨w.1.1, memWrite_above m b w.1.2 w.2 (by omega)⟩, ih w.2⟩

/-- Storing a copy's bytes keeps the canonical form. -/
theorem storeCopy_wf (blocks : List Nat) (bs : List Byte) : ∀ (m : List Host.Cell) (n : Nat), memWf m = true →
    memWf (storeCopy m blocks n bs) = true := by
  induction bs with
  | nil => intro m n w; exact w
  | cons b bs ih =>
    intro m n w
    unfold storeCopy
    split
    · exact ih _ _ (memWrite_wf _ _ _ w)
    · exact ih _ _ w

/-- The copy store after power-on is in canonical form. -/
theorem reset_memWf : memWf State.reset.mem = true := rfl

theorem memRead_of_above {m : List Host.Cell} {lo a : Nat} (h : memAbove lo m = true) (w : memWf m = true)
    (ha : a ≤ lo) : memRead m a = blankByte := by
  induction m generalizing lo with
  | nil => rfl
  | cons c m ih =>
    obtain ⟨k, v⟩ := c
    simp only [memAbove, decide_eq_true_eq] at h
    simp only [memWf, Bool.and_eq_true] at w
    unfold memRead
    rw [if_neg (by omega)]
    exact ih w.1.2 w.2 (by omega)

/-- The byte read where one was stored is that byte. -/
theorem memRead_memWrite_same (m : List Host.Cell) (a : Nat) (b : Byte) (w : memWf m = true) :
    memRead (memWrite m a b) a = b := by
  induction m with
  | nil => unfold memWrite; split <;> simp_all [memRead]
  | cons c m ih =>
    obtain ⟨k, v⟩ := c
    simp only [memWf, Bool.and_eq_true] at w
    unfold memWrite
    split
    · next h =>
      split
      · next hb =>
        unfold memRead
        rw [if_neg (by omega), hb]
        exact memRead_of_above w.1.2 w.2 (by omega)
      · simp [memRead]
    · split
      · next h =>
        split
        · next hb => rw [hb]; exact memRead_of_above w.1.2 w.2 (by omega)
        · simp [memRead]
      · next h1 h2 =>
        unfold memRead
        rw [if_neg (by omega)]
        exact ih w.2

/-- Every other byte reads as before. -/
theorem memRead_memWrite_other (m : List Host.Cell) {a c : Nat} (b : Byte) (h : c ≠ a) :
    memRead (memWrite m a b) c = memRead m c := by
  induction m with
  | nil => unfold memWrite; split <;> simp [memRead, Ne.symm h]
  | cons d m ih =>
    obtain ⟨k, v⟩ := d
    unfold memWrite
    split
    · split
      · rfl
      · simp [memRead, Ne.symm h]
    · split
      · next e =>
        subst e
        split <;> simp [memRead, Ne.symm h]
      · simp [memRead, ih]

end Sys2Proof.Machine
end

