-- ==== Sys2Proof/Laws/Stays.lean ====
section
/-! SUPPORT. What the operations leave of the lines of the pass: the numbers of the store's lines, how far the Compositor has come
in the text, what the pass waits for, and which take is ACTIVE. One lemma for each operation that does no more; those that read
copy, set, append or remove lines, or start or end a pass have theirs in Pass.lean. -/

namespace Sys2Proof.Machine

/-- The lines have the numbers they had. -/
def NumbersKept (a l : List LineRecord) : Prop := l.map (fun r => r.number) = a.map (fun r => r.number)

theorem NumbersKept.rfl {a : List LineRecord} : NumbersKept a a := .refl _
theorem NumbersKept.map {a l : List LineRecord} (h : NumbersKept a l) {f : LineRecord → LineRecord} (k : ∀ r, (f r).number = r.number) :
    NumbersKept a (l.map f) := by
  unfold NumbersKept at *
  rw [List.map_map, ← h]
  exact List.map_congr_left fun r _ => k r

/-- The Compositor rests where it rested, and otherwise stands as far in the text, at the same next line. -/
def CompKept (c d : Compositor) : Prop :=
  (d.phase = .idle ↔ c.phase = .idle) ∧ ∀ x, c.phase ≠ .idle → c.ctx = some x →
    ∃ y, d.ctx = some y ∧ y.nextLine = x.nextLine ∧ ∀ n, lineAt c x n → lineAt d y n

theorem CompKept.rfl {c : Compositor} : CompKept c c := ⟨.rfl, fun x _ e => ⟨x, e, .refl _, fun _ => id⟩⟩
theorem CompKept.trans {a b c : Compositor} (h : CompKept a b) (k : CompKept b c) : CompKept a c := by
  refine ⟨k.1.trans h.1, fun x p e => ?_⟩
  obtain ⟨y, ey, ny, ly⟩ := h.2 x p e
  obtain ⟨z, ez, nz, lz⟩ := k.2 y (fun c => p (h.1.1 c)) ey
  exact ⟨z, ez, nz.trans ny, fun n i => lz n (ly n i)⟩

/-- The pass waits for no more of its ends than it did, or is over. -/
def PassKept (a p : Option Pass) : Prop :=
  ∀ q, p = some q → ∃ r, a = some r ∧ (q.killing = true → r.killing = true) ∧ (q.emptied = true → r.emptied = true) ∧
    ∀ k, q.park = some k → k.answered = true → ∃ j, r.park = some j ∧ j.answered = true

theorem PassKept.rfl {p : Option Pass} : PassKept p p := fun q e => ⟨q, e, id, id, fun k i j => ⟨k, i, j⟩⟩
theorem PassKept.none {a : Option Pass} : PassKept a none := fun _ e => nomatch e
theorem PassKept.map {a p : Option Pass} (h : PassKept a p) {f : Pass → Pass} (k : ∀ q, (f q).killing = true → q.killing = true)
    (l : ∀ q, (f q).emptied = true → q.emptied = true)
    (m : ∀ q j, (f q).park = some j → j.answered = true → ∃ i, q.park = some i ∧ i.answered = true) : PassKept a (p.map f) := by
  intro q e
  obtain ⟨r, rfl, rfl⟩ := Option.map_eq_some_iff.1 e
  obtain ⟨x, ex, a1, a2, a3⟩ := h r (.refl _)
  refine ⟨x, ex, a1 ∘ k r, a2 ∘ l r, fun j b c => ?_⟩
  obtain ⟨i, d, e⟩ := m r j b c
  exact a3 i d e

/-- A take is ACTIVE where one was, with as long a text. -/
def ActiveKept (l m : List Take) : Prop :=
  (m.find? (fun t => t.state == .active)).map Take.textLen = (l.find? (fun t => t.state == .active)).map Take.textLen

/-- The record `y` is ACTIVE where `x` is, with as long a text. -/
def TakeStays (x y : Take) : Prop := (y.state = .active ↔ x.state = .active) ∧ y.copyLen = x.copyLen ∧ y.preLen = x.preLen

theorem TakeStays.rfl {x : Take} : TakeStays x x := ⟨.rfl, .refl _, .refl _⟩
theorem ActiveKept.rfl {l : List Take} : ActiveKept l l := .refl _
theorem ActiveKept.map {a l : List Take} (h : ActiveKept a l) {g : Take → Take}
    (k : ∀ x ∈ l, ((g x).state = .active ↔ x.state = .active) ∧ (x.state = .active → (g x).textLen = x.textLen)) :
    ActiveKept a (l.map g) := by
  unfold ActiveKept at *
  rw [← h]
  clear h
  induction l with
  | nil => exact .refl _
  | cons x l ih =>
    rw [List.forall_mem_cons] at k
    rw [List.map_cons, List.find?_cons, List.find?_cons]
    by_cases c : x.state = .active
    · simp [c, k.1.1.2 c, k.1.2 c]
    · have : (g x).state ≠ .active := fun d => c (k.1.1.1 d)
      simp only [beq_eq_false_iff_ne.2 this, beq_eq_false_iff_ne.2 c]
      exact ih k.2
theorem TakeStays.both {x y : Take} (h : TakeStays x y) :
    (y.state = .active ↔ x.state = .active) ∧ (x.state = .active → y.textLen = x.textLen) :=
  ⟨h.1, fun _ => by unfold Take.textLen; rw [h.2.1, h.2.2]⟩

/-- What is kept of anything in `s` is kept in `t`. -/
abbrev Stays (s t : State) : Prop :=
  (∀ a, NumbersKept a s.store.records → NumbersKept a t.store.records) ∧ (∀ a, CompKept a s.comp → CompKept a t.comp) ∧
  (∀ a, PassKept a s.pass → PassKept a t.pass) ∧ (∀ a, ActiveKept a s.takes → ActiveKept a t.takes)

theorem Stays.rfl {s : State} : Stays s s := ⟨fun _ => id, fun _ => id, fun _ => id, fun _ => id⟩
theorem Stays.trans {s t u : State} (h : Stays s t) (k : Stays t u) : Stays s u :=
  ⟨fun a => k.1 a ∘ h.1 a, fun a => k.2.1 a ∘ h.2.1 a, fun a => k.2.2.1 a ∘ h.2.2.1 a, fun a => k.2.2.2 a ∘ h.2.2.2 a⟩

/-- None of the four changes. -/
theorem stays_of {s t : State} (a : t.store.records = s.store.records) (b : t.comp = s.comp) (c : t.pass = s.pass)
    (d : t.takes = s.takes) : Stays s t :=
  ⟨fun _ h => a ▸ h, fun _ h => b ▸ h, fun _ h => c ▸ h, fun _ h => d ▸ h⟩

theorem foldl_stays {α : Type} (f : State → α → State) (h : ∀ s a, Stays s (f s a)) (l : List α) :
    ∀ s, Stays s (l.foldl f s) := by
  induction l with
  | nil => intro s; exact Stays.rfl
  | cons a l ih => intro s; exact (h s a).trans (ih _)

@[simp] theorem passKept_map {a p : Option Pass} {f : Pass → Pass} (k : ∀ q, (f q).killing = true → q.killing = true)
    (l : ∀ q, (f q).emptied = true → q.emptied = true)
    (m : ∀ q j, (f q).park = some j → j.answered = true → ∃ i, q.park = some i ∧ i.answered = true)
    (h : PassKept a p) : PassKept a (p.map f) := h.map k l m
@[simp] theorem numbersKept_map {a l : List LineRecord} {f : LineRecord → LineRecord} (k : ∀ r, (f r).number = r.number)
    (h : NumbersKept a l) : NumbersKept a (l.map f) := h.map k

/-- The lines of the pass are as sound as they were. -/
theorem Stays.lines {s t : State} (k : Stays s t) (h : linesOk s) : linesOk t := by
  have kn := k.1 _ NumbersKept.rfl
  have kc := k.2.1 _ CompKept.rfl
  have kp := k.2.2.1 _ PassKept.rfl
  have ka := k.2.2.2 _ ActiveKept.rfl
  have rest : resting s → resting t := fun ⟨a, b⟩ => ⟨by unfold NumbersKept at kn; simpa [a] using kn, kc.1.2 b⟩
  have len : t.store.records.length = s.store.records.length := by
    have := congrArg List.length kn
    simpa using this
  obtain ⟨⟨n, n1, n2, e, ph⟩, none, pass⟩ := h
  refine ⟨⟨n, n1, by omega, ?_, fun p => ?_⟩, fun z => rest (none ?_), fun q eq => ?_⟩
  · have : t.store.records.map (fun r => r.number) = s.store.records.map (fun r => r.number) := kn
    rw [this, len, e]
  · have ps : s.comp.phase ≠ .idle := fun c => p (kc.1.2 c)
    obtain ⟨x, u, ex, eu, nx, lx⟩ := ph ps
    obtain ⟨y, ey, ny, ly⟩ := kc.2 x ps ex
    have au : t.active?.map Take.textLen = s.active?.map Take.textLen := ka
    rw [eu] at au
    obtain ⟨v, ev, lv⟩ := Option.map_eq_some_iff.1 au
    exact ⟨y, v, ey, ev, by rw [ny, nx, len], lv ▸ ly _ lx⟩
  · have au : t.active?.map Take.textLen = s.active?.map Take.textLen := ka
    rw [z] at au
    exact Option.map_eq_none_iff.1 au.symm
  · obtain ⟨r, er, a1, a2, a3⟩ := kp q eq
    obtain ⟨b1, b2, b3⟩ := pass r er
    refine ⟨fun c => kc.1.2 (b1 (a1 c)), fun c => rest (b2 (a2 c)), fun j ej c => ?_⟩
    obtain ⟨i, ei, ci⟩ := a3 j ej c
    exact rest (b3 i ei ci)

theorem State.modTake_stays (s k) {f} (i : ∀ x, TakeStays x (f x)) : Stays s (State.modTake s k f) := by
  refine ⟨fun _ => id, fun _ => id, fun _ => id, fun _ h => h.map fun x _ => ?_⟩
  split
  · exact (i x).both
  · exact TakeStays.rfl.both

theorem State.modActive_stays (s) {f} (i : ∀ x, TakeStays x (f x)) : Stays s (State.modActive s f) := by
  refine ⟨fun _ => id, fun _ => id, fun _ => id, fun _ h => h.map fun x _ => ?_⟩
  split
  · exact (i x).both
  · exact TakeStays.rfl.both

theorem State.modPass_stays (s) {f} (k : ∀ q, (f q).killing = true → q.killing = true)
    (l : ∀ q, (f q).emptied = true → q.emptied = true)
    (m : ∀ q j, (f q).park = some j → j.answered = true → ∃ i, q.park = some i ∧ i.answered = true) :
    Stays s (State.modPass s f) := ⟨fun _ => id, fun _ => id, fun _ h => h.map k l m, fun _ => id⟩

theorem modComp_stays (s) {f} (k : CompKept s.comp (f s.comp)) : Stays s (modComp s f) :=
  ⟨fun _ => id, fun _ h => h.trans k, fun _ => id, fun _ => id⟩

/-- Where the Compositor stands depends on its next line and offset alone. -/
theorem lineAt_congr {c : Compositor} {x y : Context} {n : Nat} (a : y.nextLine = x.nextLine) (b : y.resume = x.resume)
    (h : lineAt c x n) : lineAt c y n := by
  unfold lineAt at *; rw [a, b]; exact h

theorem modCtx_stays (s) {f : Context → Context} (k : ∀ x, (f x).nextLine = x.nextLine ∧ (f x).resume = x.resume) :
    Stays s (modCtx s f) := by
  refine modComp_stays s ⟨.rfl, fun x _ e => ⟨f x, by simp [e], (k x).1, fun n h => ?_⟩⟩
  exact lineAt_congr (k x).1 (k x).2 h

@[simp] theorem lookup_stays (s f c) : Stays s (lookup s f c).2 := by
  unfold lookup; dsimp only; (repeat' split) <;> exact Stays.rfl

@[simp] theorem State.noteMoment_stays (s) : Stays s (State.noteMoment s) := by
  unfold State.noteMoment
  refine ⟨fun a h => ?_, fun a h => ?_, fun a h => ?_, fun a h => ?_⟩ <;> (try dsimp only) <;> (repeat' split) <;>
    first | exact h | simp (maxDischargeDepth := 12) [h, TakeStays]

@[simp] theorem putFrame_stays (s f) : Stays s (putFrame s f) := by
  unfold putFrame
  refine ⟨fun a h => ?_, fun a h => ?_, fun a h => ?_, fun a h => ?_⟩ <;> (try dsimp only) <;> (repeat' split) <;>
    first | exact h | simp (maxDischargeDepth := 12) [h, TakeStays]

@[simp] theorem produce_stays (s k b) : Stays s (produce s k b) := by
  unfold produce
  refine ⟨fun a h => ?_, fun a h => ?_, fun a h => ?_, fun a h => ?_⟩ <;> (try dsimp only) <;> (repeat' split) <;>
    first | exact h | simp (maxDischargeDepth := 12) [h, TakeStays]

@[simp] theorem giveRoom_stays (s) : Stays s (giveRoom s) := by
  unfold giveRoom
  refine ⟨fun a h => ?_, fun a h => ?_, fun a h => ?_, fun a h => ?_⟩ <;> (try dsimp only) <;> (repeat' split) <;>
    first | exact h | simp (maxDischargeDepth := 12) [h, TakeStays]

@[simp] theorem withdraw_stays (s p) : Stays s (withdraw s p) := by
  unfold withdraw
  refine ⟨fun a h => ?_, fun a h => ?_, fun a h => ?_, fun a h => ?_⟩ <;> (try dsimp only) <;> (repeat' split) <;>
    first | exact h | simp (maxDischargeDepth := 12) [h, TakeStays]

@[simp] theorem cancelWindows_stays (s p) : Stays s (cancelWindows s p) := by
  unfold cancelWindows
  refine ⟨fun a h => ?_, fun a h => ?_, fun a h => ?_, fun a h => ?_⟩ <;> (try dsimp only) <;> (repeat' split) <;>
    first | exact h | simp (maxDischargeDepth := 12) [h, TakeStays]

@[simp] theorem endWindow_stays (s p) : Stays s (endWindow s p) := by
  unfold endWindow
  refine ⟨fun a h => ?_, fun a h => ?_, fun a h => ?_, fun a h => ?_⟩ <;> (try dsimp only) <;> (repeat' split) <;>
    first | exact h | simp (maxDischargeDepth := 12) [h, TakeStays]

@[simp] theorem startWatch_stays (s p) : Stays s (startWatch s p) := by
  unfold startWatch
  refine ⟨fun a h => ?_, fun a h => ?_, fun a h => ?_, fun a h => ?_⟩ <;> (try dsimp only) <;> (repeat' split) <;>
    first | exact h | simp (maxDischargeDepth := 12) [h, TakeStays]

@[simp] theorem endWatch_stays (s p) : Stays s (endWatch s p) := by
  unfold endWatch
  refine ⟨fun a h => ?_, fun a h => ?_, fun a h => ?_, fun a h => ?_⟩ <;> (try dsimp only) <;> (repeat' split) <;>
    first | exact h | simp (maxDischargeDepth := 12) [h, TakeStays]

@[simp] theorem countBad_stays (s) : Stays s (countBad s) := by
  unfold countBad
  refine ⟨fun a h => ?_, fun a h => ?_, fun a h => ?_, fun a h => ?_⟩ <;> (try dsimp only) <;> (repeat' split) <;>
    first | exact h | simp (maxDischargeDepth := 12) [h, TakeStays]

@[simp] theorem countBroken_stays (s) : Stays s (countBroken s) := by
  unfold countBroken
  refine ⟨fun a h => ?_, fun a h => ?_, fun a h => ?_, fun a h => ?_⟩ <;> (try dsimp only) <;> (repeat' split) <;>
    first | exact h | simp (maxDischargeDepth := 12) [h, TakeStays]

@[simp] theorem setFilm_stays (s n known) : Stays s (setFilm s n known) := by
  unfold setFilm
  refine ⟨fun a h => ?_, fun a h => ?_, fun a h => ?_, fun a h => ?_⟩ <;> dsimp only <;> split <;> first | exact h | simp [h]

@[simp] theorem lowerFilm_stays (s n k) : Stays s (setFilm s (s.film.remaining - n) k) := by
  unfold setFilm
  refine ⟨fun a h => ?_, fun a h => ?_, fun a h => ?_, fun a h => ?_⟩ <;> (try dsimp only) <;> (repeat' split) <;>
    first | exact h | simp (maxDischargeDepth := 12) [h, TakeStays]

@[simp] theorem ask_stays (s font) : Stays s (ask s font) := by
  unfold ask
  refine ⟨fun a h => ?_, fun a h => ?_, fun a h => ?_, fun a h => ?_⟩ <;> (try dsimp only) <;> (repeat' split) <;>
    first | exact h | simp (maxDischargeDepth := 12) [h, TakeStays]

@[simp] theorem endAsk_stays (s font) : Stays s (endAsk s font) := by
  unfold endAsk
  refine ⟨fun a h => ?_, fun a h => ?_, fun a h => ?_, fun a h => ?_⟩ <;> (try dsimp only) <;> (repeat' split) <;>
    first | exact h | simp (maxDischargeDepth := 12) [h, TakeStays]

@[simp] theorem reAskFont_stays (s font) : Stays s (reAskFont s font) := by
  unfold reAskFont
  refine ⟨fun a h => ?_, fun a h => ?_, fun a h => ?_, fun a h => ?_⟩ <;> (try dsimp only) <;> (repeat' split) <;>
    first | exact h | simp (maxDischargeDepth := 12) [h, TakeStays]

@[simp] theorem claimFont_stays (s font) : Stays s (claimFont s font) := by
  unfold claimFont
  refine ⟨fun a h => ?_, fun a h => ?_, fun a h => ?_, fun a h => ?_⟩ <;> (try dsimp only) <;> (repeat' split) <;>
    first | exact h | simp (maxDischargeDepth := 12) [h, TakeStays]

@[simp] theorem claimFonts_stays (s fonts) : Stays s (claimFonts s fonts) := foldl_stays _ (fun s f => claimFont_stays s f) _ s

@[simp] theorem unpinFont_stays (s font) : Stays s (unpinFont s font) := by
  unfold unpinFont
  refine ⟨fun a h => ?_, fun a h => ?_, fun a h => ?_, fun a h => ?_⟩ <;> (try dsimp only) <;> (repeat' split) <;>
    first | exact h | simp (maxDischargeDepth := 12) [h, TakeStays]

@[simp] theorem unpinFonts_stays (s fonts) : Stays s (unpinFonts s fonts) := foldl_stays _ (fun s f => unpinFont_stays s f) _ s

@[simp] theorem markReady_stays (s) : Stays s (markReady s) := by
  refine ⟨fun _ => id, fun _ => id, fun _ => id, fun _ h => h.map fun x _ => ?_⟩
  exact TakeStays.rfl.both

@[simp] theorem askEnded_stays (s font) : Stays s (askEnded s font) := by
  refine ⟨fun _ => id, fun _ => id, fun _ => id, fun _ h => h.map fun x _ => ?_⟩
  exact TakeStays.rfl.both

@[simp] theorem fillSlot_stays (s i sl font revision widths) : Stays s (fillSlot s i sl font revision widths) := by
  unfold fillSlot
  refine ⟨fun a h => ?_, fun a h => ?_, fun a h => ?_, fun a h => ?_⟩ <;> (try dsimp only) <;> (repeat' split) <;>
    first | exact h | simp (maxDischargeDepth := 12) [h, TakeStays]

@[simp] theorem replaceTable_stays (s i sl font revision widths) : Stays s (replaceTable s i sl font revision widths) := by
  unfold replaceTable
  refine Stays.trans ?_ (State.modActive_stays _ fun x => ?_)
  · exact stays_of rfl rfl rfl rfl
  · split <;> exact .rfl

@[simp] theorem tableToSlot_stays (s font revision widths) : Stays s (tableToSlot s font revision widths) := by
  unfold tableToSlot
  refine ⟨fun a h => ?_, fun a h => ?_, fun a h => ?_, fun a h => ?_⟩ <;> (try dsimp only) <;> (repeat' split) <;>
    first | exact h | simp (maxDischargeDepth := 12) [h, TakeStays]

@[simp] theorem tableToWindows_stays (s font revision) : Stays s (tableToWindows s font revision) := by
  unfold tableToWindows
  refine ⟨fun a h => ?_, fun a h => ?_, fun a h => ?_, fun a h => ?_⟩ <;> (try dsimp only) <;> (repeat' split) <;>
    first | exact h | simp (maxDischargeDepth := 12) [h, TakeStays]

@[simp] theorem openWindow_stays (s w n f) : Stays s (openWindow s w n f) := by
  unfold openWindow
  refine ⟨fun a h => ?_, fun a h => ?_, fun a h => ?_, fun a h => ?_⟩ <;> dsimp only <;> (repeat' split) <;>
    first | exact h | simp [h]

@[simp] theorem hearAsk_stays (s font) : Stays s (hearAsk s font) := by
  unfold hearAsk
  refine ⟨fun a h => ?_, fun a h => ?_, fun a h => ?_, fun a h => ?_⟩ <;> (try dsimp only) <;> (repeat' split) <;>
    first | exact h | simp (maxDischargeDepth := 12) [h, TakeStays]

@[simp] theorem expireWindow_stays (s x) : Stays s (expireWindow s x) := by
  unfold expireWindow
  refine ⟨fun a h => ?_, fun a h => ?_, fun a h => ?_, fun a h => ?_⟩ <;> (try dsimp only) <;> (repeat' split) <;>
    first | exact h | simp (maxDischargeDepth := 12) [h, TakeStays]

@[simp] theorem warmUp_stays (s) : Stays s (warmUp s) := by
  unfold warmUp
  refine ⟨fun a h => ?_, fun a h => ?_, fun a h => ?_, fun a h => ?_⟩ <;> (try dsimp only) <;> (repeat' split) <;>
    first | exact h | simp (maxDischargeDepth := 12) [h, TakeStays]

@[simp] theorem lampOff_stays (s) : Stays s (lampOff s) := by
  unfold lampOff
  refine ⟨fun a h => ?_, fun a h => ?_, fun a h => ?_, fun a h => ?_⟩ <;> (try dsimp only) <;> (repeat' split) <;>
    first | exact h | simp (maxDischargeDepth := 12) [h, TakeStays]

@[simp] theorem warmUpExpires_stays (s) : Stays s (warmUpExpires s) := by
  unfold warmUpExpires
  refine ⟨fun a h => ?_, fun a h => ?_, fun a h => ?_, fun a h => ?_⟩ <;> (try dsimp only) <;> (repeat' split) <;>
    first | exact h | simp (maxDischargeDepth := 12) [h, TakeStays]

@[simp] theorem examineStranded_stays (s) : Stays s (examineStranded s) := by
  refine ⟨fun _ => id, fun _ => id, fun _ => id, fun _ h => h.map fun x _ => ?_⟩
  split
  · next c =>
    have c : x.state = .stranded := by simp at c; exact c.1
    simp [Take.unstranded, Take.queued, c]
  · exact TakeStays.rfl.both

/-- A Compositor PAUSED or SETTING stands where it stood. -/
theorem compKept_phase {c : Compositor} {p : CompPhase} (h : (c.phase = .setting ∨ c.phase = .paused) ∧ (p = .setting ∨ p = .paused)) :
    CompKept c { c with phase := p } := by
  obtain ⟨a, b⟩ := h
  refine ⟨by rcases a with a | a <;> rcases b with b | b <;> simp [a, b], fun x _ e => ⟨x, e, rfl, fun n k => ?_⟩⟩
  rcases a with a | a <;> rcases b with b | b <;> simp only [lineAt, a, b] at k ⊢ <;> exact k

@[simp] theorem enterRun_stays (s) : Stays s (enterRun s) := by
  unfold enterRun
  refine Stays.trans ?_ (examineStranded_stays _)
  refine ⟨fun _ => id, fun _ h => h.trans ?_, fun _ => id, fun _ => id⟩
  dsimp only
  split
  · next c => exact compKept_phase ⟨.inr c, .inl rfl⟩
  · exact .rfl

@[simp] theorem wake_stays (s) : Stays s (wake s) := by
  unfold wake
  refine ⟨fun a h => ?_, fun a h => ?_, fun a h => ?_, fun a h => ?_⟩ <;> (try dsimp only) <;> (repeat' split) <;>
    first | exact h | simp (maxDischargeDepth := 12) [h, TakeStays]

@[simp] theorem markTakes_stays (s r p) : Stays s (markTakes s r p) := by
  refine ⟨fun _ => id, fun _ => id, fun _ => id, fun _ h => h.map fun x _ => ?_⟩
  unfold Take.mark
  (repeat' split) <;> exact TakeStays.rfl.both

@[simp] theorem closeClaims_stays (s) : Stays s (closeClaims s) := by
  unfold closeClaims
  refine ⟨fun a h => ?_, fun a h => ?_, fun a h => ?_, fun a h => ?_⟩ <;> (try dsimp only) <;> (repeat' split) <;>
    first | exact h | simp (maxDischargeDepth := 12) [h, TakeStays]

@[simp] theorem requestPark_stays (s reason) : Stays s (requestPark s reason) := by
  unfold requestPark
  refine State.modPass_stays s (fun q => ?_) (fun q => ?_) (fun q j => ?_) <;> unfold Pass.requestPark <;> (repeat' split) <;>
    first | exact id | exact fun e c => ⟨j, e, c⟩ | skip
  · next i e _ => intro f c; injection f with f; subst f; exact ⟨i, e, c⟩
  · intro f c; injection f with f; subst f; exact nomatch c

@[simp] theorem recordStop_stays (s t line kind font door toHold) : Stays s (recordStop s t line kind font door toHold) := by
  have k : Stays s (match line with
      | some l => s.modTake t.key (fun x => { x with lineStop := some (l, t.stopCount line) })
      | none => s) := by
    split
    · exact State.modTake_stays _ _ fun _ => .rfl
    · exact Stays.rfl
  unfold recordStop
  dsimp only
  split
  · refine k.trans (Stays.trans ?_ (requestPark_stays _ _))
    exact stays_of rfl rfl rfl rfl
  · split <;>
    · refine k.trans ((State.noteMoment_stays _).trans ((closeClaims_stays _).trans (Stays.trans ?_ (produce_stays _ _ _))))
      exact stays_of rfl rfl rfl rfl

@[simp] theorem raiseStop_stays (s kind font door) : Stays s (raiseStop s kind font door) := by
  unfold raiseStop
  refine ⟨fun a h => ?_, fun a h => ?_, fun a h => ?_, fun a h => ?_⟩ <;> (try dsimp only) <;> (repeat' split) <;>
    first | exact h | simp (maxDischargeDepth := 12) [h, TakeStays]

@[simp] theorem leaveStopped_stays (s r) : Stays s (leaveStopped s r) := by
  unfold leaveStopped
  refine ⟨fun a h => ?_, fun a h => ?_, fun a h => ?_, fun a h => ?_⟩ <;> (try dsimp only) <;> (repeat' split) <;>
    first | exact h | simp (maxDischargeDepth := 12) [h, TakeStays]

@[simp] theorem clearStop_stays (s) : Stays s (clearStop s) := by
  unfold clearStop
  refine ⟨fun a h => ?_, fun a h => ?_, fun a h => ?_, fun a h => ?_⟩ <;> (try dsimp only) <;> (repeat' split) <;>
    first | exact h | simp (maxDischargeDepth := 12) [h, TakeStays]

@[simp] theorem dropStop_stays (s k) : Stays s (dropStop s k) := by
  unfold dropStop
  refine ⟨fun a h => ?_, fun a h => ?_, fun a h => ?_, fun a h => ?_⟩ <;> (try dsimp only) <;> (repeat' split) <;>
    first | exact h | simp (maxDischargeDepth := 12) [h, TakeStays]

@[simp] theorem takeFault_stays (s kind mech) : Stays s (takeFault s kind mech) := by
  unfold takeFault
  refine ⟨fun a h => ?_, fun a h => ?_, fun a h => ?_, fun a h => ?_⟩ <;> (try dsimp only) <;> (repeat' split) <;>
    first | exact h | simp (maxDischargeDepth := 12) [h, TakeStays]

@[simp] theorem furtherFault_stays (s kind mech) : Stays s (furtherFault s kind mech) := by
  unfold furtherFault
  refine ⟨fun a h => ?_, fun a h => ?_, fun a h => ?_, fun a h => ?_⟩ <;> (try dsimp only) <;> (repeat' split) <;>
    first | exact h | simp (maxDischargeDepth := 12) [h, TakeStays]

@[simp] theorem enterHalt_stays (s mech atClear) : Stays s (enterHalt s mech atClear) := by
  unfold enterHalt
  refine ⟨fun a h => ?_, fun a h => ?_, fun a h => ?_, fun a h => ?_⟩ <;> (try dsimp only) <;> (repeat' split) <;>
    first | exact h | simp (maxDischargeDepth := 12) [h, TakeStays]

@[simp] theorem reportFault_stays (s kind mech) : Stays s (reportFault s kind mech) := by
  unfold reportFault
  refine ⟨fun a h => ?_, fun a h => ?_, fun a h => ?_, fun a h => ?_⟩ <;> (try dsimp only) <;> (repeat' split) <;>
    first | exact h | simp (maxDischargeDepth := 12) [h, TakeStays]

@[simp] theorem closeGalley_stays (s m) : Stays s (closeGalley s m) := by
  unfold closeGalley
  split
  · next g _ =>
    exact (State.modTake_stays s g.key (f := fun t => { t with counters := { t.counters with
      galleys := satAdd Config.top16 t.counters.galleys 1
      filmUsed := satAdd Config.top24 t.counters.filmUsed g.length } }) fun _ => .rfl).trans
      ⟨fun _ => id, fun _ => id, fun _ => id, fun _ => id⟩
  · exact Stays.rfl

@[simp] theorem growGalley_stays (s n) : Stays s (growGalley s n) := by
  unfold growGalley
  refine ⟨fun a h => ?_, fun a h => ?_, fun a h => ?_, fun a h => ?_⟩ <;> (try dsimp only) <;> (repeat' split) <;>
    first | exact h | simp (maxDischargeDepth := 12) [h, TakeStays]

@[simp] theorem cutDone_stays (s c) : Stays s (cutDone s c) := by
  unfold cutDone
  split <;> first
    | exact State.modPass_stays _ (fun _ => id) (fun _ => id) fun q j e c => ⟨j, e, c⟩
    | exact stays_of rfl rfl rfl rfl

@[simp] theorem askCut_stays (s c) : Stays s (askCut s c) := by
  unfold askCut
  refine ⟨fun a h => ?_, fun a h => ?_, fun a h => ?_, fun a h => ?_⟩ <;> (try dsimp only) <;> (repeat' split) <;>
    first | exact h | simp (maxDischargeDepth := 12) [h, TakeStays]

@[simp] theorem finishCut_stays (s c uncut) : Stays s (finishCut s c uncut) := by
  unfold finishCut
  refine ⟨fun a h => ?_, fun a h => ?_, fun a h => ?_, fun a h => ?_⟩ <;> (try dsimp only) <;> (repeat' split) <;>
    first | exact h | simp (maxDischargeDepth := 12) [h, TakeStays]

@[simp] theorem toCutter_stays (s c) : Stays s (toCutter s c) := by
  unfold toCutter
  refine ⟨fun a h => ?_, fun a h => ?_, fun a h => ?_, fun a h => ?_⟩ <;> (try dsimp only) <;> (repeat' split) <;>
    first | exact h | simp (maxDischargeDepth := 12) [h, TakeStays]

@[simp] theorem beginCut_stays (s c) : Stays s (beginCut s c) := by
  unfold beginCut
  refine ⟨fun a h => ?_, fun a h => ?_, fun a h => ?_, fun a h => ?_⟩ <;> (try dsimp only) <;> (repeat' split) <;>
    first | exact h | simp (maxDischargeDepth := 12) [h, TakeStays]

@[simp] theorem openGalley_stays (s key line) : Stays s (openGalley s key line) := by
  refine ⟨fun _ => id, fun _ h => h.trans ⟨.rfl, fun x _ e => ?_⟩, fun _ => id, fun _ => id⟩
  exact ⟨{ x with galleySeq := s.film.nextSeq.getD 1 }, by simp [openGalley, e], rfl, fun n k => lineAt_congr rfl rfl k⟩
@[simp] theorem beginAdvance_stays (s key line leading) : Stays s (beginAdvance s key line leading) := by
  have o : Stays s (if s.film.galley.isNone then openGalley s key line else s) := by
    split
    · exact openGalley_stays _ _ _
    · exact Stays.rfl
  unfold beginAdvance
  generalize (if s.film.galley.isNone = true then openGalley s key line else s) = u at o ⊢
  dsimp only
  split
  · exact o
  · refine o.trans ((setFilm_stays u (u.film.remaining - 5 * leading) u.film.known).trans
      ((growGalley_stays _ (5 * leading)).trans ?_))
    exact ⟨fun _ => id, fun _ => id, fun _ => id, fun _ => id⟩

@[simp] theorem dropRequest_stays (s) : Stays s (dropRequest s) := by
  unfold dropRequest
  refine ⟨fun a h => ?_, fun a h => ?_, fun a h => ?_, fun a h => ?_⟩ <;> (try dsimp only) <;> (repeat' split) <;>
    first | exact h | simp (maxDischargeDepth := 12) [h, TakeStays]

@[simp] theorem produceManifest_stays (s) : Stays s (produceManifest s) :=
  (foldl_stays _ (fun st (p : List Galley × Nat) => produce_stays st none _) _ s).trans (stays_of rfl rfl rfl rfl)

@[simp] theorem loadCassette_stays (s code) : Stays s (loadCassette s code) := by
  unfold loadCassette
  refine ⟨fun a h => ?_, fun a h => ?_, fun a h => ?_, fun a h => ?_⟩ <;> (try dsimp only) <;> (repeat' split) <;>
    first | exact h | simp (maxDischargeDepth := 12) [h, TakeStays]

@[simp] theorem State.count_stays (s f) : Stays s (State.count s f) := State.modActive_stays _ fun _ => .rfl

@[simp] theorem addCopyErrors_stays (s n) : Stays s (addCopyErrors s n) := by
  unfold addCopyErrors
  refine ⟨fun a h => ?_, fun a h => ?_, fun a h => ?_, fun a h => ?_⟩ <;> (try dsimp only) <;> (repeat' split) <;>
    first | exact h | simp (maxDischargeDepth := 12) [h, TakeStays]

@[simp] theorem addClamped_stays (s n) : Stays s (addClamped s n) := by
  unfold addClamped
  refine ⟨fun a h => ?_, fun a h => ?_, fun a h => ?_, fun a h => ?_⟩ <;> (try dsimp only) <;> (repeat' split) <;>
    first | exact h | simp (maxDischargeDepth := 12) [h, TakeStays]

@[simp] theorem addSubstituted_stays (s n) : Stays s (addSubstituted s n) := by
  unfold addSubstituted
  refine ⟨fun a h => ?_, fun a h => ?_, fun a h => ?_, fun a h => ?_⟩ <;> (try dsimp only) <;> (repeat' split) <;>
    first | exact h | simp (maxDischargeDepth := 12) [h, TakeStays]

@[simp] theorem modPend_stays (s f) : Stays s (modPend s f) :=
  modComp_stays _ ⟨.rfl, fun x _ e => ⟨x, e, rfl, fun _ k => k⟩⟩

theorem setLevel_stays (s later) {now : Context → Context} (k : ∀ x, (now x).nextLine = x.nextLine ∧ (now x).resume = x.resume) :
    Stays s (setLevel s now later) := by
  unfold setLevel
  split
  · exact modPend_stays _ _
  · exact modCtx_stays _ k

@[simp] theorem takeFont_stays (s t font) : Stays s (takeFont s t font) := by
  unfold takeFont
  split
  · exact modCtx_stays _ fun _ => ⟨rfl, rfl⟩
  · exact addCopyErrors_stays _ _

@[simp] theorem takeSizeCommand_stays (s n) : Stays s (takeSizeCommand s n) := by
  refine ((addClamped_stays _ _).trans (addSubstituted_stays _ _)).trans (Stays.trans (modCtx_stays _ fun _ => ?_)
    (modComp_stays _ ⟨.rfl, fun x _ e => ⟨x, e, rfl, fun _ k => k⟩⟩))
  exact ⟨rfl, rfl⟩

@[simp] theorem takeLead_stays (s n) : Stays s (takeLead s n) :=
  (addClamped_stays _ _).trans (setLevel_stays _ _ fun _ => ⟨rfl, rfl⟩)

@[simp] theorem takeMeasure_stays (s picas points) : Stays s (takeMeasure s picas points) := by
  refine (addClamped_stays _ _).trans (setLevel_stays _ _ fun x => ?_)
  unfold withMeasure
  split <;> exact ⟨rfl, rfl⟩

@[simp] theorem takeIndent_stays (s n) : Stays s (takeIndent s n) :=
  (addClamped_stays _ _).trans (setLevel_stays _ _ fun _ => ⟨rfl, rfl⟩)

@[simp] theorem takeSpaceband_stays (s mn op mx) : Stays s (takeSpaceband s mn op mx) :=
  (addClamped_stays _ _).trans (setLevel_stays _ _ fun _ => ⟨rfl, rfl⟩)

@[simp] theorem takeLetterspace_stays (s n) : Stays s (takeLetterspace s n) :=
  (addClamped_stays _ _).trans (setLevel_stays _ _ fun _ => ⟨rfl, rfl⟩)

@[simp] theorem takeLadder_stays (s n) : Stays s (takeLadder s n) :=
  (addClamped_stays _ _).trans (setLevel_stays _ _ fun _ => ⟨rfl, rfl⟩)

@[simp] theorem takeMode_stays (s n) : Stays s (takeMode s n) := by
  unfold takeMode
  split
  · exact setLevel_stays _ _ fun _ => ⟨rfl, rfl⟩
  · exact addCopyErrors_stays _ _

@[simp] theorem takeHyph_stays (s n) : Stays s (takeHyph s n) := setLevel_stays _ _ fun _ => ⟨rfl, rfl⟩

@[simp] theorem takeCaps_stays (s n) : Stays s (takeCaps s n) := setLevel_stays _ _ fun _ => ⟨rfl, rfl⟩

@[simp] theorem takeDisc_stays (s) : Stays s (takeDisc s) :=
  modComp_stays _ ⟨.rfl, fun x _ e => ⟨x, e, rfl, fun _ k => k⟩⟩

theorem takeLine_stays {s t} (e : takeLine s = some t) : Stays s t := by
  unfold takeLine at e
  (repeat' split at e) <;> first
    | (injection e with e; subst e; refine ⟨fun a h => ?_, fun a h => ?_, fun a h => ?_, fun a h => ?_⟩ <;> (try dsimp only) <;> (repeat' split) <;>
        first | exact h | simp (maxDischargeDepth := 12) [h, TakeStays])
    | simp at e

theorem beginChar_stays {s t} (e : beginChar s = some t) : Stays s t := by
  unfold beginChar at e
  (repeat' split at e) <;> first
    | (injection e with e; subst e; refine ⟨fun a h => ?_, fun a h => ?_, fun a h => ?_, fun a h => ?_⟩ <;> (try dsimp only) <;> (repeat' split) <;>
        first | exact h | simp (maxDischargeDepth := 12) [h, TakeStays])
    | simp at e

@[simp] theorem charSent_stays (s) : Stays s (charSent s) := by
  unfold charSent
  refine ⟨fun a h => ?_, fun a h => ?_, fun a h => ?_, fun a h => ?_⟩ <;> (try dsimp only) <;> (repeat' split) <;>
    first | exact h | simp (maxDischargeDepth := 12) [h, TakeStays]

@[simp] theorem clearProof_stays (s n) : Stays s (clearProof s n) := by
  refine ⟨fun _ h => h.map fun r => ?_, fun _ => id, fun _ => id, fun _ => id⟩
  split <;> rfl

@[simp] theorem lineSent_stays (s) : Stays s (lineSent s) := by
  unfold lineSent
  refine ⟨fun a h => ?_, fun a h => ?_, fun a h => ?_, fun a h => ?_⟩ <;> (try dsimp only) <;> (repeat' split) <;>
    first | exact h | simp (maxDischargeDepth := 12) [h, TakeStays]

@[simp] theorem dropProof_stays (s) : Stays s (dropProof s) := by
  have k : Stays s { s with store := { s.store with records := s.store.records.map (fun r => { r with proofPending := false }) } } :=
    ⟨fun _ h => h.map fun _ => rfl, fun _ => id, fun _ => id, fun _ => id⟩
  have k1 := k.trans (State.modActive_stays _ (f := fun t => { t with proofDropped := true }) fun _ => .rfl)
  unfold dropProof
  dsimp only
  split
  · exact k1.trans (State.modActive_stays _ fun _ => .rfl)
  · exact k1.trans (State.modActive_stays _ fun _ => .rfl)
  · exact k1

@[simp] theorem paperBegins_stays (s) : Stays s (paperBegins s) := by
  unfold paperBegins
  refine ⟨fun a h => ?_, fun a h => ?_, fun a h => ?_, fun a h => ?_⟩ <;> (try dsimp only) <;> (repeat' split) <;>
    first | exact h | simp (maxDischargeDepth := 12) [h, TakeStays]

@[simp] theorem paperEnds_stays (s) : Stays s (paperEnds s) := by
  unfold paperEnds
  refine ⟨fun a h => ?_, fun a h => ?_, fun a h => ?_, fun a h => ?_⟩ <;> (try dsimp only) <;> (repeat' split) <;>
    first | exact h | simp (maxDischargeDepth := 12) [h, TakeStays]

@[simp] theorem paperChange_stays (s s') : Stays s' (paperChange s s') := by
  unfold paperChange
  split
  · exact paperBegins_stays _
  · exact paperEnds_stays _
  · exact Stays.rfl

@[simp] theorem setPaper_stays (s present) : Stays s (setPaper s present) := by
  refine Stays.trans ?_ (paperChange_stays _ _)
  exact stays_of rfl rfl rfl rfl

@[simp] theorem setBusy_stays (s asserted) : Stays s (setBusy s asserted) := by
  refine Stays.trans ?_ (paperChange_stays _ _)
  exact stays_of rfl rfl rfl rfl

@[simp] theorem busyStall_stays (s) : Stays s (busyStall s) := by
  unfold busyStall
  split
  · refine Stays.trans ?_ (paperChange_stays _ _)
    exact stays_of rfl rfl rfl rfl
  · exact Stays.rfl

@[simp] theorem modExp_stays (s f) : Stays s (modExp s f) := by
  unfold modExp
  refine ⟨fun a h => ?_, fun a h => ?_, fun a h => ?_, fun a h => ?_⟩ <;> (try dsimp only) <;> (repeat' split) <;>
    first | exact h | simp (maxDischargeDepth := 12) [h, TakeStays]

@[simp] theorem modCur_stays (s f) : Stays s (modCur s f) := by
  unfold modCur
  refine ⟨fun a h => ?_, fun a h => ?_, fun a h => ?_, fun a h => ?_⟩ <;> (try dsimp only) <;> (repeat' split) <;>
    first | exact h | simp (maxDischargeDepth := 12) [h, TakeStays]

@[simp] theorem endExposure_stays (s) : Stays s (endExposure s) := by
  unfold endExposure
  refine ⟨fun a h => ?_, fun a h => ?_, fun a h => ?_, fun a h => ?_⟩ <;> (try dsimp only) <;> (repeat' split) <;>
    first | exact h | simp (maxDischargeDepth := 12) [h, TakeStays]

@[simp] theorem endByFault_stays (s) : Stays s (endByFault s) := by
  unfold endByFault
  refine ⟨fun a h => ?_, fun a h => ?_, fun a h => ?_, fun a h => ?_⟩ <;> (try dsimp only) <;> (repeat' split) <;>
    first | exact h | simp (maxDischargeDepth := 12) [h, TakeStays]

theorem beginExposure_stays {s t} (e : beginExposure s = some t) : Stays s t := by
  unfold beginExposure at e
  (repeat' split at e) <;> first
    | (injection e with e; subst e; refine ⟨fun a h => ?_, fun a h => ?_, fun a h => ?_, fun a h => ?_⟩ <;> (try dsimp only) <;> (repeat' split) <;>
        first | exact h | simp (maxDischargeDepth := 12) [h, TakeStays])
    | simp at e

theorem checkLine_stays {s t} (e : checkLine s = some t) : Stays s t := by
  unfold checkLine at e
  (repeat' split at e) <;> first
    | (injection e with e; subst e; refine ⟨fun a h => ?_, fun a h => ?_, fun a h => ?_, fun a h => ?_⟩ <;> (try dsimp only) <;> (repeat' split) <;>
        first | exact h | simp (maxDischargeDepth := 12) [h, TakeStays])
    | simp at e

@[simp] theorem startScan_stays (s) : Stays s (startScan s) := by
  unfold startScan
  refine ⟨fun a h => ?_, fun a h => ?_, fun a h => ?_, fun a h => ?_⟩ <;> (try dsimp only) <;> (repeat' split) <;>
    first | exact h | simp (maxDischargeDepth := 12) [h, TakeStays]

theorem goLine_stays {s t} (e : goLine s = some t) : Stays s t := by
  unfold goLine at e
  (repeat' split at e) <;> first
    | (injection e with e; subst e; refine ⟨fun a h => ?_, fun a h => ?_, fun a h => ?_, fun a h => ?_⟩ <;> (try dsimp only) <;> (repeat' split) <;>
        first | exact h | simp (maxDischargeDepth := 12) [h, TakeStays])
    | simp at e

@[simp] theorem lineExposed_stays (s c) : Stays s (lineExposed s c) := by
  refine Stays.trans (t := s.modActive _) (State.modActive_stays s fun x => ?_) ⟨fun _ h => h.map fun r => ?_, fun _ => id, fun _ => id, fun _ => id⟩
  · exact .rfl
  · split <;> rfl

theorem scanStep_stays {s t} (e : scanStep s = some t) : Stays s t := by
  unfold scanStep at e
  dsimp only at e
  (repeat' split at e) <;> first
    | (injection e with e; subst e; exact modExp_stays _ _)
    | (injection e with e; subst e; exact modCur_stays _ _)
    | (injection e with e; subst e; exact lineExposed_stays _ _)
    | simp at e

@[simp] theorem mechanismFault_stays (s m) : Stays s (mechanismFault s m) := by
  unfold mechanismFault
  refine ⟨fun a h => ?_, fun a h => ?_, fun a h => ?_, fun a h => ?_⟩ <;> (try dsimp only) <;> (repeat' split) <;>
    first | exact h | simp (maxDischargeDepth := 12) [h, TakeStays]

@[simp] theorem mountDone_stays (s) : Stays s (mountDone s) := by
  unfold mountDone
  refine ⟨fun a h => ?_, fun a h => ?_, fun a h => ?_, fun a h => ?_⟩ <;> (try dsimp only) <;> (repeat' split) <;>
    first | exact h | simp (maxDischargeDepth := 12) [h, TakeStays]

@[simp] theorem turretIndex_stays (s seat) : Stays s (turretIndex s seat) := by
  unfold turretIndex
  refine ⟨fun a h => ?_, fun a h => ?_, fun a h => ?_, fun a h => ?_⟩ <;> (try dsimp only) <;> (repeat' split) <;>
    first | exact h | simp (maxDischargeDepth := 12) [h, TakeStays]

@[simp] theorem lensIndexEvent_stays (s lens) : Stays s (lensIndexEvent s lens) := by
  unfold lensIndexEvent
  refine ⟨fun a h => ?_, fun a h => ?_, fun a h => ?_, fun a h => ?_⟩ <;> (try dsimp only) <;> (repeat' split) <;>
    first | exact h | simp (maxDischargeDepth := 12) [h, TakeStays]

@[simp] theorem carriagePosition_stays (s) : Stays s (carriagePosition s) := by
  unfold carriagePosition
  refine ⟨fun a h => ?_, fun a h => ?_, fun a h => ?_, fun a h => ?_⟩ <;> (try dsimp only) <;> (repeat' split) <;>
    first | exact h | simp (maxDischargeDepth := 12) [h, TakeStays]

@[simp] theorem moveTimeout_stays (s m) : Stays s (moveTimeout s m) := by
  unfold moveTimeout
  refine ⟨fun a h => ?_, fun a h => ?_, fun a h => ?_, fun a h => ?_⟩ <;> (try dsimp only) <;> (repeat' split) <;>
    first | exact h | simp (maxDischargeDepth := 12) [h, TakeStays]

@[simp] theorem flashTimeout_stays (s) : Stays s (flashTimeout s) := by
  unfold flashTimeout
  refine ⟨fun a h => ?_, fun a h => ?_, fun a h => ?_, fun a h => ?_⟩ <;> (try dsimp only) <;> (repeat' split) <;>
    first | exact h | simp (maxDischargeDepth := 12) [h, TakeStays]

@[simp] theorem haltLine_stays (s door) : Stays s (haltLine s door) := by
  unfold haltLine
  refine ⟨fun a h => ?_, fun a h => ?_, fun a h => ?_, fun a h => ?_⟩ <;> (try dsimp only) <;> (repeat' split) <;>
    first | exact h | simp (maxDischargeDepth := 12) [h, TakeStays]

theorem endHalted_stays {s t} (e : endHalted s = some t) : Stays s t := by
  unfold endHalted at e
  dsimp only at e
  split at e
  · next c _ =>
    split at e
    · have k : ∀ b m, Stays s (if b = true then closeGalley (endExposure s) m else endExposure s) := by
        intro b m
        split
        · exact (endExposure_stays s).trans (closeGalley_stays _ _)
        · exact endExposure_stays s
      split at e
      · injection e with e; subst e; exact k _ _
      · injection e with e; subst e
        refine Stays.trans (k c.closeGalley (fun f => { f with continuedTo := true, spoiled := some c.line }))
          (Stays.trans ?_ (askCut_stays _ _))
        refine ⟨fun _ h => h.map fun r => ?_, fun _ => id, fun _ => id, fun _ => id⟩
        split <;> rfl
    · simp at e
  · simp at e

@[simp] theorem photoDoorOpen_stays (s) : Stays s (photoDoorOpen s) := by
  unfold photoDoorOpen
  refine ⟨fun a h => ?_, fun a h => ?_, fun a h => ?_, fun a h => ?_⟩ <;> (try dsimp only) <;> (repeat' split) <;>
    first | exact h | simp (maxDischargeDepth := 12) [h, TakeStays]

@[simp] theorem cassetteDoorOpen_stays (s) : Stays s (cassetteDoorOpen s) := by
  unfold cassetteDoorOpen
  refine ⟨fun a h => ?_, fun a h => ?_, fun a h => ?_, fun a h => ?_⟩ <;> (try dsimp only) <;> (repeat' split) <;>
    first | exact h | simp (maxDischargeDepth := 12) [h, TakeStays]

@[simp] theorem takeupDoorOpen_stays (s) : Stays s (takeupDoorOpen s) := by
  unfold takeupDoorOpen
  refine ⟨fun a h => ?_, fun a h => ?_, fun a h => ?_, fun a h => ?_⟩ <;> (try dsimp only) <;> (repeat' split) <;>
    first | exact h | simp (maxDischargeDepth := 12) [h, TakeStays]

@[simp] theorem takeupDoorClose_stays (s) : Stays s (takeupDoorClose s) := by
  unfold takeupDoorClose
  refine ⟨fun a h => ?_, fun a h => ?_, fun a h => ?_, fun a h => ?_⟩ <;> (try dsimp only) <;> (repeat' split) <;>
    first | exact h | simp (maxDischargeDepth := 12) [h, TakeStays]

@[simp] theorem cassetteDoorClose_stays (s code) : Stays s (cassetteDoorClose s code) := by
  unfold cassetteDoorClose
  refine ⟨fun a h => ?_, fun a h => ?_, fun a h => ?_, fun a h => ?_⟩ <;> (try dsimp only) <;> (repeat' split) <;>
    first | exact h | simp (maxDischargeDepth := 12) [h, TakeStays]

@[simp] theorem advanceComplete_stays (s) : Stays s (advanceComplete s) := by
  unfold advanceComplete
  refine ⟨fun a h => ?_, fun a h => ?_, fun a h => ?_, fun a h => ?_⟩ <;> (try dsimp only) <;> (repeat' split) <;>
    first | exact h | simp (maxDischargeDepth := 12) [h, TakeStays]

@[simp] theorem advanceRefused_stays (s w) : Stays s (advanceRefused s w) := by
  unfold advanceRefused
  refine ⟨fun a h => ?_, fun a h => ?_, fun a h => ?_, fun a h => ?_⟩ <;> (try dsimp only) <;> (repeat' split) <;>
    first | exact h | simp (maxDischargeDepth := 12) [h, TakeStays]

theorem serveFilm_stays {s t} (e : serveFilm s = some t) : Stays s t := by
  unfold serveFilm at e
  dsimp only at e
  split at e
  · injection e with e; subst e
    exact (dropRequest_stays _).trans (beginCut_stays _ _)
  · next line leading _ _ _ =>
    split at e
    · injection e with e; subst e
      exact (dropRequest_stays _).trans (advanceRefused_stays _ _)
    · injection e with e; subst e
      refine (dropRequest_stays s).trans
        (Stays.trans (beginAdvance_stays _ (s.activeKey.getD { origin := 15, number := 0 }) line leading) ?_)
      split
      · exact advanceComplete_stays _
      · exact Stays.rfl
  · simp at e

@[simp] theorem advanceDone_stays (s) : Stays s (advanceDone s) := by
  unfold advanceDone
  refine ⟨fun a h => ?_, fun a h => ?_, fun a h => ?_, fun a h => ?_⟩ <;> (try dsimp only) <;> (repeat' split) <;>
    first | exact h | simp (maxDischargeDepth := 12) [h, TakeStays]

@[simp] theorem advanceTimeout_stays (s) : Stays s (advanceTimeout s) := by
  unfold advanceTimeout
  refine ⟨fun a h => ?_, fun a h => ?_, fun a h => ?_, fun a h => ?_⟩ <;> (try dsimp only) <;> (repeat' split) <;>
    first | exact h | simp (maxDischargeDepth := 12) [h, TakeStays]

@[simp] theorem cutEvent_stays (s) : Stays s (cutEvent s) := by
  unfold cutEvent
  refine ⟨fun a h => ?_, fun a h => ?_, fun a h => ?_, fun a h => ?_⟩ <;> (try dsimp only) <;> (repeat' split) <;>
    first | exact h | simp (maxDischargeDepth := 12) [h, TakeStays]

@[simp] theorem cutterTimeout_stays (s) : Stays s (cutterTimeout s) := by
  unfold cutterTimeout
  refine ⟨fun a h => ?_, fun a h => ?_, fun a h => ?_, fun a h => ?_⟩ <;> (try dsimp only) <;> (repeat' split) <;>
    first | exact h | simp (maxDischargeDepth := 12) [h, TakeStays]

@[simp] theorem mountKey_stays (s) : Stays s (mountKey s) := by
  unfold mountKey
  refine ⟨fun a h => ?_, fun a h => ?_, fun a h => ?_, fun a h => ?_⟩ <;> (try dsimp only) <;> (repeat' split) <;>
    first | exact h | simp (maxDischargeDepth := 12) [h, TakeStays]

@[simp] theorem returnCalled_stays (s) : Stays s (returnCalled s) := by
  unfold returnCalled
  split
  · refine Stays.trans ?_ (wake_stays _)
    refine ⟨fun _ => id, fun _ => id, fun _ => id, fun _ h => h.map fun x _ => ?_⟩
    split
    · next c =>
      have c : x.state = .parked := by
        unfold Take.calledFor at c
        split at c
        · assumption
        · exact nomatch c
      simp [Take.queued, c]
    · exact TakeStays.rfl.both
  · exact Stays.rfl

@[simp] theorem clearFontCall_stays (s) : Stays s (clearFontCall s) := by
  unfold clearFontCall
  refine ⟨fun a h => ?_, fun a h => ?_, fun a h => ?_, fun a h => ?_⟩ <;> (try dsimp only) <;> (repeat' split) <;>
    first | exact h | simp (maxDischargeDepth := 12) [h, TakeStays]

@[simp] theorem survey_stays (s tabs) : Stays s (survey s tabs) := by
  unfold survey
  refine ⟨fun a h => ?_, fun a h => ?_, fun a h => ?_, fun a h => ?_⟩ <;> (try dsimp only) <;> (repeat' split) <;>
    first | exact h | simp (maxDischargeDepth := 12) [h, TakeStays]

@[simp] theorem photoDoorClose_stays (s tabs) : Stays s (photoDoorClose s tabs) := by
  unfold photoDoorClose
  refine ⟨fun a h => ?_, fun a h => ?_, fun a h => ?_, fun a h => ?_⟩ <;> (try dsimp only) <;> (repeat' split) <;>
    first | exact h | simp (maxDischargeDepth := 12) [h, TakeStays]

@[simp] theorem hearOffer_stays (s sender m) : Stays s (hearOffer s sender m) := by
  unfold hearOffer
  refine ⟨fun a h => ?_, fun a h => ?_, fun a h => ?_, fun a h => ?_⟩ <;> (try dsimp only) <;> (repeat' split) <;>
    first | exact h | simp (maxDischargeDepth := 12) [h, TakeStays]

theorem retestWindows_stays {s t} (e : retestWindows s = some t) : Stays s t := by
  unfold retestWindows at e
  (repeat' split at e) <;> first
    | (injection e with e; subst e; refine ⟨fun a h => ?_, fun a h => ?_, fun a h => ?_, fun a h => ?_⟩ <;> (try dsimp only) <;> (repeat' split) <;>
        first | exact h | simp (maxDischargeDepth := 12) [h, TakeStays])
    | simp at e

@[simp] theorem handFrame_stays (s f) : Stays s (handFrame s f) := by
  unfold handFrame
  refine ⟨fun a h => ?_, fun a h => ?_, fun a h => ?_, fun a h => ?_⟩ <;> (try dsimp only) <;> (repeat' split) <;>
    first | exact h | simp (maxDischargeDepth := 12) [h, TakeStays]

@[simp] theorem parkStop_stays (s k) : Stays s (parkStop s k) := by
  unfold parkStop
  refine ⟨fun a h => ?_, fun a h => ?_, fun a h => ?_, fun a h => ?_⟩ <;> (try dsimp only) <;> (repeat' split) <;>
    first | exact h | simp (maxDischargeDepth := 12) [h, TakeStays]

theorem askEndCut_stays {s t} (e : askEndCut s = some t) : Stays s t := by
  unfold askEndCut at e
  split at e
  · split at e
    · injection e with e; subst e
      refine Stays.trans ?_ (askCut_stays _ _)
      exact State.modPass_stays s (fun _ => id) (fun _ => id) fun q j e c => ⟨j, e, c⟩
    · simp at e
  · simp at e

@[simp] theorem stopRelease_stays (s k) : Stays s (stopRelease s k) := by
  unfold stopRelease
  refine ⟨fun a h => ?_, fun a h => ?_, fun a h => ?_, fun a h => ?_⟩ <;> (try dsimp only) <;> (repeat' split) <;>
    first | exact h | simp (maxDischargeDepth := 12) [h, TakeStays]

@[simp] theorem sendOffer_stays (s k) : Stays s (sendOffer s k) := by
  unfold sendOffer
  refine ⟨fun a h => ?_, fun a h => ?_, fun a h => ?_, fun a h => ?_⟩ <;> (try dsimp only) <;> (repeat' split) <;>
    first | exact h | simp (maxDischargeDepth := 12) [h, TakeStays]

@[simp] theorem hearClaim_stays (s a k) : Stays s (hearClaim s a k) := by
  unfold hearClaim
  dsimp only
  split
  · split
    · refine (cancelWindows_stays _ _).trans ((endWatch_stays _ _).trans (State.modTake_stays _ _ fun _ => ?_))
      exact TakeStays.rfl
    · exact cancelWindows_stays _ _
  · exact cancelWindows_stays _ _

@[simp] theorem agingExpires_stays (s k) : Stays s (agingExpires s k) := by
  refine State.modTake_stays _ _ fun x => ?_
  split <;> exact .rfl

@[simp] theorem startHoming_stays (s) : Stays s (startHoming s) := by
  unfold startHoming
  refine ⟨fun a h => ?_, fun a h => ?_, fun a h => ?_, fun a h => ?_⟩ <;> (try dsimp only) <;> (repeat' split) <;>
    first | exact h | simp (maxDischargeDepth := 12) [h, TakeStays]

@[simp] theorem setStage_stays (s g) : Stays s (setStage s g) := by
  unfold setStage
  refine ⟨fun a h => ?_, fun a h => ?_, fun a h => ?_, fun a h => ?_⟩ <;> (try dsimp only) <;> (repeat' split) <;>
    first | exact h | simp (maxDischargeDepth := 12) [h, TakeStays]

@[simp] theorem dueFilmNotice_stays (s) : Stays s (dueFilmNotice s) := by
  unfold dueFilmNotice
  refine ⟨fun a h => ?_, fun a h => ?_, fun a h => ?_, fun a h => ?_⟩ <;> (try dsimp only) <;> (repeat' split) <;>
    first | exact h | simp (maxDischargeDepth := 12) [h, TakeStays]

@[simp] theorem announceGone_stays (s) : Stays s (announceGone s) := by
  unfold announceGone
  refine ⟨fun a h => ?_, fun a h => ?_, fun a h => ?_, fun a h => ?_⟩ <;> (try dsimp only) <;> (repeat' split) <;>
    first | exact h | simp (maxDischargeDepth := 12) [h, TakeStays]

@[simp] theorem announce_stays (s) : Stays s (announce s) := by
  unfold announce
  refine ⟨fun a h => ?_, fun a h => ?_, fun a h => ?_, fun a h => ?_⟩ <;> (try dsimp only) <;> (repeat' split) <;>
    first | exact h | simp (maxDischargeDepth := 12) [h, TakeStays]

@[simp] theorem homingFault_stays (s m) : Stays s (homingFault s m) := by
  unfold homingFault
  refine ⟨fun a h => ?_, fun a h => ?_, fun a h => ?_, fun a h => ?_⟩ <;> (try dsimp only) <;> (repeat' split) <;>
    first | exact h | simp (maxDischargeDepth := 12) [h, TakeStays]

@[simp] theorem withdrawFaultMarks_stays (s) : Stays s (withdrawFaultMarks s) := by
  refine ⟨fun _ => id, fun _ => id, fun _ => id, fun _ h => h.map fun x _ => ?_⟩
  split <;> exact TakeStays.rfl.both

@[simp] theorem clearDone_stays (s) : Stays s (clearDone s) := by
  unfold clearDone
  refine ⟨fun a h => ?_, fun a h => ?_, fun a h => ?_, fun a h => ?_⟩ <;> (try dsimp only) <;> (repeat' split) <;>
    first | exact h | simp (maxDischargeDepth := 12) [h, TakeStays]

@[simp] theorem readCassette_stays (s code) : Stays s (readCassette s code) := by
  unfold readCassette
  refine ⟨fun a h => ?_, fun a h => ?_, fun a h => ?_, fun a h => ?_⟩ <;> (try dsimp only) <;> (repeat' split) <;>
    first | exact h | simp (maxDischargeDepth := 12) [h, TakeStays]

@[simp] theorem afterHoming_stays (s tabs cassette) : Stays s (afterHoming s tabs cassette) := by
  unfold afterHoming
  refine ⟨fun a h => ?_, fun a h => ?_, fun a h => ?_, fun a h => ?_⟩ <;> (try dsimp only) <;> (repeat' split) <;>
    first | exact h | simp (maxDischargeDepth := 12) [h, TakeStays]

theorem startCutDone_stays {s t} (e : startCutDone s = some t) : Stays s t := by
  unfold startCutDone at e
  (repeat' split at e) <;> first
    | (injection e with e; subst e; refine ⟨fun a h => ?_, fun a h => ?_, fun a h => ?_, fun a h => ?_⟩ <;> (try dsimp only) <;> (repeat' split) <;>
        first | exact h | simp (maxDischargeDepth := 12) [h, TakeStays])
    | simp at e

@[simp] theorem seatIndexEvent_stays (s seat) : Stays s (seatIndexEvent s seat) := by
  unfold seatIndexEvent
  refine ⟨fun a h => ?_, fun a h => ?_, fun a h => ?_, fun a h => ?_⟩ <;> (try dsimp only) <;> (repeat' split) <;>
    first | exact h | simp (maxDischargeDepth := 12) [h, TakeStays]

@[simp] theorem lensEvent_stays (s lens) : Stays s (lensEvent s lens) := by
  unfold lensEvent
  refine ⟨fun a h => ?_, fun a h => ?_, fun a h => ?_, fun a h => ?_⟩ <;> (try dsimp only) <;> (repeat' split) <;>
    first | exact h | simp (maxDischargeDepth := 12) [h, TakeStays]

@[simp] theorem positionEvent_stays (s tabs cassette) : Stays s (positionEvent s tabs cassette) := by
  unfold positionEvent
  refine ⟨fun a h => ?_, fun a h => ?_, fun a h => ?_, fun a h => ?_⟩ <;> (try dsimp only) <;> (repeat' split) <;>
    first | exact h | simp (maxDischargeDepth := 12) [h, TakeStays]

@[simp] theorem homingTimeout_stays (s) : Stays s (homingTimeout s) := by
  unfold homingTimeout
  refine ⟨fun a h => ?_, fun a h => ?_, fun a h => ?_, fun a h => ?_⟩ <;> (try dsimp only) <;> (repeat' split) <;>
    first | exact h | simp (maxDischargeDepth := 12) [h, TakeStays]

@[simp] theorem takePaper_stays (s) : Stays s (takePaper s) := by
  unfold takePaper
  refine ⟨fun a h => ?_, fun a h => ?_, fun a h => ?_, fun a h => ?_⟩ <;> (try dsimp only) <;> (repeat' split) <;>
    first | exact h | simp (maxDischargeDepth := 12) [h, TakeStays]

@[simp] theorem enterHold_stays (s) : Stays s (enterHold s) := by
  have k : Stays s (closeClaims { s with stop := { s.stop with station := .hold } }) := by
    refine Stays.trans ?_ (closeClaims_stays _)
    exact stays_of rfl rfl rfl rfl
  unfold enterHold
  generalize closeClaims { s with stop := { s.stop with station := .hold } } = u at k ⊢
  dsimp only
  split
  · next c =>
    refine k.trans ⟨fun _ => id, fun _ h => h.trans (compKept_phase ⟨.inl ?_, .inr rfl⟩), fun _ => id, fun _ => id⟩
    unfold Compositor.atBoundary at c
    split at c
    · simp at c; exact c.1
    · simp at c
  · exact k

@[simp] theorem holdKey_stays (s) : Stays s (holdKey s) := by
  unfold holdKey
  refine ⟨fun a h => ?_, fun a h => ?_, fun a h => ?_, fun a h => ?_⟩ <;> (try dsimp only) <;> (repeat' split) <;>
    first | exact h | simp (maxDischargeDepth := 12) [h, TakeStays]

@[simp] theorem runKey_stays (s) : Stays s (runKey s) := by
  unfold runKey
  refine ⟨fun a h => ?_, fun a h => ?_, fun a h => ?_, fun a h => ?_⟩ <;> (try dsimp only) <;> (repeat' split) <;>
    first | exact h | simp (maxDischargeDepth := 12) [h, TakeStays]

@[simp] theorem clearKey_stays (s) : Stays s (clearKey s) := by
  unfold clearKey
  refine ⟨fun a h => ?_, fun a h => ?_, fun a h => ?_, fun a h => ?_⟩ <;> (try dsimp only) <;> (repeat' split) <;>
    first | exact h | simp (maxDischargeDepth := 12) [h, TakeStays]

@[simp] theorem cutKey_stays (s) : Stays s (cutKey s) := by
  unfold cutKey
  refine ⟨fun a h => ?_, fun a h => ?_, fun a h => ?_, fun a h => ?_⟩ <;> (try dsimp only) <;> (repeat' split) <;>
    first | exact h | simp (maxDischargeDepth := 12) [h, TakeStays]

@[simp] theorem stopTimerOff_stays (s) : Stays s (stopTimerOff s) := by
  unfold stopTimerOff
  refine ⟨fun a h => ?_, fun a h => ?_, fun a h => ?_, fun a h => ?_⟩ <;> (try dsimp only) <;> (repeat' split) <;>
    first | exact h | simp (maxDischargeDepth := 12) [h, TakeStays]

@[simp] theorem fontCallExpires_stays (s) : Stays s (fontCallExpires s) := by
  unfold fontCallExpires
  refine ⟨fun a h => ?_, fun a h => ?_, fun a h => ?_, fun a h => ?_⟩ <;> (try dsimp only) <;> (repeat' split) <;>
    first | exact h | simp (maxDischargeDepth := 12) [h, TakeStays]

@[simp] theorem filmOutExpires_stays (s) : Stays s (filmOutExpires s) := by
  unfold filmOutExpires
  refine ⟨fun a h => ?_, fun a h => ?_, fun a h => ?_, fun a h => ?_⟩ <;> (try dsimp only) <;> (repeat' split) <;>
    first | exact h | simp (maxDischargeDepth := 12) [h, TakeStays]

@[simp] theorem standbyExpires_stays (s) : Stays s (standbyExpires s) := by
  unfold standbyExpires
  refine ⟨fun a h => ?_, fun a h => ?_, fun a h => ?_, fun a h => ?_⟩ <;> (try dsimp only) <;> (repeat' split) <;>
    first | exact h | simp (maxDischargeDepth := 12) [h, TakeStays]

@[simp] theorem markSent_stays (s k dest) : Stays s (markSent s k dest) := by
  refine State.modTake_stays _ _ fun x => ?_
  split <;> exact .rfl

@[simp] theorem startTakenWait_stays (s k dest) : Stays s (startTakenWait s k dest) := by
  refine State.modTake_stays _ _ fun x => ?_
  split <;> exact .rfl

@[simp] theorem offerEnds_stays (s k) : Stays s (offerEnds s k) := by
  unfold offerEnds
  refine ⟨fun a h => ?_, fun a h => ?_, fun a h => ?_, fun a h => ?_⟩ <;> (try dsimp only) <;> (repeat' split) <;>
    first | exact h | simp (maxDischargeDepth := 12) [h, TakeStays]

@[simp] theorem brokenHeard_stays (s) : Stays s (brokenHeard s) := by
  unfold brokenHeard
  refine ⟨fun a h => ?_, fun a h => ?_, fun a h => ?_, fun a h => ?_⟩ <;> (try dsimp only) <;> (repeat' split) <;>
    first | exact h | simp (maxDischargeDepth := 12) [h, TakeStays]

@[simp] theorem badHeard_stays (s) : Stays s (badHeard s) := by
  unfold badHeard
  refine ⟨fun a h => ?_, fun a h => ?_, fun a h => ?_, fun a h => ?_⟩ <;> (try dsimp only) <;> (repeat' split) <;>
    first | exact h | simp (maxDischargeDepth := 12) [h, TakeStays]

@[simp] theorem hearTable_stays (s font revision widths) : Stays s (hearTable s font revision widths) := by
  unfold hearTable
  refine ⟨fun a h => ?_, fun a h => ?_, fun a h => ?_, fun a h => ?_⟩ <;> (try dsimp only) <;> (repeat' split) <;>
    first | exact h | simp (maxDischargeDepth := 12) [h, TakeStays]

@[simp] theorem startPoint_stays (s) : Stays s (startPoint s) := by
  unfold startPoint
  refine ⟨fun a h => ?_, fun a h => ?_, fun a h => ?_, fun a h => ?_⟩ <;> (try dsimp only) <;> (repeat' split) <;>
    first | exact h | simp (maxDischargeDepth := 12) [h, TakeStays]

@[simp] theorem arbitrationLost_stays (s) : Stays s (arbitrationLost s) := by
  unfold arbitrationLost
  refine ⟨fun a h => ?_, fun a h => ?_, fun a h => ?_, fun a h => ?_⟩ <;> (try dsimp only) <;> (repeat' split) <;>
    first | exact h | simp (maxDischargeDepth := 12) [h, TakeStays]

@[simp] theorem idleGap_stays (s) : Stays s (idleGap s) := by
  unfold idleGap
  refine ⟨fun a h => ?_, fun a h => ?_, fun a h => ?_, fun a h => ?_⟩ <;> (try dsimp only) <;> (repeat' split) <;>
    first | exact h | simp (maxDischargeDepth := 12) [h, TakeStays]

@[simp] theorem idleSlot_stays (s) : Stays s (idleSlot s) := by
  unfold idleSlot
  refine ⟨fun a h => ?_, fun a h => ?_, fun a h => ?_, fun a h => ?_⟩ <;> (try dsimp only) <;> (repeat' split) <;>
    first | exact h | simp (maxDischargeDepth := 12) [h, TakeStays]

@[simp] theorem correctLamp_stays (s n) : Stays s (correctLamp s n) := by
  unfold correctLamp
  refine ⟨fun a h => ?_, fun a h => ?_, fun a h => ?_, fun a h => ?_⟩ <;> (try dsimp only) <;> (repeat' split) <;>
    first | exact h | simp (maxDischargeDepth := 12) [h, TakeStays]

@[simp] theorem changeLamp_stays (s) : Stays s (changeLamp s) := by
  unfold changeLamp
  refine ⟨fun a h => ?_, fun a h => ?_, fun a h => ?_, fun a h => ?_⟩ <;> (try dsimp only) <;> (repeat' split) <;>
    first | exact h | simp (maxDischargeDepth := 12) [h, TakeStays]

@[simp] theorem flashDone_stays (s n) : Stays s (flashDone s n) := by
  unfold flashDone
  refine ⟨fun a h => ?_, fun a h => ?_, fun a h => ?_, fun a h => ?_⟩ <;> (try dsimp only) <;> (repeat' split) <;>
    first | exact h | simp (maxDischargeDepth := 12) [h, TakeStays]

@[simp] theorem hearCopy_stays (s a k o d) : Stays s (hearCopy s a k o d) := by
  have m : ∀ u : State, ∀ f : Take → Take, (∀ x, TakeStays x (f x)) → Stays u (u.modTake k f) := fun u f i => State.modTake_stays u k i
  have k1 : Stays s (s.modTake k (fun x => { x with timer := some .stall })) := m _ _ fun _ => .rfl
  unfold hearCopy
  split
  · dsimp only
    split
    · exact k1
    · split
      · exact (k1.trans (m _ (fun x => x.receive d.length) fun _ => .rfl)).trans (stays_of rfl rfl rfl rfl)
      · exact k1.trans (m _ (fun x => { x with mismatched := true }) fun _ => .rfl)
  · exact Stays.rfl

@[simp] theorem addException_stays (s w p) : Stays s (addException s w p) := by
  unfold addException
  refine ⟨fun a h => ?_, fun a h => ?_, fun a h => ?_, fun a h => ?_⟩ <;> (try dsimp only) <;> (repeat' split) <;>
    first | exact h | simp (maxDischargeDepth := 12) [h, TakeStays]

@[simp] theorem deleteException_stays (s w) : Stays s (deleteException s w) := by
  unfold deleteException
  refine ⟨fun a h => ?_, fun a h => ?_, fun a h => ?_, fun a h => ?_⟩ <;> (try dsimp only) <;> (repeat' split) <;>
    first | exact h | simp (maxDischargeDepth := 12) [h, TakeStays]

@[simp] theorem hearAdd_stays (s b) : Stays s (hearAdd s b) := by
  unfold hearAdd
  refine ⟨fun a h => ?_, fun a h => ?_, fun a h => ?_, fun a h => ?_⟩ <;> (try dsimp only) <;> (repeat' split) <;>
    first | exact h | simp (maxDischargeDepth := 12) [h, TakeStays]

@[simp] theorem hearDelete_stays (s b) : Stays s (hearDelete s b) := by
  unfold hearDelete
  refine ⟨fun a h => ?_, fun a h => ?_, fun a h => ?_, fun a h => ?_⟩ <;> (try dsimp only) <;> (repeat' split) <;>
    first | exact h | simp (maxDischargeDepth := 12) [h, TakeStays]

@[simp] theorem romRead_stays (s r) : Stays s (romRead s r) := by
  unfold romRead
  refine ⟨fun a h => ?_, fun a h => ?_, fun a h => ?_, fun a h => ?_⟩ <;> (try dsimp only) <;> (repeat' split) <;>
    first | exact h | simp (maxDischargeDepth := 12) [h, TakeStays]

end Sys2Proof.Machine
end

