-- ==== Sys2Proof/Laws/Pass.lean ====
section
/-! SUPPORT. The lines of the pass stay sound (`linesOk` of Safety.lean) while the Compositor reads, sets, breaks and appends
lines, the store removes them, and passes start and end. -/

namespace Sys2Proof.Machine

/-! ### Resting -/

/-- With no line in the store and the Compositor IDLE, whatever pass there is, the lines are sound. -/
theorem resting_lines {s : State} (h : resting s) : linesOk s :=
  ⟨⟨1, by omega, by rw [h.1]; exact Nat.le_of_ble_eq_true rfl, by rw [h.1]; rfl, fun p => absurd h.2 p⟩, fun _ => h,
    fun _ _ => ⟨fun _ => h.2, fun _ => h, fun _ _ _ => h⟩⟩

/-- The Compositor goes to IDLE, whatever line it held; the pass waits for no more of its ends than it did. -/
theorem idle_lines {s t : State} (h : linesOk s) (e : t.store.records = s.store.records) (i : t.comp.phase = .idle)
    (a : ActiveKept s.takes t.takes)
    (p : ∀ q, t.pass = some q → ∃ r, s.pass = some r ∧ (q.emptied = true → r.emptied = true) ∧
      ∀ k, q.park = some k → k.answered = true → ∃ j, r.park = some j ∧ j.answered = true) : linesOk t := by
  obtain ⟨⟨n, n1, n2, en, -⟩, none, pass⟩ := h
  have rest : resting s → resting t := fun k => ⟨e ▸ k.1, i⟩
  refine ⟨⟨n, n1, e ▸ n2, e ▸ en, fun c => absurd i c⟩, fun z => rest (none ?_), fun q eq => ⟨fun _ => i, ?_, ?_⟩⟩
  · have au : t.active?.map Take.textLen = s.active?.map Take.textLen := a
    rw [z] at au
    exact Option.map_eq_none_iff.1 au.symm
  · obtain ⟨r, er, a1, a2⟩ := p q eq
    exact fun c => rest ((pass r er).2.1 (a1 c))
  · obtain ⟨r, er, a1, a2⟩ := p q eq
    intro k ek c
    obtain ⟨j, ej, cj⟩ := a2 k ek c
    exact rest ((pass r er).2.2 j ej cj)

/-- The pass reports its end (R35). -/
theorem reportEnd_lines {s : State} (t : Take) (h : linesOk s) : linesOk (reportEnd s t) := by
  refine idle_lines h rfl rfl .rfl fun q e => ?_
  obtain ⟨r, er, rfl⟩ := Option.map_eq_some_iff.1 e
  exact ⟨r, er, id, fun k i j => ⟨k, i, j⟩⟩

/-! ### A line begins -/

/-- What a line that begins rests on: the take is ACTIVE, the pass is none that has been emptied, and the store's lines end just
before the context's next. -/
structure LineDue (s : State) (t : Take) (x : Context) : Prop where
  active : ∃ u, s.active? = some u ∧ u.textLen = t.textLen
  numbers : ∃ n, 1 ≤ n ∧ n + s.store.records.length ≤ 65536 ∧
    s.store.records.map (fun r => r.number) = List.range' n s.store.records.length ∧
    (x.resume < t.textLen → x.nextLine = n + s.store.records.length)
  room : x.resume < t.textLen → x.nextLine ≤ 49152 + x.resume
  pass : ∀ p, s.pass = some p → p.killing = false ∧ p.emptied = false ∧ ∀ q, p.park = some q → q.answered = false

theorem startLine_lines {s : State} {t : Take} {x : Context} (b c : Bool) (h : LineDue s t x) : linesOk (startLine s t x b c) := by
  obtain ⟨⟨u, eu, lu⟩, ⟨n, n1, n2, en, nx⟩, room, pass⟩ := h
  have no : s.active? ≠ none := by rw [eu]; exact nofun
  have off : ∀ (u : State), u.pass = s.pass ∨ u.pass = s.pass.map (fun p => { p with reported := true }) → ∀ p, u.pass = some p →
      (p.killing = true → u.comp.phase = .idle) ∧ (p.emptied = true → resting u) ∧ ∀ q, p.park = some q → q.answered = true → resting u := by
    intro u e p ep
    have : p.killing = false ∧ p.emptied = false ∧ ∀ q, p.park = some q → q.answered = false := by
      rcases e with e | e
      · exact pass p (e ▸ ep)
      · rw [e] at ep
        obtain ⟨r, er, rfl⟩ := Option.map_eq_some_iff.1 ep
        exact pass r er
    obtain ⟨k, e, q⟩ := this
    exact ⟨by simp [k], by simp [e], fun j ej c => by rw [q j ej] at c; exact nomatch c⟩
  unfold startLine
  dsimp only
  split
  · exact ⟨⟨n, n1, n2, en, fun c => absurd rfl c⟩, fun z => absurd z no, off _ (.inr rfl)⟩
  · next lt =>
    have lt : x.resume < t.textLen := by omega
    refine ⟨⟨n, n1, n2, en, fun _ => ⟨x, u, rfl, eu, nx lt, ?_⟩⟩, fun z => absurd z no, off _ (.inl rfl)⟩
    have key : ∃ y, some x = some y ∧ y.resume < t.textLen ∧ y.resume ≤ x.resume ∧ x.nextLine ≤ 49152 + y.resume ∧
        (idleCompositor.line ≠ [] ∨ idleCompositor.group ≠ [] → y.resume < x.resume) ∧
        (idleCompositor.line ≠ [] → y.resume < x.resume ∧ ∀ b ∈ idleCompositor.group, y.resume < b.offset) ∧
        ∀ b ∈ idleCompositor.group.tail, y.resume < b.offset :=
      ⟨x, rfl, lt, Nat.le_refl _, room lt, by simp [idleCompositor], by simp [idleCompositor], by simp [idleCompositor]⟩
    rw [lu]
    unfold lineAt
    dsimp only
    split <;> rename_i ph <;> first
      | exact key
      | (exfalso; revert ph; split <;> simp)

/-! ### A line is appended, or held -/

theorem apply_places (p : PendingValues) (c : Context) :
    (p.apply c).1.nextLine = c.nextLine ∧ (p.apply c).1.resume = c.resume := by
  unfold PendingValues.apply withMeasure withIndent
  dsimp only
  (repeat' split) <;> exact ⟨rfl, rfl⟩

theorem afterLine_places (c : Context) (p : PendingValues) (sl : SetLine) :
    (afterLine c p sl).1.nextLine = satAdd Config.top16 c.nextLine 1 ∧ (afterLine c p sl).1.resume = sl.next.offset :=
  ⟨(apply_places p { c with
      nextLine := satAdd Config.top16 c.nextLine 1
      ladderCount := ladderAfter c.ladderCount sl.record.flags }).1, rfl⟩

/-- The ACTIVE take's text is no longer than a copy may be (R1, R179). -/
theorem textLen_le {s : State} {t : Take} (h : heldOk s) (e : s.active? = some t) : t.textLen ≤ 16384 := by
  have := (h.1.2.2.1 t (active_some e).1).2.2.2.2.2.2.2.1
  unfold Take.textLen; omega

/-- While the Compositor is not IDLE its pass has not been emptied for an end of its (R84, R192). -/
theorem pass_runs {s : State} (h : linesOk s) (p : s.comp.phase ≠ .idle) : ∀ q, s.pass = some q →
    q.killing = false ∧ q.emptied = false ∧ ∀ j, q.park = some j → j.answered = false := by
  intro q e
  obtain ⟨a, b, c⟩ := h.2.2 q e
  refine ⟨?_, ?_, fun j ej => ?_⟩
  · cases k : q.killing with
    | false => rfl
    | true => exact absurd (a k) p
  · cases k : q.emptied with
    | false => rfl
    | true => exact absurd (b k).2 p
  · cases k : j.answered with
    | false => rfl
    | true => exact absurd (c j ej k).2 p

/-- The ACTIVE take is ACTIVE still, with as long a text. -/
theorem active_len {s u : State} {t : Take} (k : ActiveKept s.takes u.takes) (e : s.active? = some t) :
    ∃ v, u.active? = some v ∧ v.textLen = t.textLen := by
  have a : u.active?.map Take.textLen = s.active?.map Take.textLen := k
  rw [e] at a
  exact Option.map_eq_some_iff.1 a

/-- A line that takes at least one byte of the text is appended (R18, R80, R81). -/
theorem appendLine_lines {s : State} {t : Take} {ctx x : Context} {sl : SetLine} (h : linesOk s) (p : s.comp.phase ≠ .idle)
    (et : s.active? = some t) (short : t.textLen ≤ 16384) (ex : s.comp.ctx = some x) (nx : ctx.nextLine = x.nextLine)
    (num : sl.record.number = ctx.nextLine) (le : ctx.nextLine ≤ 65535) (far : ctx.nextLine + 1 ≤ 49152 + sl.next.offset) :
    linesOk (appendLine s t ctx sl) := by
  have run := pass_runs h p
  obtain ⟨⟨n, n1, n2, en, ph⟩, -, -⟩ := h
  obtain ⟨x', t', ex', et', e, -⟩ := ph p
  rw [ex] at ex'; rw [et] at et'
  injection ex' with ex'; injection et' with et'
  subst ex' et'
  obtain ⟨a1, a2⟩ := afterLine_places ctx s.comp.pend sl
  simp only [satAdd, Config.top16] at a1
  unfold appendLine
  refine startLine_lines _ _ ⟨?_, ⟨n, n1, ?_, ?_, fun lt => ?_⟩, fun lt => ?_, run⟩
  · refine active_len (s := s) (ActiveKept.rfl.map fun y _ => ?_) et
    split <;> exact TakeStays.rfl.both
  · simp [State.modActive]; omega
  · simp only [State.modActive, List.map_append, List.map_cons, List.map_nil, List.length_append, List.length_singleton, en, num]
    rw [List.range'_concat, nx, e]; simp
  · simp only [State.modActive, List.length_append, List.length_singleton]
    rw [a2] at lt; rw [a1]; omega
  · rw [a1, a2]; omega

/-- Where a line that ends now may leave reading: the Compositor reads, and its line began before that offset. -/
structure LineEnds (s : State) (t : Take) (ctx : Context) (next : Nat) : Prop where
  sound : linesOk s
  reads : s.comp.phase = .setting ∨ s.comp.phase = .paused
  active : s.active? = some t
  short : t.textLen ≤ 16384
  number : ∀ x, s.comp.ctx = some x → ctx.nextLine = x.nextLine
  far : ∀ y, s.comp.snap = some y → y.resume < next

/-- What a Compositor that reads stands on. -/
theorem reads_at {s : State} {t : Take} (h : linesOk s) (p : s.comp.phase = .setting ∨ s.comp.phase = .paused)
    (e : s.active? = some t) : ∃ x y, s.comp.ctx = some x ∧ s.comp.snap = some y ∧ y.resume < t.textLen ∧ y.resume ≤ x.resume ∧
      x.nextLine ≤ 49152 + y.resume ∧ (s.comp.line ≠ [] ∨ s.comp.group ≠ [] → y.resume < x.resume) ∧
      (s.comp.line ≠ [] → y.resume < s.comp.groupStart ∧ ∀ b ∈ s.comp.group, y.resume < b.offset) ∧
      ∀ b ∈ s.comp.group.tail, y.resume < b.offset := by
  obtain ⟨⟨n, -, -, -, ph⟩, -, -⟩ := h
  obtain ⟨x, u, ex, eu, -, l⟩ := ph (by rcases p with p | p <;> simp [p])
  rw [e] at eu; injection eu with eu; subst eu
  rcases p with p | p <;> simp only [lineAt, p] at l <;> obtain ⟨y, k⟩ := l <;> exact ⟨x, y, ex, k⟩

theorem offerLine_lines {s : State} {t : Take} {ctx : Context} {sl : SetLine} (h : LineEnds s t ctx sl.next.offset)
    (num : sl.record.number = ctx.nextLine) : linesOk (offerLine s t ctx sl) := by
  obtain ⟨x, y, ex, ey, lt, -, cap, -⟩ := reads_at h.sound h.reads h.active
  have nx := h.number x ex
  have far := h.far y ey
  have short := h.short
  have p : s.comp.phase ≠ .idle := by rcases h.reads with r | r <;> simp [r]
  unfold offerLine
  split
  · exact appendLine_lines h.sound p h.active short ex nx num (by omega) (by omega)
  · have run := pass_runs h.sound p
    obtain ⟨⟨n, n1, n2, en, ph⟩, none, -⟩ := h.sound
    obtain ⟨x', t', ex', et', e', -⟩ := ph p
    rw [ex] at ex'; injection ex' with ex'; subst ex'
    refine ⟨⟨n, n1, n2, en, fun _ => ⟨x, t', ex, et', e', sl, rfl, num.trans nx, by omega, by omega⟩⟩,
      fun z => absurd (none z).2 p, fun q eq => ?_⟩
    obtain ⟨k, e, j⟩ := run q eq
    exact ⟨by simp [k], by simp [e], fun i ei c => by rw [j i ei] at c; exact nomatch c⟩

theorem completeLine_lines {s : State} {t : Take} {ctx : Context} {items : List BuildItem} {e : LineEnd} {next : ReadOn}
    (h : LineEnds s t ctx next.offset) : linesOk (completeLine s t ctx items e next) := offerLine_lines h rfl

/-- A break needs lookups, which leave all of this. -/
theorem weigh_stays (v line group) : ∀ cs s best, Stays s (weigh v line group cs s best).1 ∧
    (weigh v line group cs s best).1.comp = s.comp ∧ (weigh v line group cs s best).1.takes = s.takes := by
  intro cs
  induction cs with
  | nil => intro s best; exact ⟨Stays.rfl, rfl, rfl⟩
  | cons c cs ih =>
    intro s best
    obtain ⟨i, k⟩ := c
    cases k with
    | explicit => exact ih _ _
    | added =>
      unfold weigh
      split
      · next last _ =>
        have l : (lookup s last.font 0x2D).2.comp = s.comp ∧ (lookup s last.font 0x2D).2.takes = s.takes := by
          unfold lookup; dsimp only; (repeat' split) <;> exact ⟨rfl, rfl⟩
        obtain ⟨a, b, c⟩ := ih (lookup s last.font 0x2D).2
          (if 0 < (lookup s last.font 0x2D).1 ∧ v.fits (line ++ group.take (i + 1) ++ [hyphenBox last (lookup s last.font 0x2D).1])
            then some { place := i, items := line ++ group.take (i + 1) ++ [hyphenBox last (lookup s last.font 0x2D).1], kind := .added }
            else best)
        exact ⟨(lookup_stays s _ 0x2D).trans a, b.trans l.1, c.trans l.2⟩
      · exact ih _ _

theorem oversetPrefix_pos (v : LineValues) (g : List BuildItem) : 1 ≤ oversetPrefix v g := by
  unfold oversetPrefix
  have go : ∀ (l : List Nat) (b : Nat), 1 ≤ b →
      1 ≤ l.foldl (fun best i => if (g[i]?).any BuildItem.isBox && v.fits (g.take (i + 1)) then i + 1 else best) b := by
    intro l
    induction l with
    | nil => exact fun _ h => h
    | cons a l ih => intro b h; rw [List.foldl_cons]; apply ih; split <;> omega
  exact go _ 1 (Nat.le_refl _)

/-- Reading goes on beyond the start of the line after a break of its group (R47). -/
theorem readOnAt_far {c : Compositor} {ctx : Context} {stop n k : Nat} (hn : 1 ≤ n) (hs : k < stop)
    (hg : ∀ b ∈ c.group.tail, k < b.offset) : k < (readOnAt c ctx stop n).offset := by
  unfold readOnAt
  split
  · next b e =>
    refine hg b ?_
    have := List.mem_of_find?_eq_some e
    obtain ⟨m, rfl⟩ := Nat.exists_eq_add_of_le hn
    rw [← List.drop_drop, List.drop_one] at this
    exact List.mem_of_mem_drop this
  · exact hs

/-- After what leaves all of this, a line may end wherever it lies beyond its start. -/
theorem LineEnds.after {s u : State} {t : Take} {ctx y : Context} {stop next : Nat} (h : LineEnds s t ctx stop) (k : Stays s u)
    (ec : u.comp = s.comp) (et : u.takes = s.takes) (ey : s.comp.snap = some y) (f : y.resume < next) : LineEnds u t ctx next where
  sound := k.lines h.sound
  reads := by rw [ec]; exact h.reads
  active := by unfold State.active?; rw [et]; exact h.active
  short := h.short
  number := by rw [ec]; exact h.number
  far z e := by rw [ec, ey] at e; injection e with e; exact e ▸ f

/-- A word group that does not fit (R44, R45, R47): it is broken, or the line ends before it. -/
theorem breakGroup_lines {s : State} {t : Take} {ctx : Context} {stop : Nat} (h : LineEnds s t ctx stop) :
    linesOk (breakGroup s t ctx stop) := by
  obtain ⟨x, y, ex, ey, -, -, -, -, line, tail⟩ := reads_at h.sound h.reads h.active
  obtain ⟨k, ec, et⟩ := weigh_stays (s.comp.values ctx s.comp.group) s.comp.spacedLine s.comp.group
    (candidates s.hyph t.exceptions
      { hyph := ctx.hyph, caps := ctx.caps, limit := ctx.ladderLimit, count := ctx.ladderCount } s.comp.group
      s.comp.discs) s none
  have ends (next : ReadOn) (f : y.resume < next.offset) := h.after k ec et ey f
  have at_ (n : Nat) (hn : 1 ≤ n) : y.resume < (readOnAt s.comp ctx stop n).offset := readOnAt_far hn (h.far y ey) tail
  unfold breakGroup
  dsimp only
  split
  · exact completeLine_lines (ends _ (at_ _ (by omega)))
  · split
    · exact completeLine_lines (ends _ (at_ _ (oversetPrefix_pos _ _)))
    · next c =>
      refine completeLine_lines (ends _ ?_)
      have g := (line (fun e => c (by simp [e]))).1
      unfold readOnGroup
      split <;> exact g

/-- A word group ends (R43): reading stood at `stop`, and goes on at `next`. -/
theorem closeGroup_lines {s : State} {t : Take} {ctx : Context} {stop next : Nat} {para : Bool} (h : linesOk s)
    (p : s.comp.phase = .setting ∨ s.comp.phase = .paused) (et : s.active? = some t) (short : t.textLen ≤ 16384)
    (number : ∀ x, s.comp.ctx = some x → ctx.nextLine = x.nextLine)
    (hs : ∀ x y, s.comp.ctx = some x → s.comp.snap = some y → y.resume < t.textLen → y.resume ≤ x.resume →
      (s.comp.group ≠ [] → y.resume < x.resume) → y.resume < next ∧ (s.comp.group ≠ [] → y.resume < stop)) :
    linesOk (closeGroup s t ctx stop next para) := by
  obtain ⟨x, y, ex, ey, lt, le, cap, some_, line, tail⟩ := reads_at h p et
  obtain ⟨fn, fs⟩ := hs x y ex ey lt le (fun c => some_ (.inr c))
  have ends (m : Nat) (f : y.resume < m) : LineEnds s t ctx m :=
    { sound := h, reads := p, active := et, short := short, number := number
      far := fun z e => by rw [ey] at e; injection e with e; exact e ▸ f }
  unfold closeGroup
  dsimp only
  generalize (if s.comp.group.isEmpty = true then s.comp.line else s.comp.spacedLine ++ s.comp.group) = joined
  split
  · split
    · exact completeLine_lines (next := { offset := next, font := ctx.font, size := ctx.size, subst := s.comp.subst
                                          after := s.comp.afterSpace }) (ends _ fn)
    · refine Stays.lines (modComp_stays s ⟨.rfl, fun z _ ez => ?_⟩) h
      refine ⟨{ ctx with resume := next }, rfl, number z ez, fun n l => ?_⟩
      rw [ex] at ez; injection ez with ez; subst ez
      have nx := number x ex
      have key : ∃ w, s.comp.snap = some w ∧ w.resume < n ∧ ctx.nextLine ≤ 49152 + w.resume := by
        rcases p with p | p <;> simp only [lineAt, p] at l <;> obtain ⟨w, ew, a, -, b, -⟩ := l <;> exact ⟨w, ew, a, by omega⟩
      obtain ⟨w, ew, a, b⟩ := key
      rw [ey] at ew; injection ew with ew; subst ew
      rcases p with p | p <;> simp only [lineAt, p] <;>
        exact ⟨y, ey, a, Nat.le_of_lt fn, b, fun _ => fn, fun _ => ⟨fn, by simp⟩, by simp⟩
  · next c =>
    refine breakGroup_lines (ends _ (fs fun e => c ?_))
    simp [e]

/-! ### Boxes and spaces -/

/-- Reading goes on no nearer the start of the text (R5). -/
theorem readPast_lines {s : State} {next : Nat} (h : linesOk s) (f : ∀ x, s.comp.ctx = some x → x.resume ≤ next) :
    linesOk (readPast s next) := by
  refine Stays.lines (modComp_stays s ⟨.rfl, fun x _ e => ⟨{ x with resume := next }, by simp [e], rfl, fun n l => ?_⟩⟩) h
  have le := f x e
  unfold lineAt at *
  dsimp only
  split at l
  · exact l
  · exact l
  · obtain ⟨y, ey, a, b, c, d, i⟩ := l
    exact ⟨y, ey, a, by omega, c, fun k => by have := d k; omega, i⟩
  · obtain ⟨y, ey, a, b, c, d, i⟩ := l
    exact ⟨y, ey, a, by omega, c, fun k => by have := d k; omega, i⟩

/-- Another item of the word being read, taken where reading stood (R42). -/
theorem group_lines {s : State} {d : Compositor} {x : Context} {i : BuildItem} {next : Nat} (h : linesOk s)
    (ex : s.comp.ctx = some x) (f : x.resume < next) (off : i.offset = x.resume)
    (phase : d.phase = s.comp.phase) (ctx : d.ctx = some { x with resume := next })
    (snap : ∀ y, s.comp.snap = some y → ∃ z, d.snap = some z ∧ z.resume = y.resume) (line : d.line = s.comp.line)
    (start : d.groupStart = s.comp.groupStart) (held : d.held = s.comp.held)
    (group : d.group = s.comp.group ∨ d.group = s.comp.group ++ [i]) : linesOk { s with comp := d } := by
  refine Stays.lines (s := s) ⟨fun _ => id, fun _ k => k.trans ⟨by rw [phase], fun z _ ez => ?_⟩, fun _ => id, fun _ => id⟩ h
  rw [ex] at ez; injection ez with ez; subst ez
  refine ⟨_, ctx, rfl, fun n l => ?_⟩
  unfold lineAt at *
  rw [phase]
  have key : (∃ y, s.comp.snap = some y ∧ y.resume < n ∧ y.resume ≤ x.resume ∧ x.nextLine ≤ 49152 + y.resume ∧
      (s.comp.line ≠ [] ∨ s.comp.group ≠ [] → y.resume < x.resume) ∧
      (s.comp.line ≠ [] → y.resume < s.comp.groupStart ∧ ∀ b ∈ s.comp.group, y.resume < b.offset) ∧
      ∀ b ∈ s.comp.group.tail, y.resume < b.offset) →
      ∃ y, d.snap = some y ∧ y.resume < n ∧ y.resume ≤ next ∧ x.nextLine ≤ 49152 + y.resume ∧
      (d.line ≠ [] ∨ d.group ≠ [] → y.resume < next) ∧
      (d.line ≠ [] → y.resume < d.groupStart ∧ ∀ b ∈ d.group, y.resume < b.offset) ∧
      ∀ b ∈ d.group.tail, y.resume < b.offset := by
    rintro ⟨y, ey, a, b, c, e, g, k⟩
    obtain ⟨z, ez, er⟩ := snap y ey
    refine ⟨z, ez, by omega, by omega, by omega, fun _ => by omega, fun m => ?_, ?_⟩
    · rw [line] at m
      obtain ⟨g1, g2⟩ := g m
      rw [start, er]
      refine ⟨g1, ?_⟩
      rcases group with q | q <;> rw [q]
      · exact g2
      · intro w hw
        rcases List.mem_append.1 hw with hw | hw
        · exact g2 w hw
        · rw [List.mem_singleton.1 hw, off]; exact e (.inl m)
    · rw [er]
      rcases group with q | q <;> rw [q]
      · exact k
      · intro w hw
        cases eg : s.comp.group with
        | nil => rw [eg] at hw; exact nomatch hw
        | cons u l =>
          rw [eg, List.cons_append, List.tail_cons] at hw
          rw [eg, List.tail_cons] at k
          rcases List.mem_append.1 hw with hw | hw
          · exact k w hw
          · rw [List.mem_singleton.1 hw, off]; exact e (.inr (by simp [eg]))
  split at l
  · exact l
  · rw [held]; exact l
  · exact key l
  · exact key l

theorem placeBox_lines {s : State} {k : ItemKind} {code w : Nat} {a : Bool} {next : Nat} (h : linesOk s)
    (f : ∀ x, s.comp.ctx = some x → x.resume < next) : linesOk (placeBox s k code w a next) := by
  unfold placeBox
  split
  · next x ex =>
    refine group_lines h ex (f x ex) rfl rfl rfl (fun y ey => ?_) rfl rfl rfl (.inr rfl)
    dsimp only
    split
    · exact ⟨y, ey, rfl⟩
    · exact ⟨{ y with font := x.font, size := x.size }, by simp [ey], rfl⟩
  · exact h

theorem placeNbspace_lines {s : State} {next : Nat} (h : linesOk s) (f : ∀ x, s.comp.ctx = some x → x.resume < next) :
    linesOk (placeNbspace s next) := by
  unfold placeNbspace
  split
  · next x ex =>
    refine group_lines (i := { spaceItem (s.comp.line ++ s.comp.group) with
        offset := x.resume, subst := s.comp.subst, after := s.comp.afterSpace }) h ex (f x ex) rfl rfl rfl
      (fun y ey => ⟨y, ey, rfl⟩) rfl rfl rfl ?_
    dsimp only
    split
    · exact .inr rfl
    · exact .inl rfl
  · exact h

/-! ### Reading copy (R5, R36) -/

/-- What is about to be read. -/
theorem reading_some {s : State} {r : Reading} (e : reading? s = some r) :
    s.comp.phase = .setting ∧ s.active? = some r.take ∧ s.comp.ctx = some r.ctx ∧
    (∀ b, r.byte = some b → r.ctx.resume < r.take.textLen) := by
  unfold reading? at e
  split at e
  · next t x c a b =>
    injection e with e; subst e
    refine ⟨?_, a, b, fun z ez => ?_⟩
    · unfold State.composing at c; simp at c; exact c.1
    · dsimp only at ez; split at ez
      · assumption
      · exact nomatch ez
  · exact nomatch e

theorem readByte_lines {s : State} {p : Nat → Bool} {act : Reading → Nat → State} (h : linesOk s)
    (k : ∀ r b, reading? s = some r → r.byte = some b → linesOk (act r b)) : linesOk (readByte s p act) := by
  unfold readByte
  split
  · next r e =>
    split
    · next b eb =>
      split
      · exact k r b e eb
      · exact h
    · exact h
  · exact h

/-- A copy command (R5): what it does keeps the lines sound from where its arguments have been read past. -/
theorem copyCommand_lines {s : State} {code n : Nat} {act : Reading → List Nat → State → State} (h : linesOk s)
    (k : ∀ r a u, reading? s = some r → r.ctx.resume < r.take.textLen → u = readPast s (r.ctx.resume + 1 + n) → linesOk u →
      linesOk (act r a u)) : linesOk (copyCommand s code n act) := by
  unfold copyCommand
  refine readByte_lines h fun r b e eb => ?_
  obtain ⟨-, -, ex, lt⟩ := reading_some e
  have lt := lt b eb
  have at_ : ∀ x, s.comp.ctx = some x → x.resume = r.ctx.resume := fun x i => by rw [ex] at i; injection i with i; rw [i]
  split
  · exact k r _ _ e lt rfl (readPast_lines h fun x i => by have := at_ x i; omega)
  · exact readPast_lines ((addCopyErrors_stays s 1).lines h) fun x i => by have := at_ x i; omega

/-- Reading has gone on by one byte, which the action takes as a box or a space. -/
theorem takeFixedSpace_lines {s : State} {r : Reading} (u : Nat) (h : linesOk s) (e : reading? s = some r) :
    linesOk (takeFixedSpace s r u) := by
  obtain ⟨-, -, ex, -⟩ := reading_some e
  exact placeBox_lines h fun x i => by rw [ex] at i; injection i with i; rw [i]; exact Nat.lt_succ_self _

theorem takeNbspace_lines {s : State} {r : Reading} (h : linesOk s) (e : reading? s = some r) :
    linesOk (placeNbspace s (r.ctx.resume + 1)) := by
  obtain ⟨-, -, ex, -⟩ := reading_some e
  exact placeNbspace_lines h fun x i => by rw [ex] at i; injection i with i; rw [i]; exact Nat.lt_succ_self _

theorem lookup_comp (s : State) (f c : Nat) : (lookup s f c).2.comp = s.comp := by
  unfold lookup; dsimp only; (repeat' split) <;> rfl

theorem takeCharacter_lines {s : State} {r : Reading} (code : Nat) (h : linesOk s) (e : reading? s = some r) :
    linesOk (takeCharacter s r code) := by
  obtain ⟨-, -, ex, -⟩ := reading_some e
  refine placeBox_lines ((lookup_stays s r.ctx.font code).lines h) fun x i => ?_
  have i : (lookup s r.ctx.font code).2.comp.ctx = some x := i
  rw [lookup_comp, ex] at i; injection i with i; rw [i]; exact Nat.lt_succ_self _

theorem readOne_lines {s : State} {r : Reading} (h : linesOk s) (e : reading? s = some r) :
    linesOk (readPast s (r.ctx.resume + 1)) := by
  obtain ⟨-, -, ex, -⟩ := reading_some e
  exact readPast_lines h fun x i => by rw [ex] at i; injection i with i; rw [i]; exact Nat.le_succ _

theorem takeUnknown_lines {s : State} {r : Reading} (h : linesOk s) (e : reading? s = some r) : linesOk (takeUnknown s r) := by
  obtain ⟨-, -, ex, -⟩ := reading_some e
  refine Stays.lines (modComp_stays _ ⟨.rfl, fun x _ i => ⟨x, i, rfl, fun _ k => k⟩⟩)
    (readPast_lines ((addCopyErrors_stays s 1).lines h) fun x i => ?_)
  have i : s.comp.ctx = some x := i
  rw [ex] at i; injection i with i; rw [i]; exact Nat.le_succ _

theorem takeWordSpace_lines {s : State} {r : Reading} (o : heldOk s) (h : linesOk s) (e : reading? s = some r) :
    linesOk (takeWordSpace s r) := by
  obtain ⟨p, et, ex, -⟩ := reading_some e
  unfold takeWordSpace
  split
  · refine closeGroup_lines h (.inl p) et (textLen_le o et) (fun x i => ?_) fun x y i j lt le g => ?_
    · rw [ex] at i; injection i with i; rw [i]
    · rw [ex] at i; injection i with i; subst i; exact ⟨by omega, g⟩
  · exact Stays.lines (modComp_stays _ ⟨.rfl, fun x _ i => ⟨x, i, rfl, fun _ k => k⟩⟩) (readOne_lines h e)

/-- ENDPARA (R14), read past. -/
theorem endpara_lines {s : State} {r : Reading} (o : heldOk s) (h : linesOk s) (e : reading? s = some r)
    (k : linesOk (readPast s (r.ctx.resume + 1))) :
    linesOk (endParagraph (readPast s (r.ctx.resume + 1)) r r.ctx.resume (r.ctx.resume + 1)) := by
  obtain ⟨p, et, ex, -⟩ := reading_some e
  obtain ⟨x0, y0, ex0, ey0, -, le0, -, g0, -⟩ := reads_at h (.inl p) et
  rw [ex] at ex0; injection ex0 with ex0; subst ex0
  refine closeGroup_lines k (.inl p) et (textLen_le o et) (fun x i => ?_) fun x y _ j _ _ _ => ?_
  · have i : s.comp.ctx.map (fun c => { c with resume := r.ctx.resume + 1 }) = some x := i
    rw [ex] at i; injection i with i; rw [← i]
  · have j : s.comp.snap = some y := j
    rw [ey0] at j; injection j with j; subst j
    exact ⟨by omega, fun g => g0 (.inr g)⟩

theorem takeEnd_lines {s : State} (o : heldOk s) (h : linesOk s) : linesOk (takeEnd s) := by
  unfold takeEnd
  split
  · next r e =>
    obtain ⟨p, et, ex, -⟩ := reading_some e
    split
    · split
      · refine closeGroup_lines h (.inl p) et (textLen_le o et) (fun x i => ?_) fun x y _ _ lt _ _ => ⟨lt, fun _ => lt⟩
        rw [ex] at i; injection i with i; rw [i]
      · exact reportEnd_lines _ h
    · exact h
  · exact h

/-! ### The store takes and removes lines (R35, R83) -/

theorem retryLine_lines {s t : State} (o : heldOk s) (h : linesOk s) (e : retryLine s = some t) : linesOk t := by
  unfold retryLine at e
  split at e
  · next u x l et ex el =>
    split at e
    · next c =>
      injection e with e; subst e
      have p : s.comp.phase ≠ .idle := by simp [c.1]
      have k := h
      obtain ⟨⟨n, -, -, -, ph⟩, -, -⟩ := k
      obtain ⟨x', u', ex', -, -, la⟩ := ph p
      rw [ex] at ex'; injection ex' with ex'; subst ex'
      simp only [lineAt, c.1] at la
      obtain ⟨l', el', num, le, far⟩ := la
      rw [el] at el'; injection el' with el'; subst el'
      exact appendLine_lines h p et (textLen_le o et) ex rfl num le far
    · simp at e
  · simp at e

theorem storeRemove_lines {s t : State} (h : linesOk s) (e : storeRemove s = some t) : linesOk t := by
  unfold storeRemove at e
  split at e
  · next r l er =>
    split at e
    · simp at e
    · injection e with e; subst e
      obtain ⟨⟨n, n1, n2, en, ph⟩, none, pass⟩ := h
      have no : ¬ resting s := fun z => by have := z.1; rw [er] at this; exact nomatch this
      generalize ea : s.store.records.takeWhile (fun x => !x.filmPending && !x.proofPending) = a
      generalize eb : s.store.records.dropWhile (fun x => !x.filmPending && !x.proofPending) = b
      have eab : s.store.records = a ++ b := by rw [← ea, ← eb, List.takeWhile_append_dropWhile]
      rw [eab, List.length_append] at n2 en ph
      rw [List.map_append, ← List.range'_append] at en
      obtain ⟨-, en⟩ := List.append_inj en (by simp)
      refine ⟨⟨n + a.length, by omega, by dsimp only; omega, ?_, fun p => ?_⟩, fun z => absurd (none z) no, fun q eq => ?_⟩
      · dsimp only; rw [en]; simp
      · obtain ⟨x, u, ex, eu, nx, la⟩ := ph p
        exact ⟨x, u, ex, eu, by dsimp only; omega, la⟩
      · obtain ⟨k1, k2, k3⟩ := pass q eq
        exact ⟨k1, fun c => absurd (k2 c) no, fun j ej c => absurd (k3 j ej c) no⟩
  · simp at e

/-! ### A pass starts (R35, R186, R187) -/

/-- What a line rests on where it begins is left by what changes neither the store nor the pass. -/
theorem LineDue.same {s u : State} {t : Take} {x : Context} (h : LineDue s t x) (a : ActiveKept s.takes u.takes)
    (b : u.store = s.store) (c : u.pass = s.pass) : LineDue u t x := by
  obtain ⟨⟨v, ev, lv⟩, n, room, pass⟩ := h
  obtain ⟨w, ew, lw⟩ := active_len a ev
  exact ⟨⟨w, ew, lw.trans lv⟩, b ▸ n, room, c ▸ pass⟩

theorem startCompositor_lines {s : State} {t : Take} (et : s.active? = some t) (e : s.store.records = [])
    (pass : ∀ p, s.pass = some p → p.killing = false ∧ p.emptied = false ∧ ∀ q, p.park = some q → q.answered = false) :
    linesOk (startCompositor s t) := by
  have due (x : Context) (a : 1 ≤ x.nextLine) (b : x.nextLine ≤ 49152) : LineDue s t x :=
    ⟨⟨t, et, rfl⟩, ⟨x.nextLine, a, by rw [e]; simp; omega, by rw [e]; rfl, fun _ => by rw [e]; rfl⟩, fun _ => by omega, pass⟩
  have cnt (u : State) (f) : ActiveKept u.takes (u.count f).takes := ActiveKept.rfl.map fun x _ => by
    split <;> exact TakeStays.rfl.both
  unfold startCompositor
  split
  · exact startLine_lines _ _ ((due _ (Nat.le_refl _) (by simp [defaultContext])).same (cnt _ _) rfl rfl)
  · next c _ =>
    have far : 1 ≤ (rangeContext t.fonts t.textLen c).1.nextLine ∧ (rangeContext t.fonts t.textLen c).1.nextLine ≤ 49152 := by
      show 1 ≤ clamp 1 Config.lineNumberCap c.nextLine ∧ clamp 1 Config.lineNumberCap c.nextLine ≤ 49152
      unfold clamp Config.lineNumberCap
      omega
    exact startLine_lines _ _ ((((due _ far.1 far.2).same (cnt s _) rfl rfl).same (cnt _ _) rfl rfl).same (cnt _ _) rfl rfl)

/-- With no take ACTIVE the lines rest. -/
theorem rests {s : State} (h : linesOk s) (e : s.active? = none) : resting s := h.2.1 e

theorem startPass_lines {s : State} {t : Take} (h : linesOk s) (m : t ∈ s.takes) (e : s.active? = none) :
    linesOk (startPass s t) := by
  obtain ⟨r, -⟩ := rests h e
  have na : ∀ x ∈ s.takes, x.state ≠ .active := by simpa [State.active?, List.find?_eq_none] using e
  unfold startPass
  dsimp only
  refine (produce_stays _ _ _).lines (startCompositor_lines ?_ r fun p ep => ?_)
  · generalize et : ({ t with
      state := .active, timer := none
      startValues := if t.nextPass = .proof then some (genValues s t) else t.startValues
      proofState := if t.context.isNone then .complete else t.proofState } : Take) = u
    have ua : u.state = .active := by rw [← et]
    show (s.takes.map (fun x => if x.key == t.key then u else x)).find? _ = some u
    cases f : (s.takes.map (fun x => if x.key == t.key then u else x)).find? (fun x => x.state == .active) with
    | none =>
      rw [List.find?_eq_none] at f
      have := f u (List.mem_map.2 ⟨t, m, by simp⟩)
      simp [ua] at this
    | some v =>
      have ve := List.find?_some f
      obtain ⟨x, hx, rfl⟩ := List.mem_map.1 (List.mem_of_find?_eq_some f)
      split
      · rfl
      · next c => rw [if_neg c] at ve; exact absurd (by simpa using ve) (na x hx)
  · injection ep with ep; subst ep; exact ⟨rfl, rfl, fun _ k => nomatch k⟩

theorem selectTake_lines {s t} (h : linesOk s) (e : selectTake s = some t) : linesOk t := by
  unfold selectTake at e
  split at e
  · next c =>
    obtain ⟨x, hx, rfl⟩ := Option.map_eq_some_iff.1 e
    exact startPass_lines h (List.mem_filter.1 (first_mem hx)).1 (by simpa using c.2)
  · simp at e

/-! ### A pass ends: nothing of it is left (R84, R155, R189, R192, R95, R94) -/

theorem Stays.rest {s t : State} (k : Stays s t) (h : resting s) : resting t := by
  have kn := k.1 _ NumbersKept.rfl
  have kc := k.2.1 _ CompKept.rfl
  unfold NumbersKept at kn
  exact ⟨by simpa [h.1] using kn, kc.1.2 h.2⟩

theorem rest_of {s t : State} (a : t.store = s.store) (b : t.comp = s.comp) (h : resting s) : resting t := ⟨a ▸ h.1, b ▸ h.2⟩

theorem toQueued_rest {s : State} (k : Key) (h : resting s) : resting (toQueued s k) :=
  (wake_stays _).rest (rest_of (s := s) rfl rfl h)

theorem freeTake_rest {s : State} (k : Key) (h : resting s) : resting (freeTake s k) := by
  unfold freeTake
  split
  · exact (unpinFonts_stays _ _).rest (rest_of (s := s) rfl rfl h)
  · exact h

theorem settleApproval_rest {s : State} (k : Key) (p : Bool) (h : resting s) : resting (settleApproval s k p) := by
  unfold settleApproval
  split
  · exact toQueued_rest k (rest_of (s := s) rfl rfl h)
  · exact toQueued_rest k ((produce_stays _ _ _).rest (rest_of (s := s) rfl rfl h))

theorem afterPark_rest {s : State} (k : Key) (r : ParkReason) (h : resting s) : resting (afterPark s k r) := by
  unfold afterPark
  (repeat' split) <;> first
    | exact h
    | exact toQueued_rest k h
    | exact (markTakes_stays _ _ _).rest (toQueued_rest k h)

theorem parkFinish_lines {s t} (h : linesOk s) (e : parkFinish s = some t) : linesOk t := by
  unfold parkFinish at e
  split at e
  · next p u ep eu =>
    split at e
    · next q eq =>
      split at e
      · next c =>
        injection e with e; subst e
        have r : resting s := (h.2.2 p ep).2.2 q eq c.1
        refine resting_lines (afterPark_rest _ _ ((parkStop_stays _ _).rest ((produce_stays _ _ _).rest ?_)))
        exact rest_of (s := s) rfl rfl r
      · simp at e
    · simp at e
  · simp at e

theorem killFinish_lines {s t} (h : linesOk s) (e : killFinish s = some t) : linesOk t := by
  unfold killFinish at e
  split at e
  · next p u ep eu =>
    dsimp only at e
    split at e
    · next c =>
      injection e with e; subst e
      have r := (produce_stays s (some u.key) (.takeKilled .active (counterBlock s u))).rest ((h.2.2 p ep).2.1 c.2.1)
      exact resting_lines (freeTake_rest _ ((dropStop_stays _ _).rest (rest_of rfl rfl r)))
    · simp at e
  · simp at e

theorem completeTake_lines {s t} (e : completeTake s = some t) : linesOk t := by
  unfold completeTake at e
  split at e
  · next p u ep eu =>
    dsimp only at e
    split at e
    · next c =>
      injection e with e; subst e
      refine resting_lines (freeTake_rest _ ((dropStop_stays _ _).rest ⟨?_, rfl⟩))
      have := (produce_stays s (some u.key) (.takeDone (counterBlock s u))).1 _ NumbersKept.rfl
      unfold NumbersKept at this
      simpa [c.2.2.2.2.2] using this
    · simp at e
  · simp at e

theorem endProofPass_lines {s t} (e : endProofPass s = some t) : linesOk t := by
  unfold endProofPass at e
  split at e
  · dsimp only at e
    split at e
    · next c =>
      have r : ∀ u : State, u.store = s.store → u.comp = idleCompositor → resting u := fun u a b => ⟨by rw [a]; exact c.2.2.2, by rw [b]; rfl⟩
      split at e <;> (injection e with e; subst e)
      · exact resting_lines (settleApproval_rest _ _ (r _ rfl rfl))
      · exact resting_lines (r _ rfl rfl)
    · simp at e
  · simp at e

theorem cutProofPass_rest (s : State) : resting (cutProofPass s) := ⟨rfl, rfl⟩
theorem emptyStore_rest {s : State} (h : s.comp.phase = .idle) : resting (emptyStore s) := ⟨rfl, h⟩

theorem abandonPass_lines {s : State} (h : linesOk s) : linesOk (abandonPass s) := by
  unfold abandonPass
  split
  · exact resting_lines (toQueued_rest _ (rest_of rfl rfl ((produce_stays _ _ _).rest (cutProofPass_rest s))))
  · exact h

theorem parkAnswer_lines {s t} (e : parkAnswer s = some t) : linesOk t := by
  unfold parkAnswer at e
  (repeat' split at e) <;> first
    | (injection e with e; subst e; exact (askCut_stays _ _).lines (resting_lines (emptyStore_rest rfl)))
    | (injection e with e; subst e; exact resting_lines (rest_of rfl rfl (cutProofPass_rest s)))
    | simp at e

theorem killEmpties_lines {s t} (h : linesOk s) (e : killEmpties s = some t) : linesOk t := by
  unfold killEmpties at e
  split at e
  · next p ep =>
    split at e
    · next c =>
      have i := (h.2.2 p ep).1 c.1
      split at e
      · injection e with e; subst e; exact resting_lines (rest_of rfl rfl (cutProofPass_rest s))
      · have r : ∀ f, linesOk ((emptyStore s).modPass f) := fun f => resting_lines (rest_of rfl rfl (emptyStore_rest i))
        dsimp only at e
        split at e <;> (injection e with e; subst e)
        · exact r _
        · exact (askCut_stays _ _).lines (resting_lines (rest_of rfl rfl (rest_of rfl rfl (emptyStore_rest i))))
    · simp at e
  · simp at e

theorem killActive_lines {s : State} (t : Take) (h : linesOk s) : linesOk (killActive s t) := by
  unfold killActive
  split
  · exact h
  · refine (dropStop_stays _ _).lines (idle_lines h rfl rfl .rfl fun q e => ?_)
    obtain ⟨r, er, rfl⟩ := Option.map_eq_some_iff.1 e
    exact ⟨r, er, id, fun k i => nomatch i⟩

end Sys2Proof.Machine
end

