-- ==== Sys2Proof/Laws/Queue.lean ====
section
/-! SUPPORT. The Take Queue's operations on takes that are not ACTIVE leave the lines of the pass as they are; with Held.lean and
Pass.lean, every reaction and settling keep a sound state (`soundOk` of Safety.lean) sound. -/

namespace Sys2Proof.Machine

/-! ### Takes that are not ACTIVE -/

theorem Stays.after {s t u : State} (k : Stays t u) (h : Stays s t) : Stays s u := h.trans k

/-- No ACTIVE take has this key. -/
def OffPass (s : State) (k : Key) : Prop := ∀ x ∈ s.takes, x.key = k → x.state ≠ .active

theorem offPass_of {s : State} {k : Key} {t : Take} (h : heldOk s) (e : s.take? k = some t) (a : t.state ≠ .active) : OffPass s k := by
  obtain ⟨m, ek⟩ := take_some e
  intro x hx kx
  rw [key_unique h.1 hx m (kx.trans ek.symm)]
  exact a

theorem offPass_none {s : State} {k : Key} (e : s.take? k = none) : OffPass s k := fun x hx i => absurd i (take_none e x hx)

theorem Keeps.offPass {s t : State} {k : Key} (h : Keeps s t) (o : OffPass s k) : OffPass t k := by
  obtain ⟨g, e, p⟩ := h.1 _ TakesKept.rfl
  intro y hy ky c
  rw [e] at hy
  obtain ⟨x, hx, rfl⟩ := List.mem_map.1 hy
  obtain ⟨a, -, -, -, -, -, -, -, b, -⟩ := p x hx
  exact o x hx (a.symm.trans ky) (b c)

theorem modTake_off {s : State} {k : Key} {f : Take → Take} (o : OffPass s k) (n : ∀ x, x.state ≠ .active → (f x).state ≠ .active) :
    Stays s (s.modTake k f) := by
  refine ⟨fun _ => id, fun _ => id, fun _ => id, fun _ h => h.map fun x hx => ?_⟩
  split
  · next c =>
    have a := o x hx (by simpa using c)
    exact ⟨⟨fun i => absurd i (n x a), fun i => absurd i a⟩, fun i => absurd i a⟩
  · exact TakeStays.rfl.both

theorem toQueued_off {s : State} {k : Key} (o : OffPass s k) : Stays s (toQueued s k) :=
  (modTake_off o (f := Take.queued) fun _ _ => nofun).trans (wake_stays _)

theorem freeTake_off {s : State} {k : Key} (o : OffPass s k) : Stays s (freeTake s k) := by
  unfold freeTake
  split
  · refine Stays.after (unpinFonts_stays _ _) ⟨fun _ => id, fun _ => id, fun _ => id, fun _ h => ?_⟩
    unfold ActiveKept at *
    rw [← h]
    dsimp only
    rw [List.find?_filter]
    congr 1
    unfold OffPass at o
    generalize s.takes = l at o
    induction l with
    | nil => exact .refl _
    | cons x l ih =>
      rw [List.forall_mem_cons] at o
      rw [List.find?_cons, List.find?_cons, ih o.2]
      by_cases c : x.state = .active
      · have : x.key ≠ k := fun i => o.1 i c
        simp [c, this]
      · simp [beq_eq_false_iff_ne.2 c]
  · exact Stays.rfl

/-! ### Reception (R184, R185) -/

theorem takenSent_stays {s : State} (k : Key) (h : heldOk s) : Stays s (takenSent s k) := by
  unfold takenSent
  split
  · next t e =>
    split
    · next c =>
      have o := offPass_of h e (by simp [c])
      refine (modTake_off o ?_).trans (toQueued_off (Keeps.offPass (State.modTake_keeps _ _ fun _ => ?_) o))
      · exact fun _ => id
      · exact .rfl
    · exact Stays.rfl
  · exact Stays.rfl

theorem takenLost_stays {s : State} (k : Key) (h : heldOk s) : Stays s (takenLost s k) := by
  unfold takenLost
  split
  · next t e =>
    split
    · next c => exact freeTake_off (offPass_of h e (by simp [c]))
    · exact Stays.rfl
  · exact Stays.rfl

theorem refuseCopy_off {s : State} {t : Take} (r : Nat) (o : OffPass s t.key) : Stays s (refuseCopy s t r) :=
  (freeTake_off o).trans (handFrame_stays _ _)

theorem receiver_some {s : State} {k : Key} {a : Nat} {t : Take} (e : s.receiver? k a = some t) :
    s.take? k = some t ∧ t.state = .receiving := by
  unfold State.receiver? at e
  obtain ⟨x, ex, i⟩ := Option.bind_eq_some_iff.1 e
  split at i
  · next c => injection i with i; subst i; exact ⟨ex, c.1⟩
  · simp at i

theorem hearCopyEnd_stays {s : State} (a : Nat) (k : Key) (n : Nat) (h : heldOk s) : Stays s (hearCopyEnd s a k n) := by
  unfold hearCopyEnd
  split
  · next t e =>
    obtain ⟨et, r⟩ := receiver_some e
    have o := offPass_of h et (by simp [r])
    split
    · split
      · exact freeTake_off o
      · refine Stays.after (putFrame_stays _ _) (modTake_off o ?_)
        exact fun _ => id
    · exact refuseCopy_off _ ((take_some et).2 ▸ o)
  · exact Stays.rfl

theorem stallExpires_stays {s : State} (k : Key) (h : heldOk s) : Stays s (stallExpires s k) := by
  unfold stallExpires
  split
  · next t e =>
    split
    · next c => exact refuseCopy_off _ ((take_some e).2 ▸ offPass_of h e (by simp [c.1]))
    · exact Stays.rfl
  · exact Stays.rfl

/-! ### Claims (R183) -/

theorem append_stays {s : State} {t : Take} (n : t.state ≠ .active) : Stays s { s with takes := s.takes ++ [t] } := by
  refine ⟨fun _ => id, fun _ => id, fun _ => id, fun _ h => ?_⟩
  unfold ActiveKept at *
  rw [← h, List.find?_append, List.find?_cons_of_neg (by simpa using n)]
  simp

theorem claimWon_stays (s : State) (a : Nat) (m : OfferMsg) : Stays s (claimWon s a m) := by
  unfold claimWon
  dsimp only
  exact (append_stays (by simp [newTake])).trans ((claimFonts_stays _ _).trans ((markReady_stays _).trans ((warmUp_stays _).trans
    ((wake_stays _).trans (cancelWindows_stays _ _)))))

theorem claimEnds_stays (s : State) (k : Key) (e : FrameEnd) : Stays s (claimEnds s k e) := by
  unfold claimEnds
  dsimp only
  split
  · split
    · exact (endWindow_stays _ _).trans (claimWon_stays _ _ _)
    · exact endWindow_stays _ _
  · exact Stays.rfl

/-! ### Releases (R193 to R196) -/

theorem beginOffer_off {s : State} {k : Key} (n : Nat) (b : Bool) (o : OffPass s k) : Stays s (beginOffer s k n b) :=
  Stays.after (sendOffer_stays _ _) (modTake_off o fun _ _ c => nomatch c)

theorem strand_off {s : State} {k : Key} (o : OffPass s k) : Stays s (strand s k) := by
  unfold strand
  dsimp only
  split
  · split
    · exact modTake_off o fun _ _ c => nomatch c
    · exact Stays.after (produce_stays _ _ _) (modTake_off o fun _ _ c => nomatch c)
  · exact Stays.rfl

theorem releaseFails_off {s : State} {k : Key} (o : OffPass s k) : Stays s (releaseFails s k) := by
  unfold releaseFails
  dsimp only
  split
  · have o1 := (withdraw_keeps s (TxFrame.isCopyOf k)).offPass o
    split
    · exact (withdraw_stays _ _).trans (beginOffer_off _ _ o1)
    · exact (withdraw_stays _ _).trans (strand_off o1)
  · exact Stays.rfl

theorem copyMuted_stays {s : State} (k : Key) (d : Nat) (h : heldOk s) : Stays s (copyMuted s k d) := by
  unfold copyMuted
  split
  · next t e =>
    split
    · next c => exact releaseFails_off (offPass_of h e (by simp [c.1]))
    · exact Stays.rfl
  · exact Stays.rfl

theorem hearRefused_stays {s : State} (a : Nat) (k : Key) (h : heldOk s) : Stays s (hearRefused s a k) := by
  unfold hearRefused
  split
  · next t e =>
    split
    · next c => exact releaseFails_off (offPass_of h e (by simp [c.1]))
    · exact Stays.rfl
  · exact Stays.rfl

theorem takenWaitExpires_stays {s : State} (k : Key) (h : heldOk s) : Stays s (takenWaitExpires s k) := by
  unfold takenWaitExpires
  split
  · next t e =>
    split
    · next c => exact releaseFails_off (offPass_of h e (by simp [c.1]))
    · exact Stays.rfl
  · exact Stays.rfl

theorem hearTaken_stays {s : State} (a : Nat) (k : Key) (h : heldOk s) : Stays s (hearTaken s a k) := by
  unfold hearTaken
  split
  · next t e =>
    split
    · next c =>
      have o := offPass_of h e (by rcases c.1 with c | c <;> simp [c])
      exact (stopRelease_stays _ _).trans ((produce_stays _ _ _).trans
        (freeTake_off (((stopRelease_keeps _ _).trans (produce_keeps _ _ _)).offPass o)))
    · exact Stays.rfl
  · exact Stays.rfl

/-- The takes found by a state other than ACTIVE are not on the pass. -/
theorem mem_off {s : State} {t : Take} (h : heldOk s) (m : t ∈ s.takes) (a : t.state ≠ .active) : OffPass s t.key := fun x hx e => by
  rw [key_unique h.1 hx m e]; exact a

theorem beginRelease_stays {s t} (h : heldOk s) (e : beginRelease s = some t) : Stays s t := by
  unfold beginRelease at e
  split at e
  · simp at e
  · split at e
    · next x f =>
      injection e with e; subst e
      obtain ⟨m, c⟩ := List.mem_filter.1 (first_mem f)
      exact beginOffer_off _ _ (mem_off h m (by simp at c; simp [c.1]))
    · obtain ⟨x, f, rfl⟩ := Option.map_eq_some_iff.1 e
      obtain ⟨m, c⟩ := List.mem_filter.1 (first_mem f)
      refine beginOffer_off _ _ (mem_off h m fun i => ?_)
      simp [i] at c

theorem feedCopy_stays {s t} (h : heldOk s) (e : feedCopy s = some t) : Stays s t := by
  unfold feedCopy at e
  split at e
  · next x r =>
    obtain ⟨m, st⟩ := releasing_some r
    have o := mem_off h m (by simp [st])
    split at e
    · split at e
      · injection e with e; subst e; exact releaseFails_off o
      · dsimp only at e
        have go : ∀ (f : Take → Take) (g : TxFrame), putFrame (s.modTake x.key f) g = t → (∀ y, (f y).state = y.state) →
            Stays s t := by
          intro f g e i
          subst e
          exact Stays.after (putFrame_stays _ _) (modTake_off o fun y n => by rw [i]; exact n)
        (repeat' split at e) <;> first
          | (injection e with e; exact go _ _ e fun _ => rfl)
          | simp at e
    · simp at e
  · simp at e

theorem decideStranded_off {s : State} {t : Take} (o : OffPass s t.key) : Stays s (decideStranded s t) := by
  unfold decideStranded
  split
  · exact modTake_off o fun _ _ => nofun
  · exact modTake_off o fun _ => id

theorem reaskReport_stays {s t} (h : heldOk s) (e : reaskReport s = some t) : Stays s t := by
  obtain ⟨x, f, rfl⟩ := Option.map_eq_some_iff.1 e
  have c := List.find?_some f
  have o := mem_off h (List.mem_of_find?_eq_some f) (by simp at c; simp [c.1])
  have k : Keeps s (s.modTake x.key (fun x => { x with reask := none })) := State.modTake_keeps _ _ fun _ => .rfl
  refine Stays.after (decideStranded_off (k.offPass o)) (modTake_off o ?_)
  exact fun _ => id

theorem strandTurn_stays {s : State} (k : Key) (h : heldOk s) : Stays s (strandTurn s k) := by
  unfold strandTurn
  split
  · next t e =>
    split
    · next c =>
      have o := offPass_of h e (by simp [c.1])
      have m : Stays s (s.modTake k (fun x => { x with timer := none })) := modTake_off o fun _ => id
      have o1 : OffPass (s.modTake k (fun x => { x with timer := none })) k := Keeps.offPass (State.modTake_keeps _ _ fun _ => .rfl) o
      dsimp only
      split
      · refine m.trans ((foldl_stays _ reAskFont_stays _ _).trans (State.modTake_stays _ _ fun _ => ?_))
        exact .rfl
      · exact m.trans (decideStranded_off ((take_some e).2 ▸ o1))
    · exact Stays.rfl
  · exact Stays.rfl

theorem lapse_stays {s : State} (sub : Subject) (h : heldOk s) : Stays s (lapse s sub) := by
  unfold lapse
  dsimp only
  split
  · next _ =>
    split
    · next k _ =>
      refine Stays.trans (endWatch_stays s (.take k)) ?_
      have h1 := (endWatch_keeps s (.take k)).held h
      split
      · next t e =>
        split
        · next c => exact strand_off (offPass_of h1 e (by simp [c.1]))
        · exact Stays.rfl
      · exact Stays.rfl
    · next f _ =>
      split
      · refine Stays.after (markTakes_stays _ _ _) (Stays.after (askEnded_stays _ _) (Stays.trans (endWatch_stays _ (.font f)) ?_))
        refine ⟨fun _ => id, fun _ => id, fun _ => id, fun _ h => h.map fun x _ => ?_⟩
        split <;> exact TakeStays.rfl.both
      · exact endWatch_stays _ _
  · exact Stays.rfl

/-! ### Approvals and kills (R190 to R192) -/

theorem settleApproval_off {s : State} {k : Key} (p : Bool) (o : OffPass s k) : Stays s (settleApproval s k p) := by
  have m : ∀ f : Take → Take, (∀ x, TakeKept x (f x)) → OffPass (s.modTake k f) k := fun f i => (State.modTake_keeps s k i).offPass o
  unfold settleApproval
  dsimp only
  split
  · refine Stays.after (toQueued_off (m _ fun _ => ?_)) (modTake_off o ?_)
    · exact .rfl
    · exact fun _ => id
  · refine Stays.after (toQueued_off ((produce_keeps _ _ _).offPass (m _ fun _ => ?_))) (Stays.after (produce_stays _ _ _) (modTake_off o ?_))
    · exact .rfl
    · exact fun _ => id

theorem hearApprove_stays {s : State} (k : Key) (h : heldOk s) : Stays s (hearApprove s k) := by
  have m : Stays s (s.modTake k (fun x => { x with approvalPending := true })) := State.modTake_stays _ _ fun _ => .rfl
  unfold hearApprove
  split
  · next t e =>
    split
    · exact Stays.rfl
    · split
      · next c => exact settleApproval_off _ (offPass_of h e (by simp [c]))
      · split
        · exact m
        · exact Stays.rfl
      · split
        · exact Stays.rfl
        · exact m
      · split
        · exact Stays.rfl
        · exact m
      · exact m
      · exact Stays.rfl
      · exact Stays.rfl
  · exact Stays.rfl

theorem killHeld_off {s : State} {t : Take} (o : OffPass s t.key) : Stays s (killHeld s t) := by
  have go : ∀ u, Keeps s u → Stays s u → Stays s (freeTake (produce u (some t.key) (.takeKilled t.state (counterBlock u t))) t.key) :=
    fun u k st => st.trans ((produce_stays _ _ _).trans (freeTake_off ((k.trans (produce_keeps _ _ _)).offPass o)))
  unfold killHeld
  refine go _ ?_ ?_ <;> split
  · exact withdraw_keeps _ _
  · exact stopRelease_keeps _ _
  · exact Keeps.rfl
  · exact withdraw_stays _ _
  · exact stopRelease_stays _ _
  · exact Stays.rfl

theorem hearKill_lines {s : State} (k : Key) (h : soundOk s) : linesOk (hearKill s k) := by
  have h1 := (cancelWindows_keeps s (WindowFor.isClaimFor k)).held h.1
  have l1 := (cancelWindows_stays s (WindowFor.isClaimFor k)).lines h.2
  unfold hearKill
  dsimp only
  split
  · next t e =>
    split
    · exact killActive_lines _ l1
    · next c => exact (killHeld_off (by rw [(take_some e).2]; exact offPass_of h1 e c)).lines l1
  · exact l1

/-! ### Frames ended and received (R165, R167 to R169) -/

theorem tellProducer_stays {s : State} (f : TxFrame) (e : FrameEnd) (h : heldOk s) : Stays s (tellProducer s f e) := by
  unfold tellProducer
  split
  · exact claimEnds_stays _ _ _
  · exact endWindow_stays _ _
  · split
    · exact takenSent_stays _ h
    · exact takenLost_stays _ h
  · exact Stays.rfl
  · split
    · exact startWatch_stays _ _
    · exact Stays.rfl
  · exact offerEnds_stays _ _
  · split
    · exact (markSent_stays _ _ _).trans (startTakenWait_stays _ _ _)
    · exact startTakenWait_stays _ _ _
    · exact copyMuted_stays _ _ h
  · split
    · exact copyMuted_stays _ _ h
    · exact Stays.rfl
  · exact announceGone_stays _
  · exact Stays.rfl

theorem frameEnds_stays {s : State} (e : FrameEnd) (h : heldOk s) : Stays s (frameEnds s e) := by
  unfold frameEnds
  split
  · exact Stays.after (tellProducer_stays _ _ (heldOk_of (s := s) rfl rfl rfl h)) (stays_of rfl rfl rfl rfl)
  · exact Stays.rfl

theorem becomeMuted_stays {s : State} (h : heldOk s) : Stays s (becomeMuted s) := by
  unfold becomeMuted
  split
  · exact Stays.rfl
  · have go : ∀ (l : List TxFrame) (u : State), heldOk u → Stays u (l.foldl (fun st f => tellProducer st f .muted) u) := by
      intro l
      induction l with
      | nil => exact fun u _ => Stays.rfl
      | cons f l ih =>
        exact fun u k => (tellProducer_stays f .muted k).trans (ih _ (tellProducer_held f .muted k fun c => nomatch c))
    refine Stays.after (go _ _ ?_) (stays_of rfl rfl rfl rfl)
    exact Keeps.held (s := s) ⟨fun _ h => h, fun _ _ => .nil, fun _ h => h⟩ h

theorem receive_sound {s : State} {a : Header} {ok taken : Bool} {act : State → State} (h : soundOk s)
    (k : ok = true → ∀ u, soundOk u → soundOk (act u)) : soundOk (receive s a ok taken act) := by
  have h1 : soundOk { s with line := { s.line with phase := .gapDue } } :=
    ⟨heldOk_of rfl rfl rfl h.1, (stays_of (s := s) rfl rfl rfl rfl).lines h.2⟩
  unfold receive
  split
  · split
    · next o =>
      dsimp only
      have h2 : soundOk (if a.sender = s.number then becomeMuted { s with line := { s.line with phase := .gapDue } }
          else { s with line := { s.line with phase := .gapDue } }) := by
        split
        · exact ⟨becomeMuted_held h1.1, (becomeMuted_stays h1.1).lines h1.2⟩
        · exact h1
      split
      · exact k o _ h2
      · exact h2
    · exact ⟨Keeps.held (keeps_of (s := s) rfl rfl rfl) h.1, (stays_of (s := s) rfl rfl rfl rfl).lines h.2⟩
  · exact h

/-! ### Resets -/

theorem takePaper_rest {s : State} (h : resting s) : resting (takePaper s) := (takePaper_stays s).rest h

theorem powerOn_lines (s : State) (p : Pins) : linesOk (powerOn s p) := resting_lines (takePaper_rest ⟨rfl, rfl⟩)

theorem lineReset_lines (s : State) (p : Straps) : linesOk (lineReset s p) := by
  unfold lineReset
  dsimp only
  refine resting_lines (takePaper_rest ?_)
  split
  · exact (startHoming_stays _).rest ⟨rfl, rfl⟩
  · exact ⟨rfl, rfl⟩

theorem reset_sound : soundOk State.reset := ⟨reset_held, resting_lines ⟨rfl, rfl⟩⟩

/-! ### Reactions and settling -/

theorem reaction_sound {r : State → Option State} (hr : r ∈ reactions) {s t : State} (e : r s = some t) (h : soundOk s) : soundOk t := by
  refine ⟨reaction_held hr e h.1, ?_⟩
  obtain ⟨o, l⟩ := h
  simp only [reactions, List.mem_cons, List.not_mem_nil, or_false] at hr
  obtain rfl | rfl | rfl | rfl | rfl | rfl | rfl | rfl | rfl | rfl | rfl | rfl | rfl | rfl | rfl | rfl | rfl | rfl |
    rfl | rfl | rfl | rfl | rfl := hr
  · exact storeRemove_lines l e
  · exact retryLine_lines o l e
  · exact parkAnswer_lines e
  · exact killEmpties_lines l e
  · exact (askEndCut_stays e).lines l
  · exact parkFinish_lines l e
  · exact killFinish_lines l e
  · exact completeTake_lines e
  · exact endProofPass_lines e
  · exact (reaskReport_stays o e).lines l
  · exact (beginRelease_stays o e).lines l
  · exact (feedCopy_stays o e).lines l
  · exact (startCutDone_stays e).lines l
  · exact (serveFilm_stays e).lines l
  · exact (endHalted_stays e).lines l
  · exact (checkLine_stays e).lines l
  · exact (goLine_stays e).lines l
  · exact (scanStep_stays e).lines l
  · exact (beginExposure_stays e).lines l
  · exact selectTake_lines l e
  · exact (takeLine_stays e).lines l
  · exact (beginChar_stays e).lines l
  · exact (retestWindows_stays e).lines l

theorem settle_sound {s : State} (h : soundOk s) : soundOk (settle s) :=
  Sys2Proof.Machine.settle_keeps (P := soundOk) (fun _ hr _ _ p e => reaction_sound hr e p) h

theorem done_sound {s t : State} (h : soundOk s) (e : done s = .next t) : soundOk t := by
  injection e with e; subst e; exact settle_sound h

end Sys2Proof.Machine
end

