-- ==== Sys2Proof/Laws/State.lean ====
section
/-! SUPPORT. One lemma for each field that a named update of State leaves alone or sets, true by unfolding, so that later
proofs need not unfold a record update. -/

namespace Sys2Proof.Machine

@[simp] theorem modComp_comp (s f) : (modComp s f).comp = f s.comp := rfl
@[simp] theorem modComp_takes (s f) : (modComp s f).takes = s.takes := rfl
@[simp] theorem modComp_store (s f) : (modComp s f).store = s.store := rfl
@[simp] theorem modComp_stop (s f) : (modComp s f).stop = s.stop := rfl
@[simp] theorem modComp_line (s f) : (modComp s f).line = s.line := rfl
@[simp] theorem modComp_width (s f) : (modComp s f).width = s.width := rfl
@[simp] theorem modCtx_ctx (s f) : (modCtx s f).comp.ctx = s.comp.ctx.map f := rfl
@[simp] theorem modCtx_pend (s f) : (modCtx s f).comp.pend = s.comp.pend := rfl
@[simp] theorem modCtx_takes (s f) : (modCtx s f).takes = s.takes := rfl
@[simp] theorem modPend_pend (s f) : (modPend s f).comp.pend = f s.comp.pend := rfl
@[simp] theorem modPend_ctx (s f) : (modPend s f).comp.ctx = s.comp.ctx := rfl
@[simp] theorem modPend_takes (s f) : (modPend s f).takes = s.takes := rfl

@[simp] theorem modExp_exp (s f) : (modExp s f).exp = f s.exp := rfl
@[simp] theorem modExp_store (s f) : (modExp s f).store = s.store := rfl
@[simp] theorem modExp_stop (s f) : (modExp s f).stop = s.stop := rfl
@[simp] theorem modExp_film (s f) : (modExp s f).film = s.film := rfl
@[simp] theorem modExp_takes (s f) : (modExp s f).takes = s.takes := rfl
@[simp] theorem modExp_lamp (s f) : (modExp s f).lamp = s.lamp := rfl
@[simp] theorem modCur_cur (s f) : (modCur s f).exp.cur = s.exp.cur.map f := rfl
@[simp] theorem modCur_store (s f) : (modCur s f).store = s.store := rfl
@[simp] theorem modCur_stop (s f) : (modCur s f).stop = s.stop := rfl
@[simp] theorem modCur_film (s f) : (modCur s f).film = s.film := rfl

@[simp] theorem modTake_takes (s : State) (k f) :
    (s.modTake k f).takes = s.takes.map (fun t => if t.key == k then f t else t) := rfl
@[simp] theorem modTake_line (s : State) (k f) : (s.modTake k f).line = s.line := rfl
@[simp] theorem modTake_stop (s : State) (k f) : (s.modTake k f).stop = s.stop := rfl
@[simp] theorem modTake_width (s : State) (k f) : (s.modTake k f).width = s.width := rfl
@[simp] theorem modTake_pass (s : State) (k f) : (s.modTake k f).pass = s.pass := rfl
@[simp] theorem modTake_film (s : State) (k f) : (s.modTake k f).film = s.film := rfl
@[simp] theorem modTake_exp (s : State) (k f) : (s.modTake k f).exp = s.exp := rfl
@[simp] theorem modActive_takes (s : State) (f) :
    (s.modActive f).takes = s.takes.map (fun t => if t.state == .active then f t else t) := rfl
@[simp] theorem modActive_line (s : State) (f) : (s.modActive f).line = s.line := rfl
@[simp] theorem modActive_comp (s : State) (f) : (s.modActive f).comp = s.comp := rfl
@[simp] theorem modActive_store (s : State) (f) : (s.modActive f).store = s.store := rfl
@[simp] theorem modPass_pass (s : State) (f) : (s.modPass f).pass = s.pass.map f := rfl
@[simp] theorem modPass_takes (s : State) (f) : (s.modPass f).takes = s.takes := rfl
@[simp] theorem modPass_stop (s : State) (f) : (s.modPass f).stop = s.stop := rfl
@[simp] theorem noteMoment_moments (s : State) : s.noteMoment.moments = s.moments + 1 := rfl
@[simp] theorem noteMoment_stop (s : State) : s.noteMoment.stop = s.stop := rfl
@[simp] theorem noteMoment_line (s : State) : s.noteMoment.line = s.line := rfl

@[simp] theorem lampOff_phase (s : State) : (lampOff s).lamp.phase = .off := rfl
@[simp] theorem lampOff_stop (s : State) : (lampOff s).stop = s.stop := rfl
@[simp] theorem setStage_stage (s : State) (g) : (setStage s g).panel.stage = g := rfl
@[simp] theorem setStage_stop (s : State) (g) : (setStage s g).stop = s.stop := rfl
@[simp] theorem openGalley_ctx (s : State) (k n) : (openGalley s k n).comp.ctx =
    s.comp.ctx.map (fun c => { c with galleySeq := s.film.nextSeq.getD 1 }) := rfl
@[simp] theorem openGalley_phase (s : State) (k n) : (openGalley s k n).comp.phase = s.comp.phase := rfl
@[simp] theorem openGalley_store (s : State) (k n) : (openGalley s k n).store = s.store := rfl
@[simp] theorem openGalley_takes (s : State) (k n) : (openGalley s k n).takes = s.takes := rfl
@[simp] theorem openGalley_exp (s : State) (k n) : (openGalley s k n).exp = s.exp := rfl
@[simp] theorem openGalley_line (s : State) (k n) : (openGalley s k n).line = s.line := rfl
@[simp] theorem cancelWindows_windows (s : State) (p) : (cancelWindows s p).line.windows =
    s.line.windows.filter (fun w => !(p w.what && !s.line.windowBegun w)) := rfl
@[simp] theorem cancelWindows_takes (s : State) (p) : (cancelWindows s p).takes = s.takes := rfl
@[simp] theorem cancelWindows_stop (s : State) (p) : (cancelWindows s p).stop = s.stop := rfl
@[simp] theorem stopTimerOff_station (s : State) : (stopTimerOff s).stop.station = s.stop.station := rfl
@[simp] theorem countBad_bad (s : State) : (countBad s).line.bad = satAdd 65535 s.line.bad 1 := rfl
@[simp] theorem countBroken_broken (s : State) : (countBroken s).line.broken = satAdd 65535 s.line.broken 1 := rfl

/-! ### What the shared operations can do -/

/-- A frame handed over joins the queue at its place or waits for room (R170, R171); nothing else changes. -/
theorem putFrame_cases (s : State) (f : TxFrame) :
    (s.line.full = true ∧ putFrame s f = { s with line := { s.line with waiting := s.line.waiting ++ [f] } }) ∨
    (s.line.full = false ∧ putFrame s f = { s with line := { s.line with queue := insertFrame f s.line.queue } }) := by
  unfold putFrame
  cases h : s.line.full <;> simp

/-- A notice is lost and counted where the station is muted or the queue is full, and is queued otherwise (R169, R171,
R206). -/
theorem produce_cases (s : State) (k : Option Key) (b : NoticeBody) :
    ((s.line.mute || s.line.full) = true ∧
      produce s k b = { s with line := { s.line with lost := satAdd 65535 s.line.lost 1 } }) ∨
    ((s.line.mute || s.line.full) = false ∧
      produce s k b = { s with line := { s.line with queue := insertFrame (.notice k b) s.line.queue } }) := by
  unfold produce
  cases h : s.line.mute || s.line.full
  · exact .inr ⟨rfl, if_neg nofun⟩
  · exact .inl ⟨rfl, rfl⟩

/-- Producing a notice changes the Line Interface alone. -/
theorem produce_frame (s : State) (k : Option Key) (b : NoticeBody) : { produce s k b with line := s.line } = s := by
  rcases produce_cases s k b with h | h <;> rw [h.2]

/-- Handing a frame over changes the Line Interface alone. -/
theorem putFrame_frame (s : State) (f : TxFrame) : { putFrame s f with line := s.line } = s := by
  rcases putFrame_cases s f with h | h <;> rw [h.2]

/-- A table of bad form is counted, or passed over in START and HALT; one of good form acts on the windows, and on the slots in
every other state (R19, R28, R31, R174). -/
theorem hearTable_cases (s : State) (font revision widths) :
    (tableFormOk font widths = false ∧ (hearTable s font revision widths = s ∨
      hearTable s font revision widths = countBad s)) ∨
    (tableFormOk font widths = true ∧
      (((s.stop.station = .start ∨ s.stop.station = .halt) ∧
          hearTable s font revision widths = tableToWindows s font revision) ∨
        ((s.stop.station ≠ .start ∧ s.stop.station ≠ .halt) ∧
          hearTable s font revision widths = tableToSlot (tableToWindows s font revision) font revision widths))) := by
  unfold hearTable
  cases tableFormOk font widths <;> cases s.stop.station <;> simp

/-- A stop that may not be raised changes nothing, and one that may be is recorded for the line the store answers (R143). -/
theorem raiseStop_cases (s : State) (kind font door) :
    raiseStop s kind font door = s ∨
    ∃ t, s.active? = some t ∧
      raiseStop s kind font door = recordStop s t s.stopLine kind font door (decide (s.stop.station = .hold)) := by
  unfold raiseStop
  split
  · split
    · next t ht => exact Or.inr ⟨t, ht, rfl⟩
    · exact Or.inl rfl
  · exact Or.inl rfl

/-- An ask that ends touches nothing but what the re-asks wait for (R27). -/
@[simp] theorem askEnded_width (s : State) (font) : (askEnded s font).width = s.width := rfl
@[simp] theorem askEnded_line (s : State) (font) : (askEnded s font).line = s.line := rfl
@[simp] theorem askEnded_stop (s : State) (font) : (askEnded s font).stop = s.stop := rfl
@[simp] theorem askEnded_takes (s : State) (font) : (askEnded s font).takes =
    s.takes.map (fun t => { t with reask := t.reask.map (fun l => l.filter (fun f => f ≠ font)) }) := rfl

/-- A copy command acts only where its byte is the next one: it acts with its arguments, or runs out of copy (R5). -/
theorem copyCommand_cases (s : State) (code n : Nat) (act) :
    copyCommand s code n act = s ∨
    ∃ r, reading? s = some r ∧ r.byte = some code ∧
      ((r.ctx.resume + 1 + n ≤ r.take.textLen ∧
          copyCommand s code n act = act r (argBytes s r n) (readPast s (r.ctx.resume + 1 + n))) ∨
       (r.take.textLen < r.ctx.resume + 1 + n ∧
          copyCommand s code n act = readPast (addCopyErrors s 1) r.take.textLen)) := by
  unfold copyCommand readByte
  split
  · next r hr =>
    split
    · next b hb =>
      split
      · next hp =>
        right
        refine ⟨r, hr, ?_, ?_⟩
        · rw [hb]; simpa using hp
        · dsimp only
          split
          · next h => exact Or.inl ⟨h, rfl⟩
          · next h => exact Or.inr ⟨by omega, rfl⟩
      · exact Or.inl rfl
    · exact Or.inl rfl
  · exact Or.inl rfl

end Sys2Proof.Machine
end

