-- ==== Sys2Proof/Laws/Stops.lean ====
section
/-! SUPPORT. What a restartable stop does to the state, said once: it is recorded and told, or, the third on its line, parks the
take (R143, R144, R154). -/

namespace Sys2Proof.Machine

/-- The store's answer to a park (R84). -/
theorem storeAnswer_unexposed (s : State) : storeAnswer s = unexposedContext s := by
  unfold storeAnswer unexposedContext
  cases s.firstUnexposed <;> cases s.comp.phase <;> rfl

/-- No park is in progress. -/
theorem parking_eq_false {s : State} (h : ∀ p, s.pass = some p → p.park = none) : s.parking = false := by
  unfold State.parking
  cases hp : s.pass with
  | none => rfl
  | some p => simp [h p hp]

/-- A park asked for with none in progress (R154). -/
theorem requestPark_first {s : State} (h : ∀ p, s.pass = some p → p.park = none) (r : ParkReason) :
    requestPark s r = { s with pass := s.pass.map (passParked r) } := by
  unfold requestPark State.modPass
  cases hp : s.pass with
  | none => rfl
  | some p =>
    simp only [Option.map_some, Pass.requestPark, passParked, h p hp]
    cases p.killing <;> cases p.cutAsked <;> simp

/-- A park asked for by a fault (R150, R154). -/
theorem requestPark_fault (s : State) : requestPark s .fault = { s with pass := s.pass.map faultPark } := by
  unfold requestPark State.modPass
  cases hp : s.pass with
  | none => rfl
  | some p =>
    simp only [Option.map_some, Pass.requestPark, faultPark]
    cases hk : p.killing with
    | true => simp
    | false =>
      cases hq : p.park with
      | none => cases p.cutAsked <;> simp
      | some q =>
        obtain ⟨r, a, c⟩ := q
        obtain ⟨k, rep, ca, cd, ki, em, pk⟩ := p
        subst hq
        subst hk
        cases r <;> simp [ParkReason.rank]

/-- The line stop count (R144). -/
theorem stopCount_line (x : Take) (l : Nat) : x.stopCount (some l) = nextStopCount x l := by
  unfold Take.stopCount nextStopCount
  cases x.lineStop <;> rfl

/-- The reason of a third stop (R144). -/
theorem thirdStop_reason (k : StopKind) (f : Option Nat) : thirdStop k f = thirdReason k f := by cases k <;> rfl

/-- Frames withdrawn leave the queue its room. -/
theorem cancelWindows_hasRoom (s : State) (p : WindowFor → Bool) (h : hasRoom s) : hasRoom (cancelWindows s p) := by
  obtain ⟨h1, h2⟩ := h
  refine ⟨h1, Nat.lt_of_le_of_lt (Nat.add_le_add ?_ ?_) h2⟩ <;> exact List.length_filter_le _ _

theorem mem_insertFrame (f : TxFrame) (q : List TxEntry) : ({ frame := f, begun := false } : TxEntry) ∈ insertFrame f q := by
  induction q with
  | nil => simp [insertFrame]
  | cons e q ih => unfold insertFrame; split <;> simp [ih]

/-- A notice produced with room in the queue stands in it (R206, R171). -/
theorem produce_noticed {s : State} (h : hasRoom s) (k : Option Key) (b : NoticeBody) : noticed (produce s k b) k b := by
  have hf : s.line.full = false := by
    have := h.2
    exact decide_eq_false (by unfold Config.queueFrames; omega)
  simp [noticed, produce, h.1, hf, mem_insertFrame]

/-- A notice produced changes the line alone. -/
theorem produce_line (s : State) (k : Option Key) (b : NoticeBody) : produce s k b = { s with line := (produce s k b).line } := by
  unfold produce; split <;> rfl

/-- A release mark of a fault (R150, R193). -/
theorem mark_fault (x : Take) :
    x.mark .fault = { x with release := if x.release = some .halt then some .halt else some .fault } := by
  unfold Take.mark
  cases h : x.release with
  | none => simp
  | some r =>
    cases r
    case halt => simp [ReleaseReason.rank]; rw [← h]
    case fault => simp [ReleaseReason.rank]; rw [← h]
    all_goals simp [ReleaseReason.rank]

/-- The release marks of a fault on the takes held (R150, R192). -/
theorem markTakes_fault (s : State) : markTakes s .fault (fun _ => true) = { s with takes := s.takes.map (faultMarked s) } := by
  have h : ∀ x : Take,
      (if true && x.state ≠ .releasing && x.state ≠ .stranded && !(x.state == .active && s.killing) then x.mark .fault else x) =
        faultMarked s x := by
    intro x
    have hk : s.killing = s.pass.any (fun p => p.killing) := rfl
    rw [mark_fault, hk]
    unfold faultMarked
    by_cases h1 : x.state = .releasing
    · simp [h1]
    · by_cases h2 : x.state = .stranded
      · simp [h2]
      · by_cases h3 : x.state = .active
        · cases hq : s.pass.any (fun p => p.killing) <;> simp [h3]
        · simp [h1, h2, h3]
  unfold markTakes
  simp only [h]

/-- The faults a pass's park asks for leave the kill of its take as it was. -/
theorem faultPark_killing (p : Pass) : (faultPark p).killing = p.killing := by
  unfold faultPark
  split
  · rfl
  · split
    · rfl
    · split <;> rfl

/-- All that a fault taken does (R150, R151). -/
theorem takeFault_taken (s : State) (kind : StopKind) (mech : Option Mech) :
    faultTaken s (takeFault s kind mech) kind mech ∧ (takeFault s kind mech).exp = s.exp ∧
      (takeFault s kind mech).film = s.film ∧ (takeFault s kind mech).lamp = s.lamp := by
  unfold takeFault
  simp only [requestPark_fault, markTakes_fault]
  have hm : ∀ u : State, u.pass = s.pass.map faultPark → faultMarked u = faultMarked s := by
    intro u hu
    funext x
    have : u.pass.any (fun p => p.killing) = s.pass.any (fun p => p.killing) := by
      rw [hu]; cases s.pass <;> simp [faultPark_killing]
    unfold faultMarked
    rw [this]
  refine ⟨⟨?_, ?_, ?_, fun h => produce_noticed ?_ _ _⟩, ?_, ?_, ?_⟩
  case refine_3 => rw [produce_line]; exact congrArg (fun f => s.takes.map f) (hm _ rfl)
  case refine_4 => exact cancelWindows_hasRoom s.noteMoment _ h
  all_goals rw [produce_line]; rfl

/-- The notice of a stop recorded (R143). -/
def stopNotice (kind : StopKind) (line : Nat) (font : Option Nat) (door : Option Door) : NoticeBody :=
  match kind with
  | .fontCall => .fontCall line (font.getD 0)
  | k => .stop k line door

/-- A stop below the third on its line is counted, recorded and told (R143, R144). -/
theorem recordStop_below (s : State) (t : Take) (l : Nat) (kind : StopKind) (font : Option Nat) (door : Option Door)
    (toHold : Bool) (h : nextStopCount t l < 3) :
    recordStop s t (some l) kind font door toHold =
      produce
        { closeClaims { s with takes := stopCounted s t l, moments := s.moments + 1 } with
          stop :=
            { s.stop with
              station := .stopped
              record := some
                { kind := kind, key := some t.key, line := some l, font := font, door := door, mech := none, earlier := none
                  toHold := toHold, timeRaised := Config.moment s.moments
                  timer := decide (kind = .fontCall) || decide (kind = .filmOut) } } }
        (some t.key) (stopNotice kind l font door) := by
  have hn : ¬ 3 ≤ nextStopCount t l := by omega
  unfold recordStop
  simp only [stopCount_line]
  rw [if_neg hn]
  cases kind <;> rfl

/-- The third stop on a line is not recorded, and parks the take (R144). -/
theorem recordStop_third (s : State) (t : Take) (l : Nat) (kind : StopKind) (font : Option Nat) (door : Option Door)
    (toHold : Bool) (h : 3 ≤ nextStopCount t l) (hp : ∀ p, s.pass = some p → p.park = none) :
    recordStop s t (some l) kind font door toHold =
      { s with
        takes := stopCounted s t l, stop := { s.stop with record := none }
        pass := s.pass.map (passParked (thirdReason kind font)) } := by
  unfold recordStop
  simp only [stopCount_line, thirdStop_reason]
  rw [if_pos h, requestPark_first (by exact hp)]
  rfl

/-- A stop that is taken is recorded as it stands (R143). -/
theorem raiseStop_taken {s : State} {x : Take} (h1 : s.stop.station = .run ∨ s.stop.station = .hold)
    (h2 : s.stop.record = none) (h3 : ∀ p, s.pass = some p → p.park = none) (h4 : s.active? = some x) (kind : StopKind)
    (font : Option Nat) (door : Option Door) :
    raiseStop s kind font door =
      recordStop s x ((unexposedContext s).map (fun c => c.nextLine)) kind font door (decide (s.stop.station = .hold)) := by
  unfold raiseStop
  rw [if_pos ⟨h1, h2, parking_eq_false h3⟩, h4]
  simp only [State.stopLine, storeAnswer_unexposed]

end Sys2Proof.Machine
end

