-- ==== Sys2Proof/Tests/Slice0.lean ====
section
/-! SUPPORT. Small tests: an ill-formed command for each check of well-formedness; what the spec's tables and worked examples
say, on small states; and, for each statement with hypotheses, a state and operands that meet them, clause by clause. -/

open Sys2Proof Sys2Proof.Machine
namespace Sys2Proof.Tests

/-! ### States the tests share -/

/-- A station, number 5, past start-up, in RUN with a free line, its mechanisms at rest and its lamp ready. -/
def runs : State :=
  { State.reset with
    panel := { State.reset.panel with straps := ⟨5, 0, 0⟩, stage := .done, romDone := true }
    stop := { State.reset.stop with station := .run }
    line := { freshLine with phase := .free }
    exp := { State.reset.exp with turret := some 0, lens := some 0, carriage := some 0 }
    lamp := { State.reset.lamp with phase := .ready } }
/-- The same station in another state. -/
def inState (x : StationState) (s : State) : State := { s with stop := { s.stop with station := x } }
/-- The state that a command answers. -/
def after (c : Instr) (s : State) : State :=
  match exec c s with
  | .next t => t
  | _ => s
/-- Station 2 sends to this station, and to all. -/
def to5 : Header := { sender := 2, addressee := 5 }
def toAll : Header := { sender := 2, addressee := 15 }
def k1 : Key := { origin := 3, number := 1507 }
/-- An offer of a DIRECT take of 40 bytes with fonts 112 and 113, and the take it makes. -/
def offer1 : OfferMsg :=
  { key := k1, cls := 2, mode := 0, continuation := 0, scarce := 0, copyLen := 40, film := 1000, fontCount := 2
    fonts := [112, 113], context := none }
def take1 : Take := newTake 2 offer1 [0]
/-- The take, wholly received, in some state. -/
def heldTake (x : TakeState) : Take := { take1 with state := x, received := 40, blocks := [0], reserved := [], timer := none }
def withTake (t : Take) (s : State) : State := { s with takes := [t] }
def passOf (k : PassKind) : Pass :=
  { kind := k, reported := false, cutAsked := false, cutDone := false, killing := false, emptied := false, park := none }
/-- The take ACTIVE in a pass of this kind. -/
def active (k : PassKind) (s : State) : State := { s with takes := [heldTake .active], pass := some (passOf k) }
/-- A stop of this kind recorded for the take, with its timer running. -/
def stopOf (k : StopKind) : StopRecord :=
  { kind := k, key := some k1, line := some 1, font := if k = .fontCall then some 340 else none, door := none, mech := none
    earlier := none, toHold := false, timeRaised := 0, timer := true }
def stopped (k : StopKind) (s : State) : State :=
  { s with stop := { s.stop with station := .stopped, record := some (stopOf k) } }
/-- A line record of two items, to be exposed and printed. -/
def record1 : LineRecord :=
  { number := 1, start := defaultContext 112, leading := 13, baseSize := 12, mode := 0, q := 0, r := 0, gap := 0, gapRem := 0
    flags := { hyphenated := false, explicitHyphen := false, loose := false, letterspaced := false, overset := false
               absentPresent := false, substituted := false, paragraphEnd := true }
    items := [{ code := 0x41, font := 112, lens := 2, x := 0, absent := false },
              { code := 0x42, font := 113, lens := 4, x := 1200, absent := false }]
    filmPending := true, proofPending := true, spoiled := false }
def galley1 : Galley :=
  { key := k1, seq := 1, first := 1, last := some 1, length := 65
    flags := { complete := false, continuedFrom := false, continuedTo := false, spoiled := none, killed := false
               reset := false, uncut := false } }
/-- The take ACTIVE in a FILM pass with its first line in the store. -/
def filming : State :=
  { active .film runs with store := { records := [record1], marker := none }, film := { runs.film with galley := some galley1 } }
/-- That line in exposure. -/
def exposing (x : ExpPhase) (s : State) : State :=
  { s with exp := { s.exp with
      phase := x
      cur := some { line := 1, flashed := [], groups := [{ seat := 0, lens := 2, items := [0] }], used := [], checked := true
                    halt := none, closeGalley := false } } }
/-- The take ACTIVE with this text, read up to `n`, and a first box on the line or not. -/
def box (n : Nat) : BuildItem :=
  { kind := .character, code := 0x41, font := 112, size := 12, width := 1000, absent := false, offset := n, subst := false
    after := false }
def reads (text : List Nat) (n : Nat) (boxed : Bool) : State :=
  let t : Take := { heldTake .active with copyLen := text.length, received := text.length }
  let x : Context := { defaultContext 112 with resume := n }
  { runs with
    mem := storeCopy [] [0] 0 (text.map (BitVec.ofNat 8)), takes := [t], pass := some (passOf .film)
    width := { slots := { state := .valid 7 (List.replicate 223 20), font := some 112, pins := 1 } :: List.replicate 11 freeSlot
               useList := [0], gen := 0 }
    comp := { idleCompositor with phase := .setting, ctx := some x, snap := some x, group := if boxed then [box 0] else [] } }
/-- The take and the context of such a state. -/
def textTake (text : List Nat) : Take := { heldTake .active with copyLen := text.length, received := text.length }
def textCtx (n : Nat) : Context := { defaultContext 112 with resume := n }

/-! ### Ill-formed commands (R167, R102, R121, R200) -/

theorem test_wf_sender : (Instr.reset { sender := 15, addressee := 5 } ⟨5, 0, 0⟩).wellFormed = false := by decide
theorem test_wf_addressee : (Instr.kill { sender := 2, addressee := 256 } k1).wellFormed = false := by decide
theorem test_wf_origin : (Instr.kill toAll { origin := 15, number := 0 }).wellFormed = false := by decide
theorem test_wf_number : (Instr.approve toAll { origin := 0, number := 65536 }).wellFormed = false := by decide
theorem test_wf_cost : (Instr.claim toAll k1 32).wellFormed = false := by decide
theorem test_wf_table : (Instr.widthTable toAll 112 7 (List.replicate 238 1)).wellFormed = false := by decide +kernel
theorem test_wf_reason : (Instr.refused to5 k1 256).wellFormed = false := by decide
theorem test_wf_font : (Instr.widthAsk toAll 1000).wellFormed = false := by decide
theorem test_wf_offer : (Instr.offer toAll { offer1 with fonts := [112] }).wellFormed = false := by decide
theorem test_wf_offer_class : (Instr.offer toAll { offer1 with cls := 4 }).wellFormed = false := by decide
theorem test_wf_copy_empty : (Instr.copy to5 k1 0 []).wellFormed = false := by decide
theorem test_wf_copy_end : (Instr.copyEnd to5 k1 0).wellFormed = false := by decide
theorem test_wf_exception : (Instr.exceptionAdd toAll [256, 0]).wellFormed = false := by decide
theorem test_wf_exception_short : (Instr.exceptionDelete toAll [2]).wellFormed = false := by decide
theorem test_wf_announce : (Instr.announce toAll []).wellFormed = false := by decide
theorem test_wf_notice : (Instr.notice toAll [0, 0, 0]).wellFormed = false := by decide
theorem test_wf_tabs : (Instr.photoUnitDoorClose [112]).wellFormed = false := by decide
theorem test_wf_position : (Instr.position [] 0).wellFormed = false := by decide
theorem test_wf_power : (Instr.powerOn { resetPins with tabs := [] }).wellFormed = false := by decide
def shortRom : Rom := { bytes := [], check := 0, patternCount := 0, patterns := [], bases := [], kp := 0, ki := 0 }
theorem test_wf_rom : (Instr.romReadDone (some shortRom)).wellFormed = false := by decide
theorem test_wf_good : (Instr.offer toAll offer1).wellFormed = true ∧ (Instr.kill toAll k1).wellFormed = true := by decide

/-! ### The copy code: the tables of chapter 1 -/

/-- The example of R2 to R4: three entries, one of them dropped. -/
theorem test_preamble :
    readPreamble ([3, 8] ++ [0x53, 0x61, 0x6C, 0x65, 0x72, 0x6F, 0x6F, 0x6D] ++ [1, 4, 6] ++
      [0x47, 0x61, 0x72, 0x61, 0x67, 0x65] ++ [1, 7, 7] ++ [0x74, 0x65, 0x72, 0x72, 0x61, 0x63, 0x65] ++ [0, 0x41]) =
    { length := 30, errors := 1, entries :=
      [{ word := [0x73, 0x61, 0x6C, 0x65, 0x72, 0x6F, 0x6F, 0x6D], positions := [4] },
       { word := [0x74, 0x65, 0x72, 0x72, 0x61, 0x63, 0x65], positions := [] }] } := by decide
/-- The substitutions of R10. -/
theorem test_sizes : [15, 17, 19, 21, 23, 25, 27, 29, 35, 37, 47].map (fun n => (takeSize n).1) =
    [14, 16, 18, 20, 20, 24, 24, 28, 28, 36, 36] := by decide
/-- The example of R12. -/
theorem test_spaceband : clampSpaceband 50 30 20 = (48, 48, 48) := by decide
theorem test_font : ((after .font (reads [0x01, 0, 113] 0 false)).comp.ctx.map (fun x => (x.font, x.resume))) = some (113, 3) := by
  decide
theorem test_font_not_listed : ((after .font (reads [0x01, 3, 0xE7, 0x20, 0x20] 0 false)).takes.map (fun t =>
    t.counters.copyErrors)) = [1] := by decide
theorem test_size : ((after .size (reads [0x02, 15, 0x41] 0 false)).comp.ctx.map (fun x => x.size)) = some 14 := by decide
/-- The example on held values: with a box on the line a LEAD is held, without one it is in force at once. -/
theorem test_lead_held : (after .lead (reads [0x03, 16, 0x41] 0 true)).comp.pend.leading = some 16 ∧
    (after .lead (reads [0x03, 14, 0x41] 0 false)).comp.ctx.map (fun x => x.leading) = some 14 := by decide
theorem test_mode_error : (after .mode (reads [0x08, 7, 0x41] 0 true)).takes.map (fun t => t.counters.copyErrors) = [1] := by
  decide
theorem test_measure : ((after .measure (reads [0x04, 10, 0, 0x41] 0 false)).comp.ctx.map (fun x => x.measure)) = some 120 := by
  decide
theorem test_indent : ((after .indent (reads [0x05, 0, 200, 0x41] 0 false)).comp.ctx.map (fun x => x.indent)) = some 96 := by
  decide
theorem test_letterspace : (after .letterspace (reads [0x07, 9, 0x41] 0 true)).comp.pend.letterspace = some 6 := by decide
theorem test_ladder : (after .ladder (reads [0x0B, 0, 0x41] 0 true)).comp.pend.ladder = some 1 := by decide
theorem test_hyph_caps : (after .hyph (reads [0x09, 2, 0x41] 0 true)).comp.pend.hyph = some true ∧
    (after .caps (reads [0x0A, 0, 0x41] 0 true)).comp.pend.caps = some false := by decide
theorem test_emspace : (after .emspace (reads [0x0D, 0x41] 0 false)).comp.group.map (fun i => i.width) = [2880] ∧
    (after .enspace (reads [0x0E, 0x41] 0 false)).comp.group.map (fun i => i.width) = [1440] ∧
    (after .thinspace (reads [0x0F, 0x41] 0 false)).comp.group.map (fun i => i.width) = [720] := by decide
theorem test_nbspace : (after .nbspace (reads [0x10, 0x41] 0 false)).comp.group = [] ∧
    (after .nbspace (reads [0x41, 0x10, 0x41] 1 true)).comp.group.length = 2 := by decide
theorem test_disc : (after .disc (reads [0x41, 0x11, 0x41] 1 true)).comp.discs = [1] := by decide
theorem test_character : (after .character (reads [0x41, 0x41] 0 false)).comp.group.map (fun i => (i.code, i.width)) =
    [(0x41, 1200)] := by decide
theorem test_rubout : (after .rubout (reads [0x7F, 0x41] 0 false)).comp.ctx.map (fun x => x.resume) = some 1 ∧
    (after .rubout (reads [0x41, 0x41] 0 false)).comp.ctx.map (fun x => x.resume) = some 0 := by decide
theorem test_unknown_byte : (after .unknownByte (reads [0x12, 0x41] 0 false)).takes.map (fun t => t.counters.copyErrors) =
    [1] := by decide
theorem test_word_space_dropped : (after .wordSpace (reads [0x20, 0x41] 0 false)).comp.line = [] ∧
    (after .wordSpace (reads [0x41, 0x20, 0x41] 1 true)).comp.line.length = 1 := by decide
theorem test_endpara : ((after .endpara (reads [0x41, 0x0C, 0x41] 1 true)).store.records.map (fun r =>
    (r.number, r.flags.paragraphEnd))) = [(1, true)] := by decide
theorem test_end_of_copy : (after .endOfCopy (reads [0x41] 1 true)).store.records.length = 1 := by decide
/-- R5: a command cut off by the end of copy is one copy error. -/
theorem test_cut_off_command : (after .measure (reads [0x04, 10] 0 false)).takes.map (fun t => t.counters.copyErrors) = [1] := by
  decide

/-! ### Setting a line: chapters 3 and 4 -/

/-- Line 1 of 3.8: q = 634 and r = 2. -/
def values38 : LineValues := lineValues (defaultContext 112) 12
theorem test_values : (values38.avail, values38.minF, values38.optF, values38.maxF, values38.letterF) =
    (63360, 600, 840, 1680, 120) := by decide
theorem test_line_1 : justify values38 false false 58920 7 48 =
    { q := 634, r := 2, gap := 0, gapRem := 0, left := 0, loose := false, letterspaced := false } := by decide
/-- Line 2 of 3.8: letterspaced by 14, the first 26 gaps by one more. -/
theorem test_line_2 : justify values38 false false 59400 2 41 =
    { q := 1680, r := 0, gap := 14, gapRem := 26, left := 0, loose := false, letterspaced := true } := by decide
/-- Lines a to c of 3.9. -/
theorem test_line_a : justify values38 false false 61000 1 4 =
    { q := 1880, r := 0, gap := 120, gapRem := 0, left := 0, loose := true, letterspaced := true } := by decide
theorem test_line_b : justify values38 false false 60000 0 19 =
    { q := 0, r := 0, gap := 120, gapRem := 0, left := 0, loose := true, letterspaced := true } := by decide
theorem test_line_c : justify values38 false false 61360 0 19 =
    { q := 0, r := 0, gap := 105, gapRem := 5, left := 0, loose := false, letterspaced := true } := by decide
/-- R53: a centered line with slack 1,001 fine has 500 at its left. -/
theorem test_center : (justify { values38 with mode := 3 } false false 62359 0 5).left = 500 := by decide
/-- R56. -/
theorem test_steps : [12345, 62424, 62423, 9635, 16030, 54480, 24720, 62400].map stepOf =
    [257, 1301, 1300, 201, 334, 1135, 515, 1300] := by decide
/-- The patterns and the word of 4.8: a break after letter 3 alone. -/
theorem test_furnished : patternBreaks
    [{ letters := [0x72, 0x6E], values := [0, 1, 0] }, { letters := [0x73, 0x68], values := [2, 0, 0] },
     { letters := [0x6E, 0x69, 0x73], values := [0, 0, 1, 0] }, { letters := [0x73, 0x68, 0x65], values := [0, 0, 1, 0] }]
    [0x66, 0x75, 0x72, 0x6E, 0x69, 0x73, 0x68, 0x65, 0x64] = [3] := by decide
/-- R74, R75: capitals name the same entry; R77: a delete removes it. -/
theorem test_exceptions :
    let s := after (.exceptionAdd toAll [3, 0x42, 0x4F, 0x58, 2, 2, 1]) runs
    s.hyph.dict = [{ word := [0x62, 0x6F, 0x78], positions := [1, 2] }] ∧ s.hyph.gen = 1 ∧
    (after (.exceptionDelete toAll [3, 0x62, 0x4F, 0x78, 0]) { s with line := runs.line }).hyph =
      { runs.hyph with gen := 2 } := by decide
/-- R74: a position outside 1 to L − 1 is a bad form. -/
theorem test_bad_form : (after (.exceptionAdd toAll [3, 0x42, 0x4F, 0x58, 1, 3]) runs).line.bad = 1 := by decide

/-! ### Exposure, lamp and film: chapters 6 and 7 -/

/-- The example of R112: seat 5 first, then seat 2 at lens 4 and at lens 2. -/
theorem test_scan_order :
    (scanOrder { runs.exp with seats := [0, 0, 112, 0, 0, 113, 0, 0], turret := some 5, lens := some 2 }
      { record1 with items :=
        [{ code := 0x41, font := 112, lens := 2, x := 0, absent := false },
         { code := 0x42, font := 113, lens := 4, x := 1200, absent := false },
         { code := 0x43, font := 112, lens := 4, x := 2400, absent := false }] }) =
    [{ seat := 5, lens := 4, items := [1] }, { seat := 2, lens := 4, items := [2] }, { seat := 2, lens := 2, items := [0] }] := by
  decide
/-- The examples of R123. -/
theorem test_durations : Lamp.duration { runs.lamp with bases := List.replicate 12 20, c := 512 } 2 = 20 ∧
    Lamp.duration { runs.lamp with bases := List.replicate 12 400, c := 2047 } 2 = 800 := by decide
/-- The four flashes of 6.7. -/
def lamp67 : Lamp := { runs.lamp with bases := List.replicate 12 60, ePrev := 10 }
theorem test_lamp_run : (lamp67.duration 2, (lamp67.take 470).c, (lamp67.take 470).ePrev, (lamp67.take 470).duration 2,
      ((lamp67.take 470).take 490).c, (((lamp67.take 470).take 490).take 515).c,
      ((((lamp67.take 470).take 490).take 515).take 512).c) = (60, 1041, 42, 61, 1037, 1028, 1029) := by decide
/-- R120, R126. -/
theorem test_lamp_change : (after .lampChangeSwitch { runs with lamp := { runs.lamp with c := 700, run := 9 } }).lamp =
    { runs.lamp with phase := .warming } := by decide
theorem test_warm_up : (after .warmUpTimer { runs with lamp := { runs.lamp with phase := .warming } }).lamp.phase = .ready := by
  decide
/-- A blank cut advances the trailer (R140), which goes to the cutter and then ends (R134). -/
theorem test_blank_cut :
    let s := after .cutKey runs
    let t := after .advanceDone s
    s.film.remaining = 55560 ∧ t.film.transport = .cutting { asker := .blank, spoiled := none } ∧
    (after .cutEvent t).film.transport = .idle := by decide
theorem test_cutter_timeout :
    let t := after .cutterTimeout (after .advanceDone (after .cutKey runs))
    t.stop.station = .fault ∧ t.film.cutterOk = false := by decide
theorem test_advance_timeout : (after .advanceTimeout (after .cutKey runs)).film.driveOk = false := by decide
/-- The cassette of 7.9: the galley closes uncut, continued-to, and code 2 loads 1,275,000 steps. -/
theorem test_cassette :
    let s := { withTake (heldTake .queued) runs with film := { runs.film with galley := some galley1, nextSeq := some 1, remaining := 1470 } }
    let t := after .cassetteDoorOpen s
    t.film.galley = none ∧ t.film.manifest.map (fun g => g.flags.continuedTo) = [true] ∧ t.film.nextSeq = some 2 ∧
    (after (.cassetteDoorClose 2) t).film.remaining = 1275000 := by decide
/-- R138: a removal produces the manifest as one notice and empties it. -/
theorem test_takeup :
    let s := after .takeupDoorOpen { runs with film := { runs.film with manifest := [galley1] } }
    s.film.removal = true ∧ (after .takeupDoorClose s).film.manifest = [] ∧
    (after .takeupDoorClose s).line.queue = [{ frame := .notice none (.manifest 1 1 [galley1]), begun := false }] := by decide
/-- R119: in HOLD the next seat from the path; R103: its index event ends the move. -/
theorem test_mount :
    let s := after .mountKey (inState .hold runs)
    s.exp.turretMove = some 1 ∧ s.exp.phase = .mounting ∧ (after (.seatIndex 1) s).exp.turret = some 1 ∧
    (after (.seatIndex 2) s).stop.station = .fault := by decide
theorem test_move_timeout : (after (.moveTimeout .turret) (after .mountKey (inState .hold runs))).exp.turret = none := by decide
/-- R102, R117: the survey at the closing of the photo-unit door; a code above 999 reads as an empty seat. -/
theorem test_survey :
    let s := after .photoUnitDoorOpen runs
    (after (.photoUnitDoorClose [0, 0, 112, 0, 0, 113, 1000, 0]) s).exp.seats = [0, 0, 112, 0, 0, 113, 0, 0] := by decide
/-- Start-up (R202): the ROM, homing through the three mechanisms, the survey, ANNOUNCE and RUN. -/
theorem test_start_up :
    let a := after (.romReadDone none) (after (.powerOn { resetPins with straps := ⟨5, 0, 0⟩ }) runs)
    let b := after (.lensIndex 0) (after (.seatIndex 0) a)
    let c := after (.position [0, 0, 112, 0, 0, 113, 0, 0] 2) b
    a.exp.homing = some .turret ∧ b.exp.homing = some .carriage ∧ c.exp.seats = [0, 0, 112, 0, 0, 113, 0, 0] ∧
    c.line.queue.length = 1 ∧ (after .frameSent (after .startPoint (after .idleGap c))).stop.station = .run := by decide
theorem test_homing_timeout :
    (after .homingTimeout (after (.romReadDone none) (after (.powerOn resetPins) runs))).panel.startFault = some .turret := by
  decide

/-! ### Lines, offers and takes: chapters 9 and 10 -/

/-- R181, R182: station 5 bids at cost 4·2 + 2 + 2 (film assumed) = 12 with a window of 12·16 + 5 slots. -/
theorem test_offer : (after (.offer toAll offer1) runs).line.windows.map (fun w => w.slots) = [197] := by decide +kernel
/-- A claim of another station cancels it (R174). -/
theorem test_claim_heard :
    (after (.claim toAll k1 3) { after (.offer toAll offer1) runs with
      line := { (after (.offer toAll offer1) runs).line with phase := .free } }).line.windows = [] := by decide +kernel
/-- R173, R164, R183: the window counted out, the CLAIM begun and sent, and the record made. -/
theorem test_claim_won :
    let s := { runs with line := { runs.line with windows := [{ what := .claim 2 offer1 12, slots := 1, queued := false }] } }
    let t := after .startPoint (after (.windowExpired (.take k1)) (after .idleSlot s))
    t.line.phase = .sending ∧ (after .frameSent t).takes.map (fun x => (x.key, x.reserved)) = [(k1, [0])] := by decide +kernel
/-- R183, R182: the take won is the eighth held, so the other open claim window is withdrawn. -/
theorem test_claim_won_retests :
    let w (n slots : Nat) : Window := { what := .claim 2 { offer1 with key := { k1 with number := n } } 12, slots := slots, queued := n == 1507 }
    let s := { runs with
      takes := (List.range 7).map (fun i => { heldTake .parked with key := { k1 with number := i }, blocks := [i + 1] })
      line := { runs.line with
        phase := .sending, queue := [{ frame := .claim k1 12, begun := true }], windows := [w 1507 0, w 1508 9] } }
    (after .frameSent s).takes.length = 8 ∧ (after .frameSent s).line.windows = [] := by decide +kernel
/-- R161: the header of the worked example's CLAIM, 0x29 (section 9.9), goes out as 0 0 1 0 1 0 0 1 between its start and stop
bits. -/
theorem test_byte_levels : byteLevels 0x29 =
    [.asserted, .asserted, .asserted, .released, .asserted, .released, .asserted, .asserted, .released, .released] := by decide
/-- R170: a CLAIM counted out while a COPY is being sent goes behind it; the COPY ends and the CLAIM is next. -/
theorem test_sent_frame_stays :
    let s := { runs with line := { runs.line with
      phase := .sending, queue := [{ frame := .copy k1 12 0 [], begun := true }, { frame := .notice none .reproof, begun := false }] } }
    let t := putFrame s (.claim k1 12)
    t.line.queue.map (fun e => (e.frame.kind, e.begun)) = [(10, true), (2, false), (13, false)] ∧
    (after .arbitrationLost t).line.queue.map (fun e => (e.frame.kind, e.begun)) = [(2, false), (10, false), (13, false)] ∧
    (after .frameSent t).line.queue.map (fun e => (e.frame.kind, e.begun)) = [(2, false), (13, false)] := by decide
/-- R164: the loser keeps its frame. -/
theorem test_arbitration_lost :
    let s := { runs with line := { runs.line with queue := [{ frame := .widthAsk 112, begun := false }] } }
    (after .arbitrationLost (after .startPoint s)).line.queue = s.line.queue := by decide
/-- R165: an abort drives the line asserted for 12 bit times, and releases it. -/
theorem test_frame_aborted :
    let s := { runs with line := { runs.line with queue := [{ frame := .widthAsk 112, begun := false }] } }
    let t := after .frameAborted (after .startPoint s)
    t.line.broken = 1 ∧ t.lineOut = List.replicate 12 .asserted ∧ (after .idleGap t).lineOut = [] := by decide
theorem test_broken_frame : (after .brokenFrame runs).line.broken = 1 ∧ (after .badFrame runs).line.bad = 1 := by decide
/-- R171. -/
theorem test_room_given : (after .roomGiven { runs with line := { runs.line with waiting := [.widthAsk 112] } }).line.queue =
    [{ frame := .widthAsk 112, begun := false }] := by decide
/-- R184, R185: the copy stored, the total answered with a TAKEN. -/
theorem test_copy :
    let s := withTake { take1 with copyLen := 2 } runs
    let t := after (.copy to5 k1 0 [0x41, 0x42]) s
    memRead t.mem 1 = 0x42 ∧ t.takes.map (fun x => (x.received, x.blocks)) = [(2, [0])] ∧
    ((after (.copyEnd to5 k1 2) t).line.queue.map (fun e => e.frame)) = [.taken k1 2] := by decide
theorem test_stall_timer : (after (.stallTimer k1) (withTake take1 runs)).line.queue.map (fun e => e.frame) =
    [.refused k1 2 2] := by decide
theorem test_aging_timer : (after (.agingTimer k1)
    (withTake { heldTake .queued with timer := some .aging } runs)).takes.map (fun x => (x.cls, x.timer)) =
    [(1, some .aging)] := by decide
theorem test_kill : (after (.kill toAll k1) (withTake (heldTake .queued) runs)).takes = [] := by decide
/-- R196: only the station sent the COPY-END frees the record. -/
theorem test_taken :
    let s := withTake { heldTake .releasing with claimant := some 2, sentEnd := [2] } runs
    (after (.taken to5 k1) s).takes = [] ∧ (after (.taken { to5 with sender := 4 } k1) s).takes.length = 1 := by decide
theorem test_refused :
    (after (.refused to5 k1 1) (withTake { heldTake .releasing with claimant := some 2, tries := 2 } runs)).takes.map
      (fun x => x.state) = [.stranded] := by decide
theorem test_taken_wait :
    (after (.takenWait k1) (withTake { heldTake .releasing with timer := some .takenWait, tries := 1 } runs)).takes.map
      (fun x => (x.state, x.tries)) = [(.releasing, 2)] := by decide
theorem test_lapse :
    (after (.lapse (.take k1)) { withTake { heldTake .releasing with tries := 1 } runs with
      line := { runs.line with watches := [{ subject := .take k1, slots := 1 }] } }).takes.map (fun x => x.state) =
      [.stranded] := by decide
theorem test_strand_turn :
    (after (.strandTurn k1) (withTake { heldTake .stranded with release := some .repeated, timer := some .strandTurn } runs)).takes.map
      (fun x => x.state) = [.queued] := by decide
/-- R190: an APPROVE of a proof whose generation stands. -/
theorem test_approve :
    let t := { heldTake .proofHold with proofFirst := true }
    (after (.approve toAll k1) (withTake { t with proofGen := some (genValues runs t) } runs)).takes.map
      (fun x => (x.state, x.approved)) = [(.queued, true)] := by decide
/-- R28: a table with no slot waiting fills the lowest free slot; R30: an ask for it opens a window of 2·5 + 1 slots. -/
theorem test_width_table :
    let t := after (.widthTable toAll 112 7 (List.replicate 223 20)) runs
    t.width.isValid 112 = true ∧ (after (.widthAsk toAll 112) t).line.windows.map (fun w => w.slots) = [11] := by decide +kernel
theorem test_duplicate_station : (after (.announce { sender := 5, addressee := 15 } (List.replicate 26 0)) runs).line.mute = true ∧
    (after (.notice { sender := 5, addressee := 15 } [15, 0, 0, 3]) runs).line.mute = true := by decide
theorem test_line_reset : (after (.reset to5 ⟨5, 0, 0⟩) (withTake (heldTake .queued) runs)).takes = [] := by decide
/-- R92: the header of the spec's example. -/
theorem test_header : renderHeader .reproof { take1 with key := { origin := 6, number := 2210 }, cls := 1 } 5 =
    [0x54, 0x41, 0x4B, 0x45, 0x20, 0x30, 0x36, 0x2D, 0x30, 0x32, 0x32, 0x31, 0x30, 0x20, 0x52, 0x45, 0x50, 0x52, 0x4F, 0x4F,
     0x46, 0x20, 0x53, 0x54, 0x4E, 0x20, 0x30, 0x35, 0x20, 0x43, 0x4C, 0x41, 0x53, 0x53, 0x20, 0x31, 0x0D, 0x0A] := by decide

/-! ### Keys, stops and proofs: chapters 5, 8 and 11 -/

theorem test_hold_run : (after .holdKey runs).stop.station = .hold ∧
    (after .runKey (after .holdKey runs)).stop.station = .run := by decide
theorem test_standby : (after .standbyTimer runs).stop.station = .standby ∧ (after .standbyTimer runs).lamp.phase = .off ∧
    (after .runKey (after .standbyTimer runs)).stop.station = .run := by decide
theorem test_clear : (after .clearKey (inState .fault runs)).exp.homing = some .turret := by decide
theorem test_font_call_timer :
    (after .fontCallTimer (stopped .fontCall (active .film runs))).takes.map (fun x => x.state) = [.parked] := by decide
theorem test_film_out_timer :
    (after .filmOutTimer (stopped .filmOut (withTake (heldTake .queued) runs))).takes.map (fun x => x.state) = [.releasing] := by
  decide
/-- R88: the condition begins with a notice. -/
theorem test_paper : (after (.paper false) runs).line.queue.map (fun e => e.frame) = [.notice none (.proofPaper none false)] := by
  decide
theorem test_busy_stall :
    let s := after (.busy true) { runs with proof := { runs.proof with segs := [{ kind := .close, chars := [13, 10] }] } }
    (after .busyStall s).proof.stall = true ∧ (after (.busy false) (after .busyStall s)).proof.stall = false := by decide
theorem test_paper_timer :
    (after .paperTimer { active .proof runs with
      pins := { runs.pins with paper := false }, proof := { runs.proof with paperTimer := true } }).takes.map (fun x => x.state) =
      [.queued] := by decide
theorem test_proof_character : (after .proofCharacterSent { runs with
    proof := { runs.proof with inFlight := some { char := 0x41, ends := none } } }).proof.inFlight = none := by decide
theorem test_proof_line : (after .proofLineSent { filming with
    stop := { filming.stop with station := .hold }
    proof := { runs.proof with attached := true, lineOpen := true, inFlight := some { char := 10, ends := some (.line 1) } }
      }).store.records.map (fun r => r.proofPending) = [false] := by decide
/-- R114: flash-done puts the item in the flashed set, and a late one is a fault. -/
theorem test_flash :
    let s := exposing .scanning filming
    let t := { s with exp := { s.exp with flash := some { item := 0, duration := 60 } } }
    (after (.flashDone 470) t).lamp.ePrev = 42 ∧ (after .flashTimeout t).stop.station = .fault := by decide
/-- R87: 0x0D goes out as 0 10110000 1, start and stop bits apart. -/
theorem test_serial_frame : serialFrame 0x0D =
    [.start, .data true, .data false, .data true, .data true, .data false, .data false, .data false, .data false, .stop] := by
  decide
/-- R6, R60: resumed at an EMSPACE behind a word space, the word space after the EMSPACE is dropped as it first was. -/
theorem test_resumed_after_space :
    let s := reads [0x41, 0x20, 0x0D, 0x20, 0x41] 0 false
    let t := { textTake [0x41, 0x20, 0x0D, 0x20, 0x41] with context := some (textCtx 2) }
    (startCompositor s t).comp.afterSpace = true ∧
    (startCompositor s { t with context := some (textCtx 1) }).comp.afterSpace = false := by decide
/-- R97, R98: a KILL in a PROOF pass leaves no proof state. -/
theorem test_killed_proof :
    let x := { heldTake .active with proofState := .complete, proofFirst := true }
    let s := { filming with takes := [x], pass := some (passOf .proof), film := runs.film }
    ((after (.kill toAll k1) s).line.queue.map (fun e => match e.frame with
      | .notice _ (.takeKilled _ b) => b.proofState
      | _ => .complete)) = [.none] := by decide
/-! ### States and operands that meet the statements' hypotheses

One theorem for each statement with hypotheses, named for it; its parts stand in the order of the statement's clauses. A
further theorem with a suffix takes the clauses on the parts of a rule or on the reactions. -/

theorem only {α : Type} {a b : α} (h : some a = some b) : b = a := (Option.some.inj h).symm
theorem none_is {α : Type} {b : α} {P : Prop} (h : none = some b) : P := by cases h

theorem witness_StepRunsTheFrontCommand : { runs with pending := [.runKey, .holdKey] }.pending = .runKey :: [.holdKey] := rfl

theorem witness_IdleAndQuietStatesRest : runs.pending = [] ∧ quiet runs = true := by decide

def storing : State := { (reads [0x41, 0x42] 0 false) with pending := [.character] }

theorem witness_StepKeepsCopyStoreCanonical : memWf storing.mem = true ∧ ∃ t, step storing = .next t := ⟨by decide, _, rfl⟩

theorem witness_StepKeepsDictionary :
    dictOk { runs.hyph with dict := [{ word := [0x62, 0x6F], positions := [1] }], gen := 65535 } = true ∧
    ∃ t, step { runs with
      hyph := { runs.hyph with dict := [{ word := [0x62, 0x6F], positions := [1] }], gen := 65535 }
      pending := [.exceptionAdd toAll [3, 0x42, 0x4F, 0x58, 0]] } = .next t := ⟨by decide, _, rfl⟩

theorem witness_StepKeepsLampRanges :
    lampOk { runs.lamp with c := 2047, ePrev := 512, run := 256 } ∧
    ∃ t, step { exposing .scanning filming with
      lamp := { runs.lamp with c := 2047, ePrev := 512, run := 256 }, pending := [.flashDone 0] } = .next t :=
  ⟨by unfold lampOk; decide, _, rfl⟩

theorem witness_StepKeepsCountersWithinBounds :
    lineOk { runs.line with broken := 65535, queue := List.replicate 8 { frame := .widthAsk 112, begun := false } } ∧
    filmOk { runs.film with remaining := 1700000, manifest := List.replicate 64 galley1 } ∧ storeOk filming.store ∧
    (∃ t, step { runs with pending := [.brokenFrame] } = .next t) :=
  ⟨by unfold lineOk queueOk; decide, by unfold filmOk; decide +kernel, by unfold storeOk; decide, _, rfl⟩

/-- The take ACTIVE and the offer of another awaited; the slot of one font VALID, that of the other ASKING; a line in the store
and the next one begun. -/
def sound : State :=
  let s := reads [0x41, 0x42] 1 true
  let x (n : Nat) : Context := { defaultContext 112 with resume := n, nextLine := 2 }
  { s with
    pending := [.character]
    line := { s.line with windows := [
      { what := .claim 2 { offer1 with key := { k1 with number := 2 } } 12, slots := 511, queued := false }] }
    width := { s.width with slots :=
      { state := .valid 7 (List.replicate 223 20), font := some 112, pins := 1 } ::
      { state := .asking, font := some 113, pins := 1 } :: List.replicate 10 freeSlot }
    store := { records := [record1], marker := none }
    comp := { s.comp with ctx := some (x 1), snap := some (x 0) } }

theorem sound_slot {i : Nat} {sl : Slot} (h : sound.width.slots[i]? = some sl) :
    (i = 0 ∧ sl = { state := .valid 7 (List.replicate 223 20), font := some 112, pins := 1 }) ∨
    (i = 1 ∧ sl = { state := .asking, font := some 113, pins := 1 }) ∨ sl = freeSlot := by
  rcases i with _ | _ | i
  · exact .inl ⟨rfl, (Option.some.inj h).symm⟩
  · exact .inr (.inl ⟨rfl, (Option.some.inj h).symm⟩)
  · exact .inr (.inr (List.eq_of_mem_replicate (List.mem_of_getElem? (l := List.replicate 10 freeSlot) (i := i) h)))

theorem witness_StepKeepsCountersWithinBounds_sound : heldOk sound ∧ linesOk sound ∧ ∃ t, step sound = .next t := by
  refine ⟨⟨?_, ⟨fun w hw => ?_, .cons (fun _ h => nomatch h) .nil⟩, ⟨rfl, ?_, ?_, by decide, ?_, ?_⟩, by decide, by decide⟩,
    ⟨⟨1, by decide, by decide, rfl, fun _ => ⟨_, _, rfl, rfl, rfl, ?_⟩⟩, nofun, ?_⟩, _, rfl⟩
  · unfold takesOk takeOk; decide +kernel
  · obtain rfl := List.mem_singleton.1 hw
    refine ⟨by decide, fun a m c e => ?_⟩
    injection e with _ e _
    subst e
    decide +kernel
  · intro i sl h
    have pins : namedBy sound.takes 112 = 1 ∧ namedBy sound.takes 113 = 1 := by decide
    obtain ⟨-, rfl⟩ | ⟨-, rfl⟩ | rfl := sound_slot h
    · refine ⟨pins.1.symm, by decide, by decide, by decide, List.length_replicate, fun i w h => ?_⟩
      obtain rfl := List.eq_of_mem_replicate (List.mem_of_getElem? h)
      exact ⟨by decide, fun _ => by decide⟩
    · exact ⟨pins.2.symm, by decide⟩
    · exact ⟨rfl, rfl⟩
  · intro i j a b f ha hb ea eb
    obtain ⟨rfl, rfl⟩ | ⟨rfl, rfl⟩ | rfl := sound_slot ha <;> obtain ⟨rfl, rfl⟩ | ⟨rfl, rfl⟩ | rfl := sound_slot hb <;>
      first
        | rfl
        | (injection ea with ea; injection eb with eb; exact absurd (ea.trans eb.symm) (by decide))
        | (unfold freeSlot at ea; exact nomatch ea)
        | (unfold freeSlot at eb; exact nomatch eb)
  · intro i
    constructor
    · intro h
      obtain rfl := List.mem_singleton.1 h
      exact ⟨_, _, _, rfl, rfl⟩
    · rintro ⟨sl, r, t, h, e⟩
      obtain ⟨rfl, -⟩ | ⟨-, rfl⟩ | rfl := sound_slot h
      · decide
      · simp at e
      · simp [freeSlot] at e
  · intro f h
    obtain ⟨x, hx, hf⟩ := namedBy_pos.1 h
    obtain rfl := List.mem_singleton.1 hx
    have hf : f ∈ [112, 113] := hf
    simp at hf
    obtain rfl | rfl := hf
    · exact ⟨0, _, rfl, rfl⟩
    · exact ⟨1, _, rfl, rfl⟩
  · exact ⟨_, rfl, by decide, by decide, by decide, by decide, nofun, by decide⟩
  · intro p e
    obtain rfl := Option.some.inj e
    exact ⟨nofun, nofun, nofun⟩

theorem witness_OnlyNamedCommandsWriteTheStores :
    (∃ t, exec .runKey runs = .next t) ∧ (∀ h k o d, Instr.runKey ≠ .copy h k o d) ∧ (∀ p, Instr.runKey ≠ .powerOn p) ∧
    (∀ h b, Instr.runKey ≠ .exceptionAdd h b) ∧ (∀ h b, Instr.runKey ≠ .exceptionDelete h b) ∧
    (∀ r, Instr.runKey ≠ .romReadDone r) ∧ (∀ r, Instr.runKey ≠ .flashDone r) ∧ Instr.runKey ≠ .lampChangeSwitch :=
  ⟨⟨_, rfl⟩, nofun, nofun, nofun, nofun, nofun, nofun, nofun⟩

theorem witness_CopyStoreReadsBack :
    memWf [] = true ∧ [7, 0].Nodup ∧ 510 + [0x41#8, 0x42#8].length ≤ 256 * [7, 0].length ∧
    255 + [0x41#8, 0x42#8].length ≤ 256 * [7, 0].length := by decide

/-- At the narrowest fit, at the widest normal share, without a space, and loose. -/
theorem witness_JustifiedLineFillsItsWidth :
    values38.mode = 0 ∧ values38.minF ≤ values38.maxF ∧ 62760 + 1 * values38.minF = values38.avail ∧
    (61680 + 1 * values38.minF ≤ values38.avail ∧ values38.avail - 61680 = 1 * values38.maxF ∧
      (justify values38 false false 61680 1 4).loose = false) ∧
    (61360 + 0 * values38.minF ≤ values38.avail ∧ (justify values38 false false 61360 0 19).loose = false) ∧
    (61000 + 1 * values38.minF ≤ values38.avail ∧ (justify values38 false false 61000 1 4).loose = true) := by decide

/-- Letterspaced and loose by one fine's difference, with and without a space; a paragraph's end at and under the optimum; a
centered line; an overset one. -/
theorem witness_SlackIsShared :
    (61200 ≤ values38.avail ∧ 1 * values38.maxF < values38.avail - 61200 ∧
      values38.avail - 61200 - 1 * values38.maxF = 4 * values38.letterF) ∧
    (61199 ≤ values38.avail ∧ 1 * values38.maxF < values38.avail - 61199 ∧
      ¬ values38.avail - 61199 - 1 * values38.maxF ≤ 4 * values38.letterF) ∧
    (61080 ≤ values38.avail ∧ values38.avail - 61080 = 19 * values38.letterF) ∧
    (61079 ≤ values38.avail ∧ ¬ values38.avail - 61079 ≤ 19 * values38.letterF) ∧
    (61680 ≤ values38.avail ∧ 2 * values38.optF = values38.avail - 61680) ∧
    (61681 ≤ values38.avail ∧ values38.avail - 61681 < 2 * values38.optF) ∧
    (62359 ≤ { values38 with mode := 3 }.avail ∧ 1 ≤ { values38 with mode := 3 }.mode ∧ { values38 with mode := 3 }.mode ≤ 3) ∧
    values38.avail < 64000 := by decide

def boxes : List BuildItem := [box 0, box 1, { box 2 with kind := .justifying, width := 0 }, box 3]
def shares : Shares := { q := 600, r := 1, gap := 14, gapRem := 1, left := 0, loose := false, letterspaced := true }
/-- After a box with a gap, and after a space. -/
theorem witness_ItemsStandWhereTheirSharesPutThem :
    boxes[0]? = some (box 0) ∧ boxes[0 + 1]? = some (box 1) ∧ boxes[3]? = some (box 3) ∧
    positions shares 0 shares.r shares.gapRem false boxes = [0, 1015, 2015, 2616] := by decide

theorem witness_BadAndBrokenFramesAreCounted :
    frameHeader (.kill to5 k1) = some to5 ∧ State.hears { runs with line := freshLine } = false ∧ runs.hears = true ∧
    frameHeader (.kill to5 { k1 with origin := 15 }) = some to5 ∧ frameOk (.kill to5 { k1 with origin := 15 }) = false := by
  decide

def to7 : Header := { sender := 2, addressee := 7 }
theorem witness_FramesForOthersAreIgnored :
    Received to7 (.reset to7 ⟨5, 0, 0⟩) runs ∧ to7.addressee ≠ 15 ∧ to7.addressee ≠ runs.number ∧
    Received to7 (.taken to7 k1) runs ∧ Received to7 (.refused to7 k1 1) runs ∧ Received to7 (.copy to7 k1 0 [0x41]) runs ∧
    Received to7 (.copyEnd to7 k1 40) runs := by
  unfold Received; decide

theorem witness_AnnounceAndNoticeOnlyDetectDuplicates :
    Received toAll (.announce toAll (List.replicate 26 0)) runs ∧ Received toAll (.notice toAll [15, 0, 0, 3]) runs ∧
    frameOk (.notice { toAll with sender := 5 } [15, 0, 0, 3]) = true ∧ 5 = runs.number ∧ runs.line.mute = false ∧
    State.hears { runs with line := { runs.line with mute := true } } = true := by
  unfold Received; decide

theorem witness_PowerOnStartsAfreshAtItsValues :
    resetPins.paper = true ∧ { resetPins with paper := false }.paper = false ∧ resetPins.straps.station.val ≠ 15 ∧
    { resetPins with paper := false, straps := ⟨15, 0, 0⟩ }.straps.station.val = 15 := by decide

theorem witness_LineResetKeepsWhatItMust :
    Received to5 (.reset to5 ⟨5, 0, 0⟩) runs ∧ to5.addressee = runs.number ∧ Received toAll (.reset toAll ⟨5, 0, 0⟩) runs ∧
    toAll.addressee = 15 ∧ runs.panel.romDone = true ∧ runs.pins.paper = true ∧
    Received to5 (.reset to5 ⟨5, 0, 0⟩) { runs with panel := { runs.panel with romDone := false } } := by
  unfold Received; decide

def goodPattern : Pattern := { letters := [0x72, 0x6E], values := [0, 1, 0] }
def goodRom : Rom :=
  { bytes := [200, 100], check := 300, patternCount := 1, patterns := [goodPattern], bases := List.replicate 12 60, kp := 3
    ki := 1 }
theorem witness_RomReadLoadsPatternsAndLamp :
    runs.panel.stage ≠ .rom ∧ State.reset.panel.stage = .rom ∧ (goodRom.bytes.map BitVec.toNat).sum % 65536 = goodRom.check ∧
    goodRom.patternCount ≤ 4096 ∧ goodRom.patterns.length = goodRom.patternCount ∧ goodRom.patterns.all patternOk = true ∧
    { goodRom with patterns := [{ goodPattern with values := [0] }] }.patterns.all patternOk = false ∧
    ({ goodRom with check := 301 }.bytes.map BitVec.toNat).sum % 65536 ≠ { goodRom with check := 301 }.check := by decide

/-- A DOOR stop with the doors closed. -/
def doorStop : State := stopped .door runs
theorem witness_RunAndHoldKeysAct :
    (inState .hold runs).stop.station = .hold ∧
    (doorStop.stop.station = .stopped ∧ doorStop.stop.record = some (stopOf .door) ∧ (stopOf .door).kind = .door ∧
      doorStop.pins.photoOpen = false ∧ doorStop.pins.takeupOpen = false ∧ doorStop.pins.cassetteOpen = false ∧
      doorStop.stop.spoilCut = false ∧ doorStop.exp.cur = none) ∧
    runs.stop.station = .run ∧ runs.comp.phase = .idle ∧ (inState .fault runs).stop.station ≠ .run ∧
    (inState .fault runs).stop.station ≠ .standby := by decide

/-- A FONT-CALL stop over the ACTIVE take. -/
def called : State := stopped .fontCall (active .film runs)
theorem witness_ClearKeyHomesOrParks :
    ((inState .fault runs).stop.station = .fault ∧ (inState .fault runs).stop.clearing = false ∧
      (inState .fault runs).active? = none) ∧
    (called.stop.station = .stopped ∧ called.stop.record = some (stopOf .fontCall) ∧ (stopOf .fontCall).kind = .fontCall ∧
      (stopOf .fontCall).font = some 340 ∧ called.pass = some (passOf .film) ∧ (passOf .film).killing = false ∧
      (passOf .film).park = none ∧ (passOf .film).cutAsked = false) ∧
    ((inState .fault (active .film runs)).stop.station = .fault ∧ (inState .fault (active .film runs)).active?.isSome = true) := by
  decide

theorem witness_CutKeyAsksForACut :
    (runs.cutPending = false ∧ runs.stop.station = .run ∧ runs.film.galley = none) ∧
    (filming.cutPending = false ∧ filming.stop.station = .run ∧ filming.film.galley.isSome = true) ∧
    ((inState .hold runs).cutPending = false ∧ (inState .hold runs).stop.station = .hold ∧ (inState .hold runs).exp.cur = none) ∧
    ((inState .hold (exposing .scanning filming)).stop.station = .hold ∧
      (inState .hold (exposing .scanning filming)).exp.cur.isSome = true) ∧
    State.cutPending { runs with film := { runs.film with transport := .cutting { asker := .blank, spoiled := none } } } = true ∧
    (inState .fault runs).stop.station = .fault := by decide

/-- A FONT-CALL with every seat filled, by fonts of the take or not. -/
def seated (f : Nat) (s : State) : State :=
  { s with exp := { s.exp with seats := List.replicate 8 f, order := [1, 2, 3, 4, 5, 6, 7, 0] } }
theorem witness_MountKeyPresentsASeat :
    ((inState .hold runs).stop.station = .hold ∧ (inState .hold runs).exp.phase = .idle ∧
      (inState .hold runs).exp.homing = none ∧ (inState .hold runs).stopIs .fontCall = false ∧
      State.stopIs { inState .hold runs with exp := { runs.exp with turret := some 7 } } .fontCall = false ∧
      (inState .hold runs).exp.turret = some 0) ∧
    (called.stop.station = .stopped ∧ called.exp.phase = .idle ∧ called.exp.homing = none ∧ called.stopIs .fontCall = true) ∧
    (let s := { called with exp := { called.exp with seats := [9, 0, 9, 9, 9, 9, 9, 9] } };
      s.exp.seats.findIdx? (fun f => f == 0) = some 1 ∧ s.exp.turret ≠ some 1) ∧
    (let s := seated 9 called;
      s.exp.seats.findIdx? (fun f => f == 0) = none ∧ s.active? = some (heldTake .active) ∧
      s.exp.order.find? (fun i => !(heldTake .active).fonts.contains ((s.exp.seats[i]?).getD 0)) = some 1 ∧
      s.exp.turret ≠ some 1) ∧
    (let s := seated 112 called;
      s.exp.seats.findIdx? (fun f => f == 0) = none ∧
      s.exp.order.find? (fun i => !(heldTake .active).fonts.contains ((s.exp.seats[i]?).getD 0)) = none ∧
      s.exp.order = 1 :: [2, 3, 4, 5, 6, 7, 0]) ∧
    (runs.stop.station = .run ∧ runs.stop.station ≠ .hold ∧ runs.stop.station ≠ .stopped ∧ runs.stop.station ≠ .standby) :=
  ⟨by decide, by decide, ⟨rfl, by decide⟩, ⟨by decide, rfl, by decide, by decide⟩, ⟨by decide, by decide, rfl⟩, by decide⟩

theorem witness_StandbyWakesAndExpires :
    (inState .standby runs).stop.station = .standby ∧ (inState .standby runs).cutPending = false ∧
    (inState .standby runs).film.galley = none ∧ runs.stop.station = .run ∧
    (∀ t ∈ (withTake (heldTake .parked) runs).takes, t.state ≠ .active ∧ t.state ≠ .queued) ∧
    (∃ t ∈ (withTake (heldTake .queued) runs).takes, t.state = .active ∨ t.state = .queued) ∧
    (inState .hold runs).stop.station ≠ .run := by decide

/-- A frame of the queue, begun. -/
def sending (f : TxFrame) (s : State) : State :=
  { s with line := { s.line with phase := .sending, queue := [{ frame := f, begun := true }] } }
theorem witness_StartPointsGapsAndSlotsMoveTheLine :
    (let s := { runs with line := { runs.line with queue := [{ frame := .widthAsk 112, begun := false }] } };
      s.line.phase = .free ∧ s.line.queue = { frame := .widthAsk 112, begun := false } :: []) ∧
    runs.line.queue = [] ∧ (sending (.widthAsk 112) runs).line.phase = .sending ∧
    (sending (.widthAsk 112) runs).line.queue = { frame := .widthAsk 112, begun := true } :: [] ∧
    (sending (.widthAsk 112) runs).line.phase ≠ .aborting ∧
    (∀ e ∈ runs.line.queue, e.begun = false) ∧ runs.line.phase ≠ .sending ∧
    (after .frameAborted (sending (.widthAsk 112) runs)).line.phase = .aborting ∧
    State.reset.line.phase = .unsynced ∧ (heard runs).line.phase = .gapDue ∧ runs.line.phase ≠ .unsynced ∧
    runs.line.phase ≠ .gapDue ∧ runs.line.phase ≠ .aborting ∧ runs.line.phase = .free ∧ (heard runs).line.phase ≠ .free := by decide

theorem witness_QueuedFramesKeepTheirOrderAndLeave :
    (∀ e ∈ [({ frame := .widthAsk 112, begun := false } : TxEntry), { frame := .notice none .reproof, begun := false }],
      e.begun = false) ∧
    ([{ frame := .widthAsk 112, begun := false }, { frame := .notice none .reproof, begun := false }].map
      (fun e : TxEntry => e.frame.kind)).Pairwise (· ≤ ·) ∧
    (let s := { runs with line := { runs.line with waiting := [.notice none .reproof, .widthAsk 112, .widthAsk 113] } };
      s.line.queue.length < 8 ∧ s.line.waiting = [.notice none .reproof] ++ .widthAsk 112 :: [.widthAsk 113] ∧
      (∀ g ∈ [TxFrame.notice none .reproof], (TxFrame.widthAsk 112).kind < g.kind) ∧
      (∀ g ∈ [TxFrame.widthAsk 113], (TxFrame.widthAsk 112).kind ≤ g.kind)) ∧
    runs.line.waiting = [] ∧
    ((sending (.notice none .reproof) runs).line.phase = .sending ∧
      (sending (.notice none .reproof) runs).line.queue = { frame := .notice none .reproof, begun := true } :: []) ∧
    runs.line.phase ≠ .sending := by decide

def claimWindow : Window := { what := .claim 2 offer1 12, slots := 0, queued := true }
theorem witness_ClaimAndTakenSentAct :
    (let s := { sending (.claim k1 12) runs with line := { (sending (.claim k1 12) runs).line with windows := [claimWindow] } };
      s.line.phase = .sending ∧ s.line.queue = { frame := .claim offer1.key 12, begun := true } :: [] ∧
      s.line.windows.find? (fun v => v.what.isClaimFor offer1.key) = some claimWindow ∧
      claimWindow.what = .claim 2 offer1 12 ∧ s.stop.station = .run) ∧
    (let s := sending (.taken k1 2) (withTake { heldTake .receiving with copyComplete := true } runs);
      s.line.phase = .sending ∧ s.line.queue = { frame := .taken k1 2, begun := true } :: [] ∧
      s.take? k1 = some { heldTake .receiving with copyComplete := true } ∧ s.stop.station = .run) := by decide

def windowed (w : Window) : State := { runs with line := { runs.line with windows := [w] } }
def answerWindow : Window := { what := .answer 112, slots := 0, queued := false }
def answering : State := { reads [0x41] 0 false with line := { runs.line with windows := [answerWindow] } }
theorem witness_ExpiredWindowHandsItsFrameOver :
    (let s := windowed { claimWindow with queued := false };
      s.line.windows.find? (fun w => w.what.subject == .take k1 && !w.queued && w.slots == 0) =
        some { claimWindow with queued := false } ∧ s.line.queue.length + s.line.waiting.length < 8) ∧
    (answering.line.windows.find? (fun w => w.what.subject == .font 112 && !w.queued && w.slots == 0) = some answerWindow ∧
      answering.width.table? 112 = some (7, List.replicate 223 20) ∧
      answering.line.queue.length + answering.line.waiting.length < 8) ∧
    ((windowed answerWindow).line.windows.find? (fun w => w.what.subject == .font 112 && !w.queued && w.slots == 0) =
      some answerWindow ∧ (windowed answerWindow).width.table? 112 = none) ∧
    runs.line.windows.find? (fun w => w.what.subject == .font 112 && !w.queued && w.slots == 0) = none :=
  ⟨by decide, ⟨by decide, rfl, by decide⟩, by decide, by decide⟩

def watching (sub : Subject) (s : State) : State := { s with line := { s.line with watches := [{ subject := sub, slots := 1 }] } }
/-- The font's slot ASKING. -/
def asking (s : State) : State :=
  { s with width := { s.width with slots := { state := .asking, font := some 112, pins := 1 } :: List.replicate 11 freeSlot } }
theorem witness_LapsesStrandOrReleaseTakes :
    (let s := watching (.take k1) (withTake (heldTake .releasing) runs);
      s.watched (.take (heldTake .releasing).key) = true ∧ s.take? (heldTake .releasing).key = some (heldTake .releasing) ∧
      (heldTake .releasing).state = .releasing ∧ (heldTake .releasing).claimant = none) ∧
    ((watching (.font 112) (asking runs)).watched (.font 112) = true ∧ (watching (.font 112) (asking runs)).width.isAsking 112 = true) ∧
    runs.watched (.font 112) = false := by decide

/-- The station 0 with both fonts mounted and VALID and its film known, which bids at cost 0. -/
def cheap : State :=
  { runs with
    panel := { runs.panel with straps := ⟨0, 0, 0⟩ }
    width :=
      { runs.width with
        slots := { state := .valid 7 [], font := some 112, pins := 0 } ::
          { state := .valid 7 [], font := some 113, pins := 0 } :: List.replicate 10 freeSlot }
    exp := { runs.exp with seats := [112, 113, 0, 0, 0, 0, 0, 0] }
    film := { runs.film with remaining := 57000, known := true } }
/-- A bid at cost 12, one at cost 0 and station 0, no bid from HOLD, and no window beside a window of the key. -/
theorem witness_OffersOpenClaimWindows :
    (Received toAll (.offer toAll offer1) runs ∧ runs.stop.station = .run ∧ runs.line.mute = false ∧ runs.takes = [] ∧
      (offer1.copyLen + 255) / 256 ≤ runs.freeBlocks.length ∧ (distinct (runs.heldFonts ++ offer1.fonts)).length ≤ 12 ∧
      offer1.film + 1440 ≤ runs.film.remaining ∧ offer1.scarce = 0 ∧ offer1.mode = 0 ∧ runs.line.windows = [] ∧
      0 < runs.panel.straps.station.val) ∧
    (Received toAll (.offer toAll offer1) cheap ∧ cheap.panel.straps.station.val = 0 ∧ cheap.takes = [] ∧
      (distinct offer1.fonts).filter (fun f => !cheap.mounted f) = [] ∧
      (distinct offer1.fonts).filter (fun f => !cheap.width.isValid f) = [] ∧ cheap.stop.station = .run ∧
      ¬ cheap.film.remaining < 57000 ∧ cheap.film.known = true ∧ (offer1.copyLen + 255) / 256 ≤ cheap.freeBlocks.length ∧
      cheap.line.queue.length + cheap.line.waiting.length < 8) ∧
    (inState .hold runs).stop.station ≠ .run ∧ (inState .hold runs).stop.station ≠ .standby ∧
    (windowed claimWindow).line.windows.any (fun w => w.what.isClaimFor offer1.key) = true := by
  unfold Received; decide +kernel

/-- The first byte, a byte out of place, a mismatched take, and one received whole. -/
theorem witness_CopyIsStoredInOrder :
    (let s := withTake take1 runs;
      Received to5 (.copy to5 k1 0 [0x41]) s ∧ to5.addressee = s.number ∧ s.take? k1 = some take1 ∧
      (∀ y ∈ s.takes, y.key = k1 → y = take1) ∧ take1.state = .receiving ∧ take1.copyComplete = false ∧
      take1.sender = to5.sender ∧ take1.mismatched = false ∧ 0 = take1.received ∧ 0 + [0x41#8].length ≤ take1.copyLen) ∧
    (39 ≠ take1.received ∧ Received to5 (.copy to5 k1 39 [0x41, 0x42]) (withTake take1 runs)) ∧
    (Received to5 (.copy to5 k1 0 [0x41]) (withTake { take1 with mismatched := true } runs) ∧
      State.take? (withTake { take1 with mismatched := true } runs) k1 = some { take1 with mismatched := true }) ∧
    ((withTake (heldTake .queued) runs).take? k1 = some (heldTake .queued) ∧ (heldTake .queued).state ≠ .receiving) := by
  unfold Received; decide +kernel

theorem witness_CopyEndIsAnswered :
    (let s := withTake (heldTake .receiving) runs;
      s.take? k1 = some (heldTake .receiving) ∧ (heldTake .receiving).state = .receiving ∧ s.line.mute = false ∧
      s.line.queue.length + s.line.waiting.length < 8 ∧ Received to5 (.copyEnd to5 k1 40) s ∧ to5.addressee = s.number ∧
      (heldTake .receiving).copyComplete = false ∧ (heldTake .receiving).sender = to5.sender ∧
      (heldTake .receiving).mismatched = false ∧ 40 = (heldTake .receiving).copyLen ∧ 40 = (heldTake .receiving).received ∧
      Received to5 (.copyEnd to5 k1 41) s ∧ 41 ≠ (heldTake .receiving).copyLen ∧ (heldTake .receiving).timer ≠ some .stall) ∧
    ((withTake take1 runs).take? k1 = some take1 ∧ take1.timer = some .stall) := by
  unfold Received; decide +kernel

theorem witness_ClaimAndTakenHeardAct :
    (let s := watching (.take k1) (withTake (heldTake .releasing) runs);
      Received toAll (.claim toAll k1 31) s ∧ s.take? k1 = some (heldTake .releasing) ∧ (heldTake .releasing).claimant = none ∧
      s.watched (.take k1) = true ∧ s.line.windows = []) ∧
    ((windowed claimWindow).take? k1 = none ∧ Received toAll (.claim toAll k1 31) (windowed claimWindow)) ∧
    (let x := { heldTake .releasing with claimant := some 2, sentEnd := [2] };
      Received to5 (.taken to5 k1) (withTake x runs) ∧ (withTake x runs).take? k1 = some x ∧ x.state = .releasing ∧
      x.sentEnd.contains to5.sender = true ∧ to5.addressee = runs.number ∧ runs.line.mute = false ∧
      runs.line.queue.length + runs.line.waiting.length < 8) ∧
    ((heldTake .releasing).sentEnd.contains to5.sender = false ∧ (heldTake .queued).state ≠ .releasing) := by
  unfold Received; decide +kernel

theorem witness_FailedReleasesAreOfferedAgainOrStranded :
    (let x := { heldTake .releasing with claimant := some 2, tries := 1 };
      (withTake x runs).take? k1 = some x ∧ x.state = .releasing ∧ Received to5 (.refused to5 k1 1) (withTake x runs) ∧
      to5.addressee = runs.number ∧ x.claimant = some to5.sender ∧ x.tries ≤ 1) ∧
    (let x := { heldTake .releasing with timer := some .takenWait, tries := 2 };
      (withTake x runs).take? k1 = some x ∧ x.timer = some .takenWait ∧ 2 ≤ x.tries ∧ x.reoffer = false ∧
      runs.stop.station ≠ .halt ∧ runs.line.mute = false) := by
  unfold Received; decide +kernel

theorem witness_StrandTurnsAndAgingAct :
    (let x := { heldTake .stranded with release := some .repeated, timer := some .strandTurn };
      (withTake x runs).take? k1 = some x ∧ x.state = .stranded ∧ x.timer = some .strandTurn ∧ x.scarce = false) ∧
    (let x := { heldTake .stranded with release := some .widths, scarce := true, timer := some .strandTurn };
      (withTake x runs).take? k1 = some x ∧ x.scarce = true) ∧
    (heldTake .queued).state ≠ .stranded := by decide

/-- Two candidates of one class, the later with its fonts mounted. -/
def later : Take := { heldTake .queued with key := { k1 with number := 2 }, fonts := [9], widthsReady := true }
def earlier : Take := { heldTake .queued with widthsReady := true }
theorem witness_SelectionTakesTheFirstByItsKeys :
    (let s := { runs with takes := [earlier, later], exp := { runs.exp with seats := [9, 0, 0, 0, 0, 0, 0, 0] } };
      s.stop.station = .run ∧ s.active? = none ∧ s.takes = [earlier] ++ later :: [] ∧ later.state = .queued ∧
      later.widthsReady = true ∧ later.release = none ∧ s.paperOut = false ∧ later.cls = earlier.cls ∧
      (∀ f ∈ later.fonts, f ∈ s.exp.seats) ∧ ¬ (∀ f ∈ earlier.fonts, f ∈ s.exp.seats) ∧ earlier.proofFirst = false) ∧
    (inState .hold runs).stop.station ≠ .run ∧ (active .film runs).active?.isSome = true ∧ runs.takes = [] := by decide

theorem witness_KillEndsATake :
    (let s := withTake (heldTake .proofHold) runs;
      Received toAll (.kill toAll k1) s ∧ s.take? k1 = some (heldTake .proofHold) ∧ (heldTake .proofHold).state ≠ .active ∧
      s.line.mute = false ∧ s.line.queue.length + s.line.waiting.length < 8) ∧
    (let s := active .film runs;
      s.take? k1 = some (heldTake .active) ∧ s.pass = some (passOf .film) ∧ (passOf .film).killing = false ∧
      s.stop.record = none ∧ s.line.windows = [] ∧ Received toAll (.kill toAll k1) s) ∧
    runs.take? k1 = none := by
  unfold Received; decide +kernel

def proofTake (x : TakeState) : Take := { heldTake x with proofFirst := true, proofGen := some (genValues runs (heldTake x)) }
theorem witness_ApproveChecksTheGeneration :
    (let x := proofTake .proofHold;
      let s := withTake x runs;
      Received toAll (.approve toAll k1) s ∧ s.take? k1 = some x ∧ s.stop.station = .run ∧ x.proofFirst = true ∧
      x.state = .proofHold ∧ x.proofGen = some (genValues s x) ∧
      x.proofGen ≠ some (genValues { s with hyph := { s.hyph with gen := 1 } } x)) ∧
    ((proofTake .receiving).state = .receiving ∧ (proofTake .queued).approved = false) ∧
    (let s := { runs with takes := [proofTake .active], pass := some (passOf .proof) };
      s.take? k1 = some (proofTake .active) ∧ s.pass = some (passOf .proof) ∧ (passOf .proof).kind = .proof ∧
      (passOf .proof).killing = false) ∧
    ((heldTake .queued).proofFirst = false ∧ (passOf .film).kind = .film ∧ (proofTake .stranded).state = .stranded) := by
  unfold Received; decide +kernel

/-- The reading state of a text at an offset, as `Reads` says it. -/
def readsAt (text : List Nat) (n : Nat) (boxed : Bool) (code len : Nat) : Prop :=
  Reads (reads text n boxed) (textTake text) (textCtx n) code len

theorem witness_CopyCommandsStandAtTheirByte :
    copyShape .measure = some (0x04, 2) ∧ reading? runs = none ∧
    ((reading? (reads [0x41] 0 false)).map (fun r => r.byte)) = some (some 0x41) ∧
    reading? (reads [0x04, 10] 0 false) = some { take := textTake [0x04, 10], ctx := textCtx 0, byte := some 0x04 } ∧
    (textTake [0x04, 10]).textLen < (textCtx 0).resume + 1 + 2 := by decide

/-- A listed font and one not listed; a size clamped from below and one substituted. -/
theorem witness_FontAndSizeActAtOnce :
    readsAt [0x01, 0, 113] 0 false 0x01 2 ∧ readsAt [0x01, 3, 0xE7] 0 true 0x01 2 ∧ readsAt [0x02, 9] 0 false 0x02 1 ∧
    readsAt [0x02, 15] 0 false 0x02 1 ∧
    (14 ∈ [10, 11, 12, 13, 14, 16, 18, 20, 24, 28, 36, 48] ∧ 14 ≤ max 10 (min 48 15) ∧
      ∀ g ∈ [10, 11, 12, 13, 14, 16, 18, 20, 24, 28, 36, 48], g ≤ max 10 (min 48 15) → g ≤ 14) := by
  unfold readsAt Reads; decide

theorem witness_LineValuesAreSet :
    readsAt [0x03, 192] 0 false 0x03 1 ∧ readsAt [0x03, 193] 0 true 0x03 1 ∧ readsAt [0x04, 45, 1] 0 false 0x04 2 ∧
    readsAt [0x05, 0, 97] 0 false 0x05 2 ∧ readsAt [0x06, 50, 30, 20] 0 false 0x06 3 ∧ readsAt [0x07, 7] 0 true 0x07 1 ∧
    readsAt [0x0B, 0] 0 true 0x0B 1 ∧ readsAt [0x08, 3] 0 false 0x08 1 ∧ readsAt [0x08, 4] 0 true 0x08 1 ∧
    readsAt [0x09, 0] 0 false 0x09 1 ∧ readsAt [0x0A, 255] 0 true 0x0A 1 := by
  unfold readsAt Reads; decide

theorem witness_SpacesAndMarksArePlaced :
    readsAt [0x0D] 0 false 0x0D 0 ∧ readsAt [0x0E] 0 true 0x0E 0 ∧ readsAt [0x0F] 0 false 0x0F 0 ∧
    readsAt [0x10] 0 false 0x10 0 ∧ (reads [0x10] 0 false).comp.holdsBox = false ∧ readsAt [0x41, 0x10] 1 true 0x10 0 ∧
    (reads [0x41, 0x10] 1 true).comp.holdsBox = true ∧ readsAt [0x41, 0x11] 1 true 0x11 0 := by
  unfold readsAt Reads; decide

/-- The first and the last character byte, the rubout and the unknown bytes at the ends of their ranges. -/
theorem witness_TextBytesAreTaken :
    readsAt [0x21] 0 false 0x21 0 ∧ readsAt [0xFF] 0 true 0xFF 0 ∧ readsAt [0x7F] 0 false 0x7F 0 ∧
    readsAt [0x00] 0 false 0x00 0 ∧ readsAt [0x12] 0 false 0x12 0 ∧ readsAt [0x1F] 0 true 0x1F 0 ∧
    readsAt [0x20] 0 false 0x20 0 ∧ (reads [0xFF] 0 true).width.slotOf (textCtx 0).font = some 0 ∧
    (reads [0xFF] 0 true).width.table? (textCtx 0).font = some (7, List.replicate 223 20) := by
  unfold readsAt Reads; decide +kernel

/-- A line and a word group that together pass the measure. -/
def full : State :=
  let s := reads [0x41, 0x20, 0x42, 0x20] 3 false
  { s with comp := { s.comp with
      line := List.replicate 63 (box 0), group := [box 2], spaces := 1, groupStart := 2, groupFont := 112, groupSize := 12 } }
theorem witness_WordSpaceEndsTheGroup :
    (readsAt [0x20] 0 false 0x20 0 ∧ (reads [0x20] 0 false).comp.holdsBox = false) ∧
    (let s := reads [0x41, 0x20] 1 true;
      readsAt [0x41, 0x20] 1 true 0x20 0 ∧ s.comp.holdsBox = true ∧ s.comp.afterSpace = false ∧ s.comp.group ≠ [] ∧
      (s.comp.values (textCtx 1) s.comp.group).fits (joinedLine s.comp) = true) ∧
    (let s := full;
      Reads s (textTake [0x41, 0x20, 0x42, 0x20]) (textCtx 3) 0x20 0 ∧ s.comp.afterSpace = false ∧ s.comp.line ≠ [] ∧
      s.comp.group ≠ [] ∧ (s.comp.values (textCtx 3) s.comp.group).fits (joinedLine s.comp) = false ∧
      candidates s.hyph [] { hyph := true, caps := false, limit := 3, count := 0 } s.comp.group s.comp.discs = [] ∧
      s.comp.holdsBox = true ∧ s.store.records.length < 64 ∧ s.store.used + s.comp.line.length ≤ 4096 ∧
      s.comp.groupStart < (textTake [0x41, 0x20, 0x42, 0x20]).textLen) := by
  unfold readsAt Reads; decide +kernel

theorem witness_ParagraphAndCopyEndTheLine :
    (let s := reads [0x41, 0x0C] 1 true;
      readsAt [0x41, 0x0C] 1 true 0x0C 0 ∧ (s.comp.values (textCtx 1) s.comp.group).fits (joinedLine s.comp) = true ∧
      s.store.records.length < 64 ∧ s.store.used + (joinedLine s.comp).length ≤ 4096) ∧
    (readsAt [0x0C] 0 false 0x0C 0 ∧ (reads [0x0C] 0 false).comp.group = []) ∧
    (let s := reads [0x41] 1 false;
      reading? s = some { take := textTake [0x41], ctx := textCtx 1, byte := none } ∧ s.comp.holdsBox = false) ∧
    (let s := reads [0x41] 1 true;
      reading? s = some { take := textTake [0x41], ctx := textCtx 1, byte := none } ∧ s.comp.holdsBox = true ∧
      (s.comp.values (textCtx 1) s.comp.group).fits (joinedLine s.comp) = true) := by
  unfold readsAt Reads; decide

def widths20 : List Nat := List.replicate 223 20
/-- The font's slot ASKING, VALID at revision 7, absent with a free slot, and absent with none. -/
theorem witness_TablesActByTheirSlot :
    Received toAll (.widthTable toAll 112 8 widths20) runs ∧ (inState .halt runs).stop.station = .halt ∧
      (Received toAll (.widthTable toAll 1000 8 widths20) runs ∧ tableFormOk 1000 widths20 = false) ∧
      tableFormOk 112 widths20 = true ∧ runs.line.windows = [] ∧
      ((asking runs).width.slotOf 112 = some 0 ∧
        (asking runs).width.slots[0]? = some { state := .asking, font := some 112, pins := 1 }) ∧
      ((reads [0x41] 0 false).width.slotOf 112 = some 0 ∧
        (reads [0x41] 0 false).width.slots[0]? = some { state := .valid 7 widths20, font := some 112, pins := 1 }) ∧
      (runs.width.slotOf 112 = none ∧ runs.width.freeSlot? = some 0) ∧
      (let w : WidthCache := { runs.width with slots := List.replicate 12 { state := .asking, font := some 9, pins := 1 } };
        w.slotOf 112 = none ∧ w.freeSlot? = none) :=
  ⟨⟨rfl, by decide +kernel, by decide⟩, rfl, ⟨⟨rfl, by decide +kernel, by decide⟩, by decide +kernel⟩, by decide +kernel, rfl,
    ⟨by decide, rfl⟩, ⟨rfl, rfl⟩, by decide, by decide⟩

theorem witness_AsksAreAnsweredOrJoined :
    (let s := reads [0x41] 0 false;
      Received toAll (.widthAsk toAll 112) s ∧ s.width.isValid 112 = true ∧ s.stop.station ≠ .start ∧ s.stop.station ≠ .halt ∧
      s.line.windows = [] ∧ s.line.mute = false) ∧
    (inState .halt (reads [0x41] 0 false)).stop.station = .halt ∧
    (let s := { asking runs with line := { runs.line with queue := [{ frame := .widthAsk 112, begun := false }] } };
      s.width.isValid 112 = false ∧ s.width.isAsking 112 = true ∧ { frame := .widthAsk 112, begun := false } ∈ s.line.queue) ∧
    (runs.width.isValid 112 = false ∧ runs.width.isAsking 112 = false) := by
  unfold Received; decide +kernel

/-- The word Box, in the dictionary and not; the shortest word there is. -/
def boxEntry : ExceptionEntry := { word := [0x62, 0x6F, 0x78], positions := [2] }
def boxKnown : State := { runs with hyph := { runs.hyph with dict := [boxEntry] } }
theorem witness_ExceptionAddReplacesOrInserts :
    (let letters := [0x42, 0x6F, 0x78];
      runs.hears = true ∧ frameOk (.exceptionAdd toAll (letters.length :: letters ++ [2, 1].length :: [2, 1])) = true ∧
      2 ≤ letters.length ∧ letters.length ≤ 24 ∧ (∀ c ∈ letters, isLetter c = true) ∧ [2, 1].length + 1 ≤ letters.length ∧
      (∀ p ∈ [2, 1], 1 ≤ p ∧ p + 1 ≤ letters.length) ∧ dictSorted boxKnown.hyph.dict = true ∧
      (∃ f ∈ boxKnown.hyph.dict, f.word = letters.map fold) ∧ (∀ f ∈ runs.hyph.dict, f.word ≠ letters.map fold) ∧
      runs.hyph.dict.length < 512) ∧
    frameOk (.exceptionAdd toAll (2 :: [0x42, 0x6F] ++ 0 :: [])) = true := by decide

def fullDict : State := { runs with hyph := { runs.hyph with dict := List.replicate 512 boxEntry } }
/-- An add to the full dictionary, in RUN and in HALT; and, of bad form, an add with a position at L, an add and a delete of a
word of one letter, and a delete with more bytes than it declares. -/
theorem witness_ExceptionAddRefused :
    (let letters := [0x42, 0x6F]; let body := [2, 0x42, 0x6F, 0];
      (∀ x ∈ [StationState.run, .halt], Received toAll (.exceptionAdd toAll body) (inState x fullDict)) ∧
      body = letters.length :: letters ++ 0 :: [] ∧ 2 ≤ letters.length ∧ letters.length ≤ 24 ∧
      (∀ c ∈ letters, isLetter c = true) ∧ 0 + 1 ≤ letters.length ∧ 512 ≤ fullDict.hyph.dict.length ∧
      (∀ f ∈ fullDict.hyph.dict, f.word ≠ letters.map fold) ∧ fullDict.stop.station ≠ .halt ∧ hasRoom fullDict) ∧
    (∀ body ∈ [[2, 0x42, 0x6F, 1, 2], [1, 0x42, 0]], Received toAll (.exceptionAdd toAll body) runs ∧
      ∀ letters ps : List Nat, body = letters.length :: letters ++ ps.length :: ps ∧ 2 ≤ letters.length →
        ¬ ∀ p ∈ ps, 1 ≤ p ∧ p + 1 ≤ letters.length) ∧
    (∀ body ∈ [[2, 0x42, 0x6F, 0, 1], [1, 0x42, 0]], Received toAll (.exceptionDelete toAll body) runs ∧
      ∀ letters ps : List Nat, ¬ (body = letters.length :: letters ++ ps.length :: ps ∧ 2 ≤ letters.length)) := by
  refine ⟨by unfold Received hasRoom; decide +kernel, ?_, ?_⟩
  · simp only [List.forall_mem_cons, Received]
    refine ⟨⟨by decide, ?_⟩, ⟨by decide, ?_⟩, fun _ h => nomatch h⟩
    · rintro (_ | ⟨a, _ | ⟨b, _ | ⟨c, l⟩⟩⟩) ps ⟨e, k⟩ <;> simp at e k
      · obtain ⟨rfl, rfl, -, rfl⟩ := e; decide
    · rintro (_ | ⟨a, _ | ⟨b, l⟩⟩) ps ⟨e, k⟩ <;> simp at e k
  · simp only [List.forall_mem_cons, Received]
    refine ⟨⟨by decide, ?_⟩, ⟨by decide, ?_⟩, fun _ h => nomatch h⟩
    · rintro (_ | ⟨a, _ | ⟨b, _ | ⟨c, l⟩⟩⟩) ps ⟨e, k⟩ <;> simp at e k
      · obtain ⟨rfl, rfl, a, rfl⟩ := e; exact nomatch a
    · rintro (_ | ⟨a, _ | ⟨b, l⟩⟩) ps ⟨e, k⟩ <;> simp at e k

theorem witness_ExceptionDeleteRemoves :
    (let letters := [0x42, 0x6F, 0x78];
      boxKnown.hears = true ∧ frameOk (.exceptionDelete toAll (letters.length :: letters ++ 0 :: [])) = true ∧
      (∀ c ∈ letters, isLetter c = true) ∧ boxKnown.hyph.dict = [] ++ boxEntry :: [] ∧ boxEntry.word = letters.map fold ∧
      (∀ f ∈ runs.hyph.dict, f.word ≠ letters.map fold) ∧ toAll.sender ≠ runs.number) := by decide

def moving (seat lens step : Option Nat) : State :=
  { runs with exp := { runs.exp with turretMove := seat, lensMove := lens, carriageMove := step } }
def homing (m : Mover) (s : State) : State := { s with exp := { s.exp with phase := .homing, homing := some m } }
theorem witness_MovesAndHomingComplete :
    (let s := moving (some 7) (some 11) (some 5640);
      s.exp.homing = none ∧ s.exp.turretMove = some (7 : Fin 8).val ∧ s.exp.phase ≠ .mounting ∧
      s.exp.lensMove = some (11 : Fin 12).val ∧ s.exp.carriageMove = some 5640) ∧
    (let s := after .mountKey (inState .hold runs);
      s.exp.turretMove = some (1 : Fin 8).val ∧ s.exp.phase = .mounting ∧ s.exp.homing = none) ∧
    (runs.exp.turretMove = none ∧ runs.exp.lensMove = none ∧ runs.exp.carriageMove = none ∧ runs.exp.homing = none) ∧
    (homing .turret runs).exp.homing = some .turret ∧ (homing .lens runs).exp.homing = some .lens ∧
    (let s := homing .carriage (inState .start runs);
      s.exp.homing = some .carriage ∧ s.stop.station = .start ∧ s.stop.record = none ∧ s.takes = [] ∧ s.film.galley = none ∧
      s.line.mute = false ∧ s.line.queue.length + s.line.waiting.length < 8) ∧
    (let s := after .clearKey (inState .fault runs);
      s.exp.homing = some .turret ∧ s.stop.station = .fault ∧ s.stop.clearing = true ∧
      (homing .carriage s).exp.homing = some .carriage) := by decide

theorem witness_HomingFaultsLeadToHalt :
    (let s := homing .turret (inState .start runs);
      s.exp.homing = some .turret ∧ (7 : Fin 8) ≠ 0 ∧ s.stop.station = .start ∧ s.panel.startFault = none ∧
      s.film.galley = none ∧ s.line.mute = false ∧ s.line.queue.length + s.line.waiting.length < 8) ∧
    (let s := homing .lens (after .clearKey (inState .fault runs));
      s.exp.homing = some .lens ∧ (11 : Fin 12) ≠ 0 ∧ s.stop.station = .fault ∧ s.stop.clearing = true ∧ s.line.windows = []) ∧
    runs.exp.homing = none := by decide

/-- A flash of the first item in progress. -/
def flashing (s : State) : State :=
  let t := exposing .scanning s
  { t with exp := { t.exp with flash := some { item := 0, duration := 60 } } }
def lampAt (c run : Nat) : State := { flashing filming with lamp := { filming.lamp with c := c, ePrev := 0, run := run } }
/-- A reading on target, a correction that just stays within its limit, one that passes it, and the runs of 63 and 255. -/
theorem witness_FlashesAndLampChangesCorrectTheLamp :
    runs.exp.flash = none ∧
    ((flashing filming).exp.flash = some { item := 0, duration := 60 } ∧
      (flashing filming).exp.cur.map (fun c => c.groups) = some ({ seat := 0, lens := 2, items := [0] } :: [])) ∧
    ((2045 : Int) + ((3 : Int) * (4 - 0) + 1 * 4).tdiv 8 = 2047 ∧ (lampAt 2045 0).lamp.c = 2045 ∧ (508 : Fin 1024).val = 508) ∧
    (2047 < (2046 : Int) + ((3 : Int) * (4 - 0) + 1 * 4).tdiv 8 ∧ (lampAt 2046 62).lamp.run < 255) ∧
    ((lampAt 2046 63).lamp.run = 63 ∧ (lampAt 2046 63).line.mute = false ∧ (lampAt 2046 63).stop.station ≠ .halt) ∧
    (255 ≤ (lampAt 2046 255).lamp.run ∧ (lampAt 2046 255).stop.station = .run) ∧
    State.reset.lamp.phase ≠ .warming ∧ (after .lampChangeSwitch runs).lamp.phase = .warming := by decide

def transporting (t : Transport) (s : State) : State := { s with film := { s.film with transport := t } }
def mountMoved : State := after .mountKey (inState .hold runs)
/-- Each of the events in turn, from states with room for the notice; and the timeouts with nothing in progress. -/
theorem witness_FailedMovementsAreFaults :
    failedMechanism mountMoved (.moveTimeout .turret) = some .turret ∧ failedMechanism mountMoved (.seatIndex 2) = some .turret ∧
    failedMechanism (moving none (some 3) none) (.moveTimeout .lens) = some .lens ∧
    failedMechanism (moving none (some 3) none) (.lensIndex 4) = some .lens ∧
    failedMechanism (moving none none (some 3)) (.moveTimeout .carriage) = some .carriage ∧
    failedMechanism (flashing filming) .flashTimeout = some .flash ∧
    failedMechanism (transporting .advancing (exposing .advancing filming)) .advanceTimeout = some .film ∧
    failedMechanism (transporting (.cutting { asker := .endCut, spoiled := none }) filming) .cutterTimeout = some .cutter ∧
    ((flashing filming).line.mute = false ∧ (flashing filming).line.queue.length + (flashing filming).line.waiting.length < 8 ∧
      (flashing filming).stop.station = .run ∧ (flashing filming).pass = some (passOf .film)) ∧
    (flashing filming).exp.cur.map (fun c => c.halt) = some none ∧ mountMoved.stop.station = .hold ∧
    failedMechanism runs (.moveTimeout .turret) = none ∧ failedMechanism runs .flashTimeout = none := by decide

theorem witness_ScannerTakesEachItemOnce :
    (let e := { runs.exp with seats := [112, 113, 0, 0, 0, 0, 0, 0], turret := some 7 };
      e.seats.length = 8 ∧ 7 < 8 ∧ (∀ i ∈ record1.items, i.lens < 12) ∧
      (∀ i ∈ record1.items, i.code ≠ 0x20 → i.absent = false → i.font ∈ e.seats)) := by decide

theorem filming_stops (s : State) (hs : s.stop.station = .run) (hr : s.stop.record = none)
    (hp : s.pass = some (passOf .film)) (ha : s.active? = some (heldTake .active)) (hf : s.firstUnexposed = some record1) :
    mayStop s (heldTake .active) record1 :=
  ⟨Or.inl hs, hr, fun p h => by rw [hp] at h; rw [only h]; rfl, ha, hf, fun n h => none_is h⟩

theorem witness_PhotoUnitDoorHaltsAndSurveys :
    { runs with pins := { runs.pins with photoOpen := true } }.pins.photoOpen = true ∧
    (runs.pins.photoOpen = false ∧ runs.exp.cur = none) ∧
    (let s := exposing .scanning filming;
      s.pins.photoOpen = false ∧ s.exp.phase = .scanning ∧ s.exp.cur.map (fun c => c.halt) = some none ∧
      mayStop s (heldTake .active) record1 ∧ hasRoom s) ∧
    (called.stop.station = .stopped ∧ called.stop.record = some (stopOf .fontCall) ∧ (stopOf .fontCall).font = some 340 ∧
      (∀ p, called.pass = some p → p.park = none) ∧ called.film.galley = none ∧
      340 ∈ (List.range 8).map (fun i => let c := ([340][i]?).getD 0; if 1 ≤ c ∧ c ≤ 999 then c else 0)) :=
  ⟨rfl, by decide, ⟨rfl, rfl, rfl, filming_stops _ rfl rfl rfl (by decide) (by decide), rfl, by decide⟩, rfl, rfl, rfl,
    fun p h => by rw [show p = passOf .film from only h]; rfl, rfl, by decide⟩

theorem witness_FilmMovementsComplete :
    (let s := transporting .advancing (exposing .advancing filming);
      s.film.transport = .advancing ∧ s.exp.phase = .advancing ∧ s.exp.cur.map (fun c => (c.line, c.halt)) = some (1, none) ∧
      s.store.records.find? (fun x => x.number == 1) = some record1) ∧
    (let s := transporting .advancing (after .photoUnitDoorOpen (transporting .advancing (exposing .advancing filming)));
      s.exp.phase = .advancing ∧ s.exp.cur.map (fun c => c.halt.isSome) = some true) ∧
    ((after .cutKey runs).film.transport = .trailing { asker := .blank, spoiled := none } ∧
      (after .cutKey runs).film.cutterOk = true) ∧
    runs.film.transport = .idle ∧
    (let s := transporting (.cutting { asker := .endCut, spoiled := none }) filming;
      s.film.transport = .cutting { asker := .endCut, spoiled := none } ∧ s.film.galley = some galley1) ∧
    (after .advanceDone (after .cutKey runs)).film.transport = .cutting { asker := .blank, spoiled := none } := by decide

/-- R134: a trailer that ends with the cutter unusable ends its cut, the galley uncut; a blank cut closes nothing; and a galley
closed by the cassette door under the trailer is closed no more. -/
theorem witness_FilmMovementsComplete_uncut :
    (∀ a ∈ [CutAsker.endCut, .park, .kill, .spoil, .operator, .reset, .blank],
      let s := transporting (.trailing { asker := a, spoiled := none })
        { filming with film := { filming.film with cutterOk := false } };
      s.film.transport = .trailing { asker := a, spoiled := none } ∧ s.film.cutterOk = false ∧ s.film.galley = some galley1 ∧
      (a = .blank ∨ a ≠ .blank)) ∧
    runs.film.galley = none ∧
    (let s := after .advanceDone (transporting (.trailing { asker := .operator, spoiled := none })
        { filming with film := { filming.film with cutterOk := false } });
      s.film.galley = none ∧ s.film.manifest.map (fun g => (g.flags.uncut, g.flags.continuedTo)) = [(true, true)]) := by decide

theorem witness_FilmDoorsActOnGalleyAndManifest :
    (let opened (s : State) : State := { s with pins := { s.pins with cassetteOpen := true } };
      (opened runs).pins.cassetteOpen = true ∧ (runs.pins.cassetteOpen = false ∧ runs.film.galley = none) ∧
      (filming.film.galley = some galley1 ∧ filming.exp.cur = none ∧ filming.film.transport = .idle) ∧
      (let s := exposing .scanning filming;
        s.film.galley = some galley1 ∧ s.exp.phase = .scanning ∧ s.exp.cur.map (fun c => c.halt) = some none ∧
        mayStop s (heldTake .active) record1 ∧ hasRoom s) ∧
      (3 : Fin 4) ≠ 0 ∧ (opened runs).stop.record = none ∧ hasRoom (opened runs) ∧ (opened runs).stop.station ≠ .halt ∧
      (let s := stopped .filmOut (opened filming);
        s.stop.record = some (stopOf .filmOut) ∧ s.stop.station = .stopped ∧ s.pins.takeupOpen = false)) ∧
    (let opened (s : State) : State := { s with pins := { s.pins with takeupOpen := true } };
      let taken (n : Nat) (s : State) : State :=
        opened { s with film := { s.film with removal := true, manifest := List.replicate n galley1 } };
      (opened runs).film.removal = false ∧ (filming.film.galley.isSome = true ∧ filming.exp.cur = none ∧
        mayStop filming (heldTake .active) record1 ∧ hasRoom filming) ∧
      ((taken 16 runs).film.manifest.length = 16 ∧ hasRoom (taken 16 runs) ∧ (taken 16 runs).stop.record = none) ∧
      (16 < (taken 17 runs).film.manifest.length ∧ (taken 64 runs).film.manifest.length = 64 ∧ (taken 64 runs).line.queue = [] ∧
        (taken 64 runs).line.waiting = []) ∧
      (stopped .takeupFull (taken 64 runs)).stop.record = some (stopOf .takeupFull)) :=
  ⟨⟨rfl, ⟨rfl, rfl⟩, ⟨rfl, rfl, rfl⟩,
      ⟨rfl, rfl, rfl, filming_stops _ rfl rfl rfl (by decide) (by decide), rfl, by decide⟩, by decide, rfl, ⟨rfl, by decide⟩,
      nofun, rfl, rfl, rfl⟩,
    rfl, ⟨rfl, rfl, filming_stops _ rfl rfl rfl (by decide) (by decide), rfl, by decide⟩, ⟨rfl, ⟨rfl, by decide⟩, rfl⟩,
      ⟨by decide, by decide, rfl, rfl⟩, rfl⟩

theorem witness_StopTimersParkTheTake :
    (called.stop.station = .stopped ∧ called.stop.record = some (stopOf .fontCall) ∧ (stopOf .fontCall).timer = true ∧
      (stopOf .fontCall).font = some 340 ∧ called.pass = some (passOf .film)) ∧
    (let s := stopped .filmOut (active .film runs);
      s.stop.record = some (stopOf .filmOut) ∧ (stopOf .filmOut).timer = true ∧ s.pass = some (passOf .film)) ∧
    runs.stop.record = none ∧ runs.stop.station ≠ .stopped := by decide

def printing (c : Nat) (e : Option SegKind) (s : State) : State :=
  { s with proof := { s.proof with lineOpen := true, attached := true, inFlight := some { char := c, ends := e } } }
def noPaper (s : State) : State := { s with pins := { s.pins with paper := false } }
theorem witness_ProofIsSentHeldOrDropped :
    ((printing 0x41 none runs).proof.inFlight = some { char := 0x41, ends := none } ∧
      (printing 10 (some .close) runs).proof.inFlight = some { char := 10, ends := some .close } ∧
      (printing 10 (some .header) filming).proof.inFlight = some { char := 10, ends := some .header } ∧
      (printing 10 (some (.line 1)) filming).proof.inFlight = some { char := 10, ends := some (.line 1) } ∧
      runs.proof.inFlight = none) ∧
    (let s := { runs with proof := { runs.proof with kind := .proof } };
      s.pins.paper = true ∧ s.proof.stall = false ∧ hasRoom s ∧ s.stop.station ≠ .halt ∧ s.pass = none ∧ s.active? = none) ∧
    (let s := { active .proof runs with
        pins := { runs.pins with busy := true }
        proof := { runs.proof with kind := .proof, segs := [{ kind := .line 1, chars := [13, 10] }] } };
      s.pass = some (passOf .proof) ∧ s.active? = some (heldTake .active) ∧ s.pins.busy = true ∧ s.proof.segs ≠ [] ∧
      hasRoom s) ∧
    (filming.pass = some (passOf .film) ∧ filming.active? = some (heldTake .active) ∧
      filming.store.records.any (fun r => r.proofPending) = true ∧ hasRoom filming) ∧
    (let s := noPaper { active .proof runs with proof := { runs.proof with paperTimer := true } };
      s.pins.paper = false ∧ s.proof.stall = false ∧ s.proof.paperTimer = true ∧ s.active? = some (heldTake .active) ∧
      (∀ y ∈ s.takes, y.key = (heldTake .active).key ∨ y.state = .active → y = heldTake .active) ∧ hasRoom s ∧
      s.stop.station ≠ .standby) ∧
    { runs.proof with stall := true }.stall = true ∧ runs.pins.busy = false ∧ runs.proof.paperTimer = false := by
  unfold hasRoom; decide


/-! ### The clauses on breaks, tables and reactions

A second theorem for the statements whose clauses on the parts of a rule, or on the reactions that `settle` runs, have
hypotheses of their own. -/

/-- The line in exposure, halted by a door, with these items flashed. -/
def halted (d : Door) (done : List Nat) (s : State) : State :=
  { s with exp := { s.exp with cur := s.exp.cur.map (fun c => { c with halt := some d, flashed := done }) } }
/-- A halted line with nothing flashed, with an item flashed, and with its flash in progress; a Compositor at its line's
boundary and one inside its line. -/
theorem witness_RunAndHoldKeysAct_lines :
    (let s := stopped .door (halted .photo [] (exposing .advancing filming));
      s.stop.record = some (stopOf .door) ∧ s.pins.photoOpen = false ∧ s.stop.spoilCut = false ∧
      (∀ c ∈ s.exp.cur, c.halt = none ∨ (c.flashed = [] ∧ s.exp.flash = none))) ∧
    (∃ c ∈ (stopped .door (halted .photo [0] (exposing .scanning filming))).exp.cur,
      c.halt.isSome = true ∧ c.flashed ≠ []) ∧
    (∃ c ∈ (halted .photo [] (flashing filming)).exp.cur,
      c.halt.isSome = true ∧ (flashing filming).exp.flash.isSome = true) ∧
    (called.stop.station = .stopped ∧ called.stop.record = some (stopOf .fontCall) ∧ (stopOf .fontCall).kind ≠ .door) ∧
    (let s := reads [0x41] 0 false;
      s.stop.station = .run ∧ s.comp.phase = .setting ∧ s.comp.ctx = some (textCtx 0) ∧ s.comp.snap = some (textCtx 0)) ∧
    (let s := reads [0x41] 0 true;
      { s.comp with ctx := some (textCtx 1) }.ctx = some (textCtx 1) ∧ s.comp.snap = some (textCtx 0) ∧
      (textCtx 1).resume ≠ (textCtx 0).resume) := by
  refine ⟨by decide, ⟨_, rfl, rfl, nofun⟩, ⟨_, rfl, rfl, rfl⟩, by decide⟩

/-- Another stop than FONT-CALL, and a park in progress. -/
def parking (q : Park) (s : State) : State := { s with pass := s.pass.map (fun p => { p with park := some q }) }
def asked : Park := { reason := .fontCall 340, answered := false, context := none }
theorem witness_ClearKeyHomesOrParks_ignored :
    (doorStop.stop.station = .stopped ∧ doorStop.stop.record = some (stopOf .door) ∧ (stopOf .door).kind ≠ .fontCall) ∧
    ((parking asked called).stop.record = some (stopOf .fontCall) ∧ (stopOf .fontCall).kind = .fontCall ∧
      ∃ p, (parking asked called).pass = some p ∧ p.park.isSome = true) :=
  ⟨by decide, rfl, rfl, _, rfl, rfl⟩

/-- Boxes of these codes. -/
def word (w : List Nat) : List BuildItem := w.map (fun c => { box 0 with code := c })
def furnished : List BuildItem := word [0x66, 0x75, 0x72, 0x6E, 0x69, 0x73, 0x68, 0x65, 0x64]
def asks : AttemptValues := { hyph := true, caps := false, limit := 3, count := 0 }
def furnishedEntry : ExceptionEntry := { word := furnished.map (fun b => fold b.code), positions := [3, 6] }
theorem furnished_letters : ∀ b ∈ furnished, letterBoxed b := by unfold letterBoxed; decide
/-- A group with an NBSPACE, one with a DISC mark, and the word of 4.8 before a comma: eligible, and not with HYPH off. -/
theorem witness_RomReadLoadsPatternsAndLamp_candidates :
    (∃ b ∈ boxes, b.kind = .justifying) ∧
    ((∀ b ∈ furnished, b.kind ≠ .justifying) ∧ 3 ∈ [3] ∧ ∃ m a b, 3 = m + 1 ∧ furnished[m]? = some a ∧ otherBoxed a ∧
      furnished[3]? = some b ∧ b.kind ≠ .justifying) ∧
    (furnished ++ word [0x2C] = [] ++ furnished ++ word [0x2C] ∧ (∀ b ∈ furnished ++ word [0x2C], b.kind ≠ .justifying) ∧
      (∀ n, n ∉ ([] : List Nat)) ∧ (∀ b ∈ [] ++ word [0x2C], ¬ letterBoxed b) ∧ (∀ b ∈ furnished.head?, letterBoxed b) ∧
      (∀ b ∈ furnished.getLast?, letterBoxed b)) ∧
    (asks.hyph = true ∧ 5 ≤ furnished.length ∧ furnished.length ≤ 40 ∧ (∀ b ∈ furnished, letterBoxed b) ∧
      (∃ b ∈ furnished, ¬ (0x41 ≤ b.code ∧ b.code ≤ 0x5A)) ∧ asks.count < asks.limit ∧
      ¬ ({ asks with hyph := false }.hyph = true)) ∧
    ([furnishedEntry] = [] ++ furnishedEntry :: [] ∧ furnishedEntry.word = furnished.map (fun b => fold b.code) ∧
      (∀ p ∈ furnishedEntry.positions, 1 ≤ p ∧ p < furnished.length)) ∧
    (∀ f ∈ [boxEntry], f.word ≠ furnished.map (fun b => fold b.code)) :=
  ⟨by decide, ⟨by decide, by decide, 2, _, _, rfl, rfl, ⟨by decide, by unfold hyphenBoxed; decide⟩, rfl, by decide⟩,
    ⟨rfl, by decide, nofun, by unfold letterBoxed; decide, by unfold letterBoxed; decide, by unfold letterBoxed; decide⟩,
    ⟨rfl, by decide, by decide, furnished_letters, by decide, by decide, by decide⟩, by decide, by decide⟩

/-- A preamble cut short within an entry's letters, within its positions, and before any byte of it. -/
theorem witness_ClaimAndTakenSentAct_preamble :
    [([0x42, 0x6F, 0x78], [1])].length < 2 ∧ cutShort [3, 0x41] ∧ cutShort [2, 0x41, 0x42, 1] ∧ cutShort [] :=
  ⟨by decide, by rintro l r h p hp; cases h; simp at hp, by rintro l r h p hp; cases h; simp at hp; subst hp; decide,
    nofun⟩

/-- A release in progress and none due; a STRANDED take due again. -/
def dueTake : Take := { heldTake .stranded with offerDue := true }
theorem witness_FailedReleasesAreOfferedAgainOrStranded_due :
    (∃ x ∈ (withTake (heldTake .releasing) runs).takes, x.state = .releasing) ∧ runs.takes = [] ∧
    (∀ y ∈ (withTake dueTake runs).takes, y.state ≠ .releasing ∧ (y.key = dueTake.key → y = dueTake)) ∧
    (withTake dueTake runs).line.queue = [] ∧
    firstByKeys (withTake dueTake runs) (fun y => y.state = .stranded ∧ y.offerDue = true) dueTake :=
  ⟨by decide, rfl, by decide +kernel, rfl, by exact ⟨[], [], rfl, ⟨rfl, rfl⟩, by simp, by simp⟩⟩
/-- A take in PROOF-HOLD marked under halt, of a lower class than a marked take before it, on a muted station. -/
def haltTake : Take := { heldTake .proofHold with release := some .halt, cls := 1 }
def markedTake : Take := { later with release := some .repeated }
def marking : State := { runs with takes := [markedTake, haltTake], line := { runs.line with mute := true } }
theorem witness_FailedReleasesAreOfferedAgainOrStranded_marked :
    (∀ z ∈ marking.takes, z.state ≠ .releasing ∧ (z.key = haltTake.key → z = haltTake)) ∧
    (∀ z ∈ marking.takes, z.state ≠ .stranded) ∧ marking.line.mute = true ∧
    firstByKeys marking (fun z => z.release.isSome = true ∧
      (z.state = .queued ∨ z.state = .parked ∨ (z.state = .proofHold ∧ z.release = some .halt))) haltTake :=
  ⟨by decide +kernel, by decide, rfl, by
    exact ⟨[markedTake], [], rfl, ⟨rfl, .inr (.inr ⟨rfl, rfl⟩)⟩,
      fun y h _ => by rw [List.mem_singleton.1 h]; exact .inl (by decide), by simp⟩⟩
/-- The released copy's first bytes, and its end. -/
def feeding (n : Nat) : Take := { heldTake .releasing with claimant := some 2, sending := some n }
theorem witness_FailedReleasesAreOfferedAgainOrStranded_copy :
    (∀ n ∈ [0, 40], let s := withTake (feeding n) runs;
      s.releasing? = some (feeding n) ∧ (feeding n).claimant = some 2 ∧ (feeding n).sending = some n ∧ s.line.queue = [] ∧
      s.line.waiting = [] ∧ s.line.mute = false) ∧
    0 < (feeding 0).copyLen - sentFrom (feeding 0) ∧ (feeding 40).copyLen - sentFrom (feeding 40) ≤ 40 := by decide

/-- The held empty slot of one of the take's fonts, the other's ASKING. -/
def heldEmpty (s : State) : State :=
  { s with width := { s.width with slots := { state := .empty, font := some 112, pins := 1 } ::
      { state := .asking, font := some 113, pins := 1 } :: List.replicate 10 freeSlot } }
theorem witness_StrandTurnsAndAgingAct_reasons :
    (let x := { heldTake .stranded with release := some .repeated, timer := some .strandTurn };
      (withTake x runs).take? k1 = some x ∧ x.state = .stranded ∧ x.timer = some .strandTurn ∧ x.scarce = false ∧
      strandReasonGone (withTake x runs) x ∧ ¬ strandReasonGone (withTake x (inState .fault runs)) x) ∧
    (let x := { heldTake .stranded with release := some .halt, timer := some .strandTurn };
      x.scarce = false ∧ ¬ strandReasonGone (withTake x runs) x) ∧
    (let x := { heldTake .stranded with release := some .widths, scarce := true, timer := some .strandTurn };
      let s := withTake x (heldEmpty runs);
      s.take? k1 = some x ∧ x.state = .stranded ∧ x.timer = some .strandTurn ∧ x.scarce = true ∧
      (s.width.slots.filterMap (fun sl => sl.font)).Nodup ∧ 112 ∈ x.fonts ∧ s.width.isHeldEmpty 112 = true ∧
      s.line.mute = false ∧ { s.line with mute := true }.mute = true) ∧
    (let x := { heldTake .stranded with release := some .filmOut, reask := some [] };
      (withTake x runs).takes = [] ++ x :: [] ∧ x.state = .stranded ∧ x.reask = some [] ∧
      strandReasonGone (withTake x runs) x ∧ ¬ strandReasonGone (stopped .filmOut (withTake x runs)) x) ∧
    runs.take? k1 = none ∧ (heldTake .queued).timer ≠ some .strandTurn :=
  ⟨⟨by decide, rfl, rfl, rfl, ⟨rfl, rfl⟩, fun h => nomatch h.1⟩, ⟨rfl, fun h => h.2⟩, by decide,
    ⟨rfl, rfl, rfl, ⟨rfl, fun r h => nomatch h⟩, fun h => nomatch h.1⟩, by decide⟩

/-- A FILM pass whose end is reported, with its store empty, and its cut asked for and done. -/
def ending (cut : Bool) : State :=
  { filming with
    store := { records := [], marker := none }
    pass := some { passOf .film with reported := true, cutAsked := cut, cutDone := cut } }
theorem witness_SelectionTakesTheFirstByItsKeys_ends :
    (let p := { passOf .film with reported := true };
      (ending false).pass = some p ∧ p.kind = .film ∧ p.reported = true ∧ p.killing = false ∧ p.park = none ∧
      p.cutAsked = false ∧ (∀ r ∈ (ending false).store.records, r.filmPending = false) ∧ (ending false).exp.cur = none ∧
      (ending false).film.galley.isSome = true ∧ { (ending false).film with galley := none }.galley = none) ∧
    (let s := { ending true with film := { filming.film with galley := none } };
      s.active? = some (heldTake .active) ∧ s.pass.map (fun p => (p.cutAsked, p.cutDone)) = some (true, true) ∧
      s.store.records = [] ∧ hasRoom s ∧ s.stop.station ≠ .halt ∧ s.stop.record = none) ∧
    (filming.pass = some (passOf .film) ∧ (passOf .film).reported = false ∧ (passOf .film).cutDone = false ∧
      filming.store.records ≠ []) := by unfold hasRoom; decide

/-- The ACTIVE take being killed in a pass of this kind; a line exposed and not proofed. -/
def killing (k : PassKind) (emptied cut : Bool) (s : State) : State :=
  { s with pass := some { passOf k with killing := true, emptied := emptied, cutAsked := cut, cutDone := cut } }
def exposed1 : LineRecord := { record1 with filmPending := false }
theorem witness_KillEndsATake_emptied :
    (called.take? k1 = some (heldTake .active) ∧ (heldTake .active).state = .active ∧
      called.pass = some (passOf .film) ∧ (passOf .film).killing = false ∧ called.stop.station = .stopped ∧
      called.stop.record = some (stopOf .fontCall) ∧ (stopOf .fontCall).key = some k1 ∧ called.line.windows = []) ∧
    (let p := { passOf .film with killing := true };
      (killing .film false false filming).pass = some p ∧ p.killing = true ∧ p.emptied = false ∧ p.kind = .film ∧
      (killing .film false false filming).exp.cur = none ∧
      (killing .film false false filming).take? k1 = some (heldTake .active)) ∧
    (let x := { heldTake .active with proofState := .complete };
      let s := { killing .film false false filming with takes := [x], store := { records := [exposed1], marker := none } };
      (∀ y ∈ s.takes, y.state = .active → y.proofState = .complete) ∧ exposed1 ∈ s.store.records ∧
      exposed1.filmPending = false ∧ exposed1.proofPending = true ∧
      (∀ q ∈ s.store.records, q.filmPending = false ∧ q.proofPending = true → exposed1.number ≤ q.number)) ∧
    (record1.filmPending = true ∧
      (killing .proof false false (active .proof runs)).pass.map (fun p => p.kind) = some .proof) ∧
    (let s := killing .film true true (active .film runs);
      s.active? = some (heldTake .active) ∧
      s.pass.map (fun p => (p.killing, p.emptied, p.cutDone)) = some (true, true, true) ∧ hasRoom s ∧
      s.stop.record = none) ∧
    ((passOf .film).killing = false ∧ (exposing .scanning filming).exp.cur.isSome = true) := by unfold hasRoom; decide

/-- A failed proof in RUN and in STANDBY; a take being killed; a PROOF pass at its end with no approval pending, with one, and
with one over values that have changed. -/
def proofed (pending : Bool) (gen : Nat) : Take :=
  { proofTake .active with
    approvalPending := pending
    startValues := some { dict := gen, revisions := take1.fonts.map (fun f => runs.width.revision f), mixed := false } }
def proofEnds (x : Take) : State := { runs with takes := [x], pass := some { passOf .proof with reported := true } }
theorem witness_ApproveChecksTheGeneration_ends :
    (let x := { heldTake .proofHold with proofFirst := true };
      let s := withTake x runs;
      s.take? k1 = some x ∧ x.proofGen ≠ some (genValues s x) ∧ s.stop.station ≠ .standby ∧ s.stop.station ≠ .halt ∧
      hasRoom s ∧ (inState .standby s).stop.station = .standby ∧ hasRoom (inState .standby s)) ∧
    (let s := { runs with takes := [proofTake .active], pass := some { passOf .proof with killing := true } };
      s.take? k1 = some (proofTake .active) ∧ (proofTake .active).state = .active ∧
      s.pass.map (fun p => p.killing) = some true) ∧
    (let stands (x : Take) (s : State) : GenRecord :=
        { dict := s.hyph.gen, revisions := x.fonts.map (fun f => s.width.revision f), mixed := false };
      let ended (x : Take) : Prop := (proofEnds x).active? = some x ∧ (proofEnds x).store.records = [] ∧
        hasRoom (proofEnds x) ∧ (proofEnds x).stop.station ≠ .standby ∧ (proofEnds x).stop.station ≠ .halt;
      ended (proofed false 0) ∧ ended (proofed true 0) ∧
      (proofed true 0).startValues = some (stands (proofed true 0) (proofEnds (proofed true 0))) ∧
      ended (proofed true 9) ∧ (proofed true 9).startValues ≠ some (stands (proofed true 9) (proofEnds (proofed true 9)))) ∧
    (passOf .proof).reported = false := by unfold hasRoom; decide

/-- A group of five boxes behind a line of 59: a DISC mark after its second box, or a hyphen as its second box, and enough
room for that much of it; and a first group too wide for its line. -/
def text20 : List Nat := List.replicate 70 0x41 ++ [0x20]
def breaking (line : Nat) (g : List Nat) (discs : List Nat) : State :=
  let s := reads text20 70 false
  { s with comp := { s.comp with
      line := List.replicate line (box 0), group := word g, discs := discs, spaces := if line = 0 then 0 else 1, groupStart := 2
      groupFont := 112, groupSize := 12 } }
def hyphenated5 : State := breaking 59 [0x62, 0x6F, 0x78, 0x65, 0x73] [2]
def explicit5 : State := breaking 59 [0x62, 0x2D, 0x78, 0x65, 0x73] []
def overset5 : State := breaking 0 (List.replicate 64 0x31) []
def breaksOf (s : State) : List (Nat × BreakKind) := candidates s.hyph [] asks s.comp.group s.comp.discs
theorem witness_WordSpaceEndsTheGroup_breaks :
    ((∀ s ∈ [hyphenated5, explicit5], Reads s (textTake text20) (textCtx 70) 0x20 0 ∧ s.comp.holdsBox = true ∧
        s.comp.afterSpace = false ∧ s.comp.group ≠ [] ∧
        (s.comp.values (textCtx 70) s.comp.group).fits (joinedLine s.comp) = false ∧
        s.store.records.length < 64 ∧ s.store.used + 62 ≤ 4096 ∧ s.comp.group[2]?.isSome = true) ∧
      (box 0).kind ≠ .justifying ∧ (box 0).offset < (textTake text20).textLen) ∧
    (breaksOf hyphenated5 = [(1, .added)] ∧ breaksOf explicit5 = [(1, .explicit)] ∧ breaksOf overset5 = [] ∧
      ((hyphenated5.comp.values (textCtx 70) hyphenated5.comp.group).fits (brokenLine hyphenated5 1 .added) = true ∧
        (explicit5.comp.values (textCtx 70) explicit5.comp.group).fits (brokenLine explicit5 1 .explicit) = true) ∧
      0 < hyphenated5.width.entry 112 0x2D) ∧
    (Reads overset5 (textTake text20) (textCtx 70) 0x20 0 ∧ overset5.comp.holdsBox = true ∧ overset5.comp.line = [] ∧
      (overset5.comp.values (textCtx 70) overset5.comp.group).fits (joinedLine overset5.comp) = false ∧
      overset5.store.used + overset5.comp.group.length ≤ 4096 ∧
      (overset5.comp.group.drop 63).find? (fun i => i.kind ≠ .justifying) = some { box 0 with code := 0x31 }) := by
  unfold Reads; decide +kernel
/-- The two candidates are usable breaks. -/
theorem witness_WordSpaceEndsTheGroup_usable :
    usableBreak hyphenated5 (textCtx 70) 1 .added ∧ usableBreak explicit5 (textCtx 70) 1 .explicit :=
  ⟨⟨by decide +kernel, fun _ => ⟨_, rfl, by decide +kernel⟩⟩, by decide +kernel, nofun⟩

/-- A line at the head of the store with both consumer fields clear, and one that waits for room. -/
def done1 : LineRecord := { record1 with filmPending := false, proofPending := false }
theorem witness_ParagraphAndCopyEndTheLine_store :
    (let s := { filming with store := { records := [done1, record1], marker := none } };
      s.store.records = [done1] ++ [record1] ∧ done1.filmPending = false ∧ done1.proofPending = false ∧
      record1.filmPending = true) ∧
    (let h : SetLine :=
        { record := { record1 with number := 2 }
          next := { offset := 1, font := 112, size := 12, subst := false, after := false } };
      let s := reads [0x41, 0x20] 1 false;
      let t := { s with comp := { s.comp with phase := .waiting, held := some h } };
      t.active? = some (textTake [0x41, 0x20]) ∧ t.comp.ctx = some (textCtx 1) ∧ t.comp.held = some h ∧
      t.comp.phase = .waiting ∧ t.store.records.length < 64 ∧ t.store.used + h.record.items.length ≤ 4096) ∧
    (filming.store.records.head?.map (fun r => r.filmPending) = some true ∧ runs.store.records = [] ∧
      runs.comp.phase ≠ .waiting) := by decide

/-- A line to be begun; then in CHECKING with a font not mounted, with its mark, with too little film, with a full manifest
and no galley, and passed; the lamp in each phase and the door open. -/
def checking (ok : Bool) (seats : List Nat) (mark : Option Nat) : State :=
  let s := exposing .checking filming
  { s with exp := { s.exp with seats := seats, mark := mark, cur := s.exp.cur.map (fun c => { c with checked := ok }) } }
def mountedSeats : List Nat := [112, 113, 0, 0, 0, 0, 0, 0]
theorem witness_ScannerTakesEachItemOnce_checks :
    (filming.exp.phase = .idle ∧ filming.exp.cur = none ∧ filming.exp.homing = none ∧
      filming.firstUnexposed = some record1 ∧ filming.stop.station = .run ∧ filming.stop.record = none) ∧
    (∀ ok ∈ [false, true], ∀ m ∈ [none, some 1], let s := checking ok mountedSeats m;
      s.exp.phase = .checking ∧ s.exp.cur.map (fun c => (c.line, c.checked)) = some (1, ok) ∧
      s.store.records.find? (fun x => x.number == 1) = some record1 ∧ s.exp.mark = m ∧
      (∀ i ∈ record1.items, i.font ∈ s.exp.seats)) ∧
    (record1.items = [{ code := 0x41, font := 112, lens := 2, x := 0, absent := false }] ++
        { code := 0x42, font := 113, lens := 4, x := 1200, absent := false } :: [] ∧
      113 ∉ (checking false [112, 0, 0, 0, 0, 0, 0, 0] none).exp.seats) ∧
    ({ (checking false mountedSeats none).film with remaining := 1504 }.remaining < 5 * record1.leading + 1440 ∧
      5 * record1.leading + 1440 ≤ { (checking false mountedSeats none).film with remaining := 1505 }.remaining ∧
      64 ≤ { runs.film with manifest := List.replicate 64 galley1 }.manifest.length ∧ runs.film.galley = none ∧
      (checking false mountedSeats none).film.galley.isSome = true) ∧
    (mayStop (checking false mountedSeats none) (heldTake .active) record1 ∧ hasRoom (checking false mountedSeats none)) ∧
    ((∃ i ∈ record1.items, toFlash i) ∧ runs.lamp.phase = .ready ∧ State.reset.lamp.phase = .off ∧
      (checking true mountedSeats none).pins.photoOpen = false) :=
  ⟨by decide, by decide, by decide, by decide +kernel,
    ⟨filming_stops _ rfl rfl rfl (by decide) (by decide), by unfold hasRoom; decide⟩,
    by unfold toFlash; decide⟩

/-- A line already halted, and a take parked for a font that the survey finds or does not. -/
theorem witness_PhotoUnitDoorHaltsAndSurveys_parked :
    (let s := stopped .door (halted .cassette [] (exposing .scanning filming));
      s.pins.photoOpen = false ∧ s.exp.cur.map (fun c => c.halt.isSome) = some true ∧ s.stop.record.isSome = true ∧
      s.film.waiting = []) ∧
    (let x := { heldTake .parked with parkReason := some (.fontCall 340), cls := 1 };
      (withTake x runs).takes[0]? = some x ∧ x.state = .parked ∧ x.parkReason = some (.fontCall 340) ∧
      340 ∈ (List.range 8).map (fun i => let c := ([340][i]?).getD 0; if 1 ≤ c ∧ c ≤ 999 then c else 0) ∧
      340 ∉ (List.range 8).map (fun i => let c := ([341][i]?).getD 0; if 1 ≤ c ∧ c ≤ 999 then c else 0)) ∧
    (runs.stop.record = none ∧ ∀ x ∈ runs.takes, x.state ≠ .parked) := by decide

/-- An advance due, in an open galley and without one, each condition that refuses it, and a leading of 0; a cut due, with
and without a galley, with the drive or the cutter out of order, and with no film. -/
def advanceDue (l : Nat) (s : State) : State :=
  let t := exposing .advancing s
  { t with film := { t.film with waiting := [.advance 1 l] } }
def cutDue (a : CutAsker) (s : State) : State :=
  { s with film := { s.film with waiting := [.cut { asker := a, spoiled := none }] } }
theorem witness_FilmMovementsComplete_begin :
    (∀ l ∈ [0, 13], let s := advanceDue l filming;
      s.film.transport = .idle ∧ s.film.waiting = .advance record1.number l :: [] ∧ s.exp.phase = .advancing ∧
      s.exp.cur.map (fun c => (c.line, c.halt)) = some (1, none) ∧
      s.store.records.find? (fun x => x.number == 1) = some record1 ∧ s.active? = some (heldTake .active)) ∧
    (let f := (advanceDue 13 filming).film;
      { f with remaining := 1504 }.remaining < 5 * 13 + 1440 ∧ 5 * 13 + 1440 ≤ { f with remaining := 1505 }.remaining ∧
      { f with galley := none }.galley = none ∧ f.galley.isSome = true ∧
      64 ≤ { f with manifest := List.replicate 64 galley1 }.manifest.length ∧ f.manifest.length < 64 ∧ f.driveOk = true ∧
      { runs.pins with takeupOpen := true }.takeupOpen = true) ∧
    (∀ a ∈ [CutAsker.endCut, .park, .kill, .spoil, .operator, .reset], a ≠ .blank ∧
      (cutDue a filming).film.galley = some galley1 ∧ (cutDue a runs).film.galley = none ∧
      (cutDue a filming).film.waiting = .cut { asker := a, spoiled := none } :: []) ∧
    (0 < filming.film.remaining ∧ filming.film.driveOk = true ∧ filming.film.cutterOk = true ∧
      { filming.film with remaining := 0, cutterOk := false }.cutterOk = false ∧
      { filming.film with driveOk := false }.driveOk = false) ∧
    (runs.film.waiting = [] ∧ (transporting .advancing filming).film.transport ≠ .idle) := by decide +kernel

/-- An end cut in progress, with no line in exposure; a line halted with no cut in progress, and with one. -/
theorem witness_FilmDoorsActOnGalleyAndManifest_cuts :
    (let s := transporting (.trailing { asker := .endCut, spoiled := none }) filming;
      s.pins.cassetteOpen = false ∧ s.film.galley = some galley1 ∧ s.exp.cur = none ∧
      s.film.transport = .trailing { asker := .endCut, spoiled := none }) ∧
    (∀ t ∈ [Transport.idle, .cutting { asker := .operator, spoiled := none }],
      let s := transporting t (advanceDue 13 filming);
      s.pins.cassetteOpen = false ∧ s.film.galley = some galley1 ∧ s.exp.phase = .advancing ∧
      s.exp.cur.map (fun c => c.line) = some 1) ∧
    mayStop (transporting .idle (advanceDue 13 filming)) (heldTake .active) record1 ∧
    hasRoom (transporting .idle (advanceDue 13 filming)) :=
  ⟨by decide, by decide, filming_stops _ rfl rfl rfl (by decide) (by decide), by unfold hasRoom; decide⟩

/-- A park to be answered in a FILM and in a PROOF pass, with and without a galley; one answered with its cut done, for each
reason and with the expired FILM-OUT stop or another still pending. -/
def answered (r : ParkReason) (s : State) : State :=
  { s with pass := some { passOf .film with
      cutAsked := true, cutDone := true, park := some { reason := r, answered := true, context := some (textCtx 0) } } }
theorem witness_StopTimersParkTheTake_ends :
    (∀ k ∈ [PassKind.film, .proof], let s := parking asked { filming with pass := some (passOf k) };
      s.pass = some { passOf k with park := some asked } ∧ asked.answered = false ∧ s.exp.cur = none ∧
      s.film.galley.isSome = true ∧ (parking asked (active k runs)).film.galley = none) ∧
    (exposing .scanning filming).exp.cur.isSome = true ∧
    (∀ r ∈ [ParkReason.fontCall 112, .fontCall 340, .repeated, .filmOut, .fault],
      let s := answered r (seated 112 (active .film runs));
      s.active? = some (heldTake .active) ∧ s.pass.map (fun p => p.cutDone) = some true ∧ hasRoom s ∧
      s.stop.station ≠ .halt ∧ s.stop.record = none ∧ s.stop.station ≠ .standby ∧ 112 ∈ s.exp.seats ∧ 340 ∉ s.exp.seats) ∧
    (let r := { stopOf .filmOut with timer := false };
      let s := answered .filmOut (active .film (inState .stopped runs));
      { s.stop with record := some r }.record = some r ∧ s.stop.station = .stopped ∧ r.kind = .filmOut ∧ r.timer = false) ∧
    (let s := answered (.fontCall 340) called;
      s.stop.record = some (stopOf .fontCall) ∧ (stopOf .fontCall).kind ≠ .filmOut ∧
      (stopOf .fontCall).key = some (heldTake .active).key) ∧
    ((parking asked filming).pass.map (fun p => p.cutDone) = some false) := by unfold hasRoom; decide

/-- A line in SCANNING, its first item's seat at the path and its lens not; with the moves still to be made, in progress and
done, no group, no item left, halted by a door, and a flash in progress. -/
def scanning (lens step : Option Nat) (s : State) : State :=
  let t := exposing .scanning s
  { t with exp := { t.exp with lens := lens, carriage := step } }
def withGroups (gs : List FlashGroup) (s : State) : State :=
  { s with exp := { s.exp with cur := s.exp.cur.map (fun c => { c with groups := gs }) } }
theorem witness_ScannerTakesEachItemOnce_steps :
    (∀ p ∈ [(some 0, some 0), (some 2, some 3), (some 2, some 0)], let s := scanning p.1 p.2 filming;
      s.exp.phase = .scanning ∧ s.store.records.find? (fun x => x.number == 1) = some record1 ∧
      s.exp.cur.map (fun c => (c.line, c.halt, c.groups)) = some (1, none, [{ seat := 0, lens := 2, items := [0] }]) ∧
      s.exp.flash = none ∧ s.exp.turretMove = none ∧ s.exp.lensMove = none ∧ s.exp.carriageMove = none ∧
      s.exp.turret = some 0 ∧ s.exp.lens = p.1 ∧ s.exp.carriage = p.2 ∧ s.lamp.phase = .ready) ∧
    record1.items[0]? = some { code := 0x41, font := 112, lens := 2, x := 0, absent := false } ∧
    runs.lamp.bases[2]? = some 100 ∧ (after .lampChangeSwitch filming).lamp.phase ≠ .ready ∧
    (∀ gs ∈ [[], [{ seat := 0, lens := 2, items := [] }]],
      (withGroups gs (scanning none none filming)).exp.cur.map (fun c => (c.halt, c.groups)) = some (none, gs)) ∧
    (∀ s ∈ [halted .photo [] (scanning none none filming), flashing filming],
      s.exp.phase = .scanning ∧ (s.exp.cur.any (fun c => c.halt.isSome) = true ∨ s.exp.flash.isSome = true)) ∧
    (let s := { scanning (some 0) none filming with exp := { (scanning (some 0) none filming).exp with turret := some 7 } };
      s.exp.turretMove = none ∧ s.exp.turret ≠ some 0) := by decide

/-- A line with its mark whose galley a cut is closing, in progress and waiting. -/
theorem witness_ScannerTakesEachItemOnce_closing :
    let q : CutRequest := { asker := .operator, spoiled := none }
    let s := checking true mountedSeats (some 1)
    q.asker ≠ .blank ∧ s.exp.mark = some 1 ∧ (transporting (.cutting q) s).film.transport = .cutting q ∧
    .cut q ∈ (cutDue .operator s).film.waiting := by decide

/-- A halted line at rest with nothing and with an item flashed, with a galley and without one, and after a cassette-door edge;
a called font that the survey finds while the take is being parked. -/
theorem witness_PhotoUnitDoorHaltsAndSurveys_ends :
    (∀ done ∈ [[], [0]], ∀ w ∈ [filming, active .film runs], let s := halted .photo done (exposing .scanning w);
      s.exp.cur.map (fun c => (c.halt, c.flashed, c.closeGalley)) = some (some .photo, done, false) ∧ s.exp.flash = none ∧
      s.exp.turretMove = none ∧ s.exp.lensMove = none ∧ s.exp.carriageMove = none ∧ s.film.transport ≠ .advancing) ∧
    (filming.film.galley = some galley1 ∧ (active .film runs).film.galley = none) ∧
    ((after .cassetteDoorOpen (flashing filming)).exp.cur.map (fun c => (c.halt, c.closeGalley)) =
      some (some .cassette, true)) ∧
    (runs.exp.cur = none ∧ (flashing filming).exp.flash.isSome = true) ∧
    (let s := parking asked called;
      { s with pins := { s.pins with photoOpen := true } }.pins.photoOpen = true ∧ s.stop.station = .stopped ∧
      s.stop.record = some (stopOf .fontCall) ∧ s.pass.map (fun p => p.park.isSome) = some true) := by decide

/-- A font with an ASKING slot, one with a held empty slot, one for the lowest free slot, and one that evicts the slot of font
112, behind a pinned slot in the use list, with and without its answer window. -/
def evicting : State :=
  { runs with width :=
      { runs.width with
        slots := { state := .valid 7 [], font := some 9, pins := 1 } ::
          List.replicate 11 { state := .valid 7 [], font := some 112, pins := 0 }
        useList := [0, 1] } }
theorem witness_ClaimAndTakenSentAct_fonts :
    ((asking runs).width.slotOf 112 = some 0 ∧
      (asking runs).width.slots[0]? = some { state := .asking, font := some 112, pins := 1 }) ∧
    (∃ i sl, (heldEmpty runs).width.slotOf 112 = some i ∧ (heldEmpty runs).width.slots[i]? = some sl ∧ sl.state = .empty) ∧
    (runs.width.slotOf 112 = none ∧ runs.width.freeSlot? = some 0) ∧
    (evicting.width.slotOf 113 = none ∧ evicting.width.freeSlot? = none ∧ evicting.width.useList = [0] ++ 1 :: [] ∧
      evicting.width.slots[1]? = some { state := .valid 7 [], font := some 112, pins := 0 } ∧
      (∀ y, evicting.width.slots[0]? = some y → y.pins ≠ 0) ∧ evicting.line.windows = [] ∧ evicting.line.mute = false) :=
  ⟨⟨rfl, rfl⟩, ⟨0, _, rfl, rfl, rfl⟩, ⟨rfl, rfl⟩, rfl, rfl, rfl, rfl, fun y h => by rw [only h]; decide, rfl, rfl⟩

/-- An answer window open for a VALID font, its table not handed over, waiting to be sent, and begun; revisions equal to the
slot's, above it and below it. -/
def answerQueued (begun : Bool) : State :=
  { answering with line := { answering.line with
      windows := [{ answerWindow with queued := true }]
      queue := [{ frame := .widthTable 112 7 widths20, begun := begun }] } }
theorem witness_TablesActByTheirSlot_window :
    (answering.width.slotOf 112 = some 0 ∧
      answering.width.slots[0]? = some { state := .valid 7 widths20, font := some 112, pins := 1 } ∧ 6 < 7 ∧ 7 ≤ 7 ∧ 7 < 8) ∧
    (answerWindow ∈ answering.line.windows ∧ answerWindow.what.isAnswerFor 112 = true) ∧
    (∀ b ∈ [false, true], { answerWindow with queued := true } ∈ (answerQueued b).line.windows ∧
      ((answerQueued b).line.queue.any (fun e => e.begun) = b)) ∧
    Received toAll (.widthTable toAll 112 8 widths20) answering ∧ tableFormOk 112 widths20 = true :=
  ⟨⟨rfl, rfl, by decide⟩, ⟨by decide, by decide⟩, by decide, ⟨rfl, by decide +kernel, by decide⟩, by decide +kernel⟩

/-- An ACTIVE take being killed when an ask for a font of it lapses, when a movement fails, and when CLEAR's homing fails. -/
theorem witness_killing_voids_releases :
    (let s := watching (.font 112) (asking (killing .film false false filming));
      s.watched (.font 112) = true ∧ s.width.isAsking 112 = true ∧ s.pass.map (fun p => p.killing) = some true) ∧
    (let s := killing .film false false (flashing filming);
      failedMechanism s .flashTimeout = some .flash ∧ s.stop.station = .run ∧ s.pass.map (fun p => p.killing) = some true) ∧
    (let s := homing .lens (killing .film true false { filming with stop := { runs.stop with station := .fault, clearing := true } });
      s.exp.homing = some .lens ∧ s.stop.station = .fault ∧ s.stop.clearing = true ∧
      s.pass.map (fun p => p.killing) = some true) := by decide

/-! ### Reactions told apart -/

/-- R10: the NBSPACE placed while a mark waits bears it, and the next box bears it too. -/
theorem test_nbspace_and_box_bear_the_mark :
    let s := reads [0x41, 0x10, 0x41] 1 true
    let t := after .character (after .nbspace { s with comp := { s.comp with subst := true } })
    t.comp.group.map (fun b => b.subst) = [false, true, true] ∧ t.comp.subst = false := by decide +kernel
/-- R102: a survey that mounts the called font clears the FONT-CALL stop while the take is being parked. -/
theorem test_survey_clears_the_call_in_a_park :
    let s := parking asked called
    (survey s [340]).stop.record = none ∧ (survey s [341]).stop.record = some (stopOf .fontCall) := by decide
/-- R140: a line whose mark's galley is being cut asks for an advance; with no cut it is scanned. -/
theorem test_mark_of_a_galley_being_cut :
    let s := checking true mountedSeats (some 1)
    (goLine (transporting (.cutting { asker := .operator, spoiled := none }) s)).map
      (fun t => (t.exp.phase, t.film.waiting)) = some (.advancing, [.advance 1 13]) ∧
    (goLine s).map (fun t => t.exp.phase) = some .scanning := by decide
/-- R192: a fault during the KILL of the ACTIVE take marks it for no release. -/
theorem test_kill_voids_the_fault_mark :
    ((takeFault (killing .film false false filming) .mechanism (some .flash)).takes.map (fun t => t.release)) = [none] ∧
    ((takeFault filming .mechanism (some .flash)).takes.map (fun t => t.release)) = [some .fault] := by decide

/-! ### Frames, starts and proofs: clauses with hypotheses of their own -/

/-- Frames of this station's own number, with nothing queued, with a notice, an ask, an offer and a TAKEN queued. -/
theorem witness_AnnounceAndNoticeOnlyDetectDuplicates_own :
    let own : Header := { sender := 5, addressee := 15 }
    (∀ c ∈ [Instr.announce own (List.replicate 26 0), .kill own k1, .widthAsk own 112, .copy { own with addressee := 5 } k1 0 [0x41]],
      ∃ h ∈ [own, { own with addressee := 5 }], frameHeader c = some h ∧ runs.hears = true ∧ frameOk c = true ∧
        h.sender = runs.number ∧ runs.line.mute = false ∧
        runs.line.queue.map (fun e => e.frame) ++ runs.line.waiting = []) ∧
    (let s := sending (.notice none .reproof) runs;
      ∀ f ∈ s.line.queue.map (fun e => e.frame) ++ s.line.waiting, ∃ k b, f = .notice k b) ∧
    ((sending (.widthAsk 112) (asking runs)).line.queue.map (fun e => e.frame) = [.widthAsk 112] ∧
      (asking runs).width.isAsking 112 = true) ∧
    (let s := sending (.offer offer1) (withTake (heldTake .releasing) runs);
      s.line.queue.map (fun e => e.frame) = [.offer offer1] ∧ s.take? offer1.key = some (heldTake .releasing) ∧
      (heldTake .releasing).claimant = none) ∧
    (let s := sending (.taken k1 2) (withTake (heldTake .receiving) runs);
      s.line.queue.map (fun e => e.frame) = [.taken k1 2] ∧ s.take? k1 = some (heldTake .receiving)) ∧
    (to5.sender ≤ 14 ∧ { own with addressee := 5 }.addressee = to5.addressee) :=
  ⟨by decide +kernel, fun f h => ⟨none, .reproof, by simpa [sending, show runs.line.waiting = [] from rfl] using h⟩, by decide +kernel, by decide, by decide, by decide⟩

/-- The frame at the front of the queue begun, for every kind of frame, in the states that its clauses name. -/
def announcing (s : State) : State := { s with panel := { s.panel with stage := .announce } }
theorem witness_QueuedFramesKeepTheirOrderAndLeave_told :
    (∀ f ∈ [TxFrame.announce (announcement runs), .widthAsk 112, .widthTable 112 7 widths20, .offer offer1, .copy k1 2 0 [0x41],
        .copyEnd k1 2 40, .taken k1 2],
      (sending f runs).line.phase = .sending ∧ (sending f runs).line.queue = { frame := f, begun := true } :: []) ∧
    (let s := announcing (inState .start runs);
      s.panel.stage = .announce ∧ runs.panel.stage ≠ .announce ∧ s.panel.startFault = none ∧ s.stop.station = .start ∧
      s.line.mute = false ∧ s.line.windows = [] ∧ { s.panel with startFault := some Mech.lens }.startFault = some .lens) ∧
    ((asking runs).width.isAsking 112 = true ∧ runs.width.isAsking 112 = false) ∧
    (∀ x ∈ [heldTake .releasing, heldTake .receiving], (withTake x runs).take? k1 = some x ∧ x.claimant = none ∧
      runs.take? k1 = none) := by decide +kernel

/-- A CLAIM sent in FAULT and in HALT. -/
theorem witness_ClaimAndTakenSentAct_stopped :
    ∀ st ∈ [StationState.fault, .halt], let t := sending (.claim k1 12) (inState st runs)
      let s := { t with line := { t.line with windows := [claimWindow] } };
      s.line.phase = .sending ∧ s.line.queue = { frame := .claim offer1.key 12, begun := true } :: [] ∧
      s.line.windows.find? (fun v => v.what.isClaimFor offer1.key) = some claimWindow ∧ s.stop.station = st := by decide

/-- A station in STANDBY with a galley open, and with a cut of the operator's pending. -/
theorem witness_StandbyWakesAndExpires_cut :
    (inState .standby filming).film.galley.isSome = true ∧ (cutDue .operator (inState .standby filming)).cutPending = true ∧
    (cutDue .operator (inState .standby filming)).stop.station = .standby := by decide

/-- A window whose offer still meets the test; windows withdrawn, with the CLAIM queued, waiting and not handed over; one begun. -/
theorem witness_OffersOpenClaimWindows_again :
    (∀ w ∈ (windowed claimWindow).line.windows, (windowed claimWindow).line.windowBegun w = false) ∧
    mayBid (windowed claimWindow) offer1 ∧ ¬ mayBid (inState .hold (windowed claimWindow)) offer1 ∧
    (retestWindows (windowed claimWindow)).isNone = true ∧
    (∀ q ∈ [true, false], (retestWindows (inState .hold (windowed { claimWindow with queued := q }))).map
      (fun t => t.line.windows) = some []) ∧
    (let s := inState .hold (sending (.claim k1 12) (windowed claimWindow));
      s.line.windowBegun claimWindow = true ∧ (retestWindows s).isNone = true) := by
  unfold mayBid; decide +kernel

/-- A COPY with no record held; a COPY-END with none, of a take not being received, muted, with a full queue, and mismatched; a
stall timer that does not run. -/
def crowded (s : State) : State := { s with line := { s.line with waiting := List.replicate 8 (.widthAsk 112) } }
def muted (s : State) : State := { s with line := { s.line with mute := true } }
theorem witness_CopyEndIsAnswered_elsewhere :
    (Received to5 (.copy to5 k1 0 [0x41]) runs ∧ runs.takes = [] ∧ Received to5 (.copyEnd to5 k1 40) runs) ∧
    ((withTake (heldTake .queued) runs).take? k1 = some (heldTake .queued) ∧ (heldTake .queued).state ≠ .receiving ∧
      Received to5 (.copyEnd to5 k1 40) (withTake (heldTake .queued) runs)) ∧
    (let x := heldTake .receiving;
      ∀ s ∈ [withTake x runs, muted (withTake x runs), crowded (withTake x runs)], Received to5 (.copyEnd to5 k1 40) s ∧
        s.take? k1 = some x ∧ x.copyComplete = false ∧ x.sender = to5.sender ∧ to5.addressee = s.number ∧ x.mismatched = false ∧
        40 = x.copyLen ∧ 40 = x.received ∧ x.timer ≠ some .stall) ∧
    ((muted runs).line.mute = true ∧ 8 ≤ (crowded runs).line.queue.length + (crowded runs).line.waiting.length) ∧
    ((muted (withTake take1 runs)).take? k1 = some take1 ∧ take1.state = .receiving ∧ take1.timer = some .stall) := by
  unfold Received; decide +kernel

/-- A take selected with a context in its text and at the end of it; sizes of the list and between two of them. -/
theorem witness_SelectionTakesTheFirstByItsKeys_starts :
    (∀ n ∈ [0, 39, 40, 60], let x := { earlier with context := some { textCtx n with nextLine := 4 } };
      let s := withTake x runs;
      s.stop.station = .run ∧ s.active? = none ∧ s.takes = [] ++ x :: [] ∧ x.state = .queued ∧ x.widthsReady = true ∧
      x.release = none ∧ s.paperOut = false ∧
      (selectTake s).map (fun t => t.comp.phase) = some (if n < 40 then .setting else .idle)) ∧
    (∀ p ∈ [(0, 10), (15, 14), (48, 48), (200, 48)],
      p.2 ∈ [10, 11, 12, 13, 14, 16, 18, 20, 24, 28, 36, 48] ∧ p.2 ≤ max 10 (min 48 p.1) ∧
      (∀ g ∈ [10, 11, 12, 13, 14, 16, 18, 20, 24, 28, 36, 48], g ≤ max 10 (min 48 p.1) → g ≤ p.2)) := by decide +kernel

/-- A start-up that finds a galley open: as its homing ends, in its cut, with the cut ended, heard and muted, and its cut's
movements. -/
theorem witness_MovesAndHomingComplete_cut :
    (let s := homing .carriage (inState .start { runs with film := { runs.film with galley := some galley1 } });
      s.exp.homing = some .carriage ∧ s.stop.station = .start ∧ s.stop.record = none ∧ s.takes = [] ∧
      s.film.galley.isSome = true ∧
      (after (.position [112, 0, 0, 0, 0, 0, 0, 0] 0) s).film.transport = .cutting { asker := .reset, spoiled := none }) ∧
    (let s := inState .start { runs with panel := { runs.panel with stage := .cut } };
      ∀ t ∈ [s, muted s], t.panel.stage = .cut ∧ t.film.galley = none ∧ t.film.transport = .idle ∧ t.film.waiting = [] ∧
        t.panel.startFault = none ∧ t.stop.station = .start ∧ (t = s → t.line.queue.length + t.line.waiting.length < 8)) ∧
    runs.panel.stage ≠ .cut ∧
    (∀ t ∈ [Transport.trailing, .cutting], let s := transporting (t { asker := .reset, spoiled := none }) (inState .start filming);
      s.stop.station = .start ∧ s.film.transport = t { asker := .reset, spoiled := none } ∧ s.film.galley = some galley1 ∧
      s.film.cutterOk = true) := by decide +kernel

/-- A homing fault at start-up with a galley open, and on a muted station. -/
theorem witness_HomingFaultsLeadToHalt_galley :
    (let s := homing .turret (inState .start filming);
      s.exp.homing = some .turret ∧ s.stop.station = .start ∧ s.panel.startFault = none ∧ s.film.galley = some galley1 ∧
      s.line.mute = false ∧ s.line.queue.length + s.line.waiting.length < 8) ∧
    (let s := muted (homing .lens (inState .start runs));
      s.exp.homing = some .lens ∧ s.stop.station = .start ∧ s.panel.startFault = none ∧ s.line.mute = true ∧
      s.line.windows = []) := by decide

/-- A line in CHECKING, advancing and in the scanner with a galley open, and one halted before with its advance withdrawn. -/
theorem witness_FilmDoorsActOnGalleyAndManifest_lines :
    (let s := exposing .checking filming;
      s.pins.cassetteOpen = false ∧ s.pins.takeupOpen = false ∧ s.film.galley = some galley1 ∧ s.exp.cur.isSome = true ∧
      s.exp.phase ≠ .advancing ∧ s.exp.phase ≠ .scanning ∧ s.film.transport = .idle ∧ mayStop s (heldTake .active) record1 ∧
      hasRoom s) ∧
    (∀ p ∈ [ExpPhase.advancing, .scanning], let s := exposing p filming;
      s.pins.takeupOpen = false ∧ s.film.galley.isSome = true ∧ s.exp.cur.isSome = true ∧ s.exp.phase = p ∧
      mayStop s (heldTake .active) record1 ∧ hasRoom s) ∧
    (∀ p ∈ [ExpPhase.advancing, .scanning], let s := stopped .door (halted .photo [] (exposing p filming));
      s.pins.takeupOpen = false ∧ s.film.galley.isSome = true ∧ s.exp.cur.map (fun c => c.halt) = some (some .photo) ∧
      s.exp.phase = p ∧ s.stop.record.isSome = true ∧ s.film.waiting = []) := by
  refine ⟨⟨rfl, rfl, rfl, rfl, by decide, by decide, rfl, filming_stops _ rfl rfl rfl (by decide) (by decide), rfl, by decide⟩,
    ?_, ?_⟩
  · intro p h
    exact ⟨rfl, rfl, rfl, rfl, filming_stops _ rfl rfl rfl rfl rfl, rfl, Nat.zero_lt_succ _⟩
  · decide +kernel

/-- Film that falls below 57,000 by an advance and by a trailer, and film that does not. -/
theorem witness_FilmMovementsComplete_low :
    (let low (n : Nat) (s : State) : State := { s with film := { s.film with remaining := n } };
      ∀ s ∈ [advanceDue 13 filming, cutDue .operator filming],
        (low 57000 s).film.remaining - 65 < 57000 ∧ 57000 ≤ (low 58440 s).film.remaining - 1440 ∧
        { s.film with lowNotified := false }.lowNotified = false ∧ { s.film with lowNotified := true }.lowNotified = true ∧ hasRoom s ∧
        s.stop.station ≠ .halt) := by unfold hasRoom; decide

/-- A line for the Proof Port with its line-open flag clear and set, the header marker set and clear; characters to begin, of a
close, a header and a line; and what holds each of them back. -/
def queued (k : SegKind) (cs : List Nat) : State :=
  { filming with proof := { filming.proof with segs := [{ kind := k, chars := cs }] } }
theorem witness_ProofIsSentHeldOrDropped_taken :
    (∀ s ∈ [filming, { filming with proof := { filming.proof with lineOpen := true } },
        { filming with store := { filming.store with marker := some .film } }],
      s.stop.station ≠ .start ∧ s.stop.station ≠ .halt ∧ s.pins.paper = true ∧ s.proof.stall = false ∧ s.proof.segs = [] ∧
      s.proof.inFlight = none ∧ s.store.records = [] ++ record1 :: [] ∧ record1.proofPending = true ∧
      s.active? = some (heldTake .active)) ∧
    (∀ p ∈ [(SegKind.close, [0x0D, 0x0A]), (.header, [0x0A]), (.line 1, [0x41, 0x0D, 0x0A])],
      (queued p.1 p.2).pins.busy = false ∧ (queued p.1 p.2).proof.inFlight = none ∧
      ∃ c cs, (queued p.1 p.2).proof.segs = { kind := p.1, chars := c :: cs } :: []) ∧
    ((noPaper filming).pins.paper = false ∧ (inState .start filming).stop.station = .start ∧
      (inState .halt filming).stop.station = .halt ∧ runs.store.records = [] ∧ runs.active? = none ∧
      (queued .header [0x0A]).proof.segs ≠ [] ∧ (printing 0x41 none runs).proof.inFlight.isSome = true ∧
      { runs.pins with busy := true }.busy = true) ∧
    (record1.items.head?.map (fun i => i.code) = some 0x41 ∧ ({ code := 0x20, font := 9, lens := 2, x := 0, absent := false } : LineItem).code = 0x20) := by
  refine ⟨by decide, ?_, by decide, by decide⟩
  intro p h
  rcases List.mem_cons.1 h with rfl | h
  · exact ⟨rfl, rfl, _, _, rfl⟩
  rcases List.mem_cons.1 h with rfl | h
  · exact ⟨rfl, rfl, _, _, rfl⟩
  · rw [List.mem_singleton.1 h]; exact ⟨rfl, rfl, _, _, rfl⟩

/-- R16, R133: the context takes the number of the galley opened; R202: the ANNOUNCE sent, START is over. -/
theorem test_galley_sequence_in_context :
    let s := advanceDue 13 { filming with
      comp := { filming.comp with ctx := some (textCtx 0) }, film := { filming.film with galley := none, nextSeq := some 3 } }
    (serveFilm s).map (fun t => (t.film.galley.map (fun g => g.seq), t.comp.ctx.map (fun c => c.galleySeq))) =
      some (some 3, some 3) := by decide +kernel
theorem test_announce_broken_ends_start :
    (after .frameAborted (sending (.announce (announcement runs)) (announcing (inState .start runs)))).stop.station = .run := by
  decide +kernel
/-- R91: a space stands for itself, a change of font bears '^', an absent character is '?', a code above 0x7E is '*'. -/
theorem test_proof_text :
    renderItems 112 [{ code := 0x41, font := 112, lens := 2, x := 0, absent := false },
      { code := 0x20, font := 113, lens := 2, x := 0, absent := false },
      { code := 0x42, font := 113, lens := 2, x := 0, absent := true },
      { code := 0xA1, font := 113, lens := 2, x := 0, absent := false }] = [0x41, 0x20, 0x5E, 0x3F, 0x2A] := by decide

/-! ### A station in HALT -/

/-- A table heard in START and in HALT: of bad form, of a lower revision, with no window, and cancelling a window counting,
queued and begun. -/
theorem witness_TablesActByTheirSlot_halt :
    ∀ st ∈ [StationState.start, .halt],
      (∀ s ∈ [inState st answering, inState st (answerQueued false), inState st (answerQueued true)],
        s.stop.station = st ∧ Received toAll (.widthTable toAll 112 7 widths20) s ∧
        s.width.table? 112 = some (7, widths20) ∧ 6 < 7 ∧ ∃ w ∈ s.line.windows, w.what.isAnswerFor 112 = true) ∧
      tableFormOk 112 widths20 = true ∧ tableFormOk 112 (List.replicate 223 97) = false ∧ runs.line.windows = [] ∧
      ((after (.widthTable toAll 112 7 widths20) (inState st (answerQueued false))).line.windows,
        (after (.widthTable toAll 112 6 widths20) (inState st (answerQueued false))).line.windows.length,
        (after (.widthTable toAll 112 9 widths20) (inState st (answerQueued false))).width.revision 112) = ([], 1, some 7) := by
  unfold Received; decide +kernel

/-- A full dictionary in HALT; a manifest with another stop pending, and with none. -/
theorem witness_notices_in_halt :
    ((inState .halt fullDict).stop.station = .halt ∧ 512 ≤ (inState .halt fullDict).hyph.dict.length) ∧
    (∀ r, (stopped .filmOut runs).stop.record = some r → r.kind ≠ .takeupFull) ∧ runs.stop.record = none :=
  ⟨by decide +kernel, fun r h => by rw [only h]; decide, rfl⟩
/-- R129, R138, R88, R76: in HALT a load of code 0 gives FILM-LOW, a change of the take-up its MANIFEST, paper-out its notice,
and a refused add none. -/
theorem test_notices_in_halt :
    let s := inState .halt runs
    let sent (t : State) : List TxFrame := t.line.queue.map (fun e => e.frame)
    sent (after (.cassetteDoorClose 0) (after .cassetteDoorOpen s)) = [.notice none (.filmLow 0 true)] ∧
    sent (after .takeupDoorClose (after .takeupDoorOpen { s with film := { s.film with manifest := [galley1] } })) =
      [.notice none (.manifest 1 1 [galley1])] ∧
    sent (after (.paper false) s) = [.notice none (.proofPaper none false)] ∧
    sent (after (.exceptionAdd toAll [3, 0x4F, 0x6E, 0x65, 0]) (inState .halt fullDict)) = [] := by decide +kernel
/-- R174, R168: an answer window whose table has lost arbitration in HALT is cancelled by the table that beat it. -/
theorem test_window_cancelled_in_halt :
    (after (.widthTable toAll 112 7 widths20) (after .arbitrationLost
      (inState .halt { answerQueued true with line := { (answerQueued true).line with phase := .sending } }))).line.queue = [] := by
  decide +kernel

/-! ### Stops counted, faults, and lines that wait -/

/-- The line stop count of line 1 at `n`. -/
def counting (n : Nat) (s : State) : State := { s with takes := s.takes.map (fun t => { t with lineStop := some (1, n) }) }
/-- The reason of the park in progress. -/
def parkReason (s : State) : Option ParkReason := s.pass.bind (fun p => p.park.map (fun q => q.reason))
def counted (n : Nat) : Take := { heldTake .active with lineStop := some (1, n) }
theorem filming_third (s : State) (hs : s.stop.station = .run) (hr : s.stop.record = none)
    (hp : s.pass = some (passOf .film)) (ha : s.active? = some (counted 2)) (hf : s.firstUnexposed = some record1) :
    thirdStopOn s (counted 2) record1 :=
  ⟨Or.inl hs, hr, fun p h => by rw [hp] at h; rw [only h]; rfl, ha, hf, 2, rfl, Nat.le_refl 2⟩
/-- A third stop at a door with a line in the scanner, at the take-up door with none, and at the font check; one below the third,
with no line, and not taken. -/
theorem witness_PhotoUnitDoorHaltsAndSurveys_third :
    (let s := counting 2 (exposing .scanning filming);
      s.pins.photoOpen = false ∧ s.pins.takeupOpen = false ∧ s.pins.cassetteOpen = false ∧ s.film.galley = some galley1 ∧
      s.exp.cur.isSome = true ∧ s.exp.phase = .scanning ∧ thirdStopOn s (counted 2) record1) ∧
    (let s := counting 2 filming;
      s.exp.cur = none ∧ (s.stop.station = .run ∧ s.stop.record = none ∧ s.pass = some (passOf .film)) ∧
      s.active? = some (counted 2) ∧ unexposedContext s = some record1.start ∧
      3 ≤ nextStopCount (counted 2) record1.start.nextLine ∧ nextStopCount (counted 1) record1.start.nextLine < 3) ∧
    (unexposedContext (active .film runs)).isNone = true ∧ runs.active? = none ∧ (inState .fault filming).stop.station = .fault :=
  ⟨⟨rfl, rfl, rfl, rfl, rfl, rfl, filming_third _ rfl rfl rfl rfl rfl⟩, by decide, by decide, by decide, rfl⟩
def parksWith (s : State) (r : ParkReason) : Bool :=
  s.stop.record.isNone && parkReason s == some r && s.line.queue.isEmpty && s.takes.map (fun t => t.lineStop) == [some (1, 3)]
/-- R144: the third stop on a line parks the take, a FONT-CALL for its font and any other as repeated, and gives no notice. -/
theorem test_third_stop_parks :
    parksWith (after .photoUnitDoorOpen (counting 2 (exposing .scanning filming))) .repeated = true ∧
    (checkLine (counting 2 (checking false [9, 0, 0, 0, 0, 0, 0, 0] none))).any (fun t => parksWith t (.fontCall 112)) = true ∧
    (after .takeupDoorOpen (counting 1 filming)).takes.map (fun t => t.lineStop) = [some (1, 2)] := by decide +kernel

/-- A stop cleared with the take-up door open over a galley, its line's second or third. -/
def covered (k : StopKind) (n : Nat) : State :=
  let s := counting n (stopped k filming)
  { s with pins := { s.pins with takeupOpen := true, photoOpen := true, cassetteOpen := true } }
theorem witness_FilmDoorsActOnGalleyAndManifest_replaced :
    ∀ k ∈ [StopKind.fontCall, .filmOut], ∀ n ∈ [1, 2], let s := covered k n;
      s.pins.photoOpen = true ∧ s.pins.cassetteOpen = true ∧ s.pins.takeupOpen = true ∧ s.film.galley.isSome = true ∧
      s.stop.station = .stopped ∧ s.stop.record = some (stopOf k) ∧ s.active? = some (counted n) ∧
      s.pass = some (passOf .film) ∧ unexposedContext s = some record1.start ∧ hasRoom s := by unfold hasRoom; decide
/-- R148, step 2: a DOOR stop takes the cleared stop's place; as its line's third it parks the take instead. -/
theorem test_takeup_stop_replaces :
    (∀ s ∈ [after (.cassetteDoorClose 1) (covered .filmOut 1),
        after (.photoUnitDoorClose [340, 0, 0, 0, 0, 0, 0, 0]) (covered .fontCall 1)],
      s.stop.station = .stopped ∧ s.stop.record.map (fun r => (r.kind, r.door)) = some (.door, some .takeup) ∧
      parkReason s = none) ∧
    parksWith (after (.cassetteDoorClose 1) (covered .filmOut 2)) .repeated = true := by decide +kernel

/-- A LAMP fault in each station state, with a stop pending, and with the cut asked for; further faults of a movement, in HALT and
while CLEAR is homing. -/
theorem witness_FailedMovementsAreFaults_further :
    (∀ st ∈ [StationState.run, .standby, .hold, .stopped, .fault, .halt], let s := inState st (stopped .mechanism (lampAt 2046 255));
      s.stop.station = st ∧ s.stop.clearing = false ∧ s.stop.record = some (stopOf .mechanism) ∧ hasRoom s ∧ 255 ≤ s.lamp.run ∧
      failedMechanism s .flashTimeout = some .flash ∧ s.exp.cur.map (fun c => c.halt) = some none) ∧
    (let s := inState .fault (flashing filming);
      let t := { s with stop := { s.stop with clearing := true } };
      t.stop.station = .fault ∧ t.stop.clearing = true ∧ failedMechanism t .flashTimeout = some .flash ∧ hasRoom t) ∧
    (∀ q, (flashing filming).film.transport ≠ .trailing q ∧ (flashing filming).film.transport ≠ .cutting q) :=
  ⟨by unfold hasRoom; decide, by unfold hasRoom; decide, fun _ => ⟨nofun, nofun⟩⟩
/-- R150, R151: a LAMP fault parks and marks the take; one in a pass whose end cut has been asked for marks it alone; a second
fault gives a further notice. -/
theorem test_lamp_fault :
    let told (s : State) : Option StopKind × Option ParkReason × List (Option ReleaseReason) :=
      (s.stop.record.map (fun r => r.kind), parkReason s, s.takes.map (fun t => t.release))
    told (after (.flashDone 508) (lampAt 2046 255)) = (some .lamp, some .fault, [some .fault]) ∧
    told (after (.flashDone 508) { lampAt 2046 255 with pass := some { passOf .film with cutAsked := true } }) =
      (some .lamp, none, [some .fault]) ∧
    ((after .cutterTimeout (inState .fault (stopped .mechanism
        (transporting (.cutting { asker := .park, spoiled := none }) filming)))).line.queue.map (fun e => e.frame)) =
      [.notice (some k1) (.fault .mechanism (some .cutter) none true 1)] := by decide +kernel

/-- A park that ends with a stop that names the take, to HOLD and to RUN, with one that does not, and with a fault record. -/
theorem witness_StopTimersParkTheTake_stops :
    (∀ h ∈ [true, false], let s := answered .repeated (stopped .door (active .film runs));
      let t := { s with stop := { s.stop with record := some { stopOf .fontCall with toHold := h } } };
      t.stop.station = .stopped ∧ t.active? = some (heldTake .active) ∧
      (t.stop.record.map (fun r => (r.toHold, r.key, r.kind)) = some (h, some k1, .fontCall)) ∧ t.stop.station ≠ .standby) ∧
    (let s := answered .fault (inState .fault (stopped .mechanism (active .film runs)));
      s.stop.station = .fault ∧ s.stop.record = some (stopOf .mechanism) ∧ (stopOf .mechanism).kind ≠ .filmOut) ∧
    (let s := parking asked { filming with store := { records := [exposed1], marker := none } };
      exposed1 ∈ s.store.records ∧ exposed1.filmPending = false ∧ exposed1.proofPending = true ∧ record1.filmPending = true) := by
  decide

/-- MOUNT with the seat wanted at the path, and with the turret's position unknown. -/
theorem witness_MountKeyPresentsASeat_there :
    (let s := { called with exp := { called.exp with seats := [9, 0, 9, 9, 9, 9, 9, 9], turret := some 1 } };
      s.exp.seats.findIdx? (fun f => f == 0) = some 1 ∧ s.exp.turret = some 1 ∧ (after .mountKey s).exp.turretMove = none) ∧
    (let s := inState .hold { runs with exp := { runs.exp with turret := none } };
      s.exp.turret = none ∧ s.stopIs .fontCall = false ∧ s.exp.phase = .idle ∧ s.exp.homing = none) := by decide +kernel

/-- A TAKEN sent in STANDBY; a lapse after a first offer and after a strand turn; an ask heard with none of this station's own
waiting, and with one that waits for room. -/
theorem witness_ClaimAndTakenSentAct_standby :
    (let s := sending (.taken k1 2) (withTake (heldTake .receiving) (inState .standby runs));
      s.line.phase = .sending ∧ s.line.queue = { frame := .taken k1 2, begun := true } :: [] ∧
      s.take? k1 = some (heldTake .receiving) ∧ s.stop.station = .standby ∧
      ((after .frameSent s).stop.station, (after .frameSent s).takes.map (fun t => t.state)) = (.run, [.queued])) ∧
    (∀ b ∈ [true, false], let x := { heldTake .releasing with reoffer := b };
      (watching (.take k1) (withTake x runs)).take? k1 = some x ∧ x.reoffer = b ∧ hasRoom (watching (.take k1) (withTake x runs)) ∧
      ((after (.lapse (.take k1)) (watching (.take k1) (withTake x runs))).line.queue.map (fun e => e.frame)) =
        if b then [] else [.notice (some k1) (.stranded false)]) ∧
    (let s := crowded (asking runs);
      (asking runs).width.isAsking 112 = true ∧ (asking runs).line.queue = [] ∧ (asking runs).line.waiting = [] ∧
      .widthAsk 112 ∈ s.line.waiting ∧ (after (.widthAsk toAll 112) s).line.waiting = [] ∧
      (after (.widthAsk toAll 112) s).watched (.font 112) = true) := by unfold hasRoom; decide +kernel

/-- R24: the take becomes widths-ready as its last font's table fills its slot. -/
theorem test_table_readies :
    (after (.widthTable toAll 112 7 widths20) (withTake { heldTake .queued with fonts := [112] } (asking runs))).takes.map
      (fun t => t.widthsReady) = [true] ∧
    (after (.widthTable toAll 112 7 widths20) (withTake (heldTake .queued) (asking runs))).takes.map
      (fun t => t.widthsReady) = [false] := by decide +kernel

/-- A group ended by ENDPARA and by the end of copy; an empty group; a store with and without room; a first group of which nothing
remains after its only box. -/
def ended (code : List Nat) (s : State) : State :=
  { s with mem := storeCopy [] [0] 0 ((List.replicate 70 0x41 ++ code).map (BitVec.ofNat 8))
           takes := [textTake (List.replicate 70 0x41 ++ code)] }
def crammed (s : State) : State := { s with store := { records := List.replicate 64 record1, marker := none } }
theorem witness_WordSpaceEndsTheGroup_ends :
    endsGroup hyphenated5 (textTake text20) (textCtx 70) .wordSpace ∧
    endsGroup (ended [0x0C] hyphenated5) (textTake (List.replicate 70 0x41 ++ [0x0C])) (textCtx 70) .endpara ∧
    endsGroup (ended [] hyphenated5) (textTake (List.replicate 70 0x41)) (textCtx 70) .endOfCopy ∧
    (storeRoom hyphenated5 62 ∧ ¬ storeRoom (crammed hyphenated5) 62) ∧
    (let s := breaking 1 [] [];
      Reads s (textTake text20) (textCtx 70) 0x20 0 ∧ s.comp.holdsBox = true ∧ s.comp.afterSpace = false ∧ s.comp.group = [] ∧
      (after .wordSpace s).comp.spaces = 2) := by
  refine ⟨Or.inl ⟨rfl, ?_⟩, Or.inr (Or.inl ⟨rfl, ?_⟩), Or.inr (Or.inr ⟨rfl, ?_⟩), ?_, ?_⟩ <;>
    first | (unfold Reads; decide +kernel) | (unfold storeRoom; decide +kernel) | decide +kernel
/-- R8: pending values applied in order: the new measure lowers the indent and counts it, and the pending indent is then clamped
and counted; the held line of a full store leaves it waiting. -/
def pended (s : State) : State :=
  { s with comp := { s.comp with
      ctx := s.comp.ctx.map (fun x => { x with indent := 90 })
      pend := { noPending with measure := some 100, indent := some 70, ladder := some 5, mode := some 2 } } }
theorem test_pending_values_applied :
    let s := pended (ended [0x0C, 0x41] (breaking 1 [] []))
    let t := after .endpara s
    t.comp.ctx.map (fun x => (x.measure, x.indent, x.ladderLimit, x.mode, x.nextLine)) = some (100, 64, 5, 2, 2) ∧
    t.takes.map (fun x => x.counters.clamped) = [2] ∧ t.comp.pend = noPending ∧
    (after .endpara (crammed s)).comp.phase = .waiting ∧ (after .endpara (crammed s)).comp.pend = s.comp.pend := by
  decide +kernel
/-- R45, R47, Log 22: a first group broken after its last box leaves the byte that ended it to be read. -/
theorem test_nothing_remains :
    let wide : BuildItem := { box 0 with width := 70000 }
    let s := breaking 0 [] []
    let t := after .wordSpace { s with comp := { s.comp with group := [wide] } }
    (t.comp.ctx.map (fun x => x.resume), t.comp.phase, t.store.records.length) = (some 70, .setting, 1) := by decide +kernel

/-- R112: from seat 1 and lens 5 on: seat 1 with lenses 7 and 3, then seat 0 from lens 3 on. -/
theorem test_scan_order_starts :
    let item (f l x : Nat) : LineItem := { code := 0x41, font := f, lens := l, x := x, absent := false }
    (scanOrder { runs.exp with seats := [112, 113, 0, 0, 0, 0, 0, 0], turret := some 1, lens := some 5 }
      { record1 with items := [item 112 2 0, item 113 3 1200, item 112 3 2400, item 113 7 3600, item 112 11 4800] }).map
      (fun g => (g.seat, g.lens, g.items)) = [(1, 7, [3]), (1, 3, [1]), (0, 3, [2]), (0, 11, [4]), (0, 2, [0])] := by
  decide +kernel

/-- R92, R89: the 0x0A of a header of an earlier pass, still in flight as the next pass starts, leaves the new marker set. -/
theorem test_header_of_an_earlier_pass :
    let s := withTake earlier (printing 0x0A (some .header) runs)
    let t := startPass { s with proof := { s.proof with attached := true } } earlier
    (t.store.marker, (after .proofLineSent t).store.marker) = (some .film, some .film) := by decide +kernel
/-- R94, R85: the paper timer's end empties the store and discards what the port has not sent. -/
theorem test_paper_timer_empties :
    let s := noPaper { active .proof filming with
      store := filming.store
      proof := { runs.proof with paperTimer := true, kind := .proof, segs := [{ kind := .line 1, chars := [0x41] }] } }
    let t := after .paperTimer s
    (t.store.records.length, t.proof.segs.length, t.proof.lineOpen, t.takes.map (fun x => x.state)) =
      (0, 0, true, [.queued]) := by decide +kernel

end Sys2Proof.Tests
end

section
/-! PROOFS. The copy store: bytes stored at copy offsets read back (R1, R180). -/

namespace Sys2Proof.Machine

/-! ### The copy store's bytes, by their addresses (R1, R180) -/

theorem copyAddress_some {blocks : List Nat} {n : Nat} (h : n < 256 * blocks.length) : ∃ a, copyAddress blocks n = some a := by
  have hb : n / 256 < blocks.length := by omega
  exact ⟨blocks[n / 256] * 256 + n % 256, by simp [copyAddress, Config.blockBytes, List.getElem?_eq_getElem hb]⟩

/-- In blocks that are each listed once, no two copy offsets share an address. -/
theorem copyAddress_inj {blocks : List Nat} (hb : blocks.Nodup) {m n a : Nat} (hm : copyAddress blocks m = some a)
    (hn : copyAddress blocks n = some a) : m = n := by
  obtain ⟨b, eb, rfl⟩ := Option.map_eq_some_iff.1 hm
  obtain ⟨c, ec, e⟩ := Option.map_eq_some_iff.1 hn
  have places : m % 256 < 256 ∧ n % 256 < 256 := ⟨Nat.mod_lt _ (by decide), Nat.mod_lt _ (by decide)⟩
  simp only [Config.blockBytes] at eb ec e
  obtain rfl : c = b := by omega
  obtain ⟨lt, -⟩ := List.getElem?_eq_some_iff.1 eb
  have block : m / 256 = n / 256 := (List.getElem?_inj lt hb).1 (eb.trans ec.symm)
  omega

theorem mem_copyAddresses {blocks : List Nat} {n len a : Nat} :
    a ∈ copyAddresses blocks n len ↔ ∃ i < len, copyAddress blocks (n + i) = some a := by
  simp [copyAddresses]

/-- A byte is stored, and the others after it. -/
theorem storeCopy_cons {blocks : List Nat} {n a : Nat} (ha : copyAddress blocks n = some a) (m : List Host.Cell) (b : Byte)
    (bs : List Byte) : storeCopy m blocks n (b :: bs) = storeCopy (memWrite m a b) blocks (n + 1) bs := by
  simp [storeCopy, ha]

/-- An address that none of the copy offsets written has reads as before. -/
theorem memRead_storeCopy_other {blocks : List Nat} {a : Nat} : ∀ (bs : List Byte) (m : List Host.Cell) (n : Nat),
    (∀ i < bs.length, copyAddress blocks (n + i) ≠ some a) → memRead (storeCopy m blocks n bs) a = memRead m a := by
  intro bs
  induction bs with
  | nil => intro m n _; rfl
  | cons b bs ih =>
    intro m n h
    have later : ∀ i < bs.length, copyAddress blocks (n + 1 + i) ≠ some a := fun i hi => by
      rw [Nat.add_right_comm]; exact h (i + 1) (Nat.succ_lt_succ hi)
    unfold storeCopy
    split
    · next c hc =>
      rw [ih _ _ later]
      exact memRead_memWrite_other m b fun e => h 0 (Nat.zero_lt_succ _) (by rw [e]; exact hc)
    · exact ih _ _ later

/-- The bytes stored read back from their copy offsets: one written is overwritten by none of those after it. -/
theorem copyByte_storeCopy {blocks : List Nat} (hb : blocks.Nodup) : ∀ (bs : List Byte) (m : List Host.Cell) (n : Nat),
    memWf m = true → n + bs.length ≤ 256 * blocks.length →
    ∀ i (h : i < bs.length), copyByte (storeCopy m blocks n bs) blocks (n + i) = bs[i] := by
  intro bs
  induction bs with
  | nil => intro m n _ _ i h; exact absurd h (Nat.not_lt_zero i)
  | cons b bs ih =>
    intro m n wf le i h
    rw [List.length_cons] at le
    obtain ⟨a, ha⟩ := copyAddress_some (blocks := blocks) (n := n) (by omega)
    rw [storeCopy_cons ha]
    cases i with
    | zero =>
      have apart : ∀ i < bs.length, copyAddress blocks (n + 1 + i) ≠ some a := fun i _ e => by
        have := copyAddress_inj hb ha e
        omega
      simp [copyByte, ha, memRead_storeCopy_other _ _ _ apart, memRead_memWrite_same m a b wf]
    | succ i =>
      rw [show n + (i + 1) = n + 1 + i by omega]
      exact ih _ _ (memWrite_wf m a b wf) (by omega) i (Nat.lt_of_succ_lt_succ h)

/-- Settles O10: the byte at an offset is written last by itself, since distinct offsets have distinct addresses. -/
theorem copyStoreReadsBack : Obligations.CopyStoreReadsBack := by
  intro m blocks n data wf nodup le
  refine ⟨copyByte_storeCopy nodup data m n wf le, fun a ha => memRead_storeCopy_other data m n fun i hi e => ha ?_⟩
  exact mem_copyAddresses.2 ⟨i, hi, e⟩

end Sys2Proof.Machine
end

section
/-! PROOFS. The copy commands as they are read (R5), and what FONT, SIZE and the line-level commands set (R8 to R13). -/

namespace Sys2Proof.Machine

/-! ### Reading the copy's bytes (R5) -/

section Reading
variable {s : State} {t : Take} {x : Context} {b code n : Nat}

theorem Reads.ctx (h : Reads s t x code n) : s.comp.ctx = some x := (reading_some h.1).2.2.1

theorem Reads.active (h : Reads s t x code n) : s.active? = some t := (reading_some h.1).2.1

/-- The byte read is left behind, and nothing else changes. -/
theorem readPast_eq (hx : s.comp.ctx = some x) (next : Nat) :
    readPast s next = { s with comp := { s.comp with ctx := some { x with resume := next } } } := by
  simp [readPast, modCtx, modComp, hx]

theorem readByte_reads (h : Reads s t x b n) (p : Nat → Bool) (act : Reading → Nat → State) :
    readByte s p act = if p b then act { take := t, ctx := x, byte := some b } b else s := by
  simp [readByte, h.1]

/-- A copy command whose argument bytes stand before the end of copy acts with them, reading left after them. -/
theorem copyCommand_reads (h : Reads s t x code n) (act : Reading → List Nat → State → State) :
    copyCommand s code n act = act { take := t, ctx := x, byte := some code }
      (argBytes s { take := t, ctx := x, byte := some code } n) (readPast s (x.resume + 1 + n)) := by
  simp [copyCommand, readByte, h.1, h.2]

theorem copyCommand_not_due (h : reading? s = none ∨ ∃ r, reading? s = some r ∧ r.byte ≠ some code)
    (act : Reading → List Nat → State → State) : copyCommand s code n act = s := by
  rcases copyCommand_cases s code n act with e | ⟨r, hr, hb, -⟩
  · exact e
  · rcases h with silent | ⟨q, hq, nb⟩
    · exact nomatch silent.symm.trans hr
    · obtain rfl : q = r := Option.some.inj (hq.symm.trans hr)
      exact absurd hb nb

/-- Where the end of copy falls before the argument bytes, the text ends with one copy error. -/
theorem copyCommand_cut (hr : reading? s = some { take := t, ctx := x, byte := some code }) (short : t.textLen < x.resume + 1 + n)
    (act : Reading → List Nat → State → State) :
    copyCommand s code n act =
      { s.count (moreErrors 1) with comp := { s.comp with ctx := some { x with resume := t.textLen } } } := by
  have hx : (addCopyErrors s 1).comp.ctx = some x := (reading_some hr).2.2.1
  have cut : copyCommand s code n act = readPast (addCopyErrors s 1) t.textLen := by
    simp [copyCommand, readByte, hr, Nat.not_le.2 short]
  rw [cut, readPast_eq hx]
  rfl

/-- The argument bytes that a command receives. -/
theorem argBytes_one {r : Reading} (ht : r.take = t) (hx : r.ctx = x) : argBytes s r 1 = [argAt s t x 0] := by
  subst ht hx; rfl

theorem argBytes_two {r : Reading} (ht : r.take = t) (hx : r.ctx = x) : argBytes s r 2 = [argAt s t x 0, argAt s t x 1] := by
  subst ht hx; rfl

theorem argBytes_three {r : Reading} (ht : r.take = t) (hx : r.ctx = x) :
    argBytes s r 3 = [argAt s t x 0, argAt s t x 1, argAt s t x 2] := by
  subst ht hx; rfl

end Reading

/-- Each of the seventeen copy commands is read at its byte with its arguments (R5, R178). -/
theorem exec_copyCommand {c : Instr} {code n : Nat} (h : copyShape c = some (code, n)) (s : State) :
    ∃ act, exec c s = done (copyCommand s code n act) := by
  unfold copyShape at h
  split at h <;> cases h <;> exact ⟨_, rfl⟩

/-- What a command's own effect is, settled, is what it answers. -/
theorem answers_effect {u v : State} (h : u = v) : done u = .next (settle v) := congrArg done h

/-- Settles O39: all seventeen commands read their byte by `copyCommand`, which is not due or is cut short. -/
theorem copyCommandsStandAtTheirByte : Obligations.CopyCommandsStandAtTheirByte := by
  intro c code n s shape
  obtain ⟨act, he⟩ := exec_copyCommand shape s
  exact ⟨fun h => he.trans (answers_effect (copyCommand_not_due h act)),
    fun t x hr short => he.trans (answers_effect (copyCommand_cut hr short act))⟩

/-! ### FONT and SIZE (R9, R10) -/

/-- The size set is the largest lens size not above the argument brought into 10 to 48. -/
theorem lensBelow_largest : ∀ m ≤ 48, 10 ≤ m →
    lensBelow m ∈ lensSizes ∧ lensBelow m ≤ m ∧ ∀ g ∈ lensSizes, g ≤ m → g ≤ lensBelow m := by decide

theorem lensBelow_eq {h m : Nat} (lo : 10 ≤ m) (hi : m ≤ 48) (mem : h ∈ lensSizes) (le : h ≤ m)
    (largest : ∀ g ∈ lensSizes, g ≤ m → g ≤ h) : lensBelow m = h := by
  obtain ⟨mem', le', largest'⟩ := lensBelow_largest m hi lo
  exact Nat.le_antisymm (largest _ mem' le') (largest' h mem le)

/-- A count of one where a value was changed. -/
theorem one_ne {α : Type} [DecidableEq α] (a b : α) : one (decide (a ≠ b)) = if a = b then 0 else 1 := by
  by_cases h : a = b <;> simp [one, h]

/-- Two changes of the take's counters, one after the other, are one. -/
theorem count_count (s : State) (f g : Counters → Counters) : (s.count f).count g = s.count (fun c => g (f c)) := by
  have takes : ((s.count f).count g).takes = (s.count (fun c => g (f c))).takes := by
    simp only [State.count, modActive_takes, List.map_map]
    congr 1
    funext y
    by_cases h : y.state = .active <;> simp [h]
  exact congrArg (fun ts => { s with takes := ts }) takes

/-- Settles O40, by the lens size that the argument of SIZE is given. -/
theorem fontAndSizeActAtOnce : Obligations.FontAndSizeActAtOnce := by
  intro s t x
  constructor
  · intro h
    refine answers_effect ((copyCommand_reads h _).trans ?_)
    rw [argBytes_two rfl rfl, readPast_eq h.ctx]
    by_cases listed : 256 * argAt s t x 0 + argAt s t x 1 ∈ t.fonts <;> simp [takeFont, twoBytes, listed] <;> rfl
  · intro h size n m mem le largest
    have lens : lensBelow m = size := lensBelow_eq (by omega) (by omega) mem le largest
    refine answers_effect ((copyCommand_reads h _).trans ?_)
    rw [argBytes_one rfl rfl, readPast_eq h.ctx]
    simp only [takeSizeCommand, takeSize, arg, List.drop_zero, List.headD_cons, addSubstituted, addClamped, count_count]
    rw [show clamp 10 48 (argAt s t x 0) = m from rfl, lens, one_ne, one_ne]
    rfl

/-! ### Line-level values (R8, R11 to R13) -/

section Levels
variable {s : State} {t : Take} {x : Context}

/-- A line-level value read is in force at once or pending (R8). -/
theorem setLevel_read (hx : s.comp.ctx = some x) (next : Nat) (now : Context → Context) (later : PendingValues → PendingValues) :
    setLevel (readPast s next) now later = levelPlaced s x next now later := by
  have holds : (readPast s next).comp.holdsBox = s.comp.holdsBox := rfl
  unfold setLevel levelPlaced
  rw [holds, readPast_eq hx]
  split <;> rfl

/-- A line-level value read, with so many clamped arguments counted. -/
theorem setLevel_clamped (hx : s.comp.ctx = some x) (next : Nat) {n k : Nat} (hn : n = k) (now : Context → Context)
    (later : PendingValues → PendingValues) :
    setLevel (addClamped (readPast s next) n) now later = levelPlaced (s.count (moreClamped k)) x next now later := by
  subst hn
  exact setLevel_read (s := s.count (moreClamped n)) hx next now later

/-- A new measure lowers an indent above it less 36, which counts one clamped argument (R8). -/
theorem withMeasure_eq (c : Context) (m : Nat) :
    withMeasure c m = ({ c with measure := m, indent := min (m - 36) c.indent }, if m - 36 < c.indent then 1 else 0) := by
  unfold withMeasure indentCap
  split
  · next h => rw [Nat.min_eq_left (Nat.le_of_lt h)]
  · next h => rw [Nat.min_eq_right (Nat.le_of_not_lt h)]

theorem clamp_zero (hi n : Nat) : clamp 0 hi n = min hi n := Nat.zero_max _

theorem takeLead_read (hx : s.comp.ctx = some x) (next n : Nat) :
    takeLead (readPast s next) n = levelPlaced (s.count (moreClamped (if 192 < n then 1 else 0))) x next
      (fun c => { c with leading := min 192 n }) (fun p => { p with leading := some (min 192 n) }) := by
  have counted : one (decide (min 192 n ≠ n)) = if 192 < n then 1 else 0 := by
    rw [one_ne]; split <;> split <;> omega
  unfold takeLead
  rw [clamp_zero]
  exact setLevel_clamped hx next counted _ _

theorem takeMeasure_read (hx : s.comp.ctx = some x) (next picas points : Nat) :
    let n := 12 * picas + points
    let v := max 36 (min 540 n)
    let lowers : Nat := if s.comp.holdsBox = false ∧ v - 36 < x.indent then 1 else 0
    takeMeasure (readPast s next) picas points = levelPlaced (s.count (moreClamped ((if v = n then 0 else 1) + lowers))) x next
      (fun c => { c with measure := v, indent := min (v - 36) c.indent }) (fun p => { p with measure := some v }) := by
  intro n v lowers
  have ctx : (readPast s next).comp.ctx = some { x with resume := next } := by rw [readPast_eq hx]
  have lowered : (if s.comp.holdsBox = true then 0 else if v - 36 < x.indent then 1 else 0) = lowers := by
    cases h : s.comp.holdsBox <;> simp [lowers, h]
  simp only [takeMeasure, ctx, withMeasure_eq]
  exact setLevel_clamped hx next (congr (congrArg HAdd.hAdd (one_ne v n)) lowered) _ _

theorem takeIndent_read (hx : s.comp.ctx = some x) (next n : Nat) :
    takeIndent (readPast s next) n =
      levelPlaced (s.count (moreClamped (if s.comp.holdsBox = false ∧ x.measure - 36 < n then 1 else 0))) x next
        (fun c => { c with indent := min (c.measure - 36) n }) (fun p => { p with indent := some n }) := by
  have ctx : (readPast s next).comp.ctx = some { x with resume := next } := by rw [readPast_eq hx]
  have counted : (if s.comp.holdsBox = true then 0 else one (decide (x.measure - 36 < n))) =
      if s.comp.holdsBox = false ∧ x.measure - 36 < n then 1 else 0 := by
    cases s.comp.holdsBox <;> simp [one]
  simp only [takeIndent, ctx]
  exact setLevel_clamped hx next counted _ _

theorem takeSpaceband_read (hx : s.comp.ctx = some x) (next a b c : Nat) :
    let mn := max 4 (min 48 a)
    let op := min 64 (max mn b)
    let mx := min 96 (max op c)
    takeSpaceband (readPast s next) a b c =
      levelPlaced (s.count (moreClamped (if mn = a ∧ op = b ∧ mx = c then 0 else 1))) x next
        (fun c => { c with sbMin := mn, sbOpt := op, sbMax := mx }) (fun p => { p with spaceband := some (mn, op, mx) }) := by
  intro mn op mx
  have counted : one (decide ((mn, op, mx) ≠ (a, b, c))) = if mn = a ∧ op = b ∧ mx = c then 0 else 1 := by
    rw [one_ne]; simp only [Prod.mk.injEq]
  exact setLevel_clamped hx next counted _ _

theorem takeLetterspace_read (hx : s.comp.ctx = some x) (next n : Nat) :
    takeLetterspace (readPast s next) n = levelPlaced (s.count (moreClamped (if n ≤ 6 then 0 else 1))) x next
      (fun c => { c with letterspace := min 6 n }) (fun p => { p with letterspace := some (min 6 n) }) := by
  have counted : one (decide (min 6 n ≠ n)) = if n ≤ 6 then 0 else 1 := by
    rw [one_ne]; split <;> split <;> omega
  unfold takeLetterspace
  rw [clamp_zero]
  exact setLevel_clamped hx next counted _ _

theorem takeLadder_read (hx : s.comp.ctx = some x) (next n : Nat) :
    let v := max 1 (min 7 n)
    takeLadder (readPast s next) n = levelPlaced (s.count (moreClamped (if v = n then 0 else 1))) x next
      (fun c => { c with ladderLimit := v }) (fun p => { p with ladder := some v }) :=
  setLevel_clamped hx next (one_ne _ _) _ _

theorem takeMode_read (hx : s.comp.ctx = some x) (next n : Nat) :
    takeMode (readPast s next) n =
      if n ≤ 3 then levelPlaced s x next (fun c => { c with mode := n }) (fun p => { p with mode := some n })
      else { s.count (moreErrors 1) with comp := { s.comp with ctx := some { x with resume := next } } } := by
  unfold takeMode
  split
  · exact setLevel_read hx _ _ _
  · rw [readPast_eq hx]; rfl

end Levels

/-- Settles O41, each command by what it does as its arguments have been read. -/
theorem lineValuesAreSet : Obligations.LineValuesAreSet :=
  ⟨fun _ _ _ =>
    ⟨fun h => answers_effect ((copyCommand_reads h _).trans (takeLead_read h.ctx _ _)),
     fun h => answers_effect ((copyCommand_reads h _).trans (takeMeasure_read h.ctx _ _ _)),
     fun h => answers_effect ((copyCommand_reads h _).trans (takeIndent_read h.ctx _ _))⟩,
   fun _ _ _ =>
    ⟨fun h => answers_effect ((copyCommand_reads h _).trans (takeSpaceband_read h.ctx _ _ _ _)),
     fun h => answers_effect ((copyCommand_reads h _).trans (takeLetterspace_read h.ctx _ _)),
     fun h => answers_effect ((copyCommand_reads h _).trans (takeLadder_read h.ctx _ _))⟩,
   fun _ _ _ =>
    ⟨fun h => answers_effect ((copyCommand_reads h _).trans (takeMode_read h.ctx _ _)),
     fun h => answers_effect ((copyCommand_reads h _).trans (setLevel_read h.ctx _ _ _)),
     fun h => answers_effect ((copyCommand_reads h _).trans (setLevel_read h.ctx _ _ _))⟩⟩

end Sys2Proof.Machine
end

section
/-! PROOFS. Spaces, marks and text bytes taken into the word group (R5, R7, R15, R33). -/

namespace Sys2Proof.Machine

/-! ### Boxes, spaces and marks of the word group (R7, R15) -/

section Boxes
variable {s : State} {t : Take} {x : Context}

/-- A box joins the word group. -/
theorem placeBox_eq (hx : s.comp.ctx = some x) (kind : ItemKind) (code width : Nat) (absent : Bool) (next : Nat) :
    placeBox s kind code width absent next = boxPlaced s x next kind code width absent := by
  unfold placeBox boxPlaced
  rw [hx]
  cases kind <;> simp

theorem takeFixedSpace_eq {r : Reading} (hx : s.comp.ctx = some r.ctx) (units : Nat) :
    takeFixedSpace s r units =
      boxPlaced s r.ctx (r.ctx.resume + 1) .fixedSpace 0x20 (units * 5 * r.ctx.size) false :=
  placeBox_eq hx ..

theorem spaceItem_kind (l : List BuildItem) : (spaceItem l).kind = .justifying := by
  unfold spaceItem
  split <;> rfl

/-- An NBSPACE joins the word group where the line holds a box, and is dropped where it holds none (R15). -/
theorem placeNbspace_eq (hx : s.comp.ctx = some x) (next : Nat) :
    placeNbspace s next = { s with comp := { s.comp with
      ctx := some { x with resume := next }
      group := if s.comp.holdsBox then s.comp.group ++ [{ spaceItem (s.comp.line ++ s.comp.group) with
          offset := x.resume, subst := s.comp.subst, after := s.comp.afterSpace }]
        else s.comp.group } } := by
  unfold placeNbspace
  rw [hx]

end Boxes

/-- Settles O42: three fixed spaces are boxes placed, an NBSPACE joins the group or is dropped, and DISC reads on with a mark. -/
theorem spacesAndMarksArePlaced : Obligations.SpacesAndMarksArePlaced := by
  intro s t x
  refine ⟨fun h => ?_, fun h => ?_, fun h => ?_, fun h => ?_, fun h => ?_⟩
  · exact answers_effect ((copyCommand_reads h _).trans (takeFixedSpace_eq h.ctx 48))
  · exact answers_effect ((copyCommand_reads h _).trans (takeFixedSpace_eq h.ctx 24))
  · exact answers_effect ((copyCommand_reads h _).trans (takeFixedSpace_eq h.ctx 12))
  · refine ⟨_, answers_effect ((copyCommand_reads h _).trans (placeNbspace_eq h.ctx _)), rfl, rfl, fun dropped => ?_,
      fun holds => ⟨_, if_pos holds, spaceItem_kind _, rfl, rfl⟩⟩
    simp [dropped]
  · refine answers_effect ((copyCommand_reads h _).trans ?_)
    rw [readPast_eq h.ctx]
    rfl

/-! ### Text bytes (R5, R7, R33) -/

section Text
variable {s : State} {t : Take} {x : Context} {b n : Nat}

/-- A lookup in a font whose slot is VALID gives the table's entry and makes the slot the most recently used (R33). -/
theorem lookup_valid {font i rev : Nat} {ws : List Nat} (hi : s.width.slotOf font = some i)
    (ht : s.width.table? font = some (rev, ws)) (code : Nat) :
    lookup s font code = ((ws[code - 0x21]?).getD 0,
      { s with width := { s.width with useList := s.width.useList.erase i ++ [i] } }) := by
  simp [lookup, WidthCache.entry, WidthCache.isValid, WidthCache.toRecent, hi, ht]

theorem charWidth_eq (w size : Nat) : charWidth w size = (if w = 0 then 24 else w) * 5 * size := by
  unfold charWidth unitsFine
  split <;> rfl

/-- A byte event for a byte of another class is not due (Log 4). -/
theorem readByte_not_due (h : Reads s t x b n) {p : Nat → Bool} (hp : p b = false) (act : Reading → Nat → State) :
    readByte s p act = s := by
  rw [readByte_reads h, hp]
  rfl

theorem readByte_due (h : Reads s t x b n) {p : Nat → Bool} (hp : p b = true) (act : Reading → Nat → State) :
    readByte s p act = act { take := t, ctx := x, byte := some b } b := by
  rw [readByte_reads h, hp]
  rfl

end Text

/-- Settles O43: each byte event is due at the bytes of its own class alone. -/
theorem textBytesAreTaken : Obligations.TextBytesAreTaken := by
  intro s t x b h
  refine ⟨fun lo no i rev ws hi ht => ?character, fun hb => ?rubout, fun hb => ?unknown,
    fun hb => answers_effect (readByte_not_due h ?notCharacter _), fun hb => answers_effect (readByte_not_due h ?notRubout _),
    fun hz hb => answers_effect (readByte_not_due h ?notUnknown _)⟩
  case character =>
    refine answers_effect ((readByte_due h (by simp [isCharacterByte, lo, no]) _).trans ?_)
    simp only [takeCharacter, lookup_valid hi ht, charWidth_eq]
    refine placeBox_eq ?_ ..
    exact h.ctx
  case rubout =>
    exact answers_effect ((readByte_due h (by simp [hb]) _).trans (readPast_eq h.ctx _))
  case unknown =>
    refine answers_effect ((readByte_due h (by simpa [isUnknownByte] using hb) _).trans ?_)
    have hx : (addCopyErrors s 1).comp.ctx = some x := h.ctx
    simp only [takeUnknown, readPast_eq hx]
    rfl
  case notCharacter => 
    have excluded : ¬ (0x21 ≤ b ∧ b ≠ 0x7F) := by omega
    simpa [isCharacterByte] using excluded
  case notRubout => simpa using hb
  case notUnknown => 
    have excluded : ¬ (b = 0 ∨ 0x12 ≤ b ∧ b ≤ 0x1F) := by omega
    simpa [isUnknownByte] using excluded

end Sys2Proof.Machine
end

section
/-! PROOFS. Word groups that end: the break taken, and the line that ends with it (R6, R40, R43 to R47). -/

namespace Sys2Proof.Machine

/-! ### States that differ in nothing a line is set from

A break looks hyphens up, which moves slots in the use list (R33), and ENDPARA is read past before its group ends. Neither
changes anything that the line's end goes by. -/

/-- `u` is `s` but for the order of the use list and the Compositor's context. -/
def sameLine (s u : State) : Prop :=
  ∃ use c, u = { s with width := { s.width with useList := use }, comp := { s.comp with ctx := c } }

section SameLine
variable {s u v : State} {t : Take} {x : Context}

theorem sameLine.refl (s : State) : sameLine s s := ⟨s.width.useList, s.comp.ctx, rfl⟩

theorem sameLine.trans (h : sameLine s u) (k : sameLine u v) : sameLine s v := by
  obtain ⟨_, _, rfl⟩ := h
  obtain ⟨use, c, rfl⟩ := k
  exact ⟨use, c, rfl⟩

theorem sameLine_readPast (s : State) (next : Nat) : sameLine s (readPast s next) := ⟨_, _, rfl⟩

theorem sameLine_lookup (s : State) (font code : Nat) : sameLine s (lookup s font code).2 := by
  unfold lookup
  dsimp only
  split
  · split
    · exact ⟨_, _, rfl⟩
    · exact .refl s
  · exact .refl s

theorem sameLine.entry (h : sameLine s u) (font code : Nat) : u.width.entry font code = s.width.entry font code := by
  obtain ⟨_, _, rfl⟩ := h; rfl

theorem sameLine.lineAppended {w : State} {r : LineRecord} (h : sameLine s u) (k : lineAppended u w t x r) :
    lineAppended s w t x r := by
  obtain ⟨_, _, rfl⟩ := h; exact k

theorem sameLine.lineHeld {w : State} {l : SetLine} (h : sameLine s u) (k : lineHeld u w l) : lineHeld s w l := by
  obtain ⟨_, _, rfl⟩ := h; exact k

theorem sameLine.lineOf {n : Nat} {r : LineRecord} (h : sameLine s u) (k : lineOf u x n r) : lineOf s x n r := by
  obtain ⟨_, _, rfl⟩ := h; exact k

theorem sameLine.storeRoom (h : sameLine s u) (n : Nat) : storeRoom u n ↔ storeRoom s n := by
  obtain ⟨_, _, rfl⟩ := h; rfl

theorem sameLine.active (h : sameLine s u) : u.active? = s.active? := by
  obtain ⟨_, _, rfl⟩ := h; rfl

theorem sameLine.pass (h : sameLine s u) : u.pass = s.pass := by
  obtain ⟨_, _, rfl⟩ := h; rfl

theorem sameLine.contextAfter (h : sameLine s u) (ladder resume font size : Nat) :
    contextAfter u x ladder resume font size = contextAfter s x ladder resume font size := by
  obtain ⟨_, _, rfl⟩ := h; rfl

end SameLine

/-! ### Candidates weighed (R40, R44) -/

/-- The candidate breaks of the word group being read (R61, R67). -/
def groupCandidates (s : State) (t : Take) (x : Context) : List (Nat × BreakKind) :=
  candidates s.hyph t.exceptions { hyph := x.hyph, caps := x.caps, limit := x.ladderLimit, count := x.ladderCount }
    s.comp.group s.comp.discs

/-- The candidates stand in order along the group, one to a place. -/
theorem candidates_ascending (h : Hyphenation) (locals : List ExceptionEntry) (v : AttemptValues) (g : List BuildItem)
    (discs : List Nat) : (candidates h locals v g discs).Pairwise (fun a b => a.1 < b.1) := by
  unfold candidates
  refine List.pairwise_filterMap.2 (List.pairwise_lt_range.imp fun {i j} lt b hb c hc => ?_)
  have place : ∀ {k : Nat} {p : Nat × BreakKind}, (if explicitAfter g k then some (k, BreakKind.explicit)
      else if (addedBreaks h locals v g discs).contains k then some (k, BreakKind.added) else none) = some p → p.1 = k := by
    intro k p e
    split at e
    · cases e; rfl
    · split at e <;> cases e; rfl
  rw [place hb, place hc]
  exact lt

section Weigh
variable {s u : State} {t : Take} {x : Context} {i : Nat} {kind : BreakKind} {best : Option Break}

/-- The candidates weighed for the word group being read, from a state in which only lookups have been made. -/
def weighed (s : State) (x : Context) (cs : List (Nat × BreakKind)) (u : State) (best : Option Break) : State × Option Break :=
  weigh (s.comp.values x s.comp.group) s.comp.spacedLine s.comp.group cs u best

/-- The break that a candidate gives. -/
def breakAt (s : State) (i : Nat) (kind : BreakKind) : Break := { place := i, items := brokenLine s i kind, kind := kind }

/-- One candidate weighed: it takes the place of those before it where it is usable, and is passed over where it is not. -/
theorem weighed_cons (h : sameLine s u) (i : Nat) (kind : BreakKind) (cs : List (Nat × BreakKind)) (best : Option Break) :
    ∃ u' best', sameLine s u' ∧ weighed s x ((i, kind) :: cs) u best = weighed s x cs u' best' ∧
      (usableBreak s x i kind → best' = some (breakAt s i kind)) ∧ (¬ usableBreak s x i kind → best' = best) := by
  cases kind with
  | explicit =>
    have usable : usableBreak s x i .explicit ↔
        (s.comp.values x s.comp.group).fits (s.comp.spacedLine ++ s.comp.group.take (i + 1)) = true := by
      simp [usableBreak, brokenLine]
    refine ⟨u, _, h, rfl, fun y => ?_, fun n => if_neg ((not_congr usable).1 n)⟩
    rw [if_pos (usable.1 y)]
    simp [breakAt, brokenLine]
  | added =>
    cases hb : s.comp.group[i]? with
    | none =>
      have unusable : ¬ usableBreak s x i .added := fun y => by
        obtain ⟨b, eb, -⟩ := y.2 rfl
        exact nomatch hb.symm.trans eb
      exact ⟨u, best, h, by simp [weighed, weigh, hb], fun y => absurd y unusable, fun _ => rfl⟩
    | some last =>
      have entry : (lookup u last.font 0x2D).1 = s.width.entry last.font 0x2D := h.entry _ _
      have items : s.comp.spacedLine ++ s.comp.group.take (i + 1) ++ [hyphenBox last (s.width.entry last.font 0x2D)] =
          brokenLine s i .added := by simp [brokenLine, hb, hyphenBox, unitsFine]
      have usable : usableBreak s x i .added ↔ 0 < s.width.entry last.font 0x2D ∧
          (s.comp.values x s.comp.group).fits (brokenLine s i .added) = true := by
        simp [usableBreak, hb, and_comm]
      refine ⟨(lookup u last.font 0x2D).2,
        if 0 < s.width.entry last.font 0x2D ∧ (s.comp.values x s.comp.group).fits (brokenLine s i .added) = true
          then some (breakAt s i .added) else best,
        h.trans (sameLine_lookup u _ _), ?_, fun y => if_pos (usable.1 y), fun n => if_neg ((not_congr usable).1 n)⟩
      simp only [weighed, weigh, hb, entry, items]
      rfl

/-- Where no candidate is usable, the best stays as it was. -/
theorem weighed_unusable : ∀ (cs : List (Nat × BreakKind)) (u : State) (best : Option Break), sameLine s u →
    (∀ c ∈ cs, ¬ usableBreak s x c.1 c.2) → ∃ u', sameLine s u' ∧ weighed s x cs u best = (u', best) := by
  intro cs
  induction cs with
  | nil => exact fun u best h _ => ⟨u, h, rfl⟩
  | cons c cs ih =>
    intro u best h unusable
    obtain ⟨u', best', h', e, -, passed⟩ := weighed_cons (x := x) h c.1 c.2 cs best
    rw [passed (unusable c List.mem_cons_self)] at e
    obtain ⟨v, hv, ev⟩ := ih u' best h' fun d hd => unusable d (List.mem_cons_of_mem _ hd)
    exact ⟨v, hv, e.trans ev⟩

/-- The last usable candidate is the one taken (R44). -/
theorem weighed_last (hu : usableBreak s x i kind) {after : List (Nat × BreakKind)}
    (unusable : ∀ c ∈ after, ¬ usableBreak s x c.1 c.2) : ∀ (before : List (Nat × BreakKind)) (u : State) (best : Option Break),
    sameLine s u →
    ∃ u', sameLine s u' ∧ weighed s x (before ++ (i, kind) :: after) u best = (u', some (breakAt s i kind)) := by
  intro before
  induction before with
  | nil =>
    intro u best h
    obtain ⟨u', best', h', e, taken, -⟩ := weighed_cons (x := x) h i kind after best
    obtain ⟨v, hv, ev⟩ := weighed_unusable after u' best' h' unusable
    rw [taken hu] at ev
    rw [taken hu] at e
    exact ⟨v, hv, e.trans ev⟩
  | cons c cs ih =>
    intro u best h
    obtain ⟨u', best', h', e, -, -⟩ := weighed_cons (x := x) h c.1 c.2 (cs ++ (i, kind) :: after) best
    obtain ⟨v, hv, ev⟩ := ih u' best' h'
    exact ⟨v, hv, e.trans ev⟩

/-- The furthest usable candidate, with no usable one beyond it, is the one taken (R44). -/
theorem weighed_furthest (h : sameLine s u) (mem : (i, kind) ∈ groupCandidates s t x) (hu : usableBreak s x i kind)
    (furthest : ∀ j k, (j, k) ∈ groupCandidates s t x → i < j → ¬ usableBreak s x j k) :
    ∃ u', sameLine s u' ∧ weighed s x (groupCandidates s t x) u none = (u', some (breakAt s i kind)) := by
  obtain ⟨before, after, e⟩ := List.append_of_mem mem
  have ascending : (before ++ (i, kind) :: after).Pairwise (fun a b => a.1 < b.1) := e ▸ candidates_ascending ..
  have beyond : ∀ c ∈ after, i < c.1 := (List.pairwise_cons.1 (List.pairwise_append.1 ascending).2.1).1
  rw [e]
  refine weighed_last hu (fun c hc => furthest c.1 c.2 ?_ (beyond c hc)) before u none h
  rw [e]
  exact List.mem_append_right _ (List.mem_cons_of_mem _ hc)

end Weigh

/-! ### The line that ends (R43 to R47, R81) -/

/-- The command ends the line of `s` with so many items under these flags: where the store has room the line is appended, with
this context after it, and otherwise it is held (R35, R81). -/
def endsLine (s : State) (t : Take) (x : Context) (cmd : Instr) (n : Nat) (flags : LineFlags → Prop)
    (next : Option Context → Prop) : Prop :=
  (storeRoom s n → ∃ u r, exec cmd s = .next (settle u) ∧ lineAppended s u t x r ∧ lineOf s x n r ∧ flags r.flags ∧
    next u.comp.ctx) ∧
  (¬ storeRoom s n → ∃ u h, exec cmd s = .next (settle u) ∧ lineHeld s u h ∧ lineOf s x n h.record ∧ flags h.record.flags)

section Break
variable {s u u' : State} {t : Take} {x : Context} {cmd : Instr} {stop : Nat}

/-- A command that completes the line with these items, this end and this place to read on ends the line so. -/
theorem endsLine_of_completeLine {items : List BuildItem} {e : LineEnd} {next : ReadOn} {flags : LineFlags → Prop}
    {after : Option Context → Prop} (h : sameLine s u) (ha : s.active? = some t)
    (he : exec cmd s = done (completeLine u t x items e next))
    (hf : ∀ f : LineFlags, f.hyphenated = e.hyphenated → f.explicitHyphen = e.explicit → f.overset = e.overset →
      f.paragraphEnd = e.paraEnd → flags f)
    (hn : after (some (contextAfter s x (if e.hyphenated || e.explicit then min 7 (x.ladderCount + 1) else 0)
      (min t.textLen next.offset) next.font next.size))) :
    endsLine s t x cmd items.length flags after := by
  obtain ⟨appended, held⟩ := completeLine_next u t x items e next (h.active.trans ha)
  constructor
  · intro room
    obtain ⟨r, joins, of, hyph, expl, wide, para, ctx, -, -⟩ := appended ((h.storeRoom _).2 room)
    refine ⟨_, r, he, h.lineAppended joins, h.lineOf of, hf _ hyph expl wide para, ?_⟩
    rw [ctx, h.contextAfter]
    exact hn
  · intro full
    obtain ⟨l, waits, of, hyph, expl, wide, para⟩ := held (mt (h.storeRoom _).1 full)
    exact ⟨_, l, he, h.lineHeld waits, h.lineOf of, hf _ hyph expl wide para⟩

/-- The group is broken at the candidate taken (R44). -/
theorem breakGroup_taken {b : Break} (h : sameLine s u) (hw : weighed s x (groupCandidates s t x) u none = (u', some b)) :
    breakGroup u t x stop = completeLine u' t x b.items b.kind.lineEnd (readOnAt s.comp x stop (b.place + 1)) := by
  have own : ∀ u : State, weighed u x (groupCandidates u t x) u none = (u', some b) →
      breakGroup u t x stop = completeLine u' t x b.items b.kind.lineEnd (readOnAt u.comp x stop (b.place + 1)) := by
    intro u hw
    unfold weighed groupCandidates at hw
    unfold breakGroup
    simp only [hw]
  obtain ⟨use, c, rfl⟩ := h
  exact own _ hw

/-- With no candidate taken, a line that holds nothing ends overset within the group, and any other before it (R45). -/
theorem breakGroup_untaken (h : sameLine s u) (hw : weighed s x (groupCandidates s t x) u none = (u', none)) :
    breakGroup u t x stop =
      if s.comp.line.isEmpty then
        completeLine u' t x (s.comp.group.take (oversetPrefix (s.comp.values x s.comp.group) s.comp.group))
          { plainEnd with overset := true }
          (readOnAt s.comp x stop (oversetPrefix (s.comp.values x s.comp.group) s.comp.group))
      else completeLine u' t x s.comp.line plainEnd (readOnGroup s.comp) := by
  have own : ∀ u : State, weighed u x (groupCandidates u t x) u none = (u', none) → breakGroup u t x stop =
      if u.comp.line.isEmpty then
        completeLine u' t x (u.comp.group.take (oversetPrefix (u.comp.values x u.comp.group) u.comp.group))
          { plainEnd with overset := true }
          (readOnAt u.comp x stop (oversetPrefix (u.comp.values x u.comp.group) u.comp.group))
      else completeLine u' t x u.comp.line plainEnd (readOnGroup u.comp) := by
    intro u hw
    unfold weighed groupCandidates at hw
    unfold breakGroup
    simp only [hw]
  obtain ⟨use, c, rfl⟩ := h
  exact own _ hw

/-! ### The group closed (R43) -/

/-- A group that is not empty and does not fit is broken. -/
theorem closeGroup_breaks {next : Nat} {para : Bool} (hg : s.comp.group ≠ [])
    (hf : (s.comp.values x s.comp.group).fits (joinedLine s.comp) = false) :
    closeGroup s t x stop next para = breakGroup s t x stop := by
  have stays : ¬ ((s.comp.values x s.comp.group).fits (joinedLine s.comp) || s.comp.group.isEmpty) = true := by simp [hf, hg]
  exact if_neg stays

/-- A group that fits, or is empty, joins the line with its kept word spaces; at a paragraph's end the line is complete. -/
theorem closeGroup_joins {next : Nat} (h : s.comp.group = [] ∨ (s.comp.values x s.comp.group).fits (joinedLine s.comp) = true) :
    (closeGroup s t x stop next true = completeLine s t x (joinedLine s.comp) { plainEnd with paraEnd := true }
      { offset := next, font := x.font, size := x.size, subst := s.comp.subst, after := s.comp.afterSpace }) ∧
    closeGroup s t x stop next false =
      { s with comp := { s.comp with
        ctx := some { x with resume := next }, line := joinedLine s.comp, group := [], discs := []
        spaces := if s.comp.group.isEmpty then s.comp.spaces + 1 else 1
        groupStart := next, groupFont := x.font, groupSize := x.size, groupAfter := true, afterSpace := true } } := by
  have joins : ((s.comp.values x s.comp.group).fits (joinedLine s.comp) || s.comp.group.isEmpty) = true := by
    rcases h with h | h <;> simp [h]
  exact ⟨if_pos joins, if_pos joins⟩

/-- At the end of copy reading stands at the end of the text, or beyond. -/
theorem reading_end (h : reading? s = some { take := t, ctx := x, byte := none }) : t.textLen ≤ x.resume := by
  unfold reading? at h
  split at h
  · simp only [Option.some.injEq, Reading.mk.injEq] at h
    obtain ⟨rfl, rfl, hb⟩ := h
    refine Nat.le_of_not_lt fun lt => ?_
    rw [if_pos lt] at hb
    exact nomatch hb
  · exact nomatch h

/-- The three commands that end a word group alike break one that does not fit (R43); reading stands at the byte that ended it. -/
theorem endsGroup_breaks (h : endsGroup s t x cmd) (hg : s.comp.group ≠ [])
    (hf : (s.comp.values x s.comp.group).fits (joinedLine s.comp) = false) :
    s.active? = some t ∧ ∃ u stop, sameLine s u ∧ min t.textLen stop = min t.textLen x.resume ∧
      exec cmd s = done (breakGroup u t x stop) := by
  rcases h with ⟨rfl, reads, holds, kept⟩ | ⟨rfl, reads⟩ | ⟨rfl, reads, holds⟩
  · refine ⟨reads.active, s, x.resume, .refl s, rfl, congrArg done ((readByte_due reads rfl _).trans ?_)⟩
    exact (if_pos ⟨holds, kept⟩).trans (closeGroup_breaks hg hf)
  · refine ⟨reads.active, readPast s (x.resume + 1), x.resume, sameLine_readPast .., rfl,
      congrArg done ((copyCommand_reads reads _).trans ?_)⟩
    exact closeGroup_breaks hg hf
  · have stop : min t.textLen t.textLen = min t.textLen x.resume := by have := reading_end reads; omega
    refine ⟨(reading_some reads).2.1, s, t.textLen, .refl s, stop, congrArg done ?_⟩
    simp only [takeEnd, reads, holds, endParagraph, closeGroup_breaks hg hf, if_true]

end Break

/-! ### The part of a group that is broken overset (R45) -/

section Overset
variable {v : LineValues} {g : List BuildItem}

/-- The group's items up to place `i` end in a box and meet both fit conditions (R45). -/
def fitsUpTo (v : LineValues) (g : List BuildItem) (i : Nat) : Bool := (g[i]?).any BuildItem.isBox && v.fits (g.take (i + 1))

/-- The first item alone, or the longest part that ends in a box and fits. -/
theorem oversetPrefix_spec (v : LineValues) (g : List BuildItem) :
    (oversetPrefix v g = 1 ∨ ∃ i < g.length, oversetPrefix v g = i + 1 ∧ fitsUpTo v g i = true) ∧
    ∀ i < g.length, fitsUpTo v g i = true → i + 1 ≤ oversetPrefix v g := by
  unfold oversetPrefix
  generalize g.length = m
  induction m with
  | zero => exact ⟨.inl rfl, fun i h => absurd h (Nat.not_lt_zero i)⟩
  | succ m ih =>
    obtain ⟨found, longest⟩ := ih
    rw [List.range_succ, List.foldl_append, List.foldl_cons, List.foldl_nil]
    split
    · next fits =>
      exact ⟨.inr ⟨m, Nat.lt_succ_self m, rfl, fits⟩, fun i hi _ => hi⟩
    · next unfit =>
      refine ⟨found.imp_right fun ⟨i, hi, e, f⟩ => ⟨i, Nat.lt_succ_of_lt hi, e, f⟩, fun i hi f => longest i ?_ f⟩
      rcases Nat.lt_succ_iff_lt_or_eq.1 hi with lt | rfl
      · exact lt
      · exact absurd f unfit

/-- It takes at least one item, and no more than the group has. -/
theorem oversetPrefix_le (v : LineValues) (hg : g ≠ []) : oversetPrefix v g ≤ g.length := by
  have pos := List.length_pos_iff.2 hg
  rcases (oversetPrefix_spec v g).1 with e | ⟨i, hi, e, -⟩ <;> omega

/-- Beyond its first item it ends in a box and fits. -/
theorem oversetPrefix_fits (more : 1 < oversetPrefix v g) :
    (∃ b, g[oversetPrefix v g - 1]? = some b ∧ b.kind ≠ .justifying) ∧ v.fits (g.take (oversetPrefix v g)) = true := by
  rcases (oversetPrefix_spec v g).1 with e | ⟨i, hi, e, fits⟩
  · omega
  · rw [fitsUpTo, Bool.and_eq_true, Option.any_eq_true] at fits
    obtain ⟨⟨b, hb, box⟩, fits⟩ := fits
    rw [e]
    exact ⟨⟨b, hb, of_decide_eq_true box⟩, fits⟩

/-- No longer part that ends in a box fits. -/
theorem oversetPrefix_longest {m : Nat} {b : BuildItem} (lt : oversetPrefix v g < m) (hb : g[m - 1]? = some b)
    (box : b.kind ≠ .justifying) : v.fits (g.take m) = false := by
  have back : m - 1 + 1 = m := by omega
  have isBox : b.isBox = true := decide_eq_true box
  obtain ⟨hi, -⟩ := List.getElem?_eq_some_iff.1 hb
  refine Bool.eq_false_iff.2 fun fits => ?_
  have longest := (oversetPrefix_spec v g).2 (m - 1) hi (by simp [fitsUpTo, hb, isBox, back, fits])
  omega

end Overset

/-! ### The lines that a group which does not fit ends (R44, R45, R47) -/

section GroupEnds
variable {s : State} {t : Take} {x : Context} {cmd : Instr}

/-- A box at the place read on from is where reading goes on (R47). -/
theorem readOnAt_box {c : Compositor} {stop n : Nat} {b : BuildItem} (hb : c.group[n]? = some b) (box : b.kind ≠ .justifying) :
    readOnAt c x stop n = { offset := b.offset, font := b.font, size := b.size, subst := b.subst, after := b.after } := by
  obtain ⟨lt, e⟩ := List.getElem?_eq_some_iff.1 hb
  have isBox : b.isBox = true := decide_eq_true box
  unfold readOnAt
  rw [List.drop_eq_getElem_cons lt, e, List.find?_cons_of_pos isBox]

/-- The line ends at the furthest usable candidate break (R44). -/
theorem endsLine_at_break {i : Nat} {kind : BreakKind} (h : endsGroup s t x cmd) (hg : s.comp.group ≠ [])
    (hf : (s.comp.values x s.comp.group).fits (joinedLine s.comp) = false) (mem : (i, kind) ∈ groupCandidates s t x)
    (hu : usableBreak s x i kind) (furthest : ∀ j k, (j, k) ∈ groupCandidates s t x → i < j → ¬ usableBreak s x j k) :
    endsLine s t x cmd (brokenLine s i kind).length
      (fun f => f.hyphenated = decide (kind = .added) ∧ f.explicitHyphen = decide (kind = .explicit) ∧
        f.overset = false ∧ f.paragraphEnd = false)
      (fun y => ∀ b, s.comp.group[i + 1]? = some b → b.kind ≠ .justifying →
        y = some (contextAfter s x (min 7 (x.ladderCount + 1)) (min t.textLen b.offset) b.font b.size)) := by
  obtain ⟨ha, u, stop, hs, -, he⟩ := endsGroup_breaks h hg hf
  obtain ⟨u', hs', hw⟩ := weighed_furthest hs mem hu furthest
  rw [breakGroup_taken hs hw] at he
  refine endsLine_of_completeLine hs' ha he (fun f hyph expl wide para => ?_) (fun b hb box => ?_)
  · rw [hyph, expl, wide, para]
    cases kind <;> exact ⟨rfl, rfl, rfl, rfl⟩
  · rw [show (breakAt s i kind).place + 1 = i + 1 from rfl, readOnAt_box hb box]
    cases kind <;> rfl

/-- With no usable candidate on a line that holds nothing, the group is broken overset (R45). -/
theorem endsLine_overset (h : endsGroup s t x cmd) (hg : s.comp.group ≠ [])
    (hf : (s.comp.values x s.comp.group).fits (joinedLine s.comp) = false)
    (unusable : ∀ j k, (j, k) ∈ groupCandidates s t x → ¬ usableBreak s x j k) (empty : s.comp.line = []) :
    endsLine s t x cmd (oversetPrefix (s.comp.values x s.comp.group) s.comp.group)
      (fun f => f.overset = true ∧ f.hyphenated = false ∧ f.explicitHyphen = false ∧ f.paragraphEnd = false)
      (fun y => y = match (s.comp.group.drop (oversetPrefix (s.comp.values x s.comp.group) s.comp.group)).find?
          (fun i => i.kind ≠ .justifying) with
        | some b => some (contextAfter s x 0 (min t.textLen b.offset) b.font b.size)
        | none => some (contextAfter s x 0 (min t.textLen x.resume) x.font x.size)) := by
  obtain ⟨ha, u, stop, hs, hstop, he⟩ := endsGroup_breaks h hg hf
  obtain ⟨u', hs', hw⟩ := weighed_unusable (x := x) (groupCandidates s t x) u none hs fun c hc => unusable c.1 c.2 hc
  rw [breakGroup_untaken hs hw, empty, List.isEmpty_nil, if_pos rfl] at he
  have taken := List.length_take_of_le (oversetPrefix_le (s.comp.values x s.comp.group) hg)
  refine Eq.mp (congrArg (fun n => endsLine s t x cmd n _ _) taken)
    (endsLine_of_completeLine hs' ha he (fun f hyph expl wide para => ⟨wide, hyph, expl, para⟩) ?_)
  unfold readOnAt
  change _ = match (s.comp.group.drop _).find? BuildItem.isBox with | some _ => _ | none => _
  cases (s.comp.group.drop _).find? BuildItem.isBox with
  | some b => rfl
  | none => rw [hstop]; rfl

/-- With no usable candidate, a line that holds a box ends before the group (R45). -/
theorem endsLine_before_group (h : endsGroup s t x cmd) (hg : s.comp.group ≠ [])
    (hf : (s.comp.values x s.comp.group).fits (joinedLine s.comp) = false)
    (unusable : ∀ j k, (j, k) ∈ groupCandidates s t x → ¬ usableBreak s x j k) (begun : s.comp.line ≠ []) :
    endsLine s t x cmd s.comp.line.length
      (fun f => f.overset = false ∧ f.hyphenated = false ∧ f.explicitHyphen = false ∧ f.paragraphEnd = false)
      (fun y => y = match s.comp.group.find? (fun i => i.kind ≠ .justifying) with
        | some b => some (contextAfter s x 0 (min t.textLen s.comp.groupStart) b.font b.size)
        | none => some (contextAfter s x 0 (min t.textLen s.comp.groupStart) s.comp.groupFont s.comp.groupSize)) := by
  obtain ⟨ha, u, stop, hs, -, he⟩ := endsGroup_breaks h hg hf
  obtain ⟨u', hs', hw⟩ := weighed_unusable (x := x) (groupCandidates s t x) u none hs fun c hc => unusable c.1 c.2 hc
  rw [breakGroup_untaken hs hw, if_neg (by simpa using begun)] at he
  refine endsLine_of_completeLine hs' ha he (fun f hyph expl wide para => ⟨wide, hyph, expl, para⟩) ?_
  unfold readOnGroup
  change _ = match s.comp.group.find? BuildItem.isBox with | some _ => _ | none => _
  cases s.comp.group.find? BuildItem.isBox <;> rfl

end GroupEnds

/-- Settles O44: a word space is dropped, joins its group to the line, or ends the line as ENDPARA and the end of copy do, at the
break that weighing the candidates finds, overset within the group, or before it. -/
theorem wordSpaceEndsTheGroup : Obligations.WordSpaceEndsTheGroup := by
  intro s t x c asked cands
  refine ⟨fun reads => ⟨fun dropped => ?_, fun holds kept fits => ?_⟩, fun cmd h hg hf => ⟨?_, fun unusable => ⟨fun empty => ?_, ?_⟩⟩⟩
  · have out : ¬ (s.comp.holdsBox = true ∧ s.comp.afterSpace = false) := fun ⟨holds, kept⟩ =>
      dropped.elim (fun d => Bool.noConfusion (d.symm.trans holds)) (fun d => Bool.noConfusion (d.symm.trans kept))
    refine answers_effect ((readByte_due reads rfl _).trans ((if_neg out).trans ?_))
    rw [readPast_eq reads.ctx]
    rfl
  · exact answers_effect ((readByte_due reads rfl _).trans ((if_pos ⟨holds, kept⟩).trans (closeGroup_joins fits).2))
  · exact fun i kind mem usable furthest => endsLine_at_break h hg hf mem usable furthest
  · exact ⟨_, oversetPrefix_pos _ _, oversetPrefix_fits, fun _ _ => oversetPrefix_longest, endsLine_overset h hg hf unusable empty⟩
  · exact endsLine_before_group h hg hf unusable

end Sys2Proof.Machine
end

section
/-! PROOFS. Paragraph ends, the end of copy, and lines that leave or enter the store (R14, R35, R81 to R83). -/

namespace Sys2Proof.Machine

/-! ### Paragraph ends (R14, R52) -/

/-- A line that ends a paragraph and is not overset is neither loose nor letterspaced (R52, R53). -/
theorem justify_paragraph (v : LineValues) (b k g : Nat) :
    (justify v true false b k g).loose = false ∧ (justify v true false b k g).letterspaced = false := by
  unfold justify
  simp only [Bool.false_eq_true, if_false, if_true]
  split
  · exact ⟨rfl, rfl⟩
  · split <;> exact ⟨rfl, rfl⟩

/-- How a line ends at a paragraph's end (R14). -/
def paragraphEnd : LineEnd := { plainEnd with paraEnd := true }

/-- The flags of a paragraph's last line (R14, R52). -/
def paragraphFlags (f : LineFlags) : Prop :=
  f.paragraphEnd = true ∧ f.loose = false ∧ f.letterspaced = false ∧ f.overset = false ∧ f.hyphenated = false ∧
    f.explicitHyphen = false

theorem makeRecord_paragraph (c start : Context) (base : Nat) (items : List BuildItem) :
    paragraphFlags (makeRecord c start base items paragraphEnd).flags := by
  obtain ⟨loose, spaced⟩ := justify_paragraph (lineValues c base) (boxesWidth items) (spaceCount items) (gapCount items)
  exact ⟨rfl, loose, spaced, rfl, rfl, rfl⟩

section Paragraph
variable {s u : State} {t : Take} {x : Context} {cmd : Instr}

/-- The line stored, or held, when a line is offered has the flags of that line (R81, R82). -/
theorem offerLine_flags (ha : s.active? = some t) (sl : SetLine) :
    (∀ r, (offerLine s t x sl).store.records = s.store.records ++ [r] → r.flags = sl.record.flags) ∧
    ∀ l, (offerLine s t x sl).comp.held = some l → l = sl := by
  by_cases room : storeRoom s sl.record.items.length
  · rw [offerLine_with_room s t x sl room]
    obtain ⟨q, ⟨stored, -, free, -⟩, made, -⟩ := appendLine_next s t x sl ha
    refine ⟨fun r hr => ?_, fun l hl => nomatch free.symm.trans hl⟩
    obtain rfl := List.singleton_inj.1 (List.append_cancel_left (stored.symm.trans hr))
    rw [made]
  · obtain ⟨⟨comp, store, -, -⟩, -⟩ := offerLine_without_room s t x sl room
    rw [comp, store]
    exact ⟨fun r hr => absurd hr (by simp), fun l hl => (Option.some.inj hl).symm⟩

/-- The line ends as a paragraph end with all its items, once the store has room for it (R14, R58, R82). -/
theorem completeLine_paragraph (h : sameLine s u) (ha : s.active? = some t) (items : List BuildItem) (next : ReadOn) :
    let w := completeLine u t x items paragraphEnd next
    (storeRoom s items.length → ∃ r, lineAppended s w t x r ∧ lineOf s x items.length r ∧ paragraphFlags r.flags ∧
      w.comp.ctx = some (contextAfter s x 0 (min t.textLen next.offset) next.font next.size) ∧
      (t.textLen ≤ next.offset → w.comp.phase = .idle) ∧
      w.pass = if t.textLen ≤ next.offset then s.pass.map (fun p => { p with reported := true }) else s.pass) ∧
    (¬ storeRoom s items.length → ∃ l, lineHeld s w l ∧ lineOf s x items.length l.record ∧ paragraphFlags l.record.flags) := by
  intro w
  obtain ⟨appended, held⟩ := completeLine_next u t x items paragraphEnd next (h.active.trans ha)
  obtain ⟨stored, waiting⟩ : (∀ r, w.store.records = u.store.records ++ [r] → paragraphFlags r.flags) ∧
      ∀ l, w.comp.held = some l → paragraphFlags l.record.flags := by
    obtain ⟨stored, waiting⟩ := offerLine_flags (x := x) (h.active.trans ha) _
    exact ⟨fun r hr => stored r hr ▸ makeRecord_paragraph .., fun l hl => waiting l hl ▸ makeRecord_paragraph ..⟩
  constructor
  · intro room
    obtain ⟨r, joins, of, -, -, -, -, ctx, phase, pass⟩ := appended ((h.storeRoom _).2 room)
    refine ⟨r, h.lineAppended joins, h.lineOf of, stored r joins.1, ?_, fun ends => phase.trans (if_pos ends), ?_⟩
    · exact ctx.trans (congrArg some (h.contextAfter ..))
    · rw [← h.pass]; exact pass
  · intro full
    obtain ⟨l, waits, of, -⟩ := held (mt (h.storeRoom _).1 full)
    exact ⟨l, h.lineHeld waits, h.lineOf of, waiting l (by rw [waits.1])⟩

end Paragraph

/-! ### Lines that leave the store, and the line held (R35, R81, R83) -/

section Store
variable {s : State} {t : Take} {x : Context} {l : SetLine}

/-- The lines at the head with both consumer fields clear leave, down to the first with one set (R83). -/
theorem storeRemove_head {a b : List LineRecord} (hr : s.store.records = a ++ b) (ha : a ≠ [])
    (clear : ∀ r ∈ a, r.filmPending = false ∧ r.proofPending = false)
    (kept : ∀ r, b.head? = some r → ¬ (r.filmPending = false ∧ r.proofPending = false)) :
    storeRemove s = some { s with store := { s.store with records := b } } := by
  have spent : ∀ r ∈ a, (!r.filmPending && !r.proofPending) = true := fun r hr => by
    obtain ⟨film, proof⟩ := clear r hr
    simp [film, proof]
  have rest : b.dropWhile (fun r => !r.filmPending && !r.proofPending) = b := by
    cases b with
    | nil => rfl
    | cons r b =>
      refine List.dropWhile_cons_of_neg fun both => kept r rfl ?_
      simpa using both
  obtain ⟨r, a, rfl⟩ := List.exists_cons_of_ne_nil ha
  obtain ⟨film, proof⟩ := clear r List.mem_cons_self
  have left := (List.dropWhile_append_of_pos spent (l₂ := b)).trans rest
  unfold storeRemove
  simp only [hr, List.cons_append] at left ⊢
  rw [left]
  simp [film, proof]

/-- A store whose first line has a consumer field set keeps its lines. -/
theorem storeRemove_none (kept : ∀ r, s.store.records.head? = some r → ¬ (r.filmPending = false ∧ r.proofPending = false)) :
    storeRemove s = none := by
  unfold storeRemove
  cases hr : s.store.records with
  | nil => rfl
  | cons r rs =>
    refine if_pos ?_
    have pending := kept r (by rw [hr]; rfl)
    cases film : r.filmPending
    · cases proof : r.proofPending
      · exact absurd ⟨film, proof⟩ pending
      · rfl
    · rfl

theorem retryLine_eq (ha : s.active? = some t) (hx : s.comp.ctx = some x) (hl : s.comp.held = some l)
    (hw : s.comp.phase = .waiting) :
    retryLine s = if s.store.takes l.record then some (appendLine s t x l) else none := by
  simp [retryLine, ha, hx, hl, hw]

theorem retryLine_not_waiting (h : s.comp.phase ≠ .waiting) : retryLine s = none := by
  unfold retryLine
  split
  · exact if_neg fun c => h c.1
  · rfl

theorem store_takes_iff (s : State) (r : LineRecord) : s.store.takes r = true ↔ storeRoom s r.items.length := by
  unfold LineStore.takes
  rw [Bool.and_eq_true, decide_eq_true_iff, decide_eq_true_iff]
  rfl

/-- The Compositor pauses at the next line boundary in HOLD, and in STOPPED where it returns to HOLD (R36). -/
theorem pausing_iff (s : State) : s.pausing = true ↔
    s.stop.station = .hold ∨ (s.stop.station = .stopped ∧ ∃ k, s.stop.record = some k ∧ k.toHold = true) := by
  simp [State.pausing, Option.any_eq_true]

theorem ladderAfter_eq (count : Nat) (f : LineFlags) :
    ladderAfter count f = if f.hyphenated = true ∨ f.explicitHyphen = true then min 7 (count + 1) else 0 := by
  simp [ladderAfter]

/-- A held line that finds room is appended, and the next line begins, pauses or ends the pass (R35, R36). -/
theorem retryLine_with_room (ha : s.active? = some t) (hx : s.comp.ctx = some x) (hl : s.comp.held = some l)
    (hw : s.comp.phase = .waiting) (room : storeRoom s l.record.items.length) :
    retryLine s = some (appendLine s t x l) := by
  rw [retryLine_eq ha hx hl hw, if_pos ((store_takes_iff s l.record).2 room)]

theorem retryLine_without_room (ha : s.active? = some t) (hx : s.comp.ctx = some x) (hl : s.comp.held = some l)
    (hw : s.comp.phase = .waiting) (full : ¬ storeRoom s l.record.items.length) : retryLine s = none := by
  rw [retryLine_eq ha hx hl hw, if_neg (mt (store_takes_iff s l.record).1 full)]

end Store

/-! ### ENDPARA and the end of copy (R14) -/

section Ends
variable {s : State} {t : Take} {x : Context}

/-- Where reading goes on after a paragraph's end (R14). -/
def readOnFrom (s : State) (x : Context) (offset : Nat) : ReadOn :=
  { offset := offset, font := x.font, size := x.size, subst := s.comp.subst, after := s.comp.afterSpace }

theorem exec_endpara (h : Reads s t x 0x0C 0)
    (fits : s.comp.group = [] ∨ (s.comp.values x s.comp.group).fits (joinedLine s.comp) = true) :
    exec .endpara s = done (completeLine (readPast s (x.resume + 1)) t x (joinedLine s.comp) paragraphEnd
      (readOnFrom s x (x.resume + 1))) :=
  congrArg done ((copyCommand_reads h _).trans (closeGroup_joins (s := readPast s (x.resume + 1)) fits).1)

/-- With no box on the line the end of copy ends the pass (R14, R35). -/
theorem exec_endOfCopy_boxless (h : reading? s = some { take := t, ctx := x, byte := none }) (boxless : s.comp.holdsBox = false) :
    exec .endOfCopy s = .next (settle
      { s with
        comp := { idleCompositor with ctx := some { x with resume := t.textLen } }
        pass := s.pass.map (fun p => { p with reported := true }) }) := by
  refine answers_effect ?_
  simp [takeEnd, h, boxless, reportEnd, (reading_some h).2.2.1]

theorem exec_endOfCopy_boxed (h : reading? s = some { take := t, ctx := x, byte := none }) (holds : s.comp.holdsBox = true)
    (fits : s.comp.group = [] ∨ (s.comp.values x s.comp.group).fits (joinedLine s.comp) = true) :
    exec .endOfCopy s = done (completeLine s t x (joinedLine s.comp) paragraphEnd (readOnFrom s x t.textLen)) := by
  refine congrArg done ?_
  simp only [takeEnd, h, holds, endParagraph, (closeGroup_joins fits).1, if_true]
  rfl

end Ends

/-- Settles O45: ENDPARA and the end of copy complete the line as a paragraph's end, the store's head leaves, and the line held
is offered again. -/
theorem paragraphAndCopyEndTheLine : Obligations.ParagraphAndCopyEndTheLine := by
  refine ⟨fun s t x reads fits => ?endpara, fun s t x reads => ⟨exec_endOfCopy_boxless reads, fun holds fits => ?endOfCopy⟩,
    List.mem_cons_self, List.mem_cons_of_mem _ List.mem_cons_self,
    fun s => ⟨fun a b => storeRemove_head, storeRemove_none, fun t x l ha hx hl hw => ⟨fun room => ?retried,
      retryLine_without_room ha hx hl hw⟩, retryLine_not_waiting⟩⟩
  case endpara =>
    have inside : min t.textLen (x.resume + 1) = x.resume + 1 := Nat.min_eq_right reads.2
    have there := congrArg (fun n => some (contextAfter s x 0 n x.font x.size)) inside
    obtain ⟨appended, held⟩ := completeLine_paragraph (x := x) (sameLine_readPast s (x.resume + 1)) reads.active
      (joinedLine s.comp) (readOnFrom s x (x.resume + 1))
    refine ⟨fun room => ?_, fun full => ?_⟩
    · obtain ⟨r, joins, of, flags, ctx, -, pass⟩ := appended room
      refine ⟨_, r, exec_endpara reads fits, joins, of, flags, ctx.trans there, pass.trans ?_⟩
      rcases Nat.lt_or_ge (x.resume + 1) t.textLen with more | ends
      · exact (if_neg (Nat.not_le.2 more)).trans (if_pos more).symm
      · exact (if_pos ends).trans (if_neg (Nat.not_lt.2 ends)).symm
    · obtain ⟨l, waits, of, flags⟩ := held full
      exact ⟨_, l, exec_endpara reads fits, waits, of, flags⟩
  case endOfCopy =>
    obtain ⟨appended, held⟩ := completeLine_paragraph (x := x) (.refl s) (reading_some reads).2.1
      (joinedLine s.comp) (readOnFrom s x t.textLen)
    refine ⟨fun room => ?_, fun full => ?_⟩
    · obtain ⟨r, joins, of, flags, ctx, phase, pass⟩ := appended room
      refine ⟨_, r, exec_endOfCopy_boxed reads holds fits, joins, of, flags.1, phase (Nat.le_refl _),
        ctx.trans (congrArg (fun n => some (contextAfter s x 0 n x.font x.size)) (Nat.min_self _)),
        pass.trans (if_pos (Nat.le_refl _))⟩
    · obtain ⟨l, waits, of, flags⟩ := held full
      exact ⟨_, l, exec_endOfCopy_boxed reads holds fits, waits, of, flags.1⟩
  case retried =>
    obtain ⟨r, joins, made, ctx, phase, -⟩ := appendLine_next s t x l ha
    exact ⟨_, r, retryLine_with_room ha hx hl hw room, joins, made, by rw [ctx, ladderAfter_eq],
      phase.trans (ite_congr rfl (fun _ => rfl) fun _ => ite_congr (propext (pausing_iff s)) (fun _ => rfl) fun _ => rfl)⟩

end Sys2Proof.Machine
end

section
/-! PROOFS. Asks and width tables heard from other stations: what they do to the windows and slots (R19, R25, R28 to R31, R174). -/

namespace Sys2Proof.Machine

/-- A frame received whole acts on the state as it has ended (R167, R168). -/
theorem receive_received {h : Header} {c : Instr} {s : State} (received : Received h c s) (act : State → State) :
    receive s h (frameOk c) true act = act (heard s) := by
  obtain ⟨hears, ok, other⟩ := received
  simp [receive, hears, ok, other, heard]

theorem WindowFor.isAnswerFor_iff {w : WindowFor} {font : Nat} : w.isAnswerFor font = true ↔ w = .answer font := by
  cases w <;> simp [WindowFor.isAnswerFor]

theorem TxFrame.isAskFor_iff {f : TxFrame} {font : Nat} : f.isAskFor font = true ↔ f = .widthAsk font := by
  cases f <;> simp [TxFrame.isAskFor]

/-! ### Asks heard (R25, R30) -/

/-- The station may open an answer window for the font (R30, R172). -/
def mayAnswer (s : State) (font : Nat) : Prop :=
  s.stop.station ≠ .start ∧ s.stop.station ≠ .halt ∧ s.line.windows.length < 4 ∧ s.line.mute = false ∧
  ∀ w ∈ s.line.windows, w.what.isAnswerFor font = false

/-- The station's own WIDTH-ASK for the font waits, in the transmit queue or for room in it (R25). -/
def askWaits (s : State) (font : Nat) : Prop :=
  { frame := .widthAsk font, begun := false } ∈ s.line.queue ∨ .widthAsk font ∈ s.line.waiting

section Asks
variable {s : State} {font : Nat}

theorem windowRoom_iff : s.windowRoom = true ↔ s.line.windows.length < 4 ∧ s.line.mute = false := by
  rw [State.windowRoom, Bool.and_eq_true, decide_eq_true_iff, Bool.not_eq_true']
  rfl

/-- `mayAnswer` is the test that `hearAsk` makes. -/
theorem mayAnswer_iff : mayAnswer s font ↔ s.stop.station ≠ .start ∧ s.stop.station ≠ .halt ∧ s.windowRoom ∧
    s.line.windows.any (fun w => w.what.isAnswerFor font) = false := by
  simp [mayAnswer, windowRoom_iff, and_assoc]

/-- `askWaits` is the test that `hearAsk` makes. -/
theorem askWaits_iff : askWaits s font ↔ (s.line.queue.any (fun e => !e.begun && e.frame.isAskFor font) ||
    s.line.waiting.any (TxFrame.isAskFor font)) = true := by
  have entry (e : TxEntry) :
      (!e.begun && e.frame.isAskFor font) = true ↔ e = { frame := .widthAsk font, begun := false } := by
    obtain ⟨frame, begun⟩ := e
    simp [TxFrame.isAskFor_iff, and_comm]
  simp only [askWaits, Bool.or_eq_true, List.any_eq_true, entry, TxFrame.isAskFor_iff, exists_eq_right]

theorem hearAsk_opens (valid : s.width.isValid font = true) (may : mayAnswer s font) :
    hearAsk s font = { s with line := { s.line with windows := s.line.windows ++
      [{ what := .answer font, slots := 2 * s.number + 1, queued := false }] } } := by
  simp only [hearAsk, if_pos valid, if_pos (mayAnswer_iff.1 may)]
  simp [openWindow]

theorem hearAsk_unanswered (valid : s.width.isValid font = true) (may : ¬ mayAnswer s font) : hearAsk s font = s := by
  simp only [hearAsk, if_pos valid, if_neg (mt mayAnswer_iff.2 may)]

theorem hearAsk_joins (valid : s.width.isValid font = false) (asking : s.width.isAsking font = true)
    (waits : askWaits s font) : hearAsk s font = startWatch (withdraw s (TxFrame.isAskFor font)) (.font font) := by
  simp only [hearAsk, valid, Bool.false_eq_true, if_false, if_pos asking, if_pos (askWaits_iff.1 waits)]

theorem hearAsk_ignored (valid : s.width.isValid font = false)
    (alone : s.width.isAsking font = false ∨ ¬ askWaits s font) : hearAsk s font = s := by
  simp only [hearAsk, valid, Bool.false_eq_true, if_false]
  rcases alone with silent | gone
  · simp only [silent, Bool.false_eq_true, if_false]
  · rw [if_neg (mt askWaits_iff.2 gone), ite_self]

end Asks

/-- Settles O47: the font's slot, and then the room for a window or the station's own ask, decide what is done. -/
theorem asksAreAnsweredOrJoined : Obligations.AsksAreAnsweredOrJoined := by
  intro h font s received may
  have acts {u : State} (e : hearAsk (heard s) font = u) : exec (.widthAsk h font) s = .next (settle u) :=
    answers_effect ((receive_received received _).trans e)
  exact ⟨fun valid open' => acts (hearAsk_opens (s := heard s) valid open'),
    fun valid closed => acts (hearAsk_unanswered (s := heard s) valid closed),
    fun valid asking waits => acts (hearAsk_joins (s := heard s) valid asking waits),
    fun valid alone => acts (hearAsk_ignored (s := heard s) valid (alone.imp_right not_or.2))⟩

/-! ### Answer windows that a table cancels (R31, R174) -/

/-- The first bit of a WIDTH-TABLE for the font has been sent (R174). -/
def LineInterface.answerBegun (l : LineInterface) (font : Nat) : Prop :=
  ∃ e ∈ l.queue, e.begun = true ∧ ∃ r ws, e.frame = .widthTable font r ws

/-- An answer window is open for the font (R30). -/
def State.answerOpen (s : State) (font : Nat) : Prop := ∃ w ∈ s.line.windows, w.what.isAnswerFor font = true

/-- From `s` to `t` the answer windows for the font are cancelled, with their table waiting to be sent, unless that
table's first bit has been sent (R174). -/
def answerCancelled (font : Nat) (s t : State) : Prop :=
  (s.line.answerBegun font → t.line = s.line) ∧
  (¬ s.line.answerBegun font → t.line.windows = s.line.windows.filter (fun w => !w.what.isAnswerFor font) ∧
    ∀ w ∈ s.line.windows, w.what.isAnswerFor font = true → w.queued = true →
      t.line.queue = s.line.queue.filter (fun e => !w.what.owns e.frame) ∧
      t.line.waiting = s.line.waiting.filter (fun f => !w.what.owns f))

theorem answer_owns_iff {font : Nat} {f : TxFrame} :
    (WindowFor.answer font).owns f = true ↔ ∃ r ws, f = .widthTable font r ws := by
  cases f with
  | widthTable font' r ws => simpa [WindowFor.owns] using eq_comm
  | _ => simp [WindowFor.owns]

/-- An answer window counts as begun where a table for its font is. -/
theorem windowBegun_answer {l : LineInterface} {w : Window} {font : Nat} (answers : w.what.isAnswerFor font = true) :
    l.windowBegun w = true ↔ l.answerBegun font := by
  simp only [LineInterface.windowBegun, WindowFor.isAnswerFor_iff.1 answers, List.any_eq_true, Bool.and_eq_true,
    answer_owns_iff, LineInterface.answerBegun]

/-- Windows that have all begun are not cancelled. -/
theorem cancelWindows_eq_self {s : State} {p : WindowFor → Bool}
    (begun : ∀ w ∈ s.line.windows, p w.what = true → s.line.windowBegun w = true) : cancelWindows s p = s := by
  have stays : ∀ w ∈ s.line.windows, (p w.what && !s.line.windowBegun w) = false := fun w hw => by
    cases hp : p w.what
    · rfl
    · simp [begun w hw hp]
  have none_gone : s.line.windows.filter (fun w => p w.what && !s.line.windowBegun w) = [] :=
    List.filter_eq_nil_iff.2 fun w hw => by simp [stays w hw]
  have all_stay : s.line.windows.filter (fun w => !(p w.what && !s.line.windowBegun w)) = s.line.windows :=
    List.filter_eq_self.2 fun w hw => by simp [stays w hw]
  have queue_stays : s.line.queue.filter (fun _ => true) = s.line.queue := List.filter_eq_self.2 fun _ _ => rfl
  have waiting_stays : s.line.waiting.filter (fun _ => true) = s.line.waiting := List.filter_eq_self.2 fun _ _ => rfl
  simp only [cancelWindows, none_gone, all_stay, withdraw, List.any_nil, Bool.not_false, Bool.or_true, queue_stays,
    waiting_stays]

/-- Cancelling windows changes the Line Interface alone. -/
theorem cancelWindows_frame (s : State) (p : WindowFor → Bool) :
    cancelWindows s p = { s with line := (cancelWindows s p).line } := rfl

theorem cancelWindows_closed {s : State} {font : Nat} (closed : ¬ s.answerOpen font) :
    cancelWindows s (WindowFor.isAnswerFor font) = s :=
  cancelWindows_eq_self fun w hw answers => absurd ⟨w, hw, answers⟩ closed

theorem cancelWindows_answerCancelled (s : State) (font : Nat) :
    answerCancelled font s (cancelWindows s (WindowFor.isAnswerFor font)) := by
  refine ⟨fun begun => ?_, fun idle => ⟨?windows, fun w hw answers queued => ?frames⟩⟩
  · rw [cancelWindows_eq_self fun w _ answers => (windowBegun_answer answers).2 begun]
  case windows =>
    refine List.filter_congr fun w _ => ?_
    cases answers : w.what.isAnswerFor font
    · rfl
    · simp [mt (windowBegun_answer answers).1 idle]
  case frames =>
    have owner (f : TxFrame) : ((s.line.windows.filter fun v => v.what.isAnswerFor font && !s.line.windowBegun v).any
        fun v => v.queued && v.what.owns f) = w.what.owns f := by
      rw [Bool.eq_iff_iff]
      simp only [List.any_eq_true, List.mem_filter, Bool.and_eq_true]
      constructor
      · rintro ⟨v, ⟨-, answers', -⟩, -, owns⟩
        rwa [WindowFor.isAnswerFor_iff.1 answers, ← WindowFor.isAnswerFor_iff.1 answers']
      · exact fun owns => ⟨w, ⟨hw, answers, by simp [mt (windowBegun_answer answers).1 idle]⟩, queued, owns⟩
    simp only [cancelWindows, withdraw, owner]
    refine ⟨List.filter_congr fun e he => ?_, trivial⟩
    cases begun : e.begun
    · rfl
    · have foreign : ¬ w.what.owns e.frame = true := fun owns =>
        idle ⟨e, he, begun, answer_owns_iff.1 (WindowFor.isAnswerFor_iff.1 answers ▸ owns)⟩
      simp [foreign]

/-! ### Tables heard (R19, R28, R29) -/

/-- The form of R19, entry by entry. -/
theorem tableFormOk_iff {font : Nat} {ws : List Nat} : tableFormOk font ws = true ↔
    1 ≤ font ∧ font ≤ 999 ∧ ws.length = 223 ∧ ∀ i w, ws[i]? = some w → i + 0x21 ≠ 0x7F → w ≤ 96 := by
  have entries (len : ws.length = 223) :
      (∀ i < 223, i + 0x21 = 0x7F ∨ (ws[i]?).getD 0 ≤ 96) ↔ ∀ i w, ws[i]? = some w → i + 0x21 ≠ 0x7F → w ≤ 96 := by
    constructor
    · intro ok i w hi other
      have inside : i < 223 := len ▸ (List.getElem?_eq_some_iff.1 hi).1
      simpa [hi] using (ok i inside).resolve_left other
    · intro ok i hi
      have hw := List.getElem?_eq_getElem (l := ws) (i := i) (by omega)
      rw [hw]
      exact Decidable.or_iff_not_imp_left.2 (ok i _ hw)
  simp only [tableFormOk, fontOk, Bool.and_eq_true, Bool.or_eq_true, decide_eq_true_eq, List.all_eq_true, List.mem_range]
  constructor
  · rintro ⟨⟨len, lo, hi⟩, ok⟩
    exact ⟨lo, hi, len, (entries len).1 ok⟩
  · rintro ⟨lo, hi, len, ok⟩
    exact ⟨⟨len, lo, hi⟩, (entries len).2 ok⟩

section Tables
variable {s : State} {font rev i : Nat} {ws : List Nat} {sl : Slot}

/-- The font has a VALID slot whose table is of a revision higher than `rev`. -/
def WidthCache.higher (w : WidthCache) (font rev : Nat) : Prop := ∃ r tb, w.table? font = some (r, tb) ∧ rev < r

/-- A font's table is that of the first slot that holds the font. -/
theorem table?_slot {w : WidthCache} (hi : w.slotOf font = some i) (at_ : w.slots[i]? = some sl) :
    w.table? font = match sl.state with
      | .valid r tb => some (r, tb)
      | _ => none := by
  have found : w.slots.find? (fun sl => sl.font == some font) = some sl := by
    rw [List.find?_eq_bind_findIdx?_getElem?]
    exact (congrArg (·.bind (w.slots[·]?)) hi).trans at_
  unfold WidthCache.table?
  rw [found]
  obtain ⟨state, f, pins⟩ := sl
  cases state <;> rfl

theorem table?_no_slot {w : WidthCache} (absent : w.slotOf font = none) : w.table? font = none := by
  have lost : w.slots.find? (fun sl => sl.font == some font) = none := by
    rw [List.find?_eq_bind_findIdx?_getElem?]
    exact congrArg (·.bind (w.slots[·]?)) absent
  unfold WidthCache.table?
  rw [lost]

theorem higher_valid {w : WidthCache} {r : Nat} {tb : List Nat} (hi : w.slotOf font = some i)
    (at_ : w.slots[i]? = some sl) (valid : sl.state = .valid r tb) : w.higher font rev ↔ rev < r := by
  simp [WidthCache.higher, table?_slot hi at_, valid]

theorem not_higher_unfilled {w : WidthCache} (hi : w.slotOf font = some i) (at_ : w.slots[i]? = some sl)
    (unfilled : sl.state = .asking ∨ sl.state = .empty) : ¬ w.higher font rev := by
  rcases unfilled with e | e <;> simp [WidthCache.higher, table?_slot hi at_, e]

theorem not_higher_no_slot {w : WidthCache} (absent : w.slotOf font = none) : ¬ w.higher font rev := by
  simp [WidthCache.higher, table?_no_slot absent]

/-! What a table does to the answer windows. -/

theorem tableToWindows_lower (higher : s.width.higher font rev) : tableToWindows s font rev = s := by
  obtain ⟨r, tb, table, lt⟩ := higher
  simp [tableToWindows, WidthCache.revision, table, Nat.not_le.2 lt]

theorem tableToWindows_cancels (higher : ¬ s.width.higher font rev) :
    tableToWindows s font rev = cancelWindows s (WindowFor.isAnswerFor font) := by
  unfold tableToWindows WidthCache.revision
  cases table : s.width.table? font with
  | none => rfl
  | some p => exact if_pos (Nat.le_of_not_lt fun lt => higher ⟨p.1, p.2, table, lt⟩)

theorem tableToWindows_closed (closed : ¬ s.answerOpen font) : tableToWindows s font rev = s := by
  by_cases higher : s.width.higher font rev
  · exact tableToWindows_lower higher
  · rw [tableToWindows_cancels higher, cancelWindows_closed closed]

/-! What a table does to the slots. -/

theorem tableToSlot_fills (hi : s.width.slotOf font = some i) (at_ : s.width.slots[i]? = some sl)
    (unfilled : sl.state = .asking ∨ sl.state = .empty) :
    tableToSlot s font rev ws = fillSlot s i sl font rev ws := by
  rcases unfilled with e | e <;> simp [tableToSlot, hi, at_, e]

theorem tableToSlot_replaces {r : Nat} {tb : List Nat} (hi : s.width.slotOf font = some i)
    (at_ : s.width.slots[i]? = some sl) (valid : sl.state = .valid r tb) (lt : r < rev) :
    tableToSlot s font rev ws = replaceTable s i sl font rev ws := by
  simp [tableToSlot, hi, at_, valid, lt]

theorem tableToSlot_not_newer {r : Nat} {tb : List Nat} (hi : s.width.slotOf font = some i)
    (at_ : s.width.slots[i]? = some sl) (valid : sl.state = .valid r tb) (le : rev ≤ r) :
    tableToSlot s font rev ws = s := by
  simp [tableToSlot, hi, at_, valid, Nat.not_lt.2 le]

theorem tableToSlot_snoops (absent : s.width.slotOf font = none) (free : s.width.freeSlot? = some i) :
    tableToSlot s font rev ws = markReady { s with width :=
      (s.width.setSlot i { state := .valid rev ws, font := some font, pins := 0 }).toStale i } := by
  simp [tableToSlot, absent, free]

theorem tableToSlot_no_room (absent : s.width.slotOf font = none) (full : s.width.freeSlot? = none) :
    tableToSlot s font rev ws = s := by
  simp [tableToSlot, absent, full]

/-- A table that fills a slot leaves no ask for its font waiting (R27). -/
theorem fillSlot_no_ask : ∀ e ∈ (fillSlot s i sl font rev ws).line.queue, e.begun = true ∨ e.frame.isAskFor font = false := by
  intro e he
  simpa using (List.mem_filter.1 he).2

/-! A table heard, in START or HALT and in the other station states (R19, Log 63). -/

theorem hearTable_badForm_passedOver (still : s.stop.station = .start ∨ s.stop.station = .halt)
    (bad : tableFormOk font ws = false) : hearTable s font rev ws = s := by
  rcases still with e | e <;> simp [hearTable, bad, e]

theorem hearTable_badForm_counted (ns : s.stop.station ≠ .start) (nh : s.stop.station ≠ .halt)
    (bad : tableFormOk font ws = false) : hearTable s font rev ws = countBad s := by
  simp [hearTable, bad, ns, nh]

theorem hearTable_passedOver (still : s.stop.station = .start ∨ s.stop.station = .halt)
    (good : tableFormOk font ws = true) : hearTable s font rev ws = tableToWindows s font rev := by
  rcases still with e | e <;> simp [hearTable, good, e]

theorem hearTable_acts (ns : s.stop.station ≠ .start) (nh : s.stop.station ≠ .halt) (good : tableFormOk font ws = true) :
    hearTable s font rev ws = tableToSlot (tableToWindows s font rev) font rev ws := by
  simp [hearTable, good, ns, nh]

/-- At a revision not below that of a VALID slot the windows are cancelled first. -/
theorem hearTable_cancels (ns : s.stop.station ≠ .start) (nh : s.stop.station ≠ .halt)
    (good : tableFormOk font ws = true) (low : ¬ s.width.higher font rev) :
    hearTable s font rev ws = tableToSlot (cancelWindows s (WindowFor.isAnswerFor font)) font rev ws := by
  rw [hearTable_acts ns nh good, tableToWindows_cancels low]

/-- Where there is no window to cancel, or the slot's revision is higher, the slots alone are concerned. -/
theorem hearTable_leaves (ns : s.stop.station ≠ .start) (nh : s.stop.station ≠ .halt)
    (good : tableFormOk font ws = true) (why : s.width.higher font rev ∨ ¬ s.answerOpen font) :
    hearTable s font rev ws = tableToSlot s font rev ws := by
  rw [hearTable_acts ns nh good, why.elim tableToWindows_lower tableToWindows_closed]

end Tables

/-- Settles O46: what the table does to the answer windows goes by its revision, and what it does to the slots by the slot of
its font; the windows do not matter to the slots, since cancelling them leaves the Width Cache and the takes alone. -/
theorem tablesActByTheirSlot : Obligations.TablesActByTheirSlot := by
  refine ⟨fun h font rev ws s received => ?_, fun _ _ => tableFormOk_iff⟩
  intro begun open' cancelled higher readied
  have acts {u : State} (e : hearTable (heard s) font rev ws = u) :
      exec (.widthTable h font rev ws) s = .next (settle u) :=
    answers_effect ((receive_received received _).trans e)
  let u := cancelWindows (heard s) (WindowFor.isAnswerFor font)
  have gone : answerCancelled font (heard s) u := cancelWindows_answerCancelled _ _
  refine ⟨fun still => ⟨fun why => acts ?passedOver, fun good low _ => ⟨u, acts ?cancels, rfl, gone⟩⟩,
    fun ns nh bad => acts (hearTable_badForm_counted (s := heard s) ns nh bad), fun ns nh good => ?slots⟩
  case passedOver =>
    rcases Bool.eq_false_or_eq_true (tableFormOk font ws) with good | bad
    · rw [hearTable_passedOver (s := heard s) still good]
      rcases why with bad | high | closed
      · exact absurd good (by simp [bad])
      · exact tableToWindows_lower (s := heard s) high
      · exact tableToWindows_closed (s := heard s) closed
    · exact hearTable_badForm_passedOver (s := heard s) still bad
  case cancels =>
    exact (hearTable_passedOver (s := heard s) still good).trans (tableToWindows_cancels (s := heard s) low)
  case slots =>
    have cancels (low : ¬ s.width.higher font rev) := hearTable_cancels (s := heard s) ns nh good low
    have leaves (why : s.width.higher font rev ∨ ¬ s.answerOpen font) := hearTable_leaves (s := heard s) ns nh good why
    refine ⟨fun i sl hi at_ unfilled => ?fills, fun i sl r tb hi at_ valid le _ => ?window,
      fun i sl r tb hi at_ valid lt closed => ?replaces, fun i sl r tb hi at_ valid why => ?ignored,
      fun i absent free => ?snoops, fun absent full closed => ?full⟩
    case fills =>
      have fill : tableToSlot u font rev ws = fillSlot u i sl font rev ws := tableToSlot_fills hi at_ unfilled
      exact ⟨_, acts ((cancels (not_higher_unfilled hi at_ unfilled)).trans fill), rfl, rfl, fillSlot_no_ask, List.map_map⟩
    case window =>
      have low : ¬ s.width.higher font rev := mt (higher_valid hi at_ valid).1 (Nat.not_lt.2 le)
      rcases Nat.eq_or_lt_of_le le with same | lt
      · have kept : tableToSlot u font rev ws = u := tableToSlot_not_newer hi at_ valid (Nat.le_of_eq same.symm)
        exact ⟨u, acts ((cancels low).trans kept), gone, fun _ => ⟨rfl, rfl⟩, fun lt => absurd same (Nat.ne_of_lt lt)⟩
      · have replaced : tableToSlot u font rev ws = replaceTable u i sl font rev ws := tableToSlot_replaces hi at_ valid lt
        exact ⟨_, acts ((cancels low).trans replaced), gone, fun same => absurd same (Nat.ne_of_lt lt), fun _ => rfl⟩
    case replaces =>
      exact acts ((leaves (.inr closed)).trans (tableToSlot_replaces hi at_ valid lt))
    case ignored =>
      have le : rev ≤ r := why.elim Nat.le_of_lt fun same => Nat.le_of_eq same.1
      have why' : s.width.higher font rev ∨ ¬ s.answerOpen font := why.imp (higher_valid hi at_ valid).2 And.right
      exact acts ((leaves why').trans (tableToSlot_not_newer hi at_ valid le))
    case snoops =>
      exact ⟨_, acts ((cancels (not_higher_no_slot absent)).trans (tableToSlot_snoops absent free)), rfl, rfl⟩
    case full =>
      exact acts ((leaves (.inr closed)).trans (tableToSlot_no_room absent full))

end Sys2Proof.Machine
end

section
/-! PROOFS. The setting of a line: how its slack is shared (R48 to R54), and where its items stand (R55). -/

namespace Sys2Proof.Machine

/-! ### A justified line that ends no paragraph (R48 to R51) -/

/-- The spaces at their maximum, the gaps sharing the rest (R49). -/
def letterspacedShares (v : LineValues) (k g s : Nat) : Shares :=
  { q := v.maxF, r := 0, gap := (s - k * v.maxF) / g, gapRem := (s - k * v.maxF) % g, left := 0, loose := false,
    letterspaced := true }

/-- Every gap at the whole letterspace, the spaces sharing the rest (R50). -/
def looseShares (v : LineValues) (k g s : Nat) : Shares :=
  { q := (s - g * v.letterF) / k, r := (s - g * v.letterF) % k, gap := if g = 0 then 0 else v.letterF, gapRem := 0,
    left := 0, loose := true, letterspaced := decide (1 ≤ g) && decide (0 < v.letterF) }

/-- What the shares give to `k` justifying spaces and `g` gaps. -/
def Shares.spread (sh : Shares) (k g : Nat) : Nat := k * sh.q + sh.r + (g * sh.gap + sh.gapRem)

section Shared
variable {v : LineValues} {k g s : Nat}

/-- The slack is within the spaces' maximum (R48). -/
theorem justifySpaces_within (within : s ≤ k * v.maxF) : justifySpaces v k g s = shareSpaces k s := if_pos within

/-- The slack beyond the maximum is within the letterspacing (R49). -/
theorem justifySpaces_letterspaced (wide : k * v.maxF < s) (inGaps : 1 ≤ g ∧ s - k * v.maxF ≤ g * v.letterF) :
    justifySpaces v k g s = letterspacedShares v k g s :=
  (if_neg (Nat.not_le.2 wide)).trans (if_pos inGaps)

/-- The slack is beyond both (R50). -/
theorem justifySpaces_loose (wide : k * v.maxF < s) (beyond : ¬ (1 ≤ g ∧ s - k * v.maxF ≤ g * v.letterF)) :
    justifySpaces v k g s = looseShares v k g s :=
  (if_neg (Nat.not_le.2 wide)).trans (if_neg beyond)

/-- The three ways to share a slack with a justifying space; what a loose line leaves to its spaces is beyond their maximum. -/
theorem justifySpaces_cases (v : LineValues) (k g s : Nat) :
    (s ≤ k * v.maxF ∧ justifySpaces v k g s = shareSpaces k s) ∨
    (k * v.maxF < s ∧ justifySpaces v k g s = letterspacedShares v k g s) ∨
    (k * v.maxF + g * v.letterF < s ∧ justifySpaces v k g s = looseShares v k g s) := by
  rcases Nat.lt_or_ge (k * v.maxF) s with wide | within
  · by_cases inGaps : 1 ≤ g ∧ s - k * v.maxF ≤ g * v.letterF
    · exact .inr (.inl ⟨wide, justifySpaces_letterspaced wide inGaps⟩)
    · refine .inr (.inr ⟨?_, justifySpaces_loose wide inGaps⟩)
      rcases Nat.eq_zero_or_pos g with rfl | gaps
      · omega
      · have beyond : g * v.letterF < s - k * v.maxF := Nat.not_le.1 fun le => inGaps ⟨gaps, le⟩
        omega
  · exact .inl ⟨within, justifySpaces_within within⟩

/-- With a justifying space the whole slack is given out (R48 to R50). -/
theorem justifySpaces_spread (v : LineValues) (k g s : Nat) : (justifySpaces v k g s).spread k g = s := by
  rcases justifySpaces_cases v k g s with ⟨-, shared⟩ | ⟨wide, shared⟩ | ⟨beyond, shared⟩ <;> rw [shared]
  · exact Nat.div_add_mod s k
  · have gaps := Nat.div_add_mod (s - k * v.maxF) g
    simp only [Shares.spread, letterspacedShares]
    omega
  · have gaps : g * (if g = 0 then 0 else v.letterF) = g * v.letterF := by split <;> simp [*]
    have spaces := Nat.div_add_mod (s - g * v.letterF) k
    simp only [Shares.spread, looseShares, gaps]
    omega

/-- Without a justifying space the slack is given out unless the line is loose (R51). -/
theorem justifyGaps_spread (tight : (justifyGaps v g s).loose = false) : (justifyGaps v g s).spread 0 g = s := by
  unfold justifyGaps at tight ⊢
  split at tight
  · next inGaps => rw [if_pos inGaps, Shares.spread, Nat.div_add_mod, Nat.zero_mul, Nat.zero_add, Nat.zero_add]
  · cases tight

/-- The spaces are no narrower than a width at which they fit and that the maximum allows. -/
theorem le_justifySpaces (space : 1 ≤ k) {w : Nat} (fits : k * w ≤ s) (le : w ≤ v.maxF) :
    w ≤ (justifySpaces v k g s).q ∧ (justifySpaces v k g s).r < k := by
  rcases justifySpaces_cases v k g s with ⟨-, shared⟩ | ⟨-, shared⟩ | ⟨beyond, shared⟩ <;> rw [shared]
  · exact ⟨(Nat.le_div_iff_mul_le space).2 (Nat.mul_comm .. ▸ fits), Nat.mod_lt _ space⟩
  · exact ⟨le, space⟩
  · have rest : v.maxF * k ≤ s - g * v.letterF := by
      rw [Nat.mul_comm]
      omega
    exact ⟨Nat.le_trans le ((Nat.le_div_iff_mul_le space).2 rest), Nat.mod_lt _ space⟩

/-- A share with its fine more is no wider than a width at which all of them take the whole. -/
theorem share_le {w : Nat} (within : s ≤ k * w) : s / k + (if 0 < s % k then 1 else 0) ≤ w := by
  split
  · next wider =>
    have whole := Nat.div_add_mod s k
    exact Nat.lt_of_mul_lt_mul_left (a := k) (by omega)
  · exact Nat.div_le_of_le_mul within

/-- The spaces of a line that is not loose are no wider than the maximum, those with a fine more too. -/
theorem justifySpaces_le (tight : (justifySpaces v k g s).loose = false) :
    (justifySpaces v k g s).q + (if 0 < (justifySpaces v k g s).r then 1 else 0) ≤ v.maxF := by
  rcases justifySpaces_cases v k g s with ⟨within, shared⟩ | ⟨-, shared⟩ | ⟨-, shared⟩ <;> rw [shared] at tight ⊢
  · exact share_le within
  · exact Nat.le_refl _
  · cases tight

end Shared

/-! ### The shares by the kind of line (R48 to R54) -/

/-- The left part of the slack, by the mode (R53). -/
theorem leftSlack_eq (mode slack : Nat) :
    leftSlack mode slack = if mode = 2 then slack else if mode = 3 then slack / 2 else 0 := by
  unfold leftSlack
  split
  · rfl
  · rfl
  · next right center => rw [if_neg right, if_neg center]

section Kinds
variable {v : LineValues} (b k g : Nat)

/-- With a justifying space (R48 to R50). -/
theorem justify_spaces (just : v.mode = 0) (space : 1 ≤ k) :
    justify v false false b k g = justifySpaces v k g (v.avail - b) := by
  simp [justify, just, Nat.ne_of_gt space]

/-- Without one (R51). -/
theorem justify_gaps (just : v.mode = 0) : justify v false false b 0 g = justifyGaps v g (v.avail - b) := by
  simp [justify, just]

/-- A paragraph's end in justify mode (R52). -/
theorem justify_paraEnd (just : v.mode = 0) :
    justify v true false b k g =
      if k * v.optF ≤ v.avail - b then evenSpaces k v.optF 0 else shareSpaces k (v.avail - b) := by
  simp [justify, just]

/-- The other modes (R53). -/
theorem justify_ragged (ragged : 1 ≤ v.mode) (para : Bool) :
    justify v para false b k g = evenSpaces k v.optF (leftSlack v.mode (v.avail - b - k * v.optF)) := by
  simp [justify, Nat.ne_of_gt ragged]

/-- An overset line (R54). -/
theorem justify_overset (v : LineValues) (para : Bool) :
    justify v para true b k g = evenSpaces k v.fitSpace (leftSlack v.mode (v.avail - b - k * v.fitSpace)) := by
  rw [Nat.sub_sub]
  rfl

end Kinds

/-- Settles O12: each clause is the equation of `justify` for its kind of line. -/
theorem slackIsShared : Obligations.SlackIsShared := by
  intro v b k g
  refine ⟨fun _ just space wide => ⟨fun inGaps => ?letterspaced, fun beyond => ?loose⟩,
    fun _ just => ⟨fun inGaps => ?gaps, fun beyond => ?looseGaps⟩,
    fun _ just => ⟨fun fits => ?optimum, fun under => ?shared⟩, fun _ ragged _ para => ?ragged, fun para _ => ?overset⟩
  case letterspaced => exact (justify_spaces b k g just space).trans (justifySpaces_letterspaced wide inGaps)
  case loose => exact (justify_spaces b k g just space).trans (justifySpaces_loose wide beyond)
  case gaps => exact (justify_gaps b g just).trans (if_pos inGaps)
  case looseGaps => exact (justify_gaps b g just).trans (if_neg beyond)
  case optimum => exact (justify_paraEnd b k g just).trans (if_pos fits)
  case shared => exact (justify_paraEnd b k g just).trans (if_neg (Nat.not_le.2 under))
  case ragged => rw [justify_ragged b k g ragged, leftSlack_eq]; rfl
  case overset => rw [justify_overset, leftSlack_eq]; rfl

/-- Settles O11: the shares give out the whole slack, and they stand between the limits. -/
theorem justifiedLineFillsItsWidth : Obligations.JustifiedLineFillsItsWidth := by
  intro v b k g just fits limits
  have slack : b + (v.avail - b) = v.avail := Nat.add_sub_cancel' (Nat.le_trans (Nat.le_add_right b _) fits)
  have least : k * v.minF ≤ v.avail - b := Nat.le_sub_of_add_le' fits
  have filled {sh : Shares} (spread : sh.spread k g = v.avail - b) :
      b + (k * sh.q + sh.r) + (g * sh.gap + sh.gapRem) = v.avail := by
    rw [Nat.add_assoc, ← Shares.spread, spread, slack]
  rcases Nat.eq_zero_or_pos k with rfl | space
  · have spaceless : ¬ 1 ≤ 0 := Nat.not_succ_le_zero 0
    rw [justify_gaps b g just]
    exact ⟨fun why => filled (justifyGaps_spread (why.resolve_left spaceless)), fun h => absurd h spaceless,
      fun h => absurd h spaceless, fun h => absurd h spaceless⟩
  · rw [justify_spaces b k g just space]
    exact ⟨fun _ => filled (justifySpaces_spread v k g _), fun _ => le_justifySpaces space least limits,
      fun _ tight => justifySpaces_le tight, fun _ within => justifySpaces_within within⟩

/-! ### The counts of a line's part, item by item (R42) -/

/-- The last of the items is a box. -/
def endsInBox (l : List BuildItem) : Bool := l.getLast?.any BuildItem.isBox

theorem endsInBox_append (l : List BuildItem) (i : BuildItem) : endsInBox (l ++ [i]) = i.isBox := by
  simp [endsInBox]

theorem spaceCount_append (l : List BuildItem) (i : BuildItem) :
    spaceCount (l ++ [i]) = spaceCount l + if i.isBox then 0 else 1 := by
  cases box : i.isBox <;> simp [spaceCount, box]

theorem gapCount_append (i : BuildItem) : ∀ l : List BuildItem,
    gapCount (l ++ [i]) = gapCount l + if endsInBox l && i.isBox then 1 else 0
  | [] => rfl
  | [a] => Nat.add_comm _ _
  | a :: b :: l => by
    have rest := gapCount_append i (b :: l)
    have last : endsInBox (a :: b :: l) = endsInBox (b :: l) := by simp [endsInBox]
    simp only [List.cons_append, gapCount, last] at rest ⊢
    rw [rest, Nat.add_assoc]

/-! ### Where the items of a line stand (R55) -/

/-- A share takes one fine more where a wider one is left after `n`. -/
theorem share_after (width wider n : Nat) :
    (if 0 < wider - n then width + 1 else width) = width + if n < wider then 1 else 0 := by
  simp only [Nat.sub_pos_iff_lt]
  split <;> rfl

theorem spacesLeft_append (sh : Shares) (done : List BuildItem) (i : BuildItem) :
    (if i.isBox then sh.r - spaceCount done else sh.r - spaceCount done - 1) = sh.r - spaceCount (done ++ [i]) := by
  rw [spaceCount_append, ← Nat.sub_sub]
  split <;> rfl

theorem gapsLeft_append (sh : Shares) (done : List BuildItem) (i : BuildItem) :
    (if endsInBox done && i.isBox then sh.gapRem - gapCount done - 1 else sh.gapRem - gapCount done) =
      sh.gapRem - gapCount (done ++ [i]) := by
  rw [gapCount_append, ← Nat.sub_sub]
  split <;> rfl

/-- After its first `n` items a line is placed from some place on, with the wider shares that those have left. -/
theorem positions_drop (sh : Shares) (x : Nat) (l : List BuildItem) {n : Nat} (le : n ≤ l.length) :
    ∃ y, (positions sh x sh.r sh.gapRem false l).drop n =
      positions sh y (sh.r - spaceCount (l.take n)) (sh.gapRem - gapCount (l.take n)) (endsInBox (l.take n)) (l.drop n) := by
  induction n with
  | zero => exact ⟨x, rfl⟩
  | succ n ih =>
    obtain ⟨y, placed⟩ := ih (Nat.le_of_lt le)
    rw [List.drop_eq_getElem_cons le] at placed
    rw [← List.tail_drop, placed, positions, List.tail_cons, spacesLeft_append, gapsLeft_append,
      ← endsInBox_append (l.take n), List.take_append_getElem le]
    exact ⟨_, rfl⟩

/-- Of two items side by side the later stands at the place of the earlier, its width and their gap share. -/
theorem positions_next (sh : Shares) (x : Nat) (l : List BuildItem) {n : Nat} (hn : n < l.length) (next : n + 1 < l.length) :
    ∃ p after, (positions sh x sh.r sh.gapRem false l).drop n =
      p :: (p + (if l[n].isBox then l[n].width else sh.q + if spaceCount (l.take n) < sh.r then 1 else 0) +
        (if l[n].isBox = true ∧ l[n + 1].isBox = true then
          sh.gap + (if gapCount (l.take (n + 1)) < sh.gapRem then 1 else 0) else 0)) :: after := by
  obtain ⟨y, placed⟩ := positions_drop sh x l (Nat.le_of_lt hn)
  rw [placed, List.drop_eq_getElem_cons hn, List.drop_eq_getElem_cons next, positions, positions, gapsLeft_append,
    List.take_append_getElem hn, share_after, share_after, itemWidth, share_after]
  simp only [Bool.and_eq_true]
  exact ⟨_, _, rfl⟩

/-- The record's items stand at their positions (R55, R57). -/
theorem placeItems_positions (v : LineValues) (sh : Shares) (l : List BuildItem) :
    (placeItems v sh l).map (fun i => i.x) = positions sh (v.indentFine + sh.left) sh.r sh.gapRem false l := by
  have lengths := positions_length sh l (v.indentFine + sh.left) sh.r sh.gapRem false
  rw [placeItems, List.map_zipWith]
  exact (List.map_uncurry_zip_eq_zipWith ..).symm.trans (List.map_snd_zip (Nat.le_of_eq lengths))

/-- Settles O13, by what the items before a place leave of the wider shares. -/
theorem itemsStandWhereTheirSharesPutThem : Obligations.ItemsStandWhereTheirSharesPutThem := by
  refine ⟨fun sh x l => ⟨positions_length sh l .., ?first, ?later⟩,
    fun c start base l e => ⟨placeItems_positions (lineValues c base) _ l, rfl, rfl, rfl, rfl⟩⟩
  case first =>
    intro p at_
    cases l with
    | nil => cases at_
    | cons i l => cases at_; rfl
  case later =>
    intro i a b p q ha hb hp hq
    obtain ⟨hi, rfl⟩ := List.getElem?_eq_some_iff.1 ha
    obtain ⟨hj, rfl⟩ := List.getElem?_eq_some_iff.1 hb
    obtain ⟨p', after, placed⟩ := positions_next sh x l hi hj
    have here := congrArg (fun ps => ps[0]?) placed
    have next := congrArg (fun ps => ps[1]?) placed
    simp only [List.getElem?_drop] at here next
    cases hp.symm.trans here
    exact Option.some.inj (hq.symm.trans next)

end Sys2Proof.Machine
end

section
/-! PROOFS. What a command's own effect leaves of the copy store, the Hyphenation Unit and the lamp's values, and the exception
dictionary kept by every step (R73 to R78). -/

namespace Sys2Proof.Machine

/-! ### Commands that leave the stores alone (R70, R75, R77, R124, R126, R184, R201) -/

/-- The commands whose own effect may write the copy store, the Hyphenation Unit or the lamp's values. -/
def writesStores : Instr → Bool
  | .powerOn _ | .romReadDone _ | .copy .. | .exceptionAdd .. | .exceptionDelete .. | .flashDone _
  | .lampChangeSwitch => true
  | _ => false

section Frame
variable {s t u : State}

/-- What a command answers is still where its own effect is, since the reactions are. -/
theorem done_still (still : Still u s) (answers : done u = .next t) : Still t s := by
  injection answers with e
  exact e ▸ (settle_still u).trans still

theorem ite_still {p : Prop} [Decidable p] {a b : State} (ha : Still a s) (hb : Still b s) : Still (if p then a else b) s := by
  split
  · exact ha
  · exact hb

/-- A received frame keeps what it does when it acts. -/
theorem receive_still {h : Header} {ok taken : Bool} {act : State → State} (acts : ∀ u, Still (act u) u) :
    Still (receive s h ok taken act) s := by
  rcases receive_cases s h ok taken act with passed | bad | ⟨u, still, heard | acted⟩
  · exact passed.symm ▸ ⟨rfl, rfl, rfl, rfl⟩
  · exact bad.symm ▸ badFrame_still s
  · exact heard.symm ▸ still
  · exact acted.symm ▸ (acts u).trans still

/-- A copy command keeps what its action keeps, whether that goes on from the state read past or from the one before. -/
theorem copyCommand_still_of {code n : Nat} {act : Reading → List Nat → State → State}
    (acts : ∀ r a u, Still u s → Still (act r a u) s) : Still (copyCommand s code n act) s := by
  rcases copyCommand_cases s code n act with passed | ⟨r, -, -, ⟨-, acted⟩ | ⟨-, cut⟩⟩
  · exact passed.symm ▸ ⟨rfl, rfl, rfl, rfl⟩
  · exact acted.symm ▸ acts r _ _ (readPast_still s _)
  · exact cut.symm ▸ (readPast_still _ _).trans (addCopyErrors_still s 1)

/-- Only seven commands have an own effect on the copy store, the Hyphenation Unit or the lamp's values. -/
theorem exec_effect_still {c : Instr} (spares : writesStores c = false) : ∃ u, exec c s = done u ∧ Still u s := by
  cases c with
  | powerOn | romReadDone | copy | exceptionAdd | exceptionDelete | flashDone | lampChangeSwitch => cases spares
  | reset h straps => exact ⟨_, rfl, receive_still fun u => lineReset_still u straps⟩
  | kill h key => exact ⟨_, rfl, receive_still fun u => hearKill_still u key⟩
  | claim h key cost => exact ⟨_, rfl, receive_still fun u => hearClaim_still u h.sender key⟩
  | widthTable h font revision widths => exact ⟨_, rfl, receive_still fun u => hearTable_still u font revision widths⟩
  | taken h key => exact ⟨_, rfl, receive_still fun u => hearTaken_still u h.sender key⟩
  | refused h key reason => exact ⟨_, rfl, receive_still fun u => hearRefused_still u h.sender key⟩
  | approve h key => exact ⟨_, rfl, receive_still fun u => hearApprove_still u key⟩
  | widthAsk h font => exact ⟨_, rfl, receive_still fun u => hearAsk_still u font⟩
  | offer h msg => exact ⟨_, rfl, receive_still fun u => hearOffer_still u h.sender msg⟩
  | copyEnd h key total => exact ⟨_, rfl, receive_still fun u => hearCopyEnd_still u h.sender key total⟩
  | announce | notice => exact ⟨_, rfl, receive_still fun _ => ⟨rfl, rfl, rfl, rfl⟩⟩
  | brokenFrame => exact ⟨_, rfl, brokenHeard_still s⟩
  | badFrame => exact ⟨_, rfl, badHeard_still s⟩
  | startPoint => exact ⟨_, rfl, startPoint_still s⟩
  | arbitrationLost => exact ⟨_, rfl, arbitrationLost_still s⟩
  | frameSent | frameAborted => exact ⟨_, rfl, frameEnds_still s _⟩
  | idleSlot => exact ⟨_, rfl, idleSlot_still s⟩
  | idleGap => exact ⟨_, rfl, idleGap_still s⟩
  | windowExpired subject => exact ⟨_, rfl, expireWindow_still s subject⟩
  | roomGiven => exact ⟨_, rfl, giveRoom_still s⟩
  | lapse subject => exact ⟨_, rfl, lapse_still s subject⟩
  | font => exact ⟨_, rfl, copyCommand_still fun r _ u => takeFont_still u r.take _⟩
  | size => exact ⟨_, rfl, copyCommand_still fun _ _ u => takeSizeCommand_still u _⟩
  | lead => exact ⟨_, rfl, copyCommand_still fun _ _ u => takeLead_still u _⟩
  | measure => exact ⟨_, rfl, copyCommand_still fun _ _ u => takeMeasure_still u _ _⟩
  | indent => exact ⟨_, rfl, copyCommand_still fun _ _ u => takeIndent_still u _⟩
  | spaceband => exact ⟨_, rfl, copyCommand_still fun _ _ u => takeSpaceband_still u _ _ _⟩
  | letterspace => exact ⟨_, rfl, copyCommand_still fun _ _ u => takeLetterspace_still u _⟩
  | ladder => exact ⟨_, rfl, copyCommand_still fun _ _ u => takeLadder_still u _⟩
  | mode => exact ⟨_, rfl, copyCommand_still fun _ _ u => takeMode_still u _⟩
  | hyph => exact ⟨_, rfl, copyCommand_still fun _ _ u => takeHyph_still u _⟩
  | caps => exact ⟨_, rfl, copyCommand_still fun _ _ u => takeCaps_still u _⟩
  | endpara => exact ⟨_, rfl, copyCommand_still fun r _ u => endParagraph_still u r _ _⟩
  | disc => exact ⟨_, rfl, copyCommand_still fun _ _ u => takeDisc_still u⟩
  | emspace | enspace | thinspace => exact ⟨_, rfl, copyCommand_still_of fun r _ _ _ => takeFixedSpace_still s r _⟩
  | nbspace => exact ⟨_, rfl, copyCommand_still_of fun _ _ _ _ => placeNbspace_still s _⟩
  | character => exact ⟨_, rfl, readByte_still fun r b => takeCharacter_still s r b⟩
  | wordSpace => exact ⟨_, rfl, readByte_still fun r _ => takeWordSpace_still s r⟩
  | rubout => exact ⟨_, rfl, readByte_still fun _ _ => readPast_still s _⟩
  | unknownByte => exact ⟨_, rfl, readByte_still fun r _ => takeUnknown_still s r⟩
  | endOfCopy => exact ⟨_, rfl, takeEnd_still s⟩
  | proofLineSent => exact ⟨_, rfl, lineSent_still s⟩
  | proofCharacterSent => exact ⟨_, rfl, charSent_still s⟩
  | busy asserted => exact ⟨_, rfl, setBusy_still s asserted⟩
  | paper present => exact ⟨_, rfl, setPaper_still s present⟩
  | busyStall => exact ⟨_, rfl, busyStall_still s⟩
  | paperTimer => exact ⟨_, rfl, abandonPass_still s⟩
  | seatIndex seat => exact ⟨_, rfl, seatIndexEvent_still s seat.val⟩
  | lensIndex lens => exact ⟨_, rfl, lensEvent_still s lens.val⟩
  | position tabs cassette => exact ⟨_, rfl, positionEvent_still s tabs cassette⟩
  | moveTimeout mover => exact ⟨_, rfl, moveTimeout_still s mover⟩
  | flashTimeout => exact ⟨_, rfl, flashTimeout_still s⟩
  | homingTimeout => exact ⟨_, rfl, homingTimeout_still s⟩
  | photoUnitDoorOpen => exact ⟨_, rfl, photoDoorOpen_still s⟩
  | photoUnitDoorClose tabs => exact ⟨_, rfl, photoDoorClose_still s tabs⟩
  | warmUpTimer => exact ⟨_, rfl, warmUpExpires_still s⟩
  | advanceDone => exact ⟨_, rfl, advanceDone_still s⟩
  | advanceTimeout => exact ⟨_, rfl, advanceTimeout_still s⟩
  | cutEvent => exact ⟨_, rfl, cutEvent_still s⟩
  | cutterTimeout => exact ⟨_, rfl, cutterTimeout_still s⟩
  | cassetteDoorOpen => exact ⟨_, rfl, cassetteDoorOpen_still s⟩
  | cassetteDoorClose code => exact ⟨_, rfl, cassetteDoorClose_still s code⟩
  | takeupDoorOpen => exact ⟨_, rfl, takeupDoorOpen_still s⟩
  | takeupDoorClose => exact ⟨_, rfl, takeupDoorClose_still s⟩
  | runKey => exact ⟨_, rfl, ite_still (wake_still s) (runKey_still s)⟩
  | clearKey => exact ⟨_, rfl, ite_still (wake_still s) (clearKey_still s)⟩
  | mountKey => exact ⟨_, rfl, ite_still (wake_still s) (mountKey_still s)⟩
  | holdKey => exact ⟨_, rfl, (holdKey_still _).trans (wake_still s)⟩
  | cutKey => exact ⟨_, rfl, (cutKey_still _).trans (wake_still s)⟩
  | fontCallTimer => exact ⟨_, rfl, fontCallExpires_still s⟩
  | filmOutTimer => exact ⟨_, rfl, filmOutExpires_still s⟩
  | standbyTimer => exact ⟨_, rfl, standbyExpires_still s⟩
  | stallTimer key => exact ⟨_, rfl, stallExpires_still s key⟩
  | agingTimer key => exact ⟨_, rfl, agingExpires_still s key⟩
  | takenWait key => exact ⟨_, rfl, takenWaitExpires_still s key⟩
  | strandTurn key => exact ⟨_, rfl, strandTurn_still s key⟩

theorem exec_still {c : Instr} (spares : writesStores c = false) (answers : exec c s = .next t) : Still t s := by
  obtain ⟨u, effect, still⟩ := exec_effect_still (s := s) spares
  exact done_still still (effect.symm.trans answers)

end Frame

/-! ### The dictionary, whatever the command (R70, R73 to R78, R201) -/

section Kept
variable {s t u : State}

/-- The reactions leave the dictionary as the command's own effect has it. -/
theorem done_dictOk (ok : dictOk u.hyph = true) (answers : done u = .next t) : dictOk t.hyph = true := by
  injection answers with e
  rwa [← e, (settle_still u).2.2.1]

/-- A received frame keeps the dictionary where what it does when it acts keeps it. -/
theorem receive_dictOk {h : Header} {ok taken : Bool} {act : State → State}
    (acts : ∀ u, dictOk u.hyph = true → dictOk (act u).hyph = true) (kept : dictOk s.hyph = true) :
    dictOk (receive s h ok taken act).hyph = true := by
  have still {u : State} (k : Still u s) : dictOk u.hyph = true := k.2.2.1.symm ▸ kept
  rcases receive_cases s h ok taken act with passed | bad | ⟨u, k, heard | acted⟩
  · exact passed.symm ▸ kept
  · exact bad.symm ▸ still (badFrame_still s)
  · exact heard.symm ▸ still k
  · exact acted.symm ▸ acts u (still k)

/-- The load of the pattern set leaves the dictionary and its generation as they were (R70). -/
theorem loadRom_dictOk (h : Hyphenation) (rom : Option Rom) : dictOk (h.loadRom rom) = dictOk h := by
  cases rom with
  | none => rfl
  | some r =>
    rw [Hyphenation.loadRom]
    split <;> rfl

/-- The settings ROM, where it is due, is loaded, and start-up goes on to the homing (R200). -/
theorem romRead_dictOk (ok : dictOk s.hyph = true) (rom : Option Rom) : dictOk (romRead s rom).hyph = true := by
  rw [romRead]
  split
  · rw [(startHoming_still _).2.2.1]
    exact (loadRom_dictOk s.hyph _).trans ok
  · exact ok

theorem reset_dictOk : dictOk State.reset.hyph = true := rfl

/-- Every command keeps the dictionary in its order, size and form. -/
theorem exec_dictOk {c : Instr} (ok : dictOk s.hyph = true) (answers : exec c s = .next t) : dictOk t.hyph = true := by
  cases spares : writesStores c with
  | false => rwa [(exec_still spares answers).2.2.1]
  | true =>
    cases c with
    | powerOn pins => exact done_dictOk ((powerOn_other s pins).2.2.1.symm ▸ reset_dictOk) answers
    | romReadDone rom => exact done_dictOk (romRead_dictOk ok rom) answers
    | copy h key offset data =>
      have acts (u : State) (ok : dictOk u.hyph = true) : dictOk (hearCopy u h.sender key offset data).hyph = true :=
        (hearCopy_other u h.sender key offset data).2.1.symm ▸ ok
      exact done_dictOk (receive_dictOk acts ok) answers
    | exceptionAdd h body => exact done_dictOk (receive_dictOk (fun u => hearAdd_dictOk u body) ok) answers
    | exceptionDelete h body => exact done_dictOk (receive_dictOk (fun u => hearDelete_dictOk u body) ok) answers
    | flashDone reading => exact done_dictOk ((flashDone_pending s reading.val).2.2.1.symm ▸ ok) answers
    | lampChangeSwitch => exact done_dictOk (u := changeLamp s) ok answers
    | _ => cases spares

end Kept

/-- Settles O5: the step takes the command at the front, and every command keeps the dictionary. -/
theorem stepKeepsDictionary : Obligations.StepKeepsDictionary := by
  intro s t ok stepped
  unfold step at stepped
  split at stepped
  · injection stepped with same
    exact same ▸ ok
  · next c rest _ => exact exec_dictOk (s := { s with pending := rest }) ok stepped

end Sys2Proof.Machine
end

section
/-! PROOFS. Exceptions heard from other stations: their form, and what an add or a delete does to the dictionary (R74 to R77). -/

namespace Sys2Proof.Machine

/-! ### The form of an EXCEPTION (R74) -/

/-- An EXCEPTION's payload after its operation: so many letters, 2 to 24, and so many positions (R74). -/
def laidOut (letters ps body : List Nat) : Prop :=
  body = letters.length :: letters ++ ps.length :: ps ∧ 2 ≤ letters.length ∧ letters.length ≤ 24 ∧
  ∀ c ∈ letters, isLetter c = true

/-- The positions of an add: at most L − 1, each within 1..L − 1 (R74). -/
def positionsWithin (letters ps : List Nat) : Prop :=
  ps.length + 1 ≤ letters.length ∧ ∀ p ∈ ps, 1 ≤ p ∧ p + 1 ≤ letters.length

/-- A payload reads as the letters and positions that it is laid out from. -/
theorem parseEntry_iff {body letters ps : List Nat} : parseEntry body = some (letters, ps) ↔ laidOut letters ps body := by
  constructor
  · intro h
    unfold parseEntry at h
    (repeat' split at h) <;> simp only [Option.some.injEq, Prod.mk.injEq, reduceCtorEq] at h
    next l rest bounds _ p ps' after form =>
    obtain ⟨rfl, rfl⟩ := h
    obtain ⟨len, allLetters, rfl⟩ := form
    refine ⟨?_, by omega, by omega, List.all_eq_true.1 allLetters⟩
    rw [List.cons_append, len, ← after, List.take_append_drop]
  · rintro ⟨rfl, two, most, allLetters⟩
    have bounds : 2 ≤ letters.length ∧ letters.length ≤ 24 := ⟨two, most⟩
    simpa [parseEntry, bounds] using allLetters

theorem positionsOk_iff {letters ps : List Nat} (one : 1 ≤ letters.length) :
    positionsOk letters.length ps = true ↔ positionsWithin letters ps := by
  simp only [positionsOk, positionsWithin, Bool.and_eq_true, decide_eq_true_eq, List.all_eq_true, Nat.le_sub_one_iff_lt one,
    Nat.succ_le_iff]

/-! ### Position sets and words in order (R73, R75) -/

theorem mem_insertPosition_iff {p q : Nat} {l : List Nat} : q ∈ insertPosition p l ↔ q = p ∨ q ∈ l := by
  induction l with
  | nil => exact List.mem_cons
  | cons r l ih =>
    unfold insertPosition
    split
    · exact List.mem_cons
    · split
      · next same => simp [same]
      · rw [List.mem_cons, ih, List.mem_cons, or_left_comm]

/-- A position set has the positions it is made from. -/
theorem mem_positionSet_iff {q : Nat} {l : List Nat} : q ∈ positionSet l ↔ q ∈ l := by
  induction l with
  | nil => rfl
  | cons p l ih => rw [List.mem_cons, ← ih]; exact mem_insertPosition_iff

/-- A new entry stands between two parts of the dictionary. -/
theorem insertEntry_between (e : ExceptionEntry) (d : List ExceptionEntry) :
    ∃ before after, d = before ++ after ∧ insertEntry e d = before ++ e :: after := by
  induction d with
  | nil => exact ⟨[], [], rfl, rfl⟩
  | cons f d ih =>
    unfold insertEntry
    split
    · exact ⟨[], f :: d, rfl, rfl⟩
    · obtain ⟨before, after, rfl, placed⟩ := ih
      exact ⟨f :: before, after, rfl, congrArg (f :: ·) placed⟩

/-! ### Adds and deletes of good form (R75 to R77) -/

/-- The entry an add gives (R75). -/
def newEntry (letters ps : List Nat) : ExceptionEntry := { word := letters.map fold, positions := positionSet ps }

/-- The Hyphenation Unit with this dictionary, one change on (R75, R77). -/
def Hyphenation.changed (h : Hyphenation) (dict : List ExceptionEntry) : Hyphenation :=
  { h with dict := dict, gen := (h.gen + 1) % 65536 }

section Heard
variable {s : State} {letters ps body : List Nat}

theorem any_word_iff {d : List ExceptionEntry} {w : List Nat} :
    d.any (fun f => f.word == w) = true ↔ ∃ f ∈ d, f.word = w := by
  simp only [List.any_eq_true, beq_iff_eq]

theorem any_word_absent {d : List ExceptionEntry} {w : List Nat} (absent : ∀ f ∈ d, f.word ≠ w) :
    d.any (fun f => f.word == w) = false := by
  simpa using absent

theorem hearAdd_good (laid : laidOut letters ps body) (within : positionsWithin letters ps) :
    hearAdd s body = addException s letters ps := by
  have one : 1 ≤ letters.length := Nat.le_of_succ_le laid.2.1
  simp only [hearAdd, parseEntry_iff.2 laid, (positionsOk_iff one).2 within, if_true]

theorem hearAdd_bad (bad : ∀ letters ps, laidOut letters ps body → ¬ positionsWithin letters ps) :
    hearAdd s body = countBad s := by
  unfold hearAdd
  split
  · next letters ps read =>
    have laid := parseEntry_iff.1 read
    exact if_neg (mt (positionsOk_iff (Nat.le_of_succ_le laid.2.1)).1 (bad letters ps laid))
  · rfl

theorem hearDelete_good (laid : laidOut letters ps body) : hearDelete s body = deleteException s letters := by
  simp only [hearDelete, parseEntry_iff.2 laid]

theorem hearDelete_bad (bad : ∀ letters ps, ¬ laidOut letters ps body) : hearDelete s body = countBad s := by
  unfold hearDelete
  split
  · next letters ps read => exact absurd (parseEntry_iff.1 read) (bad letters ps)
  · rfl

/-- An add of a word held replaces its entry in its place (R75). -/
theorem addException_held (held : ∃ f ∈ s.hyph.dict, f.word = letters.map fold) :
    (addException s letters ps).hyph =
      s.hyph.changed (s.hyph.dict.map (fun f => if f.word = letters.map fold then newEntry letters ps else f)) := by
  simp only [addException, if_pos (any_word_iff.2 held), beq_iff_eq]
  rfl

/-- An add of a new word, with room for it, inserts its entry (R75). -/
theorem addException_new (new : ∀ f ∈ s.hyph.dict, f.word ≠ letters.map fold) (room : s.hyph.dict.length < 512) :
    (addException s letters ps).hyph = s.hyph.changed (insertEntry (newEntry letters ps) s.hyph.dict) := by
  have less : s.hyph.dict.length < Config.dictEntries := room
  simp only [addException, any_word_absent new, Bool.false_eq_true, if_false, if_pos less]
  rfl

/-- An add of a new word to a full dictionary is refused, in HALT without a notice (R76). -/
theorem addException_full (new : ∀ f ∈ s.hyph.dict, f.word ≠ letters.map fold) (full : 512 ≤ s.hyph.dict.length) :
    addException s letters ps =
      if s.stop.station = .halt then s else produce s none (.dictFull (letters.map fold)) := by
  have notLess : ¬ s.hyph.dict.length < Config.dictEntries := Nat.not_lt.2 full
  simp only [addException, any_word_absent new, Bool.false_eq_true, if_false, if_neg notLess]

/-- A delete of a word held leaves the other entries (R77). -/
theorem deleteException_held (held : ∃ f ∈ s.hyph.dict, f.word = letters.map fold) :
    (deleteException s letters).hyph =
      s.hyph.changed (s.hyph.dict.filter (fun f => f.word ≠ letters.map fold)) := by
  simp only [deleteException, if_pos (any_word_iff.2 held)]
  rfl

/-- A delete of an absent word changes nothing (R77). -/
theorem deleteException_absent (absent : ∀ f ∈ s.hyph.dict, f.word ≠ letters.map fold) :
    deleteException s letters = s := by
  simp only [deleteException, any_word_absent absent, Bool.false_eq_true, if_false]

/-- One entry of a word that no other has is all that is taken out. -/
theorem filter_word_between {before after : List ExceptionEntry} {e : ExceptionEntry} {w : List Nat} (he : e.word = w)
    (others : ∀ f ∈ before ++ after, f.word ≠ w) :
    (before ++ e :: after).filter (fun f => f.word ≠ w) = before ++ after := by
  rw [List.filter_append, List.filter_cons_of_neg (by simpa using he), ← List.filter_append, List.filter_eq_self]
  simpa using others

/-- A notice for which there is room is queued (R171, R206). -/
theorem produce_with_room (room : hasRoom s) (key : Option Key) (b : NoticeBody) :
    produce s key b = { s with line := { s.line with queue := insertFrame (.notice key b) s.line.queue } } := by
  obtain ⟨unmuted, free⟩ := room
  have notFull : ¬ Config.queueFrames ≤ s.line.queue.length + s.line.waiting.length := Nat.not_le.2 free
  simp [produce, unmuted, LineInterface.full, notFull]

/-- A frame heard whole acts on a state with the dictionary as it was, whoever sent it (R167 to R169). -/
theorem receive_taken {h : Header} (hears : s.hears = true) (act : State → State) :
    ∃ u, Still u s ∧ receive s h true true act = act u := by
  refine ⟨if h.sender = s.number then becomeMuted (heard s) else heard s, ?_, by simp [receive, hears, heard]⟩
  exact ite_still (becomeMuted_still (heard s)) ⟨rfl, rfl, rfl, rfl⟩

/-- The answer to a frame heard whole has the Hyphenation Unit that its action gives. -/
theorem receive_answers_hyph {h : Header} {ok : Bool} {y : Hyphenation} {act : State → State} (hears : s.hears = true)
    (whole : ok = true) (acts : ∀ u, u.hyph = s.hyph → (act u).hyph = y) :
    ∃ t, done (receive s h ok true act) = .next t ∧ t.hyph = y := by
  obtain ⟨u, still, acted⟩ := receive_taken (h := h) hears act
  refine ⟨_, rfl, ?_⟩
  rw [whole, acted, (settle_still (act u)).2.2.1]
  exact acts u still.2.2.1

end Heard

/-- Settles O48: the add acts on the dictionary as it stands, by whether its word is there. -/
theorem exceptionAddReplacesOrInserts : Obligations.ExceptionAddReplacesOrInserts := by
  intro h letters ps s body w e hears ok two most allLetters fewer inside sorted
  have good (u : State) : hearAdd u body = addException u letters ps :=
    hearAdd_good ⟨rfl, two, most, allLetters⟩ ⟨fewer, inside⟩
  refine ⟨fun _ => mem_positionSet_iff, positionSet_ascending ps, fun held => ?replaced, fun new room => ?inserted⟩
  case replaced =>
    refine receive_answers_hyph hears ok fun u same => ?_
    rw [good, ← same]
    exact addException_held (same.symm ▸ held)
  case inserted =>
    obtain ⟨before, after, split, placed⟩ := insertEntry_between e s.hyph.dict
    have inserts (u : State) (same : u.hyph = s.hyph) :
        (hearAdd u body).hyph = s.hyph.changed (insertEntry e s.hyph.dict) := by
      rw [good, ← same]
      exact addException_new (same.symm ▸ new) (same.symm ▸ room)
    obtain ⟨t, answers, hyph⟩ := receive_answers_hyph (act := (hearAdd · body)) hears ok inserts
    refine ⟨t, before, after, answers, split, placed ▸ hyph, ?_⟩
    rw [hyph]
    exact (insertEntry_sorted e s.hyph.dict sorted new).1

/-- Settles O49: a full dictionary refuses a new word, and bad form is counted before the dictionary is looked at. -/
theorem exceptionAddRefused : Obligations.ExceptionAddRefused := by
  intro h s laid within counted
  have add {body : List Nat} {u : State} (received : Received h (.exceptionAdd h body) s) (e : hearAdd (heard s) body = u) :
      exec (.exceptionAdd h body) s = .next (settle u) :=
    answers_effect ((receive_received received _).trans e)
  refine ⟨fun letters ps body received form inside full new => ?full, fun body received bad => ?badAdd,
    fun body received bad => ?badDelete⟩
  case full =>
    have refused := (hearAdd_good form inside).trans (addException_full (s := heard s) new full)
    refine ⟨fun running room => add received (refused.trans ?_), fun halted => add received (refused.trans (if_pos halted))⟩
    exact (if_neg running).trans (produce_with_room (s := heard s) room none _)
  case badAdd => exact add received (hearAdd_bad bad)
  case badDelete => exact answers_effect ((receive_received received _).trans (hearDelete_bad bad))

/-- Settles O50: the delete takes its word's entry out, or leaves the dictionary as it is. -/
theorem exceptionDeleteRemoves : Obligations.ExceptionDeleteRemoves := by
  intro h letters ps s body w hears ok two most allLetters
  have good (u : State) : hearDelete u body = deleteException u letters := hearDelete_good ⟨rfl, two, most, allLetters⟩
  refine ⟨fun before e after dict he others => ?removed, fun absent => ⟨?unchanged, fun other => ?nothing⟩⟩
  case removed =>
    refine receive_answers_hyph hears ok fun u same => ?_
    have held : ∃ f ∈ u.hyph.dict, f.word = w := ⟨e, by simp [same, dict], he⟩
    rw [good, deleteException_held held, same, dict, filter_word_between he others]
    rfl
  case unchanged =>
    refine receive_answers_hyph hears ok fun u same => ?_
    rw [good, deleteException_absent (same.symm ▸ absent), same]
  case nothing =>
    exact answers_effect ((receive_received ⟨hears, ok, other⟩ _).trans
      ((good (heard s)).trans (deleteException_absent absent)))

end Sys2Proof.Machine
end

section
/-! PROOFS. The Proof Port: how proof lines and headers are rendered and sent (R87 to R92), and what paper-out does to a proof
(R88, R93, R94). -/

namespace Sys2Proof.Machine

/-! ### Rendering (R87, R90 to R92) -/

/-- The column is blank. -/
def blankColumn (c : Nat) : Bool := c == 0x20

theorem sendable_eq (columns : List Nat) :
    sendable columns = (columns.reverse.dropWhile blankColumn).reverse ++ [0x0D, 0x0A] := rfl

/-- The blank columns a line begins with. -/
theorem takeWhile_blankColumn (columns : List Nat) :
    columns.takeWhile blankColumn = List.replicate (columns.takeWhile blankColumn).length 0x20 :=
  List.eq_replicate_iff.2 ⟨rfl, fun c hc => beq_iff_eq.1 (List.all_eq_true.1 List.all_takeWhile c hc)⟩

/-- A line is sent to its last column that is not blank (R87). -/
theorem sendable_trims (columns : List Nat) : ∃ (sent : List Nat) (blanks : Nat), sendable columns = sent ++ [0x0D, 0x0A] ∧
    columns = sent ++ List.replicate blanks 0x20 ∧ sent.getLast? ≠ some 0x20 := by
  refine ⟨_, (columns.reverse.takeWhile blankColumn).length, sendable_eq columns, ?_, fun last => ?_⟩
  · have ends := congrArg List.reverse (List.takeWhile_append_dropWhile (p := blankColumn) (l := columns.reverse))
    rw [List.reverse_append, List.reverse_reverse, takeWhile_blankColumn, List.reverse_replicate] at ends
    exact ends.symm
  · have marked := List.head?_dropWhile_not blankColumn columns.reverse
    rw [List.getLast?_reverse] at last
    rw [last] at marked
    exact absurd marked (by decide)

/-- A line whose last column is not blank is sent whole (R87). -/
theorem sendable_whole (columns : List Nat) {c : Nat} (marked : c ≠ 0x20) :
    sendable (columns ++ [c]) = columns ++ [c] ++ [0x0D, 0x0A] := by
  have last : ¬ blankColumn c = true := fun blank => marked (beq_iff_eq.1 blank)
  rw [sendable_eq, List.reverse_concat, List.dropWhile_cons_of_neg last, ← List.reverse_concat, List.reverse_reverse]

/-- The decimal digits, the highest first (R92). -/
theorem digits_eq (columns n : Nat) :
    digits columns n = (List.range columns).map (fun i => 0x30 + n / 10 ^ (columns - 1 - i) % 10) := by
  induction columns generalizing n with
  | zero => rfl
  | succ k ih =>
    have higher : ∀ i ∈ List.range k, 0x30 + n / 10 / 10 ^ (k - 1 - i) % 10 = 0x30 + n / 10 ^ (k + 1 - 1 - i) % 10 := by
      intro i hi
      have place : k + 1 - 1 - i = k - 1 - i + 1 := by have := List.mem_range.1 hi; omega
      rw [place, Nat.pow_succ', Nat.div_div_eq_div_mul]
    rw [digits, ih, List.range_succ, List.map_append, List.map_congr_left higher]
    simp

/-- A column of the line number, blank where only columns to its right hold digits (R90). -/
def numberColumn (n i : Nat) : Nat :=
  let d := n / 10 ^ (3 - i)
  if d = 0 ∧ i < 3 then 0x20 else 0x30 + d % 10

/-- The number's last four digits, those before its first digit blank (R90). -/
theorem lineNumberColumns_eq (n : Nat) : lineNumberColumns n = (List.range 4).map (numberColumn n) := by
  have four : (List.range 4).map (numberColumn n) =
      [numberColumn n 0, numberColumn n 1, numberColumn n 2, numberColumn n 3] := rfl
  rw [four]
  unfold lineNumberColumns digitCount
  by_cases one : n < 10
  · have less : n < 100 ∧ n < 1000 ∧ n ≤ 9999 := by omega
    simp [numberColumn, digits, one, less]
  by_cases two : n < 100
  · have less : n < 1000 ∧ n ≤ 9999 := by omega
    simp [numberColumn, digits, one, two, less]
  by_cases three : n < 1000
  · have less : n ≤ 9999 := by omega
    simp [numberColumn, digits, one, two, three, less]
    omega
  by_cases whole : n ≤ 9999 <;> simp [numberColumn, digits, one, two, three, whole] <;> omega

/-- The letter of a flag stands before those of the flags after it (R90). -/
theorem filterMap_letter (b : Bool) (c : Nat) (flags : List (Bool × Nat)) :
    ((b, c) :: flags).filterMap (fun p => if p.1 = true then some p.2 else none) =
      letter b c ++ flags.filterMap (fun p => if p.1 = true then some p.2 else none) := by
  cases b <;> rfl

/-- A space is printed as a space (R91). -/
theorem renderItems_space {i : LineItem} (h : i.code = 0x20) (font : Nat) (l : List LineItem) :
    renderItems font (i :: l) = 0x20 :: renderItems font l := if_pos h

/-- A character box is printed after its font mark (R91). -/
theorem renderItems_character {i : LineItem} (h : i.code ≠ 0x20) (font : Nat) (l : List LineItem) :
    renderItems font (i :: l) = (if i.font = font then [] else [0x5E]) ++
      (if i.absent = true then 0x3F else if i.code ≤ 0x7E then i.code else 0x2A) :: renderItems i.font l := by
  rw [renderItems, if_neg h, List.append_assoc, List.singleton_append]

/-- A header ends in its class, a digit, and so is sent whole (R92). -/
theorem renderHeader_eq (k : HeaderKind) (x : Take) (station : Nat) :
    renderHeader k x station = [0x54, 0x41, 0x4B, 0x45, 0x20] ++ digits 2 x.key.origin ++ [0x2D] ++ digits 5 x.key.number ++
      [0x20] ++ k.name ++ [0x20, 0x53, 0x54, 0x4E, 0x20] ++ digits 2 station ++
      [0x20, 0x43, 0x4C, 0x41, 0x53, 0x53, 0x20] ++ digits 1 x.cls ++ [0x0D, 0x0A] :=
  sendable_whole _ (c := 0x30 + x.cls % 10) (by omega)

/-! ### Sending (R87, R89) -/

/-- The port may take a line or begin a character (R89). -/
def portOpen (s : State) : Prop :=
  s.stop.station ≠ .start ∧ s.stop.station ≠ .halt ∧ s.pins.paper = true ∧ s.proof.stall = false

/-- `portOpen` is the test that the port makes. -/
theorem printing_iff {s : State} : s.printing = true ↔ portOpen s := by
  simp [State.printing, State.paperOut, portOpen, and_assoc]

theorem passKind_eq (s : State) : s.passKind = s.pass.elim .film (fun p => p.kind) := by
  unfold State.passKind
  cases s.pass <;> rfl

section Sending
variable {s : State}

/-- What keeps the port from taking a line (R89). -/
theorem takeLine_none (h : ¬ portOpen s ∨ s.proof.segs ≠ [] ∨ s.proof.inFlight.isSome = true ∨
    (∀ r ∈ s.store.records, r.proofPending = false) ∨ s.active? = none) : takeLine s = none := by
  unfold takeLine
  split
  · next hopen hsegs hidle hfind hact =>
    rcases h with closed | unsent | flight | clear | idle
    · exact absurd (printing_iff.1 hopen) closed
    · exact absurd hsegs unsent
    · simp [hidle] at flight
    · have due := List.find?_some hfind
      simp [clear _ (List.mem_of_find?_eq_some hfind)] at due
    · simp [hact] at idle
  · rfl

/-- The idle port takes the first record with proof-pending set (R89, R87). -/
theorem takeLine_first {a b : List LineRecord} {r : LineRecord} {x : Take} (may : portOpen s) (hsegs : s.proof.segs = [])
    (idle : s.proof.inFlight = none) (hr : s.store.records = a ++ r :: b) (clear : ∀ y ∈ a, y.proofPending = false)
    (pending : r.proofPending = true) (ha : s.active? = some x) :
    takeLine s = some
      { s with proof := { s.proof with
        segs := (if s.proof.lineOpen = true then [{ kind := .close, chars := [0x0D, 0x0A] }] else []) ++
          (s.store.marker.map (fun k => ({ kind := .header, chars := renderHeader k x s.number } : ProofSeg))).toList ++
          [{ kind := .line r.number, chars := renderLine (x.fonts.headD 0) r }]
        kind := s.pass.elim .film (fun p => p.kind), attached := true } } := by
  have first : s.store.records.find? (fun r => r.proofPending) = some r :=
    hr ▸ List.find?_eq_some_iff_append.2 ⟨pending, a, b, rfl, fun y hy => by simp [clear y hy]⟩
  unfold takeLine
  rw [printing_iff.2 may, hsegs, idle, first, ha]
  cases s.store.marker <;> simp [passKind_eq]

/-- What keeps the port from beginning a character (R87). -/
theorem beginChar_none (h : ¬ portOpen s ∨ s.pins.busy = true ∨ s.proof.inFlight.isSome = true ∨ s.proof.segs = []) :
    beginChar s = none := by
  unfold beginChar
  split
  · next hopen hidle hsegs =>
    obtain ⟨may, free⟩ := Bool.and_eq_true_iff.1 hopen
    rcases h with closed | busy | flight | empty
    · exact absurd (printing_iff.1 may) closed
    · simp [busy] at free
    · simp [hidle] at flight
    · simp [hsegs] at empty
  · rfl

/-- The port begins the next character, which ends its run where it is the last of it (R87, Log 34). -/
theorem beginChar_next {k : SegKind} {c : Nat} {cs : List Nat} {rest : List ProofSeg} (may : portOpen s)
    (free : s.pins.busy = false) (idle : s.proof.inFlight = none)
    (hsegs : s.proof.segs = { kind := k, chars := c :: cs } :: rest) :
    beginChar s = some
      { s with proof := { s.proof with
        inFlight := some { char := c, ends := if cs = [] then some k else none }
        segs := if cs = [] then rest else { kind := k, chars := cs } :: rest
        lineOpen := s.proof.lineOpen || decide (k ≠ .close) } } := by
  unfold beginChar
  rw [printing_iff.2 may, free, idle, hsegs]
  cases cs <;> simp

/-- A character's bits, between its start bit and its stop bit (R87). -/
theorem serialFrame_bits (c : Nat) : (serialFrame c).length = 10 ∧ (serialFrame c)[0]? = some .start ∧
    (serialFrame c)[9]? = some .stop ∧ ∀ i, i < 8 → (serialFrame c)[i + 1]? = some (.data (c.testBit i)) := by
  refine ⟨by simp [serialFrame], by simp [serialFrame], by simp [serialFrame], fun i hi => ?_⟩
  have bit : (c / 2 ^ i % 2 == 1) = c.testBit i := by rw [Nat.testBit_eq_decide_div_mod_eq]; rfl
  simp [serialFrame, ← bit, List.getElem?_append_left, hi]

/-- The end of a character inside a run (R87). -/
theorem charSent_inside {c : Nat} (h : s.proof.inFlight = some { char := c, ends := none }) :
    charSent s = { s with proof := { s.proof with inFlight := none } } := by
  simp [charSent, h]

/-- The end of what closes a line cut short (R87, R89). -/
theorem charSent_close {c : Nat} (h : s.proof.inFlight = some { char := c, ends := some .close }) :
    charSent s = { s with proof := { s.proof with inFlight := none, lineOpen := false } } := by
  simp [charSent, h]

/-- The event of a character sent is due where none of a header or line ends (Log 4). -/
theorem charSent_not_due (h : ∀ f, s.proof.inFlight = some f → f.ends ≠ none ∧ f.ends ≠ some .close) : charSent s = s := by
  unfold charSent
  split
  · next e => exact absurd rfl (h _ e).1
  · next e => exact absurd rfl (h _ e).2
  · rfl

/-- The end of a header (R92). -/
theorem lineSent_header {c : Nat} (h : s.proof.inFlight = some { char := c, ends := some .header }) :
    lineSent s = { s with
      proof := { s.proof with inFlight := none, lineOpen := false }
      store := { s.store with marker := if s.proof.attached then none else s.store.marker } } := by
  simp only [lineSent, h]
  split <;> rfl

/-- The end of a proof line (R89, R82). -/
theorem lineSent_line {c n : Nat} (h : s.proof.inFlight = some { char := c, ends := some (.line n) }) :
    lineSent s = { s with
      proof := { s.proof with inFlight := none, lineOpen := false, attached := false }
      store := { s.store with records := s.store.records.map (fun r =>
        if r.number = n ∧ s.proof.attached = true then { r with proofPending := false } else r) } } := by
  simp only [lineSent, h]
  cases attached : s.proof.attached <;> simp [clearProof]

/-- The event of a line sent is due where a header or a line ends (Log 4). -/
theorem lineSent_not_due (h : ∀ f, s.proof.inFlight = some f → f.ends = none ∨ f.ends = some .close) : lineSent s = s := by
  unfold lineSent
  split
  · next e => rcases h _ e with e | e <;> cases e
  · next e => rcases h _ e with e | e <;> cases e
  · rfl

end Sending

/-! ### Paper out (R88, R93, R94) -/

section Paper
variable {s : State}

theorem paperOut_eq_false (paper : s.pins.paper = true) (released : s.proof.stall = false) : s.paperOut = false := by
  simp [State.paperOut, paper, released]

/-- By the command `c` the paper is gone, or BUSY has stalled, with neither so before: `u` is the state with the new input
(R88). -/
def paperGone (s : State) (c : Instr) (u : State) : Prop :=
  s.pins.paper = true ∧ s.proof.stall = false ∧
    ((c = .paper false ∧ u = { s with pins := { s.pins with paper := false } }) ∨
     (c = .busyStall ∧ s.pins.busy = true ∧ s.proof.segs ≠ [] ∧ u = { s with proof := { s.proof with stall := true } }))

/-- The condition begins on the state with the new input (R88). -/
theorem exec_paperGone {c : Instr} {u : State} (gone : paperGone s c u) : exec c s = .next (settle (paperBegins u)) := by
  obtain ⟨paper, released, ⟨rfl, rfl⟩ | ⟨rfl, busy, waits, rfl⟩⟩ := gone
  · refine answers_effect ?_
    unfold setPaper paperChange
    rw [paperOut_eq_false paper released]
    rfl
  · refine answers_effect ?_
    unfold busyStall paperChange
    rw [if_pos ⟨busy, waits⟩, paperOut_eq_false paper released]
    simp [State.paperOut]

/-- The input that begins the condition changes the pins or the stall alone (R88). -/
theorem paperGone_same {c : Instr} {u : State} (gone : paperGone s c u) :
    ∃ pins port, u = { s with pins := pins, proof := port } ∧ port.kind = s.proof.kind ∧ port.inFlight = s.proof.inFlight := by
  obtain ⟨-, -, ⟨-, rfl⟩ | ⟨-, -, -, rfl⟩⟩ := gone <;> exact ⟨_, _, rfl, rfl, rfl⟩

theorem noticePass_eq {p : Pass} {x : Take} (hp : s.pass = some p) (ha : s.active? = some x) :
    s.noticePass = some (headerKind p.kind x) := by
  simp [State.noticePass, hp, ha]

theorem activeKey_eq {x : Take} (ha : s.active? = some x) : s.activeKey = some x.key := congrArg (Option.map _) ha

/-- With no pass in progress paper-out is only told (R88). -/
theorem paperBegins_no_pass (room : hasRoom s) (hp : s.pass = none) (ha : s.active? = none) (kind : s.proof.kind = .proof) :
    paperBegins s =
      { s with line := { s.line with queue := insertFrame (.notice none (.proofPaper none false)) s.line.queue } } := by
  have key : s.activeKey = none := congrArg (Option.map _) ha
  have pass : s.noticePass = none := by simp [State.noticePass, hp]
  simp only [paperBegins, key, pass, produce_with_room room, kind, hp, reduceCtorEq, if_false]

/-- In a PROOF pass the paper timer starts (R94). -/
theorem paperBegins_proof {p : Pass} {x : Take} (room : hasRoom s) (hp : s.pass = some p) (pass : p.kind = .proof)
    (ha : s.active? = some x) (kind : s.proof.kind = .proof) :
    paperBegins s =
      { s with
        proof := { s.proof with paperTimer := true }
        line := { s.line with
          queue := insertFrame (.notice (some x.key) (.proofPaper (some (if x.reproof then .reproof else .proof)) false))
            s.line.queue } } := by
  simp only [paperBegins, activeKey_eq ha, noticePass_eq hp ha, produce_with_room room, kind, hp, pass, headerKind,
    reduceCtorEq, if_false]

/-- What the port has not sent of a FILM pass is discarded (R89, Log 34); a line of a PROOF pass it goes on with (Log 46). -/
def filmUnsent (p : ProofPort) : ProofPort :=
  if p.kind = .film then { p with segs := [], lineOpen := p.lineOpen || !p.segs.isEmpty } else p

/-- In a FILM pass paper-out drops the take's proof (R93). -/
theorem paperBegins_film {p : Pass} {x : Take} (room : hasRoom s) (hp : s.pass = some p) (pass : p.kind = .film)
    (ha : s.active? = some x) :
    paperBegins s = dropProof
      { s with
        proof := filmUnsent s.proof
        line := { s.line with
          queue := insertFrame (.notice (some x.key) (.proofPaper (some (if x.context.isSome then .resumed else .film)) false))
            s.line.queue } } := by
  by_cases kind : s.proof.kind = .film <;>
    simp only [paperBegins, activeKey_eq ha, noticePass_eq hp ha, produce_with_room room, kind, hp, pass, headerKind,
      filmUnsent, if_true, if_false]

/-- The proof state of a take whose proof is dropped: partial from the lowest line dropped, or else from the next line of the
context (R93). -/
def droppedState (s : State) (p : ProofState) : ProofState :=
  match s.store.records.filter (fun r => r.proofPending) with
  | r :: lost => (r :: lost).foldl (fun p r => p.without r.number) p
  | [] => s.comp.ctx.elim p (fun l => p.without l.nextLine)

/-- Two changes of the ACTIVE take's record are one. -/
theorem map_active_map (takes : List Take) (f g : Take → Take) (keeps : ∀ y, (f y).state = y.state) :
    (takes.map (fun y => if y.state == .active then f y else y)).map (fun y => if y.state == .active then g y else y) =
      takes.map (fun y => if y.state == .active then g (f y) else y) := by
  rw [List.map_map]
  refine List.map_congr_left fun y _ => ?_
  by_cases active : y.state = .active <;> simp [active, keeps]

/-- `map_active_map` for the state with the take. -/
theorem modActive_modActive (s : State) (f g : Take → Take) (keeps : ∀ y, (f y).state = y.state) :
    (s.modActive f).modActive g = s.modActive (fun y => g (f y)) :=
  congrArg (fun l => { s with takes := l }) (map_active_map s.takes f g keeps)

/-- All that a proof dropped changes (R93). -/
theorem dropProof_eq (s : State) : dropProof s =
    { s with
      store := { s.store with records := s.store.records.map (fun r => { r with proofPending := false }) }
      takes := s.takes.map (fun y => if y.state == .active then
        { y with proofDropped := true, proofState := droppedState s y.proofState } else y) } := by
  unfold dropProof droppedState
  cases s.store.records.filter (fun r => r.proofPending) with
  | cons r lost => exact modActive_modActive _ _ _ fun _ => rfl
  | nil =>
    cases s.comp.ctx with
    | some l => exact modActive_modActive _ _ _ fun _ => rfl
    | none => rfl

/-- Changing take records without their states keeps the one that is ACTIVE. -/
theorem active_of_takes_map {u : State} {x : Take} {f : Take → Take} (keeps : ∀ y, (f y).state = y.state)
    (takes : u.takes = s.takes.map f) (ha : s.active? = some x) : u.active? = some (f x) := by
  have same : (fun y : Take => y.state == .active) ∘ f = fun y => y.state == .active := by
    funext y
    simp [keeps]
  rw [State.active?, takes, List.find?_map, same]
  exact congrArg (Option.map f) ha

/-- Lines lost one after another leave a partial proof partial from the lowest of them all (R86). -/
theorem foldl_without_lowest (lost : List LineRecord) (m : Nat) :
    ∃ n, lost.foldl (fun p r => p.without r.number) (ProofState.partialFrom m) = .partialFrom n ∧
      (n = m ∨ ∃ r ∈ lost, r.number = n) ∧ n ≤ m ∧ ∀ r ∈ lost, n ≤ r.number := by
  induction lost generalizing m with
  | nil => exact ⟨m, rfl, .inl rfl, Nat.le_refl m, fun r hr => absurd hr List.not_mem_nil⟩
  | cons r lost ih =>
    obtain ⟨n, fold, stands, le, least⟩ := ih (min m r.number)
    have le_m : n ≤ m := Nat.le_trans le (Nat.min_le_left ..)
    have le_r : n ≤ r.number := Nat.le_trans le (Nat.min_le_right ..)
    refine ⟨n, fold, ?_, le_m, List.forall_mem_cons.2 ⟨le_r, least⟩⟩
    rcases stands with lowest | ⟨x, hx, num⟩
    · rcases Nat.le_total m r.number with first | later
      · exact .inl (lowest.trans (Nat.min_eq_left first))
      · exact .inr ⟨r, List.mem_cons_self, (lowest.trans (Nat.min_eq_right later)).symm⟩
    · exact .inr ⟨x, List.mem_cons_of_mem r hx, num⟩

/-- A complete proof with lines pending is partial from the lowest of them (R93). -/
theorem droppedState_pending (pending : s.store.records.any (fun r => r.proofPending) = true) :
    ∃ n, droppedState s .complete = .partialFrom n ∧ (∃ r ∈ s.store.records, r.proofPending = true ∧ r.number = n) ∧
      ∀ r ∈ s.store.records, r.proofPending = true → n ≤ r.number := by
  have lines (r : LineRecord) :
      r ∈ s.store.records.filter (fun r => r.proofPending) ↔ r ∈ s.store.records ∧ r.proofPending = true := List.mem_filter
  unfold droppedState
  cases hl : s.store.records.filter (fun r => r.proofPending) with
  | nil =>
    obtain ⟨r, hr, due⟩ := List.any_eq_true.1 pending
    exact absurd ((lines r).2 ⟨hr, due⟩) (by simp [hl])
  | cons r lost =>
    obtain ⟨n, fold, stands, le, least⟩ := foldl_without_lowest lost r.number
    rw [hl] at lines
    refine ⟨n, fold, ?_, fun y hy due => ?_⟩
    · rcases stands with rfl | ⟨y, hy, num⟩
      · obtain ⟨stored, due⟩ := (lines r).1 List.mem_cons_self
        exact ⟨r, stored, due, rfl⟩
      · obtain ⟨stored, due⟩ := (lines y).1 (List.mem_cons_of_mem r hy)
        exact ⟨y, stored, due, num⟩
    · rcases List.mem_cons.1 ((lines y).2 ⟨hy, due⟩) with rfl | later
      · exact le
      · exact least y later

/-- A complete proof with no line pending is partial from the next line (R93). -/
theorem droppedState_none_pending {l : Context} (clear : s.store.records.any (fun r => r.proofPending) = false)
    (hl : s.comp.ctx = some l) : droppedState s .complete = .partialFrom l.nextLine := by
  have noLine : s.store.records.filter (fun r => r.proofPending) = [] := by simpa using clear
  simp [droppedState, noLine, hl, ProofState.without]

/-! ### The condition's end, and the end of the paper timer (R88, R94, R98) -/

/-- A PROOF pass cut short leaves the ACTIVE take without a proof (R98). -/
theorem cutProofPass_takes (s : State) : (cutProofPass s).takes =
    s.takes.map (fun y => if y.state == .active then { y with proofState := .none, startValues := none } else y) :=
  map_active_map s.takes _ _ fun _ => rfl

/-- Of a PROOF pass cut short the port discards what it has not sent (R85, R89). -/
theorem cutProofPass_port (s : State) : (cutProofPass s).proof =
    { s.proof with
      paperTimer := false, attached := false, segs := if s.proof.kind = .proof then [] else s.proof.segs
      lineOpen := s.proof.lineOpen || (decide (s.proof.kind = .proof) && !s.proof.segs.isEmpty) } := by
  show { (if s.proof.kind = .film then { s.proof with attached := false }
    else { s.proof with segs := [], attached := false, lineOpen := s.proof.lineOpen || !s.proof.segs.isEmpty } : ProofPort)
      with paperTimer := false } = _
  cases s.proof.kind <;> simp

theorem toQueued_awake (awake : s.stop.station ≠ .standby) (k : Key) : toQueued s k = s.modTake k Take.queued := if_neg awake

/-- The paper timer, where it runs, abandons the PROOF pass (R94). -/
theorem abandonPass_due {x : Take} (runs : s.proof.paperTimer = true) (ha : s.active? = some x)
    (awake : s.stop.station ≠ .standby) :
    abandonPass s =
      { produce (cutProofPass s) (some x.key) (.proofPaper (some (headerKind .proof x)) true) with
        pass := none }.modTake x.key Take.queued := by
  unfold abandonPass
  rw [runs, ha]
  exact toQueued_awake (by rw [produce_line]; exact awake) x.key

/-- The take of a PROOF pass abandoned is QUEUED without a proof (R94, R98). -/
theorem abandonPass_takes {x : Take} (runs : s.proof.paperTimer = true) (ha : s.active? = some x)
    (alone : ∀ y ∈ s.takes, y.key = x.key ∨ y.state = .active → y = x) (awake : s.stop.station ≠ .standby) :
    (abandonPass s).takes = s.takes.map (fun y => if y.key = x.key then
      { y with
        proofState := .none, startValues := none, state := .queued, parkReason := none
        timer := if 0 < y.cls then some .aging else none } else y) := by
  rw [abandonPass_due runs ha awake, modTake_takes, produce_line]
  show List.map _ (cutProofPass s).takes = _
  rw [cutProofPass_takes, List.map_map]
  refine List.map_congr_left fun y hy => ?_
  by_cases same : y.key = x.key
  · obtain rfl := alone y hy (.inl same)
    simp [(active_some ha).2, Take.queued]
  · have rests : y.state ≠ .active := fun active => same (congrArg Take.key (alone y hy (.inr active)))
    simp [rests, same]

theorem abandonPass_not_due (h : s.proof.paperTimer = false ∨ s.active? = none) : abandonPass s = s := by
  unfold abandonPass
  split
  · next runs ha =>
    rcases h with off | idle
    · cases runs.symm.trans off
    · cases ha.symm.trans idle
  · rfl

/-- The condition ends when neither cause holds (R88, R94). -/
theorem paperChange_ends {u : State} (out : s.paperOut = true) (paper : u.pins.paper = true)
    (released : u.proof.stall = false) : paperChange s u = { u with proof := { u.proof with paperTimer := false } } := by
  rw [paperChange, out, paperOut_eq_false paper released]
  rfl

/-- Inputs that leave the condition away have no further effect (R88). -/
theorem paperChange_away {u : State} (before : s.paperOut = false) (paper : u.pins.paper = true)
    (released : u.proof.stall = false) : paperChange s u = u := by
  rw [paperChange, before, paperOut_eq_false paper released]

theorem setPaper_ends (paper : s.pins.paper = false) (released : s.proof.stall = false) :
    setPaper s true = { s with pins := { s.pins with paper := true }, proof := { s.proof with paperTimer := false } } := by
  have out : s.paperOut = true := by simp [State.paperOut, paper]
  exact paperChange_ends out rfl released

theorem setPaper_same (paper : s.pins.paper = true) (released : s.proof.stall = false) : setPaper s true = s := by
  rw [setPaper, paperChange_away (paperOut_eq_false paper released) (by rfl) (by exact released), ← paper]

theorem setBusy_away (paper : s.pins.paper = true) (released : s.proof.stall = false) (b : Bool) :
    setBusy s b = { s with pins := { s.pins with busy := b } } := by
  have noStall : (s.proof.stall && b) = false := by rw [released, Bool.false_and]
  rw [setBusy, noStall, paperChange_away (paperOut_eq_false paper released) (by exact paper) (by rfl), ← released]

theorem setBusy_ends_stall (paper : s.pins.paper = true) (stalled : s.proof.stall = true) :
    setBusy s false =
      { s with pins := { s.pins with busy := false }, proof := { s.proof with stall := false, paperTimer := false } } := by
  have out : s.paperOut = true := by simp [State.paperOut, stalled]
  have noStall : (s.proof.stall && false) = false := Bool.and_false _
  rw [setBusy, noStall, paperChange_ends out (by exact paper) (by rfl)]

theorem busyStall_not_due (h : s.pins.busy = false ∨ s.proof.segs = []) : busyStall s = s :=
  if_neg fun ⟨busy, waits⟩ => h.elim (fun free => by simp [free] at busy) waits

/-- What paper-out in a FILM pass does to the state with the new input (R88, R93). -/
theorem film_paperOut {u : State} {p : Pass} {x : Take} (room : hasRoom u) (hp : u.pass = some p) (pass : p.kind = .film)
    (ha : u.active? = some x) :
    let t := paperBegins u
    t.store = { u.store with records := u.store.records.map (fun r => { r with proofPending := false }) } ∧
    t.proof = filmUnsent u.proof ∧ t.film = u.film ∧ t.exp = u.exp ∧
    t.takes = u.takes.map (fun y => if y.state == .active then
      { y with proofDropped := true, proofState := droppedState u y.proofState } else y) ∧
    noticed t (some x.key) (.proofPaper (some (if x.context.isSome then .resumed else .film)) false) := by
  intro t
  rw [show t = _ from (paperBegins_film room hp pass ha).trans (dropProof_eq _)]
  exact ⟨rfl, rfl, rfl, rfl, rfl, mem_insertFrame _ _⟩

end Paper

/-- Settles O60: the port's two reactions, what is printed, the events of the printer, and paper-out, each by its own lemmas. -/
theorem proofIsSentHeldOrDropped : Obligations.ProofIsSentHeldOrDropped := by
  refine ⟨⟨by simp [reactions], by simp [reactions], fun s => ⟨takeLine_none, fun a b r x => takeLine_first, beginChar_none,
      fun k c cs rest => beginChar_next⟩⟩,
    ⟨fun first r => ?line, fun font i l => ?text, fun k x station => ?header⟩,
    fun s => ⟨fun c h => ?inside, fun c h => ?close, fun c h => ?headerEnds, fun c n h => ?lineEnds, fun h => ?idle,
      serialFrame_bits⟩,
    fun s => ⟨fun c u gone room hp ha kind => ?noPass, fun c u p x gone room hp pass ha kind => ?proofPass,
      fun c u p x gone room hp pass ha => ?filmPass, fun paper released => answers_effect (setPaper_ends paper released),
      fun b paper released => ⟨answers_effect (setPaper_same paper released), answers_effect (setBusy_away paper released b)⟩,
      fun paper stalled => answers_effect (setBusy_ends_stall paper stalled), fun h => answers_effect (busyStall_not_due h),
      fun x runs ha alone room awake => ?timer, fun h => answers_effect (abandonPass_not_due h)⟩⟩
  case line =>
    intro letters number text columns
    have printed : renderLine first r = sendable columns := by
      have flags : flagColumns r.flags = letters ++ List.replicate (5 - letters.length) 0x20 := by
        simp only [letters, filterMap_letter, List.filterMap_nil, List.append_nil, flagColumns, List.append_assoc]
      rw [renderLine, flags, lineNumberColumns_eq]
      rfl
    exact printed ▸ sendable_trims columns
  case text => exact ⟨rfl, fun h => renderItems_space h font l, fun h => renderItems_character h font l⟩
  case header =>
    rw [renderHeader_eq]
    simp only [digits_eq]
    cases k <;> rfl
  case inside => exact ⟨answers_effect (charSent_inside h), answers_effect (lineSent_not_due (by simp [h]))⟩
  case close => exact ⟨answers_effect (charSent_close h), answers_effect (lineSent_not_due (by simp [h]))⟩
  case headerEnds => exact ⟨answers_effect (lineSent_header h), answers_effect (charSent_not_due (by simp [h]))⟩
  case lineEnds => exact ⟨answers_effect (lineSent_line h), answers_effect (charSent_not_due (by simp [h]))⟩
  case idle => exact ⟨answers_effect (lineSent_not_due (by simp [h])), answers_effect (charSent_not_due (by simp [h]))⟩
  case noPass =>
    obtain ⟨pins, port, rfl, portKind, -⟩ := paperGone_same gone
    rw [exec_paperGone gone, paperBegins_no_pass (s := { s with pins := pins, proof := port }) room hp ha (portKind.trans kind)]
  case proofPass =>
    obtain ⟨pins, port, rfl, portKind, -⟩ := paperGone_same gone
    rw [exec_paperGone gone,
      paperBegins_proof (s := { s with pins := pins, proof := port }) room hp pass ha (portKind.trans kind)]
  case filmPass =>
    obtain ⟨pins, port, rfl, portKind, flight⟩ := paperGone_same gone
    obtain ⟨store, sent, film, exp, takes, told⟩ := film_paperOut (u := { s with pins := pins, proof := port }) room hp pass ha
    have active := active_of_takes_map (fun y => by split <;> rfl) takes ha
    rw [if_pos (by simp [(active_some ha).2])] at active
    refine ⟨_, exec_paperGone gone, store, fun kind => ?_, film, exp, fun y hy ofActive => ?_, told, fun whole =>
      ⟨fun pending => ?_, fun l clear hl => ⟨_, active, ?_⟩⟩⟩
    · rw [sent, filmUnsent, if_pos (portKind.trans kind)]
      exact ⟨rfl, flight⟩
    · rw [takes] at hy
      obtain ⟨z, -, rfl⟩ := List.mem_map.1 hy
      by_cases was : z.state = .active
      · simp [was]
      · simp [was] at ofActive
    · obtain ⟨n, state, lowest⟩ := droppedState_pending (s := { s with pins := pins, proof := port }) pending
      exact ⟨_, n, active, (congrArg _ whole).trans state, lowest⟩
    · exact (congrArg _ whole).trans (droppedState_none_pending clear hl)
  case timer =>
    refine ⟨_, rfl, ?_, ?_, ?_, ?_, abandonPass_takes runs ha alone awake, ?_⟩
    all_goals rw [abandonPass_due runs ha awake]
    · rfl
    · rw [produce_line]; rfl
    · rw [produce_line]; rfl
    · rw [produce_line]; exact cutProofPass_port s
    · exact produce_noticed (s := cutProofPass s) room _ _

end Sys2Proof.Machine
end

section
/-! PROOFS. The CUT key (R140), and what the cassette and take-up doors do to the open galley, the film count and the manifest
(R128, R129, R136, R138, R139, R146, R148). -/

namespace Sys2Proof.Machine

/-! ### The CUT key (R140, R203) -/

section CutKey
variable {s : State}

theorem exec_cutKey (awake : s.stop.station ≠ .standby) : exec .cutKey s = .next (settle (cutKey s)) :=
  congrArg (fun u => done (cutKey u)) (if_neg awake)

/-- A cut that has a galley to close, or none to wait for, waits its turn (R130, R134). -/
theorem askCut_waits {c : CutRequest} (h : s.film.galley.isSome = true ∨ c.asker = .blank) :
    askCut s c = { s with film := { s.film with waiting := s.film.waiting ++ [.cut c] } } := by
  refine if_neg fun ⟨noGalley, ofGalley⟩ => ?_
  rcases h with galley | blank
  · simp [Option.isNone_iff_eq_none.1 noGalley] at galley
  · exact ofGalley blank

/-- Where CUT is ignored (R140). -/
theorem cutKey_ignored (h : s.cutPending = true ∨ (s.stop.station = .run ∧ s.film.galley.isSome = true) ∨
    (s.stop.station = .hold ∧ s.exp.cur.isSome = true) ∨ (s.stop.station ≠ .run ∧ s.stop.station ≠ .hold)) :
    cutKey s = s := by
  unfold cutKey
  split
  · rfl
  · next free =>
    rcases h with pending | ⟨runs, galley⟩ | ⟨holds, busy⟩ | ⟨notRun, notHold⟩
    · exact absurd pending free
    · simp [runs, Option.isNone_eq_false_iff.2 galley]
    · simp [holds, busy]
    · split
      · next runs => exact absurd runs notRun
      · next holds => exact absurd holds notHold
      · rfl

/-- In RUN with no galley open, and in HOLD with no line in exposure, CUT asks for the open galley's cut or a blank one
(R140). -/
theorem cutKey_asks (free : s.cutPending = false)
    (h : (s.stop.station = .run ∧ s.film.galley = none) ∨ (s.stop.station = .hold ∧ s.exp.cur = none)) :
    cutKey s = { s with film := { s.film with waiting := s.film.waiting ++
      [.cut { asker := if s.film.galley.isSome then .operator else .blank, spoiled := none }] } } := by
  unfold cutKey
  rw [if_neg (by simp [free])]
  rcases h with ⟨runs, noGalley⟩ | ⟨holds, noLine⟩
  · simp [runs, noGalley, askCut_waits]
  · cases galley : s.film.galley <;> simp [holds, noLine, galley, askCut_waits]

end CutKey

/-- Settles O22: in each state of the station CUT asks for its cut or is ignored. -/
theorem cutKeyAsksForACut : Obligations.CutKeyAsksForACut := by
  intro s
  refine ⟨fun free runs noGalley => ?run, fun free runs galley => ?runGalley, fun free holds noLine => ?hold,
    fun holds line => ?holdLine, fun other awake => ?ignored⟩
  case run =>
    rw [exec_cutKey (by simp [runs]), cutKey_asks free (.inl ⟨runs, noGalley⟩), noGalley]
    rfl
  case runGalley => rw [exec_cutKey (by simp [runs]), cutKey_ignored (.inr (.inl ⟨runs, galley⟩))]
  case hold => rw [exec_cutKey (by simp [holds]), cutKey_asks free (.inr ⟨holds, noLine⟩)]
  case holdLine => rw [exec_cutKey (by simp [holds]), cutKey_ignored (.inr (.inr (.inl ⟨holds, line⟩)))]
  case ignored =>
    rw [exec_cutKey awake, cutKey_ignored]
    rcases other with pending | st | st | st | st
    · exact .inl pending
    all_goals exact .inr (.inr (.inr (by simp [st])))

/-! ### A stop raised for the first unexposed line (R143, R144) -/

section Stops
variable {s : State} {x : Take} {r : LineRecord}

theorem unexposedContext_first (first : s.firstUnexposed = some r) : unexposedContext s = some r.start := by
  simp [unexposedContext, first]

theorem nextStopCount_below {line : Nat} (few : ∀ n, x.lineStop = some (line, n) → n ≤ 1) : nextStopCount x line < 3 := by
  unfold nextStopCount
  split
  · next l n stops =>
    split
    · next same => exact Nat.lt_succ_of_le (Nat.succ_le_succ (few n (same ▸ stops)))
    · decide
  · decide

theorem nextStopCount_third {line n : Nat} (stops : x.lineStop = some (line, n)) (two : 2 ≤ n) :
    3 ≤ nextStopCount x line := by
  simp only [nextStopCount, stops, if_true]
  omega

/-- A stop recorded is told where there is room (R143, R206). -/
theorem recordStop_noticed (room : hasRoom s) {line : Nat} (few : nextStopCount x line < 3) (kind : StopKind)
    (font : Option Nat) (door : Option Door) (toHold : Bool) :
    noticed (recordStop s x (some line) kind font door toHold) (some x.key) (stopNotice kind line font door) := by
  rw [recordStop_below s x line kind font door toHold few]
  exact produce_noticed (by exact cancelWindows_hasRoom s WindowFor.isClaim room) _ _

/-- Two stops on a line at most are recorded and told, and leave the doors, the film and the exposure alone. -/
theorem raiseStop_recorded (may : mayStop s x r) (kind : StopKind) (font : Option Nat) (door : Option Door) :
    let t := raiseStop s kind font door
    stopRecorded s t kind x r font door ∧ t.pins = s.pins ∧ t.film = s.film ∧ t.exp = s.exp ∧
      (hasRoom s → noticed t (some x.key) (stopNotice kind r.start.nextLine font door)) := by
  obtain ⟨may, clear, noPark, act, first, few⟩ := may
  have below := nextStopCount_below few
  rw [raiseStop_taken may clear noPark act, unexposedContext_first first]
  refine ⟨?_, ?_, ?_, ?_, fun room => recordStop_noticed room below kind font door _⟩
  all_goals rw [Option.map_some, recordStop_below s x _ kind font door _ below, produce_line]
  · exact ⟨rfl, rfl, rfl, rfl⟩
  all_goals rfl

/-- The third stop on a line only parks its take. -/
theorem raiseStop_parks (third : thirdStopOn s x r) (kind : StopKind) (font : Option Nat) (door : Option Door) :
    raiseStop s kind font door =
      { s with
        takes := stopCounted s x r.start.nextLine, pass := s.pass.map (passParked (thirdReason kind font)) } := by
  obtain ⟨may, clear, noPark, act, first, n, stops, two⟩ := third
  rw [raiseStop_taken may clear noPark act, unexposedContext_first first]
  refine (recordStop_third s x _ kind font door _ (nextStopCount_third stops two) noPark).trans ?_
  rw [← clear]

theorem raiseStop_pending (pending : s.stop.record.isSome = true) (kind : StopKind) (font : Option Nat) (door : Option Door) :
    raiseStop s kind font door = s :=
  if_neg fun ⟨_, clear, _⟩ => by simp [clear] at pending

end Stops

/-! ### Stops cleared (R148) -/

section Clear
variable {s : State} {x : Take} {r : StopRecord}

/-- The station leaves STOPPED for RUN or HOLD; a return to RUN may stir the Compositor and takes STRANDED (R36, R195). -/
theorem leaveStopped_eq (s : State) (r : StopRecord) : ∃ comp takes, leaveStopped s r =
    { s with
      stop := { s.stop with station := if r.toHold = true ∧ r.kind ≠ .door then .hold else .run, record := none }
      comp := comp, takes := takes } := by
  unfold leaveStopped
  split
  · exact ⟨s.comp, s.takes, rfl⟩
  · exact ⟨_, _, rfl⟩

/-- A stop's record leaves the film alone. -/
theorem recordStop_film (s : State) (x : Take) (line : Option Nat) (kind : StopKind) (font : Option Nat) (door : Option Door)
    (toHold : Bool) : (recordStop s x line kind font door toHold).film = s.film := by
  unfold recordStop
  dsimp only
  split
  · cases line <;> rfl
  · split <;> (rw [produce_line]; cases line <;> rfl)

theorem clearStop_film (s : State) : (clearStop s).film = s.film := by
  have leaves (r : StopRecord) : (leaveStopped s r).film = s.film := by
    obtain ⟨comp, takes, e⟩ := leaveStopped_eq s r
    rw [e]
  unfold clearStop
  split
  · split
    · rfl
    · split
      · split
        · split
          · exact (recordStop_film ..).trans (leaves _)
          · exact recordStop_film ..
        · exact leaves _
      · exact leaves _
  · rfl

/-- With the take-up door closed, no galley open, no take ACTIVE or a park in progress, nothing takes a cleared stop's
place. -/
theorem clearStop_leaves (stopped : s.stop.station = .stopped) (hr : s.stop.record = some r)
    (free : s.pins.takeupOpen = false ∨ s.film.galley = none ∨ s.active? = none ∨ s.parking = true) :
    clearStop s = leaveStopped s r := by
  unfold clearStop
  rw [hr]
  simp only [stopped, ne_eq, not_true, if_false]
  split
  · next held =>
    obtain ⟨doorOpen, galley, noPark⟩ := held
    rcases free with shut | noGalley | idle | parks
    · simp [shut] at doorOpen
    · simp [noGalley] at galley
    · rw [idle]
    · simp [parks] at noPark
  · rfl

/-- A stop so cleared, not a DOOR stop, returns the station to RUN or HOLD, as its record has it (R148). -/
theorem clearStop_stop (stopped : s.stop.station = .stopped) (hr : s.stop.record = some r) (notDoor : r.kind ≠ .door)
    (free : s.pins.takeupOpen = false ∨ s.film.galley = none ∨ s.active? = none ∨ s.parking = true) :
    (clearStop s).stop = { s.stop with station := if r.toHold then .hold else .run, record := none } := by
  obtain ⟨comp, takes, left⟩ := leaveStopped_eq s r
  rw [clearStop_leaves stopped hr free, left]
  simp [notDoor]

theorem stopCounted_lineStop (s : State) (x : Take) (line : Nat) :
    ∀ y ∈ stopCounted s x line, y.key = x.key → y.lineStop = some (line, nextStopCount x line) := by
  intro y hy same
  obtain ⟨z, -, rfl⟩ := List.mem_map.1 hy
  by_cases ofTake : z.key = x.key
  · simp [ofTake]
  · simp [ofTake] at same

/-- The take-up door, open over a galley, has its DOOR stop take the cleared one's place (R148, step 2). -/
theorem clearStop_replaces {k : Context} (stopped : s.stop.station = .stopped) (hr : s.stop.record = some r)
    (doorOpen : s.pins.takeupOpen = true) (galley : s.film.galley.isSome = true) (act : s.active? = some x)
    (noPark : ∀ p, s.pass = some p → p.park = none) (context : unexposedContext s = some k) :
    takeupReplaces s (clearStop s) r x k.nextLine := by
  have line : s.stopLine = some k.nextLine := by rw [State.stopLine, storeAnswer_unexposed, context]; rfl
  have cleared : clearStop s = if 3 ≤ nextStopCount x k.nextLine then
      recordStop (leaveStopped s r) x (some k.nextLine) .door none (some .takeup) r.toHold
    else recordStop { s with stop := { s.stop with record := none } } x (some k.nextLine) .door none (some .takeup) r.toHold := by
    simp only [clearStop, hr, stopped, doorOpen, galley, parking_eq_false noPark, act, line, stopCount_line, ne_eq, not_true,
      and_self, if_true, if_false]
  rw [cleared]
  split
  · next third =>
    obtain ⟨comp, takes, left⟩ := leaveStopped_eq s r
    rw [left, recordStop_third _ x k.nextLine _ _ _ _ third (by exact noPark)]
    exact ⟨stopCounted_lineStop _ x _, fun few => absurd third (Nat.not_le.2 few), fun _ => ⟨rfl, rfl, rfl⟩⟩
  · next few =>
    have below := Nat.not_le.1 few
    refine ⟨?_, fun _ => ⟨?_, ?_, fun room => recordStop_noticed (by exact room) below .door none (some .takeup) _⟩,
      fun third => absurd third few⟩
    all_goals rw [recordStop_below _ x k.nextLine _ _ _ _ below, produce_line]
    · exact stopCounted_lineStop s x _
    · show ({ s.stop with station := .stopped, record := _ } : StopControl) = _
      rw [← stopped]
      rfl
    · rfl

theorem stopIs_iff (s : State) (kind : StopKind) : s.stopIs kind = true ↔ ∃ r, s.stop.record = some r ∧ r.kind = kind := by
  simp [State.stopIs, Option.any_eq_true]

theorem stopIs_eq_false {kind : StopKind} (other : ∀ r, s.stop.record = some r → r.kind ≠ kind) : s.stopIs kind = false :=
  Bool.eq_false_iff.2 fun stands => by
    obtain ⟨r, hr, same⟩ := (stopIs_iff s kind).1 stands
    exact other r hr same

end Clear

/-! ### The doors' edges (R116, R136, R138) -/

section Doors
variable {s : State} {c : Exposure} {g : Galley}

/-- The doors' inputs changed, and nothing else. -/
def cassetteOpened (s : State) : State := { s with pins := { s.pins with cassetteOpen := true } }
def takeupOpened (s : State) : State := { s with pins := { s.pins with takeupOpen := true } }
def takeupShut (s : State) : State := { s with pins := { s.pins with takeupOpen := false } }

theorem lineMoving_iff : s.lineMoving = true ↔
    ∃ c, s.exp.cur = some c ∧ (s.exp.phase = .advancing ∨ s.exp.phase = .scanning) := by
  simp [State.lineMoving, Option.isSome_iff_exists]

theorem lineMoving_eq_false (rests : s.exp.cur = none ∨ (s.exp.phase ≠ .advancing ∧ s.exp.phase ≠ .scanning)) :
    s.lineMoving = false := by
  rcases rests with noLine | ⟨notAdvancing, notScanning⟩
  · simp [State.lineMoving, noLine]
  · simp [State.lineMoving, notAdvancing, notScanning]

/-- A cut of the open galley is in progress. -/
theorem cuts_iff (t : Transport) : t.cuts = true ↔ ∃ k, (t = .trailing k ∨ t = .cutting k) ∧ k.asker ≠ .blank := by
  cases t <;> simp [Transport.cuts]

theorem cuts_eq_false {t : Transport} (blank : ∀ k, t = .trailing k ∨ t = .cutting k → k.asker = .blank) : t.cuts = false :=
  Bool.eq_false_iff.2 fun cuts => by
    obtain ⟨k, cutting, ofGalley⟩ := (cuts_iff t).1 cuts
    exact ofGalley (blank k cutting)

/-- The line in exposure is halted by the door, if by none before, and its advance still waiting is withdrawn (R116). -/
def lineHalted (s : State) (c : Exposure) (door : Door) : State :=
  { s with
    exp := { s.exp with cur := some { c with halt := some (c.halt.getD door) } }
    film := { s.film with waiting := s.film.waiting.filter (fun q => !q.isAdvance) } }

/-- Of the requests that wait, the cuts are left. -/
theorem lineHalted_film {cuts : FilmRequest → Bool} (others : ∀ q, cuts q = !q.isAdvance) {door : Door} :
    (lineHalted s c door).film = { s.film with waiting := s.film.waiting.filter cuts } := by
  rw [funext others]
  rfl

theorem haltLine_moving (hc : s.exp.cur = some c) (moving : s.exp.phase = .advancing ∨ s.exp.phase = .scanning) (door : Door) :
    haltLine s door = raiseStop (lineHalted s c door) .door none (some door) := by
  rw [haltLine, if_pos (lineMoving_iff.2 ⟨c, hc, moving⟩)]
  simp only [modCur, modExp, hc, Option.map_some, lineHalted]

theorem modCur_exp (s : State) (f : Exposure → Exposure) :
    (modCur s f).exp = { s.exp with cur := s.exp.cur.map f } := rfl

/-- A line halted before, with no advance waiting, is as it was. -/
theorem lineHalted_again (hc : s.exp.cur = some c) (halted : c.halt.isSome = true)
    (noAdvance : ∀ l n, .advance l n ∉ s.film.waiting) (door : Door) : lineHalted s c door = s := by
  have line : ({ c with halt := some (c.halt.getD door) } : Exposure) = c := by
    obtain ⟨d, hd⟩ := Option.isSome_iff_exists.1 halted
    rw [hd, Option.getD_some, ← hd]
  have waiting : s.film.waiting.filter (fun q => !q.isAdvance) = s.film.waiting := by
    refine List.filter_eq_self.2 fun q hq => ?_
    cases q with
    | advance l n => exact absurd hq (noAdvance l n)
    | cut => rfl
  rw [lineHalted, line, waiting, ← hc]

/-- All that closing the open galley changes (R133, R134, R137). -/
theorem closeGalley_open (hg : s.film.galley = some g) (mark : GalleyFlags → GalleyFlags) : closeGalley s mark =
    { s with
      film := { s.film with
        galley := none, nextSeq := s.film.nextSeq.map (fun _ => min 65535 (g.seq + 1))
        manifest := s.film.manifest ++ [{ g with flags := mark g.flags }] }
      exp := { s.exp with mark := none }
      takes := s.takes.map (fun x => if x.key == g.key then
        { x with counters := { x.counters with
          galleys := min 65535 (x.counters.galleys + 1), filmUsed := min 16777215 (x.counters.filmUsed + g.length) } }
        else x) } := by
  rw [closeGalley, hg]
  rfl

theorem cassetteDoorOpen_again (opened : s.pins.cassetteOpen = true) : cassetteDoorOpen s = s := if_pos opened

/-- The cassette door's opening edge (R136, Log 26). -/
theorem cassetteDoorOpen_edge (shut : s.pins.cassetteOpen = false) : cassetteDoorOpen s =
    if s.film.galley.isNone then cassetteOpened s
    else if s.lineMoving then
      modCur (haltLine (cassetteOpened s) .cassette) (fun c => { c with closeGalley := c.closeGalley || !s.film.transport.cuts })
    else if s.film.transport.cuts then cassetteOpened s
    else
      modCur (closeGalley (cassetteOpened s) (fun f => { f with continuedTo := true }))
        (fun c => { c with checked := false }) :=
  if_neg (by simp [shut])

theorem cassetteDoorOpen_no_galley (shut : s.pins.cassetteOpen = false) (noGalley : s.film.galley = none) :
    cassetteDoorOpen s = cassetteOpened s := by
  simp [cassetteDoorOpen_edge shut, noGalley]

/-- A moving line is halted, and closes the galley as it ends, unless a cut does (R136, Log 26). -/
theorem cassetteDoorOpen_halts (shut : s.pins.cassetteOpen = false) (hg : s.film.galley = some g) (hc : s.exp.cur = some c)
    (moving : s.exp.phase = .advancing ∨ s.exp.phase = .scanning) : cassetteDoorOpen s =
      modCur (raiseStop (lineHalted (cassetteOpened s) c .cassette) .door none (some .cassette))
        (fun c => { c with closeGalley := c.closeGalley || !s.film.transport.cuts }) := by
  rw [← haltLine_moving (s := cassetteOpened s) hc moving]
  simp [cassetteDoorOpen_edge shut, hg, lineMoving_iff.2 ⟨c, hc, moving⟩]

/-- A cut in progress has the galley's closing left to it (Log 26). -/
theorem cassetteDoorOpen_cutting (shut : s.pins.cassetteOpen = false) (hg : s.film.galley = some g)
    (rests : s.lineMoving = false) (cutting : s.film.transport.cuts = true) : cassetteDoorOpen s = cassetteOpened s := by
  simp [cassetteDoorOpen_edge shut, hg, rests, cutting]

/-- The galley closes at once (R136), and a line in CHECKING takes its checks again (R111). -/
theorem cassetteDoorOpen_closes (shut : s.pins.cassetteOpen = false) (hg : s.film.galley = some g)
    (rests : s.lineMoving = false) (noCut : s.film.transport.cuts = false) : cassetteDoorOpen s =
      modCur (closeGalley (cassetteOpened s) (fun f => { f with continuedTo := true }))
        (fun c => { c with checked := false }) := by
  simp [cassetteDoorOpen_edge shut, hg, rests, noCut]

theorem takeupDoorOpen_again (opened : s.pins.takeupOpen = true) : takeupDoorOpen s = s := if_pos opened

/-- The take-up door's opening edge (R138). -/
theorem takeupDoorOpen_edge (shut : s.pins.takeupOpen = false) : takeupDoorOpen s =
    if s.film.galley.isNone then { takeupOpened s with film := { s.film with removal := true } }
    else if s.lineMoving then haltLine (takeupOpened s) .takeup
    else raiseStop (takeupOpened s) .door none (some .takeup) :=
  if_neg (by simp [shut])

theorem takeupDoorOpen_removal (shut : s.pins.takeupOpen = false) (noGalley : s.film.galley = none) :
    takeupDoorOpen s = { takeupOpened s with film := { s.film with removal := true } } := by
  simp [takeupDoorOpen_edge shut, noGalley]

theorem takeupDoorOpen_stops (shut : s.pins.takeupOpen = false) (galley : s.film.galley.isSome = true)
    (rests : s.lineMoving = false) : takeupDoorOpen s = raiseStop (takeupOpened s) .door none (some .takeup) := by
  simp [takeupDoorOpen_edge shut, Option.isNone_eq_false_iff.2 galley, rests]

/-- Over an open galley the door raises a DOOR stop, which halts a moving line (R116, R138). -/
theorem takeupDoorOpen_halts (shut : s.pins.takeupOpen = false) (galley : s.film.galley.isSome = true)
    (hc : s.exp.cur = some c) (moving : s.exp.phase = .advancing ∨ s.exp.phase = .scanning) :
    takeupDoorOpen s = raiseStop (lineHalted (takeupOpened s) c .takeup) .door none (some .takeup) := by
  rw [← haltLine_moving (s := takeupOpened s) hc moving]
  simp [takeupDoorOpen_edge shut, Option.isNone_eq_false_iff.2 galley, lineMoving_iff.2 ⟨c, hc, moving⟩]

/-- The third DOOR stop of a line parks the take, whether or not the door halts a line (R138, R144). -/
theorem takeupDoorOpen_parks {x : Take} {r : LineRecord} (shut : s.pins.takeupOpen = false)
    (galley : s.film.galley.isSome = true) (third : thirdStopOn s x r) :
    (takeupDoorOpen s).pins = { s.pins with takeupOpen := true } ∧ stopParks s (takeupDoorOpen s) .door x r none := by
  cases moves : s.lineMoving with
  | false =>
    rw [takeupDoorOpen_stops shut galley moves, raiseStop_parks (s := takeupOpened s) third]
    exact ⟨rfl, rfl, rfl, rfl, rfl⟩
  | true =>
    obtain ⟨c, hc, moving⟩ := lineMoving_iff.1 moves
    rw [takeupDoorOpen_halts shut galley hc moving, raiseStop_parks (s := lineHalted (takeupOpened s) c .takeup) third]
    exact ⟨rfl, rfl, rfl, rfl, rfl⟩

end Doors

/-! ### Film loaded (R128, R129, R139) -/

section Load
variable {s : State}

theorem cassetteSteps_eq (code : Fin 4) : cassetteSteps code =
    if code = 0 then 0 else if code = 1 then 850000 else if code = 2 then 1275000 else 1700000 := by
  revert code
  decide

theorem setFilm_high {n : Nat} (high : 57000 ≤ n) (known : Bool) :
    setFilm s n known = { s with film := { s.film with remaining := n, known := known } } := by
  rw [setFilm, Config.lowFilm, if_neg fun ⟨low, _⟩ => absurd low (Nat.not_lt.2 high)]

/-- A count left low, and not told before, gives its notice (R129). -/
theorem setFilm_low {n : Nat} (low : n < 57000) (untold : s.film.lowNotified = false) (room : hasRoom s) (known : Bool) :
    setFilm s n known =
      { s with
        film := { s.film with remaining := n, known := known, lowNotified := true }
        line := { s.line with
          queue := insertFrame (.notice (s.active?.map (fun x => x.key)) (.filmLow n known)) s.line.queue } } := by
  rw [setFilm, Config.lowFilm, if_pos ⟨low, untold⟩]
  exact produce_with_room (by exact room) _ _

/-- A cassette that is not empty is above the low mark (R129). -/
theorem loadCassette_film {code : Fin 4} (film : code ≠ 0) : loadCassette s code =
    { s with film := { s.film with remaining := cassetteSteps code, known := true, lowNotified := false } } := by
  have high : ∀ code : Fin 4, code ≠ 0 → 57000 ≤ cassetteSteps code := by decide
  exact setFilm_high (high code film) true

/-- An empty cassette gives its FILM-LOW notice (R129). -/
theorem loadCassette_empty (room : hasRoom s) : loadCassette s 0 =
    { s with
      film := { s.film with remaining := 0, known := true, lowNotified := true }
      line := { s.line with
        queue := insertFrame (.notice (s.active?.map (fun x => x.key)) (.filmLow 0 true)) s.line.queue } } :=
  setFilm_low (by decide) rfl (by exact room) true

theorem cassetteDoorClose_again (shut : s.pins.cassetteOpen = false) (code : Fin 4) : cassetteDoorClose s code = s := by
  simp [cassetteDoorClose, shut]

/-- With no FILM-OUT stop the load is all that is done. -/
theorem cassetteDoorClose_loads (opened : s.pins.cassetteOpen = true) {code : Fin 4}
    (noStop : code = 0 ∨ (∀ r, s.stop.record = some r → r.kind ≠ .filmOut)) : cassetteDoorClose s code =
      loadCassette { s with pins := { s.pins with cassetteOpen := false, cassette := code } } code := by
  rw [cassetteDoorClose, if_pos opened]
  refine if_neg fun ⟨film, filmOut⟩ => ?_
  rcases noStop with empty | other
  · exact film empty
  · rw [loadCassette_film film, stopIs_eq_false (by exact other)] at filmOut
    cases filmOut

/-- A FILM-OUT stop is cleared by a cassette that is not empty (R146). -/
theorem cassetteDoorClose_clears (opened : s.pins.cassetteOpen = true) {code : Fin 4} (film : code ≠ 0) {r : StopRecord}
    (hr : s.stop.record = some r) (filmOut : r.kind = .filmOut) : cassetteDoorClose s code = clearStop
      { s with
        pins := { s.pins with cassetteOpen := false, cassette := code }
        film := { s.film with remaining := cassetteSteps code, known := true, lowNotified := false } } := by
  rw [cassetteDoorClose, if_pos opened, loadCassette_film film]
  exact if_pos ⟨film, (stopIs_iff _ _).2 ⟨r, hr, filmOut⟩⟩

end Load

/-! ### The manifest (R138) -/

section Manifest
variable {s : State}

/-- The 16 records that notice `i`, from 0, carries, or the rest of them. -/
def manifestPart (l : List Galley) (i : Nat) : List Galley := (l.drop (16 * i)).take 16

/-- The MANIFEST notices of more than 16 records. -/
def manifestNotice (l : List Galley) (i : Nat) : NoticeBody := .manifest (i + 1) ((l.length + 15) / 16) (manifestPart l i)

theorem chunks_eq (fuel : Nat) (l : List Galley) (pos : 0 < l.length) (fits : l.length ≤ 16 * fuel) :
    chunks 16 fuel l = (List.range ((l.length + 15) / 16)).map (manifestPart l) := by
  induction fuel generalizing l with
  | zero => omega
  | succ fuel ih =>
    unfold chunks
    split
    · next short =>
      have one : (l.length + 15) / 16 = 1 := by omega
      simp [one, manifestPart, List.take_of_length_le short]
    · next long =>
      have more : (l.length + 15) / 16 = ((l.drop 16).length + 15) / 16 + 1 := by rw [List.length_drop]; omega
      rw [ih (l.drop 16) (by rw [List.length_drop]; omega) (by rw [List.length_drop]; omega), more,
        List.range_succ_eq_map, List.map_cons, List.map_map]
      refine congrArg (l.take 16 :: ·) (List.map_congr_left fun i _ => ?_)
      simp only [Function.comp_apply, manifestPart, List.drop_drop, Nat.mul_succ, Nat.add_comm]

/-- The notices of a manifest are its parts, each with its number. -/
theorem zipIdx_chunks (l : List Galley) (pos : 0 < l.length) (fits : l.length ≤ 128) :
    (chunks 16 8 l).zipIdx = (List.range ((l.length + 15) / 16)).map (fun i => (manifestPart l i, i)) := by
  rw [chunks_eq 8 l pos fits]
  refine List.ext_getElem (by simp) fun i _ _ => by simp

/-- A frame of the highest kind in the queue stands last in it (R170). -/
theorem insertFrame_last (f : TxFrame) (q : List TxEntry) (lower : ∀ e ∈ q, e.frame.kind ≤ f.kind) :
    insertFrame f q = q ++ [{ frame := f, begun := false }] := by
  induction q with
  | nil => rfl
  | cons e q ih =>
    obtain ⟨first, rest⟩ := List.forall_mem_cons.1 lower
    rw [insertFrame, if_pos (.inr first), ih rest, List.cons_append]

theorem kind_le_notice (f : TxFrame) (k : Option Key) (b : NoticeBody) : f.kind ≤ (TxFrame.notice k b).kind := by
  cases f <;> simp [TxFrame.kind]

/-- Notices produced one after another change the Line Interface alone. -/
theorem foldl_produce_line {α : Type} (body : α → NoticeBody) (l : List α) (s : State) :
    l.foldl (fun t a => produce t none (body a)) s =
      { s with line := (l.foldl (fun t a => produce t none (body a)) s).line } := by
  induction l generalizing s with
  | nil => rfl
  | cons a l ih =>
    rw [List.foldl_cons, ih, produce_line]

/-- Notices for which there is room stand in the queue in their order, behind what it held (R170, R171). -/
theorem foldl_produce_queue {α : Type} (body : α → NoticeBody) (l : List α) (s : State) (unmuted : s.line.mute = false)
    (room : s.line.queue.length + s.line.waiting.length + l.length ≤ 8) :
    (l.foldl (fun t a => produce t none (body a)) s).line.queue =
      s.line.queue ++ l.map (fun a => { frame := .notice none (body a), begun := false }) := by
  induction l generalizing s with
  | nil => simp
  | cons a l ih =>
    rw [List.length_cons] at room
    rw [List.foldl_cons, produce_with_room ⟨unmuted, by omega⟩, insertFrame_last _ _ fun e _ => kind_le_notice ..,
      ih _ (by exact unmuted) (by simp only [List.length_append, List.length_singleton]; omega)]
    simp

/-- The manifest is emptied and the removal ended, whatever becomes of its notices. -/
theorem produceManifest_line (s : State) : produceManifest s =
    { s with film := { s.film with manifest := [], removal := false }, line := (produceManifest s).line } := by
  unfold produceManifest
  dsimp only
  rw [foldl_produce_line]

/-- Up to 16 records go out in one notice. -/
theorem produceManifest_one (room : hasRoom s) (few : s.film.manifest.length ≤ 16) : produceManifest s =
    { s with
      film := { s.film with manifest := [], removal := false }
      line := { s.line with queue := insertFrame (.notice none (.manifest 1 1 s.film.manifest)) s.line.queue } } := by
  have one : chunks Config.manifestChunk 8 s.film.manifest = [s.film.manifest] := if_pos few
  simp [produceManifest, one, produce_with_room room]

/-- More records than 16 go out in as many notices as they need. -/
theorem produceManifest_queue (many : 16 < s.film.manifest.length) (most : s.film.manifest.length ≤ 64)
    (unmuted : s.line.mute = false) (empty : s.line.queue = []) (idle : s.line.waiting = []) :
    (produceManifest s).line.queue = (List.range ((s.film.manifest.length + 15) / 16)).map
      (fun i => { frame := .notice none (manifestNotice s.film.manifest i), begun := false }) := by
  have parts := zipIdx_chunks s.film.manifest (by omega) (by omega)
  have total : (chunks 16 8 s.film.manifest).length = (s.film.manifest.length + 15) / 16 := by
    rw [← List.length_zipIdx, parts, List.length_map, List.length_range]
  refine (foldl_produce_queue (fun p : List Galley × Nat => .manifest (p.2 + 1) (chunks 16 8 s.film.manifest).length p.1)
    (chunks 16 8 s.film.manifest).zipIdx s unmuted ?_).trans ?_
  · simp only [parts, List.length_map, List.length_range, empty, idle, List.length_nil]
    omega
  · rw [parts, total, empty, List.map_map]
    rfl

theorem takeupDoorClose_again (shut : s.pins.takeupOpen = false) : takeupDoorClose s = s := by
  simp [takeupDoorClose, shut]

theorem takeupDoorClose_no_removal (opened : s.pins.takeupOpen = true) (noRemoval : s.film.removal = false) :
    takeupDoorClose s = takeupShut s :=
  (if_pos opened).trans (if_neg (by simp [noRemoval]))

/-- After a removal the manifest is produced and a TAKEUP-FULL stop cleared (R138, R148). -/
theorem takeupDoorClose_removal (opened : s.pins.takeupOpen = true) (removal : s.film.removal = true) :
    takeupDoorClose s =
      if s.stopIs .takeupFull then clearStop (produceManifest (takeupShut s)) else produceManifest (takeupShut s) := by
  have same : (produceManifest (takeupShut s)).stopIs .takeupFull = s.stopIs .takeupFull := by
    rw [produceManifest_line]
    rfl
  rw [← same]
  exact (if_pos opened).trans (if_pos removal)

/-- With the take-up door shut a stop cleared leaves the film and the Line Interface alone. -/
theorem clearStop_shut (shut : s.pins.takeupOpen = false) : (clearStop s).film = s.film ∧ (clearStop s).line = s.line := by
  refine ⟨clearStop_film s, ?_⟩
  cases hr : s.stop.record with
  | none => simp [clearStop, hr]
  | some r =>
    by_cases stopped : s.stop.station = .stopped
    · obtain ⟨comp, takes, left⟩ := leaveStopped_eq s r
      rw [clearStop_leaves stopped hr (.inl shut), left]
    · simp [clearStop, hr, stopped]

/-- What the take-up door's closing after a removal leaves (R138). -/
theorem takeupDoorClose_film_line (opened : s.pins.takeupOpen = true) (removal : s.film.removal = true) :
    (takeupDoorClose s).film = { s.film with manifest := [], removal := false } ∧
      (takeupDoorClose s).line = (produceManifest (takeupShut s)).line := by
  obtain ⟨film, shut⟩ : (produceManifest (takeupShut s)).film = { s.film with manifest := [], removal := false } ∧
      (produceManifest (takeupShut s)).pins.takeupOpen = false := by
    rw [produceManifest_line]
    exact ⟨rfl, rfl⟩
  obtain ⟨keeps, same⟩ := clearStop_shut shut
  rw [takeupDoorClose_removal opened removal]
  split
  · exact ⟨keeps.trans film, same⟩
  · exact ⟨film, rfl⟩

end Manifest

/-- Settles O58: each edge of the two doors by the lemma of its case, the DOOR stops by what a stop raised does to the state. -/
theorem filmDoorsActOnGalleyAndManifest : Obligations.FilmDoorsActOnGalleyAndManifest := by
  refine ⟨fun s code => ⟨fun opened => answers_effect (cassetteDoorOpen_again opened),
      fun shut noGalley => answers_effect (cassetteDoorOpen_no_galley shut noGalley),
      fun g shut hg rests noCut => ?closes, fun g k shut hg rests cutting ofGalley => ?cutting,
      fun g c x r shut hg hc moving may room => ?halts, fun g c x r shut hg hc moving third => ?third,
      fun shut => answers_effect (cassetteDoorClose_again shut code), fun opened film noStop => ?loads,
      fun opened empty room => ?empty, fun r opened film stopped hr filmOut => ?clears⟩,
    fun s => ⟨fun opened => answers_effect (takeupDoorOpen_again opened),
      fun shut noGalley => answers_effect (takeupDoorOpen_removal shut noGalley),
      fun x r shut galley rests may room => ?takeupStops, fun c x r shut galley hc moving may room => ?takeupHalts,
      fun x r shut galley third => ?takeupThird, fun c shut galley hc halted moving pending noAdvance => ?takeupAgain,
      fun shut => answers_effect (takeupDoorClose_again shut),
      fun opened noRemoval => answers_effect (takeupDoorClose_no_removal opened noRemoval),
      fun opened removal few room noStop => ?oneNotice, fun opened removal many most unmuted noFrame idle => ?notices,
      fun r opened removal stopped hr full => ?takeupFull⟩⟩
  case closes =>
    have uncut : s.film.transport.cuts = false :=
      cuts_eq_false fun k cutting => (cutting.elim (noCut k).1 (noCut k).2).elim
    refine answers_effect ((cassetteDoorOpen_closes shut hg (lineMoving_eq_false rests) uncut).trans ?_)
    rw [closeGalley_open (by exact hg)]
    rfl
  case cutting =>
    have cuts := (cuts_iff s.film.transport).2 ⟨k, cutting, ofGalley⟩
    exact answers_effect (cassetteDoorOpen_cutting shut hg (lineMoving_eq_false rests) cuts)
  case halts =>
    obtain ⟨⟨station, record, takes, pass⟩, -, film, exp, told⟩ :=
      raiseStop_recorded (s := lineHalted (cassetteOpened s) c .cassette) may .door none (some .cassette)
    refine ⟨_, c.closeGalley || !s.film.transport.cuts, answers_effect (cassetteDoorOpen_halts shut hg hc moving), ?_, ?_, ?_,
      fun blank => ?_, fun k cutting ofGalley => ?_, ⟨station, record, takes, pass⟩, told room⟩
    · rw [modCur_film, film]
      exact hg
    · rw [modCur_film, film]
      rfl
    · rw [modCur_exp, exp]
      rfl
    · simp [cuts_eq_false blank]
    · simp [(cuts_iff _).2 ⟨k, cutting, ofGalley⟩]
  case third =>
    refine ⟨_, answers_effect (cassetteDoorOpen_halts shut hg hc moving), ?_⟩
    rw [raiseStop_parks (s := lineHalted (cassetteOpened s) c .cassette) third]
    exact ⟨hg, rfl, rfl, rfl, rfl⟩
  case loads =>
    refine answers_effect ((cassetteDoorClose_loads opened (.inr noStop)).trans ?_)
    rw [loadCassette_film film, cassetteSteps_eq]
  case empty =>
    subst empty
    exact answers_effect ((cassetteDoorClose_loads opened (.inl rfl)).trans (loadCassette_empty (by exact room)))
  case clears =>
    refine ⟨_, answers_effect (cassetteDoorClose_clears opened film hr filmOut), ?_, ?_, fun free => ?_,
      fun x k doorOpen galley act noPark context =>
        clearStop_replaces (by exact stopped) (by exact hr) doorOpen galley act noPark context⟩
    · rw [clearStop_film, cassetteSteps_eq]
    · rw [clearStop_film]
    · refine clearStop_stop (by exact stopped) (by exact hr) (by simp [filmOut]) ?_
      rcases free with shut | noGalley | noTake | ⟨p, hp, parks⟩
      · exact .inl shut
      · exact .inr (.inl noGalley)
      · exact .inr (.inr (.inl noTake))
      · exact .inr (.inr (.inr (by simpa [State.parking, hp] using parks)))
  case takeupStops =>
    obtain ⟨recorded, -, film, exp, told⟩ := raiseStop_recorded (s := takeupOpened s) may .door none (some .takeup)
    exact ⟨_, answers_effect (takeupDoorOpen_stops shut galley (lineMoving_eq_false rests)), film, exp, recorded, told room⟩
  case takeupHalts =>
    obtain ⟨recorded, pins, film, exp, told⟩ := raiseStop_recorded
      (s := lineHalted (takeupOpened s) c .takeup) may .door none (some .takeup)
    exact ⟨_, answers_effect (takeupDoorOpen_halts shut galley hc moving), pins, exp,
      film.trans (lineHalted_film fun q => by cases q <;> rfl), recorded, told room⟩
  case takeupThird => exact ⟨_, rfl, takeupDoorOpen_parks shut galley third⟩
  case takeupAgain =>
    refine answers_effect ((takeupDoorOpen_halts shut galley hc moving).trans ?_)
    rw [lineHalted_again (s := takeupOpened s) hc halted noAdvance]
    exact raiseStop_pending (s := takeupOpened s) pending ..
  case oneNotice =>
    refine answers_effect ((takeupDoorClose_removal opened removal).trans ?_)
    rw [stopIs_eq_false noStop, if_neg nofun]
    exact produceManifest_one (s := takeupShut s) room few
  case notices =>
    obtain ⟨film, line⟩ := takeupDoorClose_film_line opened removal
    refine ⟨_, rfl, film, ?_⟩
    rw [line]
    exact produceManifest_queue (s := takeupShut s) many most unmuted noFrame idle
  case takeupFull =>
    obtain ⟨film, -⟩ := takeupDoorClose_film_line opened removal
    refine ⟨_, rfl, film, ?_⟩
    rw [takeupDoorClose_removal opened removal, if_pos ((stopIs_iff _ _).2 ⟨r, hr, full⟩), produceManifest_line]
    exact clearStop_stop (r := r) (by exact stopped) (by exact hr) (by simp [full]) (.inl rfl)

end Sys2Proof.Machine
end

section
/-! PROOFS. Parks: where CLEAR and the timers of a stop ask for one (R145, R146, R152, R154), what the store answers (R84),
and how a park ends (R155 to R157). -/

namespace Sys2Proof.Machine

/-! ### A park asked for (R154) -/

section Ask
variable {s : State} {p : Pass}

/-- A pass that is neither killed, parked nor to be cut is parked for the reason given (R154). -/
theorem requestPark_begins (hp : s.pass = some p) (lives : p.killing = false) (noPark : p.park = none)
    (noCut : p.cutAsked = false) (reason : ParkReason) :
    requestPark s reason =
      { s with pass := some { p with park := some { reason := reason, answered := false, context := none } } } := by
  have noParks : ∀ p, s.pass = some p → p.park = none := by simp [hp, noPark]
  rw [requestPark_first noParks, hp]
  simp [passParked, lives, noCut]

/-- A park asked for a font leaves a park in progress as it is, its reason standing last of all; a take being killed, or whose
end cut has been asked for, is not parked (R154). -/
theorem requestPark_fontCall_joins {font : Nat} (busy : p.killing = true ∨ p.park.isSome = true ∨ p.cutAsked = true) :
    p.requestPark (.fontCall font) = p := by
  have last (r : ParkReason) : ¬ (ParkReason.fontCall font).rank < r.rank := by cases r <;> simp [ParkReason.rank]
  unfold Pass.requestPark
  split
  · rfl
  · next lives =>
    split
    · exact if_neg (last _)
    · next noPark =>
      rcases busy with killed | parks | cut
      · exact absurd killed lives
      · simp [noPark] at parks
      · exact if_pos cut

theorem requestPark_unchanged {reason : ParkReason} (h : ∀ p, s.pass = some p → p.requestPark reason = p) :
    requestPark s reason = s := by
  have same : s.pass.map (fun p => p.requestPark reason) = s.pass := by
    cases hp : s.pass with
    | none => rfl
    | some p => exact congrArg some (h p hp)
  exact congrArg (fun pass => { s with pass := pass }) same

end Ask

/-! ### The CLEAR key (R152, R145) -/

section ClearKey
variable {s : State}

theorem exec_clearKey (awake : s.stop.station ≠ .standby) : exec .clearKey s = .next (settle (clearKey s)) :=
  congrArg done (if_neg awake)

theorem clearKey_homes (fault : s.stop.station = .fault) (rests : s.stop.clearing = false) (idle : s.active? = none) :
    clearKey s = startHoming { s with stop := { s.stop with clearing := true } } := by
  simp [clearKey, fault, rests, idle]

theorem clearKey_stopped {r : StopRecord} (stopped : s.stop.station = .stopped) (hr : s.stop.record = some r) :
    clearKey s = if r.kind = .fontCall then requestPark s (.fontCall (r.font.getD 0)) else s := by
  simp only [clearKey, stopped, hr]

/-- Outside STOPPED, and in FAULT while CLEAR is homing or a take is ACTIVE, CLEAR is ignored (R152, Log 55). -/
theorem clearKey_ignored (elsewhere : s.stop.station ≠ .stopped)
    (fault : s.stop.station = .fault → s.stop.clearing = true ∨ s.active?.isSome = true) : clearKey s = s := by
  unfold clearKey
  split
  · next st => exact if_pos (fault st)
  · next st => exact absurd st elsewhere
  · rfl

end ClearKey

/-- Settles O21: CLEAR homes, asks for the font's park, or is ignored, by the station's state and its stop. -/
theorem clearKeyHomesOrParks : Obligations.ClearKeyHomesOrParks := by
  intro s
  refine ⟨fun fault rests idle => ?homes, fun r p f stopped hr call font hp lives noPark noCut => ?parks,
    fun r stopped hr why => ?stop, fun elsewhere => ?ignored⟩
  case homes =>
    refine ⟨_, (exec_clearKey (by simp [fault])).trans (by rw [clearKey_homes fault rests idle]), ?_⟩
    exact ⟨rfl, rfl, rfl, rfl, rfl, rfl, rfl, rfl⟩
  case parks =>
    rw [exec_clearKey (by simp [stopped]), clearKey_stopped stopped hr, if_pos call, font,
      requestPark_begins hp lives noPark noCut]
    rfl
  case stop =>
    rw [exec_clearKey (by simp [stopped]), clearKey_stopped stopped hr]
    rcases why with other | busy
    · rw [if_neg other]
    · have same : requestPark s (.fontCall (r.font.getD 0)) = s := requestPark_unchanged fun p hp => by
        rcases busy with idle | ⟨q, hq, busy⟩
        · simp [idle] at hp
        · obtain rfl : q = p := Option.some.inj (hq.symm.trans hp)
          exact requestPark_fontCall_joins busy
      rw [same, ite_self]
  case ignored =>
    rcases elsewhere with st | st | st | st | ⟨st, waits⟩
    case inr.inr.inr.inr => rw [exec_clearKey (by simp [st]), clearKey_ignored (by simp [st]) fun _ => waits]
    all_goals rw [exec_clearKey (by simp [st]), clearKey_ignored] <;> simp [st]

/-! ### The timers of the stops (R145, R146) -/

section Timers
variable {s : State} {r : StopRecord} {p : Pass}

theorem stopTimer_iff {kind : StopKind} : s.stopTimer kind = true ↔
    s.stop.station = .stopped ∧ ∃ r, s.stop.record = some r ∧ r.kind = kind ∧ r.timer = true := by
  simp [State.stopTimer, Option.any_eq_true]

theorem stopTimer_not_due {kind : StopKind}
    (h : (∀ r, s.stop.record = some r → r.kind ≠ kind ∨ r.timer = false) ∨ s.stop.station ≠ .stopped) :
    ¬ s.stopTimer kind = true := by
  intro due
  obtain ⟨stopped, r, hr, same, runs⟩ := stopTimer_iff.1 due
  rcases h with other | elsewhere
  · rcases other r hr with differs | off
    · exact differs same
    · simp [runs] at off
  · exact elsewhere stopped

theorem stopTimerOff_stop (hr : s.stop.record = some r) :
    (stopTimerOff s).stop = { s.stop with record := some { r with timer := false } } := by
  rw [stopTimerOff, hr]
  rfl

theorem fontCallExpires_due (due : s.stopTimer .fontCall = true) (hr : s.stop.record = some r) :
    fontCallExpires s = requestPark (stopTimerOff s) (.fontCall (r.font.getD 0)) := by
  simp only [fontCallExpires, hr, due, if_true]

theorem fontCallExpires_not_due (off : ¬ s.stopTimer .fontCall = true) : fontCallExpires s = s := by
  unfold fontCallExpires
  split
  · exact if_neg off
  · rfl

theorem filmOutExpires_due (due : s.stopTimer .filmOut = true) (hp : s.pass = some p) (lives : p.killing = false)
    (noPark : p.park = none) (noCut : p.cutAsked = false) :
    filmOutExpires s =
      markTakes
        { stopTimerOff s with pass := some { p with park := some { reason := .filmOut, answered := false, context := none } } }
        .filmOut (fun t => t.state == .active || t.state == .queued) := by
  rw [filmOutExpires, if_pos due, requestPark_begins (s := stopTimerOff s) hp lives noPark noCut]

/-- A take marked is to be released, and stays in its state (R193). -/
theorem mark_releases (x : Take) (reason : ReleaseReason) :
    (x.mark reason).release.isSome = true ∧ (x.mark reason).state = x.state := by
  unfold Take.mark
  split
  · next old =>
    split
    · exact ⟨rfl, rfl⟩
    · exact ⟨by rw [old]; rfl, rfl⟩
  · exact ⟨rfl, rfl⟩

/-- A mark asked for the ACTIVE and the QUEUED takes, none being killed, is placed on them alone (R146, R193). -/
theorem markTakes_active_queued (lives : s.killing = false) (reason : ReleaseReason) :
    (markTakes s reason (fun t => t.state == .active || t.state == .queued)).takes =
      s.takes.map (fun t => if t.state = .active ∨ t.state = .queued then t.mark reason else t) := by
  refine List.map_congr_left fun t _ => ?_
  by_cases active : t.state = .active <;> by_cases queued : t.state = .queued <;> simp [active, queued, lives]

end Timers

/-! ### The store's answer (R84, R86, R156) -/

section Answer
variable {s : State} {p : Pass} {q : Park}

/-- The park's cut, where no galley is open, is done as it is asked for; else it waits its turn (R130, R134). -/
theorem askCut_park (s : State) : askCut s { asker := .park, spoiled := none } =
    { s with
      pass := s.pass.map (fun p => { p with cutDone := p.cutDone || s.film.galley.isNone })
      film := if s.film.galley = none then s.film
        else { s.film with waiting := s.film.waiting ++ [.cut { asker := .park, spoiled := none }] } } := by
  cases galley : s.film.galley with
  | none => simp [askCut, galley, cutDone, State.modPass]
  | some g => simp [askCut_waits, galley]

/-- The proof state that the lines exposed and not proofed leave, as the store is emptied in a FILM pass (R86). -/
def unproofedState (records : List LineRecord) (y : ProofState) : ProofState :=
  (records.filter (fun r => !r.filmPending && r.proofPending)).foldl (fun y r => y.without r.number) y

theorem emptyStore_film_takes (film : s.passKind = .film) : (emptyStore s).takes =
    s.takes.map (fun y => if y.state == .active then
      { y with proofState := unproofedState s.store.records y.proofState } else y) := by
  simp only [emptyStore, State.unproofed, film, modActive_takes, unproofedState]

theorem parkAnswer_film (hp : s.pass = some p) (hq : p.park = some q) (waits : q.answered = false) (noLine : s.exp.cur = none)
    (film : p.kind = .film) :
    parkAnswer s = some (askCut
      (emptyStore
        { s with
          comp := idleCompositor
          pass := some
            { p with cutAsked := true, park := some { q with answered := true, context := unexposedContext s } } })
      { asker := .park, spoiled := none }) := by
  simp only [parkAnswer, hp, hq, waits, noLine, film, storeAnswer_unexposed, State.modPass, Option.map_some,
    Option.isSome_none, Bool.false_eq_true, or_self, if_false]

/-- Of a PROOF pass parked nothing is cut, and the store answers no context (R156). -/
theorem parkAnswer_proof (hp : s.pass = some p) (hq : p.park = some q) (waits : q.answered = false) (noLine : s.exp.cur = none)
    (proof : p.kind = .proof) :
    parkAnswer s = some
      { cutProofPass s with pass := some { p with cutDone := true, park := some { q with answered := true } } } := by
  have pass : (cutProofPass s).pass = some p := hp
  simp only [parkAnswer, hp, hq, waits, noLine, proof, State.modPass, pass, Option.map_some, Option.isSome_none,
    Bool.false_eq_true, or_self, if_false]

theorem parkAnswer_not_due (hp : s.pass = some p) (hq : p.park = some q)
    (h : q.answered = true ∨ s.exp.cur.isSome = true) : parkAnswer s = none := by
  simp only [parkAnswer, hp, hq, if_pos h]

theorem unproofedState_none {records : List LineRecord}
    (proofed : ∀ r ∈ records, ¬ (r.filmPending = false ∧ r.proofPending = true)) (y : ProofState) :
    unproofedState records y = y := by
  have lost : records.filter (fun r => !r.filmPending && r.proofPending) = [] := by
    simpa [List.filter_eq_nil_iff] using proofed
  rw [unproofedState, lost]
  rfl

/-- Lines lost one after another change a proof state as the lowest of them does (R86). -/
theorem foldl_without_least {lost : List LineRecord} {r : LineRecord} (hr : r ∈ lost)
    (least : ∀ z ∈ lost, r.number ≤ z.number) (y : ProofState) :
    lost.foldl (fun y z => y.without z.number) y = y.without r.number := by
  have partials (m : Nat) :
      lost.foldl (fun y z => y.without z.number) (ProofState.partialFrom m) = .partialFrom (min m r.number) := by
    obtain ⟨n, fold, stands, le, below⟩ := foldl_without_lowest lost m
    have le_r := below r hr
    have n_eq : n = min m r.number := by
      rcases stands with first | ⟨z, hz, num⟩
      · omega
      · have := least z hz
        omega
    rw [fold, n_eq]
  cases y with
  | none =>
    clear hr least partials
    induction lost with
    | nil => rfl
    | cons _ _ ih => exact ih
  | partialFrom m => exact partials m
  | complete =>
    cases lost with
    | nil => exact absurd hr List.not_mem_nil
    | cons a l =>
      have first := partials a.number
      rw [List.foldl_cons, ProofState.without, Nat.min_self, Nat.min_eq_right (least a List.mem_cons_self)] at first
      exact first

theorem unproofedState_lowest {records : List LineRecord} {r : LineRecord} (hr : r ∈ records)
    (lost : r.filmPending = false ∧ r.proofPending = true)
    (lowest : ∀ z ∈ records, z.filmPending = false ∧ z.proofPending = true → r.number ≤ z.number) (y : ProofState) :
    unproofedState records y = y.without r.number := by
  refine foldl_without_least (List.mem_filter.2 ⟨hr, by simp [lost]⟩) (fun z hz => ?_) y
  obtain ⟨stored, unproofed⟩ := List.mem_filter.1 hz
  exact lowest z stored (by simpa using unproofed)

end Answer

/-! ### The end of a park (R155 to R157) -/

section Finish
variable {s : State} {p : Pass} {q : Park} {x : Take} {k : Key}

/-- Two changes of the records with one key are one. -/
theorem modTake_modTake (s : State) (k : Key) (f g : Take → Take) (keeps : ∀ y, (f y).key = y.key) :
    (s.modTake k f).modTake k g = s.modTake k (fun y => g (f y)) := by
  unfold State.modTake
  rw [List.map_map]
  congr 1
  refine List.map_congr_left fun y _ => ?_
  by_cases same : y.key = k <;> simp [same, keeps]

/-- What becomes of a take just PARKED for this reason, with these fonts mounted (R157). -/
def leavesPark (seats : List Nat) (reason : ParkReason) (y : Take) : Take :=
  match reason with
  | .fontCall f => if f ∈ seats then y.queued else y
  | .repeated => { y.queued with release := y.release.or (some .repeated) }
  | .filmOut | .fault => y.queued

theorem mark_repeated (x : Take) : x.mark .repeated = { x with release := x.release.or (some .repeated) } := by
  unfold Take.mark
  split
  · next r old =>
    have last : ¬ ReleaseReason.repeated.rank < r.rank := by cases r <;> simp [ReleaseReason.rank]
    rw [if_neg last, old, Option.some_or, ← old]
  · next unmarked => rw [unmarked, Option.none_or]

theorem toQueued_repeated (awake : s.stop.station ≠ .standby) (k : Key) :
    markTakes (toQueued s k) .repeated (fun t => t.key == k) =
      s.modTake k (fun y => { y.queued with release := y.release.or (some .repeated) }) := by
  rw [toQueued_awake awake]
  unfold markTakes State.modTake
  rw [List.map_map]
  congr 1
  refine List.map_congr_left fun y _ => ?_
  by_cases same : y.key = k <;> simp [same, Take.queued, mark_repeated]

theorem afterPark_awake (awake : s.stop.station ≠ .standby) (k : Key) (reason : ParkReason) :
    afterPark s k reason = s.modTake k (leavesPark s.exp.seats reason) := by
  cases reason with
  | fontCall f =>
    by_cases mounted : f ∈ s.exp.seats
    · have becomes : leavesPark s.exp.seats (.fontCall f) = Take.queued := funext fun y => if_pos mounted
      rw [becomes, ← toQueued_awake awake]
      exact if_pos (by simpa [State.mounted] using mounted)
    · have becomes : leavesPark s.exp.seats (.fontCall f) = id := funext fun y => if_neg mounted
      have rests : s.modTake k id = s := by simp [State.modTake]
      rw [becomes, rests]
      exact if_neg (by simpa [State.mounted] using mounted)
  | repeated => exact toQueued_repeated awake k
  | filmOut => exact toQueued_awake awake k
  | fault => exact toQueued_awake awake k

/-- `t` has the pass, the film, the exposure and the line of `s`. -/
def sameWork (t s : State) : Prop := t.pass = s.pass ∧ t.film = s.film ∧ t.exp = s.exp ∧ t.line = s.line

theorem toQueued_sameWork (s : State) (k : Key) : sameWork (toQueued s k) s := by
  unfold toQueued wake warmUp
  split
  · split <;> exact ⟨rfl, rfl, rfl, rfl⟩
  · exact ⟨rfl, rfl, rfl, rfl⟩

theorem afterPark_sameWork (s : State) (k : Key) (reason : ParkReason) : sameWork (afterPark s k reason) s := by
  cases reason with
  | fontCall f =>
    unfold afterPark
    dsimp only
    split
    · exact toQueued_sameWork s k
    · exact ⟨rfl, rfl, rfl, rfl⟩
  | repeated => exact toQueued_sameWork s k
  | filmOut => exact toQueued_sameWork s k
  | fault => exact toQueued_sameWork s k

/-! #### The stop that names the take (R155, step 4) -/

theorem parkStop_none (noStop : s.stop.record = none) : parkStop s k = s := by simp only [parkStop, noStop]

theorem kept_iff {r : StopRecord} : r.kept = true ↔ r.kind = .filmOut ∧ r.timer = false := by
  simp [StopRecord.kept]

/-- A FILM-OUT stop at its expiry is kept without a take (R146). -/
theorem parkStop_kept {r : StopRecord} (hr : s.stop.record = some r) (kept : r.kind = .filmOut ∧ r.timer = false) :
    parkStop s k = { s with stop := { s.stop with record := some { r with key := none, line := none } } } := by
  simp only [parkStop, hr, kept_iff.2 kept, if_true]

/-- A stop that does not name the take, or a fault record, stays (R155). -/
theorem parkStop_other {r : StopRecord} (hr : s.stop.record = some r) (ends : ¬ (r.kind = .filmOut ∧ r.timer = false))
    (other : s.stop.station ≠ .stopped ∨ r.key ≠ some k) : parkStop s k = s := by
  have notNamed : ¬ (s.stop.station = .stopped ∧ r.key = some k) := fun ⟨stopped, named⟩ =>
    other.elim (fun away => away stopped) fun differs => differs named
  simp only [parkStop, hr, if_neg (mt kept_iff.1 ends), dropStop, if_neg notNamed]

theorem parkStop_named {r : StopRecord} (hr : s.stop.record = some r) (ends : ¬ (r.kind = .filmOut ∧ r.timer = false))
    (stopped : s.stop.station = .stopped) (named : r.key = some k) : parkStop s k = leaveStopped s r := by
  simp only [parkStop, hr, if_neg (mt kept_iff.1 ends), dropStop, stopped, named, and_self, if_true]

theorem parkStop_sameWork (s : State) (k : Key) : sameWork (parkStop s k) s := by
  cases hr : s.stop.record with
  | none => rw [parkStop_none hr]; exact ⟨rfl, rfl, rfl, rfl⟩
  | some r =>
    by_cases kept : r.kind = .filmOut ∧ r.timer = false
    · rw [parkStop_kept hr kept]; exact ⟨rfl, rfl, rfl, rfl⟩
    · by_cases names : s.stop.station = .stopped ∧ r.key = some k
      · obtain ⟨comp, takes, left⟩ := leaveStopped_eq s r
        rw [parkStop_named hr kept names.1 names.2, left]; exact ⟨rfl, rfl, rfl, rfl⟩
      · rw [parkStop_other hr kept (Decidable.not_and_iff_or_not.1 names)]; exact ⟨rfl, rfl, rfl, rfl⟩

/-! #### The STRANDED takes, as the station enters RUN (R195) -/

theorem reasonGone_iff (s : State) (y : Take) : s.reasonGone y = true ↔ strandReasonGone s y := by
  unfold State.reasonGone strandReasonGone
  rw [Bool.and_eq_true, decide_eq_true_iff]
  refine and_congr_right fun _ => ?_
  rcases y.release with _ | (_ | _ | _ | _ | _)
  case some.filmOut => cases s.stop.record <;> simp
  all_goals simp [State.allValid]

/-- A take as the examination at an entry to RUN leaves it (R195, steps 2 and 3). -/
def examined (s : State) (y : Take) : Take :=
  if y.state == .stranded && s.reasonGone y then y.unstranded (s.allValid y) else y

theorem examined_key (s : State) (y : Take) : (examined s y).key = y.key := by
  unfold examined
  split <;> rfl

theorem examined_returned {y : Take} (stranded : y.state = .stranded) (gone : strandReasonGone s y) :
    examined s y = returned s y :=
  if_pos (by simp [stranded, (reasonGone_iff s y).2 gone])

theorem examined_stays {y : Take} (h : y.state ≠ .stranded ∨ ¬ strandReasonGone s y) : examined s y = y := by
  refine if_neg fun due => ?_
  obtain ⟨stranded, gone⟩ := Bool.and_eq_true_iff.1 due
  rcases h with other | stands
  · exact other (beq_iff_eq.1 stranded)
  · exact stands ((reasonGone_iff s y).1 gone)

theorem leaveStopped_hold {r : StopRecord} (hold : r.toHold = true) (notDoor : r.kind ≠ .door) :
    leaveStopped s r = { s with stop := { s.stop with station := .hold, record := none } } := if_pos ⟨hold, notDoor⟩

theorem leaveStopped_run {r : StopRecord} (run : r.toHold = false ∨ r.kind = .door) :
    (leaveStopped s r).stop = { s.stop with station := .run, record := none } ∧
    (leaveStopped s r).takes =
      s.takes.map (examined { s with stop := { s.stop with station := .run, record := none } }) := by
  have toRun : ¬ (r.toHold = true ∧ r.kind ≠ .door) := fun ⟨hold, notDoor⟩ =>
    run.elim (fun off => by simp [off] at hold) notDoor
  unfold leaveStopped
  rw [if_neg toRun]
  exact ⟨rfl, rfl⟩

/-! #### The park's end (R155, steps 3 to 6) -/

/-- The context a parked take goes on from: the store's answer with the next galley sequence, or after a PROOF pass the
record's own (R155, R156). -/
def parkContext (s : State) (p : Pass) (q : Park) (x : Take) : Option Context :=
  match p.kind with
  | .film => q.context.map (fun c => { c with galleySeq := s.film.nextSeq.getD 1 })
  | .proof => x.context

/-- A take PARKED for this reason, to go on from this context (R155). -/
def parkedTake (context : Option Context) (reason : ParkReason) (y : Take) : Take :=
  { y with context := context, lineStop := none, state := .parked, parkReason := some reason, timer := none }

/-- The TAKE-PARKED notice, with the line and the galley sequence of that context, as it came after a PROOF pass (Log 62). -/
def parkNotice (s : State) (p : Pass) (q : Park) (x : Take) : NoticeBody :=
  let at' : Nat × Nat := (parkContext s p q x).elim (1, 1) (fun c => (c.nextLine, c.galleySeq))
  .takeParked q.reason at'.1 at'.2

/-- The take parked, its pass ended and its notice produced: the state in which its stop is then cleared (R155). -/
def parkTold (s : State) (p : Pass) (q : Park) (x : Take) : State :=
  { s with
    takes := s.takes.map (fun y => if y.key == x.key then parkedTake (parkContext s p q x) q.reason y else y)
    pass := none
    film := { s.film with nextSeq := none }
    line := (produce s (some x.key) (parkNotice s p q x)).line }

theorem parkTold_takes (s : State) (p : Pass) (q : Park) (x : Take) : (parkTold s p q x).takes =
    s.takes.map (fun y => if y.key == x.key then parkedTake (parkContext s p q x) q.reason y else y) := rfl

/-- `produce_line` with the line of a state that has it too. -/
theorem produce_line_only {u : State} (line : u.line = s.line) (key : Option Key) (b : NoticeBody) :
    produce u key b = { u with line := (produce s key b).line } := by
  unfold produce
  rw [line]
  split <;> rfl

theorem parkFinish_due (hp : s.pass = some p) (hq : p.park = some q) (act : s.active? = some x)
    (answered : q.answered = true) (cut : p.cutDone = true) :
    parkFinish s = some (afterPark (parkStop (parkTold s p q x) x.key) x.key q.reason) := by
  unfold parkFinish
  rw [hp, act]
  simp only [hq, answered, cut, and_self, if_true]
  rw [produce_line_only (s := s) (by rfl)]
  unfold parkTold parkNotice parkContext
  cases p.kind with
  | film => cases q.context <;> rfl
  | proof => cases x.context <;> rfl

theorem parkFinish_not_due (hp : s.pass = some p) (hq : p.park = some q) (h : q.answered = false ∨ p.cutDone = false) :
    parkFinish s = none := by
  have waits : ¬ (q.answered = true ∧ p.cutDone = true) := fun ⟨answered, cut⟩ =>
    h.elim (fun off => by simp [off] at answered) fun off => by simp [off] at cut
  unfold parkFinish
  rw [hp]
  cases s.active? with
  | none => rfl
  | some x => simp only [hq, if_neg waits]

/-- What becomes of a take parked, all its changes taken together (R155, R157). -/
def endsParked (s : State) (p : Pass) (q : Park) (x : Take) (y : Take) : Take :=
  leavesPark s.exp.seats q.reason (parkedTake (parkContext s p q x) q.reason y)

/-- A park ends its pass and tells of it, and its take then becomes what its reason asks, outside STANDBY (R155, R157). Which
stop stands then, and what an entry to RUN has done to the other takes, `parkStop` says. -/
theorem parkEnds (s : State) (p : Pass) (q : Park) (x : Take) :
    let u := parkStop (parkTold s p q x) x.key
    let t := afterPark u x.key q.reason
    t.pass = none ∧ t.film = { s.film with nextSeq := none } ∧ t.exp = s.exp ∧
    (hasRoom s → noticed t (some x.key) (parkNotice s p q x)) ∧
    (u.stop.station ≠ .standby → t.stop = u.stop ∧
      t.takes = u.takes.map (fun y => if y.key == x.key then leavesPark s.exp.seats q.reason y else y)) := by
  intro u t
  obtain ⟨uPass, uFilm, uExp, uLine⟩ : sameWork u (parkTold s p q x) := parkStop_sameWork _ _
  obtain ⟨tPass, tFilm, tExp, tLine⟩ : sameWork t u := afterPark_sameWork _ _ _
  have exp : u.exp = s.exp := uExp
  refine ⟨tPass.trans uPass, tFilm.trans uFilm, tExp.trans exp, fun room => ?_, fun awake => ?_⟩
  · unfold noticed
    rw [tLine, uLine]
    exact produce_noticed room _ _
  · rw [show t = _ from afterPark_awake awake x.key q.reason, exp]
    exact ⟨rfl, rfl⟩

/-- Where step 4 of R155 changes the stop alone, the record of the take parked is all that changes among the takes. -/
theorem parkEnds_of_stop {stop : StopControl} (awake : stop.station ≠ .standby)
    (h : parkStop (parkTold s p q x) x.key = { parkTold s p q x with stop := stop }) :
    let t := afterPark (parkStop (parkTold s p q x) x.key) x.key q.reason
    t.stop = stop ∧ t.takes = s.takes.map (fun y => if y.key == x.key then endsParked s p q x y else y) := by
  obtain ⟨-, -, -, -, ends⟩ := parkEnds s p q x
  rw [h] at ends ⊢
  obtain ⟨stop, takes⟩ := ends awake
  refine ⟨stop, takes.trans ?_⟩
  exact congrArg State.takes (modTake_modTake s x.key (parkedTake (parkContext s p q x) q.reason) _ fun _ => rfl)

/-- The state in which the takes are examined, as the stop's end returns the station to RUN. -/
def parkToRun (s : State) (p : Pass) (q : Park) (x : Take) : State :=
  { parkTold s p q x with stop := { s.stop with station := .run, record := none } }

/-- Where the stop's end returns the station to RUN, the other takes are examined too (R195). -/
theorem parkEnds_toRun {r : StopRecord} (run : r.toHold = false ∨ r.kind = .door)
    (h : parkStop (parkTold s p q x) x.key = leaveStopped (parkTold s p q x) r) :
    let t := afterPark (parkStop (parkTold s p q x) x.key) x.key q.reason
    t.stop = { s.stop with station := .run, record := none } ∧
    t.takes = s.takes.map (fun y => if y.key == x.key then endsParked s p q x y else examined (parkToRun s p q x) y) := by
  obtain ⟨-, -, -, -, ends⟩ := parkEnds s p q x
  obtain ⟨left, seen⟩ : (leaveStopped (parkTold s p q x) r).stop = { s.stop with station := .run, record := none } ∧
      (leaveStopped (parkTold s p q x) r).takes = (parkTold s p q x).takes.map (examined (parkToRun s p q x)) :=
    leaveStopped_run run
  rw [h, left, seen, parkTold_takes, List.map_map, List.map_map] at ends
  rw [h]
  obtain ⟨stop, takes⟩ := ends (by simp)
  refine ⟨stop, takes.trans (List.map_congr_left fun y _ => ?_)⟩
  by_cases same : y.key = x.key
  · have parked : examined (parkToRun s p q x) (parkedTake (parkContext s p q x) q.reason y) =
        parkedTake (parkContext s p q x) q.reason y := examined_stays (.inl (by simp [parkedTake]))
    have key : (parkedTake (parkContext s p q x) q.reason y).key = x.key := same
    simp [same, parked, key, endsParked]
  · simp [same, examined_key]

end Finish

/-- Settles O59: the timers ask for their parks, and the store's answer and the park's end are taken apart by the kind of pass
and by the stop that stands. -/
theorem stopTimersParkTheTake : Obligations.StopTimersParkTheTake := by
  refine ⟨fun s => ⟨fun r p f stopped hr call runs font hp lives noPark noCut => ?fontTimer,
      fun r p stopped hr film runs hp lives noPark noCut => ?filmTimer,
      fun off => answers_effect (fontCallExpires_not_due (stopTimer_not_due off)),
      fun off => answers_effect (if_neg (stopTimer_not_due off))⟩,
    by simp [reactions], by simp [reactions], fun s p q hp hq =>
      ⟨fun waits noLine => ⟨fun film => ?answerFilm, fun proof => ?answerProof⟩, parkAnswer_not_due hp hq,
        fun x act answered cut => ?ends, parkFinish_not_due hp hq⟩⟩
  case fontTimer =>
    have reason : r.font.getD 0 = f := by simp [font]
    refine answers_effect ?_
    rw [fontCallExpires_due (stopTimer_iff.2 ⟨stopped, r, hr, call, runs⟩) hr, reason,
      requestPark_begins (s := stopTimerOff s) hp lives noPark noCut, stopTimerOff_stop hr]
    rfl
  case filmTimer =>
    have expires := filmOutExpires_due (stopTimer_iff.2 ⟨stopped, r, hr, film, runs⟩) hp lives noPark noCut
    have takes := markTakes_active_queued
      (s := { stopTimerOff s with
        pass := some { p with park := some { reason := .filmOut, answered := false, context := none } } }) lives .filmOut
    refine ⟨_, answers_effect expires, stopTimerOff_stop hr, rfl, List.length_map .., fun i x y hx hy => ?_⟩
    have marked : (if x.state = .active ∨ x.state = .queued then x.mark .filmOut else x) = y := by
      rw [takes, List.getElem?_map, show (stopTimerOff s).takes[i]? = some x from hx] at hy
      exact Option.some.inj hy
    refine ⟨fun named => ?_, fun notActive notQueued => ?_⟩
    · rw [if_pos named] at marked
      exact marked ▸ mark_releases x .filmOut
    · rw [if_neg (by simp [notActive, notQueued])] at marked
      exact marked.symm
  case answerFilm =>
    refine ⟨_, parkAnswer_film hp hq waits noLine film, ?_⟩
    rw [askCut_park]
    refine ⟨rfl, rfl, rfl, rfl, rfl, fun proofed => ?_, fun r hr lost lowest => ?_⟩
    all_goals refine (emptyStore_film_takes (by exact film)).trans ?_
    · simp only [unproofedState_none proofed, ite_self, List.map_id']
    · simp only [unproofedState_lowest hr lost lowest]
      rfl
  case answerProof =>
    exact ⟨_, parkAnswer_proof hp hq waits noLine proof, rfl, rfl, rfl, rfl, cutProofPass_takes s⟩
  case ends =>
    intro context at' parked queued becomes takes kept
    obtain ⟨pass, film, exp, told, -⟩ := parkEnds s p q x
    refine ⟨_, parkFinish_due hp hq act answered cut, pass, film, exp, told, fun awake =>
      ⟨fun noStop => parkEnds_of_stop awake (parkStop_none noStop), fun r hr =>
        ⟨fun keeps => parkEnds_of_stop awake (parkStop_kept hr keeps),
          fun ends other => parkEnds_of_stop awake (parkStop_other hr ends other),
          fun ends stopped named => ⟨fun hold notDoor => ?_, fun run => ?_⟩⟩⟩⟩
    all_goals have leaves := parkStop_named (s := parkTold s p q x) hr ends stopped named
    · exact parkEnds_of_stop (by simp) (leaves.trans (leaveStopped_hold hold notDoor))
    · obtain ⟨stop, takes⟩ := parkEnds_toRun run leaves
      refine ⟨stop, by rw [takes, List.length_map], fun i y z hy hz => ?_⟩
      rw [takes, List.getElem?_map, hy] at hz
      obtain rfl := Option.some.inj hz
      intro gone
      refine ⟨fun same => if_pos (by simp [same]), fun other => ?_⟩
      have rest : (if y.key == x.key then endsParked s p q x y else examined (parkToRun s p q x) y) =
          examined (parkToRun s p q x) y := if_neg (by simp [other])
      exact ⟨fun stranded isGone => rest.trans (examined_returned stranded isGone),
        fun stays => rest.trans (examined_stays stays)⟩

end Sys2Proof.Machine
end

section
/-! PROOFS. Frames received: how every one of them is taken, which are not heard, bad or ignored (R166 to R168), and the checks
made of each kind (R167, R178). -/

namespace Sys2Proof.Machine

/-! ### How a frame is taken (R166 to R168) -/

/-- A frame that has been received and checked is handed to its block: one addressed to all, or to this station (R168); ANNOUNCE
and NOTICE are handed to none. -/
def State.handsOver (s : State) : Instr → Bool
  | .reset h _ => s.resetAddressed h
  | .taken h _ | .refused h _ _ | .copy h _ _ _ | .copyEnd h _ _ => s.addressed h
  | .announce _ _ | .notice _ _ => false
  | _ => true

/-- What the block does that a received frame is handed to. -/
def frameAct : Instr → State → State
  | .reset _ p, s => lineReset s p
  | .kill _ k, s => hearKill s k
  | .claim h k _, s => hearClaim s h.sender k
  | .widthTable _ f r ws, s => hearTable s f r ws
  | .taken h k, s => hearTaken s h.sender k
  | .refused h k _, s => hearRefused s h.sender k
  | .approve _ k, s => hearApprove s k
  | .widthAsk _ f, s => hearAsk s f
  | .offer h m, s => hearOffer s h.sender m
  | .copy h k o d, s => hearCopy s h.sender k o d
  | .copyEnd h k n, s => hearCopyEnd s h.sender k n
  | .exceptionAdd _ b, s => hearAdd s b
  | .exceptionDelete _ b, s => hearDelete s b
  | _, s => s

section Frames
variable {s : State} {c : Instr} {h : Header}

theorem exec_frame (hc : frameHeader c = some h) (s : State) :
    exec c s = done (receive s h (frameOk c) (s.handsOver c) (frameAct c)) := by
  cases c <;> cases hc <;> rfl

/-- A frame that ends while the line is taken as busy, or while the station sends, is not heard (R163, R166). -/
theorem receive_unheard (deaf : s.hears = false) (ok taken : Bool) (act : State → State) : receive s h ok taken act = s := by
  simp [receive, deaf]

/-- A frame that fails its checks is counted, and the line is busy again (R167). -/
theorem receive_bad (hears : s.hears = true) (taken : Bool) (act : State → State) :
    receive s h false taken act = badFrame s := by
  simp [receive, hears]

/-- A frame that passes mutes a station of its sender's number, and then acts where it is taken (R168, R169). -/
theorem receive_passed (hears : s.hears = true) (taken : Bool) (act : State → State) : receive s h true taken act =
    let u := if h.sender = s.number then becomeMuted (heard s) else heard s
    if taken then act u else u := by
  simp [receive, hears, heard]

end Frames

/-! ### The checks of R167, by the fields they are made of -/

/-- The sender and the addressee of a frame that passes (R162, R167). -/
theorem headerOk_iff (h : Header) : headerOk h = true ↔ h.sender ≤ 14 ∧ h.addressee < 256 := by
  simp [headerOk, isByte, Nat.lt_succ_iff]

/-- The take key of a frame that passes (R167). -/
theorem keyOk_iff (k : Key) : keyOk k = true ↔ k.origin ≤ 14 ∧ k.number < 65536 := by
  simp [keyOk, isWord, Nat.lt_succ_iff]

/-- The sizes of a context record's fields (R178). -/
theorem contextOk_iff (c : Context) : contextOk c = true ↔
    (∀ n ∈ [c.resume, c.font, c.measure, c.indent, c.nextLine, c.galleySeq], n < 65536) ∧
    ∀ n ∈ [c.size, c.leading, c.mode, c.sbMin, c.sbOpt, c.sbMax, c.letterspace, c.ladderLimit, c.ladderCount], n < 256 := by
  simp only [contextOk, isWord, isByte, Bool.and_eq_true, decide_eq_true_eq, List.forall_mem_cons, List.not_mem_nil, false_imp_iff,
    implies_true, and_true]
  simp only [and_assoc, and_comm, and_left_comm]

theorem offerOk_iff (m : OfferMsg) : offerOk m = true ↔
    (m.key.origin ≤ 14 ∧ m.key.number < 65536) ∧ m.cls ≤ 3 ∧ m.mode ≤ 1 ∧ m.continuation ≤ 1 ∧ m.scarce ≤ 1 ∧
      1 ≤ m.copyLen ∧ m.copyLen ≤ 16384 ∧ m.film ≤ 16777215 ∧ 1 ≤ m.fontCount ∧ m.fontCount ≤ 8 ∧
      (∀ f ∈ m.fonts, 1 ≤ f ∧ f ≤ 999) ∧ m.fonts.length = m.fontCount ∧ (m.context.isSome = true ↔ m.continuation = 1) ∧
      ∀ c, m.context = some c → contextOk c = true := by
  have film : ∀ n, n ≤ Config.top24 ↔ n ≤ 16777215 := fun _ => .rfl
  have length : ∀ n, n ≤ Config.maxCopy ↔ n ≤ 16384 := fun _ => .rfl
  unfold offerOk
  cases m.context with
  | none | some c => simp [keyOk_iff, fontOk, film, length, and_assoc]

theorem copyOk_iff (k : Key) (o : Nat) (d : List Byte) : copyOk k o d = true ↔
    (k.origin ≤ 14 ∧ k.number < 65536) ∧ 1 ≤ d.length ∧ d.length ≤ 235 ∧ o + d.length ≤ 16384 := by
  have length : ∀ n, n ≤ Config.maxCopy ↔ n ≤ 16384 := fun _ => .rfl
  have data : ∀ n, n ≤ Config.copyData ↔ n ≤ 235 := fun _ => .rfl
  simp [copyOk, keyOk_iff, length, data, and_assoc]

theorem widthTable_frameOk_iff (h : Header) (f r : Nat) (ws : List Nat) : frameOk (.widthTable h f r ws) = true ↔
    (h.sender ≤ 14 ∧ h.addressee < 256) ∧ f < 65536 ∧ r < 256 ∧ (∀ w ∈ ws, w < 256) ∧ ws.length = 223 := by
  simp [frameOk, headerOk_iff, isWord, isByte, and_assoc]

theorem offer_frameOk_iff (h : Header) (m : OfferMsg) : frameOk (.offer h m) = true ↔
    (h.sender ≤ 14 ∧ h.addressee < 256) ∧ offerOk m = true := by
  simp [frameOk, headerOk_iff]

/-- Settles O14: every frame is taken by `receive`, and each kind's check is the conjunction of its fields' checks. -/
theorem badAndBrokenFramesAreCounted : Obligations.BadAndBrokenFramesAreCounted := by
  refine ⟨fun c h s hc => ⟨fun deaf => ?_, fun hears bad => ?_⟩, fun s => ⟨fun hears => ?_, fun deaf => ?_⟩, fun h => ?_⟩
  · rw [exec_frame hc, receive_unheard deaf]
    rfl
  · rw [exec_frame hc, bad, receive_bad hears]
    rfl
  · exact ⟨answers_effect (if_pos hears), answers_effect (if_pos hears)⟩
  · exact ⟨answers_effect (if_neg (by simp [deaf])), answers_effect (if_neg (by simp [deaf]))⟩
  · have length : ∀ n, n ≤ Config.maxCopy ↔ n ≤ 16384 := fun _ => .rfl
    refine ⟨fun p => headerOk_iff h, fun k => ⟨?_, ?_, ?_⟩, fun k cost => ?_, widthTable_frameOk_iff h, fun k r => ?_, fun f => ?_,
      fun m => by simp only [offer_frameOk_iff, offerOk_iff, contextOk_iff, and_assoc], fun k o d => ?_, fun k n => ?_,
      fun b => ⟨?_, ?_⟩, fun p => ?_, fun p => ?_⟩
    all_goals
      simp [frameOk, headerOk_iff, keyOk_iff, isByte, fontOk, copyOk_iff, length, Nat.lt_succ_iff, and_assoc]

/-- A frame received that is handed to no block leaves the line due its gap, and nothing else (R163, R168). -/
theorem exec_not_handed {c : Instr} {h : Header} {s : State} (hc : frameHeader c = some h) (received : Received h c s)
    (ignored : s.handsOver c = false) : exec c s = .next (settle (heard s)) := by
  obtain ⟨hears, passed, other⟩ := received
  rw [exec_frame hc, passed, receive_passed hears, if_neg other, ignored]
  rfl

/-- Settles O15: none of the five is handed over where it is addressed elsewhere. -/
theorem framesForOthersAreIgnored : Obligations.FramesForOthersAreIgnored := by
  intro c h s received elsewhere kind
  have notHere : s.addressed h = false := decide_eq_false elsewhere
  rcases kind with ⟨p, rfl, one⟩ | ⟨k, rfl⟩ | ⟨k, r, rfl⟩ | ⟨k, o, d, rfl⟩ | ⟨k, n, rfl⟩
  · exact exec_not_handed rfl received (by simp [State.handsOver, State.resetAddressed, notHere, one])
  all_goals exact exec_not_handed rfl received notHere

end Sys2Proof.Machine
end

section
/-! PROOFS. Windows counted out, and CLAIMs and TAKENs heard (R31, R173, R174, R194, R196). -/

namespace Sys2Proof.Machine

section Windows
variable {s : State} {sub : Subject} {w : Window}

/-- With room in the queue a frame handed over joins it at once (R170, R171). -/
theorem putFrame_with_room (room : s.line.queue.length + s.line.waiting.length < 8) (f : TxFrame) :
    putFrame s f = { s with line := { s.line with queue := insertFrame f s.line.queue } } :=
  if_neg fun full => absurd room (Nat.not_lt.2 (of_decide_eq_true full))

/-- The first window on this subject that has been counted out, and has not handed its frame over (R173). -/
def State.windowDue (s : State) (sub : Subject) : Option Window :=
  s.line.windows.find? (fun w => w.what.subject == sub && !w.queued && w.slots == 0)

/-- The windows on this subject enter their queued phase (R173). -/
def queuedWindows (s : State) (sub : Subject) : List Window :=
  s.line.windows.map (fun v => if v.what.subject == sub then { v with queued := true } else v)

/-- A window that has a frame to hand over puts it into the queue (R173). -/
theorem expireWindow_hands (due : s.windowDue sub = some w) {f : TxFrame} (hf : windowFrame s w.what = some f)
    (room : s.line.queue.length + s.line.waiting.length < 8) : expireWindow s sub =
      { s with line := { s.line with windows := queuedWindows s sub, queue := insertFrame f s.line.queue } } := by
  have found : s.line.windows.find? (fun w => w.what.subject == sub && !w.queued && w.slots == 0) = some w := due
  simp only [expireWindow, found, hf]
  exact putFrame_with_room (s := { s with line := { s.line with windows := queuedWindows s sub } }) room f

/-- A window whose table is gone ends (R31, R174). -/
theorem expireWindow_ends (due : s.windowDue sub = some w) (noFrame : windowFrame s w.what = none) : expireWindow s sub =
    { s with line := { s.line with windows := s.line.windows.filter (fun v => !(v.what.subject == sub)) } } := by
  have found : s.line.windows.find? (fun w => w.what.subject == sub && !w.queued && w.slots == 0) = some w := due
  simp only [expireWindow, found, noFrame]
  rfl

theorem expireWindow_not_due (nothing : s.windowDue sub = none) : expireWindow s sub = s := by
  have found : s.line.windows.find? (fun w => w.what.subject == sub && !w.queued && w.slots == 0) = none := nothing
  simp only [expireWindow, found]

end Windows

/-- Settles O28: the due window's frame, by what the window is for. -/
theorem expiredWindowHandsItsFrameOver : Obligations.ExpiredWindowHandsItsFrameOver := by
  intro s sub
  refine ⟨fun w sender m cost due claim room => ?_, fun w font rev ws due answer table room => ?_,
    fun w font due answer gone => ?_, fun nothing => answers_effect (expireWindow_not_due nothing)⟩
  · exact answers_effect (expireWindow_hands due (by simp [claim, windowFrame]) room)
  · exact answers_effect (expireWindow_hands due (by simp [answer, windowFrame, table]) room)
  · exact answers_effect (expireWindow_ends due (by simp [answer, windowFrame, gone]))

/-! ### CLAIMs heard (R174, R194) -/

section Claims
variable {s : State} {k : Key} {x : Take}

/-- A window left after others for the take are cancelled has its frame begun (R174). -/
theorem cancelWindows_left_begun {p : WindowFor → Bool} {w : Window} (left : w ∈ (cancelWindows s p).line.windows)
    (named : p w.what = true) : (cancelWindows s p).line.windowBegun w = true := by
  have begun : s.line.windowBegun w = true := by
    simpa [named] using (List.mem_filter.1 left).2
  obtain ⟨e, he, owned⟩ := List.any_eq_true.1 begun
  refine List.any_eq_true.2 ⟨e, List.mem_filter.2 ⟨he, ?_⟩, owned⟩
  simp [(Bool.and_eq_true_iff.1 owned).1]

/-- The CLAIM of another station for a released take whose OFFER is watched (R194). -/
theorem hearClaim_claimed (held : s.take? k = some x) (releasing : x.state = .releasing) (unclaimed : x.claimant = none)
    (watch : s.watched (.take k) = true) (noWindow : ∀ w ∈ s.line.windows, w.what.isClaimFor k = false) (sender : Nat) :
    hearClaim s sender k = (endWatch s (.take k)).modTake k (fun y => { y with claimant := some sender, sending := some 0 }) := by
  have same : cancelWindows s (WindowFor.isClaimFor k) = s :=
    cancelWindows_eq_self fun w hw named => by rw [noWindow w hw] at named; cases named
  simp only [hearClaim, same, held]
  rw [if_pos ⟨releasing, unclaimed, watch⟩]

/-- For any other take, the CLAIM only cancels the station's own claim window (R174). -/
theorem hearClaim_not_held (notHeld : s.take? k = none) (sender : Nat) :
    hearClaim s sender k = cancelWindows s (WindowFor.isClaimFor k) := by
  have gone : (cancelWindows s (WindowFor.isClaimFor k)).take? k = none := notHeld
  simp only [hearClaim, gone]

end Claims

/-! ### TAKENs heard (R194, R196) -/

section Takens
variable {s : State} {k : Key} {x : Take}

/-- A freed record leaves the others as they were (R179). -/
theorem freeTake_takes (s : State) (k : Key) : (freeTake s k).takes = s.takes.filter (fun y => y.key ≠ k) := by
  unfold freeTake
  split
  · exact (unpinFonts_same _ _).1
  · next gone =>
    refine (List.filter_eq_self.2 fun y hy => ?_).symm
    simpa using take_none gone y hy

/-- An ask abandoned leaves the notices queued (R21, R25). -/
theorem unpinFont_noticed {key : Option Key} {b : NoticeBody} (h : noticed s key b) (font : Nat) :
    noticed (unpinFont s font) key b := by
  have abandoned (u : State) (hu : noticed u key b) : noticed (endAsk u font) key b := List.mem_filter.2 ⟨hu, rfl⟩
  unfold unpinFont
  dsimp only
  split
  · split
    · split
      · split
        · exact h
        · exact abandoned _ h
        · exact h
      · exact h
    · exact h
  · exact h

theorem unpinFonts_noticed {key : Option Key} {b : NoticeBody} (h : noticed s key b) (fonts : List Nat) :
    noticed (unpinFonts s fonts) key b := by
  unfold unpinFonts
  generalize distinct fonts = l
  induction l generalizing s with
  | nil => exact h
  | cons f l ih => exact ih (unpinFont_noticed h f)

theorem freeTake_noticed {key : Option Key} {b : NoticeBody} (h : noticed s key b) (k : Key) : noticed (freeTake s k) key b := by
  unfold freeTake
  split
  · refine unpinFonts_noticed ?_ _
    exact h
  · exact h

/-- The end of a release leaves the queue its room (R191). -/
theorem stopRelease_hasRoom (room : hasRoom s) (k : Key) : hasRoom (stopRelease s k) :=
  ⟨room.1, Nat.lt_of_le_of_lt (Nat.add_le_add (List.length_filter_le _ _) (List.length_filter_le _ _)) room.2⟩

theorem produce_takes (s : State) (key : Option Key) (b : NoticeBody) : (produce s key b).takes = s.takes := by
  rw [produce_line]

/-- A station that was sent the take's COPY-END has taken it (R196). -/
theorem hearTaken_frees (held : s.take? k = some x) (state : x.state = .releasing ∨ x.state = .stranded) {sender : Nat}
    (sent : x.sentEnd.contains sender = true) :
    hearTaken s sender k = freeTake (produce (stopRelease s k) (some k) (.takeReleased sender)) k := by
  simp only [hearTaken, held]
  exact if_pos ⟨state, sent⟩

/-- Any other TAKEN is passed over (R196). -/
theorem hearTaken_passed_over (held : s.take? k = some x) {sender : Nat}
    (other : (x.state ≠ .releasing ∧ x.state ≠ .stranded) ∨ x.sentEnd.contains sender = false) : hearTaken s sender k = s := by
  simp only [hearTaken, held]
  refine if_neg fun due => ?_
  rcases other with ⟨notReleasing, notStranded⟩ | notSent
  · exact due.1.elim notReleasing notStranded
  · rw [notSent] at due
    cases due.2

end Takens

/-- Settles O33: the CLAIM and the TAKEN act on the state as their frame has ended. -/
theorem claimAndTakenHeardAct : Obligations.ClaimAndTakenHeardAct := by
  refine ⟨fun h k cost s received => ?_, fun h k s x received here held => ?_⟩
  · have acts : exec (.claim h k cost) s = done (hearClaim (heard s) h.sender k) :=
      congrArg done (receive_received received _)
    refine ⟨fun x held releasing unclaimed watch noWindow => ?_, fun notHeld => ?_⟩
    · exact acts.trans (answers_effect (hearClaim_claimed (s := heard s) held releasing unclaimed watch noWindow h.sender))
    · refine ⟨_, acts.trans (answers_effect (hearClaim_not_held (s := heard s) notHeld h.sender)), rfl, fun w left named => ?_⟩
      exact cancelWindows_left_begun left named
  · have addressed : s.addressed h = true := decide_eq_true here
    have acts : exec (.taken h k) s = done (hearTaken (heard s) h.sender k) := by
      rw [← receive_received received (fun u => hearTaken u h.sender k), ← addressed]
      rfl
    refine ⟨fun state sent unmuted free => ?_, fun other => ?_⟩
    · refine ⟨_, acts.trans (answers_effect (hearTaken_frees (s := heard s) held state sent)), ?_, ?_⟩
      · rw [freeTake_takes, produce_takes]
        rfl
      · exact freeTake_noticed (produce_noticed (stopRelease_hasRoom (s := heard s) ⟨unmuted, free⟩ k) _ _) k
    · exact acts.trans (answers_effect (hearTaken_passed_over (s := heard s) held other))

end Sys2Proof.Machine
end

section
/-! PROOFS. Lapses: of an OFFER's watch (R175, R194) and of an ask's (R26). -/

namespace Sys2Proof.Machine

section Lapses
variable {s : State} {x : Take} {font : Nat}

/-- The record of a take whose release has failed (R194, R195). -/
def strandedTake (y : Take) : Take :=
  { y with state := .stranded, timer := some .strandTurn, claimant := none, sending := none, offerDue := false }

/-- A take is stranded, and told of unless it was offered after a strand turn (R194, R195). -/
theorem strand_eq {k : Key} (held : s.take? k = some x) : strand s k =
    let u := s.modTake k strandedTake
    if x.reoffer then u else produce u (some k) (.stranded x.scarce) := by
  simp only [strand, held]
  rfl

/-- The lapse of the OFFER of a take without a claimant (R194). -/
theorem lapse_offer {k : Key} (watch : s.watched (.take k) = true) (held : s.take? k = some x) (releasing : x.state = .releasing)
    (unclaimed : x.claimant = none) : lapse s (.take k) = strand (endWatch s (.take k)) k := by
  have held' : (endWatch s (.take k)).take? k = some x := held
  simp only [lapse, watch, held', releasing, unclaimed, and_self, if_true]

/-- A request to release the takes that name the font marks this one: it is not on its release already, nor ACTIVE and being
killed (R192, R193). -/
def State.marksFor (s : State) (font : Nat) (x : Take) : Bool :=
  x.fonts.contains font && x.state ≠ .releasing && x.state ≠ .stranded && !(x.state == .active && s.killing)

/-- What a failed ask for a font does to a take (R26): the widths-scarce flag and a release mark where it names the font, and no
re-ask left for the font (R27). -/
def askFailed (s : State) (font : Nat) (x : Take) : Take :=
  { x with
    scarce := x.scarce || x.fonts.contains font
    release := if s.marksFor font x then (x.mark .widths).release else x.release
    reask := x.reask.map (fun l => l.filter (fun f => f ≠ font)) }

/-- A release mark changes the reason alone, by the reason there was (R193). -/
theorem mark_release {y : Take} (same : y.release = x.release) (r : ReleaseReason) :
    y.mark r = { y with release := (x.mark r).release } := by
  unfold Take.mark
  rw [same]
  split
  · split
    · rfl
    · rw [← same]
  · rfl

theorem mark_isSome (x : Take) (r : ReleaseReason) : (x.mark r).release.isSome = true := by
  unfold Take.mark
  split
  · next r' hr =>
    split
    · rfl
    · rw [hr]; rfl
  · rfl

/-- The three changes of the records one after another: the flag, the re-asks, and the mark (R26, R27, R193). -/
theorem askFailed_eq (s : State) (font : Nat) (x : Take) : askFailed s font x =
    let y : Take := if x.fonts.contains font then { x with scarce := true } else x
    let z : Take := { y with reask := y.reask.map (fun l => l.filter (fun f => f ≠ font)) }
    if s.marksFor font z then z.mark .widths else z := by
  have flagged : (if x.fonts.contains font then { x with scarce := true } else x) =
      { x with scarce := x.scarce || x.fonts.contains font } := by
    cases x.fonts.contains font <;> simp
  let z : Take :=
    { x with
      scarce := x.scarce || x.fonts.contains font
      reask := x.reask.map (fun l => l.filter (fun f => f ≠ font)) }
  have marked : z.mark .widths = { z with release := (x.mark .widths).release } :=
    mark_release (x := x) (y := z) rfl .widths
  rw [flagged]
  change _ = if s.marksFor font x then z.mark .widths else z
  rw [marked]
  unfold askFailed
  split <;> rfl

/-- The lapse of the ask for a font (R26). -/
theorem lapse_ask (watch : s.watched (.font font) = true) (asking : s.width.isAsking font = true) :
    lapse s (.font font) =
      { endWatch s (.font font) with
        width := { s.width with
          slots := s.width.slots.map (fun sl => if sl.font == some font then { sl with state := .empty } else sl) }
        takes := s.takes.map (askFailed s font) } := by
  have asking' : (endWatch s (.font font)).width.isAsking font = true := asking
  have records : ((s.takes.map (fun t => if t.fonts.contains font then { t with scarce := true } else t)).map (fun t =>
      { t with reask := t.reask.map (fun l => l.filter (fun f => f ≠ font)) })).map (fun t =>
        if s.marksFor font t then t.mark .widths else t) = s.takes.map (askFailed s font) := by
    rw [List.map_map, List.map_map]
    exact List.map_congr_left fun x _ => (askFailed_eq s font x).symm
  rw [← records]
  simp only [lapse, watch, asking', if_true]
  rfl

theorem lapse_not_due {sub : Subject} (off : s.watched sub = false) : lapse s sub = s := by
  simp [lapse, off]

/-- A take that names the font is marked, or stands where no mark is placed (R26, R192, R193). -/
theorem askFailed_marked (named : x.fonts.contains font = true) :
    (askFailed s font x).scarce = true ∧ (x.state = .releasing ∨ x.state = .stranded ∨
      (askFailed s font x).release.isSome = true ∨ (x.state = .active ∧ s.killing = true)) := by
  refine ⟨Bool.or_eq_true_iff.2 (.inr named), ?_⟩
  cases marks : s.marksFor font x with
  | true =>
    have placed : (askFailed s font x).release = (x.mark .widths).release := by simp only [askFailed, marks, if_true]
    exact .inr (.inr (.inl (placed ▸ mark_isSome x .widths)))
  | false =>
    by_cases releasing : x.state = .releasing
    · exact .inl releasing
    by_cases stranded : x.state = .stranded
    · exact .inr (.inl stranded)
    exact .inr (.inr (.inr (by simpa only [State.marksFor, named, ne_eq, releasing, stranded, not_false_eq_true, decide_true,
      Bool.true_and, Bool.not_eq_false', Bool.and_eq_true, beq_iff_eq] using marks)))

/-- No mark is placed on an ACTIVE take that is being killed (R192). -/
theorem askFailed_killed (active : x.state = .active) (killing : s.killing = true) : (askFailed s font x).release = x.release := by
  simp [askFailed, State.marksFor, active, killing]

theorem askFailed_reask {l : List Nat} (h : (askFailed s font x).reask = some l) : font ∉ l := by
  obtain ⟨m, -, rfl⟩ := Option.map_eq_some_iff.1 h
  simp

theorem killing_iff : s.killing = true ↔ ∃ p, s.pass = some p ∧ p.killing = true := by
  unfold State.killing
  cases s.pass <;> simp

end Lapses

/-- Settles O29: a lapse without its watch is not due; of the two kinds, one strands a take and the other marks takes. -/
theorem lapsesStrandOrReleaseTakes : Obligations.LapsesStrandOrReleaseTakes := by
  refine fun s => ⟨fun x watch held releasing unclaimed => ?_, fun font watch asking => ?_, fun sub off => ?_⟩
  · have held' : (endWatch s (.take x.key)).take? x.key = some x := held
    refine ⟨_, answers_effect ((lapse_offer watch held releasing unclaimed).trans (strand_eq held')), ?_⟩
    dsimp only
    split
    · next again =>
      exact ⟨rfl, rfl, rfl, fun new => absurd again (by simp [new]), fun _ => ⟨rfl, rfl⟩⟩
    · next new =>
      refine ⟨produce_takes _ _ _, ?_, ?_, fun _ room => produce_noticed (by exact room) _ _, fun again => absurd again new⟩
      · rcases produce_cases ((endWatch s (.take x.key)).modTake x.key strandedTake) (some x.key) (.stranded x.scarce) with h | h <;>
          rw [h.2] <;> rfl
      · rw [produce_line]
        rfl
  · refine ⟨_, answers_effect (lapse_ask watch asking), rfl, List.length_map _, ?_, ?_, ?_, rfl⟩
    · intro y hy named
      obtain ⟨x, hx, rfl⟩ := List.mem_map.1 hy
      rw [← killing_iff]
      exact askFailed_marked named
    · intro p hp killing y hy active
      obtain ⟨x, hx, rfl⟩ := List.mem_map.1 hy
      exact ⟨x, hx, active, rfl, (askFailed_killed (x := x) active (killing_iff.2 ⟨p, hp, killing⟩)).symm⟩
    · intro y hy l reask
      obtain ⟨x, hx, rfl⟩ := List.mem_map.1 hy
      exact askFailed_reask reask
  · exact answers_effect (lapse_not_due off)

end Sys2Proof.Machine
end

section
/-! PROOFS. The events of the galley line itself, and the levels the station drives it to (R161 to R165, R170, R173, R175). -/

namespace Sys2Proof.Machine

/-! ### Start points and lost arbitration (R164, R170) -/

/-- A frame no longer being sent stands behind the frames of lower kinds, and before the next (Log 65). -/
theorem rejoinFrame_place (f : TxFrame) (q : List TxEntry) : ∃ a b, q = a ++ b ∧ (∀ e ∈ a, e.frame.kind < f.kind) ∧
    (∀ e ∈ b.head?, f.kind ≤ e.frame.kind) ∧ rejoinFrame f q = a ++ { frame := f, begun := false } :: b := by
  induction q with
  | nil => exact ⟨[], [], rfl, by simp, by simp, rfl⟩
  | cons e q ih =>
    unfold rejoinFrame
    split
    · next lower =>
      obtain ⟨a, b, rfl, before, behind, placed⟩ := ih
      exact ⟨e :: a, b, rfl, List.forall_mem_cons.2 ⟨lower, before⟩, behind, by rw [placed]; rfl⟩
    · next higher => exact ⟨[], e :: q, rfl, by simp, by simpa using higher, rfl⟩

/-! ### Bits and bytes on the line (R161, R162) -/

theorem lineLevel_asserted_iff (l : List LineLevel) : lineLevel l = .asserted ↔ .asserted ∈ l := by
  simp [lineLevel]

theorem byteLevels_length (b : Nat) : (byteLevels b).length = 10 := by
  simp [byteLevels, byteBits]

/-- A byte's data bits follow its start bit, the most significant first (R161). -/
theorem byteLevels_data (b : Nat) {i : Nat} (hi : i < 8) :
    (byteLevels b)[i + 1]? = some (if b.testBit (7 - i) then .released else .asserted) := by
  have place : i < ((byteBits b).map bitLevel).length := by simpa [byteBits] using hi
  rw [byteLevels, List.cons_append, List.getElem?_cons_succ, List.getElem?_append_left place]
  simp [byteBits, hi, bitLevel, Nat.testBit_eq_decide_div_mod_eq]

theorem byteLevels_stop (b : Nat) : (byteLevels b)[9]? = some .released := by
  simp [byteLevels, byteBits]

theorem lineRate_eq (s : State) : lineRate s = 31250 * 2 ^ s.panel.straps.lineRate.val := by
  unfold lineRate
  generalize s.panel.straps.lineRate = code
  match code with
  | 0 | 1 | 2 | 3 => rfl

theorem flatMap_byteLevels_length (bytes : List Nat) : (bytes.flatMap byteLevels).length = 10 * bytes.length := by
  induction bytes with
  | nil => rfl
  | cons b bytes ih =>
    rw [List.flatMap_cons, List.length_append, byteLevels_length, ih, List.length_cons, Nat.mul_succ, Nat.add_comm]

/-- Ten bits go out for each of a frame's 5 bytes and of its payload's (R161, R162). -/
theorem frameLevels_length (s : State) (f : TxFrame) :
    ((frameBytes s f).flatMap byteLevels).length = 10 * (5 + f.payload.2.length) := by
  have bytes : (frameBytes s f).length = 5 + f.payload.2.length := by
    simp [frameBytes, frameOf, two]
    omega
  rw [flatMap_byteLevels_length, bytes]

section Levels
variable {s : State}

theorem lineOut_aborting (aborting : s.line.phase = .aborting) : s.lineOut = List.replicate 12 .asserted := if_pos aborting

theorem lineOut_sending {f : TxFrame} {q : List TxEntry} (notAborting : s.line.phase ≠ .aborting)
    (queue : s.line.queue = { frame := f, begun := true } :: q) : s.lineOut = (frameBytes s f).flatMap byteLevels := by
  simp [State.lineOut, notAborting, LineInterface.sending?, queue, frameLevels]

theorem lineOut_silent (notAborting : s.line.phase ≠ .aborting) (idle : ∀ e ∈ s.line.queue, e.begun = false) :
    s.lineOut = [] := by
  have unsent : s.line.queue.find? (fun e => e.begun) = none := List.find?_eq_none.2 fun e he => by simp [idle e he]
  simp [State.lineOut, notAborting, LineInterface.sending?, unsent]

/-! ### Idle gaps and idle slots (R163, R173, R175) -/

theorem idleSlot_free (free : s.line.phase = .free) : idleSlot s =
    { s with line := { s.line with
      windows := s.line.windows.map (fun w => { w with slots := w.slots - (if w.queued then 0 else 1) })
      watches := s.line.watches.map (fun w => { w with slots := w.slots - 1 }) } } := by
  have counted : (fun w : Window => if w.queued then w else { w with slots := w.slots - 1 }) =
      fun w => { w with slots := w.slots - (if w.queued then 0 else 1) } := by
    funext w
    cases queued : w.queued with
    | false => simp
    | true => simp [← queued]
  rw [idleSlot, if_pos free, counted]

end Levels

/-- Settles O25: the events by the phase of the line, and the levels by the frame begun. -/
theorem startPointsGapsAndSlotsMoveTheLine : Obligations.StartPointsGapsAndSlotsMoveTheLine := by
  refine ⟨fun s => ⟨fun e q free queue => ?_, fun notDue => ?_⟩, fun s => ⟨fun f q sending queue => ?_, fun notDue => ?_⟩,
    ⟨lineLevel_asserted_iff, fun b => ⟨byteLevels_length b, rfl, byteLevels_stop b, fun i => byteLevels_data b⟩,
      fun s => ⟨lineRate_eq s, fun f q notAborting queue => ?_, lineOut_silent, lineOut_aborting⟩⟩,
    fun s => ⟨fun due => answers_effect (if_pos due), fun a b c => answers_effect (if_neg (by simp [a, b, c])),
      fun free => answers_effect (idleSlot_free free), fun busy => answers_effect (if_neg busy)⟩⟩
  · refine answers_effect ?_
    rw [startPoint, if_pos ⟨free, by simp [queue]⟩, queue]
    rfl
  · exact answers_effect (if_neg fun due => notDue.elim (absurd due.1) due.2)
  · obtain ⟨a, b, split, before, behind, placed⟩ := rejoinFrame_place f q
    refine ⟨a, b, split, before, behind, answers_effect ?_⟩
    rw [arbitrationLost, if_pos sending, queue, ← placed]
    rfl
  · exact answers_effect (if_neg notDue)
  · have out := lineOut_sending notAborting queue
    exact ⟨out, out ▸ frameLevels_length s f⟩

end Sys2Proof.Machine
end

section
/-! PROOFS. The transmit queue: where frames join it, which waiting frame takes a freed place (R170, R171), and what the producer
of a frame does as it ends (R165, R174, R175, R185, R194, R196, R202). -/

namespace Sys2Proof.Machine

/-! ### The order of the queue (R170, R171) -/

section Order

theorem insertFrame_behind_begun (f g : TxFrame) (q : List TxEntry) :
    insertFrame f ({ frame := g, begun := true } :: q) = { frame := g, begun := true } :: insertFrame f q := if_pos (.inl rfl)

/-- A frame joins a queue in order behind its kind and lower ones, and before the higher (R170). -/
theorem insertFrame_place (f : TxFrame) {q : List TxEntry} (waits : ∀ e ∈ q, e.begun = false)
    (order : (q.map (fun e => e.frame.kind)).Pairwise (· ≤ ·)) : ∃ a b, q = a ++ b ∧
      insertFrame f q = a ++ { frame := f, begun := false } :: b ∧
      (∀ e ∈ a, e.frame.kind ≤ f.kind) ∧ (∀ e ∈ b, f.kind < e.frame.kind) := by
  induction q with
  | nil => exact ⟨[], [], rfl, rfl, by simp, by simp⟩
  | cons e q ih =>
    obtain ⟨first, rest⟩ := List.pairwise_cons.1 order
    obtain ⟨wait, waits⟩ := List.forall_mem_cons.1 waits
    unfold insertFrame
    split
    · next before =>
      obtain ⟨a, b, rfl, placed, lower, higher⟩ := ih waits rest
      have notAfter : e.frame.kind ≤ f.kind := by simpa [wait] using before
      exact ⟨e :: a, b, rfl, by rw [placed]; rfl, List.forall_mem_cons.2 ⟨notAfter, lower⟩, higher⟩
    · next after =>
      have behind : f.kind < e.frame.kind := by simpa [wait] using after
      refine ⟨[], e :: q, rfl, rfl, by simp, List.forall_mem_cons.2 ⟨behind, fun x hx => ?_⟩⟩
      exact Nat.lt_of_lt_of_le behind (first _ (List.mem_map_of_mem hx))

/-- A queue in order, with a frame between the kinds up to its own and the higher ones, is in order. -/
theorem kinds_pairwise {f : TxFrame} {a b : List TxEntry} (order : ((a ++ b).map (fun e => e.frame.kind)).Pairwise (· ≤ ·))
    (lower : ∀ e ∈ a, e.frame.kind ≤ f.kind) (higher : ∀ e ∈ b, f.kind < e.frame.kind) :
    ((a ++ { frame := f, begun := false } :: b).map (fun e => e.frame.kind)).Pairwise (· ≤ ·) := by
  rw [List.pairwise_map] at order ⊢
  obtain ⟨before, after, across⟩ := List.pairwise_append.1 order
  refine List.pairwise_append.2 ⟨before, List.pairwise_cons.2 ⟨fun e he => Nat.le_of_lt (higher e he), after⟩, fun x hx y hy => ?_⟩
  rcases List.mem_cons.1 hy with rfl | hy
  · exact lower x hx
  · exact across x hx y hy

theorem pickWaiting_mem {l rest : List TxFrame} {g : TxFrame} (h : pickWaiting l = some (g, rest)) : g ∈ l := by
  induction l generalizing g rest with
  | nil => cases h
  | cons f l ih =>
    unfold pickWaiting at h
    split at h
    · cases h
      exact List.mem_cons_self ..
    · next picked =>
      split at h <;> cases h
      · exact List.mem_cons_self ..
      · exact List.mem_cons_of_mem _ (ih picked)

theorem pickWaiting_eq_none {l : List TxFrame} (h : pickWaiting l = none) : l = [] := by
  cases l with
  | nil => rfl
  | cons f l =>
    unfold pickWaiting at h
    split at h
    · cases h
    · split at h <;> cases h

/-- The waiting frame of lowest kind is picked, the first of that kind (R171). -/
theorem pickWaiting_lowest {a b : List TxFrame} {f : TxFrame} (before : ∀ g ∈ a, f.kind < g.kind)
    (behind : ∀ g ∈ b, f.kind ≤ g.kind) : pickWaiting (a ++ f :: b) = some (f, a ++ b) := by
  induction a with
  | nil =>
    cases picked : pickWaiting b with
    | none => simp [pickWaiting, pickWaiting_eq_none picked]
    | some p =>
      have notAbove : f.kind ≤ p.1.kind := behind p.1 (pickWaiting_mem picked)
      simp [pickWaiting, picked, notAbove]
  | cons g a ih =>
    obtain ⟨above, before⟩ := List.forall_mem_cons.1 before
    simp [pickWaiting, ih before, Nat.not_le.2 above]

theorem giveRoom_given {s : State} {a b : List TxFrame} {f : TxFrame} (place : s.line.queue.length < 8)
    (waiting : s.line.waiting = a ++ f :: b) (before : ∀ g ∈ a, f.kind < g.kind) (behind : ∀ g ∈ b, f.kind ≤ g.kind) :
    giveRoom s = { s with line := { s.line with queue := insertFrame f s.line.queue, waiting := a ++ b } } := by
  have place : s.line.queue.length < Config.queueFrames := place
  rw [giveRoom, if_pos place, waiting, pickWaiting_lowest before behind]

theorem giveRoom_not_due {s : State} (h : s.line.waiting = [] ∨ 8 ≤ s.line.queue.length) : giveRoom s = s := by
  rcases h with none | full
  · simp [giveRoom, none, pickWaiting]
  · exact if_neg (Nat.not_lt.2 full)

end Order

/-! ### The frame being sent leaves the queue (R165) -/

/-- The Line Interface as the frame at the head has left it, sent or aborted. -/
def frameGone (l : LineInterface) (q : List TxEntry) (c : Instr) : LineInterface :=
  { l with
    phase := if c = .frameAborted then .aborting else .gapDue, queue := q
    broken := if c = .frameAborted then satAdd 65535 l.broken 1 else l.broken }

/-- How the frame being sent ends by this command (R165). -/
def endOf (c : Instr) : FrameEnd := if c = .frameAborted then .broken else .sent

theorem end_cases {c : Instr} (hc : c ∈ [Instr.frameSent, .frameAborted]) : c = .frameSent ∨ c = .frameAborted := by
  simpa only [List.mem_cons, List.not_mem_nil, or_false] using hc

section Ends
variable {s : State} {f : TxFrame} {q : List TxEntry} {c : Instr}

/-- Its producer is told as the frame being sent has left the queue (R165). -/
theorem exec_frame_ends (hc : c ∈ [Instr.frameSent, .frameAborted]) (sending : s.line.phase = .sending)
    (head : s.line.queue = { frame := f, begun := true } :: q) (rest : ∀ e ∈ q, e.begun = false) :
    exec c s = done (tellProducer { s with line := frameGone s.line q c } f (endOf c)) := by
  have front : s.line.sending? = some f := by simp [LineInterface.sending?, head]
  have left : s.line.queue.filter (fun e => !e.begun) = q := by
    rw [head, List.filter_cons_of_neg (by simp)]
    exact List.filter_eq_self.2 fun e he => by simp [rest e he]
  have ends (e : FrameEnd) : frameEnds s e = tellProducer { s with line := { s.line with
      queue := q, phase := if e = .broken then .aborting else .gapDue
      broken := if e = .broken then satAdd 65535 s.line.broken 1 else s.line.broken } } f e := by
    simp only [frameEnds, sending, front, left, Config.top16]
  rcases end_cases hc with rfl | rfl
  · exact congrArg done (ends .sent)
  · exact congrArg done (ends .broken)

theorem frameEnds_not_due (quiet : s.line.phase ≠ .sending) (e : FrameEnd) : frameEnds s e = s := by
  unfold frameEnds
  split
  · next sending _ => exact absurd sending quiet
  · rfl

end Ends

/-! ### The ANNOUNCE (R129, R153, R202) -/

section Announce
variable {s : State}

theorem enterRun_takes (s : State) : (enterRun s).takes =
    s.takes.map (examined { s with
      stop := { s.stop with station := .run }
      comp := { s.comp with phase := if s.comp.phase = .paused then .setting else s.comp.phase } }) := rfl

/-- Entering RUN examines the STRANDED takes, and holds every take in its place (R195). -/
theorem enterRun_keys (s : State) : (enterRun s).takes.map (fun x => x.key) = s.takes.map (fun x => x.key) := by
  rw [enterRun_takes, List.map_map]
  exact List.map_congr_left fun x _ => examined_key _ x

/-- The FILM-LOW notice of a start-up is due: the first after power-on, with the film low or its count assumed (R129). -/
def State.filmNoticed (s : State) : Bool := s.panel.filmNoticeDue && (decide (s.film.remaining < 57000) || !s.film.known)

theorem dueFilmNotice_eq (room : hasRoom s) : dueFilmNotice s =
    { s with
      panel := { s.panel with filmNoticeDue := false }
      film := { s.film with lowNotified := s.film.lowNotified || s.filmNoticed }
      line := if s.filmNoticed then
          { s.line with queue := insertFrame (.notice none (.filmLow s.film.remaining s.film.known)) s.line.queue }
        else s.line } := by
  unfold dueFilmNotice State.filmNoticed
  cases due : s.panel.filmNoticeDue with
  | false =>
    have notDue : ({ s.panel with filmNoticeDue := false } : Panel) = s.panel := due ▸ rfl
    simp only [notDue, Bool.false_eq_true, if_false, Bool.false_and, Bool.or_false]
  | true =>
    have short (p : Panel) : ({ s with panel := p } : State).filmShort = (decide (s.film.remaining < 57000) || !s.film.known) := rfl
    simp only [if_true, short, Bool.true_and]
    cases low : decide (s.film.remaining < 57000) || !s.film.known with
    | false => simp
    | true =>
      simp only [if_true, Bool.or_true]
      exact produce_with_room (by exact room) _ _

theorem announceGone_elsewhere (stage : s.panel.stage ≠ .announce) : announceGone s = s := if_neg stage

theorem announceGone_run (stage : s.panel.stage = .announce) (sound : s.panel.startFault = none) :
    announceGone s = enterRun (setStage (dueFilmNotice s) .done) := by
  rw [announceGone, if_pos stage, sound]

theorem announceGone_halt {m : Mech} (stage : s.panel.stage = .announce) (failed : s.panel.startFault = some m) :
    announceGone s = enterHalt (setStage s .done) m false := by
  rw [announceGone, if_pos stage, failed]

/-- The record of a HALT (R153). -/
def haltRecord (s : State) (m : Mech) : StopRecord :=
  { kind := .mechanism, key := none, line := none, font := none, door := none, mech := some m, earlier := none, toHold := false
    timeRaised := Config.moment s.moments, timer := false }

/-- The state that a HALT has brought about before its notice is produced. -/
def State.halted (s : State) (m : Mech) : State :=
  let off := cancelWindows (lampOff s.noteMoment) (fun _ => true)
  markTakes { off with
    stop := { s.stop with station := .halt, record := some (haltRecord s m), clearing := false }
    exp := { s.exp with homing := none, phase := if s.exp.homing.isSome then .idle else s.exp.phase } } .halt (fun _ => true)

theorem enterHalt_eq (s : State) (m : Mech) : enterHalt s m false = produce (s.halted m) none (.halt m false) := rfl

theorem halted_line (s : State) (m : Mech) :
    (s.halted m).line = (cancelWindows (lampOff s.noteMoment) (fun _ => true)).line := rfl

theorem halted_hasRoom (room : hasRoom s) (m : Mech) : hasRoom (s.halted m) := by
  have off : hasRoom (lampOff s.noteMoment) := ⟨room.1, room.2⟩
  simpa only [hasRoom, halted_line] using cancelWindows_hasRoom (lampOff s.noteMoment) (fun _ => true) off

theorem enterHalt_noticed (room : hasRoom s) (m : Mech) : noticed (enterHalt s m false) none (.halt m false) :=
  produce_noticed (halted_hasRoom room m) _ _

end Announce

/-! ### The frames of takes and of fonts (R174, R175, R185, R194, R196) -/

section Producers
variable {s : State}

theorem offerEnds_watched {k : Key} {x : Take} (found : s.take? k = some x) (releasing : x.state = .releasing)
    (unclaimed : x.claimant = none) : offerEnds s k = startWatch s (.take k) := by
  simp [offerEnds, found, releasing, unclaimed]

theorem offerEnds_eq_self {k : Key} (other : ∀ x, s.take? k = some x → x.state ≠ .releasing ∨ x.claimant ≠ none) :
    offerEnds s k = s := by
  unfold offerEnds
  split
  · next x found => exact if_neg fun ⟨releasing, unclaimed⟩ => (other x found).elim (· releasing) (· unclaimed)
  · rfl

theorem takenSent_eq_self {k : Key} (other : ∀ x, s.take? k = some x → x.state ≠ .receiving) : takenSent s k = s := by
  unfold takenSent
  split
  · next x found => exact if_neg (other x found)
  · rfl

theorem takenLost_eq_self {k : Key} (other : ∀ x, s.take? k = some x → x.state ≠ .receiving) : takenLost s k = s := by
  unfold takenLost
  split
  · next x found => exact if_neg (other x found)
  · rfl

theorem takenLost_receiving {k : Key} {x : Take} (found : s.take? k = some x) (receiving : x.state = .receiving) :
    takenLost s k = freeTake s k := by
  simp [takenLost, found, receiving]

theorem endOf_ne_muted (c : Instr) : endOf c ≠ .muted := by
  unfold endOf
  split <;> exact nofun

/-- A take once its COPY-END to station `d` has ended by `c`: it is noted where it was sent whole, and its TAKEN is waited for
where that station is the claimant (R194, R196; Log 15). -/
def Take.copyEnded (d : Nat) (c : Instr) (y : Take) : Take :=
  { y with
    sentEnd := if c = .frameSent ∧ (y.state = .releasing ∨ y.state = .stranded) ∧ d ∉ y.sentEnd then y.sentEnd ++ [d] else y.sentEnd
    timer := if y.state = .releasing ∧ y.claimant = some d then some .takenWait else y.timer }

theorem startTakenWait_markSent (k : Key) (d : Nat) :
    startTakenWait (markSent s k d) k d = s.modTake k (Take.copyEnded d .frameSent) := by
  unfold startTakenWait markSent
  rw [modTake_modTake]
  · refine congrArg (s.modTake k) (funext fun y => ?_)
    by_cases noted : y.state = .releasing ∨ y.state = .stranded <;> by_cases sent : d ∈ y.sentEnd <;>
      by_cases waits : y.state = .releasing ∧ y.claimant = some d <;> simp [Take.copyEnded, noted, sent, waits]
  · intro y
    split <;> rfl

theorem startTakenWait_eq (k : Key) (d : Nat) : startTakenWait s k d = s.modTake k (Take.copyEnded d .frameAborted) := by
  refine congrArg (s.modTake k) (funext fun y => ?_)
  unfold Take.copyEnded
  split <;> simp

/-- The frames that abandoned asks withdraw, and the watches they end, are all they change of the line; the panel stands (R21,
R25). -/
def Eased (s t : State) : Prop :=
  t.panel = s.panel ∧ ∃ queue waiting watches,
    t.line = { s.line with queue := queue, waiting := waiting, watches := watches } ∧
    queue.Sublist s.line.queue ∧ waiting.Sublist s.line.waiting

theorem Eased.refl (s : State) : Eased s s := ⟨rfl, _, _, _, rfl, .refl _, .refl _⟩

theorem Eased.trans {t u : State} (first : Eased s t) (second : Eased t u) : Eased s u := by
  obtain ⟨panel, queue, waiting, watches, line, queued, waits⟩ := first
  obtain ⟨panel', queue', waiting', watches', line', queued', waits'⟩ := second
  rw [line] at line' queued' waits'
  exact ⟨panel'.trans panel, queue', waiting', watches', line', queued'.trans queued, waits'.trans waits⟩

theorem endAsk_eased (s : State) (font : Nat) : Eased s (endAsk s font) :=
  ⟨rfl, _, _, _, rfl, List.filter_sublist, List.filter_sublist⟩

theorem unpinFont_eased (s : State) (font : Nat) : Eased s (unpinFont s font) := by
  unfold unpinFont
  dsimp only
  split
  · split
    · split
      · split
        · exact .refl s
        · exact endAsk_eased { s with width := _ } font
        · exact .refl s
      · exact .refl s
    · exact .refl s
  · exact .refl s

theorem unpinFonts_eased (s : State) (fonts : List Nat) : Eased s (unpinFonts s fonts) := by
  unfold unpinFonts
  generalize distinct fonts = l
  induction l generalizing s with
  | nil => exact .refl s
  | cons font l ih => exact (unpinFont_eased s font).trans (ih (unpinFont s font))

theorem freeTake_eased (s : State) (k : Key) : Eased s (freeTake s k) := by
  unfold freeTake
  split
  · exact unpinFonts_eased { s with takes := _ } _
  · exact .refl s

theorem freeTake_broken (s : State) (k : Key) : (freeTake s k).line.broken = s.line.broken := by
  obtain ⟨-, _, _, _, line, -, -⟩ := freeTake_eased s k
  rw [line]

end Producers

/-! ### The order of the queue and what a frame's end does (R165, R170, R171, R202) -/

section Settled
variable {s : State} {q : List TxEntry} {c : Instr}

theorem frameGone_hasRoom (unmuted : s.line.mute = false) (room : q.length + s.line.waiting.length < 8) (c : Instr) :
    hasRoom { s with line := frameGone s.line q c } := ⟨unmuted, room⟩

/-- With the ANNOUNCE gone after a start-up without fault the station runs (R129, R202). -/
theorem announceGone_runs (room : hasRoom s) (stage : s.panel.stage = .announce) (sound : s.panel.startFault = none) :
    (announceGone s).stop = { s.stop with station := .run } ∧
    (announceGone s).panel = { s.panel with stage := .done, filmNoticeDue := false } ∧
    (announceGone s).film = { s.film with lowNotified := s.film.lowNotified || s.filmNoticed } ∧
    (announceGone s).exp = s.exp ∧ (announceGone s).lamp = s.lamp ∧
    (announceGone s).line = (if s.filmNoticed then
      { s.line with queue := insertFrame (.notice none (.filmLow s.film.remaining s.film.known)) s.line.queue } else s.line) ∧
    (announceGone s).takes.map (fun x => x.key) = s.takes.map (fun x => x.key) := by
  rw [announceGone_run stage sound, dueFilmNotice_eq room]
  exact ⟨rfl, rfl, rfl, rfl, rfl, rfl, enterRun_keys _⟩

/-- With the ANNOUNCE gone after a start-up with a fault the station halts (R153, R202). -/
theorem announceGone_halts {m : Mech} (room : hasRoom s) (stage : s.panel.stage = .announce)
    (failed : s.panel.startFault = some m) :
    (announceGone s).stop = { s.stop with station := .halt, record := some (haltRecord s m), clearing := false } ∧
    (announceGone s).panel = { s.panel with stage := .done } ∧ (announceGone s).lamp = { s.lamp with phase := .off } ∧
    noticed (announceGone s) none (.halt m false) ∧ (announceGone s).film = s.film := by
  rw [announceGone_halt stage failed]
  refine ⟨?_, ?_, ?_, enterHalt_noticed (by exact room) m, ?_⟩ <;> rw [enterHalt_eq, produce_line] <;> rfl

end Settled

/-- Settles O26: frames stand in the queue by their kind, a freed place goes to the waiting frame of lowest kind, and of a frame
that has left the queue its producer is told. -/
theorem queuedFramesKeepTheirOrderAndLeave : Obligations.QueuedFramesKeepTheirOrderAndLeave := by
  unfold Obligations.QueuedFramesKeepTheirOrderAndLeave
  refine ⟨⟨fun f q waits order => ?ordered, insertFrame_behind_begun⟩,
    fun s => ⟨fun a f b place waiting before behind => answers_effect (giveRoom_given place waiting before behind),
      fun notDue => answers_effect (giveRoom_not_due notDue)⟩,
    fun s => ⟨fun f q sending head rest told => ?told, fun quiet =>
      ⟨answers_effect (frameEnds_not_due quiet .sent), answers_effect (frameEnds_not_due quiet .broken)⟩⟩,
    fun s f q sending head rest => ?ends⟩
  case ordered =>
    obtain ⟨a, b, rfl, placed, lower, higher⟩ := insertFrame_place f waits order
    exact ⟨placed ▸ kinds_pairwise order lower higher, a, b, rfl, placed, lower, higher⟩
  case told =>
    have alone (u : State) (e : FrameEnd) : tellProducer u f e = u := by
      rcases told with ⟨_, _, rfl⟩ | ⟨_, _, _, rfl⟩ <;> rfl
    have ends (c) (hc : c ∈ [Instr.frameSent, .frameAborted]) : exec c s = done { s with line := frameGone s.line q c } := by
      rw [exec_frame_ends hc sending head rest, alone]
    exact ⟨ends .frameSent (by simp), ends .frameAborted (by simp)⟩
  case ends =>
    have ends {g : Instr → State} (told : ∀ c ∈ [Instr.frameSent, .frameAborted],
        tellProducer { s with line := frameGone s.line q c } f (endOf c) = g c) :
        ∀ c ∈ [Instr.frameSent, .frameAborted], exec c s = .next (settle (g c)) := fun c hc =>
      (exec_frame_ends hc sending head rest).trans (answers_effect (told c hc))
    refine ⟨?announce, ?widthAsk, ?widthTable, ?offer, ?copy, ?copyEnd, ?taken⟩
    case announce =>
      rintro _ rfl
      refine ⟨fun stage => ends fun c _ => announceGone_elsewhere stage, ?runs, ?halts⟩
      · intro stage sound _ unmuted room _ c hc
        exact ⟨_, ends (fun _ _ => rfl) c hc, announceGone_runs (frameGone_hasRoom unmuted room c) stage sound⟩
      · intro m stage failed unmuted _ room c hc
        obtain ⟨stop, panel, lamp, told, film⟩ := announceGone_halts (frameGone_hasRoom unmuted room c) stage failed
        exact ⟨_, _, ends (fun _ _ => rfl) c hc, stop, rfl, rfl, rfl, panel, lamp, told, film⟩
    case widthAsk =>
      rintro font rfl
      exact ⟨fun asking => ends fun c _ => if_pos asking, fun idle => ends fun c _ => if_neg (by simp [idle])⟩
    case widthTable =>
      rintro font rev ws rfl
      exact ends fun c _ => rfl
    case offer =>
      rintro m rfl
      exact ⟨fun x found releasing unclaimed => ends fun c _ => offerEnds_watched found releasing unclaimed,
        fun other => ends fun c _ => offerEnds_eq_self other⟩
    case copy =>
      rintro k d o data rfl
      exact ends fun c _ => if_neg (endOf_ne_muted c)
    case copyEnd =>
      rintro k d n rfl
      refine ends fun c hc => ?_
      rcases end_cases hc with rfl | rfl
      · exact startTakenWait_markSent k d
      · exact startTakenWait_eq k d
    case taken =>
      rintro k d rfl
      refine ⟨fun x found receiving => ?_, fun other => ends fun c hc => ?_⟩
      · refine ⟨_, ends (fun _ _ => rfl) .frameAborted (by simp), ?_⟩
        have lost : tellProducer { s with line := frameGone s.line q .frameAborted } (.taken k d) .broken =
            freeTake { s with line := frameGone s.line q .frameAborted } k := takenLost_receiving found receiving
        refine lost ▸ ⟨freeTake_takes _ k, (freeTake_still _ k).2.1, freeTake_broken _ k⟩
      · rcases end_cases hc with rfl | rfl
        · exact takenSent_eq_self other
        · exact takenLost_eq_self other

end Sys2Proof.Machine
end

section
/-! PROOFS. A station that hears a frame of its own number: it falls silent, the producers of its frames are told, and the frame
then acts as on a muted station (R168, R169). -/

namespace Sys2Proof.Machine

/-! ### What stays silent (R169) -/

/-- The Line Interface is muted, with no frame and no window left and the line due its gap; the strap pins are those read. -/
structure Silenced (pins : Straps) (u : State) : Prop where
  mute : u.line.mute = true
  queue : u.line.queue = []
  waiting : u.line.waiting = []
  windows : u.line.windows = []
  phase : u.line.phase = .gapDue
  straps : u.panel.straps = pins

namespace Silenced
variable {pins : Straps} {u t : State}

/-- Watches and the count of lost notices are all that changes of a muted station's line. -/
theorem kept (h : Silenced pins u) {watches : List Watch} {lost : Nat}
    (line : t.line = { u.line with watches := watches, lost := lost }) (straps : t.panel.straps = u.panel.straps) :
    Silenced pins t := by
  obtain ⟨mute, queue, waiting, windows, phase, same⟩ := h
  refine ⟨?_, ?_, ?_, ?_, ?_, straps.trans same⟩ <;> rw [line] <;> assumption

theorem eased (h : Silenced pins u) (e : Eased u t) : Silenced pins t := by
  obtain ⟨panel, queue, waiting, watches, line, queued, waits⟩ := e
  rw [h.queue, List.sublist_nil] at queued
  rw [h.waiting, List.sublist_nil] at waits
  subst queued waits
  refine ⟨?_, ?_, ?_, ?_, ?_, panel ▸ h.straps⟩ <;> rw [line]
  · exact h.mute
  · exact h.windows
  · exact h.phase

theorem startWatch (h : Silenced pins u) (sub : Subject) : Silenced pins (startWatch u sub) := h.kept rfl rfl

theorem modTake (h : Silenced pins u) (k : Key) (f : Take → Take) : Silenced pins (u.modTake k f) := h.kept rfl rfl

theorem produce (h : Silenced pins u) (key : Option Key) (b : NoticeBody) : Silenced pins (produce u key b) := by
  have lost : Machine.produce u key b = { u with line := { u.line with lost := satAdd 65535 u.line.lost 1 } } := by
    simp [Machine.produce, h.mute, Config.top16]
  rw [lost]
  exact h.kept rfl rfl

theorem withdraw (h : Silenced pins u) (p : TxFrame → Bool) : Silenced pins (withdraw u p) :=
  h.eased ⟨rfl, _, _, _, rfl, List.filter_sublist, List.filter_sublist⟩

theorem endWindow (h : Silenced pins u) (p : WindowFor → Bool) : Silenced pins (endWindow u p) := by
  have none : u.line.windows.filter (fun w => !p w.what) = [] := by simp [h.windows]
  exact ⟨h.mute, h.queue, h.waiting, none, h.phase, h.straps⟩

theorem cancelWindows (h : Silenced pins u) (p : WindowFor → Bool) : cancelWindows u p = u :=
  cancelWindows_eq_self fun w hw => by simp [h.windows] at hw

theorem claimEnds (h : Silenced pins u) (k : Key) (e : FrameEnd) : Silenced pins (claimEnds u k e) := by
  have same : Machine.claimEnds u k e = u := by simp [Machine.claimEnds, h.windows]
  rwa [same]

theorem takenLost (h : Silenced pins u) (k : Key) : Silenced pins (takenLost u k) := by
  unfold Machine.takenLost
  split
  · split
    · exact h.eased (freeTake_eased u k)
    · exact h
  · exact h

theorem offerEnds (h : Silenced pins u) (k : Key) : Silenced pins (offerEnds u k) := by
  unfold Machine.offerEnds
  split
  · split
    · exact h.startWatch _
    · exact h
  · exact h

theorem sendOffer (h : Silenced pins u) (k : Key) : Silenced pins (sendOffer u k) := by
  unfold Machine.sendOffer
  split
  · rw [if_pos h.mute]
    exact h.startWatch _
  · exact h

theorem strand (h : Silenced pins u) (k : Key) : Silenced pins (strand u k) := by
  unfold Machine.strand
  split
  · dsimp only
    split
    · exact h.modTake k _
    · exact (h.modTake k _).produce _ _
  · exact h

theorem copyMuted (h : Silenced pins u) (k : Key) (d : Nat) : Silenced pins (copyMuted u k d) := by
  have fails : Silenced pins (releaseFails u k) := by
    unfold releaseFails
    split
    · dsimp only
      split
      · exact ((h.withdraw _).modTake k _).sendOffer k
      · exact (h.withdraw _).strand k
    · exact h
  unfold Machine.copyMuted
  split
  · split
    · exact fails
    · exact h
  · exact h

theorem dueFilmNotice (h : Silenced pins u) : Silenced pins (dueFilmNotice u) := by
  have cleared : Silenced pins { u with panel := { u.panel with filmNoticeDue := false } } := h.kept rfl rfl
  unfold Machine.dueFilmNotice
  split
  · dsimp only
    split
    · refine produce ?_ _ _
      exact cleared.kept rfl rfl
    · exact cleared
  · exact h

theorem enterHalt (h : Silenced pins u) (m : Mech) : Silenced pins (enterHalt u m false) := by
  have off : Silenced pins (lampOff u.noteMoment) := h.kept rfl rfl
  rw [enterHalt_eq]
  refine produce ?_ _ _
  have line := halted_line u m
  rw [off.cancelWindows] at line
  exact h.kept line rfl

theorem announceGone (h : Silenced pins u) : Silenced pins (announceGone u) := by
  have staged {v : State} (h : Silenced pins v) : Silenced pins (setStage v .done) := h.kept rfl rfl
  have runs {v : State} (h : Silenced pins v) : Silenced pins (enterRun v) := h.kept rfl rfl
  unfold Machine.announceGone
  split
  · split
    · exact (staged h).enterHalt _
    · exact runs (staged h.dueFilmNotice)
  · exact h

/-- Whatever its producer does of a frame not sent, a muted station stays silent (R169). -/
theorem tellProducer (h : Silenced pins u) (f : TxFrame) : Silenced pins (tellProducer u f .muted) := by
  cases f with
  | claim k _ => exact h.claimEnds k .muted
  | widthTable font _ _ => exact h.endWindow _
  | taken k _ => exact h.takenLost k
  | refused _ _ _ => exact h
  | widthAsk font =>
    simp only [Machine.tellProducer]
    split
    · exact h.startWatch _
    · exact h
  | offer m => exact h.offerEnds m.key
  | copyEnd k d _ => exact h.copyMuted k d
  | copy k d _ _ => exact h.copyMuted k d
  | announce _ => exact h.announceGone
  | notice _ _ => exact h

theorem tellProducers (h : Silenced pins u) (frames : List TxFrame) :
    Silenced pins (frames.foldl (fun v f => Machine.tellProducer v f .muted) u) := by
  induction frames generalizing u with
  | nil => exact h
  | cons f frames ih => exact ih (h.tellProducer f)

theorem becomeMuted (h : Silenced pins u) : becomeMuted u = u := if_pos h.mute

theorem heard (h : Silenced pins u) : heard u = u := by
  have line : { u.line with phase := .gapDue } = u.line := h.phase ▸ rfl
  simp only [Machine.heard, line]

/-- A muted station bids on no offer, whoever sent it (R169, R181). -/
theorem hearOffer (h : Silenced pins u) (sender : Nat) (m : OfferMsg) : hearOffer u sender m = u := by
  have ineligible : u.eligible m = false := by simp [State.eligible, h.mute]
  simp [Machine.hearOffer, ineligible]

/-- A frame that passes its checks is handed over by a silenced station as it is, of whatever number its sender (R169). -/
theorem exec_frame {c : Instr} {f : Header} (h : Silenced pins u) (hc : frameHeader c = some f) (ok : frameOk c = true) :
    exec c u = done (if u.handsOver c then frameAct c u else u) := by
  have hears : u.hears = true := by simp [State.hears, h.phase]
  rw [Machine.exec_frame hc, ok, receive_passed hears, h.heard, h.becomeMuted]
  simp only [ite_self]

end Silenced

/-! ### The muting (R169) -/

/-- The frames a station has queued or waiting to be. -/
def State.unsent (s : State) : List TxFrame := s.line.queue.map (fun e => e.frame) ++ s.line.waiting

/-- The station as it falls silent at the end of a frame, its NOTICEs counted lost and no producer told yet. -/
def State.silenced (s : State) : State :=
  { s with line := { s.line with
    phase := .gapDue, mute := true, queue := [], waiting := [], windows := []
    lost := min 65535 (s.line.lost + (s.unsent.filter TxFrame.isNotice).length) } }

section Muting
variable {s : State}

theorem silenced_silenced (s : State) : Silenced s.panel.straps s.silenced := ⟨rfl, rfl, rfl, rfl, rfl, rfl⟩

theorem becomeMuted_heard (unmuted : s.line.mute = false) :
    becomeMuted (heard s) = s.unsent.foldl (fun v f => tellProducer v f .muted) s.silenced := if_neg (by simp [heard, unmuted])

theorem becomeMuted_silenced (unmuted : s.line.mute = false) : Silenced s.panel.straps (becomeMuted (heard s)) :=
  becomeMuted_heard unmuted ▸ (silenced_silenced s).tellProducers s.unsent

/-- NOTICEs have no producer to tell. -/
theorem tellProducers_notices (u : State) {frames : List TxFrame} (notices : ∀ f ∈ frames, ∃ k b, f = .notice k b) :
    frames.foldl (fun v f => tellProducer v f .muted) u = u := by
  induction frames with
  | nil => rfl
  | cons f frames ih =>
    obtain ⟨⟨k, b, notice⟩, others⟩ := List.forall_mem_cons.1 notices
    rw [notice]
    exact ih others

/-- The NOTICEs queued are counted lost. -/
theorem becomeMuted_notices (unmuted : s.line.mute = false) (notices : ∀ f ∈ s.unsent, ∃ k b, f = .notice k b) :
    becomeMuted (heard s) = { s.silenced with line := { s.silenced.line with
      lost := min 65535 (s.line.lost + s.unsent.length) } } := by
  have all : s.unsent.filter TxFrame.isNotice = s.unsent := List.filter_eq_self.2 fun f hf => by
    obtain ⟨k, b, rfl⟩ := notices f hf
    rfl
  rw [becomeMuted_heard unmuted, tellProducers_notices _ notices, State.silenced, all]

/-- The producer of the one frame queued is told. -/
theorem becomeMuted_one {f : TxFrame} (unmuted : s.line.mute = false) (one : s.unsent = [f]) (told : f.isNotice = false) :
    becomeMuted (heard s) = tellProducer { s.silenced with line := { s.silenced.line with lost := min 65535 s.line.lost } } f
      .muted := by
  have none : s.unsent.filter TxFrame.isNotice = [] := by simp [one, told]
  rw [becomeMuted_heard unmuted, State.silenced, none, one]
  rfl

theorem frameOk_headerOk {c : Instr} {h : Header} (hc : frameHeader c = some h) (ok : frameOk c = true) :
    headerOk h = true := by
  cases c <;> cases hc <;> simp_all [frameOk]

end Muting

/-- Settles O16: the muting leaves the station silent, and a silent one hands any frame over as it is. -/
theorem announceAndNoticeOnlyDetectDuplicates : Obligations.AnnounceAndNoticeOnlyDetectDuplicates := by
  unfold Obligations.AnnounceAndNoticeOnlyDetectDuplicates
  refine ⟨fun c h p s kind => ?detected, fun c h s hc hears ok own unmuted => ?muted⟩
  case detected =>
    have hc : frameHeader c = some h := by rcases kind with rfl | rfl <;> rfl
    have ignored (u : State) : u.handsOver c = false := by rcases kind with rfl | rfl <;> rfl
    refine ⟨fun received => exec_not_handed hc received (ignored s), fun hears ok own => ?_⟩
    have taken : exec c s = done (becomeMuted (heard s)) := by
      rw [exec_frame hc, ok, receive_passed hears, if_pos own, ignored]
      rfl
    refine ⟨fun muted => taken.trans (answers_effect (if_pos muted)), fun unmuted => ⟨_, taken, ?_⟩⟩
    obtain ⟨mute, queue, waiting, windows, -, -⟩ := becomeMuted_silenced unmuted
    exact ⟨mute, queue, waiting, windows⟩
  case muted =>
    have silent := becomeMuted_silenced unmuted
    have number : (becomeMuted (heard s)).number = s.number := congrArg (fun p => p.station.val) silent.straps
    have hands : (becomeMuted (heard s)).handsOver c = s.handsOver c := by
      cases c <;> simp only [State.handsOver, State.resetAddressed, State.addressed, number]
    have acts : exec c s = exec c (becomeMuted (heard s)) := by
      rw [silent.exec_frame hc ok, exec_frame hc, ok, receive_passed hears, if_pos own, hands]
    refine ⟨becomeMuted (heard s), acts, silent.mute, silent.queue, silent.waiting, silent.windows, silent.phase, silent.straps,
      (becomeMuted_still (heard s)).2.1, becomeMuted_notices unmuted, fun font one asking => ?_,
      fun m x one found releasing unclaimed => ?_, fun k d x one found receiving => ?_, fun c' h' station same kind => ?_⟩
    · exact (becomeMuted_one unmuted one rfl).trans (if_pos asking)
    · exact (becomeMuted_one unmuted one rfl).trans (offerEnds_watched found releasing unclaimed)
    · have freed : becomeMuted (heard s) = freeTake _ k := (becomeMuted_one unmuted one rfl).trans
        (takenLost_receiving found receiving)
      rw [freed]
      exact freeTake_takes _ k
    · have header : headerOk h' = headerOk h := by
        have passed := frameOk_headerOk hc ok
        rw [passed]
        simpa [headerOk_iff, station, same] using ((headerOk_iff h).1 passed).2
      have acts' (hc' : frameHeader c' = some h') (ok' : frameOk c' = frameOk c)
          (hands : (becomeMuted (heard s)).handsOver c' = (becomeMuted (heard s)).handsOver c)
          (act : frameAct c' (becomeMuted (heard s)) = frameAct c (becomeMuted (heard s))) :
          exec c s = exec c' (becomeMuted (heard s)) := by
        rw [acts, silent.exec_frame hc ok, silent.exec_frame hc' (ok'.trans ok), hands, act]
      rcases kind with ⟨k, rfl, rfl⟩ | ⟨k, rfl, rfl⟩ | ⟨m, rfl, rfl⟩ | ⟨f, rfl, rfl⟩ | ⟨f, r, ws, rfl, rfl⟩ | ⟨b, rfl, rfl⟩ |
        ⟨b, rfl, rfl⟩ | ⟨p, rfl, rfl⟩
      case inr.inr.inl =>
        exact acts' rfl (by simp only [frameOk, header]) rfl ((silent.hearOffer _ m).trans (silent.hearOffer _ m).symm)
      all_goals
        refine acts' rfl (by simp only [frameOk, header]) ?_ rfl
        simp only [State.handsOver, State.resetAddressed, State.addressed, same]

end Sys2Proof.Machine
end

section
/-! PROOFS. Every step keeps the bounds of the line, the film and the store (R80, R109, R128, R170 to R176), the take records,
windows and width slots (R20 to R22, R172, R179 to R186, R193), and the lines of the pass (R80, R81, R84, R192): each command's
own effect does, and the reactions after it do. -/

namespace Sys2Proof.Machine

/-- `t` is within its bounds and sound where `s` is; the lines of `t` rest on the take records of `s` too. -/
structure AsSound (s t : State) : Prop where
  within : Within s t
  held : heldOk s → heldOk t
  lines : soundOk s → linesOk t

section Sound
variable {s t u : State}

theorem AsSound.rfl : AsSound s s := ⟨Within.rfl, id, fun h => h.2⟩

theorem AsSound.trans (h : AsSound s t) (k : AsSound t u) : AsSound s u :=
  ⟨h.within.trans k.within, k.held ∘ h.held, fun sound => k.lines ⟨h.held sound.1, h.lines sound⟩⟩

theorem AsSound.of_keeps (within : Within s t) (keeps : Keeps s t) (stays : Stays s t) : AsSound s t :=
  ⟨within, keeps.held, fun sound => stays.lines sound.2⟩

/-- What changes takes that are not ACTIVE leaves the lines as they are only where the take records are sound. -/
theorem AsSound.of_held (within : Within s t) (held : heldOk s → heldOk t) (stays : heldOk s → Stays s t) : AsSound s t :=
  ⟨within, held, fun sound => (stays sound.1).lines sound.2⟩

theorem AsSound.ite {p : Prop} [Decidable p] {a b : State} (ha : AsSound s a) (hb : AsSound s b) :
    AsSound s (if p then a else b) := by
  split
  · exact ha
  · exact hb

theorem wake_asSound (s : State) : AsSound s (wake s) := .of_keeps (wake_within s) (wake_keeps s) (wake_stays s)

/-- A received frame that passes its checks keeps what it does when it acts. -/
theorem receive_asSound {h : Header} {ok taken : Bool} {act : State → State} (acts : ok = true → ∀ u, AsSound u (act u)) :
    AsSound s (receive s h ok taken act) := by
  refine ⟨?_, fun held => receive_held held fun passed u => (acts passed u).held,
    fun sound => (receive_sound sound fun passed u k => ⟨(acts passed u).held k.1, (acts passed u).lines k⟩).2⟩
  cases ok with
  | true => exact receive_within fun u => (acts rfl u).within
  | false =>
    have unchecked : receive s h false taken act = receive s h false taken id := by
      unfold receive
      split <;> rfl
    rw [unchecked]
    exact receive_within fun _ => Within.rfl

/-- The byte that is due is taken as sound, or nothing is. -/
theorem readByte_asSound {p : Nat → Bool} {act : Reading → Nat → State}
    (acts : ∀ r b, reading? s = some r → r.byte = some b → AsSound s (act r b)) : AsSound s (readByte s p act) := by
  unfold readByte
  split
  · next r due =>
    split
    · next b hb => exact .ite (acts r b due hb) .rfl
    · exact .rfl
  · exact .rfl

/-- A copy command that is due acts as sound, its arguments read past, or is cut off by the end of copy (R5). -/
theorem copyCommand_asSound {code n : Nat} {act : Reading → List Nat → State → State}
    (acts : ∀ r a u, reading? s = some r → u = readPast s (r.ctx.resume + 1 + n) → AsSound s u → AsSound s (act r a u)) :
    AsSound s (copyCommand s code n act) := by
  unfold copyCommand
  refine readByte_asSound fun r b due hb => ?_
  obtain ⟨-, -, hx, inText⟩ := reading_some due
  have before := inText b hb
  have resume : ∀ x, s.comp.ctx = some x → x.resume = r.ctx.resume := fun x e => by rw [Option.some.inj (e.symm.trans hx)]
  split
  · refine acts r _ _ due rfl ⟨readPast_within _ _, (readPast_keeps _ _).held, fun sound => ?_⟩
    exact readPast_lines sound.2 fun x e => by have := resume x e; omega
  · refine ⟨(addCopyErrors_within _ _).trans (readPast_within _ _),
      ((addCopyErrors_keeps _ _).trans (readPast_keeps _ _)).held, fun sound => ?_⟩
    exact readPast_lines ((addCopyErrors_stays s 1).lines sound.2) fun x e => by have := resume x e; omega

/-- A copy command that sets or counts something once it has been read past. -/
theorem copyCommand_asSound_of {code n : Nat} {act : Reading → List Nat → State → State}
    (acts : ∀ r a u, AsSound u (act r a u)) : AsSound s (copyCommand s code n act) :=
  copyCommand_asSound fun r a u _ _ past => past.trans (acts r a u)

theorem takeFixedSpace_asSound {r : Reading} (due : reading? s = some r) (units : Nat) : AsSound s (takeFixedSpace s r units) :=
  ⟨takeFixedSpace_within s r units, (takeFixedSpace_keeps s r units).held, fun sound => takeFixedSpace_lines units sound.2 due⟩

/-- What a command does before the reactions keeps all that is sound. -/
theorem exec_effect_asSound (c : Instr) (s : State) : ∃ u, exec c s = done u ∧ AsSound s u := by
  cases c with
  | powerOn pins => exact ⟨_, rfl, powerOn_within s pins, fun _ => powerOn_held s pins, fun _ => powerOn_lines s pins⟩
  | reset h straps =>
    exact ⟨_, rfl, receive_asSound fun _ u => ⟨lineReset_within u straps, lineReset_held straps, fun _ => lineReset_lines u straps⟩⟩
  | romReadDone rom => exact ⟨_, rfl, .of_keeps (romRead_within s rom) (romRead_keeps s rom) (romRead_stays s rom)⟩
  | kill h key => exact ⟨_, rfl, receive_asSound fun _ u => ⟨hearKill_within u key, hearKill_held key, hearKill_lines key⟩⟩
  | claim h key cost =>
    exact ⟨_, rfl, receive_asSound fun _ u =>
      .of_keeps (hearClaim_within u h.sender key) (hearClaim_keeps u h.sender key) (hearClaim_stays u h.sender key)⟩
  | widthTable h font revision widths =>
    refine ⟨_, rfl, receive_asSound fun passed u => ?_⟩
    obtain ⟨-, -, revisionByte, bytes, -⟩ := (widthTable_frameOk_iff h font revision widths).1 passed
    exact .of_held (hearTable_within u font revision widths) (fun held => hearTable_held held (by omega) fun w hw => by
      have := bytes w hw; omega) fun _ => hearTable_stays u font revision widths
  | taken h key =>
    exact ⟨_, rfl, receive_asSound fun _ u =>
      .of_held (hearTaken_within u h.sender key) (hearTaken_held h.sender key) (hearTaken_stays h.sender key)⟩
  | refused h key reason =>
    exact ⟨_, rfl, receive_asSound fun _ u =>
      .of_held (hearRefused_within u h.sender key) (hearRefused_held h.sender key) (hearRefused_stays h.sender key)⟩
  | approve h key =>
    exact ⟨_, rfl, receive_asSound fun _ u =>
      .of_held (hearApprove_within u key) (hearApprove_keeps u key).held (hearApprove_stays key)⟩
  | widthAsk h font =>
    exact ⟨_, rfl, receive_asSound fun _ u =>
      .of_held (hearAsk_within u font) (hearAsk_held font) fun _ => hearAsk_stays u font⟩
  | offer h msg =>
    exact ⟨_, rfl, receive_asSound fun passed u =>
      .of_held (hearOffer_within u h.sender msg) (fun held => hearOffer_held h.sender held (Bool.and_eq_true_iff.1 passed).2)
        fun _ => hearOffer_stays u h.sender msg⟩
  | copy h key offset data =>
    exact ⟨_, rfl, receive_asSound fun _ u =>
      .of_held (hearCopy_within u h.sender key offset data) (hearCopy_held h.sender key offset data)
        fun _ => hearCopy_stays u h.sender key offset data⟩
  | copyEnd h key total =>
    exact ⟨_, rfl, receive_asSound fun _ u =>
      .of_held (hearCopyEnd_within u h.sender key total) (hearCopyEnd_held h.sender key total) (hearCopyEnd_stays h.sender key total)⟩
  | exceptionAdd h body =>
    exact ⟨_, rfl, receive_asSound fun _ u => .of_keeps (hearAdd_within u body) (hearAdd_keeps u body) (hearAdd_stays u body)⟩
  | exceptionDelete h body =>
    exact ⟨_, rfl, receive_asSound fun _ u =>
      .of_keeps (hearDelete_within u body) (hearDelete_keeps u body) (hearDelete_stays u body)⟩
  | announce | notice => exact ⟨_, rfl, receive_asSound fun _ _ => .rfl⟩
  | brokenFrame => exact ⟨_, rfl, .of_keeps (brokenHeard_within s) (brokenHeard_keeps s) (brokenHeard_stays s)⟩
  | badFrame => exact ⟨_, rfl, .of_keeps (badHeard_within s) (badHeard_keeps s) (badHeard_stays s)⟩
  | startPoint => exact ⟨_, rfl, .of_keeps (startPoint_within s) (startPoint_keeps s) (startPoint_stays s)⟩
  | arbitrationLost => exact ⟨_, rfl, .of_keeps (arbitrationLost_within s) (arbitrationLost_keeps s) (arbitrationLost_stays s)⟩
  | frameSent | frameAborted => exact ⟨_, rfl, .of_held (frameEnds_within s _) (frameEnds_held _) (frameEnds_stays _)⟩
  | idleSlot => exact ⟨_, rfl, .of_keeps (idleSlot_within s) (idleSlot_keeps s) (idleSlot_stays s)⟩
  | idleGap => exact ⟨_, rfl, .of_keeps (idleGap_within s) (idleGap_keeps s) (idleGap_stays s)⟩
  | windowExpired subject =>
    exact ⟨_, rfl, .of_keeps (expireWindow_within s subject) (expireWindow_keeps s subject) (expireWindow_stays s subject)⟩
  | roomGiven => exact ⟨_, rfl, .of_keeps (giveRoom_within s) (giveRoom_keeps s) (giveRoom_stays s)⟩
  | lapse subject => exact ⟨_, rfl, .of_held (lapse_within s subject) (lapse_held subject) (lapse_stays subject)⟩
  | font =>
    exact ⟨_, rfl, copyCommand_asSound_of fun r _ u =>
      .of_keeps (takeFont_within u r.take _) (takeFont_keeps u r.take _) (takeFont_stays u r.take _)⟩
  | size =>
    exact ⟨_, rfl, copyCommand_asSound_of fun _ _ u =>
      .of_keeps (takeSizeCommand_within u _) (takeSizeCommand_keeps u _) (takeSizeCommand_stays u _)⟩
  | lead =>
    exact ⟨_, rfl, copyCommand_asSound_of fun _ _ u => .of_keeps (takeLead_within u _) (takeLead_keeps u _) (takeLead_stays u _)⟩
  | measure =>
    exact ⟨_, rfl, copyCommand_asSound_of fun _ _ u =>
      .of_keeps (takeMeasure_within u _ _) (takeMeasure_keeps u _ _) (takeMeasure_stays u _ _)⟩
  | indent =>
    exact ⟨_, rfl, copyCommand_asSound_of fun _ _ u =>
      .of_keeps (takeIndent_within u _) (takeIndent_keeps u _) (takeIndent_stays u _)⟩
  | spaceband =>
    exact ⟨_, rfl, copyCommand_asSound_of fun _ _ u =>
      .of_keeps (takeSpaceband_within u _ _ _) (takeSpaceband_keeps u _ _ _) (takeSpaceband_stays u _ _ _)⟩
  | letterspace =>
    exact ⟨_, rfl, copyCommand_asSound_of fun _ _ u =>
      .of_keeps (takeLetterspace_within u _) (takeLetterspace_keeps u _) (takeLetterspace_stays u _)⟩
  | ladder =>
    exact ⟨_, rfl, copyCommand_asSound_of fun _ _ u =>
      .of_keeps (takeLadder_within u _) (takeLadder_keeps u _) (takeLadder_stays u _)⟩
  | mode =>
    exact ⟨_, rfl, copyCommand_asSound_of fun _ _ u => .of_keeps (takeMode_within u _) (takeMode_keeps u _) (takeMode_stays u _)⟩
  | hyph =>
    exact ⟨_, rfl, copyCommand_asSound_of fun _ _ u => .of_keeps (takeHyph_within u _) (takeHyph_keeps u _) (takeHyph_stays u _)⟩
  | caps =>
    exact ⟨_, rfl, copyCommand_asSound_of fun _ _ u => .of_keeps (takeCaps_within u _) (takeCaps_keeps u _) (takeCaps_stays u _)⟩
  | disc =>
    exact ⟨_, rfl, copyCommand_asSound_of fun _ _ u => .of_keeps (takeDisc_within u) (takeDisc_keeps u) (takeDisc_stays u)⟩
  | endpara =>
    refine ⟨_, rfl, copyCommand_asSound fun r _ u due read past => ?_⟩
    subst read
    exact ⟨past.within.trans (endParagraph_within _ r _ _), fun held => (endParagraph_keeps _ r _ _).held (past.held held),
      fun sound => endpara_lines sound.1 sound.2 due (past.lines sound)⟩
  | emspace | enspace | thinspace => exact ⟨_, rfl, copyCommand_asSound fun _ _ _ due _ _ => takeFixedSpace_asSound due _⟩
  | nbspace =>
    exact ⟨_, rfl, copyCommand_asSound fun r _ _ due _ _ =>
      ⟨placeNbspace_within s _, (placeNbspace_keeps s _).held, fun sound => takeNbspace_lines sound.2 due⟩⟩
  | character =>
    exact ⟨_, rfl, readByte_asSound fun r b due _ =>
      ⟨takeCharacter_within s r b, (takeCharacter_keeps s r b).held, fun sound => takeCharacter_lines b sound.2 due⟩⟩
  | wordSpace =>
    exact ⟨_, rfl, readByte_asSound fun r _ due _ =>
      ⟨takeWordSpace_within s r, (takeWordSpace_keeps s r).held, fun sound => takeWordSpace_lines sound.1 sound.2 due⟩⟩
  | rubout =>
    exact ⟨_, rfl, readByte_asSound fun r _ due _ =>
      ⟨readPast_within s _, (readPast_keeps s _).held, fun sound => readOne_lines sound.2 due⟩⟩
  | unknownByte =>
    exact ⟨_, rfl, readByte_asSound fun r _ due _ =>
      ⟨takeUnknown_within s r, (takeUnknown_keeps s r).held, fun sound => takeUnknown_lines sound.2 due⟩⟩
  | endOfCopy => exact ⟨_, rfl, takeEnd_within s, (takeEnd_keeps s).held, fun sound => takeEnd_lines sound.1 sound.2⟩
  | proofLineSent => exact ⟨_, rfl, .of_keeps (lineSent_within s) (lineSent_keeps s) (lineSent_stays s)⟩
  | proofCharacterSent => exact ⟨_, rfl, .of_keeps (charSent_within s) (charSent_keeps s) (charSent_stays s)⟩
  | busy asserted => exact ⟨_, rfl, .of_keeps (setBusy_within s asserted) (setBusy_keeps s asserted) (setBusy_stays s asserted)⟩
  | paper present => exact ⟨_, rfl, .of_keeps (setPaper_within s present) (setPaper_keeps s present) (setPaper_stays s present)⟩
  | busyStall => exact ⟨_, rfl, .of_keeps (busyStall_within s) (busyStall_keeps s) (busyStall_stays s)⟩
  | paperTimer => exact ⟨_, rfl, abandonPass_within s, (abandonPass_keeps s).held, fun sound => abandonPass_lines sound.2⟩
  | seatIndex seat =>
    exact ⟨_, rfl, .of_keeps (seatIndexEvent_within s seat) (seatIndexEvent_keeps s seat) (seatIndexEvent_stays s seat)⟩
  | lensIndex lens => exact ⟨_, rfl, .of_keeps (lensEvent_within s lens) (lensEvent_keeps s lens) (lensEvent_stays s lens)⟩
  | position tabs cassette =>
    exact ⟨_, rfl, .of_keeps (positionEvent_within s tabs cassette) (positionEvent_keeps s tabs cassette)
      (positionEvent_stays s tabs cassette)⟩
  | flashDone reading => exact ⟨_, rfl, .of_keeps (flashDone_within s _) (flashDone_keeps s _) (flashDone_stays s _)⟩
  | moveTimeout mover => exact ⟨_, rfl, .of_keeps (moveTimeout_within s mover) (moveTimeout_keeps s mover) (moveTimeout_stays s mover)⟩
  | flashTimeout => exact ⟨_, rfl, .of_keeps (flashTimeout_within s) (flashTimeout_keeps s) (flashTimeout_stays s)⟩
  | homingTimeout => exact ⟨_, rfl, .of_keeps (homingTimeout_within s) (homingTimeout_keeps s) (homingTimeout_stays s)⟩
  | photoUnitDoorOpen => exact ⟨_, rfl, .of_keeps (photoDoorOpen_within s) (photoDoorOpen_keeps s) (photoDoorOpen_stays s)⟩
  | photoUnitDoorClose tabs =>
    exact ⟨_, rfl, .of_keeps (photoDoorClose_within s tabs) (photoDoorClose_keeps s tabs) (photoDoorClose_stays s tabs)⟩
  | lampChangeSwitch => exact ⟨_, rfl, .of_keeps (changeLamp_within s) (changeLamp_keeps s) (changeLamp_stays s)⟩
  | warmUpTimer => exact ⟨_, rfl, .of_keeps (warmUpExpires_within s) (warmUpExpires_keeps s) (warmUpExpires_stays s)⟩
  | advanceDone => exact ⟨_, rfl, .of_keeps (advanceDone_within s) (advanceDone_keeps s) (advanceDone_stays s)⟩
  | advanceTimeout => exact ⟨_, rfl, .of_keeps (advanceTimeout_within s) (advanceTimeout_keeps s) (advanceTimeout_stays s)⟩
  | cutEvent => exact ⟨_, rfl, .of_keeps (cutEvent_within s) (cutEvent_keeps s) (cutEvent_stays s)⟩
  | cutterTimeout => exact ⟨_, rfl, .of_keeps (cutterTimeout_within s) (cutterTimeout_keeps s) (cutterTimeout_stays s)⟩
  | cassetteDoorOpen => exact ⟨_, rfl, .of_keeps (cassetteDoorOpen_within s) (cassetteDoorOpen_keeps s) (cassetteDoorOpen_stays s)⟩
  | cassetteDoorClose code =>
    exact ⟨_, rfl, .of_keeps (cassetteDoorClose_within s code) (cassetteDoorClose_keeps s code) (cassetteDoorClose_stays s code)⟩
  | takeupDoorOpen => exact ⟨_, rfl, .of_keeps (takeupDoorOpen_within s) (takeupDoorOpen_keeps s) (takeupDoorOpen_stays s)⟩
  | takeupDoorClose => exact ⟨_, rfl, .of_keeps (takeupDoorClose_within s) (takeupDoorClose_keeps s) (takeupDoorClose_stays s)⟩
  | runKey =>
    exact ⟨_, rfl, .ite (wake_asSound s) (.of_keeps (runKey_within s) (runKey_keeps s) (runKey_stays s))⟩
  | clearKey =>
    exact ⟨_, rfl, .ite (wake_asSound s) (.of_keeps (clearKey_within s) (clearKey_keeps s) (clearKey_stays s))⟩
  | mountKey =>
    exact ⟨_, rfl, .ite (wake_asSound s) (.of_keeps (mountKey_within s) (mountKey_keeps s) (mountKey_stays s))⟩
  | holdKey => exact ⟨_, rfl, (wake_asSound s).trans (.of_keeps (holdKey_within _) (holdKey_keeps _) (holdKey_stays _))⟩
  | cutKey => exact ⟨_, rfl, (wake_asSound s).trans (.of_keeps (cutKey_within _) (cutKey_keeps _) (cutKey_stays _))⟩
  | fontCallTimer => exact ⟨_, rfl, .of_keeps (fontCallExpires_within s) (fontCallExpires_keeps s) (fontCallExpires_stays s)⟩
  | filmOutTimer => exact ⟨_, rfl, .of_keeps (filmOutExpires_within s) (filmOutExpires_keeps s) (filmOutExpires_stays s)⟩
  | standbyTimer => exact ⟨_, rfl, .of_keeps (standbyExpires_within s) (standbyExpires_keeps s) (standbyExpires_stays s)⟩
  | stallTimer key => exact ⟨_, rfl, .of_held (stallExpires_within s key) (stallExpires_held key) (stallExpires_stays key)⟩
  | agingTimer key => exact ⟨_, rfl, .of_keeps (agingExpires_within s key) (agingExpires_keeps s key) (agingExpires_stays s key)⟩
  | takenWait key =>
    exact ⟨_, rfl, .of_held (takenWaitExpires_within s key) (takenWaitExpires_held key) (takenWaitExpires_stays key)⟩
  | strandTurn key => exact ⟨_, rfl, .of_held (strandTurn_within s key) (strandTurn_held key) (strandTurn_stays key)⟩

/-- The reactions keep what the command's own effect has kept. -/
theorem settle_asSound (s : State) : AsSound s (settle s) :=
  ⟨settle_within s, settle_held, fun sound => (settle_sound sound).2⟩

theorem exec_asSound {c : Instr} (answers : exec c s = .next t) : AsSound s t := by
  obtain ⟨u, effect, kept⟩ := exec_effect_asSound c s
  injection effect.symm.trans answers with settled
  exact settled ▸ kept.trans (settle_asSound u)

/-- The step takes the command at the front, or idles (Log 2, Log 3). -/
theorem step_asSound (stepped : step s = .next t) : AsSound s t := by
  unfold step at stepped
  split at stepped
  · injection stepped with same
    exact same ▸ .rfl
  · next c rest _ =>
    have kept := exec_asSound (s := { s with pending := rest }) stepped
    exact ⟨kept.within, kept.held, kept.lines⟩

end Sound

/-- Settles O7: every command's own effect and every reaction keeps each of the four. -/
theorem stepKeepsCountersWithinBounds : Obligations.StepKeepsCountersWithinBounds :=
  ⟨fun _ _ line stepped => (step_asSound stepped).within.1 line,
    fun _ _ film store stepped => ⟨(step_asSound stepped).within.2.1 film, (step_asSound stepped).within.2.2 store⟩,
    fun _ _ held stepped => (step_asSound stepped).held held,
    fun _ _ held lines stepped => (step_asSound stepped).lines ⟨held, lines⟩⟩

end Sys2Proof.Machine
end

section
/-! PROOFS. The two resets: power-on and line reset, the values they bring the blocks to, and what a line reset keeps (R34, R79,
R100, R127, R141, R177, R198, R201, R202). -/

namespace Sys2Proof.Machine

/-! ### The state after power-on (R201) -/

/-- Settles O8: nothing is stored, held or set in the state after reset, and Lamp Control's values stand within their ranges. -/
theorem resetMeetsTheInvariants : Obligations.ResetMeetsTheInvariants := by
  have lamp : lampOk State.reset.lamp := by unfold lampOk; decide
  have line : lineOk State.reset.line := by unfold lineOk queueOk; decide
  have film : filmOk State.reset.film := by unfold filmOk; decide
  have store : storeOk State.reset.store := by unfold storeOk; decide
  exact ⟨rfl, rfl, lamp, line, film, store, reset_held, resting_lines ⟨rfl, rfl⟩⟩

section Resets
variable {s : State}

/-- Paper at the printer, and a printer that has not stalled, give start-up no notice (R88, Log 32). -/
theorem takePaper_present (paper : s.pins.paper = true) (ready : s.proof.stall = false) : takePaper s = s :=
  if_neg (by simp [State.paperOut, paper, ready])

theorem takePaper_absent (noPaper : s.pins.paper = false) : takePaper s = produce s none (.proofPaper none false) :=
  if_pos (by simp [State.paperOut, noPaper])

/-- Taking the paper-out condition changes the Line Interface alone. -/
theorem takePaper_line (s : State) : takePaper s = { s with line := (takePaper s).line } := by
  unfold takePaper
  split
  · exact produce_line ..
  · rfl

/-- On the Line Interface it is only the queue, and the count of the notices lost, that the notice may change (R169, R171). -/
theorem takePaper_queue_lost (s : State) : ∃ queue lost, (takePaper s).line = { s.line with queue := queue, lost := lost } := by
  unfold takePaper
  split
  · rcases produce_cases s none (.proofPaper none false) with ⟨-, e⟩ | ⟨-, e⟩ <;> exact e ▸ ⟨_, _, rfl⟩
  · exact ⟨_, _, rfl⟩

/-- The state as power-on leaves it before the paper-out condition is taken (R201; Log 9). -/
def poweredOn (s : State) (p : Pins) : State :=
  { State.reset with
    pending := s.pending, moments := s.moments, pins := p
    panel := { State.reset.panel with straps := p.straps }
    line := { freshLine with mute := decide (p.straps.station.val = 15) } }

theorem powerOn_eq (s : State) (p : Pins) : powerOn s p = takePaper (poweredOn s p) := rfl

/-- Without paper the notice is the one frame of the queue, or is lost where the straps mute the station (R169, R199). -/
theorem powerOn_without_paper {p : Pins} (noPaper : p.paper = false) : powerOn s p =
    { poweredOn s p with line :=
      if p.straps.station.val = 15 then { (poweredOn s p).line with lost := 1 }
      else { (poweredOn s p).line with queue := [{ frame := .notice none (.proofPaper none false), begun := false }] } } := by
  rw [powerOn_eq, takePaper_absent noPaper]
  by_cases mute : p.straps.station.val = 15
  · simp [produce, poweredOn, mute, freshLine, satAdd, Config.top16]
  · simp [produce, poweredOn, mute, freshLine, insertFrame, LineInterface.full, Config.queueFrames]

end Resets

/-- Settles O17: the notice of a start-up without paper is all that power-on adds to its values. -/
theorem powerOnStartsAfreshAtItsValues : Obligations.PowerOnStartsAfreshAtItsValues := by
  refine ⟨fun p s => ⟨fun paper => ?_, fun noPaper heard => ?_, fun noPaper mute => ?_⟩, ?_⟩
  · exact answers_effect (takePaper_present paper rfl)
  · exact answers_effect ((powerOn_without_paper noPaper).trans (by rw [if_neg heard]; rfl))
  · exact answers_effect ((powerOn_without_paper noPaper).trans (by rw [if_pos mute]; rfl))
  · decide

/-! ### Line reset (R201) -/

section LineReset
variable {s : State} {h : Header} {p : Straps}

/-- A RESET received is taken in every station state (R168, R201). -/
theorem exec_reset (received : Received h (.reset h p) s) (here : h.addressee = s.number ∨ h.addressee = 15) :
    exec (.reset h p) s = .next (settle (lineReset (heard s) p)) := by
  have taken : s.resetAddressed h = true := by simpa [State.resetAddressed, State.addressed] using here
  refine answers_effect ?_
  rw [taken]
  exact receive_received received (lineReset · p)

/-- The state as line reset leaves it before the paper-out condition is taken, homing where the ROM has been read (R34, R79, R100,
R127, R141, R160, R177, R198, R202). -/
def lineStarted (s : State) (p : Straps) : State :=
  { s with
    pins := { s.pins with straps := p }
    panel := { s.panel with
      straps := p, cause := .lineReset, stage := if s.panel.romDone then .homing else .rom
      startFault := none, proofShown := true, filmShown := false }
    stop := { station := .start, record := none, spoilCut := false, clearing := false }
    line := { freshLine with mute := decide (p.station.val = 15) }
    takes := [], pass := none, width := s.width.afterReset, comp := idleCompositor
    store := { records := [], marker := none }, proof := s.proof.afterReset
    exp := { State.reset.exp with
      seats := s.exp.seats, order := s.exp.order, phase := if s.panel.romDone then .homing else .idle
      homing := if s.panel.romDone then some .turret else none }
    lamp := { s.lamp with phase := .off }
    film := { s.film with nextSeq := none, transport := .idle, waiting := [], driveOk := true, cutterOk := true } }

theorem lineReset_eq (s : State) (p : Straps) : lineReset s p = takePaper (lineStarted s p) := by
  unfold lineReset lineStarted
  cases s.panel.romDone <;> rfl

/-- Only what the notice of a paper-out adds stands on the Line Interface (R88, R177). -/
theorem lineReset_state (s : State) (p : Straps) : ∃ queue lost,
    lineReset s p = { lineStarted s p with line := { (lineStarted s p).line with queue := queue, lost := lost } } ∧
      (s.pins.paper = true → queue = [] ∧ lost = 0) := by
  rw [lineReset_eq]
  cases paper : s.pins.paper with
  | true => exact ⟨[], 0, takePaper_present paper rfl, fun _ => ⟨rfl, rfl⟩⟩
  | false =>
    obtain ⟨queue, lost, e⟩ := takePaper_queue_lost (lineStarted s p)
    exact ⟨queue, lost, (takePaper_line _).trans (by rw [e]), nofun⟩

/-- The VALID slots stay, without a pin (R34). -/
theorem afterReset_slots (w : WidthCache) : w.afterReset.slots = w.slots.map (fun sl => match sl.state with
    | .valid _ _ => { sl with pins := 0 }
    | _ => { state := .empty, font := none, pins := 0 }) := by
  refine List.map_congr_left fun sl _ => ?_
  cases sl.state <;> rfl

end LineReset

/-- Settles O18: `lineStarted` has every block at its values; the width slots go by their states, the homing by the ROM. -/
theorem lineResetKeepsWhatItMust : Obligations.LineResetKeepsWhatItMust := by
  intro h p s received here
  obtain ⟨queue, lost, state, paper⟩ := lineReset_state (heard s) p
  have homes (read : s.panel.romDone = true) : (lineStarted (heard s) p).panel.stage = .homing ∧
      (lineStarted (heard s) p).exp.homing = some .turret := ⟨if_pos read, if_pos read⟩
  have waits (unread : s.panel.romDone = false) : (lineStarted (heard s) p).panel.stage = .rom ∧
      (lineStarted (heard s) p).exp.homing = none := by simp [lineStarted, heard, unread]
  have answers := exec_reset received here
  rw [state] at answers
  exact ⟨_, answers, rfl, rfl, rfl, rfl, rfl, homes, waits, rfl, rfl, rfl, rfl, rfl, rfl,
    rfl, rfl, afterReset_slots s.width, rfl, rfl, rfl, rfl, rfl, rfl, rfl, rfl, rfl, rfl, rfl, rfl, rfl, rfl, rfl, paper⟩

end Sys2Proof.Machine
end

section
/-! PROOFS. The RUN and HOLD keys (R203, R147, R36), and STANDBY, which any key ends and the standby timer begins (R204). -/

namespace Sys2Proof.Machine

/-! ### The RUN key (R203, R147) -/

section RunKey
variable {s : State} {r : StopRecord}

theorem exec_runKey (awake : s.stop.station ≠ .standby) : exec .runKey s = .next (settle (runKey s)) :=
  congrArg done (if_neg awake)

theorem runKey_hold (hold : s.stop.station = .hold) : runKey s = enterRun s := by simp only [runKey, hold]

/-- Outside HOLD and STOPPED RUN is ignored (R203). -/
theorem runKey_elsewhere (notHold : s.stop.station ≠ .hold) (notStopped : s.stop.station ≠ .stopped) : runKey s = s := by
  unfold runKey
  split
  · next hold => exact absurd hold notHold
  · next stopped => exact absurd stopped notStopped
  · rfl

/-- The stop pending is one that RUN clears: a DOOR stop, the doors closed again, and no spoiled line left to be cut (R147, Log
26). -/
def State.endedByRun (s : State) : Prop := s.stopIs .door ∧ s.doorsClosed ∧ s.stop.spoilCut = false ∧ s.spoilDue = false

theorem runKey_clears (stopped : s.stop.station = .stopped) (cleared : s.endedByRun) : runKey s = clearStop s := by
  simp only [runKey, stopped]
  exact if_pos cleared

theorem runKey_uncleared (stopped : s.stop.station = .stopped) (kept : ¬ s.endedByRun) : runKey s = s := by
  simp only [runKey, stopped]
  exact if_neg kept

theorem doorsClosed_iff (s : State) : s.doorsClosed = true ↔
    s.pins.photoOpen = false ∧ s.pins.takeupOpen = false ∧ s.pins.cassetteOpen = false := by
  simp [State.doorsClosed, and_assoc]

/-- The halted line has flashed, or flashes, an item (R116, Log 26). -/
theorem spoilDue_iff (s : State) : s.spoilDue = true ↔
    ∃ c, s.exp.cur = some c ∧ c.halt.isSome = true ∧ (c.flashed ≠ [] ∨ s.exp.flash.isSome = true) := by
  simp [State.spoilDue, Option.any_eq_true]

theorem endedByRun_iff (hr : s.stop.record = some r) : s.endedByRun ↔ r.kind = .door ∧ s.pins.photoOpen = false ∧
    s.pins.takeupOpen = false ∧ s.pins.cassetteOpen = false ∧ s.stop.spoilCut = false ∧ ¬ s.spoilDue = true := by
  have kind : s.stopIs .door = true ↔ r.kind = .door := by simp [State.stopIs, hr]
  simp only [State.endedByRun, kind, doorsClosed_iff, Bool.not_eq_true, and_assoc]

/-- A DOOR stop cleared with the take-up door shut returns the station to RUN and leaves its lines alone (R147, R148). -/
theorem clearStop_door (stopped : s.stop.station = .stopped) (hr : s.stop.record = some r) (door : r.kind = .door)
    (shut : s.pins.takeupOpen = false) :
    (clearStop s).stop = { s.stop with station := .run, record := none } ∧ (clearStop s).exp = s.exp ∧
      (clearStop s).line = s.line := by
  obtain ⟨comp, takes, left⟩ := leaveStopped_eq s r
  rw [clearStop_leaves stopped hr (.inl shut), left]
  simp [door]

end RunKey

/-! ### The HOLD key (R203, R36) -/

section HoldKey
variable {s : State}

theorem wake_awake (awake : s.stop.station ≠ .standby) : wake s = s := if_neg awake

theorem exec_holdKey (awake : s.stop.station ≠ .standby) : exec .holdKey s = .next (settle (holdKey s)) :=
  congrArg (fun u => done (holdKey u)) (wake_awake awake)

/-- Where the Compositor goes as the station enters HOLD: it pauses at a line's start (R36, Log 25). -/
def Compositor.onHold (c : Compositor) : Compositor := if c.atBoundary then { c with phase := .paused } else c

/-- HOLD cancels the claim windows and stops a Compositor at a line's start; nothing else changes (R174, R36). -/
theorem enterHold_eq (s : State) : enterHold s =
    { s with
      stop := { s.stop with station := .hold }, line := (cancelWindows s WindowFor.isClaim).line
      comp := s.comp.onHold } := by
  have same : (closeClaims { s with stop := { s.stop with station := .hold } }).comp = s.comp := rfl
  unfold enterHold Compositor.onHold
  dsimp only
  rw [same]
  split <;> rfl

theorem onHold_not_setting {c : Compositor} (h : c.phase ≠ .setting) : c.onHold = c := by
  refine if_neg fun boundary => ?_
  unfold Compositor.atBoundary at boundary
  split at boundary
  · exact h (beq_iff_eq.1 (Bool.and_eq_true_iff.1 boundary).1)
  · cases boundary

theorem onHold_setting {c : Compositor} {x y : Context} (h : c.phase = .setting) (hx : c.ctx = some x) (hy : c.snap = some y) :
    c.onHold = { c with phase := if x.resume = y.resume then .paused else .setting } := by
  have boundary : c.atBoundary = true ↔ x.resume = y.resume := by simp [Compositor.atBoundary, h, hx, hy]
  simp only [Compositor.onHold, boundary]
  split
  · rfl
  · rw [← h]

end HoldKey

/-- Settles O20: RUN by the station's state and what stops it, HOLD by what the Compositor has read of its line. -/
theorem runAndHoldKeysAct : Obligations.RunAndHoldKeysAct := by
  refine ⟨fun s => ⟨fun hold => ?hold, fun r stopped hr door photo takeup cassette uncut unspoiled => ?clears,
    fun r stopped hr kept => ?kept, fun elsewhere => ?elsewhere⟩, fun s => ⟨fun run => ?holds, fun notRun awake => ?ignored⟩⟩
  case hold => exact ⟨enterRun s, (exec_runKey (by simp [hold])).trans (by rw [runKey_hold hold]), rfl, rfl, rfl, rfl, rfl⟩
  case clears =>
    have noSpoil : ¬ s.spoilDue = true := by
      rw [spoilDue_iff]
      rintro ⟨c, hc, halted, flashed⟩
      rcases unspoiled c hc with noHalt | ⟨noFlash, still⟩
      · simp [noHalt] at halted
      · simp [noFlash, still] at flashed
    refine ⟨clearStop s, ?_, clearStop_door stopped hr door takeup⟩
    rw [exec_runKey (by simp [stopped]),
      runKey_clears stopped ((endedByRun_iff hr).2 ⟨door, photo, takeup, cassette, uncut, noSpoil⟩)]
  case kept =>
    rw [exec_runKey (by simp [stopped]), runKey_uncleared stopped]
    rw [endedByRun_iff hr, spoilDue_iff]
    rintro ⟨door, photo, takeup, cassette, uncut, noSpoil⟩
    simp only [door, photo, takeup, cassette, uncut, ne_eq, not_true, Bool.false_eq_true, false_or] at kept
    exact noSpoil kept
  case elsewhere =>
    rw [exec_runKey, runKey_elsewhere]
    all_goals rcases elsewhere with st | st | st | st <;> simp [st]
  case holds =>
    refine ⟨enterHold s, (exec_holdKey (by simp [run])).trans (by rw [holdKey, if_pos run]), ?_⟩
    rw [enterHold_eq]
    exact ⟨rfl, fun w left claim => cancelWindows_left_begun left claim, rfl, rfl, rfl, onHold_not_setting,
      fun x y setting hx hy => onHold_setting setting hx hy⟩
  case ignored => rw [exec_holdKey awake, holdKey, if_neg notRun]

/-! ### STANDBY (R204) -/

section Standby
variable {s : State}

/-- The lamp as the wake has it: one that is OFF warms up (R120, R204). -/
def Lamp.asked (l : Lamp) : Lamp :=
  { l with phase := match l.phase with
    | .off => .warming
    | .warming => .warming
    | .ready => .ready }

theorem warmUp_eq (s : State) : warmUp s = { s with lamp := s.lamp.asked } := by
  unfold warmUp Lamp.asked
  cases phase : s.lamp.phase <;> simp only [← phase]

/-- A station that wakes enters RUN and asks for the lamp (R204). -/
theorem wake_standby (asleep : s.stop.station = .standby) : wake s = { enterRun s with lamp := s.lamp.asked } :=
  (if_pos asleep).trans (warmUp_eq _)

theorem exec_wakes {c : Instr} (asleep : s.stop.station = .standby) (key : c = .runKey ∨ c = .clearKey ∨ c = .mountKey) :
    exec c s = .next (settle (wake s)) := by
  rcases key with rfl | rfl | rfl <;> exact congrArg done (if_pos asleep)

theorem standbyTimerRuns_iff (s : State) : s.standbyTimerRuns = true ↔
    s.stop.station = .run ∧ ∀ t ∈ s.takes, t.state ≠ .active ∧ t.state ≠ .queued := by
  simp [State.standbyTimerRuns]

theorem standbyExpires_due (idle : s.standbyTimerRuns = true) : standbyExpires s =
    { s with stop := { s.stop with station := .standby }, lamp := { s.lamp with phase := .off } } := if_pos idle

theorem standbyExpires_not_due (off : ¬ s.standbyTimerRuns = true) : standbyExpires s = s := if_neg off

end Standby

/-- Settles O24: the keys act on the state awake, and the timer by what it runs for. -/
theorem standbyWakesAndExpires : Obligations.StandbyWakesAndExpires := by
  refine ⟨fun s asleep => ?_, fun s => ⟨fun run idle => ?due, fun other => ?notDue⟩⟩
  · have woken := wake_standby asleep
    have run : (wake s).stop = { s.stop with station := .run } := by rw [woken]; rfl
    have runs : (wake s).stop.station = .run := by rw [run]
    have lamp : (wake s).lamp = s.lamp.asked := by rw [woken]
    have film : (wake s).film = s.film := by rw [woken]; rfl
    have exp : (wake s).exp = s.exp := by rw [woken]; rfl
    have pending : (wake s).cutPending = s.cutPending := by rw [woken]; rfl
    refine ⟨fun c key => ⟨_, exec_wakes asleep key, run, lamp, film, exp⟩, ?hold, fun taken => ?ignored, fun free noGalley => ?cut⟩
    case hold =>
      refine ⟨enterHold (wake s), congrArg done (if_pos runs), ?_⟩
      rw [enterHold_eq]
      exact ⟨by rw [run], lamp, film, exp⟩
    case ignored =>
      refine ⟨wake s, congrArg done (cutKey_ignored ?_), run, lamp, film, exp⟩
      rw [pending, film]
      exact taken.imp_right fun galley => .inl ⟨runs, galley⟩
    case cut =>
      have asks := cutKey_asks (pending.trans free) (.inl ⟨runs, film.symm ▸ noGalley⟩)
      exact ⟨_, congrArg done asks, run, lamp, exp, by simp [film, noGalley]⟩
  case due => exact answers_effect (standbyExpires_due ((standbyTimerRuns_iff s).2 ⟨run, idle⟩))
  case notDue =>
    refine answers_effect (standbyExpires_not_due ?_)
    rw [standbyTimerRuns_iff]
    rintro ⟨run, idle⟩
    rcases other with notRun | ⟨t, ht, busy⟩
    · exact notRun run
    · exact busy.elim (idle t ht).1 (idle t ht).2

end Sys2Proof.Machine
end

section
/-! PROOFS. The settings ROM (R70, R121, R200), and the candidate breaks of a word group: the form of a pattern record, explicit
hyphens, DISC marks, and the sources of the added hyphens (R61 to R69). -/

namespace Sys2Proof.Machine

/-! ### The settings ROM (R70, R121, R200) -/

section SettingsRom
variable {s : State} {m : Rom}

theorem romRead_due (due : s.panel.stage = .rom) (r : Option Rom) : romRead s r = startHoming
    { s with
      panel := { s.panel with romDone := true, romGood := romGood r, stage := .homing }
      hyph := s.hyph.loadRom (if romGood r then r else none), lamp := s.lamp.loadRom (if romGood r then r else none) } :=
  if_pos due

theorem romGood_false {r : Option Rom}
    (bad : r = none ∨ ∃ m, r = some m ∧ (m.bytes.map BitVec.toNat).sum % 65536 ≠ m.check) : romGood r = false := by
  rcases bad with rfl | ⟨m, rfl, wrong⟩
  · rfl
  · exact decide_eq_false wrong

/-- The load of the pattern set leaves the dictionary alone (R70, R79). -/
theorem loadRom_dict (h : Hyphenation) (r : Option Rom) : (h.loadRom r).dict = h.dict ∧ (h.loadRom r).gen = h.gen := by
  unfold Hyphenation.loadRom
  split
  · split <;> exact ⟨rfl, rfl⟩
  · exact ⟨rfl, rfl⟩

/-- The pattern set is loaded whole, or not at all (R70). -/
theorem loadRom_whole (h : Hyphenation) (count : m.patternCount ≤ 4096) (number : m.patterns.length = m.patternCount)
    (form : m.patterns.all patternOk = true) : h.loadRom (some m) = { h with patterns := m.patterns, valid := true } :=
  if_pos ⟨count, number, form⟩

theorem loadRom_empty (h : Hyphenation)
    (bad : 4096 < m.patternCount ∨ m.patterns.length ≠ m.patternCount ∨ m.patterns.all patternOk = false) :
    h.loadRom (some m) = { h with patterns := [], valid := false } := by
  refine if_neg fun ⟨count, number, form⟩ => ?_
  rcases bad with many | wrong | ill
  · exact absurd count (Nat.not_le.2 many)
  · exact wrong number
  · simp [form] at ill

/-- A base duration of a good ROM, brought into its range (R121). -/
theorem loadRom_base (l : Lamp) (m : Rom) {i : Nat} (lens : i < 12) :
    (l.loadRom (some m)).bases[i]? = some (max 20 (min 400 ((m.bases[i]?).getD 100))) := by
  simp [Lamp.loadRom, lens, clamp]

end SettingsRom

/-! ### Boxes and letters (R62, R64) -/

section Boxed
variable {g : List BuildItem} {b : BuildItem}

theorem isBox_iff : b.isBox = true ↔ b.kind ≠ .justifying := decide_eq_true_iff

theorem isHyphen_iff : b.isHyphen = true ↔ hyphenBoxed b := by simp [BuildItem.isHyphen, hyphenBoxed]

theorem isOther_iff : b.isOther = true ↔ otherBoxed b := by
  simp [BuildItem.isOther, otherBoxed, isBox_iff, ← isHyphen_iff]

theorem isLetterBox_iff : b.isLetterBox = true ↔ letterBoxed b := by
  simp [BuildItem.isLetterBox, isLetter, isCapital, isSmall, letterBoxed]

theorem hasNbspace_iff : hasNbspace g = true ↔ ∃ b ∈ g, b.kind = .justifying := by
  simp [hasNbspace, BuildItem.isBox]

theorem hasNbspace_false (boxes : ∀ b ∈ g, b.kind ≠ .justifying) : hasNbspace g = false :=
  Bool.eq_false_iff.2 fun h => by
    obtain ⟨b, hb, kind⟩ := hasNbspace_iff.1 h
    exact boxes b hb kind

theorem letterBoxed.not_hyphenBoxed (letter : letterBoxed b) : ¬ hyphenBoxed b := by
  rintro ⟨-, code⟩
  have range := letter.2
  rw [code] at range
  omega

end Boxed

/-! ### Explicit hyphens and DISC marks (R64, R65) -/

section Explicit
variable {g : List BuildItem} {b : BuildItem}

/-- The boxes before item `i + 1` are item `i`, where it is one, and the boxes before it. -/
theorem wordBefore_succ {i : Nat} (hb : g[i]? = some b) :
    wordBefore g (i + 1) = if b.isBox then b :: wordBefore g i else [] := by
  simp [wordBefore, List.take_add_one, hb, List.takeWhile_cons]

theorem wordBefore_beyond {i : Nat} (beyond : g[i]? = none) : wordBefore g (i + 1) = wordBefore g i := by
  simp [wordBefore, List.take_add_one, beyond]

/-- A box other than a hyphen stands before item `i`, with no NBSPACE between them (R62, R64). -/
def otherBefore (g : List BuildItem) (i : Nat) : Prop :=
  ∃ j e, j < i ∧ g[j]? = some e ∧ otherBoxed e ∧ ∀ n y, j < n → n < i → g[n]? = some y → y.kind ≠ .justifying

theorem otherBefore_beyond {i : Nat} (beyond : g[i]? = none) : otherBefore g (i + 1) ↔ otherBefore g i := by
  have short (n : Nat) (y : BuildItem) (hy : g[n]? = some y) : n < i := by
    have := List.getElem?_eq_none_iff.1 beyond
    have := (List.getElem?_eq_some_iff.1 hy).1
    omega
  constructor
  · rintro ⟨j, e, -, he, other, boxes⟩
    exact ⟨j, e, short j e he, he, other, fun n y lo hi hy => boxes n y lo (Nat.lt_succ_of_lt hi) hy⟩
  · rintro ⟨j, e, lt, he, other, boxes⟩
    exact ⟨j, e, Nat.lt_succ_of_lt lt, he, other, fun n y lo _ hy => boxes n y lo (short n y hy) hy⟩

/-- Item `i` is that box, or one of its word that the box stands before. -/
theorem otherBefore_succ {i : Nat} (hb : g[i]? = some b) :
    otherBefore g (i + 1) ↔ b.isBox = true ∧ (b.isOther = true ∨ otherBefore g i) := by
  rw [isBox_iff, isOther_iff]
  constructor
  · rintro ⟨j, e, lt, he, other, boxes⟩
    rcases Nat.lt_succ_iff_lt_or_eq.1 lt with before | rfl
    · exact ⟨boxes i b before (Nat.lt_succ_self i) hb,
        .inr ⟨j, e, before, he, other, fun n y lo hi hy => boxes n y lo (Nat.lt_succ_of_lt hi) hy⟩⟩
    · cases hb.symm.trans he
      exact ⟨other.1, .inl other⟩
  · rintro ⟨box, other | ⟨j, e, lt, he, other, boxes⟩⟩
    · exact ⟨i, b, Nat.lt_succ_self i, hb, other, fun n y lo hi _ => by omega⟩
    · refine ⟨j, e, Nat.lt_succ_of_lt lt, he, other, fun n y lo hi hy => ?_⟩
      rcases Nat.lt_succ_iff_lt_or_eq.1 hi with before | rfl
      · exact boxes n y lo before hy
      · cases hb.symm.trans hy
        exact box

/-- The boxes of `wordBefore` are looked at item by item, back along the group to the nearest NBSPACE. -/
theorem wordBefore_any_isOther (g : List BuildItem) : ∀ i : Nat, (wordBefore g i).any BuildItem.isOther = true ↔ otherBefore g i
  | 0 => by simp [wordBefore, otherBefore]
  | i + 1 => by
    have ih := wordBefore_any_isOther g i
    cases hb : g[i]? with
    | none => rw [wordBefore_beyond hb, otherBefore_beyond hb, ih]
    | some b =>
      rw [wordBefore_succ hb, otherBefore_succ hb, ← ih]
      cases b.isBox <;> simp

/-- Where an explicit hyphen gives a candidate (R64). -/
theorem explicitAfter_iff (g : List BuildItem) (i : Nat) : explicitAfter g i = true ↔
    ∃ a b, g[i]? = some a ∧ hyphenBoxed a ∧ g[i + 1]? = some b ∧ otherBoxed b ∧ otherBefore g i := by
  simp only [explicitAfter, Bool.and_eq_true, Option.any_eq_true, isHyphen_iff, isOther_iff, wordBefore_any_isOther]
  constructor
  · rintro ⟨⟨⟨a, ha, hyphen⟩, b, hb, other⟩, word⟩
    exact ⟨a, b, ha, hyphen, hb, other, word⟩
  · rintro ⟨a, b, ha, hyphen, hb, other, word⟩
    exact ⟨⟨⟨a, ha, hyphen⟩, b, hb, other⟩, word⟩

/-- No explicit hyphen stands where a box of another code does. -/
theorem explicitAfter_not_hyphen {i : Nat} (hb : g[i]? = some b) (other : ¬ hyphenBoxed b) : explicitAfter g i = false :=
  Bool.eq_false_iff.2 fun h => by
    obtain ⟨a, -, ha, hyphen, -⟩ := (explicitAfter_iff g i).1 h
    cases hb.symm.trans ha
    exact other hyphen

/-- A DISC mark that counts stands between two boxes of one word, the first not a hyphen (R65). -/
def discMarked (g : List BuildItem) (n : Nat) : Prop :=
  ∃ m a b, n = m + 1 ∧ g[m]? = some a ∧ otherBoxed a ∧ g[n]? = some b ∧ b.kind ≠ .justifying

theorem discMarks_iff (g : List BuildItem) (n : Nat) : discMarks g n = true ↔ discMarked g n := by
  simp only [discMarks, discMarked, Bool.and_eq_true, decide_eq_true_eq, Option.any_eq_true, isOther_iff, isBox_iff]
  constructor
  · rintro ⟨⟨pos, a, ha, other⟩, b, hb, box⟩
    exact ⟨n - 1, a, b, by omega, ha, other, hb, box⟩
  · rintro ⟨m, a, b, rfl, ha, other, hb, box⟩
    exact ⟨⟨Nat.succ_pos m, a, ha, other⟩, b, hb, box⟩

end Explicit

/-! ### Candidates (R61, R67) -/

section Candidates
variable {h : Hyphenation} {locals : List ExceptionEntry} {v : AttemptValues} {g : List BuildItem} {discs : List Nat} {i : Nat}

/-- A place is an explicit candidate, else an added one, and none is after the last box (R61). -/
theorem mem_candidates {kind : BreakKind} : (i, kind) ∈ candidates h locals v g discs ↔ i + 1 < g.length ∧
    (if explicitAfter g i then some BreakKind.explicit
      else if i ∈ addedBreaks h locals v g discs then some .added else none) = some kind := by
  have place (n : Nat) : (if explicitAfter g n then some (n, BreakKind.explicit)
      else if (addedBreaks h locals v g discs).contains n then some (n, .added) else none) =
      (if explicitAfter g n then some BreakKind.explicit
        else if n ∈ addedBreaks h locals v g discs then some .added else none).map (fun k => (n, k)) := by
    simp only [List.contains_iff_mem]
    split
    · rfl
    · split <;> rfl
  simp only [candidates, place, List.mem_filterMap, List.mem_range, Option.map_eq_some_iff]
  constructor
  · rintro ⟨n, lt, k, found, e⟩
    cases e
    exact ⟨by omega, found⟩
  · rintro ⟨lt, found⟩
    exact ⟨i, by omega, kind, found, rfl⟩

theorem mem_candidates_explicit : (i, .explicit) ∈ candidates h locals v g discs ↔ explicitAfter g i = true := by
  rw [mem_candidates]
  constructor
  · rintro ⟨-, found⟩
    split at found
    · assumption
    · split at found <;> cases found
  · intro explicit
    obtain ⟨-, b, -, -, hb, -⟩ := (explicitAfter_iff g i).1 explicit
    exact ⟨(List.getElem?_eq_some_iff.1 hb).1, if_pos explicit⟩

theorem mem_candidates_added : (i, .added) ∈ candidates h locals v g discs ↔
    i + 1 < g.length ∧ explicitAfter g i = false ∧ i ∈ addedBreaks h locals v g discs := by
  rw [mem_candidates]
  refine and_congr_right fun _ => ?_
  cases explicitAfter g i with
  | true => simp
  | false => by_cases added : i ∈ addedBreaks h locals v g discs <;> simp [added]

theorem not_added_of_nil (noBreaks : addedBreaks h locals v g discs = []) : (i, .added) ∉ candidates h locals v g discs := fun mem => by
  obtain ⟨-, -, added⟩ := mem_candidates_added.1 mem
  simp [noBreaks] at added

/-- A group with an NBSPACE has no added candidate (R67). -/
theorem addedBreaks_nbspace (nbspace : ∃ b ∈ g, b.kind = .justifying) : addedBreaks h locals v g discs = [] :=
  if_pos (hasNbspace_iff.2 nbspace)

/-- The DISC marks that count give the added candidates, unless the ladder limit is reached (R65, R67). -/
theorem mem_candidates_disc (boxes : ∀ b ∈ g, b.kind ≠ .justifying) (marked : ∃ n, n ∈ discs ∧ discMarked g n) :
    (i, .added) ∈ candidates h locals v g discs ↔ (i + 1 ∈ discs ∧ discMarked g (i + 1)) ∧ v.count < v.limit := by
  have marks : discs.filter (discMarks g) ≠ [] := by
    obtain ⟨n, mem, mark⟩ := marked
    exact List.ne_nil_of_mem (List.mem_filter.2 ⟨mem, (discMarks_iff g n).2 mark⟩)
  have added : addedBreaks h locals v g discs =
      if v.count < v.limit then (discs.filter (discMarks g)).map (· - 1) else [] := by
    simp [addedBreaks, hasNbspace_false boxes, marks]
  rw [mem_candidates_added, added]
  constructor
  · rintro ⟨-, -, mem⟩
    split at mem
    · next below =>
      obtain ⟨n, hn, rfl⟩ := List.mem_map.1 mem
      obtain ⟨listed, mark⟩ := List.mem_filter.1 hn
      obtain ⟨m, a, b, rfl, rest⟩ := (discMarks_iff g n).1 mark
      exact ⟨⟨listed, m, a, b, rfl, rest⟩, below⟩
    · cases mem
  · rintro ⟨⟨listed, mark⟩, below⟩
    have counts := (discMarks_iff g _).2 mark
    obtain ⟨m, a, b, e, ha, other, hb, -⟩ := mark
    cases e
    refine ⟨(List.getElem?_eq_some_iff.1 hb).1, explicitAfter_not_hyphen ha other.2, ?_⟩
    rw [if_pos below]
    exact List.mem_map.2 ⟨i + 1, List.mem_filter.2 ⟨listed, counts⟩, rfl⟩

end Candidates

/-! ### Patterns (R68, R69) -/

section Patterns
variable {patterns : List Pattern} {w : List Nat} {i k : Nat}

/-- The form of a pattern record (R68). -/
theorem patternOk_iff (p : Pattern) : patternOk p = true ↔ 1 ≤ p.letters.length ∧ p.letters.length ≤ 8 ∧
    p.values.length = p.letters.length + 1 ∧ (∀ v ∈ p.values, v ≤ 9) ∧ (∃ c ∈ p.letters, 0x61 ≤ c ∧ c ≤ 0x7A) ∧
    ∀ j c, p.letters[j]? = some c → (0x61 ≤ c ∧ c ≤ 0x7A) ∨ (c = 0x2E ∧ (j = 0 ∨ j + 1 = p.letters.length)) := by
  have letters : (List.range p.letters.length).all (fun j => (p.letters[j]?).any (fun c => isSmall c ||
        (c == 0x2E && (decide (j = 0) || decide (j + 1 = p.letters.length))))) = true ↔
      ∀ j c, p.letters[j]? = some c → (0x61 ≤ c ∧ c ≤ 0x7A) ∨ (c = 0x2E ∧ (j = 0 ∨ j + 1 = p.letters.length)) := by
    simp only [List.all_eq_true, List.mem_range, Option.any_eq_true, isSmall, Bool.or_eq_true, Bool.and_eq_true, beq_iff_eq,
      decide_eq_true_eq]
    constructor
    · intro all j c hc
      obtain ⟨d, hd, ok⟩ := all j (List.getElem?_eq_some_iff.1 hc).1
      cases hc.symm.trans hd
      exact ok
    · intro all j lt
      exact ⟨p.letters[j], List.getElem?_eq_getElem lt, all j _ (List.getElem?_eq_getElem lt)⟩
  unfold patternOk
  simp only [Bool.and_eq_true, letters, and_assoc]
  simp [isSmall]

theorem le_foldl_max_iff {α : Type} (f : α → Nat) : ∀ (l : List α) (n : Nat),
    k ≤ l.foldl (fun acc a => max acc (f a)) n ↔ k ≤ n ∨ ∃ a ∈ l, k ≤ f a
  | [], n => by simp
  | a :: l, n => by
    have greater : k ≤ max n (f a) ↔ k ≤ n ∨ k ≤ f a := by omega
    rw [List.foldl_cons, le_foldl_max_iff f l, greater]
    simp only [List.mem_cons, exists_eq_or_imp, or_assoc]

/-- What a pattern puts on a gap is the greatest of its values at its places there (R69, step 3). -/
theorem le_patternValue_iff (pos : 0 < k) (pat : Pattern) : k ≤ patternValue pat (wordString w) i ↔
    ∃ q, q ≤ i + 1 ∧ patternAt pat (wordString w) q = true ∧ ∃ v, pat.values[i + 1 - q]? = some v ∧ k ≤ v := by
  have value (q : Nat) : k ≤ (if patternAt pat (wordString w) q then (pat.values[i + 1 - q]?).getD 0 else 0) ↔
      patternAt pat (wordString w) q = true ∧ ∃ v, pat.values[i + 1 - q]? = some v ∧ k ≤ v := by
    split
    · next at' => cases pat.values[i + 1 - q]? <;> simp [at', Nat.not_le.2 pos]
    · next off => simp [off, Nat.not_le.2 pos]
  have fold : patternValue pat (wordString w) i = (List.range (i + 2)).foldl (fun acc q => max acc
      (if patternAt pat (wordString w) q then (pat.values[i + 1 - q]?).getD 0 else 0)) 0 := by
    unfold patternValue
    congr 1
    funext acc q
    split <;> simp
  simp only [fold, le_foldl_max_iff, value, Nat.not_le.2 pos, false_or, List.mem_range, Nat.lt_succ_iff]

/-- A gap has the greatest of the values that fall on it (R69). -/
theorem le_gapValue_iff (pos : 0 < k) : k ≤ gapValue patterns w i ↔ ∃ v, valueFalls patterns w i v ∧ k ≤ v := by
  simp only [gapValue, le_foldl_max_iff, Nat.not_le.2 pos, false_or, le_patternValue_iff pos, valueFalls, patternAt, beq_iff_eq]
  constructor
  · rintro ⟨pat, mem, q, le, at', v, hv, kv⟩
    exact ⟨v, ⟨pat, mem, q, le, at', hv⟩, kv⟩
  · rintro ⟨v, ⟨pat, mem, q, le, at', hv⟩, kv⟩
    exact ⟨pat, mem, q, le, at', v, hv, kv⟩

theorem valueFalls_le (falls : valueFalls patterns w i k) : k ≤ gapValue patterns w i := by
  rcases Nat.eq_zero_or_pos k with rfl | pos
  · exact Nat.zero_le _
  · exact (le_gapValue_iff pos).2 ⟨k, falls, Nat.le_refl k⟩

theorem valueFalls_gapValue (pos : 0 < gapValue patterns w i) : valueFalls patterns w i (gapValue patterns w i) := by
  obtain ⟨v, falls, le⟩ := (le_gapValue_iff pos).1 (Nat.le_refl _)
  rwa [Nat.le_antisymm le (valueFalls_le falls)]

/-- An odd gap value is the odd greatest of the values that fall (R69, step 4). -/
theorem gapValue_odd_iff : gapValue patterns w i % 2 = 1 ↔
    ∃ k, k % 2 = 1 ∧ valueFalls patterns w i k ∧ ∀ k', valueFalls patterns w i k' → k' ≤ k := by
  constructor
  · intro odd
    exact ⟨_, odd, valueFalls_gapValue (by omega), fun _ => valueFalls_le⟩
  · rintro ⟨k, odd, falls, most⟩
    have same : gapValue patterns w i = k :=
      Nat.le_antisymm (most _ (valueFalls_gapValue (Nat.lt_of_lt_of_le (by omega) (valueFalls_le falls)))) (valueFalls_le falls)
    rwa [same]

theorem mem_patternBreaks {p : Nat} : p ∈ patternBreaks patterns w ↔ 2 ≤ p ∧ p + 3 ≤ w.length ∧
    ∃ k, k % 2 = 1 ∧ valueFalls patterns w p k ∧ ∀ k', valueFalls patterns w p k' → k' ≤ k := by
  rw [← gapValue_odd_iff]
  simp only [patternBreaks, List.mem_filter, List.mem_range, Bool.and_eq_true, decide_eq_true_eq]
  omega

end Patterns

/-! ### Words (R62, R66, R67) -/

section Words

theorem entryOf_append {d a b : List ExceptionEntry} {e : ExceptionEntry} {w : List Nat} (hd : d = a ++ e :: b)
    (before : ∀ f ∈ a, f.word ≠ w) (word : e.word = w) : entryOf d w = some e := by
  have notBefore : a.find? (fun f => f.word == w) = none := List.find?_eq_none.2 fun f hf => by simpa using before f hf
  rw [entryOf, hd, List.find?_append, notBefore]
  simp [word]

theorem entryOf_none {d : List ExceptionEntry} {w : List Nat} (absent : ∀ f ∈ d, f.word ≠ w) : entryOf d w = none :=
  List.find?_eq_none.2 fun f hf => by simpa using absent f hf

variable {h : Hyphenation} {locals : List ExceptionEntry} {v : AttemptValues} {g before core after : List BuildItem}
  {discs : List Nat}

/-- `core` is the core of the group's word: no letter stands outside it, and it begins and ends in one (R62). -/
structure CoreOf (g before core after : List BuildItem) : Prop where
  parts : g = before ++ core ++ after
  outside : ∀ b ∈ before ++ after, ¬ letterBoxed b
  first : ∀ b, core.head? = some b → letterBoxed b
  last : ∀ b, core.getLast? = some b → letterBoxed b

/-- The boxes before the first letter are those before the core. -/
theorem CoreOf.coreStart (c : CoreOf g before core after) (letters : core ≠ []) : coreStart g = before.length := by
  obtain ⟨b, tail, rfl⟩ := List.exists_cons_of_ne_nil letters
  have outside : ∀ i ∈ before, (!i.isLetterBox) = true := fun i hi => by
    simpa [← isLetterBox_iff] using c.outside i (List.mem_append_left _ hi)
  have first : b.isLetterBox = true := isLetterBox_iff.2 (c.first b rfl)
  rw [Machine.coreStart, c.parts, List.append_assoc, List.takeWhile_append_of_pos outside]
  simp [first]

/-- The core is the stretch from the first letter to the last. -/
theorem CoreOf.coreOf (c : CoreOf g before core after) : coreOf g = core := by
  have outside (i : BuildItem) (hi : i ∈ before ++ after) : (!i.isLetterBox) = true := by
    simpa [← isLetterBox_iff] using c.outside i hi
  rcases List.eq_nil_or_concat core with rfl | ⟨init, b, rfl⟩
  · have all : g.takeWhile (fun i => !i.isLetterBox) = g :=
      by simpa using List.takeWhile_append_of_pos (l₂ := []) fun i hi => outside i (by simpa [c.parts] using hi)
    simp [Machine.coreOf, Machine.coreStart, all]
  · have last : b.isLetterBox = true := isLetterBox_iff.2 (c.last b (by simp))
    have tail : g.drop before.length = init.concat b ++ after := by rw [c.parts]; simp
    rw [Machine.coreOf, c.coreStart (by simp), tail, List.reverse_append,
      List.dropWhile_append_of_pos fun i hi => outside i (List.mem_append_right _ (List.mem_reverse.1 hi))]
    simp [last]

/-- When a word is eligible (R66), by its core. -/
theorem CoreOf.eligible_iff (c : CoreOf g before core after) (boxes : ∀ b ∈ g, b.kind ≠ .justifying) : eligible v g = true ↔
    v.hyph = true ∧ 5 ≤ core.length ∧ core.length ≤ 40 ∧ (∀ b ∈ core, letterBoxed b) ∧
      (v.caps = true ∨ ∃ b ∈ core, ¬ (0x41 ≤ b.code ∧ b.code ≤ 0x5A)) ∧ v.count < v.limit := by
  have capitals : (!core.all (fun i => isCapital i.code)) = true ↔ ∃ b ∈ core, ¬ (0x41 ≤ b.code ∧ b.code ≤ 0x5A) := by
    simp [isCapital]
  simp only [eligible, c.coreOf, hasNbspace_false boxes, Bool.not_false, Bool.and_true, Bool.and_eq_true, Bool.or_eq_true,
    decide_eq_true_eq, List.all_eq_true, isLetterBox_iff, capitals, and_assoc]

/-- The letters after which the first source that knows the word has it broken: a local exception, the dictionary, the patterns
(R67). -/
def letterBreaks (h : Hyphenation) (locals : List ExceptionEntry) (w : List Nat) : List Nat :=
  match entryOf locals w with
  | some e => e.positions
  | none =>
    match entryOf h.dict w with
    | some e => e.positions
    | none => patternBreaks h.patterns w

theorem letterBreaks_local {w : List Nat} {e : ExceptionEntry} (found : entryOf locals w = some e) :
    letterBreaks h locals w = e.positions := by simp only [letterBreaks, found]

theorem letterBreaks_dict {w : List Nat} {e : ExceptionEntry} (absent : entryOf locals w = none) (found : entryOf h.dict w = some e) :
    letterBreaks h locals w = e.positions := by simp only [letterBreaks, absent, found]

theorem letterBreaks_patterns {w : List Nat} (absent : entryOf locals w = none) (unlisted : entryOf h.dict w = none) :
    letterBreaks h locals w = patternBreaks h.patterns w := by simp only [letterBreaks, absent, unlisted]

/-- A group of boxes without a DISC mark that counts, whose word has this core. -/
structure PlainWord (discs : List Nat) (g before core after : List BuildItem) : Prop extends CoreOf g before core after where
  boxes : ∀ b ∈ g, b.kind ≠ .justifying
  unmarked : ∀ n, ¬ (n ∈ discs ∧ discMarked g n)

theorem PlainWord.addedBreaks (p : PlainWord discs g before core after) : addedBreaks h locals v g discs =
    if eligible v g then (letterBreaks h locals (core.map (fun b => fold b.code))).map (fun i => coreStart g + i - 1)
    else [] := by
  have noMarks : discs.filter (discMarks g) = [] :=
    List.filter_eq_nil_iff.2 fun n hn mark => p.unmarked n ⟨hn, (discMarks_iff g n).1 mark⟩
  simp only [Machine.addedBreaks, hasNbspace_false p.boxes, noMarks, foldedCore, p.coreOf, letterBreaks]
  rfl

/-- An eligible word breaks after these letters of its core (R67). -/
theorem PlainWord.mem_candidates (p : PlainWord discs g before core after) (eligible : eligible v g = true)
    (inside : ∀ n ∈ letterBreaks h locals (core.map (fun b => fold b.code)), 1 ≤ n ∧ n < core.length) (i : Nat) :
    (i, .added) ∈ candidates h locals v g discs ↔
      ∃ n, i + 1 = before.length + n ∧ n ∈ letterBreaks h locals (core.map (fun b => fold b.code)) := by
  obtain ⟨-, -, -, letters, -⟩ := (p.eligible_iff p.boxes).1 eligible
  rw [mem_candidates_added, p.addedBreaks, if_pos eligible]
  simp only [List.mem_map]
  constructor
  · rintro ⟨-, -, n, mem, rfl⟩
    obtain ⟨lo, hi⟩ := inside n mem
    have start := p.coreStart (List.length_pos_iff.1 (by omega))
    exact ⟨n, by omega, mem⟩
  · rintro ⟨n, place, mem⟩
    obtain ⟨lo, hi⟩ := inside n mem
    have start := p.coreStart (List.length_pos_iff.1 (by omega))
    have at' : g[i]? = some core[n - 1] := by
      rw [p.parts, List.append_assoc, List.getElem?_append_right (by omega), List.getElem?_append_left (by omega)]
      rw [show i - before.length = n - 1 by omega]
      exact List.getElem?_eq_getElem _
    have length : g.length = before.length + core.length + after.length := by simp [p.parts, Nat.add_assoc]
    exact ⟨by omega, explicitAfter_not_hyphen at' (letters _ (List.getElem_mem _)).not_hyphenBoxed, n, mem, by omega⟩

end Words

/-- Settles O19: the ROM by its check; the candidates by place and kind, the added ones by the first source that applies. -/
theorem romReadLoadsPatternsAndLamp : Obligations.RomReadLoadsPatternsAndLamp := by
  refine ⟨fun r s => ⟨fun notDue => answers_effect (if_neg notDue), fun due => ?rom⟩, patternOk_iff,
    fun u locals v g discs => ⟨?order, ?inside, fun i => ?explicit, fun nbspace i => ?nbspace,
      fun boxes marked i => mem_candidates_disc boxes marked, fun before core after parts boxes unmarked outside first last => ?word⟩⟩
  case rom =>
    obtain ⟨dict, gen⟩ := loadRom_dict s.hyph (if romGood r then r else none)
    refine ⟨_, congrArg done (romRead_due due r), rfl, rfl, rfl, rfl, rfl, rfl, rfl, dict, gen, ?_, fun bad => ?_⟩
    · rintro m rfl sum
      have good : romGood (some m) = true := decide_eq_true sum
      rw [good, if_pos rfl]
      refine ⟨rfl, clamp_zero .., clamp_zero .., fun i lens => loadRom_base s.lamp m lens, fun count number form => ?_, fun bad => ?_⟩
      · exact loadRom_whole s.hyph count number form ▸ ⟨rfl, rfl⟩
      · exact loadRom_empty s.hyph bad ▸ ⟨rfl, rfl⟩
    · rw [romGood_false bad]
      exact ⟨rfl, rfl, rfl, rfl, rfl, rfl⟩
  case order => exact List.pairwise_map.2 (candidates_ascending ..)
  case inside => exact fun c mem => (mem_candidates.1 mem).1
  case explicit => exact mem_candidates_explicit.trans (explicitAfter_iff g i)
  case nbspace => exact not_added_of_nil (addedBreaks_nbspace nbspace)
  case word =>
    have p : PlainWord discs g before core after := ⟨⟨parts, outside, first, last⟩, boxes, unmarked⟩
    have may := p.eligible_iff (v := v) boxes
    intro w eligible breaksAt inside
    have breaks (ok : eligible) {l : List Nat} (source : letterBreaks u locals w = l) (within : ∀ n ∈ l, 1 ≤ n ∧ n < core.length) :
        breaksAt (· ∈ l) := by
      subst source
      exact p.mem_candidates (may.2 ok) within
    refine ⟨fun not i => not_added_of_nil ?_, fun a e b ok found before word within => ?_,
      fun a e b ok absent found before word within => ?_, fun ok absent unlisted => ?_⟩
    · rw [p.addedBreaks, if_neg (mt may.1 not)]
    · exact breaks ok (letterBreaks_local (entryOf_append found before word)) within
    · exact breaks ok (letterBreaks_dict (entryOf_none absent) (entryOf_append found before word)) within
    · have source := letterBreaks_patterns (h := u) (entryOf_none absent) (entryOf_none unlisted)
      have length : w.length = core.length := List.length_map _
      intro i
      refine (breaks ok source (fun n mem => ?_) i).trans (exists_congr fun n => and_congr_right fun _ => ?_)
      · obtain ⟨lo, hi, -⟩ := mem_patternBreaks.1 mem
        omega
      · exact mem_patternBreaks.trans (by rw [length])

end Sys2Proof.Machine
end

section
/-! PROOFS. The step: it runs the command at the front of the queue, or idles (Logs 2 and 3). A quiet state is settled, settling
leaves the queue and the stores alone (Log 5), and every command leaves those behind it waiting. -/

namespace Sys2Proof.Machine

/-! ### The step and what settles -/

section Settling
variable {s : State}

theorem step_nil (idle : s.pending = []) : step s = .next s := by
  rw [step, idle]

theorem step_cons {c : Instr} {rest : List Instr} (waits : s.pending = c :: rest) :
    step s = exec c { s with pending := rest } := by
  rw [step, waits]

theorem settleWithin_of_quiet (rests : quiet s = true) (n : Nat) : settleWithin n s = s := by
  cases n with
  | zero => rfl
  | succ n => rw [settleWithin, Option.isNone_iff_eq_none.1 rests]

/-- Lamps with the same values differ in their phase alone. -/
theorem Lamp.eq_of_fixed {l m : Lamp} (same : l.fixed = m.fixed) : l = { m with phase := l.phase } :=
  congrArg (fun k : Lamp => { k with phase := l.phase }) same

end Settling

/-- Settles O1. -/
theorem stepRunsTheFrontCommand : Obligations.StepRunsTheFrontCommand := fun _ _ _ => step_cons

/-- Settles O2: no reaction changes the queue or the stores, so settling changes none of them. -/
theorem idleAndQuietStatesRest : Obligations.IdleAndQuietStatesRest := by
  refine ⟨fun _ => step_nil, fun _ rests => settleWithin_of_quiet rests settleFuel, fun s => ?_⟩
  obtain ⟨queue, store, unit, values⟩ := settle_still s
  exact ⟨queue, store, unit, Lamp.eq_of_fixed values⟩

/-! ### The queue, whatever the command -/

/-- A received frame leaves the queue alone where what it does when it acts does. -/
theorem receive_pending {s : State} {h : Header} {ok taken : Bool} {act : State → State}
    (acts : ∀ u, (act u).pending = u.pending) : (receive s h ok taken act).pending = s.pending := by
  rcases receive_cases s h ok taken act with passed | bad | ⟨u, still, heard | acted⟩
  · rw [passed]
  · rw [bad, (badFrame_still s).1]
  · rw [heard, still.1]
  · rw [acted, acts, still.1]

/-- The own effect of every command leaves the queue alone, also of those that write the stores. -/
theorem exec_effect_pending (c : Instr) (s : State) : ∃ u, exec c s = done u ∧ u.pending = s.pending := by
  cases spares : writesStores c with
  | false =>
    obtain ⟨u, effect, still⟩ := exec_effect_still (s := s) spares
    exact ⟨u, effect, still.1⟩
  | true =>
    cases c with
    | powerOn pins => exact ⟨_, rfl, (powerOn_other s pins).1⟩
    | romReadDone rom => exact ⟨_, rfl, (romRead_other s rom).1⟩
    | copy h key offset data => exact ⟨_, rfl, receive_pending fun u => (hearCopy_other u h.sender key offset data).1⟩
    | exceptionAdd h body => exact ⟨_, rfl, receive_pending fun u => (hearAdd_other u body).1⟩
    | exceptionDelete h body => exact ⟨_, rfl, receive_pending fun u => (hearDelete_other u body).1⟩
    | flashDone reading => exact ⟨_, rfl, (flashDone_pending s reading.val).1⟩
    | lampChangeSwitch => exact ⟨changeLamp s, rfl, rfl⟩
    | _ => cases spares

/-- Settles O3: every command answers its own effect, settled, and neither touches the queue. -/
theorem everyCommandAnswers : Obligations.EveryCommandAnswers := by
  intro c s
  obtain ⟨u, effect, queue⟩ := exec_effect_pending c s
  exact ⟨settle u, effect, (settle_still u).1.trans queue⟩

end Sys2Proof.Machine
end

section
/-! PROOFS. The copy store's canonical form and Lamp Control's ranges, kept by every step (R121, R122, R180), and the few commands
that write the copy store, the Hyphenation Unit and the lamp's values. -/

namespace Sys2Proof.Machine

section Stores
variable {s t u : State}

/-! ### What an answer shows of the command's own effect -/

/-- A command's answer has the stores of its own effect: the reactions are still. -/
theorem still_of_done (answers : done u = .next t) : Still t u := by
  injection answers with e
  exact e ▸ settle_still u

/-- What every command keeps, every step keeps, where it does not look at the queue. -/
theorem step_keeps_of_exec {P : State → Prop} (queue : ∀ u rest, P u → P { u with pending := rest })
    (keeps : ∀ c u v, P u → exec c u = .next v → P v) (kept : P s) (stepped : step s = .next t) : P t := by
  cases waits : s.pending with
  | nil =>
    injection (step_nil waits).symm.trans stepped with same
    exact same ▸ kept
  | cons c rest => exact keeps c _ t (queue s rest kept) ((step_cons waits).symm.trans stepped)

/-- A received frame shows a field as it was where what it does when it acts leaves it so: being heard is still. -/
theorem receive_field {α : Type} (field : State → α) (still : ∀ u, Still u s → field u = field s) {h : Header}
    {ok taken : Bool} {act : State → State} (acts : ∀ u, field (act u) = field u) :
    field (receive s h ok taken act) = field s := by
  rcases receive_cases s h ok taken act with passed | bad | ⟨u, k, heard | acted⟩
  · rw [passed]
  · exact bad.symm ▸ still _ (badFrame_still s)
  · exact heard.symm ▸ still u k
  · rw [acted, acts, still u k]

/-! ### The copy store (R180, R184, R201) -/

theorem hearCopy_memWf {sender : Nat} {k : Key} {offset : Nat} {data : List Byte} (wf : memWf u.mem = true) :
    memWf (hearCopy u sender k offset data).mem = true := by
  unfold hearCopy
  split
  · dsimp only
    split
    · exact wf
    · split
      · exact storeCopy_wf _ data u.mem offset wf
      · exact wf
  · exact wf

/-- No command but COPY and POWER_ON has an own effect on the copy store. -/
theorem exec_mem {c : Instr} (answers : exec c s = .next t) (notCopy : ∀ h k o d, c ≠ .copy h k o d)
    (notPowerOn : ∀ p, c ≠ .powerOn p) : t.mem = s.mem := by
  have still (u : State) (k : Still u s) : u.mem = s.mem := k.2.1
  cases spares : writesStores c with
  | false => exact (exec_still spares answers).2.1
  | true =>
    cases c with
    | powerOn pins => exact absurd rfl (notPowerOn pins)
    | copy h k o d => exact absurd rfl (notCopy h k o d)
    | romReadDone rom => exact (still_of_done answers).2.1.trans (romRead_other s rom).2
    | exceptionAdd h body =>
      exact (still_of_done answers).2.1.trans (receive_field State.mem still fun u => (hearAdd_other u body).2.1)
    | exceptionDelete h body =>
      exact (still_of_done answers).2.1.trans (receive_field State.mem still fun u => (hearDelete_other u body).2.1)
    | flashDone reading => exact (still_of_done answers).2.1.trans (flashDone_pending s reading.val).2.1
    | lampChangeSwitch => exact (still_of_done answers).2.1
    | _ => cases spares

theorem exec_memWf (c : Instr) (wf : memWf s.mem = true) (answers : exec c s = .next t) : memWf t.mem = true := by
  cases c with
  | powerOn pins =>
    rw [(still_of_done answers).2.1, (powerOn_other s pins).2.1]
    rfl
  | copy h k o d =>
    rw [(still_of_done answers).2.1]
    rcases receive_cases s h (frameOk (.copy h k o d)) (s.addressed h) (fun v => hearCopy v h.sender k o d) with
      passed | bad | ⟨u, still, heard | acted⟩
    · exact passed.symm ▸ wf
    · rwa [bad, (badFrame_still s).2.1]
    · rwa [heard, still.2.1]
    · rw [acted]
      exact hearCopy_memWf (still.2.1.symm ▸ wf)
  | _ => rwa [exec_mem answers (by intros; nofun) (by intros; nofun)]

/-! ### The Hyphenation Unit (R70, R75, R77, R200) -/

theorem romRead_dict (s : State) (rom : Option Rom) :
    (romRead s rom).hyph.dict = s.hyph.dict ∧ (romRead s rom).hyph.gen = s.hyph.gen := by
  rw [romRead]
  split
  · rw [(startHoming_still _).2.2.1]
    exact loadRom_dict s.hyph _
  · exact ⟨rfl, rfl⟩

/-- No command but EXCEPTION_ADD, EXCEPTION_DELETE, ROM_READ_DONE and POWER_ON has an own effect on the Hyphenation Unit. -/
theorem exec_hyph {c : Instr} (answers : exec c s = .next t) (notAdd : ∀ h b, c ≠ .exceptionAdd h b)
    (notDelete : ∀ h b, c ≠ .exceptionDelete h b) (notPowerOn : ∀ p, c ≠ .powerOn p) (notRom : ∀ r, c ≠ .romReadDone r) :
    t.hyph = s.hyph := by
  cases spares : writesStores c with
  | false => exact (exec_still spares answers).2.2.1
  | true =>
    cases c with
    | powerOn pins => exact absurd rfl (notPowerOn pins)
    | romReadDone rom => exact absurd rfl (notRom rom)
    | exceptionAdd h body => exact absurd rfl (notAdd h body)
    | exceptionDelete h body => exact absurd rfl (notDelete h body)
    | copy h k o d =>
      exact (still_of_done answers).2.2.1.trans
        (receive_field State.hyph (fun u k => k.2.2.1) fun u => (hearCopy_other u h.sender k o d).2.1)
    | flashDone reading => exact (still_of_done answers).2.2.1.trans (flashDone_pending s reading.val).2.2.1
    | lampChangeSwitch => exact (still_of_done answers).2.2.1
    | _ => cases spares

/-- ROM_READ_DONE loads the pattern set alone. -/
theorem exec_romReadDone_dict {rom : Option Rom} (answers : exec (.romReadDone rom) s = .next t) :
    t.hyph.dict = s.hyph.dict ∧ t.hyph.gen = s.hyph.gen := by
  rw [(still_of_done answers).2.2.1]
  exact romRead_dict s rom

/-! ### Lamp Control's values (R121, R122, R124 to R126, R200) -/

/-- Only FLASH_DONE, LAMP_CHANGE_SWITCH, ROM_READ_DONE and POWER_ON have an own effect on the lamp's values. -/
theorem exec_lamp {c : Instr} (answers : exec c s = .next t) (notFlash : ∀ r, c ≠ .flashDone r)
    (notSwitch : c ≠ .lampChangeSwitch) (notPowerOn : ∀ p, c ≠ .powerOn p) (notRom : ∀ r, c ≠ .romReadDone r) :
    t.lamp.fixed = s.lamp.fixed := by
  have still (u : State) (k : Still u s) : u.lamp.fixed = s.lamp.fixed := k.2.2.2
  cases spares : writesStores c with
  | false => exact (exec_still spares answers).2.2.2
  | true =>
    cases c with
    | powerOn pins => exact absurd rfl (notPowerOn pins)
    | romReadDone rom => exact absurd rfl (notRom rom)
    | flashDone reading => exact absurd rfl (notFlash reading)
    | lampChangeSwitch => exact absurd rfl notSwitch
    | copy h k o d =>
      exact (still_of_done answers).2.2.2.trans (receive_field (fun u => u.lamp.fixed) still fun u =>
        congrArg Lamp.fixed (hearCopy_other u h.sender k o d).2.2)
    | exceptionAdd h body =>
      exact (still_of_done answers).2.2.2.trans (receive_field (fun u => u.lamp.fixed) still fun u =>
        congrArg Lamp.fixed (hearAdd_other u body).2.2)
    | exceptionDelete h body =>
      exact (still_of_done answers).2.2.2.trans (receive_field (fun u => u.lamp.fixed) still fun u =>
        congrArg Lamp.fixed (hearDelete_other u body).2.2)
    | _ => cases spares

theorem romRead_lamp (s : State) (rom : Option Rom) : (romRead s rom).lamp.fixed = s.lamp.fixed ∨
    (romRead s rom).lamp.fixed = (s.lamp.loadRom (if romGood rom then rom else none)).fixed := by
  rw [romRead]
  split
  · exact .inr (startHoming_still _).2.2.2
  · exact .inl rfl

theorem loadRom_correction (l : Lamp) (rom : Option Rom) :
    (l.loadRom rom).c = l.c ∧ (l.loadRom rom).ePrev = l.ePrev ∧ (l.loadRom rom).run = l.run := by
  cases rom <;> exact ⟨rfl, rfl, rfl⟩

/-- The ranges do not ask for the lamp's phase. -/
theorem lampOk_of_fixed {l m : Lamp} (same : l.fixed = m.fixed) (ok : lampOk m) : lampOk l :=
  (fixed_lampOk l).1 (same ▸ (fixed_lampOk m).2 ok)

/-- What holds of the correction, the last error and the clamp run holds of any lamp of the same values. -/
theorem correction_of_fixed {l m : Lamp} (same : l.fixed = m.fixed) : l.c = m.c ∧ l.ePrev = m.ePrev ∧ l.run = m.run :=
  ⟨(congrArg Lamp.c same : l.fixed.c = m.fixed.c), (congrArg Lamp.ePrev same : l.fixed.ePrev = m.fixed.ePrev),
    (congrArg Lamp.run same : l.fixed.run = m.fixed.run)⟩

theorem reset_lampOk : lampOk State.reset.lamp := by
  simp [lampOk, State.reset]

theorem exec_lampOk (c : Instr) (ok : lampOk s.lamp) (answers : exec c s = .next t) : lampOk t.lamp := by
  cases c with
  | powerOn pins =>
    refine lampOk_of_fixed (still_of_done answers).2.2.2 (lampOk_of_fixed ?_ reset_lampOk)
    exact (powerOn_other s pins).2.2.2
  | romReadDone rom =>
    refine lampOk_of_fixed (still_of_done answers).2.2.2 ?_
    rcases romRead_lamp s rom with same | loaded
    · exact lampOk_of_fixed same ok
    · exact lampOk_of_fixed loaded (loadRom_lampOk ok _)
  | flashDone reading =>
    refine lampOk_of_fixed (still_of_done answers).2.2.2 ?_
    rcases (flashDone_pending s reading.val).2.2.2 with same | taken
    · exact lampOk_of_fixed same ok
    · exact lampOk_of_fixed taken (take_lampOk ok reading.isLt)
  | lampChangeSwitch => exact lampOk_of_fixed (still_of_done answers).2.2.2 (changeLamp_lampOk ok)
  | _ => exact lampOk_of_fixed (exec_lamp answers (by intros; nofun) nofun (by intros; nofun) (by intros; nofun)) ok

end Stores

/-- Settles O4: the queue apart, a step is a command, and only COPY stores bytes, one at a time in the canonical form. -/
theorem stepKeepsCopyStoreCanonical : Obligations.StepKeepsCopyStoreCanonical :=
  fun _ _ => step_keeps_of_exec (P := fun s => memWf s.mem = true) (fun _ _ wf => wf) fun c _ _ => exec_memWf c

/-- Settles O6: each command that sets the lamp's values sets them within their ranges. -/
theorem stepKeepsLampRanges : Obligations.StepKeepsLampRanges :=
  fun _ _ => step_keeps_of_exec (P := fun s => lampOk s.lamp) (fun _ _ ok => ok) fun c _ _ => exec_lampOk c

/-- Settles O9, store by store. -/
theorem onlyNamedCommandsWriteTheStores : Obligations.OnlyNamedCommandsWriteTheStores := by
  refine ⟨fun c s t answers => exec_mem answers, fun c s t answers notAdd notDelete notPowerOn => ?_,
    fun c s t answers notFlash notSwitch notPowerOn => ?_⟩
  · by_cases rom : ∃ r, c = .romReadDone r
    · obtain ⟨r, rfl⟩ := rom
      obtain ⟨dict, gen⟩ := exec_romReadDone_dict answers
      exact ⟨dict, gen, fun notRom => absurd rfl (notRom r)⟩
    · have same := exec_hyph answers notAdd notDelete notPowerOn fun r e => rom ⟨r, e⟩
      exact ⟨congrArg _ same, congrArg _ same, fun _ => same⟩
  · by_cases rom : ∃ r, c = .romReadDone r
    · obtain ⟨r, rfl⟩ := rom
      rcases romRead_lamp s r with same | loaded
      · exact correction_of_fixed ((still_of_done answers).2.2.2.trans same)
      · obtain ⟨hc, he, hr⟩ := correction_of_fixed ((still_of_done answers).2.2.2.trans loaded)
        obtain ⟨kc, ke, kr⟩ := loadRom_correction s.lamp (if romGood r then r else none)
        exact ⟨hc.trans kc, he.trans ke, hr.trans kr⟩
    · exact correction_of_fixed (exec_lamp answers notFlash notSwitch notPowerOn fun r e => rom ⟨r, e⟩)

end Sys2Proof.Machine
end

section
/-! PROOFS. The MOUNT key (R119). -/

namespace Sys2Proof.Machine

section Mount
variable {s : State}

/-- MOUNT is accepted (R119): in HOLD or STOPPED, the Exposure Sequencer IDLE or in CHECKING with no homing in progress. -/
def State.mountAccepted (s : State) : Prop :=
  (s.stop.station = .hold ∨ s.stop.station = .stopped) ∧ (s.exp.phase = .idle ∨ s.exp.phase = .checking) ∧
  s.exp.homing = none

theorem exec_mountKey (awake : s.stop.station ≠ .standby) : exec .mountKey s = .next (settle (mountKey s)) :=
  congrArg done (if_neg awake)

theorem mountAccepted_awake (accepted : s.mountAccepted) : s.stop.station ≠ .standby := by
  rcases accepted.1 with hold | stopped
  · simp [hold]
  · simp [stopped]

/-! ### The seat presented (R119) -/

theorem mountSeat_next (noCall : s.stopIs .fontCall = false) : mountSeat s = (s.exp.turret.getD 0 + 1) % 8 := by
  simp [mountSeat, noCall]

theorem mountSeat_empty {i : Nat} (call : s.stopIs .fontCall = true)
    (empty : s.exp.seats.findIdx? (fun f => f == 0) = some i) : mountSeat s = i := by
  simp [mountSeat, call, empty]

theorem mountSeat_unlisted {t : Take} {i : Nat} (call : s.stopIs .fontCall = true)
    (full : s.exp.seats.findIdx? (fun f => f == 0) = none) (active : s.active? = some t)
    (unlisted : s.exp.order.find? (fun i => !t.fonts.contains ((s.exp.seats[i]?).getD 0)) = some i) : mountSeat s = i := by
  simp only [mountSeat, call, full, active, unlisted, if_true]

/-- With every seat's font listed, or no take ACTIVE, it is the least recently exposed seat. -/
theorem mountSeat_oldest {i : Nat} {l : List Nat} (call : s.stopIs .fontCall = true)
    (full : s.exp.seats.findIdx? (fun f => f == 0) = none)
    (listed : ∀ t, s.active? = some t →
      s.exp.order.find? (fun i => !t.fonts.contains ((s.exp.seats[i]?).getD 0)) = none)
    (order : s.exp.order = i :: l) : mountSeat s = i := by
  cases active : s.active? with
  | none => simp [mountSeat, call, full, active, order]
  | some t =>
    simp only [mountSeat, call, full, active, listed t active, if_true]
    rw [order]
    rfl

/-! ### The press (R103, R119) -/

theorem mountKey_moves {i : Nat} (accepted : s.mountAccepted) (seat : mountSeat s = i) (away : s.exp.turret ≠ some i) :
    mountKey s = { s with exp := { s.exp with phase := .mounting, turretMove := some i } } := by
  refine (if_pos accepted).trans ?_
  simp only [seat]
  rw [if_neg away]
  rfl

theorem mountKey_at_path {i : Nat} (accepted : s.mountAccepted) (seat : mountSeat s = i) (here : s.exp.turret = some i) :
    mountKey s = { s with exp := { s.exp with
      phase := if s.exp.cur.isSome then .checking else .idle
      cur := s.exp.cur.map (fun c => { c with checked := false }) } } := by
  refine (if_pos accepted).trans ?_
  simp only [seat]
  rw [if_pos here]
  rfl

end Mount

/-- Settles O23: an accepted press presents the seat that `mountSeat` gives, case by case. -/
theorem mountKeyPresentsASeat : Obligations.MountKeyPresentsASeat := by
  intro s taken presents empty unlisted
  have press (i : Nat) (accepted : taken) (seat : mountSeat s = i) : presents i :=
    ⟨fun away => (exec_mountKey (mountAccepted_awake accepted)).trans
        (answers_effect (mountKey_moves accepted seat away)),
      fun here => (exec_mountKey (mountAccepted_awake accepted)).trans
        (answers_effect (mountKey_at_path accepted seat here))⟩
  refine ⟨fun n accepted noCall known => ?next, fun accepted noCall unknown => ?unknown,
    fun i accepted call found => ?empty, fun t i accepted call full active found => ?unlisted,
    fun i l accepted call full listed order => ?oldest, fun refused awake => ?refused⟩
  case next => exact press _ accepted (by rw [mountSeat_next noCall, known]; rfl)
  case unknown => exact press _ accepted (by rw [mountSeat_next noCall, unknown]; rfl)
  case empty => exact press _ accepted (mountSeat_empty call found)
  case unlisted => exact press _ accepted (mountSeat_unlisted call full active found)
  case oldest => exact press _ accepted (mountSeat_oldest call full listed order)
  case refused => exact (exec_mountKey awake).trans (answers_effect (if_neg refused))

end Sys2Proof.Machine
end

section
/-! PROOFS. OFFERs heard and the test of the open claim windows (R172, R174, R181, R182). -/

namespace Sys2Proof.Machine

section Bids
variable {s : State} {m : OfferMsg}

/-! ### The test of R181 -/

/-- No record is held for a key (R179). -/
theorem take?_isNone_iff (s : State) (k : Key) : (s.take? k).isNone = true ↔ ∀ x ∈ s.takes, x.key ≠ k := by
  simp [State.take?]

theorem ceilDiv_eq (n d : Nat) : ceilDiv n (d + 1) = (n + d) / (d + 1) := rfl

theorem eligible_iff_mayBid (s : State) (m : OfferMsg) : s.eligible m = true ↔ mayBid s m := by
  simp only [State.eligible, mayBid, Bool.and_eq_true, Bool.or_eq_true, beq_iff_eq, Bool.not_eq_true', decide_eq_true_eq,
    take?_isNone_iff, List.all_eq_true, and_assoc]
  rfl

/-- The cost of a bid, unit by unit (R182). -/
theorem cost_eq (s : State) (m : OfferMsg) : s.cost m = min 31
    (4 * ((distinct m.fonts).filter (fun f => !s.mounted f)).length +
      ((distinct m.fonts).filter (fun f => !s.width.isValid f)).length +
      min 8 (((s.takes.map (fun t => t.received)).sum + 4095) / 4096) +
      (if s.stop.station = .standby then 3 else 0) +
      (if s.film.remaining < 57000 ∨ s.film.known = false then 2 else 0)) := by
  have short : (s.filmShort = true) = (s.film.remaining < 57000 ∨ s.film.known = false) := by
    rw [State.filmShort, Bool.or_eq_true, decide_eq_true_eq, Bool.not_eq_true', Config.lowFilm]
  simp only [State.cost, ceilDiv_eq, short]

/-! ### An OFFER heard (R172, R181, R182) -/

/-- The station may open a claim window for the offer: it bids, and the window table has room and no window of the key. -/
def opensWindow (s : State) (m : OfferMsg) : Prop :=
  mayBid s m ∧ s.line.windows.length < 4 ∧ ∀ w ∈ s.line.windows, w.what.isClaimFor m.key = false

theorem hearOffer_opens (opens : opensWindow s m) (sender : Nat) : hearOffer s sender m =
    openWindow s (.claim sender m (s.cost m)) (s.cost m * 16 + s.number) (some (.claim m.key (s.cost m))) := by
  obtain ⟨bids, room, noWindow⟩ := opens
  refine if_pos ⟨(eligible_iff_mayBid s m).2 bids, List.any_eq_false.2 fun w hw => ?_, ?_⟩
  · simp [noWindow w hw]
  · simp [State.windowRoom, Config.maxWindows, room, bids.2.1]

/-- The window counts its slots before the CLAIM is handed over (R173). -/
theorem hearOffer_counts (opens : opensWindow s m) (counts : 0 < s.cost m * 16 + s.number) (sender : Nat) :
    hearOffer s sender m = { s with line := { s.line with windows := s.line.windows ++
      [{ what := .claim sender m (s.cost m), slots := s.cost m * 16 + s.number, queued := false }] } } := by
  have notZero : ¬ s.cost m * 16 + s.number = 0 := Nat.ne_of_gt counts
  rw [hearOffer_opens opens]
  simp only [openWindow, notZero, if_false, decide_false, Bool.false_and]

/-- A window of no slots hands its CLAIM over at once (R172). -/
theorem hearOffer_at_once (opens : opensWindow s m) (zero : s.cost m * 16 + s.number = 0)
    (room : s.line.queue.length + s.line.waiting.length < 8) (sender : Nat) :
    hearOffer s sender m = { s with line := { s.line with
      queue := insertFrame (.claim m.key (s.cost m)) s.line.queue
      windows := s.line.windows ++ [{ what := .claim sender m (s.cost m), slots := 0, queued := true }] } } := by
  rw [hearOffer_opens opens]
  simp only [openWindow, zero, if_true]
  exact putFrame_with_room
    (s := { s with line := { s.line with windows := s.line.windows ++ [⟨.claim sender m (s.cost m), 0, true⟩] } })
    room (.claim m.key (s.cost m))

theorem hearOffer_passed_over (closed : ¬ opensWindow s m) (sender : Nat) : hearOffer s sender m = s := by
  refine if_neg fun ⟨bids, noWindow, room⟩ => closed ⟨(eligible_iff_mayBid s m).1 bids, ?_, fun w hw => ?_⟩
  · exact of_decide_eq_true (Bool.and_eq_true_iff.1 room).1
  · simpa using List.any_eq_false.1 noWindow w hw

/-! ### The test of the open windows (R174, R182) -/

/-- The window is a claim window whose offer fails the test now, its CLAIM not begun (R182). -/
def withdrawnWindow (s : State) (w : Window) : Prop :=
  s.line.windowBegun w = false ∧ ∃ sender m cost, w.what = .claim sender m cost ∧ ¬ mayBid s m

theorem fails_iff (s : State) (w : WindowFor) :
    w.fails s = true ↔ ∃ sender m cost, w = .claim sender m cost ∧ ¬ mayBid s m := by
  cases w with
  | answer font => simp [WindowFor.fails]
  | claim sender m cost =>
    simp only [WindowFor.fails, Bool.not_eq_true', WindowFor.claim.injEq, ← eligible_iff_mayBid, Bool.not_eq_true]
    exact ⟨fun fails => ⟨sender, m, cost, ⟨rfl, rfl, rfl⟩, fails⟩, by rintro ⟨_, _, _, ⟨-, rfl, -⟩, fails⟩; exact fails⟩

theorem withdrawnWindow_iff (s : State) (w : Window) :
    (w.what.fails s && !s.line.windowBegun w) = true ↔ withdrawnWindow s w := by
  rw [Bool.and_eq_true_iff, fails_iff, Bool.not_eq_true', withdrawnWindow, and_comm]

theorem retestWindows_none (stays : ∀ w ∈ s.line.windows, ¬ withdrawnWindow s w) : retestWindows s = none :=
  if_neg fun due => by
    obtain ⟨w, hw, fails⟩ := List.any_eq_true.1 due
    exact stays w hw ((withdrawnWindow_iff s w).1 fails)

theorem retestWindows_withdraws (due : ∃ w ∈ s.line.windows, withdrawnWindow s w) :
    retestWindows s = some (cancelWindows s (WindowFor.fails s)) := by
  obtain ⟨w, hw, fails⟩ := due
  exact if_pos (List.any_eq_true.2 ⟨w, hw, (withdrawnWindow_iff s w).2 fails⟩)

theorem mem_cancelWindows_fails (s : State) (w : Window) :
    w ∈ (cancelWindows s (WindowFor.fails s)).line.windows ↔ w ∈ s.line.windows ∧ ¬ withdrawnWindow s w := by
  rw [cancelWindows_windows, List.mem_filter, ← withdrawnWindow_iff, Bool.not_eq_true', Bool.not_eq_true]

/-- The frame of none of the windows withdrawn. -/
theorem unowned_iff (s : State) (f : TxFrame) :
    (!(s.line.windows.filter (fun w => w.what.fails s && !s.line.windowBegun w)).any
        (fun w => w.queued && w.what.owns f)) = true ↔
      ∀ w ∈ s.line.windows, withdrawnWindow s w → w.queued = true → w.what.owns f = false := by
  rw [Bool.not_eq_true', List.any_eq_false]
  simp only [List.mem_filter, withdrawnWindow_iff, and_imp, Bool.not_eq_true, Bool.and_eq_false_imp]

theorem mem_cancelWindows_queue (s : State) (e : TxEntry) :
    e ∈ (cancelWindows s (WindowFor.fails s)).line.queue ↔ e ∈ s.line.queue ∧
      (e.begun = true ∨ ∀ w ∈ s.line.windows, withdrawnWindow s w → w.queued = true → w.what.owns e.frame = false) := by
  rw [← unowned_iff, ← Bool.or_eq_true]
  exact List.mem_filter

theorem mem_cancelWindows_waiting (s : State) (f : TxFrame) :
    f ∈ (cancelWindows s (WindowFor.fails s)).line.waiting ↔ f ∈ s.line.waiting ∧
      ∀ w ∈ s.line.windows, withdrawnWindow s w → w.queued = true → w.what.owns f = false := by
  rw [← unowned_iff]
  exact List.mem_filter

end Bids

/-- Settles O30: an OFFER heard opens a window or is passed over; the open windows are tested by the same test. -/
theorem offersOpenClaimWindows : Obligations.OffersOpenClaimWindows := by
  refine ⟨fun h m s received => ?heard, by simp [reactions], fun s => ⟨retestWindows_none, fun due => ?withdrawn⟩⟩
  case heard =>
    intro bids cost
    have acts : exec (.offer h m) s = done (hearOffer (heard s) h.sender m) := congrArg done (receive_received received _)
    have hcost : (heard s).cost m = cost := cost_eq (heard s) m
    have counts : (heard s).cost m * 16 + (heard s).number = cost * 16 + s.panel.straps.station.val := by
      rw [hcost]
      rfl
    refine ⟨fun may room noWindow pos => ?_, fun may room noWindow zero free => ?_, fun closed => ?_⟩
    · have opens : opensWindow (heard s) m := ⟨may, room, noWindow⟩
      refine acts.trans (answers_effect ((hearOffer_counts opens (counts ▸ pos) h.sender).trans ?_))
      rw [counts, hcost]
      rfl
    · have opens : opensWindow (heard s) m := ⟨may, room, noWindow⟩
      refine acts.trans (answers_effect ((hearOffer_at_once opens (counts.trans zero) free h.sender).trans ?_))
      rw [hcost]
      rfl
    · refine acts.trans (answers_effect (hearOffer_passed_over (fun ⟨may, room, noWindow⟩ => ?_) h.sender))
      rcases closed with notBids | full | ⟨w, hw, claims⟩
      · exact notBids may
      · exact absurd room (Nat.not_lt.2 full)
      · exact absurd (noWindow w hw) (by simp [claims])
  case withdrawn =>
    refine ⟨_, retestWindows_withdraws due, rfl, List.filter_sublist, mem_cancelWindows_fails s, List.filter_sublist,
      mem_cancelWindows_queue s, mem_cancelWindows_waiting s, rfl, rfl⟩

end Sys2Proof.Machine
end

section
/-! PROOFS. COPY and COPY-END heard, and the stall timer (R180, R184, R185). -/

namespace Sys2Proof.Machine

/-- A frame received and handed over acts on the state as its frame has ended (R163, R168). -/
theorem exec_handed {c : Instr} {h : Header} {s : State} (hc : frameHeader c = some h) (received : Received h c s)
    (taken : s.handsOver c = true) : exec c s = done (frameAct c (heard s)) := by
  obtain ⟨hears, passed, other⟩ := received
  rw [exec_frame hc, passed, receive_passed hears, if_neg other, taken]
  rfl

section Reception
variable {s : State} {k : Key} {x : Take} {sender : Nat}

/-! ### The record that takes a COPY or a COPY-END (R184) -/

/-- The take is being received from this sender, its copy not complete (R184). -/
def Take.receives (x : Take) (sender : Nat) : Prop := x.state = .receiving ∧ x.copyComplete = false ∧ x.sender = sender

theorem receiver?_some (held : s.take? k = some x) (receives : x.receives sender) : s.receiver? k sender = some x := by
  rw [State.receiver?, held]
  exact if_pos receives

theorem receiver?_none (others : ∀ x, s.take? k = some x → ¬ x.receives sender) : s.receiver? k sender = none := by
  rw [State.receiver?]
  cases held : s.take? k with
  | none => rfl
  | some x => exact if_neg (others x held)

/-- A change of a record that is alone with its key gives what the change makes of it. -/
theorem modTake_alone (alone : ∀ y ∈ s.takes, y.key = k → y = x) (f : Take → Take) :
    s.modTake k f = { s with takes := s.takes.map (fun y => if y.key == k then f x else y) } := by
  unfold State.modTake
  congr 1
  refine List.map_congr_left fun y hy => ?_
  by_cases same : y.key = k
  · rw [alone y hy same]
  · simp [same]

/-- The stall timer of a take starts again (R184). -/
def Take.stalling (x : Take) : Take := { x with timer := some .stall }

/-- The stall timer starts again, and the record that is alone with its key is changed further. -/
theorem modTake_stalling (alone : ∀ y ∈ s.takes, y.key = k → y = x) (f : Take → Take) :
    (s.modTake k Take.stalling).modTake k f =
      { s with takes := s.takes.map (fun y => if y.key == k then f x.stalling else y) } :=
  (modTake_modTake s k Take.stalling f fun _ => rfl).trans (modTake_alone alone _)

/-! ### A COPY (R180, R184) -/

/-- A COPY that goes on where the last ended is stored (R184), the blocks it needs coming into use (R180). -/
theorem hearCopy_stores (held : s.take? k = some x) (alone : ∀ y ∈ s.takes, y.key = k → y = x)
    (receives : x.receives sender) (sound : x.mismatched = false) {offset : Nat} {data : List Byte}
    (next : offset = x.received) (fits : offset + data.length ≤ x.copyLen) : hearCopy s sender k offset data =
      { s with
        mem := storeCopy s.mem (x.receive data.length).blocks offset data
        takes := s.takes.map (fun y => if y.key == k then { x.receive data.length with timer := some .stall } else y) } := by
  simp only [hearCopy, receiver?_some held receives, sound, Bool.false_eq_true, if_false]
  rw [if_pos ⟨next, fits⟩]
  exact congrArg (fun u : State => { u with mem := storeCopy s.mem (x.receive data.length).blocks offset data })
    (modTake_stalling alone (·.receive data.length))

/-- One that does not marks the take mismatched (R184). -/
theorem hearCopy_mismatched (held : s.take? k = some x) (alone : ∀ y ∈ s.takes, y.key = k → y = x)
    (receives : x.receives sender) (sound : x.mismatched = false) {offset : Nat} {data : List Byte}
    (astray : offset ≠ x.received ∨ x.copyLen < offset + data.length) : hearCopy s sender k offset data =
      { s with takes := s.takes.map (fun y =>
          if y.key == k then { x with mismatched := true, timer := some .stall } else y) } := by
  have notNext : ¬ (offset = x.received ∧ offset + data.length ≤ x.copyLen) := fun ⟨next, fits⟩ =>
    astray.elim (fun other => other next) fun long => Nat.not_lt.2 fits long
  simp only [hearCopy, receiver?_some held receives, sound, Bool.false_eq_true, if_false]
  rw [if_neg notNext]
  exact modTake_stalling alone (fun y => { y with mismatched := true })

/-- A take mismatched already only has its stall timer started again (R184). -/
theorem hearCopy_astray (held : s.take? k = some x) (alone : ∀ y ∈ s.takes, y.key = k → y = x)
    (receives : x.receives sender) (mismatched : x.mismatched = true) (offset : Nat) (data : List Byte) :
    hearCopy s sender k offset data =
      { s with takes := s.takes.map (fun y => if y.key == k then { x with timer := some .stall } else y) } := by
  simp only [hearCopy, receiver?_some held receives]
  exact (if_pos mismatched).trans (modTake_alone alone Take.stalling)

theorem hearCopy_passed_over (others : ∀ x, s.take? k = some x → ¬ x.receives sender) (offset : Nat) (data : List Byte) :
    hearCopy s sender k offset data = s := by
  simp only [hearCopy, receiver?_none others]

/-! ### A COPY-END (R185) -/

/-- The copy is whole (R185): the total is the copy length and the bytes received. -/
def Take.whole (x : Take) (total : Nat) : Prop := x.mismatched = false ∧ total = x.copyLen ∧ total = x.received

/-- A whole copy has the TAKEN handed over (R185). -/
theorem hearCopyEnd_taken (held : s.take? k = some x) (receives : x.receives sender) (unmuted : s.line.mute = false)
    {total : Nat} (whole : x.whole total) : hearCopyEnd s sender k total =
      putFrame (s.modTake k (fun y => { y with copyComplete := true, timer := none })) (.taken k sender) := by
  have fromSender : x.sender = sender := receives.2.2
  obtain ⟨sound, all, received⟩ := whole
  simp only [hearCopyEnd, receiver?_some held receives, unmuted, Bool.false_eq_true, if_false]
  rw [if_pos ⟨sound, all, received⟩, fromSender]

/-- Any other fails the reception (R185). -/
theorem hearCopyEnd_refused (held : s.take? k = some x) (receives : x.receives sender) {total : Nat}
    (partial' : ¬ x.whole total) : hearCopyEnd s sender k total = refuseCopy s x 1 := by
  simp only [hearCopyEnd, receiver?_some held receives]
  exact if_neg partial'

theorem hearCopyEnd_passed_over (others : ∀ x, s.take? k = some x → ¬ x.receives sender) (total : Nat) :
    hearCopyEnd s sender k total = s := by
  simp only [hearCopyEnd, receiver?_none others]

/-- A muted station hands no frame over, and a record freed leaves it muted (R169). -/
theorem refuseCopy_muted (held : s.take? k = some x) (muted : s.line.mute = true) (reason : Nat) :
    refuseCopy s x reason = freeTake s k := by
  obtain ⟨-, _, _, _, line, -, -⟩ := freeTake_eased s k
  rw [refuseCopy, (take_some held).2]
  exact if_pos (line ▸ muted)

/-- A muted station frees the record, whole or not (R169, R185). -/
theorem hearCopyEnd_muted (held : s.take? k = some x) (receives : x.receives sender) (muted : s.line.mute = true)
    (total : Nat) : hearCopyEnd s sender k total = freeTake s k := by
  by_cases whole : x.whole total
  · simp only [hearCopyEnd, receiver?_some held receives, muted, if_true]
    exact if_pos whole
  · rw [hearCopyEnd_refused held receives whole, refuseCopy_muted held muted]

/-! ### A reception that fails (R185) -/

theorem freeTake_mem (s : State) (k : Key) : (freeTake s k).mem = s.mem := (freeTake_still s k).2.1

/-- The record is freed. -/
theorem refuseCopy_takes (held : s.take? k = some x) (reason : Nat) :
    (refuseCopy s x reason).takes = s.takes.filter (fun y => y.key ≠ k) := by
  have handed (u : State) (f : TxFrame) : (handFrame u f).takes = u.takes := by
    unfold handFrame putFrame
    split
    · rfl
    · split <;> rfl
  rw [refuseCopy, handed, (take_some held).2, freeTake_takes]

theorem refuseCopy_mem (s : State) (x : Take) (reason : Nat) : (refuseCopy s x reason).mem = s.mem :=
  (handFrame_still _ _).2.1.trans (freeTake_mem s x.key)

/-- The REFUSED of a station not muted is queued or waits for room (R171). -/
theorem refuseCopy_frame (held : s.take? k = some x) (unmuted : s.line.mute = false) (reason : Nat) :
    let t := refuseCopy s x reason
    { frame := .refused k x.sender reason, begun := false } ∈ t.line.queue ∨ .refused k x.sender reason ∈ t.line.waiting := by
  obtain ⟨-, _, _, _, line, -, -⟩ := freeTake_eased s k
  have free : (freeTake s k).line.mute = false := line ▸ unmuted
  rw [refuseCopy, (take_some held).2, handFrame, free]
  rcases putFrame_cases (freeTake s k) (.refused k x.sender reason) with ⟨-, waits⟩ | ⟨-, queued⟩
  · exact .inr (by simp [waits])
  · exact .inl (by simpa [queued] using mem_insertFrame _ _)

/-- With room in the queue it is queued. -/
theorem refuseCopy_queued (held : s.take? k = some x) (room : hasRoom s) (reason : Nat) :
    { frame := .refused k x.sender reason, begun := false } ∈ (refuseCopy s x reason).line.queue := by
  obtain ⟨-, _, _, _, line, queue, waiting⟩ := freeTake_eased s k
  have free : (freeTake s k).line.mute = false := line ▸ room.1
  have places : (freeTake s k).line.queue.length + (freeTake s k).line.waiting.length < 8 := by
    rw [line]
    exact Nat.lt_of_le_of_lt (Nat.add_le_add queue.length_le waiting.length_le) room.2
  rw [refuseCopy, (take_some held).2, handFrame, free]
  simp only [Bool.false_eq_true, if_false]
  rw [putFrame_with_room places]
  exact mem_insertFrame _ _

/-! ### The stall timer (R185) -/

theorem stallExpires_due (held : s.take? k = some x) (receiving : x.state = .receiving) (runs : x.timer = some .stall) :
    stallExpires s k = refuseCopy s x 2 := by
  simp only [stallExpires, held]
  exact if_pos ⟨receiving, runs⟩

theorem stallExpires_not_due (off : ∀ x, s.take? k = some x → x.state ≠ .receiving ∨ x.timer ≠ some .stall) :
    stallExpires s k = s := by
  unfold stallExpires
  split
  · next x held => exact if_neg fun ⟨receiving, runs⟩ => (off x held).elim (· receiving) (· runs)
  · rfl

end Reception

/-- Settles O31: a COPY heard acts on the record that takes it, or on none. -/
theorem copyIsStoredInOrder : Obligations.CopyIsStoredInOrder := by
  refine ⟨fun h k offset data s x received here held alone => ?held, fun h k offset data s received absent => ?absent⟩
  case held =>
    have acts : exec (.copy h k offset data) s = done (hearCopy (heard s) h.sender k offset data) :=
      exec_handed rfl received (decide_eq_true here)
    refine ⟨fun receiving open' sender sound next fits => ?_, fun receiving open' sender sound astray => ?_,
      fun receiving open' sender mismatched => ?_, fun other => ?_⟩
    · exact acts.trans (answers_effect
        (hearCopy_stores (s := heard s) held alone ⟨receiving, open', sender⟩ sound next fits))
    · exact acts.trans (answers_effect
        (hearCopy_mismatched (s := heard s) held alone ⟨receiving, open', sender⟩ sound astray))
    · exact acts.trans (answers_effect
        (hearCopy_astray (s := heard s) held alone ⟨receiving, open', sender⟩ mismatched offset data))
    · refine acts.trans (answers_effect (hearCopy_passed_over (fun y found ⟨receiving, open', sender⟩ => ?_) offset data))
      obtain rfl := Option.some.inj (held.symm.trans found)
      rcases other with notReceiving | complete | foreign
      · exact notReceiving receiving
      · rw [open'] at complete
        cases complete
      · exact foreign sender
  case absent =>
    have none (u : State) (same : u.takes = s.takes) : ∀ x, u.take? k = some x → ¬ x.receives h.sender := fun x found => by
      obtain ⟨hx, key⟩ := take_some found
      exact absurd key (absent x (same ▸ hx))
    cases here : s.addressed h with
    | false => exact exec_not_handed rfl received here
    | true =>
      exact (exec_handed rfl received here).trans (answers_effect (hearCopy_passed_over (none (heard s) rfl) offset data))

/-- Settles O32: a COPY-END heard, and the stall timer, act on the record that is being received. -/
theorem copyEndIsAnswered : Obligations.CopyEndIsAnswered := by
  have acts {h : Header} {k : Key} {total : Nat} {s : State} (received : Received h (.copyEnd h k total) s)
      (here : h.addressee = s.number) :
      exec (.copyEnd h k total) s = done (hearCopyEnd (heard s) h.sender k total) :=
    exec_handed rfl received (decide_eq_true here)
  have notWhole {x : Take} {total : Nat} (h : x.mismatched = true ∨ total ≠ x.copyLen ∨ total ≠ x.received) :
      ¬ x.whole total := fun ⟨sound, len, got⟩ => by
    rcases h with mismatched | other | other
    · rw [sound] at mismatched
      cases mismatched
    · exact other len
    · exact other got
  refine ⟨fun h k total s x held receiving unmuted free => ⟨fun received here open' sender => ⟨fun sound len got => ?taken,
      fun h => ?refused⟩, fun runs => ?stall, fun off => ?stallOff⟩,
    fun h k total s => ⟨fun received => ⟨fun others => ?others, fun x here held receiving open' sender =>
      ⟨fun muted => ?muted, fun unmuted full sound len got => ?waits, fun unmuted h => ?refusedLater⟩⟩,
      fun x held receiving runs muted => ?stallMuted, fun off => ?stallNone⟩⟩
  case taken =>
    refine (acts received here).trans (answers_effect
      ((hearCopyEnd_taken (s := heard s) held ⟨receiving, open', sender⟩ unmuted ⟨sound, len, got⟩).trans ?_))
    exact putFrame_with_room (s := (heard s).modTake k _) free _
  case refused =>
    refine ⟨_, (acts received here).trans (answers_effect
      (hearCopyEnd_refused (s := heard s) held ⟨receiving, open', sender⟩ (notWhole h))), ?_, ?_, ?_⟩
    · exact refuseCopy_takes (s := heard s) held 1
    · exact refuseCopy_queued (s := heard s) held ⟨unmuted, free⟩ 1
    · exact refuseCopy_mem (heard s) x 1
  case stall =>
    exact ⟨_, answers_effect (stallExpires_due held receiving runs), refuseCopy_takes held 2,
      refuseCopy_queued held ⟨unmuted, free⟩ 2, refuseCopy_mem s x 2⟩
  case stallOff =>
    refine answers_effect (stallExpires_not_due fun y found => .inr ?_)
    exact Option.some.inj (held.symm.trans found) ▸ off
  case others =>
    cases here : s.addressed h with
    | false => exact exec_not_handed rfl received here
    | true =>
      refine (exec_handed rfl received here).trans (answers_effect
        (hearCopyEnd_passed_over (s := heard s) (fun x found ⟨receiving, open', sender⟩ => ?_) total))
      rcases others x found with notReceiving | complete | foreign
      · exact notReceiving receiving
      · rw [open'] at complete
        cases complete
      · exact foreign sender
  case muted =>
    refine ⟨_, (acts received here).trans (answers_effect
      (hearCopyEnd_muted (s := heard s) held ⟨receiving, open', sender⟩ muted total)), ?_, ?_, ?_⟩
    · exact freeTake_takes (heard s) k
    · exact freeTake_mem (heard s) k
    · obtain ⟨-, _, _, _, line, queue, -⟩ := freeTake_eased (heard s) k
      exact line ▸ fun e he => queue.subset he
  case waits =>
    refine (acts received here).trans (answers_effect
      ((hearCopyEnd_taken (s := heard s) held ⟨receiving, open', sender⟩ unmuted ⟨sound, len, got⟩).trans ?_))
    exact if_pos (decide_eq_true full)
  case refusedLater =>
    exact ⟨_, (acts received here).trans (answers_effect
      (hearCopyEnd_refused (s := heard s) held ⟨receiving, open', sender⟩ (notWhole h))),
      refuseCopy_takes (s := heard s) held 1, refuseCopy_frame (s := heard s) held unmuted 1⟩
  case stallMuted =>
    refine ⟨_, answers_effect ((stallExpires_due held receiving runs).trans (refuseCopy_muted held muted 2)),
      freeTake_takes s k, freeTake_mem s k, ?_⟩
    obtain ⟨-, _, _, _, line, queue, -⟩ := freeTake_eased s k
    exact line ▸ fun e he => queue.subset he
  case stallNone => exact answers_effect (stallExpires_not_due off)

end Sys2Proof.Machine
end

section
/-! PROOFS. Strand turns and the aging timer (R25, R27, R188, R195). -/

namespace Sys2Proof.Machine

/-! ### Asks made again (R25, R27) -/

section Reasks

/-- The slot of one of these fonts, where it is held empty, becomes ASKING (R27). -/
def Slot.askedFor (fonts : List Nat) (sl : Slot) : Slot :=
  if sl.state = .empty ∧ ∃ f ∈ fonts, sl.font = some f then { sl with state := .asking } else sl

theorem askedFor_other {fonts : List Nat} {sl : Slot} (other : ¬ (sl.state = .empty ∧ ∃ f ∈ fonts, sl.font = some f)) :
    sl.askedFor fonts = sl := if_neg other

theorem askedFor_font (fonts : List Nat) (sl : Slot) : (sl.askedFor fonts).font = sl.font := by
  unfold Slot.askedFor
  split <;> rfl

theorem askedFor_askedFor (f : Nat) (fs : List Nat) (sl : Slot) :
    (sl.askedFor [f]).askedFor fs = sl.askedFor (f :: fs) := by
  by_cases empty : sl.state = .empty
  · by_cases first : sl.font = some f
    · simp [Slot.askedFor, empty, first]
    · simp [Slot.askedFor, empty, first]
  · simp [Slot.askedFor, empty]

/-- No two slots are for one font (R20). -/
def WidthCache.apart (w : WidthCache) : Prop := (w.slots.filterMap (fun sl => sl.font)).Nodup

theorem apart_askedFor {w : WidthCache} (apart : w.apart) (fonts : List Nat) :
    ({ w with slots := w.slots.map (·.askedFor fonts) } : WidthCache).apart := by
  simpa [WidthCache.apart, List.filterMap_map, Function.comp_def, askedFor_font] using apart

/-- The slot of a font stands between slots of other fonts (R20). -/
theorem slotOf_split {w : WidthCache} (apart : w.apart) {f i : Nat} (at_ : w.slotOf f = some i) :
    ∃ a sl b, w.slots = a ++ sl :: b ∧ a.length = i ∧ sl.font = some f ∧ ∀ u, u ∈ a ∨ u ∈ b → u.font ≠ some f := by
  obtain ⟨sl, hi, font⟩ := slotOf_some at_
  obtain ⟨inside, here⟩ := List.getElem?_eq_some_iff.1 hi
  have split : w.slots = w.slots.take i ++ sl :: w.slots.drop (i + 1) := by
    rw [← here, List.getElem_cons_drop, List.take_append_drop]
  generalize w.slots.drop (i + 1) = b at split
  have place : (w.slots.take i).length = i := List.length_take_of_le (Nat.le_of_lt inside)
  generalize w.slots.take i = a at split place
  refine ⟨a, sl, b, split, place, font, fun u hu other => ?_⟩
  have once : (a.filterMap (fun u => u.font) ++ f :: b.filterMap (fun u => u.font)).Nodup := by
    simpa [WidthCache.apart, split, font] using apart
  rw [List.nodup_middle, List.nodup_cons, List.mem_append, List.mem_filterMap, List.mem_filterMap] at once
  exact once.1 (hu.imp (fun h => ⟨u, h, other⟩) fun h => ⟨u, h, other⟩)

theorem map_askedFor_others {f : Nat} {l : List Slot} (others : ∀ u ∈ l, u.font ≠ some f) : l.map (·.askedFor [f]) = l :=
  (List.map_congr_left fun u hu => askedFor_other fun ⟨_, _, hg, font⟩ =>
    others u hu (List.mem_singleton.1 hg ▸ font)).trans (List.map_id _)

/-- The ask of a held empty slot (R27). -/
theorem reAskFont_empty {s : State} (apart : s.width.apart) {f : Nat} (empty : s.width.isHeldEmpty f = true) :
    reAskFont s f = ask { s with width := { s.width with slots := s.width.slots.map (·.askedFor [f]) } } f := by
  cases at_ : s.width.slotOf f with
  | none =>
    obtain ⟨sl, hsl, held⟩ := List.any_eq_true.1 empty
    obtain ⟨i, hi⟩ := List.mem_iff_getElem?.1 hsl
    exact absurd (beq_iff_eq.1 (Bool.and_eq_true_iff.1 held).1) (slotOf_none at_ i sl hi)
  | some i =>
    obtain ⟨a, sl, b, split, place, font, others⟩ := slotOf_split apart at_
    have state : sl.state = .empty := by
      obtain ⟨u, hu, held⟩ := List.any_eq_true.1 empty
      obtain ⟨hf, hs⟩ := Bool.and_eq_true_iff.1 held
      rw [split, List.mem_append, List.mem_cons] at hu
      rcases hu with hu | rfl | hu
      · exact absurd (beq_iff_eq.1 hf) (others u (.inl hu))
      · exact beq_iff_eq.1 hs
      · exact absurd (beq_iff_eq.1 hf) (others u (.inr hu))
    have asked : sl.askedFor [f] = { sl with state := .asking } := if_pos ⟨state, f, List.mem_singleton_self f, font⟩
    have at_i : s.width.slots[i]? = some sl := by rw [split, ← place]; simp
    have set : s.width.slots.set i { sl with state := .asking } = s.width.slots.map (·.askedFor [f]) := by
      rw [split, ← place, List.map_append, List.map_cons, map_askedFor_others fun u hu => others u (.inl hu),
        map_askedFor_others fun u hu => others u (.inr hu), asked]
      simp
    simp only [reAskFont, at_, at_i, state, if_true, WidthCache.setSlot, set]

/-- A font without a held empty slot is passed over (R27). -/
theorem reAskFont_other {s : State} {f : Nat} (other : s.width.isHeldEmpty f = false) : reAskFont s f = s := by
  unfold reAskFont
  cases at_ : s.width.slotOf f with
  | none => rfl
  | some i =>
    obtain ⟨sl, hi, font⟩ := slotOf_some at_
    have state : sl.state ≠ .empty := fun empty => by
      have held := List.any_eq_false.1 other sl (List.mem_of_getElem? hi)
      exact held (by simp [font, empty])
    simp only [hi, if_neg state]

theorem ask_frame (s : State) (f : Nat) : { ask s f with line := s.line } = s := by
  unfold ask
  split
  · rfl
  · exact putFrame_frame s _

theorem ask_mute (s : State) (f : Nat) : (ask s f).line.mute = s.line.mute := by
  unfold ask
  split
  · rfl
  · rcases putFrame_cases s (.widthAsk f) with ⟨_, e⟩ | ⟨_, e⟩ <;> rw [e]

theorem reAskFont_slots {s : State} (apart : s.width.apart) (f : Nat) :
    (reAskFont s f).width = { s.width with slots := s.width.slots.map (·.askedFor [f]) } := by
  cases empty : s.width.isHeldEmpty f with
  | true => rw [reAskFont_empty apart empty, ask_width]
  | false =>
    have same : s.width.slots.map (·.askedFor [f]) = s.width.slots :=
      (List.map_congr_left fun u hu => askedFor_other fun ⟨state, _, hg, font⟩ =>
        List.any_eq_false.1 empty u hu (by simp [state, font, List.mem_singleton.1 hg])).trans (List.map_id _)
    rw [reAskFont_other empty, same]

/-- Only the slots and the Line Interface change as an ask is made again. -/
theorem reAskFont_frame (s : State) (f : Nat) : { reAskFont s f with line := s.line, width := s.width } = s := by
  unfold reAskFont
  split
  · split
    · split
      · exact congrArg (fun u : State => { u with width := s.width }) (ask_frame _ f)
      · rfl
    · rfl
  · rfl

/-- The ask for a font is on its way (R25): its WIDTH-ASK is queued, or waits for room (R171), or, muted, its limits run. -/
def State.asksFor (s : State) (f : Nat) : Prop :=
  (s.line.mute = false → { frame := .widthAsk f, begun := false } ∈ s.line.queue ∨
    (8 < s.line.queue.length + s.line.waiting.length ∧ .widthAsk f ∈ s.line.waiting)) ∧
  (s.line.mute = true → { subject := .font f, slots := 520 } ∈ s.line.watches)

theorem mem_insertFrame_of_mem {e : TxEntry} (f : TxFrame) {q : List TxEntry} (he : e ∈ q) : e ∈ insertFrame f q := by
  induction q with
  | nil => cases he
  | cons d q ih =>
    unfold insertFrame
    rcases List.mem_cons.1 he with rfl | he
    · split <;> simp
    · split <;> simp [ih, he]

theorem ask_asksFor (s : State) (f : Nat) : (ask s f).asksFor f := by
  cases muted : s.line.mute with
  | true =>
    have started : ask s f = startWatch s (.font f) := if_pos muted
    rw [started]
    exact ⟨fun unmuted => absurd (muted.symm.trans unmuted) nofun, fun _ => List.mem_append_right _ (List.mem_singleton_self _)⟩
  | false =>
    have handed : ask s f = putFrame s (.widthAsk f) := if_neg (by rw [muted]; exact nofun)
    rw [handed]
    rcases putFrame_cases s (.widthAsk f) with ⟨full, e⟩ | ⟨-, e⟩
    · rw [e]
      refine ⟨fun _ => .inr ⟨?_, List.mem_append_right _ (List.mem_singleton_self _)⟩, fun m => absurd (muted.symm.trans m) nofun⟩
      have eight : 8 ≤ s.line.queue.length + s.line.waiting.length := of_decide_eq_true full
      simp only [List.length_append, List.length_singleton]
      omega
    · rw [e]
      exact ⟨fun _ => .inl (mem_insertFrame _ _), fun m => absurd (muted.symm.trans m) nofun⟩

/-- An ask on its way stays so while another is made. -/
theorem asksFor_ask {s : State} {f : Nat} (asks : s.asksFor f) (g : Nat) : (ask s g).asksFor f := by
  obtain ⟨frame, watch⟩ := asks
  by_cases same : g = f
  · exact same ▸ ask_asksFor s g
  refine ⟨fun unmuted => ?_, fun muted => ?_⟩
  · rw [ask_mute] at unmuted
    have handed : ask s g = putFrame s (.widthAsk g) := if_neg (by rw [unmuted]; exact nofun)
    rw [handed]
    rcases putFrame_cases s (.widthAsk g) with ⟨full, e⟩ | ⟨-, e⟩
    · rw [e]
      refine (frame unmuted).imp id fun ⟨eight, waits⟩ => ⟨?_, List.mem_append_left _ waits⟩
      simp only [List.length_append]
      omega
    · rw [e]
      refine (frame unmuted).imp (mem_insertFrame_of_mem _) fun ⟨eight, waits⟩ => ⟨?_, waits⟩
      rw [insertFrame_length]
      exact Nat.lt_of_lt_of_le eight (Nat.add_le_add_right (Nat.le_succ _) _)
  · rw [ask_mute] at muted
    have started : ask s g = startWatch s (.font g) := if_pos muted
    rw [started]
    refine List.mem_append_left _ (List.mem_filter.2 ⟨watch muted, ?_⟩)
    simp [Ne.symm same]

theorem asksFor_reAskFont {s : State} (apart : s.width.apart) {f : Nat} (asks : s.asksFor f) (g : Nat) :
    (reAskFont s g).asksFor f := by
  cases empty : s.width.isHeldEmpty g with
  | true =>
    rw [reAskFont_empty apart empty]
    refine asksFor_ask ?_ g
    exact asks
  | false => rw [reAskFont_other empty]; exact asks

/-- What the asks of a list of fonts, made one after the other, come to (R27). -/
structure Reasked (fonts : List Nat) (s t : State) : Prop where
  width : t.width = { s.width with slots := s.width.slots.map (·.askedFor fonts) }
  frame : { t with line := s.line, width := s.width } = s
  mute : t.line.mute = s.line.mute
  asks : ∀ f ∈ fonts, s.width.isHeldEmpty f = true → t.asksFor f
  kept : ∀ f, s.asksFor f → t.asksFor f

theorem Reasked.takes {fonts : List Nat} {s t : State} (h : Reasked fonts s t) : t.takes = s.takes :=
  (congrArg State.takes h.frame :)
theorem Reasked.stop {fonts : List Nat} {s t : State} (h : Reasked fonts s t) : t.stop = s.stop :=
  (congrArg State.stop h.frame :)

theorem isHeldEmpty_askedFor {w : WidthCache} {f g : Nat} (empty : w.isHeldEmpty g = true) (other : g ≠ f) :
    ({ w with slots := w.slots.map (·.askedFor [f]) } : WidthCache).isHeldEmpty g = true := by
  obtain ⟨sl, hsl, held⟩ := List.any_eq_true.1 empty
  have same : sl.askedFor [f] = sl := askedFor_other fun ⟨_, _, hx, font⟩ => by
    simp [font, List.mem_singleton.1 hx, Ne.symm other] at held
  exact List.any_eq_true.2 ⟨sl, List.mem_map.2 ⟨sl, hsl, same⟩, held⟩

theorem reAskFont_reasked {s : State} (apart : s.width.apart) (f : Nat) : Reasked [f] s (reAskFont s f) where
  width := reAskFont_slots apart f
  frame := reAskFont_frame s f
  mute := by
    cases empty : s.width.isHeldEmpty f with
    | true => rw [reAskFont_empty apart empty, ask_mute]
    | false => rw [reAskFont_other empty]
  asks g hg empty := by
    rw [List.mem_singleton.1 hg] at empty ⊢
    rw [reAskFont_empty apart empty]
    exact ask_asksFor _ f
  kept _ asks := asksFor_reAskFont apart asks f

theorem foldl_reAskFont_reasked (fonts : List Nat) :
    ∀ {s : State}, s.width.apart → Reasked fonts s (fonts.foldl reAskFont s) := by
  induction fonts with
  | nil =>
    refine fun {s} _ => { width := ?_, frame := rfl, mute := rfl, asks := nofun, kept := fun _ => id }
    have same : s.width.slots.map (·.askedFor []) = s.width.slots :=
      (List.map_congr_left fun u _ => askedFor_other (by simp)).trans (List.map_id _)
    simp [same]
  | cons f fs ih =>
    intro s apart
    have first := reAskFont_reasked apart f
    have rest := ih (s := reAskFont s f) (by rw [first.width]; exact apart_askedFor apart [f])
    refine { width := ?_, frame := ?_, mute := rest.mute.trans first.mute, asks := fun g hg empty => ?_
             kept := fun g asks => rest.kept g (first.kept g asks) }
    · show (fs.foldl reAskFont (reAskFont s f)).width = _
      rw [rest.width, first.width]
      simp [Function.comp_def, askedFor_askedFor]
    · have inner := congrArg (fun u : State => { u with line := s.line, width := s.width }) rest.frame
      exact inner.trans first.frame
    · by_cases here : g = f
      · exact rest.kept g (first.asks g (by simp [here]) empty)
      · refine rest.asks g ((List.mem_cons.1 hg).resolve_left here) ?_
        rw [first.width]
        exact isHeldEmpty_askedFor empty here

end Reasks

/-! ### A strand turn, and the answers it waits for (R195) -/

section StrandTurn
variable {s : State} {k : Key} {x : Take}

/-- A second change of the records with this key, where only they have been changed before. -/
theorem modTake_takes_of {u : State} {f : Take → Take} (changed : u.takes = (s.modTake k f).takes)
    (keeps : ∀ y, (f y).key = y.key) (g : Take → Take) :
    (u.modTake k g).takes = s.takes.map (fun y => if y.key == k then g (f y) else y) :=
  (congrArg (List.map _) changed).trans (congrArg State.takes (modTake_modTake s k f g keeps))

/-- A STRANDED take that waits to be offered again (R195, step 4). -/
def Take.offeredAgain (z : Take) : Take := { z with offerDue := true, reask := none }

theorem decideStranded_gone (gone : strandReasonGone s x) : decideStranded s x = s.modTake x.key (returned s) :=
  if_pos ((reasonGone_iff s x).2 gone)

theorem decideStranded_stands (stands : ¬ strandReasonGone s x) : decideStranded s x = s.modTake x.key Take.offeredAgain :=
  if_neg (mt (reasonGone_iff s x).1 stands)

/-- A running strand turn of a take whose widths are there is decided at once (R195). -/
theorem strandTurn_decides (held : s.take? k = some x) (stranded : x.state = .stranded) (runs : x.timer = some .strandTurn)
    (full : x.scarce = false) : strandTurn s k = decideStranded (s.modTake k (fun z => { z with timer := none })) x := by
  simp only [strandTurn, held, stranded, runs, full, and_self, if_true, Bool.false_eq_true, if_false]

/-- A take whose widths are scarce has them asked for again first (R27, R195). -/
theorem strandTurn_asks (held : s.take? k = some x) (stranded : x.state = .stranded) (runs : x.timer = some .strandTurn)
    (scarce : x.scarce = true) :
    let u := (distinct x.fonts).foldl reAskFont (s.modTake k (fun z => { z with timer := none }))
    strandTurn s k = u.modTake k
      (fun z => { z with reask := some ((distinct x.fonts).filter (fun f => u.width.isAsking f)) }) := by
  simp only [strandTurn, held, stranded, runs, scarce, and_self, if_true]

theorem strandTurn_not_due (held : s.take? k = some x) (other : x.state ≠ .stranded ∨ x.timer ≠ some .strandTurn) :
    strandTurn s k = s := by
  simp only [strandTurn, held]
  exact if_neg fun ⟨stranded, runs⟩ => other.elim (· stranded) (· runs)

/-- The first STRANDED take whose asks have all ended is decided (R27, R195). -/
theorem reaskReport_decides {a b : List Take} (split : s.takes = a ++ x :: b) (stranded : x.state = .stranded)
    (ended : x.reask = some []) (before : ∀ y ∈ a, y.state = .stranded → y.reask ≠ some []) :
    reaskReport s = some (decideStranded (s.modTake x.key (fun z => { z with reask := none })) x) := by
  have first : s.takes.find? (fun t => t.state == .stranded && t.reask == some []) = some x := by
    refine List.find?_eq_some_iff_append.2 ⟨by simp [stranded, ended], a, b, split, fun y hy => ?_⟩
    cases state : y.state == TakeState.stranded
    · rfl
    · simpa using before y hy (beq_iff_eq.1 state)
  simp only [reaskReport, first, Option.map_some]

end StrandTurn

/-- Settles O35: a strand turn by what its take waits for, its asks by `foldl_reAskFont_reasked`, and the aging timer by what it
changes in its take. -/
theorem strandTurnsAndAgingAct : Obligations.StrandTurnsAndAgingAct := by
  refine ⟨⟨fun k s unheld => answers_effect ?none, fun k s x held => ⟨?decided, ?asked, fun other => ?notDue⟩,
    by simp [reactions], fun s a b x split stranded ended before => ?report⟩, fun k s => answers_effect ?aging⟩
  case none => simp only [strandTurn, unheld]
  case decided =>
    refine fun stranded runs full => ⟨fun gone => answers_effect ?_, fun stands => answers_effect ?_⟩
    · refine (strandTurn_decides held stranded runs full).trans ((decideStranded_gone ?_).trans ?_)
      · exact gone
      · rw [(take_some held).2]
        exact modTake_modTake s k _ _ fun _ => rfl
    · refine (strandTurn_decides held stranded runs full).trans ((decideStranded_stands ?_).trans ?_)
      · exact stands
      · rw [(take_some held).2]
        exact modTake_modTake s k _ _ fun _ => rfl
  case asked =>
    intro stranded runs scarce apart
    have asks := foldl_reAskFont_reasked (distinct x.fonts) (s := s.modTake k (fun z => { z with timer := none })) apart
    refine ⟨_, answers_effect (strandTurn_asks held stranded runs scarce), ?_, ?_, ?_, fun f hf empty => ?_⟩
    · refine asks.width.trans ?_
      simp only [Slot.askedFor, mem_distinct]
      rfl
    · exact modTake_takes_of asks.takes (fun _ => rfl) _
    · exact asks.stop
    · have asked := asks.asks f (mem_distinct.2 hf) empty
      have mute := asks.mute
      exact ⟨fun unmuted => asked.1 (mute.trans unmuted), fun muted => asked.2 (mute.trans muted)⟩
  case notDue => exact answers_effect (strandTurn_not_due held other)
  case report =>
    rw [reaskReport_decides split stranded ended before]
    refine ⟨fun gone => congrArg some ?_, fun stands => congrArg some ?_⟩
    · refine (decideStranded_gone ?_).trans (modTake_modTake s x.key _ _ fun _ => rfl)
      exact gone
    · refine (decideStranded_stands ?_).trans (modTake_modTake s x.key _ _ fun _ => rfl)
      exact stands
  case aging =>
    unfold agingExpires State.modTake
    congr 1
    refine List.map_congr_left fun x _ => ?_
    by_cases own : x.key = k
    · simp only [own, beq_self_eq_true, if_true, true_and]
    · rw [if_neg (by simpa using own), if_neg fun due => own due.1]

end Sys2Proof.Machine
end

section
/-! PROOFS. APPROVEs heard, and the end of a PROOF pass (R95 to R97, R190). -/

namespace Sys2Proof.Machine

section Approvals
variable {s : State} {k : Key} {x : Take}

/-! ### The outcome of an approval check (R97) -/

/-- A take as an approval check leaves it in QUEUED: approved, or with its reproof flag set (R97). -/
def Take.checked (passes : Bool) (y : Take) : Take :=
  { y.queued with approved := y.approved || passes, reproof := y.reproof || !passes }

theorem checked_passes (y : Take) : y.checked true = { y.queued with approved := true } := by
  simp [Take.checked, Take.queued]

theorem checked_fails (y : Take) : y.checked false = { y.queued with reproof := true } := by
  simp [Take.checked, Take.queued]

/-- What the check changes before the take goes to QUEUED: the approval, or the reproof flag and its notice (R97). -/
def checkedState (s : State) (k : Key) (passes : Bool) : State :=
  if passes then s.modTake k (fun t => { t with approved := true })
  else produce (s.modTake k (fun t => { t with reproof := true })) (some k) .reproof

theorem settleApproval_eq (s : State) (k : Key) (passes : Bool) :
    settleApproval s k passes = toQueued (checkedState s k passes) k := by
  cases passes <;> rfl

theorem checkedState_frame (s : State) (k : Key) (passes : Bool) :
    { checkedState s k passes with line := s.line, takes := s.takes } = s := by
  cases passes with
  | true => rfl
  | false => exact congrArg (fun u : State => { u with takes := s.takes }) (produce_frame (s.modTake k _) _ _)

theorem checkedState_stop (s : State) (k : Key) (passes : Bool) : (checkedState s k passes).stop = s.stop :=
  (congrArg State.stop (checkedState_frame s k passes) :)

theorem checkedState_lamp (s : State) (k : Key) (passes : Bool) : (checkedState s k passes).lamp = s.lamp :=
  (congrArg State.lamp (checkedState_frame s k passes) :)

theorem checkedState_queued_takes (s : State) (k : Key) (passes : Bool) :
    ((checkedState s k passes).modTake k Take.queued).takes =
      s.takes.map (fun y => if y.key == k then y.checked passes else y) := by
  cases passes with
  | true =>
    simp only [checked_passes]
    exact modTake_takes_of (s := s) (u := checkedState s k true) rfl (fun _ => rfl) _
  | false =>
    simp only [checked_fails]
    exact modTake_takes_of (produce_takes (s.modTake k (fun t => { t with reproof := true })) _ _) (fun _ => rfl) _

theorem settleApproval_awake (awake : s.stop.station ≠ .standby) (passes : Bool) :
    settleApproval s k passes = (checkedState s k passes).modTake k Take.queued := by
  rw [settleApproval_eq]
  exact toQueued_awake (by rwa [checkedState_stop]) k

theorem settleApproval_takes (awake : s.stop.station ≠ .standby) (passes : Bool) :
    (settleApproval s k passes).takes = s.takes.map (fun y => if y.key == k then y.checked passes else y) := by
  rw [settleApproval_awake awake, checkedState_queued_takes]

/-- With the check passed nothing but the take changes (R97). -/
theorem settleApproval_passes (awake : s.stop.station ≠ .standby) : settleApproval s k true =
    { s with takes := s.takes.map (fun y => if y.key == k then y.checked true else y) } := by
  rw [settleApproval_awake awake, ← checkedState_queued_takes]
  rfl

theorem checkedState_noticed (room : hasRoom s) : noticed (checkedState s k false) (some k) .reproof :=
  produce_noticed (s := s.modTake k _) room _ _

theorem settleApproval_noticed (awake : s.stop.station ≠ .standby) (room : hasRoom s) :
    noticed (settleApproval s k false) (some k) .reproof := by
  rw [settleApproval_awake awake]
  exact checkedState_noticed room

/-- A station in STANDBY wakes as the take goes to QUEUED (R204). -/
theorem settleApproval_asleep (asleep : s.stop.station = .standby) (passes : Bool) :
    settleApproval s k passes = { enterRun ((checkedState s k passes).modTake k Take.queued) with lamp := s.lamp.asked } := by
  have same : ((checkedState s k passes).modTake k Take.queued).stop = s.stop := checkedState_stop s k passes
  rw [settleApproval_eq, ← checkedState_lamp s k passes]
  exact wake_standby (same ▸ asleep)

/-- Entering RUN leaves the take checked in QUEUED (R195). -/
theorem enterRun_checked {passes : Bool} {y : Take}
    (member : y ∈ (enterRun ((checkedState s k passes).modTake k Take.queued)).takes) (own : y.key = k) :
    ∃ z ∈ s.takes, z.key = k ∧ y = z.checked passes := by
  rw [enterRun_takes, checkedState_queued_takes, List.map_map] at member
  obtain ⟨z, hz, rfl⟩ := List.mem_map.1 member
  have same : z.key = k := by
    by_cases here : z.key = k
    · exact here
    · simp [here, examined_key] at own
  refine ⟨z, hz, same, ?_⟩
  simp only [Function.comp_apply, same, beq_self_eq_true, if_true]
  exact examined_stays (.inl (show TakeState.queued ≠ .stranded from nofun))

/-! ### An APPROVE heard (R190) -/

theorem approvalPasses_iff (s : State) (x : Take) : approvalPasses s x = true ↔ x.proofGen = some (genValues s x) := by
  unfold approvalPasses
  cases x.proofGen <;> simp

theorem exec_approve {h : Header} (received : Received h (.approve h k) s) :
    exec (.approve h k) s = done (hearApprove (heard s) k) :=
  exec_handed rfl received rfl

/-- A take in PROOF-HOLD has its proof checked (R97, R190). -/
theorem hearApprove_checks (held : s.take? k = some x) (proofs : x.proofFirst = true) (holds : x.state = .proofHold) :
    hearApprove s k = settleApproval s k (approvalPasses s x) := by
  simp only [hearApprove, held, proofs, holds, Bool.true_eq_false, if_false]

/-- The APPROVE of this take comes before its proof is done (R190). -/
def State.beforeProof (s : State) (x : Take) : Prop :=
  x.state = .receiving ∨ ((x.state = .queued ∨ x.state = .parked) ∧ x.approved = false) ∨
    (x.state = .active ∧ s.inPass .proof = true ∧ s.killing = false)

/-- It is held pending (R190). -/
theorem hearApprove_pends (held : s.take? k = some x) (proofs : x.proofFirst = true) (before : s.beforeProof x) :
    hearApprove s k = s.modTake k (fun y => { y with approvalPending := true }) := by
  simp only [hearApprove, held, proofs, Bool.true_eq_false, if_false]
  rcases before with receiving | ⟨queued | parked, unapproved⟩ | ⟨active, inProof, alive⟩
  · simp only [receiving]
  · simp only [queued, unapproved, Bool.false_eq_true, if_false]
  · simp only [parked, unapproved, Bool.false_eq_true, if_false]
  · simp only [active, inProof, alive, and_self, if_true]

/-- An APPROVE for a take of no proof, with its proof done, or on its way to another station is passed over (R190). -/
theorem hearApprove_passed_over (held : s.take? k = some x) (other : x.proofFirst = false ∨ x.state = .releasing ∨
    x.state = .stranded ∨ ((x.state = .queued ∨ x.state = .parked) ∧ x.approved = true) ∨
    (x.state = .active ∧ ¬ (s.inPass .proof = true ∧ s.killing = false))) : hearApprove s k = s := by
  simp only [hearApprove, held]
  refine ite_eq_left_iff.2 fun proofs => ?_
  rcases other with none | releasing | stranded | ⟨queued | parked, approved⟩ | ⟨active, notProof⟩
  · exact absurd none proofs
  · simp only [releasing]
  · simp only [stranded]
  · simp only [queued, approved, if_true]
  · simp only [parked, approved, if_true]
  · simp only [active]
    exact if_neg notProof

/-- The ACTIVE take is in a PROOF pass that is not being killed. -/
theorem provesAlive_iff (s : State) : (s.inPass .proof = true ∧ s.killing = false) ↔
    ∃ p, s.pass = some p ∧ p.kind = .proof ∧ p.killing = false := by
  cases hp : s.pass <;> simp [State.inPass, State.killing, hp]

/-! ### The end of a PROOF pass (R95 to R97) -/

/-- The PROOF pass ends: its end is reported, it runs, and the store is empty (R95). -/
def proofEnds (s : State) (p : Pass) : Prop :=
  p.kind = .proof ∧ p.reported = true ∧ p.killing = false ∧ p.park = none ∧ s.store.records = []

theorem proofEnds_iff (s : State) (p : Pass) : proofEnds s p ↔
    p.kind = .proof ∧ p.reported = true ∧ p.runs = true ∧ s.store.records = [] := by
  simp [proofEnds, Pass.runs, and_assoc]

/-- A take with the proof generation record of the pass that ends (R96). -/
def Take.proofed (y : Take) (g : GenRecord) : Take := { y with proofGen := some g, startValues := none }

/-- The same with the approval that waited for it taken up (R97). -/
def Take.proofedPending (y : Take) (g : GenRecord) : Take := { y.proofed g with approvalPending := false }

/-- The state with the PROOF pass over. -/
def proofOver (s : State) : State :=
  { s with pass := none, comp := idleCompositor, proof := { s.proof with paperTimer := false } }

variable {p : Pass}

theorem endProofPass_none (hp : s.pass = some p) (ha : s.active? = some x) (goesOn : ¬ proofEnds s p) :
    endProofPass s = none := by
  simp only [endProofPass, hp, ha]
  exact if_neg (mt (proofEnds_iff s p).2 goesOn)

/-- The take goes to PROOF-HOLD (R95, R96). -/
theorem endProofPass_holds (hp : s.pass = some p) (ha : s.active? = some x) (ends : proofEnds s p)
    (unapproved : x.approvalPending = false) : endProofPass s =
      some ((proofOver s).modTake x.key (fun y => { y.proofed (endRecord s x) with state := .proofHold, timer := none })) := by
  simp only [endProofPass, hp, ha, unapproved, Bool.false_eq_true, if_false]
  refine (if_pos ((proofEnds_iff s p).1 ends)).trans (congrArg some ?_)
  exact modTake_modTake (proofOver s) x.key (·.proofed (endRecord s x)) _ fun _ => rfl

/-- An approval that waits is checked at once (R97). -/
theorem endProofPass_checks (hp : s.pass = some p) (ha : s.active? = some x) (ends : proofEnds s p)
    (approved : x.approvalPending = true) : endProofPass s =
      some (settleApproval ((proofOver s).modTake x.key (·.proofedPending (endRecord s x))) x.key (!(endRecord s x).mixed)) := by
  simp only [endProofPass, hp, ha, approved, if_true]
  refine (if_pos ((proofEnds_iff s p).1 ends)).trans (congrArg (fun u => some (settleApproval u x.key _)) ?_)
  exact modTake_modTake (proofOver s) x.key (·.proofed (endRecord s x)) _ fun _ => rfl

/-- The takes after that check. -/
theorem checked_proofedPending_takes (awake : s.stop.station ≠ .standby) (passes : Bool) :
    (settleApproval ((proofOver s).modTake x.key (·.proofedPending (endRecord s x))) x.key passes).takes =
      s.takes.map (fun y => if y.key == x.key then (y.proofedPending (endRecord s x)).checked passes else y) := by
  have takes := congrArg State.takes
    (modTake_modTake (proofOver s) x.key (·.proofedPending (endRecord s x)) (·.checked passes) fun _ => rfl)
  exact (settleApproval_takes (s := (proofOver s).modTake x.key _) awake passes).trans takes

theorem mixed_iff (s : State) (x : Take) : (endRecord s x).mixed = false ↔ x.startValues = some (genValues s x) := by
  simp [endRecord]

end Approvals

/-- Settles O38: an APPROVE by the state of its take, and the end of a PROOF pass by the approval that waits for it; either checks
by `settleApproval`. -/
theorem approveChecksTheGeneration : Obligations.ApproveChecksTheGeneration := by
  refine ⟨fun h k s x received held => ?_, by simp [reactions], fun s p x hp ha => ?_⟩
  · have answers := exec_approve received
    have here : (heard s).take? k = some x := held
    have gen : approvalPasses (heard s) x = true ↔ x.proofGen = some (genValues s x) := approvalPasses_iff (heard s) x
    refine ⟨fun proofs holds stands awake => ?stands, fun proofs holds stale awake => ?stale,
      fun proofs holds asleep => ?asleep, fun proofs early => ?early, fun p proofs active hp proof alive => ?active,
      fun others => ?others⟩
    case stands =>
      rw [answers, hearApprove_checks here proofs holds, gen.2 stands]
      exact answers_effect (settleApproval_passes awake)
    case stale =>
      rw [hearApprove_checks here proofs holds, Bool.eq_false_iff.2 (mt gen.1 stale)] at answers
      exact ⟨_, answers, settleApproval_takes (s := heard s) awake false,
        settleApproval_noticed (s := heard s) awake⟩
    case asleep =>
      rw [hearApprove_checks here proofs holds, settleApproval_asleep (s := heard s) asleep] at answers
      refine ⟨_, answers, ?_, fun off => ?_, fun y hy own => ?_, fun stale room => ?_⟩
      · exact congrArg (fun u : StopControl => { u with station := .run }) (checkedState_stop (heard s) k _)
      · simp [Lamp.asked, heard, off]
      · obtain ⟨z, -, -, rfl⟩ := enterRun_checked hy own
        refine ⟨rfl, fun stands => ?_, fun stale => ?_⟩
        · simp [gen.2 stands, checked_passes]
        · simp [Bool.eq_false_iff.2 (mt gen.1 stale), checked_fails]
      · rw [Bool.eq_false_iff.2 (mt gen.1 stale)]
        exact checkedState_noticed (s := heard s) room
    case early =>
      rw [answers]
      exact answers_effect (hearApprove_pends here proofs (early.imp_right .inl))
    case active =>
      rw [answers]
      have alivePass := (provesAlive_iff (heard s)).2 ⟨p, hp, proof, alive⟩
      exact answers_effect (hearApprove_pends here proofs (.inr (.inr ⟨active, alivePass⟩)))
    case others =>
      rw [answers]
      refine answers_effect (hearApprove_passed_over here ?_)
      refine others.imp_right (Or.imp_right (Or.imp_right (Or.imp_right fun ⟨active, off⟩ => ⟨active, fun alive => ?_⟩)))
      obtain ⟨p, hp, proof, alive⟩ := (provesAlive_iff (heard s)).1 alive
      rcases off p hp with film | killing
      · exact absurd (proof.symm.trans film) nofun
      · exact absurd (alive.symm.trans killing) nofun
  · refine ⟨fun ends unapproved => endProofPass_holds hp ha ends unapproved, fun ends approved stands awake => ?passes,
      fun ends approved stale awake => ?fails, endProofPass_none hp ha⟩
    case passes =>
      rw [endProofPass_checks hp ha ends approved, (mixed_iff s x).2 stands, Bool.not_false]
      rw [settleApproval_passes (s := (proofOver s).modTake x.key _) awake]
      have takes := congrArg State.takes (modTake_modTake (proofOver s) x.key
        (·.proofedPending (endRecord s x)) (·.checked true) fun _ => rfl)
      refine congrArg (fun l : List Take => some { proofOver s with takes := l }) (takes.trans ?_)
      simp only [checked_passes]
      rfl
    case fails =>
      have mixed : (endRecord s x).mixed = true := by simpa using mt (mixed_iff s x).1 stale
      have checks := endProofPass_checks hp ha ends approved
      rw [mixed, Bool.not_true] at checks
      refine ⟨_, checks, ?_, ?_, fun room => settleApproval_noticed (s := (proofOver s).modTake x.key _) awake room⟩
      · rw [settleApproval_awake (s := (proofOver s).modTake x.key _) awake]
        exact congrArg State.pass (checkedState_frame _ x.key false)
      · rw [checked_proofedPending_takes awake]
        simp only [checked_fails]
        rfl

end Sys2Proof.Machine
end

section
/-! PROOFS. KILLs heard, and the end of a take being killed (R85, R86, R98, R148, R174, R191, R192). -/

namespace Sys2Proof.Machine

section Kills
variable {s : State} {k : Key} {x : Take} {p : Pass} {r : StopRecord}

/-! ### What freeing a record, and clearing a stop, leave alone -/

theorem unpinFont_frame (s : State) (font : Nat) : { unpinFont s font with line := s.line, width := s.width } = s := by
  unfold unpinFont
  dsimp only
  split
  · split
    · split
      · split <;> rfl
      · rfl
    · rfl
  · rfl

theorem unpinFonts_frame (s : State) (fonts : List Nat) : { unpinFonts s fonts with line := s.line, width := s.width } = s := by
  unfold unpinFonts
  generalize distinct fonts = l
  induction l generalizing s with
  | nil => rfl
  | cons f l ih =>
    have rest := congrArg (fun u : State => { u with line := s.line, width := s.width }) (ih (unpinFont s f))
    exact rest.trans (unpinFont_frame s f)

/-- A record freed changes the Line Interface, the Width Cache and the takes alone (R21, R179). -/
theorem freeTake_frame (s : State) (k : Key) : { freeTake s k with line := s.line, width := s.width, takes := s.takes } = s := by
  unfold freeTake
  split
  · exact congrArg (fun u : State => { u with takes := s.takes }) (unpinFonts_frame { s with takes := _ } _)
  · rfl

theorem freeTake_pass (s : State) (k : Key) : (freeTake s k).pass = s.pass := (congrArg State.pass (freeTake_frame s k) :)
theorem freeTake_film (s : State) (k : Key) : (freeTake s k).film = s.film := (congrArg State.film (freeTake_frame s k) :)
theorem freeTake_stop (s : State) (k : Key) : (freeTake s k).stop = s.stop := (congrArg State.stop (freeTake_frame s k) :)

theorem dropStop_none (hr : s.stop.record = none) (k : Key) : dropStop s k = s := by simp only [dropStop, hr]

theorem dropStop_named (hr : s.stop.record = some r) (stopped : s.stop.station = .stopped) (named : r.key = some k) :
    dropStop s k = leaveStopped s r := by
  simp only [dropStop, hr, stopped, named, and_self, if_true]

theorem dropStop_other (others : ∀ r, s.stop.record = some r → r.key ≠ some k) : dropStop s k = s := by
  unfold dropStop
  split
  · next r hr => exact if_neg fun ⟨_, named⟩ => others r hr named
  · rfl

/-- A Compositor that is not PAUSED stays as it is as the station leaves STOPPED (R36). -/
theorem leaveStopped_comp (moves : s.comp.phase ≠ .paused) (r : StopRecord) : (leaveStopped s r).comp = s.comp := by
  unfold leaveStopped
  split
  · rfl
  · show ({ s.comp with phase := if s.comp.phase = .paused then .setting else s.comp.phase } : Compositor) = s.comp
    rw [if_neg moves]

/-! ### A KILL of a take that is not ACTIVE (R191) -/

/-- What is still queued of the take is withdrawn (R191, Log 16). -/
def killWithdrawn (s : State) (x : Take) : State :=
  match x.state with
  | .receiving => withdraw s (TxFrame.isTakenOf x.key)
  | .releasing => stopRelease s x.key
  | _ => s

theorem killHeld_eq (s : State) (x : Take) : killHeld s x = freeTake
    (produce (killWithdrawn s x) (some x.key) (.takeKilled x.state (counterBlock (killWithdrawn s x) x))) x.key := rfl

theorem withdraw_hasRoom (room : hasRoom s) (f : TxFrame → Bool) : hasRoom (withdraw s f) :=
  ⟨room.1, Nat.lt_of_le_of_lt (Nat.add_le_add (List.length_filter_le _ _) (List.length_filter_le _ _)) room.2⟩

theorem killWithdrawn_hasRoom (room : hasRoom s) (x : Take) : hasRoom (killWithdrawn s x) := by
  unfold killWithdrawn
  split
  · exact withdraw_hasRoom room _
  · exact stopRelease_hasRoom room _
  · exact room

theorem killWithdrawn_takes (s : State) (x : Take) : (killWithdrawn s x).takes = s.takes := by
  unfold killWithdrawn
  split <;> rfl

theorem killHeld_takes (s : State) (x : Take) : (killHeld s x).takes = s.takes.filter (fun y => y.key ≠ x.key) := by
  rw [killHeld_eq, freeTake_takes, produce_takes, killWithdrawn_takes]

theorem killHeld_noticed (room : hasRoom s) (x : Take) :
    noticed (killHeld s x) (some x.key) (.takeKilled x.state (counterBlock (killWithdrawn s x) x)) :=
  freeTake_noticed (produce_noticed (killWithdrawn_hasRoom room x) _ _) _

/-! ### A KILL heard (R174, R191, R192) -/

theorem exec_kill {h : Header} (received : Received h (.kill h k) s) :
    exec (.kill h k) s = done (hearKill (heard s) k) := exec_handed rfl received rfl

theorem hearKill_frees (held : s.take? k = some x) (notActive : x.state ≠ .active) :
    hearKill s k = killHeld (cancelWindows s (WindowFor.isClaimFor k)) x := by
  have here : (cancelWindows s (WindowFor.isClaimFor k)).take? k = some x := held
  simp only [hearKill, here, if_neg notActive]

theorem hearKill_none (unheld : s.take? k = none) : hearKill s k = cancelWindows s (WindowFor.isClaimFor k) := by
  have here : (cancelWindows s (WindowFor.isClaimFor k)).take? k = none := unheld
  simp only [hearKill, here]

theorem hearKill_active (held : s.take? k = some x) (active : x.state = .active)
    (noWindow : ∀ w ∈ s.line.windows, w.what.isClaimFor k = false) : hearKill s k = killActive s x := by
  have same : cancelWindows s (WindowFor.isClaimFor k) = s :=
    cancelWindows_eq_self fun w hw named => by rw [noWindow w hw] at named; cases named
  simp only [hearKill, same, held, active, if_true]

/-- The ACTIVE take is being killed: nothing of it is set any more, and it is not parked (R94, R192). -/
def killBegun (s : State) (p : Pass) : State :=
  { s with
    pass := some { p with killing := true, park := none }, comp := idleCompositor
    proof := { s.proof with paperTimer := false } }

theorem killActive_begins (hp : s.pass = some p) (alive : p.killing = false) (x : Take) :
    killActive s x = dropStop (killBegun s p) x.key := by
  have living : s.killing = false := by simp [State.killing, hp, alive]
  unfold killActive killBegun State.modPass
  rw [living, hp]
  rfl

theorem killActive_again (hp : s.pass = some p) (killed : p.killing = true) (x : Take) : killActive s x = s :=
  if_pos (killing_iff.2 ⟨p, hp, killed⟩)

/-! ### The line in exposure has ended: the store is emptied (R85, R86, R98, R192) -/

/-- A cut asked for in the pass: with no galley open it is done as it is asked for, else it waits its turn (R130, R134). -/
theorem askCut_ofPass {c : CutRequest} (ofPass : c.asker = .endCut ∨ c.asker = .kill) (s : State) : askCut s c =
    { s with
      pass := s.pass.map (fun p => { p with cutDone := p.cutDone || s.film.galley.isNone })
      film := if s.film.galley = none then s.film else { s.film with waiting := s.film.waiting ++ [.cut c] } } := by
  cases galley : s.film.galley with
  | none => rcases ofPass with asker | asker <;> simp [askCut, galley, cutDone, asker, State.modPass]
  | some g => simp [askCut_waits, galley]

def killCut : CutRequest := { asker := .kill, spoiled := none }

theorem killEmpties_film (hp : s.pass = some p) (killed : p.killing = true) (full : p.emptied = false)
    (noLine : s.exp.cur = none) (film : p.kind = .film) : killEmpties s = some
      (if p.cutAsked = true then (emptyStore s).modPass (fun p => { p with emptied := true })
       else askCut ((emptyStore s).modPass (fun p => { p with emptied := true, cutAsked := true })) killCut) := by
  have pass : (emptyStore s).pass = some p := hp
  simp only [killEmpties, hp, killed, full, noLine, film, Option.isNone_none, and_self, if_true, State.modPass, pass,
    Option.map_some]
  split <;> rfl

theorem killEmpties_proof (hp : s.pass = some p) (killed : p.killing = true) (full : p.emptied = false)
    (noLine : s.exp.cur = none) (proof : p.kind = .proof) : killEmpties s =
      some ((cutProofPass s).modPass (fun p => { p with emptied := true, cutDone := true })) := by
  simp only [killEmpties, hp, killed, full, noLine, proof, Option.isNone_none, and_self, if_true]

theorem killEmpties_none (hp : s.pass = some p) (other : p.killing = false ∨ p.emptied = true ∨ s.exp.cur.isSome = true) :
    killEmpties s = none := by
  simp only [killEmpties, hp]
  refine if_neg fun ⟨killed, full, noLine⟩ => ?_
  rcases other with alive | emptied | exposing
  · exact absurd (killed.symm.trans alive) nofun
  · exact absurd (full.symm.trans emptied) nofun
  · simp [Option.isNone_iff_eq_none.1 noLine] at exposing

/-- What a take killed in a FILM pass has come to as its store is emptied (R86, R192). -/
theorem killEmpties_emptied (hp : s.pass = some p) (killed : p.killing = true) (full : p.emptied = false)
    (noLine : s.exp.cur = none) (film : p.kind = .film) : ∃ t, killEmpties s = some t ∧
      t.store = { records := [], marker := none } ∧
      t.pass = some { p with emptied := true, cutAsked := true
                             cutDone := p.cutDone || (!p.cutAsked && s.film.galley.isNone) } ∧
      t.film = (if p.cutAsked = true ∨ s.film.galley = none then s.film
        else { s.film with waiting := s.film.waiting ++ [.cut killCut] }) ∧
      t.takes = (emptyStore s).takes := by
  refine ⟨_, killEmpties_film hp killed full noLine film, ?_⟩
  have pass : (emptyStore s).pass = some p := hp
  have filmKept : (emptyStore s).film = s.film := rfl
  cases asked : p.cutAsked with
  | true =>
    rw [if_pos rfl]
    refine ⟨rfl, ?_, ?_, rfl⟩
    · simp [State.modPass, pass, ← asked]
    · simp [State.modPass, filmKept]
  | false =>
    rw [if_neg nofun, askCut_ofPass (.inr rfl)]
    refine ⟨rfl, ?_, ?_, rfl⟩
    · simp [State.modPass, pass, filmKept]
    · simp [State.modPass, filmKept]

/-! ### The kill is done (R192) -/

/-- The killed pass is over, its notice produced. -/
def killTold (s : State) (x : Take) : State :=
  { s with
    line := (produce s (some x.key) (.takeKilled .active (counterBlock s x))).line, pass := none
    film := { s.film with nextSeq := none } }

theorem killFinish_due (hp : s.pass = some p) (ha : s.active? = some x) (killed : p.killing = true) (emptied : p.emptied = true)
    (cut : p.cutDone = true) : killFinish s = some (freeTake (dropStop (killTold s x) x.key) x.key) := by
  simp only [killFinish, hp, ha, killed, emptied, cut, and_self, if_true]
  rw [produce_line]
  rfl

theorem killFinish_not_due (hp : s.pass = some p) (other : p.killing = false ∨ p.emptied = false ∨ p.cutDone = false) :
    killFinish s = none := by
  unfold killFinish
  rw [hp]
  cases s.active? with
  | none => rfl
  | some x =>
    refine if_neg fun ⟨killed, emptied, cut⟩ => ?_
    rcases other with h | h | h
    · exact absurd (killed.symm.trans h) nofun
    · exact absurd (emptied.symm.trans h) nofun
    · exact absurd (cut.symm.trans h) nofun

end Kills

/-- Settles O37: a KILL heard by what its key names, and the two steps of a kill by `killEmpties_emptied`, `killEmpties_proof` and
`killFinish_due`. -/
theorem killEndsATake : Obligations.KillEndsATake := by
  refine ⟨fun h k s received => ?_, by simp [reactions], by simp [reactions], fun s p hp => ?_⟩
  · have answers := exec_kill received
    refine ⟨fun x held notActive unmuted free => ?held, fun x p held active hp alive noStop noWindow => ?kills,
      fun x p r held active hp alive stopped hr named noWindow => ?clears,
      fun x p held active hp killed noWindow => ?again, fun unheld => ?none⟩
    case held =>
      have room := cancelWindows_hasRoom (heard s) (WindowFor.isClaimFor k) ⟨unmuted, free⟩
      have key := (take_some held).2
      rw [hearKill_frees (s := heard s) held notActive] at answers
      refine ⟨_, _, answers, ?_, key ▸ killHeld_noticed room x, rfl, rfl⟩
      rw [killHeld_takes, key]
      rfl
    case kills =>
      rw [answers, hearKill_active (s := heard s) held active noWindow, killActive_begins (s := heard s) hp alive]
      exact answers_effect (dropStop_none (s := killBegun (heard s) p) noStop x.key)
    case clears =>
      rw [hearKill_active (s := heard s) held active noWindow, killActive_begins (s := heard s) hp alive,
        dropStop_named (s := killBegun (heard s) p) hr stopped (named.trans (congrArg some (take_some held).2.symm))] at answers
      obtain ⟨comp, takes, left⟩ := leaveStopped_eq (killBegun (heard s) p) r
      have idle := leaveStopped_comp (s := killBegun (heard s) p) nofun r
      refine ⟨_, answers, ?_, ?_, idle, ?_⟩
      all_goals rw [left]
      · rfl
      · rfl
      · exact ⟨rfl, rfl, rfl, rfl, rfl⟩
    case again =>
      rw [answers, hearKill_active (s := heard s) held active noWindow]
      exact answers_effect (killActive_again (s := heard s) hp killed x)
    case none =>
      rw [hearKill_none (s := heard s) unheld] at answers
      exact ⟨_, answers, rfl, fun w left named => cancelWindows_left_begun left named⟩
  · refine ⟨fun killed full noLine => ⟨fun film => ?film, fun proof => ?proof⟩, killEmpties_none hp,
      fun x ha killed emptied cut room others => ?finish, killFinish_not_due hp⟩
    case film =>
      obtain ⟨t, due, store, pass, filmed, takes⟩ := killEmpties_emptied hp killed full noLine film
      rw [emptyStore_film_takes (by simp [State.passKind, hp, film])] at takes
      refine ⟨t, due, store, pass, filmed, fun proofed => ?_, fun r hr lost lowest => ?_⟩
      · rw [takes]
        simp [unproofedState_none proofed]
      · rw [takes]
        simp only [unproofedState_lowest hr lost lowest]
        rfl
    case proof =>
      refine ⟨_, killEmpties_proof hp killed full noLine proof, rfl, ?_, rfl, rfl, cutProofPass_takes s⟩
      have pass : (cutProofPass s).pass = some p := hp
      simp [State.modPass, pass]
    case finish =>
      rw [killFinish_due hp ha killed emptied cut, dropStop_other (s := killTold s x) others]
      refine ⟨_, rfl, ?_, ?_, ?_, ?_, ?_⟩
      · rw [freeTake_takes]; rfl
      · rw [freeTake_pass]; rfl
      · rw [freeTake_film]; rfl
      · rw [freeTake_stop]; rfl
      · exact freeTake_noticed (s := killTold s x) (produce_noticed room _ _) _

end Sys2Proof.Machine
end

section
/-! PROOFS. Releases: their order, their OFFERs and copy, and those that fail (R186, R193 to R195). -/

namespace Sys2Proof.Machine

/-! ### The first take by the selection keys (R186) -/

section FirstByKeys
variable {s : State} {x : Take}

/-- The take counts as having its fonts mounted (R186). -/
def State.countsMounted (s : State) (y : Take) : Prop :=
  (y.proofFirst = true ∧ y.approved = false) ∨ ∀ f ∈ y.fonts, f ∈ s.exp.seats

theorem nextPass_proof_iff (y : Take) : y.nextPass = .proof ↔ y.proofFirst = true ∧ y.approved = false := by
  unfold Take.nextPass
  cases y.proofFirst <;> cases y.approved <;> simp

theorem ready_iff (s : State) (y : Take) : s.ready y = true ↔ s.countsMounted y := by
  simp [State.ready, State.countsMounted, nextPass_proof_iff, State.mounted]

theorem keyOf_mounted {y : Take} (mounted : s.countsMounted y) : s.keyOf y = 2 * y.cls := by
  rw [State.keyOf, if_pos ((ready_iff s y).2 mounted), Nat.add_zero]

theorem keyOf_unmounted {y : Take} (unmounted : ¬ s.countsMounted y) : s.keyOf y = 2 * y.cls + 1 := by
  rw [State.keyOf, if_neg (mt (ready_iff s y).1 unmounted)]

/-- A lower class goes before a higher, whatever fonts are mounted (R186). -/
theorem keyOf_lt_of_cls {y : Take} (lower : x.cls < y.cls) : s.keyOf x < s.keyOf y := by
  have most : s.keyOf x ≤ 2 * x.cls + 1 := Nat.add_le_add_left (by split <;> decide) _
  have least : 2 * y.cls ≤ s.keyOf y := Nat.le_add_right _ _
  omega

theorem keyOf_lt {y : Take} (h : x.cls < y.cls ∨ (x.cls = y.cls ∧ s.countsMounted x ∧ ¬ s.countsMounted y)) :
    s.keyOf x < s.keyOf y := by
  rcases h with lower | ⟨same, mounted, unmounted⟩
  · exact keyOf_lt_of_cls lower
  · rw [keyOf_mounted mounted, keyOf_unmounted unmounted, same]
    exact Nat.lt_succ_self _

theorem keyOf_le {y : Take} (h : x.cls < y.cls ∨ (x.cls = y.cls ∧ (s.countsMounted y → s.countsMounted x))) :
    s.keyOf x ≤ s.keyOf y := by
  rcases h with lower | ⟨same, mounted⟩
  · exact Nat.le_of_lt (keyOf_lt_of_cls lower)
  · by_cases ours : s.countsMounted x
    · rw [keyOf_mounted ours, same]
      exact Nat.le_add_right _ _
    · rw [keyOf_unmounted ours, keyOf_unmounted (mt mounted ours), same]

/-- The first of a list comes before all it meets, and goes before those it ties with behind it (R186). -/
theorem first?_split {a b : List Take} (before : ∀ y ∈ a, s.keyOf x < s.keyOf y) (behind : ∀ y ∈ b, s.keyOf x ≤ s.keyOf y) :
    s.first? (a ++ x :: b) = some x := by
  induction a with
  | nil =>
    show s.first? (x :: b) = some x
    unfold State.first?
    split
    · next u first => exact if_pos (behind u (first_mem first))
    · rfl
  | cons y a ih =>
    obtain ⟨first, rest⟩ := List.forall_mem_cons.1 before
    simp only [List.cons_append, State.first?, ih rest]
    exact if_neg (Nat.not_le.2 first)

theorem first?_of_firstByKeys {p : Take → Prop} {q : Take → Bool} (first : firstByKeys s p x) (meets : ∀ y, q y = true ↔ p y) :
    s.first? (s.takes.filter q) = some x := by
  obtain ⟨a, b, split, own, before, behind⟩ := first
  rw [split, List.filter_append, List.filter_cons_of_pos ((meets x).2 own)]
  refine first?_split (fun y hy => ?_) fun y hy => ?_
  · obtain ⟨member, due⟩ := List.mem_filter.1 hy
    exact keyOf_lt (before y member ((meets y).1 due))
  · obtain ⟨member, due⟩ := List.mem_filter.1 hy
    exact keyOf_le (behind y member ((meets y).1 due))

theorem first?_filter_none {p : Take → Prop} {q : Take → Bool} (nothing : ∀ y ∈ s.takes, ¬ p y) (meets : ∀ y, q y = true ↔ p y) :
    s.first? (s.takes.filter q) = none := by
  have empty : s.takes.filter q = [] := List.filter_eq_nil_iff.2 fun y hy due => nothing y hy ((meets y).1 due)
  rw [empty]
  rfl

end FirstByKeys

/-! ### A release is offered (R194) -/

section Offering
variable {s : State} {k : Key} {x y : Take}

/-- Changing the record with a key, and finding it again. -/
theorem take?_modTake {f : Take → Take} (keeps : ∀ z, (f z).key = z.key) (held : s.take? k = some x) :
    (s.modTake k f).take? k = some (f x) := by
  have same : (fun z : Take => (if z.key == k then f z else z).key == k) = fun z => z.key == k := by
    funext z
    by_cases own : z.key = k <;> simp [own, keeps]
  have found : s.takes.find? (fun z => z.key == k) = some x := held
  rw [State.take?, modTake_takes, List.find?_map]
  simp only [Function.comp_def, same, found, Option.map_some, (take_some held).2, beq_self_eq_true, if_true]

theorem take?_congr {t u : State} (same : t.takes = u.takes) (k : Key) : t.take? k = u.take? k := by
  rw [State.take?, same, State.take?]

theorem take?_alone (held : x ∈ s.takes) (alone : ∀ y ∈ s.takes, y.key = x.key → y = x) : s.take? x.key = some x := by
  cases found : s.take? x.key with
  | none => exact absurd rfl (take_none found x held)
  | some z =>
    obtain ⟨member, key⟩ := take_some found
    rw [alone z member key]

theorem modTake_keys (s : State) (k : Key) {f : Take → Take} (keeps : ∀ z, (f z).key = z.key) :
    (s.modTake k f).takes.map (fun z => z.key) = s.takes.map (fun z => z.key) := by
  rw [modTake_takes, List.map_map]
  refine List.map_congr_left fun z _ => ?_
  by_cases own : z.key = k <;> simp [own, keeps]

theorem sendFrom_eq (x : Take) : x.sendFrom = sentFrom x := by
  unfold Take.sendFrom sentFrom
  cases x.context <;> rfl

theorem offer_eq (x : Take) : x.offer = releaseOffer x := by
  simp only [Take.offer, releaseOffer, Take.sendLen, sendFrom_eq, one]

/-- The record of a take that is offered (R194). -/
def Take.offered (tries : Nat) (again : Bool) (y : Take) : Take :=
  { y with
    state := .releasing, tries := tries, claimant := none, timer := none, parkReason := none, sending := none
    offerDue := false, reoffer := again, reask := none, sentEnd := if y.state = .releasing ∨ again then y.sentEnd else [] }

theorem beginOffer_eq (s : State) (k : Key) (tries : Nat) (again : Bool) :
    beginOffer s k tries again = sendOffer (s.modTake k (Take.offered tries again)) k := rfl

theorem sendOffer_takes (s : State) (k : Key) : (sendOffer s k).takes = s.takes := by
  unfold sendOffer
  split
  · split
    · rfl
    · exact congrArg State.takes (putFrame_frame s _) ▸ rfl
  · rfl

theorem sendOffer_with_room (held : s.take? k = some x) (room : hasRoom s) : sendOffer s k =
    { s with line := { s.line with queue := insertFrame (.offer x.offer) s.line.queue } } := by
  simp only [sendOffer, held]
  refine (if_neg (Bool.eq_false_iff.1 room.1)).trans ?_
  exact putFrame_with_room room.2 _

theorem sendOffer_muted (held : s.take? k = some x) (muted : s.line.mute = true) : sendOffer s k = startWatch s (.take k) := by
  simp only [sendOffer, held, muted, if_true]

/-! ### A release that fails (R194, R195) -/

theorem withdraw_take? (s : State) (f : TxFrame → Bool) (k : Key) : (withdraw s f).take? k = s.take? k := rfl

/-- It is offered again the first time, whatever was still queued of its copy withdrawn. -/
theorem releaseFails_again (held : s.take? k = some x) (first : x.tries ≤ 1) :
    releaseFails s k = beginOffer (withdraw s (TxFrame.isCopyOf k)) k 2 x.reoffer := by
  simp only [releaseFails, held, if_pos first]

theorem releaseFails_strands (held : s.take? k = some x) (second : 2 ≤ x.tries) :
    releaseFails s k = strand (withdraw s (TxFrame.isCopyOf k)) k := by
  simp only [releaseFails, held, if_neg (Nat.not_le.2 second)]

theorem strand_told (held : s.take? k = some x) (told : x.reoffer = false) :
    strand s k = produce (s.modTake k strandedTake) (some k) (.stranded x.scarce) := by
  rw [strand_eq held, told]
  rfl

theorem strand_silent (held : s.take? k = some x) (again : x.reoffer = true) : strand s k = s.modTake k strandedTake := by
  rw [strand_eq held, again]
  rfl

/-- A REFUSED from the claimant, or the end of the TAKEN wait, fails the release of the state its event leaves. -/
theorem release_failing {c : Instr} {h : Header} {reason : Nat} (held : s.take? k = some x) (releasing : x.state = .releasing)
    (event : (c = .refused h k reason ∧ Received h c s ∧ h.addressee = s.number ∧ x.claimant = some h.sender) ∨
      (c = .takenWait k ∧ x.timer = some .takenWait)) :
    ∃ u, exec c s = .next (settle (releaseFails u k)) ∧ (u = s ∨ u = heard s) := by
  rcases event with ⟨rfl, received, here, claims⟩ | ⟨rfl, runs⟩
  · have addressed : s.handsOver (.refused h k reason) = true := decide_eq_true here
    have held' : (heard s).take? k = some x := held
    refine ⟨heard s, (exec_handed rfl received addressed).trans (answers_effect ?_), .inr rfl⟩
    show hearRefused (heard s) h.sender k = _
    simp only [hearRefused, held', releasing, claims, and_self, if_true]
  · refine ⟨s, answers_effect ?_, .inl rfl⟩
    simp only [takenWaitExpires, held, releasing, runs, and_self, if_true]

end Offering

/-! ### The release that begins (R193) -/

section Begin
variable {s : State} {x : Take}

/-- A STRANDED take that waits to be offered again (R195). -/
def reofferDue (x : Take) : Prop := x.state = .stranded ∧ x.offerDue = true

/-- A marked take that its release takes (R193). -/
def releaseDue (x : Take) : Prop := x.release.isSome = true ∧
  (x.state = .queued ∨ x.state = .parked ∨ (x.state = .proofHold ∧ x.release = some .halt))

theorem reofferDue_iff (y : Take) : (y.state == .stranded && y.offerDue) = true ↔ reofferDue y := by
  simp [reofferDue]

theorem releaseDue_iff (y : Take) : (y.release.isSome &&
    (y.state == .queued || y.state == .parked || (y.state == .proofHold && y.release == some .halt))) = true ↔ releaseDue y := by
  simp [releaseDue, or_assoc]

theorem releasing?_none (others : ∀ y ∈ s.takes, y.state ≠ .releasing) : s.releasing? = none := by
  simpa [State.releasing?] using others

theorem beginRelease_none (h : (∃ x ∈ s.takes, x.state = .releasing) ∨ ∀ x ∈ s.takes, ¬ reofferDue x ∧ ¬ releaseDue x) :
    beginRelease s = none := by
  unfold beginRelease
  by_cases busy : s.releasing?.isSome = true
  · exact if_pos busy
  rcases h with ⟨x, hx, releasing⟩ | nothing
  · exact absurd (List.find?_isSome.2 ⟨x, hx, by simp [releasing]⟩) busy
  · have noReoffer := first?_filter_none (fun y hy => (nothing y hy).1) reofferDue_iff
    have noRelease : s.first? s.releasable = none := first?_filter_none (fun y hy => (nothing y hy).2) releaseDue_iff
    rw [if_neg busy, noReoffer, noRelease]
    rfl

theorem beginRelease_reoffers (free : ∀ y ∈ s.takes, y.state ≠ .releasing) (first : firstByKeys s reofferDue x) :
    beginRelease s = some (beginOffer s x.key 2 true) := by
  have found := first?_of_firstByKeys first reofferDue_iff
  simp only [beginRelease, releasing?_none free, found, Option.isSome_none, Bool.false_eq_true, if_false]

theorem beginRelease_releases (free : ∀ y ∈ s.takes, y.state ≠ .releasing) (noReoffer : ∀ y ∈ s.takes, ¬ reofferDue y)
    (first : firstByKeys s releaseDue x) : beginRelease s = some (beginOffer s x.key 1 false) := by
  have passed := first?_filter_none noReoffer reofferDue_iff
  have found : s.first? s.releasable = some x := first?_of_firstByKeys first releaseDue_iff
  simp only [beginRelease, releasing?_none free, passed, found, Option.isSome_none, Bool.false_eq_true, if_false,
    Option.map_some]

theorem firstByKeys_mem {p : Take → Prop} (first : firstByKeys s p x) : x ∈ s.takes ∧ p x := by
  obtain ⟨a, b, split, own, -, -⟩ := first
  exact ⟨by simp [split], own⟩

/-- The take offered is RELEASING, and its OFFER is handed over, or watched at once (R194, R175). -/
theorem beginOffer_offers (member : x ∈ s.takes) (alone : ∀ y ∈ s.takes, y.key = x.key → y = x) (tries : Nat) (again : Bool) :
    let t := beginOffer s x.key tries again
    let y := x.offered tries again
    t.take? x.key = some y ∧ t.takes = s.takes.map (fun z => if z.key == x.key then y else z) ∧
    (hasRoom s → t.line = { s.line with queue := insertFrame (.offer (releaseOffer x)) s.line.queue }) ∧
    (s.line.mute = true → t.line = { s.line with
      watches := s.line.watches.filter (fun w => w.subject ≠ .take x.key) ++ [⟨.take x.key, 520⟩] }) := by
  have found : (s.modTake x.key (Take.offered tries again)).take? x.key = some (x.offered tries again) :=
    take?_modTake (fun _ => rfl) (take?_alone member alone)
  have takes := sendOffer_takes (s.modTake x.key (Take.offered tries again)) x.key
  refine ⟨?_, ?_, fun room => ?_, fun muted => ?_⟩
  · exact (take?_congr takes x.key).trans found
  · exact takes.trans (congrArg State.takes (modTake_alone alone _))
  · rw [beginOffer_eq, sendOffer_with_room found room, ← offer_eq x]
    rfl
  · rw [beginOffer_eq, sendOffer_muted found muted]
    rfl

/-! ### The copy of a release (R194, R171) -/

/-- The next bytes of the copy, at most 235 of them (R194). -/
def sentData (s : State) (x : Take) (n : Nat) : List Byte :=
  (List.range (min 235 (x.sendLen - n))).map (fun i => sendByte s x (n + i))

theorem feedCopy_copies {dest n : Nat} (hx : s.releasing? = some x) (claims : x.claimant = some dest)
    (sends : x.sending = some n) (room : hasRoom s) (noWait : ∀ f ∈ s.line.waiting, f.isCopyOf x.key = false)
    (more : n < x.sendLen) : feedCopy s = some
      { s.modTake x.key (fun y => { y with sending := some (n + min 235 (x.sendLen - n)) }) with
        line := { s.line with queue := insertFrame (.copy x.key dest n (sentData s x n)) s.line.queue } } := by
  have free : s.line.waiting.any (TxFrame.isCopyOf x.key) = false := List.any_eq_false.2 fun f hf => by simp [noWait f hf]
  simp only [feedCopy, hx, claims, sends, free, Bool.false_eq_true, if_false, if_pos more]
  refine (if_neg (Bool.eq_false_iff.1 room.1)).trans ?_
  exact congrArg some (putFrame_with_room (s := s.modTake x.key _) room.2 _)

theorem feedCopy_ends {dest n : Nat} (hx : s.releasing? = some x) (claims : x.claimant = some dest)
    (sends : x.sending = some n) (room : hasRoom s) (noWait : ∀ f ∈ s.line.waiting, f.isCopyOf x.key = false)
    (all : x.sendLen ≤ n) (left : ∀ e ∈ s.line.queue, e.frame.isCopyOf x.key = false) : feedCopy s = some
      { s.modTake x.key (fun y => { y with sending := none }) with
        line := { s.line with queue := insertFrame (.copyEnd x.key dest x.sendLen) s.line.queue } } := by
  have free : s.line.waiting.any (TxFrame.isCopyOf x.key) = false := List.any_eq_false.2 fun f hf => by simp [noWait f hf]
  have sent : s.line.queue.any (fun e => e.frame.isCopyOf x.key) = false := List.any_eq_false.2 fun e he => by simp [left e he]
  simp only [feedCopy, hx, claims, sends, free, sent, Bool.false_eq_true, if_false, if_neg (Nat.not_lt.2 all)]
  refine (if_neg (Bool.eq_false_iff.1 room.1)).trans ?_
  exact congrArg some (putFrame_with_room (s := s.modTake x.key _) room.2 _)

end Begin

/-- Settles O34: a release that fails by how often it has been offered, and the release that begins by its keys. -/
theorem failedReleasesAreOfferedAgainOrStranded : Obligations.FailedReleasesAreOfferedAgainOrStranded := by
  refine ⟨fun h k reason s x held releasing unmuted free c event => ?fails, by simp [reactions], by simp [reactions], fun s =>
    ⟨beginRelease_none, fun x others => ?begins, fun x dest n hx claims sends room noWait => ?feeds⟩⟩
  case fails =>
    obtain ⟨u, answers, hu⟩ := release_failing held releasing event
    have same : u.takes = s.takes := by rcases hu with rfl | rfl <;> rfl
    have room : hasRoom u := by rcases hu with rfl | rfl <;> exact ⟨unmuted, free⟩
    have held' : u.take? k = some x := by rcases hu with rfl | rfl <;> exact held
    have quiet := withdraw_hasRoom room (TxFrame.isCopyOf k)
    refine ⟨fun first => ?again, fun second => ?strands⟩
    case again =>
      have found : ((withdraw u (TxFrame.isCopyOf k)).modTake k (Take.offered 2 x.reoffer)).take? k =
          some (x.offered 2 x.reoffer) := take?_modTake (fun _ => rfl) held'
      rw [releaseFails_again held' first, beginOffer_eq, sendOffer_with_room found quiet] at answers
      refine ⟨_, _, answers, found, rfl, rfl, rfl, rfl, rfl, if_pos (.inl releasing), mem_insertFrame _ _, ?_⟩
      exact same ▸ modTake_keys (withdraw u (TxFrame.isCopyOf k)) k fun _ => rfl
    case strands =>
      have found : ((withdraw u (TxFrame.isCopyOf k)).modTake k strandedTake).take? k =
          some (strandedTake x) := take?_modTake (fun _ => rfl) held'
      have keys : ((withdraw u (TxFrame.isCopyOf k)).modTake k strandedTake).takes.map (fun z => z.key) =
          s.takes.map (fun z => z.key) := same ▸ modTake_keys (withdraw u (TxFrame.isCopyOf k)) k fun _ => rfl
      rw [releaseFails_strands held' second] at answers
      cases again : x.reoffer with
      | true =>
        rw [strand_silent (s := withdraw u (TxFrame.isCopyOf k)) held' again] at answers
        exact ⟨_, _, answers, found, rfl, rfl, rfl, rfl, nofun, keys⟩
      | false =>
        rw [strand_told (s := withdraw u (TxFrame.isCopyOf k)) held' again] at answers
        have takes := produce_takes ((withdraw u (TxFrame.isCopyOf k)).modTake k strandedTake) (some k) (.stranded x.scarce)
        refine ⟨_, strandedTake x, answers, ?_, rfl, rfl, rfl, rfl, fun _ => ?_, ?_⟩
        · exact (take?_congr takes k).trans found
        · exact produce_noticed (s := (withdraw u (TxFrame.isCopyOf k)).modTake k strandedTake) quiet _ _
        · rw [takes, keys]
  case begins =>
    have free : ∀ y ∈ s.takes, y.state ≠ .releasing := fun y hy => (others y hy).1
    have alone : ∀ y ∈ s.takes, y.key = x.key → y = x := fun y hy => (others y hy).2
    refine ⟨fun first => ?_, fun noReoffer first => ?_⟩
    · obtain ⟨member, stranded, -⟩ := firstByKeys_mem first
      obtain ⟨found, takes, queued, watched⟩ := beginOffer_offers member alone 2 true
      exact ⟨_, _, beginRelease_reoffers free first, found, by simp [Take.offered], takes, queued, watched⟩
    · obtain ⟨member, -⟩ := firstByKeys_mem first
      obtain ⟨found, takes, queued, watched⟩ := beginOffer_offers member alone 1 false
      exact ⟨_, _, beginRelease_releases free noReoffer first, found, by simp [Take.offered, free x member], takes, queued, watched⟩
  case feeds =>
    have total : x.copyLen - sentFrom x = x.sendLen := by rw [Take.sendLen, sendFrom_eq]
    refine ⟨fun more => ?_, fun all left => ?_⟩
    · rw [total] at more ⊢
      rw [feedCopy_copies hx claims sends room noWait more]
      simp only [sentData, sendByte, sendFrom_eq]
      rfl
    · rw [total] at all ⊢
      exact feedCopy_ends hx claims sends room noWait all left

end Sys2Proof.Machine
end

section
/-! PROOFS. The entry to HALT, and a homing that fails (R105, R135, R153, R192, R193, R202). -/

namespace Sys2Proof.Machine

/-! ### The entry to HALT (R153, R193) -/

section Halt
variable {s : State}

theorem mark_halt (x : Take) : x.mark .halt = { x with release := some .halt } := by
  unfold Take.mark
  split
  · next r old =>
    split
    · rfl
    · next first =>
      have halt : r = .halt := by
        cases r with
        | halt => rfl
        | fault | filmOut | widths | repeated => exact absurd (by decide) first
      rw [← halt, ← old]
  · rfl

/-- The release mark that HALT places on a held take, a release in progress and the kill of the ACTIVE take going on (R192). -/
def haltMarked (s : State) (x : Take) : Take :=
  if x.state = .releasing ∨ x.state = .stranded ∨ (x.state = .active ∧ s.killing = true) then x
  else { x with release := some .halt }

theorem markTakes_halt (s : State) : markTakes s .halt (fun _ => true) = { s with takes := s.takes.map (haltMarked s) } := by
  unfold markTakes
  congr 1
  refine List.map_congr_left fun x _ => ?_
  rw [mark_halt]
  unfold haltMarked
  by_cases releasing : x.state = .releasing
  · simp [releasing]
  by_cases stranded : x.state = .stranded
  · simp [stranded]
  by_cases active : x.state = .active
  · cases s.killing <;> simp [active]
  · simp [releasing, stranded, active]

theorem haltMarked_key (s : State) (x : Take) : (haltMarked s x).key = x.key := by
  unfold haltMarked
  split <;> rfl

theorem haltMarked_state (s : State) (x : Take) : (haltMarked s x).state = x.state := by
  unfold haltMarked
  split <;> rfl

/-- Every take is to be released but those on their way and the one being killed. -/
theorem haltMarked_release (s : State) (x : Take) : (haltMarked s x).release = some .halt ∨
    (haltMarked s x).state = .releasing ∨ (haltMarked s x).state = .stranded ∨
      ((haltMarked s x).state = .active ∧ ∃ p, s.pass = some p ∧ p.killing = true) := by
  by_cases void : x.state = .releasing ∨ x.state = .stranded ∨ (x.state = .active ∧ s.killing = true)
  · have same : haltMarked s x = x := if_pos void
    rw [same]
    exact .inr (void.imp_right (Or.imp_right fun ⟨active, killing⟩ => ⟨active, killing_iff.1 killing⟩))
  · have marked : haltMarked s x = { x with release := some .halt } := if_neg void
    rw [marked]
    exact .inl rfl

/-- The request is void for the take being killed (R192). -/
theorem haltMarked_killed {x : Take} (active : x.state = .active) (killing : s.killing = true) : haltMarked s x = x :=
  if_pos (.inr (.inr ⟨active, killing⟩))

theorem enterHalt_halted (s : State) (m : Mech) (atClear : Bool) :
    enterHalt s m atClear = produce (s.halted m) none (.halt m atClear) := rfl

theorem halted_takes (s : State) (m : Mech) : (s.halted m).takes = s.takes.map (haltMarked s) := by
  unfold State.halted
  rw [markTakes_halt]
  rfl

theorem enterHalt_takes (s : State) (m : Mech) (atClear : Bool) :
    (enterHalt s m atClear).takes = s.takes.map (haltMarked s) := by
  rw [enterHalt_halted, produce_takes, halted_takes]

/-- What the entry to HALT leaves of the station, the panel, the lamp and the Exposure Sequencer. -/
theorem enterHalt_state (s : State) (m : Mech) (atClear : Bool) :
    (enterHalt s m atClear).stop = { s.stop with station := .halt, record := some (haltRecord s m), clearing := false } ∧
    (enterHalt s m atClear).panel = s.panel ∧ (enterHalt s m atClear).lamp = { s.lamp with phase := .off } ∧
    (enterHalt s m atClear).exp =
      { s.exp with homing := none, phase := if s.exp.homing.isSome then .idle else s.exp.phase } ∧
    (enterHalt s m atClear).film = s.film ∧ (enterHalt s m atClear).pass = s.pass := by
  rw [enterHalt_halted, produce_line]
  exact ⟨rfl, rfl, rfl, rfl, rfl, rfl⟩

theorem enterHalt_told (room : hasRoom s) (m : Mech) (atClear : Bool) :
    noticed (enterHalt s m atClear) none (.halt m atClear) := produce_noticed (halted_hasRoom room m) _ _

theorem enterHalt_released (s : State) (m : Mech) (atClear : Bool) : ∀ x ∈ (enterHalt s m atClear).takes,
    x.release = some .halt ∨ x.state = .releasing ∨ x.state = .stranded ∨
      (x.state = .active ∧ ∃ p, s.pass = some p ∧ p.killing = true) := by
  rw [enterHalt_takes]
  intro x hx
  obtain ⟨y, -, rfl⟩ := List.mem_map.1 hx
  exact haltMarked_release s y

theorem enterHalt_keys (s : State) (m : Mech) (atClear : Bool) :
    (enterHalt s m atClear).takes.map (fun x => x.key) = s.takes.map (fun x => x.key) := by
  rw [enterHalt_takes, List.map_map]
  exact List.map_congr_left fun x _ => haltMarked_key s x

/-- The take being killed keeps the release it had (R192). -/
theorem enterHalt_killed (m : Mech) (atClear : Bool) (killing : s.killing = true) :
    ∀ y ∈ (enterHalt s m atClear).takes, y.state = .active →
      ∃ x ∈ s.takes, x.state = .active ∧ x.key = y.key ∧ x.release = y.release := by
  rw [enterHalt_takes]
  intro y hy active
  obtain ⟨x, hx, rfl⟩ := List.mem_map.1 hy
  rw [haltMarked_state] at active
  exact ⟨x, hx, active, (haltMarked_key s x).symm, by rw [haltMarked_killed active killing]⟩

end Halt

/-! ### A homing that fails (R105) -/

section Homing
variable {s : State} {m : Mover}

/-- An event that fails a homing fails it on an Exposure Sequencer that still homes the same mechanism. -/
theorem homing_fails {c : Instr} (homes : s.exp.homing = some m)
    (event : c = .homingTimeout ∨ (m = .turret ∧ ∃ n : Fin 8, n ≠ 0 ∧ c = .seatIndex n) ∨
      (m = .lens ∧ ∃ n : Fin 12, n ≠ 0 ∧ c = .lensIndex n)) :
    ∃ e : Exposer, exec c s = done (homingFault { s with exp := e } m) ∧ e.homing = some m ∧ e.seats = s.exp.seats := by
  rcases event with rfl | ⟨rfl, n, other, rfl⟩ | ⟨rfl, n, other, rfl⟩
  · refine ⟨s.exp, congrArg done ?_, homes, rfl⟩
    simp only [homingTimeout, homes]
  · have elsewhere : n.val ≠ 0 := fun zero => other (Fin.ext zero)
    refine ⟨{ s.exp with turret := some n.val }, congrArg done ?_, homes, rfl⟩
    simp only [seatIndexEvent, homes, if_true, if_neg elsewhere]
    rfl
  · have elsewhere : n.val ≠ 0 := fun zero => other (Fin.ext zero)
    refine ⟨{ s.exp with lens := some n.val }, congrArg done ?_, homes, rfl⟩
    simp only [lensEvent, homes, if_true, if_neg elsewhere]
    rfl

/-- The state with the homing ended. -/
def homingEnded (s : State) : State := { s with exp := { s.exp with phase := .idle, homing := none } }

/-- A galley open after a start-up that failed is flagged reset and uncut (R202). -/
def resetUncut (f : GalleyFlags) : GalleyFlags := { f with reset := true, uncut := true }

/-- In START the fault is kept for the end of the start-up (R202). -/
def startFailed (s : State) (m : Mover) : State :=
  { homingEnded s with panel := { s.panel with startFault := some (moverMech m) } }

/-- The galley closes without a cut, and the ANNOUNCE is still sent (R202). -/
theorem homingFault_start (start : s.stop.station = .start) (first : s.panel.startFault = none) (m : Mover) :
    homingFault s m = announce (closeGalley (startFailed s m) resetUncut) := by
  have report : reportFault (homingEnded s) .mechanism (some (moverMech m)) = startFailed s m := by
    have station : (homingEnded s).stop.station = .start := start
    have panel : (homingEnded s).panel.startFault = none := first
    simp only [reportFault, station, panel, Option.isSome_none, Bool.false_eq_true, if_false]
    rfl
  rw [homingFault, if_pos start]
  exact congrArg (fun u => announce (closeGalley u resetUncut)) report

/-- While CLEAR is homing it leads to HALT (R153). -/
theorem homingFault_clear (fault : s.stop.station = .fault) (clearing : s.stop.clearing = true) (m : Mover) :
    homingFault s m = enterHalt (homingEnded s) (moverMech m) true := by
  have report : reportFault (homingEnded s) .mechanism (some (moverMech m)) = enterHalt (homingEnded s) (moverMech m) true := by
    have station : (homingEnded s).stop.station = .fault := fault
    have clears : (homingEnded s).stop.clearing = true := clearing
    simp only [reportFault, station, clears, if_true]
    rfl
  have notStart : ¬ s.stop.station = .start := by rw [fault]; exact nofun
  rw [homingFault, if_neg notStart]
  exact report

/-- The film once the open galley, if any, has been closed with these flags (R133, R134, R137). -/
def Film.closed (f : Film) (mark : GalleyFlags → GalleyFlags) : Film :=
  match f.galley with
  | none => f
  | some g =>
    { f with
      galley := none, nextSeq := f.nextSeq.map (fun _ => min 65535 (g.seq + 1))
      manifest := f.manifest ++ [{ g with flags := mark g.flags }] }

/-- Closing a galley changes the film, the advanced mark and the takes' counters alone. -/
theorem closeGalley_eq (s : State) (mark : GalleyFlags → GalleyFlags) : ∃ advanced takes, closeGalley s mark =
    { s with film := s.film.closed mark, exp := { s.exp with mark := advanced }, takes := takes } := by
  unfold Film.closed
  cases hg : s.film.galley with
  | none => exact ⟨s.exp.mark, s.takes, by simp only [closeGalley, hg]⟩
  | some g => exact ⟨none, _, closeGalley_open hg mark⟩

theorem announce_sends (room : hasRoom s) : announce s =
    { setStage s .announce with
      line := { s.line with queue := insertFrame (.announce (announcement (setStage s .announce))) s.line.queue } } := by
  refine (if_neg (Bool.eq_false_iff.1 room.1)).trans ?_
  exact putFrame_with_room (s := setStage s .announce) room.2 _

/-- A muted station's ANNOUNCE is refused at once, and a fault of the start-up leads to HALT (R153, R169). -/
theorem announce_muted_fault (muted : s.line.mute = true) {mech : Mech} (failed : s.panel.startFault = some mech) :
    announce s = enterHalt (setStage s .done) mech false :=
  (if_pos muted).trans (announceGone_halt (s := setStage s .announce) rfl failed)

/-- The start-up goes on to its ANNOUNCE. -/
theorem homingFault_announces (start : s.stop.station = .start) (first : s.panel.startFault = none) (room : hasRoom s)
    (m : Mover) : ∃ t a, homingFault s m = t ∧
      t.panel = { s.panel with startFault := some (moverMech m), stage := .announce } ∧ t.stop = s.stop ∧
      t.exp.homing = none ∧ t.exp.phase = .idle ∧ t.exp.seats = s.exp.seats ∧ t.film = s.film.closed resetUncut ∧
      t.line.queue = insertFrame (.announce a) s.line.queue ∧ a.cause = s.panel.cause ∧ a.seats = s.exp.seats := by
  obtain ⟨advanced, takes, closed⟩ := closeGalley_eq (startFailed s m) resetUncut
  have sends := announce_sends (s := closeGalley (startFailed s m) resetUncut) (by rw [closed]; exact room)
  rw [← homingFault_start start first m, closed] at sends
  exact ⟨_, _, sends, rfl, rfl, rfl, rfl, rfl, rfl, rfl, rfl, rfl⟩

/-- A muted station goes to HALT at once. -/
theorem homingFault_muted (start : s.stop.station = .start) (first : s.panel.startFault = none) (muted : s.line.mute = true)
    (m : Mover) : ∃ t, homingFault s m = t ∧
      t.stop = { s.stop with station := .halt, record := some (haltRecord s (moverMech m)), clearing := false } ∧
      t.panel = { s.panel with startFault := some (moverMech m), stage := .done } ∧ t.lamp = { s.lamp with phase := .off } := by
  obtain ⟨advanced, takes, closed⟩ := closeGalley_eq (startFailed s m) resetUncut
  have halts := announce_muted_fault (s := closeGalley (startFailed s m) resetUncut) (by rw [closed]; exact muted)
    (mech := moverMech m) (by rw [closed]; rfl)
  rw [← homingFault_start start first m, closed] at halts
  obtain ⟨stop, panel, lamp, -⟩ := enterHalt_state (setStage { startFailed s m with
    film := _, exp := { (startFailed s m).exp with mark := advanced }, takes := takes } .done) (moverMech m) false
  exact ⟨_, halts, stop, panel, lamp⟩

end Homing

/-- Settles O52: the event ends the homing, which in START leads to the ANNOUNCE and after CLEAR to HALT. -/
theorem homingFaultsLeadToHalt : Obligations.HomingFaultsLeadToHalt := by
  intro s m mech
  have name : mech = moverMech m := by cases m <;> rfl
  refine ⟨fun c homes event => ?_, fun rests => answers_effect (by simp only [homingTimeout, rests])⟩
  obtain ⟨e, acts, homing, seats⟩ := homing_fails homes event
  rw [name]
  refine ⟨fun start first room => ?_, fun start first muted _ => ?_, fun fault clearing room _ => ?_⟩
  · obtain ⟨t, a, fails, panel, stop, rests, idle, seated, film, queue, cause, told⟩ :=
      homingFault_announces (s := { s with exp := e }) start first room m
    exact ⟨t, a, acts.trans (answers_effect fails), panel, stop, rests, idle, seated.trans seats, film, queue, cause,
      told.trans seats⟩
  · obtain ⟨t, fails, stop, panel, lamp⟩ := homingFault_muted (s := { s with exp := e }) start first muted m
    exact ⟨t, _, acts.trans (answers_effect fails), stop, rfl, panel, lamp⟩
  · rw [homingFault_clear (s := { s with exp := e }) fault clearing m] at acts
    obtain ⟨stop, -, lamp, exp, -⟩ := enterHalt_state (homingEnded { s with exp := e }) (moverMech m) true
    refine ⟨_, _, acts, stop, rfl, rfl, rfl, ?_, ?_, lamp,
      enterHalt_told (s := homingEnded { s with exp := e }) room _ _, enterHalt_keys _ _ _,
      enterHalt_released _ _ _, fun p hp killed => ?_⟩
    · rw [exp]
    · rw [exp]; rfl
    · exact enterHalt_killed (s := homingEnded { s with exp := e }) _ _ (killing_iff.2 ⟨p, hp, killed⟩)

end Sys2Proof.Machine
end

section
/-! PROOFS. Flashes done and the lamp's correction, its change and its warm-up (R114, R120, R124 to R126), and the faults that a
mechanism or the lamp reports (R150, R151, R153, R154). -/

namespace Sys2Proof.Machine

/-! ### A fault reported (R150, R151, R153) -/

section Report
variable {s : State}

/-- A fault is taken in these states (R150). -/
def State.takesFaults (s : State) : Prop :=
  s.stop.station = .run ∨ s.stop.station = .standby ∨ s.stop.station = .hold ∨ s.stop.station = .stopped

theorem reportFault_takes (takes : s.takesFaults) (kind : StopKind) (mech : Option Mech) :
    reportFault s kind mech = takeFault s kind mech := by
  rcases takes with station | station | station | station <;> simp only [reportFault, station]

theorem reportFault_halt (halt : s.stop.station = .halt) (kind : StopKind) (mech : Option Mech) :
    reportFault s kind mech = s := by
  simp only [reportFault, halt]

theorem reportFault_clearing (fault : s.stop.station = .fault) (clearing : s.stop.clearing = true) (kind : StopKind) (m : Mech) :
    reportFault s kind (some m) = enterHalt s m true := by
  simp only [reportFault, fault, clearing, if_true, Option.getD_some]

/-- A further fault changes the mechanism that the record names, and is told (R151). -/
theorem reportFault_further {r : StopRecord} (fault : s.stop.station = .fault) (rests : s.stop.clearing = false)
    (hr : s.stop.record = some r) (kind : StopKind) (mech : Option Mech) : reportFault s kind mech = produce
      { s with stop := { s.stop with record := some { r with mech := mech.or r.mech } } } r.key
      (.fault kind mech r.earlier true (r.line.getD 0)) := by
  simp only [reportFault, fault, rests, furtherFault, hr, Bool.false_eq_true, if_false]
  cases mech <;> rfl

/-- The Exposure Sequencer after a fault, which a line that a door has halted outlives (R116, R150). -/
def Exposer.faulted (e : Exposer) : Exposer := if e.cur.any (fun c => c.halt.isSome) then e else lineEnded e

theorem endByFault_eq (s : State) : endByFault s = { s with exp := s.exp.faulted } := by
  unfold endByFault Exposer.faulted
  split <;> rfl

/-- A fault taken, the line ended by it. -/
theorem endByFault_taken {kind : StopKind} {mech : Option Mech} (takes : s.takesFaults) :
    let t := endByFault (reportFault s kind mech)
    faultTaken s t kind mech ∧ t.exp = s.exp.faulted ∧ t.film = s.film ∧ t.lamp = s.lamp := by
  obtain ⟨taken, exp, film, lamp⟩ := takeFault_taken s kind mech
  rw [reportFault_takes takes, endByFault_eq, exp]
  exact ⟨taken, rfl, film, lamp⟩

end Report

/-! ### The lamp's correction (R124, R125) -/

section Correction
variable {l : Lamp} {reading : Nat}

/-- The correction that a reading calls for, before it is held to its range (R124). -/
def Lamp.wanted (l : Lamp) (reading : Nat) : Int := (l.c : Int) + l.change reading

def Lamp.limit (l : Lamp) (reading : Nat) : Nat := if l.wanted reading < 512 then 512 else 2047

theorem corrected_within (low : 512 ≤ l.wanted reading) (high : l.wanted reading ≤ 2047) :
    l.corrected reading = ((l.wanted reading).toNat, false) :=
  (if_neg (Int.not_lt.2 low)).trans (if_neg (Int.not_lt.2 high))

theorem corrected_beyond (beyond : l.wanted reading < 512 ∨ 2047 < l.wanted reading) :
    l.corrected reading = (l.limit reading, true) := by
  by_cases low : l.wanted reading < 512
  · exact (if_pos low).trans (by rw [Lamp.limit, if_pos low]; rfl)
  · refine (if_neg low).trans ((if_pos (beyond.resolve_left low)).trans ?_)
    rw [Lamp.limit, if_neg low]
    rfl

theorem take_within (low : 512 ≤ l.wanted reading) (high : l.wanted reading ≤ 2047) : l.take reading =
    { l with c := (l.wanted reading).toNat, ePrev := 512 - (reading : Int), run := 0 } := by
  rw [Lamp.take, corrected_within low high]
  rfl

theorem take_beyond (beyond : l.wanted reading < 512 ∨ 2047 < l.wanted reading) : l.take reading =
    { l with c := l.limit reading, ePrev := 512 - (reading : Int), run := min 256 (l.run + 1) } := by
  rw [Lamp.take, corrected_beyond beyond]
  rfl

theorem faults_within (low : 512 ≤ l.wanted reading) (high : l.wanted reading ≤ 2047) : l.faults reading = false := by
  rw [Lamp.faults, corrected_within low high, Bool.false_and]

theorem faults_beyond (beyond : l.wanted reading < 512 ∨ 2047 < l.wanted reading) :
    l.faults reading = decide (255 ≤ l.run) := by
  rw [Lamp.faults, corrected_beyond beyond, take_beyond beyond, Bool.true_and, decide_eq_decide]
  show min 256 (l.run + 1) = 256 ↔ 255 ≤ l.run
  omega

end Correction

/-! ### A flash done (R114) -/

section FlashDone
variable {s : State} {m : Nat} {f : Flash} {c : Exposure} {g : FlashGroup} {gs : List FlashGroup}

/-- The item flashed is in the flashed set, and no longer in its group (R114). -/
def flashedExposer (s : State) (f : Flash) (c : Exposure) (g : FlashGroup) (gs : List FlashGroup) : Exposer :=
  { s.exp with
    flash := none
    cur := some
      { c with
        flashed := c.flashed ++ [f.item], groups := { g with items := g.items.filter (fun j => j ≠ f.item) } :: gs } }

def afterFlash (s : State) (f : Flash) (c : Exposure) (g : FlashGroup) (gs : List FlashGroup) : State :=
  { s with exp := flashedExposer s f c g gs }

theorem flashDone_none (none : s.exp.flash = none) (m : Nat) : flashDone s m = s := by simp only [flashDone, none]

theorem flashDone_some (hf : s.exp.flash = some f) (hc : s.exp.cur = some c) (hg : c.groups = g :: gs) (m : Nat) :
    flashDone s m =
      let u := correctLamp (afterFlash s f c g gs) m
      if s.lamp.faults m then endByFault (reportFault u .lamp none) else u := by
  have flashed : modCur (modExp s (fun e => { e with flash := none })) (fun c => itemFlashed c f.item) =
      afterFlash s f c g gs := by
    simp only [modCur, modExp, hc, Option.map_some, itemFlashed, hg]
    rfl
  simp only [flashDone, hf, flashed]

theorem correctLamp_quiet (other : s.lamp.run ≠ 63 ∨ (s.lamp.take m).run ≠ 64) :
    correctLamp s m = { s with lamp := s.lamp.take m } :=
  if_neg fun ⟨before, after⟩ => other.elim (· before) (· after)

theorem correctLamp_weak {l : Lamp} (corrected : s.lamp.take m = l) (before : s.lamp.run = 63) (after : l.run = 64)
    (room : hasRoom s) : correctLamp s m =
      { s with lamp := l, line := { s.line with queue := insertFrame (.notice none (.lampWeak l.c 64)) s.line.queue } } := by
  subst corrected
  refine (if_pos ⟨before, after⟩).trans ?_
  rw [after]
  exact produce_with_room (s := { s with lamp := s.lamp.take m }) room _ _

/-- A correction within its range ends the clamp run (R124, R125). -/
theorem flashDone_in_range (hf : s.exp.flash = some f) (hc : s.exp.cur = some c) (hg : c.groups = g :: gs)
    (low : 512 ≤ s.lamp.wanted m) (high : s.lamp.wanted m ≤ 2047) : flashDone s m =
      { afterFlash s f c g gs with lamp := s.lamp.take m } := by
  have ends : (s.lamp.take m).run ≠ 64 := by
    rw [take_within low high]
    exact nofun
  rw [flashDone_some hf hc hg, faults_within low high]
  exact correctLamp_quiet (s := afterFlash s f c g gs) (.inr ends)

/-- A clamp before the 256th of its run corrects the lamp alone (R125). -/
theorem flashDone_clamped (hf : s.exp.flash = some f) (hc : s.exp.cur = some c) (hg : c.groups = g :: gs)
    (beyond : s.lamp.wanted m < 512 ∨ 2047 < s.lamp.wanted m) (early : s.lamp.run < 255) : flashDone s m =
      correctLamp (afterFlash s f c g gs) m := by
  rw [flashDone_some hf hc hg, faults_beyond beyond, decide_eq_false (Nat.not_le.2 early)]
  rfl

/-- The 256th reports a LAMP fault (R125). -/
theorem flashDone_fault (hf : s.exp.flash = some f) (hc : s.exp.cur = some c) (hg : c.groups = g :: gs)
    (beyond : s.lamp.wanted m < 512 ∨ 2047 < s.lamp.wanted m) (full : 255 ≤ s.lamp.run) : flashDone s m =
      endByFault (reportFault { afterFlash s f c g gs with lamp := s.lamp.take m } .lamp none) := by
  have past : s.lamp.run ≠ 63 := by omega
  rw [flashDone_some hf hc hg, faults_beyond beyond, decide_eq_true full]
  exact congrArg (fun u => endByFault (reportFault u .lamp none)) (correctLamp_quiet (s := afterFlash s f c g gs) (.inl past))

theorem faulted_flashed (s : State) (f : Flash) (c : Exposure) (g : FlashGroup) (gs : List FlashGroup) :
    (flashedExposer s f c g gs).faulted =
      if c.halt = none then { flashedExposer s f c g gs with cur := none, phase := .idle } else flashedExposer s f c g gs := by
  unfold Exposer.faulted
  cases halted : c.halt with
  | none => simp [flashedExposer, halted, lineEnded]
  | some d => simp [flashedExposer, halted]

end FlashDone

/-- Settles O53: a reading that corrects the lamp within its range, or beyond it by the clamp run it leaves. -/
theorem flashesAndLampChangesCorrectTheLamp : Obligations.FlashesAndLampChangesCorrectTheLamp := by
  refine ⟨fun s m => ⟨fun none => answers_effect (flashDone_none none m.val), fun f c g gs hf hc hg => ?done⟩,
    fun s => ⟨answers_effect ?switch, fun warming => answers_effect (if_pos warming),
      fun other => answers_effect (if_neg other)⟩⟩
  case done =>
    refine ⟨fun low high => answers_effect ((flashDone_in_range hf hc hg low high).trans (by rw [take_within low high]; rfl)),
      fun beyond => ⟨fun early other => answers_effect ?counted, fun weak room => answers_effect ?weak, fun full => ?fault⟩⟩
    case counted =>
      have run : min 256 (s.lamp.run + 1) = s.lamp.run + 1 := by omega
      refine (flashDone_clamped hf hc hg beyond early).trans ((correctLamp_quiet (s := afterFlash s f c g gs) (.inl other)).trans ?_)
      show ({ afterFlash s f c g gs with lamp := s.lamp.take m.val } : State) = _
      rw [take_beyond beyond, run]
      rfl
    case weak =>
      have early : s.lamp.run < 255 := by omega
      have lamp : s.lamp.take m.val = { s.lamp with c := s.lamp.limit m.val, ePrev := 512 - (m.val : Int), run := 64 } := by
        rw [take_beyond beyond, weak]
        rfl
      exact (flashDone_clamped hf hc hg beyond early).trans
        (correctLamp_weak (s := afterFlash s f c g gs) lamp weak rfl room)
    case fault =>
      have fails := flashDone_fault hf hc hg beyond full
      have run : min 256 (s.lamp.run + 1) = 256 := by omega
      have lamp : s.lamp.take m.val = { s.lamp with c := s.lamp.limit m.val, ePrev := 512 - (m.val : Int), run := 256 } := by
        rw [take_beyond beyond, run]
      have ended := faulted_flashed s f c g gs
      refine ⟨fun takes => ?_, fun r fault rests hr room => answers_effect ?_, fun halt => answers_effect ?_⟩
      · obtain ⟨taken, exp, -, same⟩ := endByFault_taken (kind := .lamp) (mech := none)
          (s := { afterFlash s f c g gs with lamp := s.lamp.take m.val }) takes
        exact ⟨_, answers_effect fails, same.trans lamp, exp.trans ended, taken⟩
      · have stop : ({ s.stop with record := some r } : StopControl) = s.stop := by rw [← hr]
        have reported := reportFault_further (s := { afterFlash s f c g gs with lamp := s.lamp.take m.val })
          fault rests hr .lamp none
        rw [produce_with_room (by exact room), lamp] at reported
        rw [fails, lamp, reported, endByFault_eq]
        refine (congrArg (fun e : Exposer =>
          ({ s with stop := { s.stop with record := some r }, exp := e, lamp := _, line := _ } : State)) ended).trans ?_
        rw [stop]
        rfl
      · rw [fails, reportFault_halt (s := { afterFlash s f c g gs with lamp := s.lamp.take m.val }) halt, endByFault_eq, lamp]
        exact congrArg (fun e : Exposer => ({ afterFlash s f c g gs with lamp := _, exp := e } : State)) ended
  case switch =>
    unfold changeLamp
    cases s.lamp.phase <;> rfl

end Sys2Proof.Machine
end

section
/-! PROOFS. Movements and flashes that fail (R103, R104, R114, R132, R134, R150, R151, R153). -/

namespace Sys2Proof.Machine

section Failures
variable {s u w t : State} {c : Instr} {m : Mech}

/-! ### What is still done after a failure is reported -/

/-- What a fault's park asks by of a pass, and what it leaves of a take. -/
def passTold (p : Pass) : PassKind × Bool × Bool × Option Park := (p.kind, p.killing, p.cutAsked, p.park)
def takeTold (x : Take) : Key × TakeState × Option ReleaseReason := (x.key, x.state, x.release)

/-- The positions, the movements, the flash and the homing of the Exposure Sequencer. -/
def Exposer.work (e : Exposer) : Exposer := { e with cur := none, phase := .idle, mark := none }

/-- From `w` to `t` at most a line and a cut have ended: their stop, lamp, line and mechanisms are those of `w`. -/
structure Follows (w t : State) : Prop where
  station : t.stop.station = w.stop.station
  record : t.stop.record = w.stop.record
  clearing : t.stop.clearing = w.stop.clearing
  line : t.line = w.line
  lamp : t.lamp = w.lamp
  remaining : t.film.remaining = w.film.remaining
  driveOk : t.film.driveOk = w.film.driveOk
  cutterOk : t.film.cutterOk = w.film.cutterOk
  pass : t.pass.map passTold = w.pass.map passTold
  takes : t.takes.map takeTold = w.takes.map takeTold
  exp : t.exp.work = w.exp.work

theorem Follows.refl (w : State) : Follows w w := ⟨rfl, rfl, rfl, rfl, rfl, rfl, rfl, rfl, rfl, rfl, rfl⟩

theorem Follows.trans (first : Follows u w) (second : Follows w t) : Follows u t where
  station := second.station.trans first.station
  record := second.record.trans first.record
  clearing := second.clearing.trans first.clearing
  line := second.line.trans first.line
  lamp := second.lamp.trans first.lamp
  remaining := second.remaining.trans first.remaining
  driveOk := second.driveOk.trans first.driveOk
  cutterOk := second.cutterOk.trans first.cutterOk
  pass := second.pass.trans first.pass
  takes := second.takes.trans first.takes
  exp := second.exp.trans first.exp

theorem endByFault_follows (w : State) : Follows w (endByFault w) := by
  rw [endByFault_eq]
  refine ⟨rfl, rfl, rfl, rfl, rfl, rfl, rfl, rfl, rfl, rfl, ?_⟩
  unfold Exposer.faulted
  split <;> rfl

theorem closeGalley_follows (w : State) (mark : GalleyFlags → GalleyFlags) : Follows w (closeGalley w mark) := by
  cases hg : w.film.galley with
  | none =>
    have same : closeGalley w mark = w := by simp only [closeGalley, hg]
    rw [same]
    exact .refl w
  | some g =>
    rw [closeGalley_open hg]
    refine ⟨rfl, rfl, rfl, rfl, rfl, rfl, rfl, rfl, rfl, ?_, rfl⟩
    rw [List.map_map]
    refine List.map_congr_left fun x _ => ?_
    simp only [Function.comp_apply]
    split <;> rfl

theorem cutDone_follows (w : State) (q : CutRequest) : Follows w (cutDone w q) := by
  have passes : Follows w (w.modPass (fun p => { p with cutDone := true })) := by
    refine ⟨rfl, rfl, rfl, rfl, rfl, rfl, rfl, rfl, ?_, rfl, rfl⟩
    simp only [State.modPass, Option.map_map]
    rfl
  unfold cutDone
  split
  · exact passes
  · exact passes
  · exact passes
  · exact ⟨rfl, rfl, rfl, rfl, rfl, rfl, rfl, rfl, rfl, rfl, rfl⟩
  · exact .refl w
  · exact .refl w
  · exact .refl w

theorem finishCut_follows (w : State) (q : CutRequest) (uncut : Bool) : Follows w (finishCut w q uncut) := by
  have idle : Follows w { w with film := { w.film with transport := .idle } } :=
    ⟨rfl, rfl, rfl, rfl, rfl, rfl, rfl, rfl, rfl, rfl, rfl⟩
  unfold finishCut
  dsimp only
  split
  · exact idle.trans (cutDone_follows _ q)
  · exact (idle.trans (closeGalley_follows _ _)).trans (cutDone_follows _ q)

theorem toCutter_follows (w : State) (q : CutRequest) : Follows w (toCutter w q) := by
  unfold toCutter
  split
  · exact ⟨rfl, rfl, rfl, rfl, rfl, rfl, rfl, rfl, rfl, rfl, rfl⟩
  · exact finishCut_follows w q true

/-! ### The failure found (R103, R104, R114, R132, R134) -/

/-- Where a failed movement leaves its mechanism. -/
def failureShows (c : Instr) (e : Exposer) (f : Film) : Prop :=
  (c = .moveTimeout .turret → e.turret = none ∧ e.turretMove = none) ∧
  (c = .moveTimeout .lens → e.lens = none ∧ e.lensMove = none) ∧
  (c = .moveTimeout .carriage → e.carriage = none ∧ e.carriageMove = none) ∧
  (∀ n : Fin 8, c = .seatIndex n → e.turret = some n.val ∧ e.turretMove = none) ∧
  (∀ n : Fin 12, c = .lensIndex n → e.lens = some n.val ∧ e.lensMove = none) ∧
  (c = .flashTimeout → e.flash = none) ∧ (c = .advanceTimeout → f.driveOk = false) ∧ (c = .cutterTimeout → f.cutterOk = false)

theorem Follows.shows (follows : Follows w t) (shows' : failureShows c w.exp w.film) : failureShows c t.exp t.film := by
  obtain ⟨seat, lens, carriage, turret, lensTurret, flash, drive, cutter⟩ := shows'
  have exp := follows.exp
  have at_turret : t.exp.turret = w.exp.turret := (congrArg Exposer.turret exp :)
  have at_lens : t.exp.lens = w.exp.lens := (congrArg Exposer.lens exp :)
  have at_carriage : t.exp.carriage = w.exp.carriage := (congrArg Exposer.carriage exp :)
  have turretMove : t.exp.turretMove = w.exp.turretMove := (congrArg Exposer.turretMove exp :)
  have lensMove : t.exp.lensMove = w.exp.lensMove := (congrArg Exposer.lensMove exp :)
  have carriageMove : t.exp.carriageMove = w.exp.carriageMove := (congrArg Exposer.carriageMove exp :)
  have flashes : t.exp.flash = w.exp.flash := (congrArg Exposer.flash exp :)
  unfold failureShows
  rw [at_turret, at_lens, at_carriage, turretMove, lensMove, carriageMove, flashes, follows.driveOk, follows.cutterOk]
  exact ⟨seat, lens, carriage, turret, lensTurret, flash, drive, cutter⟩

/-- A failure is reported on the Exposure Sequencer `e` and the film `f`; then `finish` ends the line, or goes on with the cut. -/
structure Fails (s : State) (c : Instr) (m : Mech) (e : Exposer) (f : Film) (finish : State → State) : Prop where
  answers : exec c s = done (finish (reportFault { s with exp := e, film := f } .mechanism (some m)))
  shows' : failureShows c e f
  cur : e.cur = s.exp.cur
  remaining : f.remaining = s.film.remaining
  goes : finish = endByFault ∨ (∃ q, s.film.transport = .trailing q ∨ s.film.transport = .cutting q) ∧
    (c = .advanceTimeout ∨ c = .cutterTimeout) ∧ ∀ w, Follows w (finish w)

theorem Fails.follows {e : Exposer} {f : Film} {finish : State → State} (h : Fails s c m e f finish) (w : State) :
    Follows w (finish w) := by
  rcases h.goes with rfl | ⟨-, -, cuts⟩
  · exact endByFault_follows w
  · exact cuts w

theorem moveTimeout_fails {v : Mover} (h : failedMechanism s (.moveTimeout v) = some m) :
    ∃ e, Fails s (.moveTimeout v) m e s.film endByFault := by
  cases v with
  | turret =>
    obtain ⟨moves, ⟨⟩⟩ := Option.ite_none_right_eq_some.1 h
    refine ⟨{ s.exp with turretMove := none, turret := none }, congrArg done (if_pos moves), ?_, rfl, rfl, .inl rfl⟩
    simp [failureShows]
  | lens =>
    obtain ⟨moves, ⟨⟩⟩ := Option.ite_none_right_eq_some.1 h
    refine ⟨{ s.exp with lensMove := none, lens := none }, congrArg done (if_pos moves), ?_, rfl, rfl, .inl rfl⟩
    simp [failureShows]
  | carriage =>
    obtain ⟨moves, ⟨⟩⟩ := Option.ite_none_right_eq_some.1 h
    refine ⟨{ s.exp with carriageMove := none, carriage := none }, congrArg done (if_pos moves), ?_, rfl, rfl, .inl rfl⟩
    simp [failureShows]

theorem flashTimeout_fails (h : failedMechanism s .flashTimeout = some m) :
    ∃ e, Fails s .flashTimeout m e s.film endByFault := by
  obtain ⟨flashes, ⟨⟩⟩ := Option.ite_none_right_eq_some.1 h
  refine ⟨{ s.exp with flash := none }, congrArg done (if_pos flashes), ?_, rfl, rfl, .inl rfl⟩
  simp [failureShows]

theorem seatIndex_fails {n : Fin 8} (h : failedMechanism s (.seatIndex n) = some m) :
    ∃ e, Fails s (.seatIndex n) m e s.film endByFault := by
  obtain ⟨⟨rests, moves, elsewhere⟩, ⟨⟩⟩ := Option.ite_none_right_eq_some.1 h
  obtain ⟨seat, target⟩ := Option.isSome_iff_exists.1 moves
  have other : seat ≠ n.val := fun same => elsewhere (same ▸ target)
  refine ⟨{ s.exp with turretMove := none, turret := some n.val }, congrArg done ?_, ?_, rfl, rfl, .inl rfl⟩
  · refine (if_neg rests).trans ?_
    simp only [turretIndex, target, if_neg other]
    rfl
  · simp only [failureShows, reduceCtorEq, false_implies, implies_true, true_and, and_true]
    rintro n' ⟨⟩
    trivial

theorem lensIndex_fails {n : Fin 12} (h : failedMechanism s (.lensIndex n) = some m) :
    ∃ e, Fails s (.lensIndex n) m e s.film endByFault := by
  obtain ⟨⟨rests, moves, elsewhere⟩, ⟨⟩⟩ := Option.ite_none_right_eq_some.1 h
  obtain ⟨lens, target⟩ := Option.isSome_iff_exists.1 moves
  have other : lens ≠ n.val := fun same => elsewhere (same ▸ target)
  refine ⟨{ s.exp with lensMove := none, lens := some n.val }, congrArg done ?_, ?_, rfl, rfl, .inl rfl⟩
  · refine (if_neg rests).trans ?_
    simp only [lensIndexEvent, target, if_neg other]
    rfl
  · simp only [failureShows, reduceCtorEq, false_implies, implies_true, true_and, and_true]
    rintro n' ⟨⟩
    trivial

theorem advanceTimeout_fails (h : failedMechanism s .advanceTimeout = some m) :
    ∃ f finish, Fails s .advanceTimeout m s.exp f finish := by
  cases transport : s.film.transport with
  | idle => simp [failedMechanism, transport] at h
  | cutting q => simp [failedMechanism, transport] at h
  | advancing =>
    obtain rfl : Mech.film = m := by simpa [failedMechanism, transport] using h
    refine ⟨{ s.film with transport := .idle, driveOk := false }, endByFault, congrArg done ?_, ?_, rfl, rfl, .inl rfl⟩
    · simp only [advanceTimeout, transport]
      rfl
    · simp [failureShows]
  | trailing q =>
    obtain rfl : Mech.film = m := by simpa [failedMechanism, transport] using h
    refine ⟨{ s.film with driveOk := false }, fun w => toCutter w q, congrArg done ?_, ?_, rfl, rfl,
      .inr ⟨⟨q, .inl transport⟩, .inl rfl, fun w => toCutter_follows w q⟩⟩
    · simp only [advanceTimeout, transport]
    · simp [failureShows]

theorem cutterTimeout_fails (h : failedMechanism s .cutterTimeout = some m) :
    ∃ f finish, Fails s .cutterTimeout m s.exp f finish := by
  cases transport : s.film.transport with
  | idle => simp [failedMechanism, transport] at h
  | advancing => simp [failedMechanism, transport] at h
  | trailing q => simp [failedMechanism, transport] at h
  | cutting q =>
    obtain rfl : Mech.cutter = m := by simpa [failedMechanism, transport] using h
    refine ⟨{ s.film with cutterOk := false }, fun w => finishCut w q true, congrArg done ?_, ?_, rfl, rfl,
      .inr ⟨⟨q, .inr transport⟩, .inr rfl, fun w => finishCut_follows w q true⟩⟩
    · simp only [cutterTimeout, transport]
    · simp [failureShows]

/-- Every failure is reported, and ends its line or goes on with its cut. -/
theorem failed_fails (h : failedMechanism s c = some m) : ∃ e f finish, Fails s c m e f finish := by
  cases c with
  | moveTimeout v =>
    obtain ⟨e, fails⟩ := moveTimeout_fails h
    exact ⟨e, _, _, fails⟩
  | flashTimeout =>
    obtain ⟨e, fails⟩ := flashTimeout_fails h
    exact ⟨e, _, _, fails⟩
  | seatIndex n =>
    obtain ⟨e, fails⟩ := seatIndex_fails h
    exact ⟨e, _, _, fails⟩
  | lensIndex n =>
    obtain ⟨e, fails⟩ := lensIndex_fails h
    exact ⟨e, _, _, fails⟩
  | advanceTimeout =>
    obtain ⟨f, finish, fails⟩ := advanceTimeout_fails h
    exact ⟨_, f, finish, fails⟩
  | cutterTimeout =>
    obtain ⟨f, finish, fails⟩ := cutterTimeout_fails h
    exact ⟨_, f, finish, fails⟩
  | _ => cases h

/-! ### What a failure leads to -/

theorem Follows.homing (h : Follows w t) : t.exp.homing = w.exp.homing := (congrArg Exposer.homing h.exp :)

theorem Follows.parks (h : Follows w t) : t.pass.map (fun p => p.park) = w.pass.map (fun p => p.park) := by
  have told := congrArg (Option.map (fun q : PassKind × Bool × Bool × Option Park => q.2.2.2)) h.pass
  rw [Option.map_map, Option.map_map] at told
  exact told

/-- What holds of the key, the state and the release of every take of `w` holds of those of `t`. -/
theorem Follows.forall_takes (h : Follows w t) {P : Key × TakeState × Option ReleaseReason → Prop}
    (holds : ∀ x ∈ w.takes, P (takeTold x)) : ∀ x ∈ t.takes, P (takeTold x) := by
  intro x hx
  have told : takeTold x ∈ w.takes.map takeTold := h.takes ▸ List.mem_map_of_mem hx
  obtain ⟨y, hy, same⟩ := List.mem_map.1 told
  exact same ▸ holds y hy

variable {e : Exposer} {f : Film} {finish : State → State}

/-- The state in which the failure is reported. -/
def failedState (s : State) (e : Exposer) (f : Film) : State := { s with exp := e, film := f }

/-- A fault taken (R150). -/
theorem Fails.taken (h : Fails s c m e f finish) (takes : s.takesFaults) :
    let w := takeFault (failedState s e f) .mechanism (some m)
    exec c s = done (finish w) ∧ faultTaken s w .mechanism (some m) ∧ w.exp = e ∧ w.film = f ∧ w.lamp = s.lamp := by
  obtain ⟨taken, exp, film, lamp⟩ := takeFault_taken (failedState s e f) .mechanism (some m)
  refine ⟨?_, taken, exp, film, lamp⟩
  rw [h.answers]
  exact congrArg (fun u => done (finish u)) (reportFault_takes (s := failedState s e f) takes _ _)

theorem faultMarked_told (s : State) (x : Take) : takeTold (faultMarked s x) = (x.key, x.state, (faultMarked s x).release) := by
  unfold faultMarked
  split <;> rfl

theorem faultPark_told (p : Pass) : passTold (faultPark p) = (p.kind, p.killing, p.cutAsked, (faultPark p).park) := by
  unfold faultPark
  split
  · rfl
  · split
    · rfl
    · split <;> rfl

/-- Without a cut in progress nothing goes on but the end of the line. -/
theorem Fails.ends (h : Fails s c m e f finish)
    (noCut : ∀ q, s.film.transport ≠ .trailing q ∧ s.film.transport ≠ .cutting q) : finish = endByFault := by
  refine h.goes.resolve_right fun ⟨⟨q, cuts⟩, _⟩ => ?_
  exact cuts.elim (noCut q).1 (noCut q).2

/-- A movement of a line, and a flash, end it unless a door has halted it. -/
theorem Fails.ends_line (h : Fails s c m e f finish)
    (ofLine : (∃ m, c = .moveTimeout m) ∨ c = .flashTimeout ∨ (c = .advanceTimeout ∧ s.film.transport = .advancing)) :
    finish = endByFault := by
  refine h.goes.resolve_right fun ⟨⟨q, cuts⟩, which, _⟩ => ?_
  rcases ofLine with ⟨v, rfl⟩ | rfl | ⟨rfl, advancing⟩
  · exact which.elim nofun nofun
  · exact which.elim nofun nofun
  · rw [advancing] at cuts
    exact cuts.elim nofun nofun

theorem faulted_ended (unhalted : ∀ l, e.cur = some l → l.halt = none) : e.faulted = lineEnded e := by
  refine if_neg fun halted => ?_
  obtain ⟨l, hl, door⟩ := (Option.any_eq_true ..).1 halted
  rw [unhalted l hl] at door
  cases door

theorem sound_ignored (sound : failedMechanism s c = none)
    (timeout : (∃ m, c = .moveTimeout m) ∨ c = .flashTimeout ∨ c = .advanceTimeout ∨ c = .cutterTimeout) :
    exec c s = .next (settle s) := by
  rcases timeout with ⟨v, rfl⟩ | rfl | rfl | rfl
  · cases v <;> exact answers_effect (if_neg fun moves => by simp [failedMechanism, moves] at sound)
  · exact answers_effect (if_neg fun flashes => by simp [failedMechanism, flashes] at sound)
  · refine answers_effect ?_
    cases transport : s.film.transport with
    | idle => simp only [advanceTimeout, transport]
    | cutting q => simp only [advanceTimeout, transport]
    | advancing => simp [failedMechanism, transport] at sound
    | trailing q => simp [failedMechanism, transport] at sound
  · refine answers_effect ?_
    cases transport : s.film.transport with
    | idle => simp only [cutterTimeout, transport]
    | advancing => simp only [cutterTimeout, transport]
    | trailing q => simp only [cutterTimeout, transport]
    | cutting q => simp [failedMechanism, transport] at sound

end Failures

/-- Settles O54: the failure found is reported in the station's state, and a line or a cut then ends. -/
theorem failedMovementsAreFaults : Obligations.FailedMovementsAreFaults := by
  refine ⟨fun s c => ⟨fun m failed room takes => ?fault, sound_ignored⟩, fun s c m failed => ?others⟩
  case fault =>
    obtain ⟨e, f, finish, fails⟩ := failed_fails failed
    obtain ⟨answers, taken, exp, film, lamp⟩ := fails.taken takes
    have follows := fails.follows (takeFault (failedState s e f) .mechanism (some m))
    generalize takeFault (failedState s e f) .mechanism (some m) = w at *
    obtain ⟨stop, pass, marked, told⟩ := taken
    obtain ⟨seat, lens, carriage, turret, lensTurret, flash, drive, cutter⟩ :=
      follows.shows (by rw [exp, film]; exact fails.shows')
    refine ⟨_, answers, follows.station.trans (by rw [stop]), follows.record.trans (by rw [stop]), ?told, ?pass, ?takes,
      fun noCut => ?taken, follows.remaining.trans (by rw [film]; exact fails.remaining), follows.lamp.trans lamp,
      seat, lens, carriage, turret, lensTurret, flash, drive, cutter, fun ofLine unhalted => ?ended⟩
    case told =>
      unfold noticed
      rw [follows.line]
      exact told room
    case pass =>
      refine follows.pass.trans ?_
      rw [pass, Option.map_map]
      exact congrArg (fun g => s.pass.map g) (funext faultPark_told)
    case takes =>
      refine follows.takes.trans ?_
      rw [marked, List.map_map]
      exact congrArg (fun g => s.takes.map g) (funext (faultMarked_told s))
    case taken =>
      rw [fails.ends noCut, endByFault_eq]
      exact ⟨stop, pass, marked, told⟩
    case ended =>
      rw [fails.ends_line ofLine, endByFault_eq, exp, faulted_ended (by rw [fails.cur]; exact unhalted)]
      exact ⟨rfl, rfl⟩
  case others =>
    obtain ⟨e, f, finish, fails⟩ := failed_fails failed
    have answers := fails.answers
    refine ⟨fun r fault rests hr => ?further, fun halt => ?halt, fun fault clearing => ?clearing⟩
    case further =>
      have reported := reportFault_further (s := failedState s e f) fault rests hr .mechanism (some m)
      have follows := fails.follows (reportFault (failedState s e f) .mechanism (some m))
      rw [reported] at follows
      refine ⟨_, answers.trans (answers_effect (congrArg finish reported)), ?_, ?_, ⟨?_, ?_⟩, fun room => ?_⟩
      · rw [follows.station, produce_line]
        exact fault
      · rw [follows.record, produce_line]
        rfl
      · refine follows.takes.trans ?_
        rw [produce_line]
        rfl
      · refine follows.parks.trans ?_
        rw [produce_line]
        rfl
      · unfold noticed
        rw [follows.line]
        refine produce_noticed ?_ _ _
        exact room
    case halt =>
      have reported := reportFault_halt (s := failedState s e f) halt .mechanism (some m)
      have follows := fails.follows (failedState s e f)
      exact ⟨_, answers.trans (answers_effect (congrArg finish reported)), follows.station.trans halt, follows.record,
        ⟨follows.takes, follows.parks⟩, follows.line, follows.lamp⟩
    case clearing =>
      have reported := reportFault_clearing (s := failedState s e f) fault clearing .mechanism m
      have follows := fails.follows (enterHalt (failedState s e f) m true)
      obtain ⟨stop, -, lamp, exp, -⟩ := enterHalt_state (failedState s e f) m true
      refine ⟨_, answers.trans (answers_effect (congrArg finish reported)), ?_, ?_, ?_, ?_, ?_, fun room => ?_, ?_⟩
      · rw [follows.station, stop]
      · rw [follows.clearing, stop]
      · rw [follows.record, stop]
        rfl
      · rw [follows.lamp, lamp]
        rfl
      · rw [follows.homing, exp]
      · unfold noticed
        rw [follows.line]
        exact enterHalt_told (s := failedState s e f) room m true
      · exact follows.forall_takes (P := fun q => q.2.2 = some .halt ∨ q.2.1 = .releasing ∨ q.2.1 = .stranded ∨
          (q.2.1 = .active ∧ ∃ p, s.pass = some p ∧ p.killing = true)) (enterHalt_released (failedState s e f) m true)

end Sys2Proof.Machine
end

section
/-! PROOFS. Moves that end, homing and its survey, and the start-up cut (R102 to R105, R119, R135, R152, R153, R202). -/

namespace Sys2Proof.Machine

/-! ### Moves that end (R103, R104, R119) -/

section Moves
variable {s : State}

theorem seatIndexEvent_move (other : s.exp.homing ≠ some .turret) (seat : Nat) : seatIndexEvent s seat = turretIndex s seat :=
  if_neg other

theorem lensEvent_move (other : s.exp.homing ≠ some .lens) (lens : Nat) : lensEvent s lens = lensIndexEvent s lens := if_neg other

theorem positionEvent_move (other : s.exp.homing ≠ some .carriage) (tabs : List Nat) (cassette : Fin 4) :
    positionEvent s tabs cassette = carriagePosition s := if_neg other

/-- The turret at its target: a MOUNT move then ends too (R103, R119). -/
theorem turretIndex_target {seat : Nat} (target : s.exp.turretMove = some seat) : turretIndex s seat =
    mountDone { s with exp := { s.exp with turretMove := none, turret := some seat } } := by
  simp only [turretIndex, target, if_true]
  rfl

theorem turretIndex_none (rests : s.exp.turretMove = none) (seat : Nat) : turretIndex s seat = s := by
  simp only [turretIndex, rests]

theorem lensIndexEvent_target {lens : Nat} (target : s.exp.lensMove = some lens) : lensIndexEvent s lens =
    { s with exp := { s.exp with lensMove := none, lens := some lens } } := by
  simp only [lensIndexEvent, target, if_true]
  rfl

theorem lensIndexEvent_none (rests : s.exp.lensMove = none) (lens : Nat) : lensIndexEvent s lens = s := by
  simp only [lensIndexEvent, rests]

theorem carriagePosition_some {p : Nat} (moves : s.exp.carriageMove = some p) : carriagePosition s =
    { s with exp := { s.exp with carriageMove := none, carriage := some p } } := by
  simp only [carriagePosition, moves]
  rfl

theorem carriagePosition_none (rests : s.exp.carriageMove = none) : carriagePosition s = s := by
  simp only [carriagePosition, rests]

end Moves

/-! ### The survey (R101, R102) -/

section Survey
variable {s : State}

/-- The Exposure Sequencer as a survey of these readings leaves it. -/
def Exposer.surveyed (e : Exposer) (tabs : List Nat) : Exposer :=
  { e with
    seats := Machine.surveyed tabs, order := surveyOrder e.order e.seats (Machine.surveyed tabs)
    cur := e.cur.map (fun c => if e.phase = .checking then { c with checked := false } else c) }

/-- The tables written, before the fonts now mounted are reported (R102). -/
def surveyWritten (s : State) (tabs : List Nat) : State :=
  { s with pins := { s.pins with tabs := tabs }, exp := s.exp.surveyed tabs }

theorem survey_eq (s : State) (tabs : List Nat) : survey s tabs = clearFontCall (returnCalled (surveyWritten s tabs)) := rfl

theorem surveyed_elsewhere {e : Exposer} (elsewhere : e.phase ≠ .checking) (tabs : List Nat) : e.surveyed tabs =
    { e with seats := Machine.surveyed tabs, order := surveyOrder e.order e.seats (Machine.surveyed tabs) } := by
  simp only [Exposer.surveyed, if_neg elsewhere, Option.map_id']

/-- A PARKED take whose font is on one of these seats goes back to QUEUED (R102). -/
def Take.returnedFor (seats : List Nat) (y : Take) : Take := if y.calledFor seats then y.queued else y

theorem returnedFor_key (seats : List Nat) (y : Take) : (y.returnedFor seats).key = y.key := by
  unfold Take.returnedFor
  split <;> rfl

theorem returnCalled_awake (awake : s.stop.station ≠ .standby) :
    returnCalled s = { s with takes := s.takes.map (Take.returnedFor s.exp.seats) } := by
  unfold returnCalled
  split
  · exact wake_awake (s := { s with takes := _ }) awake
  · next none =>
    have same : s.takes.map (Take.returnedFor s.exp.seats) = s.takes :=
      (List.map_congr_left fun y hy => if_neg fun called => none (List.any_eq_true.2 ⟨y, hy, called⟩)).trans (List.map_id _)
    rw [same]

theorem clearFontCall_elsewhere (elsewhere : s.stop.station ≠ .stopped ∨ s.stop.record = none) : clearFontCall s = s := by
  unfold clearFontCall
  split
  · next r hr =>
    refine ite_eq_right_iff.2 fun _ => ?_
    have running : s.stop.station ≠ .stopped := elsewhere.resolve_right fun none => by simp [none] at hr
    simp only [clearStop, hr, if_pos running]
  · rfl

/-- Outside STOPPED and STANDBY a survey writes its tables and returns takes to QUEUED. -/
theorem survey_awake (awake : s.stop.station ≠ .standby) (elsewhere : s.stop.station ≠ .stopped ∨ s.stop.record = none)
    (tabs : List Nat) : survey s tabs =
      { surveyWritten s tabs with takes := s.takes.map (Take.returnedFor (surveyed tabs)) } := by
  rw [survey_eq, returnCalled_awake (s := surveyWritten s tabs) awake]
  exact clearFontCall_elsewhere (s := { surveyWritten s tabs with takes := _ }) elsewhere

end Survey

/-! ### The end of homing (R105, R128, R152, R202) -/

section AfterHoming
variable {s : State}

/-- The homing has ended at the carriage's zero, and the survey is taken (R105). -/
def homed (s : State) : State := { s with exp := { s.exp with carriage := some 0, homing := none, phase := .idle } }

theorem positionEvent_homed (homes : s.exp.homing = some .carriage) (tabs : List Nat) (cassette : Fin 4) :
    positionEvent s tabs cassette = afterHoming (homed s) tabs cassette := if_pos homes

/-- The film count with the cassette code read at start-up (R128). -/
def Film.coded (f : Film) (code : Fin 4) : Film := if code = 0 then { f with remaining := 0, known := true } else f

/-- A start-up without takes, its survey and its cassette code taken. -/
def startSurveyed (s : State) (tabs : List Nat) (cassette : Fin 4) : State :=
  { s with
    pins := { s.pins with tabs := tabs, cassette := cassette }
    panel := { s.panel with filmShown := true }
    exp := { s.exp with
      carriage := some 0, homing := none, phase := .idle, seats := surveyed tabs
      order := surveyOrder s.exp.order s.exp.seats (surveyed tabs) }
    film := s.film.coded cassette }

theorem readCassette_eq (s : State) (code : Fin 4) : readCassette s code =
    { s with
      pins := { s.pins with cassette := code }, panel := { s.panel with filmShown := true }, film := s.film.coded code } := by
  unfold readCassette Film.coded
  split <;> rfl

theorem survey_homed_start (start : s.stop.station = .start) (noStop : s.stop.record = none) (noTake : s.takes = [])
    (tabs : List Nat) (cassette : Fin 4) : readCassette (survey (homed s) tabs) cassette = startSurveyed s tabs cassette := by
  have awake : (homed s).stop.station ≠ .standby := by
    show s.stop.station ≠ .standby
    rw [start]
    exact nofun
  have exp := surveyed_elsewhere (e := (homed s).exp) nofun tabs
  have takes : (homed s).takes.map (Take.returnedFor (surveyed tabs)) = s.takes := by
    show s.takes.map _ = s.takes
    rw [noTake]
    rfl
  rw [readCassette_eq, survey_awake awake (.inr noStop), surveyWritten, exp, takes]
  rfl

theorem coded_galley (f : Film) (code : Fin 4) : (f.coded code).galley = f.galley := by
  unfold Film.coded
  split <;> rfl

/-- In START the ANNOUNCE follows, or the cut of a galley left open (R202). -/
theorem afterHoming_start (start : s.stop.station = .start) (noStop : s.stop.record = none) (noTake : s.takes = [])
    (tabs : List Nat) (cassette : Fin 4) : afterHoming (homed s) tabs cassette =
      if s.film.galley.isSome then
        askCut (setStage (startSurveyed s tabs cassette) .cut) { asker := .reset, spoiled := none }
      else announce (startSurveyed s tabs cassette) := by
  have read := survey_homed_start start noStop noTake tabs cassette
  have station : (survey (homed s) tabs).stop.station = .start := by
    have same := congrArg (fun u : State => u.stop) read
    rw [readCassette_eq] at same
    exact (congrArg StopControl.station same).trans start
  have galley : (startSurveyed s tabs cassette).film.galley = s.film.galley := coded_galley _ _
  simp only [afterHoming, station, if_true, read, galley]

theorem announce_stage (s : State) : announcement (setStage s .announce) = announcement s := rfl

/-- After CLEAR the release marks of the fault are gone, and the mechanisms usable (R152). -/
def clearedState (s : State) (tabs : List Nat) : State :=
  withdrawFaultMarks
    { surveyWritten (homed s) tabs with
      takes := s.takes.map (Take.returnedFor (surveyed tabs))
      stop := { s.stop with record := none, clearing := false }
      film := { s.film with transport := .idle, waiting := [], driveOk := true, cutterOk := true } }

theorem afterHoming_clear (fault : s.stop.station = .fault) (clearing : s.stop.clearing = true) (tabs : List Nat)
    (cassette : Fin 4) : afterHoming (homed s) tabs cassette = enterRun (clearedState s tabs) := by
  have awake : (homed s).stop.station ≠ .standby := by
    show s.stop.station ≠ .standby
    rw [fault]
    exact nofun
  have notStopped : (homed s).stop.station ≠ .stopped := by
    show s.stop.station ≠ .stopped
    rw [fault]
    exact nofun
  have notStart : ¬ s.stop.station = .start := by
    rw [fault]
    exact nofun
  unfold afterHoming
  dsimp only
  rw [survey_awake awake (.inl notStopped)]
  exact (if_neg notStart).trans (if_pos clearing)

theorem withdrawFaultMarks_keys (s : State) : (withdrawFaultMarks s).takes.map (fun x => x.key) = s.takes.map (fun x => x.key) := by
  unfold withdrawFaultMarks
  rw [List.map_map]
  refine List.map_congr_left fun x _ => ?_
  simp only [Function.comp_apply]
  split <;> rfl

/-- At an entry to RUN with no stop pending the reason of a take STRANDED for a fault is gone (R195). -/
theorem examined_fault_mark {u : State} (run : u.stop.station = .run) (noStop : u.stop.record = none) {z : Take}
    (onlyReleased : z.release = some .fault → z.state = .releasing ∨ z.state = .stranded)
    (marked : (examined u z).release = some .fault) : (examined u z).state = .releasing := by
  by_cases due : z.state = .stranded ∧ strandReasonGone u z
  · rw [examined_returned due.1 due.2] at marked
    cases marked
  · have stays := examined_stays (s := u) (not_and_or.1 due)
    rw [stays] at marked ⊢
    refine (onlyReleased marked).resolve_right fun stranded => due ⟨stranded, run, ?_⟩
    rw [marked]
    exact noStop

/-- Of the marks of the fault that of a take RELEASING alone is left (R152, R195). -/
theorem enterRun_fault_marks (noStop : s.stop.record = none) :
    ∀ x ∈ (enterRun (withdrawFaultMarks s)).takes, x.release = some .fault → x.state = .releasing := by
  intro x hx marked
  rw [enterRun_takes] at hx
  obtain ⟨z, hz, rfl⟩ := List.mem_map.1 hx
  obtain ⟨y, -, rfl⟩ := List.mem_map.1 hz
  refine examined_fault_mark ?_ ?_ (fun fault => ?_) marked
  · rfl
  · exact noStop
  · by_cases withdrawn : y.release = some .fault ∧ y.state ≠ .releasing ∧ y.state ≠ .stranded
    · rw [if_pos withdrawn] at fault
      cases fault
    · rw [if_neg withdrawn] at fault ⊢
      exact Decidable.byContradiction fun other => withdrawn ⟨fault, not_or.1 other⟩

end AfterHoming

/-! ### The start-up cut (R135, R153, R202) -/

section StartCut
variable {s : State}

/-- Nothing of the start-up's cut is left (R202, step 5). -/
def startCutEnded (s : State) : Prop :=
  s.panel.stage = .cut ∧ s.film.galley = none ∧ s.film.transport = .idle ∧ s.film.waiting = []

theorem startCutDone_none (goesOn : ¬ startCutEnded s) : startCutDone s = none := if_neg goesOn

theorem startCutDone_announces (ended : startCutEnded s) : startCutDone s = some (announce s) := if_pos ended

/-- A muted station drops the notice of its film, and has nothing to announce (R169). -/
theorem dueFilmNotice_muted (muted : s.line.mute = true) : (dueFilmNotice s).stop = s.stop ∧
    (dueFilmNotice s).panel = { s.panel with filmNoticeDue := false } ∧ (dueFilmNotice s).line.queue = s.line.queue := by
  unfold dueFilmNotice
  cases due : s.panel.filmNoticeDue with
  | false =>
    rw [if_neg nofun]
    exact ⟨rfl, by rw [← due], rfl⟩
  | true =>
    rw [if_pos rfl]
    dsimp only
    split
    · refine ⟨by rw [produce_line], by rw [produce_line], ?_⟩
      simp [produce, muted]
    · exact ⟨rfl, rfl, rfl⟩

theorem announce_muted_runs (muted : s.line.mute = true) (sound : s.panel.startFault = none) :
    announce s = enterRun (setStage (dueFilmNotice (setStage s .announce)) .done) :=
  (if_pos muted).trans (announceGone_run (s := setStage s .announce) rfl sound)

/-- The first fault of a start-up is kept (R153, Log 30). -/
def faultKept (s : State) (m : Mech) : State :=
  { s with panel := { s.panel with startFault := s.panel.startFault.or (some m) } }

theorem reportFault_start (start : s.stop.station = .start) (kind : StopKind) (m : Mech) :
    reportFault s kind (some m) = faultKept s m := by
  simp only [reportFault, start, faultKept]
  cases s.panel.startFault <;> rfl

theorem cutterTimeout_cutting {c : CutRequest} (cutting : s.film.transport = .cutting c) : cutterTimeout s = finishCut
    (reportFault { s with film := { s.film with cutterOk := false } } .mechanism (some .cutter)) c true := by
  rw [cutterTimeout, cutting]

theorem advanceTimeout_trailing {c : CutRequest} (trailing : s.film.transport = .trailing c) : advanceTimeout s = toCutter
    (reportFault { s with film := { s.film with driveOk := false } } .mechanism (some .film)) c := by
  rw [advanceTimeout, trailing]

/-- A cut done is told to whoever asked for it (R134). -/
theorem cutDone_eq (s : State) (c : CutRequest) : cutDone s c =
    { s with
      pass := s.pass.map (fun p => if c.asker ∈ [CutAsker.endCut, .park, .kill] then { p with cutDone := true } else p)
      stop := { s.stop with spoilCut := s.stop.spoilCut && decide (c.asker ≠ .spoil) } } := by
  cases asker : c.asker <;> simp [cutDone, asker, State.modPass]

/-- The flags a cut gives its galley, uncut or not (R134, R135). -/
theorem cutFlags_eq (c : CutRequest) (f : GalleyFlags) (uncut : Bool) :
    ({ c.flags f with uncut := (c.flags f).uncut || uncut } : GalleyFlags) =
      { f with
        complete := f.complete || decide (c.asker = .endCut)
        continuedTo := f.continuedTo || decide (c.asker ∈ [CutAsker.park, .operator, .spoil])
        spoiled := if c.asker = .spoil then c.spoiled else f.spoiled
        killed := f.killed || decide (c.asker = .kill)
        reset := f.reset || decide (c.asker = .reset)
        uncut := f.uncut || uncut } := by
  cases asker : c.asker <;> simp [CutRequest.flags, asker]

/-- A cut that ends closes the open galley, and is told (R134). -/
theorem finishCut_galley {c : CutRequest} (ofGalley : c.asker ≠ .blank) {g : Galley} (hg : s.film.galley = some g) (uncut : Bool) :
    finishCut s c uncut = galleyCut s c g uncut := by
  have closed := closeGalley_open (s := { s with film := { s.film with transport := .idle } }) hg
    (fun f => { c.flags f with uncut := (c.flags f).uncut || uncut })
  unfold finishCut
  dsimp only
  rw [if_neg ofGalley, closed, cutDone_eq, cutFlags_eq]
  rfl

end StartCut

/-- Settles O51: each event by whether its mechanism moves or homes, and the start-up cut by what is left of it. -/
theorem movesAndHomingComplete : Obligations.MovesAndHomingComplete := by
  refine ⟨fun s seat lens tabs cassette => ⟨fun other target elsewhere => answers_effect ?turret,
      fun other target mounting => answers_effect ?mount,
      fun other rests => answers_effect ((seatIndexEvent_move other _).trans (turretIndex_none rests _)),
      fun other target => answers_effect ((lensEvent_move other _).trans (lensIndexEvent_target target)),
      fun other rests => answers_effect ((lensEvent_move other _).trans (lensIndexEvent_none rests _)),
      fun other p moves => answers_effect ((positionEvent_move other _ _).trans (carriagePosition_some moves)),
      fun other rests => answers_effect ((positionEvent_move other _ _).trans (carriagePosition_none rests))⟩,
    fun s tabs cassette => ⟨fun homes => answers_effect (if_pos homes), fun homes => answers_effect (if_pos homes),
      fun homes start noStop noTake noGalley room => answers_effect ?announces, fun homes fault clearing => ?clears⟩,
    by simp [reactions], fun s tabs cassette homes start noStop noTake galley => answers_effect ?cuts,
    fun s => ⟨startCutDone_none, fun ended room => ?sent, fun ended muted sound start => ?muted,
      fun c g start cutting reset hg => ?uncut, fun c start trailing cutterOk => answers_effect ?goesOn⟩⟩
  case turret =>
    exact ((seatIndexEvent_move other _).trans (turretIndex_target target)).trans (if_neg elsewhere)
  case mount =>
    exact ((seatIndexEvent_move other _).trans (turretIndex_target target)).trans (if_pos mounting)
  case announces =>
    rw [positionEvent_homed homes, afterHoming_start start noStop noTake, noGalley, Option.isSome_none, if_neg nofun,
      announce_sends (s := startSurveyed s tabs cassette) room]
    rfl
  case clears =>
    refine ⟨_, answers_effect ((positionEvent_homed homes tabs cassette).trans (afterHoming_clear fault clearing tabs cassette)),
      rfl, rfl, rfl, rfl, rfl, rfl, rfl, rfl, rfl, ?_, enterRun_fault_marks rfl⟩
    rw [enterRun_keys, clearedState, withdrawFaultMarks_keys, List.map_map]
    exact List.map_congr_left fun x _ => returnedFor_key _ x
  case cuts =>
    have stands : (startSurveyed s tabs cassette).film.galley.isSome = true := by
      rw [show (startSurveyed s tabs cassette).film.galley = s.film.galley from coded_galley _ _]
      exact galley
    rw [positionEvent_homed homes, afterHoming_start start noStop noTake, if_pos galley,
      askCut_waits (s := setStage (startSurveyed s tabs cassette) .cut) (.inl stands)]
    have waiting : (s.film.coded cassette).waiting = s.film.waiting := by
      unfold Film.coded
      split <;> rfl
    show ({ setStage (startSurveyed s tabs cassette) .cut with
      film := { s.film.coded cassette with waiting := (s.film.coded cassette).waiting ++ [_] } } : State) = _
    rw [waiting]
    rfl
  case sent =>
    exact (startCutDone_announces ended).trans (congrArg some (announce_sends room))
  case muted =>
    obtain ⟨stop, panel, queue⟩ := dueFilmNotice_muted (s := setStage s .announce) muted
    refine ⟨_, (startCutDone_announces ended).trans (congrArg some (announce_muted_runs muted sound)), ?_, ?_, queue⟩
    · exact congrArg (fun u : StopControl => { u with station := .run }) stop
    · exact congrArg (fun u : Panel => { u with stage := .done }) panel
  case uncut =>
    have ofGalley : c.asker ≠ .blank := by
      rw [reset]
      exact nofun
    have ends : cutterTimeout s = galleyCut (faultKept { s with film := { s.film with cutterOk := false } } .cutter) c g true := by
      rw [cutterTimeout_cutting cutting, reportFault_start (s := { s with film := { s.film with cutterOk := false } }) start]
      refine finishCut_galley ofGalley ?_ true
      exact hg
    refine ⟨_, answers_effect ends, ?_⟩
    simp [galleyCut, cutTold, faultKept, reset]
  case goesOn =>
    rw [advanceTimeout_trailing trailing, reportFault_start (s := { s with film := { s.film with driveOk := false } }) start]
    exact if_pos cutterOk

end Sys2Proof.Machine
end

section
/-! PROOFS. Film Transport's service: advances begun, refused and done, and cuts with their trailer and their cutter (R111, R129 to
R134, R137). -/

namespace Sys2Proof.Machine

/-! ### A line that ends with a stop (R108 to R110, R131) -/

section EndsWithStop
variable {s : State} {r : LineRecord}

theorem recordStop_leaves (s : State) (x : Take) (line : Option Nat) (kind : StopKind) (font : Option Nat) (door : Option Door)
    (toHold : Bool) : let t := recordStop s x line kind font door toHold
    t.exp = s.exp ∧ t.store = s.store ∧ t.film = s.film := by
  refine ⟨?_, ?_, recordStop_film ..⟩
  all_goals
    unfold recordStop
    dsimp only
    split
    · cases line <;> rfl
    · split <;> (rw [produce_line]; cases line <;> rfl)

/-- A stop raised leaves the line in exposure, the store and the film alone. -/
theorem raiseStop_leaves (s : State) (kind : StopKind) (font : Option Nat) (door : Option Door) :
    let t := raiseStop s kind font door
    t.exp = s.exp ∧ t.store = s.store ∧ t.film = s.film := by
  rcases raiseStop_cases s kind font door with same | ⟨x, -, e⟩
  · rw [same]
    exact ⟨rfl, rfl, rfl⟩
  · rw [e]
    exact recordStop_leaves ..

theorem endExposure_stops (s : State) (r : LineRecord) (kind : StopKind) (font : Option Nat) (door : Option Door) :
    endsWithStop s (raiseStop (endExposure s) kind font door) r kind font door := by
  obtain ⟨exp, store, -⟩ := raiseStop_leaves (endExposure s) kind font door
  refine ⟨exp, store, fun x => ⟨fun may => ?recorded, fun third => ?parked⟩⟩
  case recorded =>
    obtain ⟨recorded, -, -, -, told⟩ := raiseStop_recorded (s := endExposure s) may kind font door
    refine ⟨recorded, fun room => ?_⟩
    cases kind <;> exact told room
  case parked =>
    rw [raiseStop_parks (s := endExposure s) third kind font door]
    exact ⟨rfl, rfl, rfl, rfl⟩

end EndsWithStop

/-! ### The film count lowered (R129) -/

section Count
variable {s : State} {n : Nat}

/-- A new count changes the film, and the line by its notice alone. -/
theorem setFilm_eq (s : State) (n : Nat) (known : Bool) : setFilm s n known =
    { s with
      line := (setFilm s n known).line
      film := { s.film with remaining := n, known := known, lowNotified := s.film.lowNotified || decide (n < 57000) } } := by
  by_cases told : n < 57000 ∧ s.film.lowNotified = false
  · have e : setFilm s n known = produce
        { s with film := { s.film with remaining := n, known := known, lowNotified := true } } s.activeKey (.filmLow n known) :=
      if_pos told
    rw [e, produce_line, told.2, Bool.false_or, decide_eq_true told.1]
  · have e : setFilm s n known = { s with film := { s.film with remaining := n, known := known } } := if_neg told
    have same : (s.film.lowNotified || decide (n < 57000)) = s.film.lowNotified := by
      cases notified : s.film.lowNotified <;> simp_all
    rw [e, same]

theorem setFilm_quiet (quiet : 57000 ≤ n ∨ s.film.lowNotified = true) (known : Bool) : (setFilm s n known).line = s.line := by
  rw [setFilm, Config.lowFilm, if_neg]
  rintro ⟨low, untold⟩
  exact quiet.elim (fun high => absurd low (Nat.not_lt.2 high)) fun told => by simp [untold] at told

theorem setFilm_told (low : n < 57000) (untold : s.film.lowNotified = false) (room : hasRoom s) (known : Bool) :
    (setFilm s n known).line = { s.line with
      queue := insertFrame (.notice (s.active?.map (fun x => x.key)) (.filmLow n known)) s.line.queue } := by
  rw [setFilm_low low untold room]

theorem setFilm_film (s : State) (n : Nat) (known : Bool) : (setFilm s n known).film =
    { s.film with remaining := n, known := known, lowNotified := s.film.lowNotified || decide (n < 57000) } := by
  rw [setFilm_eq]

theorem setFilm_exp (s : State) (n : Nat) (known : Bool) : (setFilm s n known).exp = s.exp := by rw [setFilm_eq]

theorem setFilm_comp (s : State) (n : Nat) (known : Bool) : (setFilm s n known).comp = s.comp := by rw [setFilm_eq]

end Count

/-! ### An advance begun (R131, R132, R133) -/

section Advance
variable {s : State} {c : Exposure} {r : LineRecord} {x : Take} {l : Nat} {q : List FilmRequest}

theorem dropRequest_eq {f : FilmRequest} (waits : s.film.waiting = f :: q) :
    dropRequest s = { s with film := { s.film with waiting := q } } := by
  rw [dropRequest, waits]
  rfl

theorem serveFilm_refused {line : Nat} (idle : s.film.transport = .idle) (waits : s.film.waiting = .advance line l :: q)
    {why : AdvanceRefusal} (refused : refuseAdvance (dropRequest s) l = some why) :
    serveFilm s = some (advanceRefused (dropRequest s) why) := by
  simp only [serveFilm, idle, waits, refused]

theorem serveFilm_begins {line : Nat} (idle : s.film.transport = .idle) (waits : s.film.waiting = .advance line l :: q)
    (act : s.active? = some x) (granted : refuseAdvance (dropRequest s) l = none) :
    serveFilm s = some (let u := beginAdvance (dropRequest s) x.key line l; if l = 0 then advanceComplete u else u) := by
  have key : s.activeKey = some x.key := congrArg (Option.map (fun t : Take => t.key)) act
  simp only [serveFilm, idle, waits, granted, key, Option.getD_some]

theorem serveFilm_cut {k : CutRequest} (idle : s.film.transport = .idle) (waits : s.film.waiting = .cut k :: q) :
    serveFilm s = some (beginCut (dropRequest s) k) := by
  simp only [serveFilm, idle, waits]

/-- The film check stands first among the refusals (R131, Log 38). -/
theorem refuseAdvance_film (short : s.film.remaining < 5 * l + 1440) : refuseAdvance s l = some .film :=
  if_pos (decide_eq_false (Nat.not_le.2 short))

theorem checks_of_le (enough : 5 * l + 1440 ≤ s.film.remaining) : ¬ s.film.checks l = false := by
  rw [show s.film.checks l = true from decide_eq_true enough]
  exact nofun

theorem manifestFull_iff (f : Film) : f.manifestFull = true ↔ f.galley = none ∧ 64 ≤ f.manifest.length := by
  rw [Film.manifestFull, Bool.and_eq_true, Option.isNone_iff_eq_none, decide_eq_true_iff, Config.manifestRecords]

/-- Next comes the take-up door, then the full manifest, and the missing drive last (R131, Log 38). -/
theorem refuseAdvance_checked (enough : 5 * l + 1440 ≤ s.film.remaining) : refuseAdvance s l =
    if s.film.galley = none ∧ s.pins.takeupOpen = true then some .door
    else if s.film.galley = none ∧ 64 ≤ s.film.manifest.length then some .takeup
    else if s.film.driveOk = false then some .mechanism else none := by
  simp only [refuseAdvance, if_neg (checks_of_le enough), manifestFull_iff, Bool.and_eq_true, Option.isNone_iff_eq_none]

/-- The galley an advance goes on in: the open one, or the one it opens (R133). -/
def Film.galleyFor (f : Film) (key : Key) (line : Nat) : Galley :=
  f.galley.getD
    { key := key, seq := f.nextSeq.getD 1, first := line, last := none, length := 0
      flags := { complete := false, continuedFrom := decide (2 ≤ f.nextSeq.getD 1), continuedTo := false
                 spoiled := none, killed := false, reset := false, uncut := false } }

/-- The Compositor as an advance leaves it: its context takes the number of a galley opened (R16). -/
def Compositor.toldOf (comp : Compositor) (f : Film) (seq : Nat) : Compositor :=
  if f.galley.isSome then comp else { comp with ctx := comp.ctx.map (fun y => { y with galleySeq := seq }) }

/-- The galley is open for the line (R133). -/
def galleyOpened (s : State) (key : Key) (line : Nat) : State :=
  { s with
    film := { s.film with galley := some (s.film.galleyFor key line) }
    comp := s.comp.toldOf s.film (s.film.galleyFor key line).seq }

theorem openGalley_if (s : State) (key : Key) (line : Nat) :
    (if s.film.galley.isNone then openGalley s key line else s) = galleyOpened s key line := by
  cases galley : s.film.galley with
  | none =>
    simp only [Option.isNone_none, if_true, galleyOpened, Film.galleyFor, Compositor.toldOf, galley, Option.getD_none]
    rfl
  | some g =>
    simp only [Option.isNone_some, Bool.false_eq_true, if_false, galleyOpened, Film.galleyFor, Compositor.toldOf, galley,
      Option.getD_some, Option.isSome_some, if_true]
    rw [← galley]

theorem beginAdvance_none (s : State) (key : Key) (line : Nat) : beginAdvance s key line 0 = galleyOpened s key line := by
  rw [beginAdvance, openGalley_if]
  rfl

/-- The film moves by 5 steps a half-point (R132). -/
theorem beginAdvance_moves (pos : 0 < l) (key : Key) (line : Nat) :
    let u := galleyOpened s key line
    let w := setFilm u (s.film.remaining - 5 * l) s.film.known
    beginAdvance s key line l =
      { w with
        film := { w.film with
          galley := w.film.galley.map (fun g => { g with length := g.length + 5 * l }), transport := .advancing } } := by
  rw [beginAdvance, openGalley_if]
  exact if_neg (Nat.ne_of_gt pos)

theorem exposed_of (exposed : exposing s c r) : s.exposed? = some r := by
  rw [State.exposed?, exposed.1]
  exact exposed.2

/-- A line enters SCANNING with nothing flashed (R111, R112). -/
theorem startScan_exposing (exposed : exposing s c r) : startScan s = { s with
    exp := { s.exp with
      phase := .scanning, cur := some { c with flashed := [], groups := scanOrder s.exp r, used := [] } } } := by
  simp only [startScan, exposed_of exposed, modExp, exposed.1, Option.map_some]

/-- A line whose advance is complete goes to its scanner (R111). -/
theorem advanceComplete_scans (advancing : s.exp.phase = .advancing) (exposed : exposing s c r) (free : c.halt = none) :
    advanceComplete s = { s with
      exp := { s.exp with
        mark := some c.line, phase := .scanning
        cur := some { c with flashed := [], groups := scanOrder s.exp r, used := [] } } } := by
  have scans : advanceComplete s = startScan (modExp s (fun e => { e with mark := some c.line })) := by
    simp only [advanceComplete, exposed.1, advancing, if_true, free, Option.isSome_none, Bool.false_eq_true, if_false]
  exact scans.trans (startScan_exposing (s := modExp s (fun e => { e with mark := some c.line })) exposed)

/-- A line that a door has halted is only marked advanced (R111, R116). -/
theorem advanceComplete_halted (advancing : s.exp.phase = .advancing) (cur : s.exp.cur = some c) (halted : c.halt.isSome = true) :
    advanceComplete s = { s with exp := { s.exp with mark := some c.line } } := by
  simp only [advanceComplete, cur, advancing, if_true, halted, modExp]

end Advance

/-! ### A cut begun and ended (R134, R135) -/

section Cut
variable {s : State} {c : CutRequest}

/-- A cut of blank film, or with no galley open any more, closes none (R134). -/
theorem finishCut_told (noGalley : c.asker = .blank ∨ s.film.galley = none) (uncut : Bool) : finishCut s c uncut = cutTold s c := by
  have same : (if c.asker = .blank then ({ s with film := { s.film with transport := .idle } } : State)
      else closeGalley { s with film := { s.film with transport := .idle } }
        (fun f => { c.flags f with uncut := (c.flags f).uncut || uncut })) = { s with film := { s.film with transport := .idle } } := by
    refine ite_eq_left_iff.2 fun ofGalley => ?_
    simp only [closeGalley, noGalley.resolve_left ofGalley]
  unfold finishCut
  dsimp only
  rw [same, cutDone_eq]
  rfl

theorem cutDone_told {f : Film} (s : State) (c : CutRequest) (rest : f.transport = .idle) (film : s.film = f) :
    cutDone s c = cutTold s c := by
  rw [cutDone_eq, cutTold, film, ← rest]

theorem beginCut_alone (noGalley : s.film.galley = none) (ofGalley : c.asker ≠ .blank) : beginCut s c = cutDone s c :=
  if_pos ⟨by rw [noGalley]; rfl, ofGalley⟩

/-- With no film to move, or no drive, a cut goes to the cutter at once (R134). -/
theorem beginCut_cuts (stands : s.film.galley.isSome = true ∨ c.asker = .blank)
    (still : s.film.driveOk = false ∨ s.film.remaining = 0) : beginCut s c = toCutter s c := by
  have goes : ¬ (s.film.galley.isNone ∧ c.asker ≠ .blank) := fun ⟨noGalley, ofGalley⟩ =>
    stands.elim (fun open_ => by simp [Option.isNone_iff_eq_none.1 noGalley] at open_) ofGalley
  refine (if_neg goes).trans ?_
  cases drive : s.film.driveOk with
  | false => exact if_neg nofun
  | true =>
    have empty : s.film.remaining = 0 := still.resolve_left fun off => by simp [drive] at off
    exact (if_pos rfl).trans (if_pos (by rw [empty]; rfl))

/-- The trailer moves, at most the film remaining (R134). -/
theorem beginCut_trails (stands : s.film.galley.isSome = true ∨ c.asker = .blank) (drive : s.film.driveOk = true)
    (film : 0 < s.film.remaining) : beginCut s c =
      let w := setFilm s (s.film.remaining - 1440) s.film.known
      { w with
        film := { w.film with
          galley := w.film.galley.map (fun g => { g with length := g.length + min 1440 s.film.remaining })
          transport := .trailing c } } := by
  have goes : ¬ (s.film.galley.isNone ∧ c.asker ≠ .blank) := fun ⟨noGalley, ofGalley⟩ =>
    stands.elim (fun open_ => by simp [Option.isNone_iff_eq_none.1 noGalley] at open_) ofGalley
  have moves : ¬ min Config.trailer s.film.remaining = 0 := by
    unfold Config.trailer
    omega
  have left : s.film.remaining - min Config.trailer s.film.remaining = s.film.remaining - 1440 := by
    unfold Config.trailer
    omega
  refine (if_neg goes).trans ((if_pos drive).trans ((if_neg moves).trans ?_))
  dsimp only
  rw [left]
  generalize setFilm s (s.film.remaining - 1440) s.film.known = w
  rfl

theorem toCutter_cuts (cutter : s.film.cutterOk = true) :
    toCutter s c = { s with film := { s.film with transport := .cutting c } } := if_pos cutter

theorem toCutter_uncut (cutter : s.film.cutterOk = false) : toCutter s c = finishCut s c true :=
  if_neg (by rw [cutter]; exact nofun)

end Cut

/-! ### The film's events (R132, R134) -/

section Events
variable {s : State} {c : CutRequest}

theorem advanceDone_advancing (advancing : s.film.transport = .advancing) :
    advanceDone s = advanceComplete { s with film := { s.film with transport := .idle } } := by
  simp only [advanceDone, advancing]

theorem advanceDone_trailing (trailing : s.film.transport = .trailing c) : advanceDone s = toCutter s c := by
  simp only [advanceDone, trailing]

theorem advanceDone_rests (rests : s.film.transport ≠ .advancing) (noTrailer : ∀ c, s.film.transport ≠ .trailing c) :
    advanceDone s = s := by
  unfold advanceDone
  split
  · next moves => exact absurd moves rests
  · next trails => exact absurd trails (noTrailer _)
  · rfl

theorem cutEvent_cutting (cutting : s.film.transport = .cutting c) : cutEvent s = finishCut s c false := by
  simp only [cutEvent, cutting]

theorem cutEvent_rests (noCut : ∀ c, s.film.transport ≠ .cutting c) : cutEvent s = s := by
  unfold cutEvent
  split
  · next cuts => exact absurd cuts (noCut _)
  · rfl

theorem serveFilm_rests (rests : s.film.transport ≠ .idle ∨ s.film.waiting = []) : serveFilm s = none := by
  unfold serveFilm
  split
  · next idle waits => exact absurd rests (by simp [idle, waits])
  · next idle waits => exact absurd rests (by simp [idle, waits])
  · rfl

/-- Each end of a cut: the trailer's with no cutter, and the cut event (R134). -/
theorem cut_ends {event : Instr} {uncut : Bool}
    (ends : (event = .advanceDone ∧ s.film.transport = .trailing c ∧ s.film.cutterOk = false ∧ uncut = true) ∨
      (event = .cutEvent ∧ s.film.transport = .cutting c ∧ uncut = false)) :
    exec event s = .next (settle (finishCut s c uncut)) := by
  rcases ends with ⟨rfl, trailing, cutter, rfl⟩ | ⟨rfl, cutting, rfl⟩
  · exact answers_effect ((advanceDone_trailing trailing).trans (toCutter_uncut cutter))
  · exact answers_effect (cutEvent_cutting cutting)

end Events

/-- Settles O57: each event by what moves, and each request that Film Transport begins by what stands against it. -/
theorem filmMovementsComplete : Obligations.FilmMovementsComplete := by
  refine ⟨fun s => ⟨fun c r moves advancing cur free found => answers_effect ?scans,
      fun c moves advancing cur halted => answers_effect ?halted,
      fun rests noTrailer => answers_effect (advanceDone_rests rests noTrailer),
      fun noCut => answers_effect (cutEvent_rests noCut),
      fun c => ⟨fun trailing cutter => answers_effect ((advanceDone_trailing trailing).trans (toCutter_cuts cutter)),
        fun event uncut ends => ⟨fun g ofGalley hg => ?closes, fun noGalley => ?closesNone⟩⟩⟩,
    by simp [reactions], fun s => serveFilm_rests, ?advances, ?cuts⟩
  case scans =>
    refine (advanceDone_advancing moves).trans (advanceComplete_scans ?_ ?_ free)
    · exact advancing
    · exact ⟨cur, found⟩
  case halted =>
    exact (advanceDone_advancing moves).trans (advanceComplete_halted (s := { s with film := _ }) advancing cur halted)
  case closes => rw [cut_ends ends, finishCut_galley ofGalley hg]
  case closesNone => rw [cut_ends ends, finishCut_told noGalley]
  case advances =>
    intro s c r x l q idle waits advancing exposed free act opens rest galley comp
    have dropped : dropRequest s = { s with film := rest } := dropRequest_eq waits
    have refused {why : AdvanceRefusal} (h : refuseAdvance { s with film := rest } l = some why) :
        serveFilm s = some (advanceRefused { s with film := rest } why) :=
      dropped ▸ serveFilm_refused idle waits (dropped ▸ h)
    have stops {why kind door} (h : refuseAdvance { s with film := rest } l = some why)
        (e : advanceRefused { s with film := rest } why = raiseStop (endExposure { s with film := rest }) kind none door) :
        ∃ t, serveFilm s = some t ∧ endsWithStop s t r kind none door ∧ t.film = rest := by
      obtain ⟨-, -, film⟩ := raiseStop_leaves (endExposure { s with film := rest }) kind none door
      exact ⟨_, (refused h).trans (congrArg some e), endExposure_stops { s with film := rest } r kind none door, film⟩
    refine ⟨fun short => stops (refuseAdvance_film (s := { s with film := rest }) short) rfl, fun enough => ?_⟩
    have checked := refuseAdvance_checked (s := { s with film := rest }) (l := l) enough
    refine ⟨fun opening door => stops (checked.trans (if_pos ⟨opening, door⟩)) rfl, fun opening shut full => ?full,
      fun ready => ?_⟩
    case full =>
      refine stops (checked.trans ((if_neg fun h => ?_).trans (if_pos ⟨opening, full⟩))) rfl
      have isOpen : s.pins.takeupOpen = true := h.2
      rw [shut] at isOpen
      cases isOpen
    have driven : refuseAdvance { s with film := rest } l = if s.film.driveOk = false then some .mechanism else none := by
      refine checked.trans ((if_neg ?_).trans (if_neg ?_))
      · rintro ⟨opening, door⟩
        refine ready.elim (· opening) fun h => ?_
        have shut : s.pins.takeupOpen = true := door
        rw [h.1] at shut
        cases shut
      · rintro ⟨opening, full⟩
        exact ready.elim (· opening) fun h => absurd h.2 (Nat.not_lt.2 full)
    have begins (drive : s.film.driveOk = true) : serveFilm s = some
        (let u := beginAdvance { s with film := rest } x.key r.number l; if l = 0 then advanceComplete u else u) := by
      refine dropped ▸ serveFilm_begins idle waits act (dropped ▸ driven.trans (if_neg ?_))
      rw [drive]
      exact nofun
    refine ⟨fun noDrive station => ?noDrive, fun drive pos => ?moves, fun drive zero => ?zero⟩
    case noDrive =>
      have takes : ({ s with film := rest } : State).takesFaults := station.elim .inl fun h => .inr (.inr h)
      obtain ⟨⟨stop, -⟩, exp, film, -⟩ := endByFault_taken (kind := .mechanism) (mech := some .film) takes
      have unhalted : ∀ d, s.exp.cur = some d → d.halt = none := by
        rintro d hd
        rw [exposed.1] at hd
        cases hd
        exact free
      refine ⟨_, _, refused (driven.trans (if_pos noDrive)), film, exp.trans (faulted_ended unhalted),
        congrArg StopControl.station stop, congrArg StopControl.record stop, rfl, rfl⟩
    case moves =>
      have moved := begins drive
      dsimp only at moved
      rw [if_neg (Nat.ne_of_gt pos), beginAdvance_moves pos] at moved
      refine ⟨_, moved, setFilm_exp .., setFilm_comp .., fun low untold room => ?_, fun quiet => ?_, ?_⟩
      · have told := setFilm_told (s := galleyOpened { s with film := rest } x.key r.number) low untold room s.film.known
        have key : (galleyOpened { s with film := rest } x.key r.number).active?.map (fun x => x.key) = some x.key :=
          congrArg (Option.map (fun x : Take => x.key)) act
        rw [key] at told
        exact told
      · exact setFilm_quiet (s := galleyOpened { s with film := rest } x.key r.number) quiet _
      · dsimp only
        rw [setFilm_film]
        rfl
    case zero =>
      have done := begins drive
      dsimp only at done
      rw [if_pos zero, zero, beginAdvance_none] at done
      refine done.trans (congrArg some ?_)
      exact advanceComplete_scans (s := galleyOpened { s with film := rest } x.key r.number) advancing exposed free
  case cuts =>
    intro s c q idle waits rest
    have served : serveFilm s = some (beginCut { s with film := rest } c) :=
      dropRequest_eq waits ▸ serveFilm_cut idle waits
    refine ⟨fun noGalley ofGalley => ?alone, fun stands => ⟨fun drive film => ?trails, fun still cutter => ?cutter,
      fun still cutter => ⟨fun g hg ofGalley => ?uncut, fun blank => ?blank⟩⟩⟩
    case alone =>
      refine ⟨_, served.trans (congrArg some ((beginCut_alone (s := { s with film := rest }) noGalley ofGalley).trans
        (cutDone_eq _ c))), rfl, fun asked => ?_, fun spoil => ?_⟩
      · simp only [if_pos asked]
      · simp [spoil]
    case trails =>
      have trails := beginCut_trails (s := { s with film := rest }) stands drive film
      dsimp only at trails
      rw [show rest.remaining = s.film.remaining from rfl, show rest.known = s.film.known from rfl] at trails
      refine ⟨_, served.trans (congrArg some trails), fun low untold room => ?_, fun quiet => ?_, ?_⟩
      · have told := setFilm_told (s := { s with film := rest }) low untold room s.film.known
        dsimp only
        exact told
      · have silent := setFilm_quiet (s := { s with film := rest }) quiet s.film.known
        dsimp only
        exact silent
      · dsimp only
        rw [setFilm_film]
    case cutter =>
      exact served.trans (congrArg some ((beginCut_cuts (s := { s with film := rest }) stands still).trans
        (toCutter_cuts (s := { s with film := rest }) cutter)))
    case uncut =>
      exact served.trans (congrArg some ((beginCut_cuts (s := { s with film := rest }) stands still).trans
        ((toCutter_uncut (s := { s with film := rest }) cutter).trans (finishCut_galley (s := { s with film := rest }) ofGalley hg true))))
    case blank =>
      refine served.trans (congrArg some ((beginCut_cuts (s := { s with film := rest }) stands still).trans
        ((toCutter_uncut (s := { s with film := rest }) cutter).trans ((finishCut_told (.inl blank) true).trans ?_))))
      have told : (s.stop.spoilCut && decide (c.asker ≠ .spoil)) = s.stop.spoilCut := by simp [blank]
      have pass : s.pass.map (fun p => if c.asker ∈ [CutAsker.endCut, .park, .kill] then { p with cutDone := true } else p) =
          s.pass := by simp [blank]
      simp only [cutTold, told, pass, rest, ← idle]

end Sys2Proof.Machine
end

section
/-! PROOFS. The photo-unit door: lines halted and ended, the survey at its closing, and restartable stops counted (R102, R116, R117,
R136, R143, R144, R148, R149). -/

namespace Sys2Proof.Machine

/-! ### What a cleared stop leaves alone (R102, R148) -/

/-- What a take not STRANDED keeps through an entry to RUN and a stop counted. -/
def Take.standing (y : Take) :=
  (y.state, y.parkReason, y.timer, y.cls, y.context, y.release, y.widthsReady)

/-- From `s` to `t` the doors, the film and the line in exposure are as they were, and every take stays in its place, where one
not STRANDED keeps its standing. -/
structure Stirs (s t : State) : Prop where
  pins : t.pins = s.pins
  film : t.film = s.film
  exp : t.exp = s.exp
  takes : ∃ f, t.takes = s.takes.map f ∧ ∀ y : Take, (f y).key = y.key ∧ (y.state ≠ .stranded → (f y).standing = y.standing)

section Stirs
variable {s t u : State}

theorem Stirs.refl (s : State) : Stirs s s := ⟨rfl, rfl, rfl, id, (List.map_id _).symm, fun _ => ⟨rfl, fun _ => rfl⟩⟩

theorem Stirs.trans (first : Stirs s t) (second : Stirs t u) : Stirs s u := by
  obtain ⟨f, hf, keepsF⟩ := first.takes
  obtain ⟨g, hg, keepsG⟩ := second.takes
  refine ⟨second.pins.trans first.pins, second.film.trans first.film, second.exp.trans first.exp, g ∘ f, ?_, fun y => ?_⟩
  · rw [hg, hf, List.map_map]
  · obtain ⟨key, standing⟩ := keepsF y
    refine ⟨(keepsG _).1.trans key, fun notStranded => ((keepsG _).2 ?_).trans (standing notStranded)⟩
    rw [show (f y).state = y.state from congrArg Prod.fst (standing notStranded)]
    exact notStranded

/-- A stir from a state that is the same in what it keeps. -/
theorem Stirs.of_same (h : Stirs u t) (pins : u.pins = s.pins) (film : u.film = s.film) (exp : u.exp = s.exp)
    (takes : u.takes = s.takes) : Stirs s t :=
  ⟨h.pins.trans pins, h.film.trans film, h.exp.trans exp, takes ▸ h.takes⟩

theorem Stirs.keys (h : Stirs s t) : t.takes.map (fun y => y.key) = s.takes.map (fun y => y.key) := by
  obtain ⟨f, hf, keeps⟩ := h.takes
  rw [hf, List.map_map]
  exact List.map_congr_left fun y _ => (keeps y).1

/-- The take at a place keeps its standing. -/
theorem Stirs.at_place (h : Stirs s t) {i : Nat} {x y : Take} (hx : s.takes[i]? = some x) (hy : t.takes[i]? = some y)
    (notStranded : x.state ≠ .stranded) : y.standing = x.standing := by
  obtain ⟨f, hf, keeps⟩ := h.takes
  rw [hf, List.getElem?_map, hx] at hy
  cases hy
  exact (keeps x).2 notStranded

theorem enterRun_stirs (s : State) : Stirs s (enterRun s) :=
  ⟨rfl, rfl, rfl, _, enterRun_takes s, fun y => ⟨examined_key _ y, fun other => by rw [examined_stays (.inl other)]⟩⟩

theorem wake_stirs (s : State) : Stirs s (wake s) := by
  by_cases asleep : s.stop.station = .standby
  · obtain ⟨pins, film, exp, takes⟩ := enterRun_stirs s
    rw [wake_standby asleep]
    exact ⟨pins, film, exp, takes⟩
  · rw [wake_awake asleep]
    exact .refl s

theorem leaveStopped_stirs (s : State) (r : StopRecord) : Stirs s (leaveStopped s r) := by
  unfold leaveStopped
  split
  · exact ⟨rfl, rfl, rfl, (Stirs.refl s).takes⟩
  · exact (enterRun_stirs _).of_same rfl rfl rfl rfl

theorem recordStop_stirs (s : State) (x : Take) (line : Option Nat) (kind : StopKind) (font : Option Nat) (door : Option Door)
    (toHold : Bool) : Stirs s (recordStop s x line kind font door toHold) := by
  obtain ⟨exp, -, film⟩ := recordStop_leaves s x line kind font door toHold
  refine ⟨?pins, film, exp,
    fun y => line.elim y fun l => if y.key == x.key then { y with lineStop := some (l, x.stopCount line) } else y, ?takes,
    fun y => ?keeps⟩
  case pins =>
    unfold recordStop
    dsimp only
    split
    · cases line <;> rfl
    · split <;> (rw [produce_line]; cases line <;> rfl)
  case takes =>
    unfold recordStop
    dsimp only
    split
    · cases line <;> [exact (List.map_id _).symm; rfl]
    · split <;> (rw [produce_line]; cases line <;> [exact (List.map_id _).symm; rfl])
  case keeps =>
    cases line with
    | none => exact ⟨rfl, fun _ => rfl⟩
    | some l =>
      dsimp only [Option.elim_some]
      split <;> exact ⟨rfl, fun _ => rfl⟩

theorem clearStop_stirs (s : State) : Stirs s (clearStop s) := by
  unfold clearStop
  split
  · next r _ =>
    split
    · exact .refl s
    · split
      · split
        · split
          · exact (leaveStopped_stirs s r).trans (recordStop_stirs ..)
          · exact (recordStop_stirs ..).of_same rfl rfl rfl rfl
        · exact leaveStopped_stirs s r
      · exact leaveStopped_stirs s r
  · exact .refl s

theorem clearFontCall_stirs (s : State) : Stirs s (clearFontCall s) := by
  unfold clearFontCall
  split
  · split
    · exact clearStop_stirs s
    · exact .refl s
  · exact .refl s

end Stirs

/-! ### The survey at the door's closing (R102, R117, R145, R157) -/

section Survey
variable {s : State} {tabs : List Nat}

/-- The survey's tables and the takes it returns to QUEUED; a station in STANDBY then wakes. -/
def takesCalled (s : State) (tabs : List Nat) : State :=
  { surveyWritten s tabs with takes := s.takes.map (Take.returnedFor (surveyed tabs)) }

theorem returnCalled_wakes (s : State) (tabs : List Nat) : returnCalled (surveyWritten s tabs) =
    if s.takes.any (fun y => y.calledFor (surveyed tabs)) then wake (takesCalled s tabs) else takesCalled s tabs := by
  unfold returnCalled
  split
  · next called => exact (if_pos called).symm
  · next none =>
    refine Eq.trans ?_ (if_neg none).symm
    have same : s.takes.map (Take.returnedFor (surveyed tabs)) = s.takes :=
      (List.map_congr_left fun y hy => if_neg fun called => none (List.any_eq_true.2 ⟨y, hy, called⟩)).trans (List.map_id _)
    rw [takesCalled, same]
    rfl

theorem survey_stirs (s : State) (tabs : List Nat) : Stirs (takesCalled s tabs) (survey s tabs) := by
  rw [survey_eq, returnCalled_wakes]
  split
  · exact (wake_stirs _).trans (clearFontCall_stirs _)
  · exact clearFontCall_stirs _

/-- Outside STANDBY the survey clears at most a FONT-CALL stop. -/
theorem survey_clears (awake : s.stop.station ≠ .standby) (tabs : List Nat) :
    survey s tabs = clearFontCall (takesCalled s tabs) := by
  rw [survey_eq, returnCalled_wakes, wake_awake (s := takesCalled s tabs) awake, ite_self]

theorem returnedFor_other {x : Take} (notParked : x.state ≠ .parked) (seats : List Nat) : x.returnedFor seats = x := by
  unfold Take.returnedFor Take.calledFor
  cases state : x.state
  case parked => exact absurd state notParked
  all_goals simp

/-- No take is ACTIVE but the one before. -/
theorem returnedFor_active (seats : List Nat) (y : Take) :
    ((y.returnedFor seats).state = .active ↔ y.state = .active) ∧ (y.state = .active → y.returnedFor seats = y) := by
  by_cases parked : y.state = .parked
  · have waits : (y.returnedFor seats).state ≠ .active := by
      unfold Take.returnedFor
      split
      · exact nofun
      · rw [parked]
        exact nofun
    simp [waits, parked]
  · rw [returnedFor_other parked]
    exact ⟨Iff.rfl, fun _ => rfl⟩

theorem takesCalled_active (s : State) (tabs : List Nat) : (takesCalled s tabs).active? = s.active? := by
  show (s.takes.map _).find? _ = s.takes.find? _
  rw [List.find?_map]
  have same : ((fun y : Take => y.state == .active) ∘ Take.returnedFor (surveyed tabs)) = fun y => y.state == .active := by
    funext y
    exact Bool.eq_iff_iff.2 (by simpa using (returnedFor_active (surveyed tabs) y).1)
  rw [same]
  cases act : s.takes.find? (fun y : Take => y.state == .active) with
  | none => rfl
  | some x => exact congrArg some ((returnedFor_active _ x).2 (by simpa using List.find?_some act))

theorem returnedFor_parked {x : Take} {f : Nat} {seats : List Nat} (parked : x.state = .parked)
    (reason : x.parkReason = some (.fontCall f)) : x.returnedFor seats = if f ∈ seats then x.queued else x := by
  simp [Take.returnedFor, Take.calledFor, parked, reason]

theorem returnedFor_notStranded {x : Take} {seats : List Nat} (parked : x.state = .parked) :
    (x.returnedFor seats).state ≠ .stranded := by
  unfold Take.returnedFor
  split
  · exact nofun
  · rw [parked]
    exact nofun

theorem clearFontCall_mounted {r : StopRecord} {f : Nat} (hr : s.stop.record = some r) (kind : r.kind = .fontCall)
    (font : r.font = some f) : clearFontCall s = if f ∈ s.exp.seats then clearStop s else s := by
  simp [clearFontCall, hr, kind, font, State.mounted]

theorem surveyed_exp (e : Exposer) (tabs : List Nat) : e.surveyed tabs =
    { e with
      seats := surveyed tabs, order := surveyOrder e.order e.seats (surveyed tabs)
      cur := if e.phase = .checking then e.cur.map (fun c => { c with checked := false }) else e.cur } := by
  unfold Exposer.surveyed
  by_cases checking : e.phase = .checking
  · simp only [if_pos checking]
  · simp only [if_neg checking, Option.map_id']

theorem takesCalled_keys (s : State) (tabs : List Nat) :
    (takesCalled s tabs).takes.map (fun x => x.key) = s.takes.map (fun x => x.key) := by
  show (s.takes.map _).map _ = _
  rw [List.map_map]
  exact List.map_congr_left fun x _ => returnedFor_key _ x

/-- A take parked for a font is queued where a seat now has it, and stays parked elsewhere (R102, R157). -/
theorem survey_called {i f : Nat} {x y : Take} (hx : s.takes[i]? = some x) (hy : (survey s tabs).takes[i]? = some y)
    (parked : x.state = .parked) (reason : x.parkReason = some (.fontCall f)) :
    y.standing = (if f ∈ surveyed tabs then x.queued else x).standing := by
  have place : (takesCalled s tabs).takes[i]? = some (x.returnedFor (surveyed tabs)) := by
    show (s.takes.map _)[i]? = _
    rw [List.getElem?_map, hx]
    rfl
  rw [(survey_stirs s tabs).at_place place hy (returnedFor_notStranded parked), returnedFor_parked parked reason]

/-- With no stop pending and no take PARKED, the survey writes its tables alone. -/
theorem survey_tables (clear : s.stop.record = none) (noneParked : ∀ x ∈ s.takes, x.state ≠ .parked) (tabs : List Nat) :
    survey s tabs = surveyWritten s tabs := by
  have none : ¬ s.takes.any (fun y => y.calledFor (surveyed tabs)) = true := by
    rintro called
    obtain ⟨y, hy, called⟩ := List.any_eq_true.1 called
    unfold Take.calledFor at called
    split at called
    · next parked _ => exact noneParked y hy parked
    · cases called
  have same : s.takes.map (Take.returnedFor (surveyed tabs)) = s.takes :=
    (List.map_congr_left fun y hy => returnedFor_other (noneParked y hy) _).trans (List.map_id _)
  rw [survey_eq, returnCalled_wakes, if_neg none, takesCalled, same]
  exact clearFontCall_elsewhere (s := surveyWritten s tabs) (.inr clear)

variable {r : StopRecord} {f : Nat}

/-- A FONT-CALL stop ends where a seat now has its font (R102, R145). -/
theorem survey_fontCall (stopped : s.stop.station = .stopped) (hr : s.stop.record = some r) (kind : r.kind = .fontCall)
    (font : r.font = some f) (tabs : List Nat) :
    survey s tabs = if f ∈ surveyed tabs then clearStop (takesCalled s tabs) else takesCalled s tabs := by
  have awake : s.stop.station ≠ .standby := by
    rw [stopped]
    exact nofun
  rw [survey_clears awake]
  exact clearFontCall_mounted (s := takesCalled s tabs) hr kind font

theorem survey_ends_stop (stopped : s.stop.station = .stopped) (hr : s.stop.record = some r) (kind : r.kind = .fontCall)
    (font : r.font = some f) (mounted : f ∈ surveyed tabs)
    (free : s.pins.takeupOpen = false ∨ s.film.galley = none ∨ s.active? = none ∨ s.parking = true) :
    (survey s tabs).stop = { s.stop with station := if r.toHold then .hold else .run, record := none } := by
  have notDoor : r.kind ≠ .door := by
    rw [kind]
    exact nofun
  rw [survey_fontCall stopped hr kind font, if_pos mounted]
  refine clearStop_stop (s := takesCalled s tabs) stopped hr notDoor ?_
  rw [takesCalled_active]
  exact free

theorem survey_replaces_stop {x : Take} {k : Context} (stopped : s.stop.station = .stopped) (hr : s.stop.record = some r)
    (kind : r.kind = .fontCall) (font : r.font = some f) (mounted : f ∈ surveyed tabs) (doorOpen : s.pins.takeupOpen = true)
    (galley : s.film.galley.isSome = true) (act : s.active? = some x) (noPark : ∀ p, s.pass = some p → p.park = none)
    (context : unexposedContext s = some k) : takeupReplaces s (survey s tabs) r x k.nextLine := by
  rw [survey_fontCall stopped hr kind font, if_pos mounted]
  exact clearStop_replaces (s := takesCalled s tabs) stopped hr doorOpen galley ((takesCalled_active s tabs).trans act) noPark
    context

theorem survey_keeps_stop (stopped : s.stop.station = .stopped) (hr : s.stop.record = some r) (kind : r.kind = .fontCall)
    (font : r.font = some f) (notMounted : f ∉ surveyed tabs) : (survey s tabs).stop = s.stop := by
  rw [survey_fontCall stopped hr kind font, if_neg notMounted]
  rfl

end Survey

/-! ### The door's opening (R116) -/

section Opening
variable {s : State} {c : Exposure}

/-- The door's input changed, and nothing else. -/
def photoOpened (s : State) : State := { s with pins := { s.pins with photoOpen := true } }

def photoShut (s : State) : State := { s with pins := { s.pins with photoOpen := false } }

theorem photoDoorOpen_edge (shut : s.pins.photoOpen = false) : photoDoorOpen s = haltLine (photoOpened s) .photo :=
  if_neg (by rw [shut]; exact nofun)

theorem haltLine_rests (rests : s.lineMoving = false) (door : Door) : haltLine s door = s :=
  if_neg (by rw [rests]; exact nofun)

/-- A line already halted is as it was, and a stop pending stands. -/
theorem haltLine_again (hc : s.exp.cur = some c) (halted : c.halt.isSome = true) (pending : s.stop.record.isSome = true)
    (noAdvance : ∀ l n, .advance l n ∉ s.film.waiting) (door : Door) : haltLine s door = s := by
  cases moves : s.lineMoving with
  | false => exact haltLine_rests moves door
  | true =>
    obtain ⟨d, hd, moving⟩ := lineMoving_iff.1 moves
    obtain rfl : c = d := Option.some.inj (hc.symm.trans hd)
    rw [haltLine_moving hc moving, lineHalted_again hc halted noAdvance, raiseStop_pending pending]

theorem photoDoorOpen_halts (shut : s.pins.photoOpen = false) (hc : s.exp.cur = some c)
    (moving : s.exp.phase = .advancing ∨ s.exp.phase = .scanning) :
    photoDoorOpen s = raiseStop (lineHalted (photoOpened s) c .photo) .door none (some .photo) :=
  (photoDoorOpen_edge shut).trans (haltLine_moving (s := photoOpened s) hc moving .photo)

end Opening

/-! ### The end of a halted line (R116, R136, R149) -/

section Halted
variable {s : State} {c : Exposure} {g : Galley}

theorem quietLine_iff (s : State) : s.quietLine = true ↔ s.exp.flash = none ∧ s.exp.turretMove = none ∧
    s.exp.lensMove = none ∧ s.exp.carriageMove = none ∧ s.film.transport ≠ .advancing := by
  simp [State.quietLine, and_assoc]

theorem endHalted_waits (waits : (∀ c, s.exp.cur = some c → c.halt = none) ∨ ¬ s.quietLine = true) : endHalted s = none := by
  unfold endHalted
  split
  · next c hc =>
    refine if_neg fun ⟨halted, quiet⟩ => waits.elim (fun free => ?_) fun loud => loud quiet
    rw [free c hc] at halted
    cases halted
  · rfl

/-- The place of the line flashed and halted (R149). -/
def spoiledPlace (c : Exposure) : Option Nat := if c.flashed = [] then none else some c.line

/-- The line's exposure ended, and the galley closed where the cassette door is to close it (R136). -/
def haltedClosed (s : State) (c : Exposure) : State :=
  if c.closeGalley then
    closeGalley (endExposure s) (fun f => { f with continuedTo := true, spoiled := spoiledPlace c })
  else endExposure s

/-- The line's record is spoiled (R149). -/
def recordSpoiled (s : State) (line : Nat) : State :=
  { s with
    store := { s.store with records := s.store.records.map (fun r => if r.number = line then { r with spoiled := true } else r) }
    stop := { s.stop with spoilCut := true } }

theorem endHalted_unspoiled (hc : s.exp.cur = some c) (halted : c.halt.isSome = true) (quiet : s.quietLine = true)
    (none : c.flashed = []) : endHalted s = some (haltedClosed s c) := by
  simp only [endHalted, hc, halted, quiet, and_self, if_true, if_pos none, haltedClosed, spoiledPlace]

theorem endHalted_spoiled (hc : s.exp.cur = some c) (halted : c.halt.isSome = true) (quiet : s.quietLine = true)
    (some : c.flashed ≠ []) : endHalted s =
      .some (askCut (recordSpoiled (haltedClosed s c) c.line) { asker := .spoil, spoiled := .some c.line }) := by
  simp only [endHalted, hc, halted, quiet, and_self, if_true, if_neg some, haltedClosed, spoiledPlace, recordSpoiled]

theorem haltedClosed_leaves (leaves : c.closeGalley = false ∨ s.film.galley = none) :
    haltedClosed s c = { s with exp := lineEnded s.exp } := by
  refine ite_eq_right_iff.2 fun closes => ?_
  have noGalley : (endExposure s).film.galley = none := leaves.resolve_left fun leaves => by simp [leaves] at closes
  rw [closeGalley, noGalley]

theorem haltedClosed_closes (closes : c.closeGalley = true) :
    haltedClosed s c = closeGalley { s with exp := lineEnded s.exp }
      (fun f => { f with continuedTo := true, spoiled := spoiledPlace c }) := if_pos closes

/-- With no galley open the cut of a spoiled line is done at once (R134, R149). -/
theorem askCut_spoil_alone (noGalley : s.film.galley = none) (line : Option Nat) :
    askCut s { asker := .spoil, spoiled := line } = { s with stop := { s.stop with spoilCut := false } } :=
  if_pos ⟨Option.isNone_iff_eq_none.2 noGalley, nofun⟩

end Halted

/-! ### A restartable stop raised (R143, R144) -/

section Raised
variable {s : State} {x : Take}

/-- A stop is taken in this state (R143). -/
def State.takesStops (s : State) : Prop := (s.stop.station = .run ∨ s.stop.station = .hold) ∧ s.stop.record = none ∧
  ∀ p, s.pass = some p → p.park = none

theorem noPark_of_parking (free : s.parking = false) : ∀ p, s.pass = some p → p.park = none := by
  intro p hp
  simpa [State.parking, hp] using free

theorem raiseStop_ignored (ignored : ¬ s.takesStops ∨ s.active? = none) (kind : StopKind) (font : Option Nat)
    (door : Option Door) : raiseStop s kind font door = s := by
  unfold raiseStop
  split
  · next taken =>
    obtain ⟨station, clear, free⟩ := taken
    rw [ignored.resolve_left fun notTaken => notTaken ⟨station, clear, noPark_of_parking free⟩]
  · rfl

theorem raiseStop_takes (taken : s.takesStops) (act : s.active? = some x) (kind : StopKind) (font : Option Nat)
    (door : Option Door) : raiseStop s kind font door =
      recordStop s x ((unexposedContext s).map (fun c => c.nextLine)) kind font door (decide (s.stop.station = .hold)) := by
  obtain ⟨station, clear, free⟩ := taken
  exact raiseStop_taken station clear free act kind font door

/-- A stop that names no line counts against none, and is told with line 0 (Log 48). -/
theorem recordStop_nameless (s : State) (x : Take) (kind : StopKind) (font : Option Nat) (door : Option Door) (toHold : Bool) :
    recordStop s x none kind font door toHold =
      produce
        { closeClaims s.noteMoment with
          stop :=
            { s.stop with
              station := .stopped
              record := some
                { kind := kind, key := some x.key, line := none, font := font, door := door, mech := none, earlier := none
                  toHold := toHold, timeRaised := Config.moment s.moments
                  timer := decide (kind = .fontCall) || decide (kind = .filmOut) } } }
        (some x.key) (stopNotice kind 0 font door) := by
  cases kind <;> rfl

theorem recordStop_nameless_noticed (room : hasRoom s) (x : Take) (kind : StopKind) (font : Option Nat) (door : Option Door)
    (toHold : Bool) : noticed (recordStop s x none kind font door toHold) (some x.key) (stopNotice kind 0 font door) := by
  rw [recordStop_nameless]
  refine produce_noticed ?_ _ _
  exact cancelWindows_hasRoom s.noteMoment WindowFor.isClaim room

end Raised

/-- Settles O56: the door's edges, the end of a halted line by what it flashed and what it closes, and a stop by its count. -/
theorem photoUnitDoorHaltsAndSurveys : Obligations.PhotoUnitDoorHaltsAndSurveys := by
  refine ⟨fun s tabs => ?door, ⟨by simp [reactions], fun s loud => endHalted_waits ?waits, ?ends⟩, fun s => ?stops⟩
  case door =>
    intro opened seats changed order cur
    refine ⟨fun already => answers_effect (if_pos already), fun shut rests => ?rests,
      fun c x r shut hc moving may room => ?halts, fun c x r shut hc moving third => ?parks,
      fun shut => answers_effect (if_neg (by rw [shut]; exact nofun)),
      fun wasOpen => ⟨survey (photoShut s) tabs, answers_effect (if_pos wasOpen), ?closes⟩⟩
    case rests =>
      refine answers_effect ((photoDoorOpen_edge shut).trans ?_)
      rcases rests with noLine | elsewhere | ⟨c, hc, halted, pending, noAdvance⟩
      · exact haltLine_rests (lineMoving_eq_false (s := photoOpened s) (.inl noLine)) _
      · exact haltLine_rests (lineMoving_eq_false (s := photoOpened s) (.inr elsewhere)) _
      · exact haltLine_again (s := photoOpened s) hc halted pending noAdvance _
    case halts =>
      obtain ⟨recorded, pins, film, exp, told⟩ :=
        raiseStop_recorded (s := lineHalted (photoOpened s) c .photo) may .door none (some .photo)
      refine ⟨_, answers_effect (photoDoorOpen_halts shut hc moving), pins, exp, film.trans (lineHalted_film fun q => ?_),
        recorded, told room⟩
      cases q <;> rfl
    case parks =>
      refine ⟨_, answers_effect (photoDoorOpen_halts shut hc moving), ?_⟩
      rw [raiseStop_parks (s := lineHalted (photoOpened s) c .photo) third]
      exact ⟨rfl, rfl, rfl, rfl, rfl, rfl⟩
    case closes =>
      have stirs := survey_stirs (photoShut s) tabs
      refine ⟨stirs.pins, stirs.exp.trans (surveyed_exp s.exp tabs), stirs.film, stirs.keys.trans (takesCalled_keys _ tabs),
        fun i x y f hx hy parked reason => ?called, fun clear noneParked => ?nothing,
        fun r f stopped hr kind font => ⟨fun mounted free => ?ended,
          fun x k mounted => survey_replaces_stop (s := photoShut s) stopped hr kind font mounted,
          survey_keeps_stop (s := photoShut s) stopped hr kind font⟩⟩
      case called =>
        have standing := survey_called (s := photoShut s) hx hy parked reason
        refine ⟨fun mounted => ?_, fun notMounted => ?_⟩
        · rw [if_pos (show f ∈ surveyed tabs from mounted)] at standing
          simp only [Take.standing, Prod.mk.injEq] at standing
          exact standing
        · rw [if_neg (show f ∉ surveyed tabs from notMounted)] at standing
          simp only [Take.standing, Prod.mk.injEq, parked] at standing
          obtain ⟨state, why, timer, -, context, -⟩ := standing
          exact ⟨state, why, timer, context⟩
      case nothing =>
        rw [survey_tables (s := photoShut s) clear noneParked]
        exact ⟨rfl, rfl⟩
      case ended =>
        refine survey_ends_stop (s := photoShut s) stopped hr kind font mounted ?_
        refine free.imp_right (Or.imp_right (Or.imp_right ?_))
        rintro ⟨p, hp, parks⟩
        show s.pass.any _ = true
        rw [hp]
        exact parks
  case waits =>
    refine loud.imp_right fun busy quiet => ?_
    obtain ⟨flash, turret, lens, carriage, still⟩ := (quietLine_iff s).1 quiet
    simp [flash, turret, lens, carriage, still] at busy
  case ends =>
    intro s c hc halted flash turret lens carriage still spoiled store
    have quiet := (quietLine_iff s).2 ⟨flash, turret, lens, carriage, still⟩
    refine ⟨fun unspoiled leaves => ?ended, fun flashed leaves g hg => ?asks, fun flashed noGalley => ?alone,
      fun g closes hg => ?closed⟩
    case ended => rw [endHalted_unspoiled hc halted quiet unspoiled, haltedClosed_leaves leaves]
    case asks =>
      have isOpen : s.film.galley.isSome = true := by
        rw [hg]
        rfl
      have asked : spoiled = some c.line := if_neg flashed
      rw [endHalted_spoiled hc halted quiet flashed, haltedClosed_leaves (.inl leaves), asked]
      exact congrArg some (askCut_waits (.inl isOpen))
    case alone =>
      rw [endHalted_spoiled hc halted quiet flashed, haltedClosed_leaves (.inr noGalley)]
      refine congrArg some (askCut_spoil_alone ?_ _)
      exact noGalley
    case closed =>
      have shut := haltedClosed_closes (s := s) closes
      rw [closeGalley_open (s := { s with exp := lineEnded s.exp }) hg] at shut
      by_cases flashed : c.flashed = []
      · rw [endHalted_unspoiled hc halted quiet flashed, shut]
        simp [flashed, spoiled, spoiledPlace]
      · rw [endHalted_spoiled hc halted quiet flashed, shut, askCut_spoil_alone]
        · simp [flashed, spoiled, spoiledPlace, store, recordSpoiled]
        · rfl
  case stops =>
    intro taken
    refine ⟨fun shut galley rests => answers_effect (takeupDoorOpen_stops shut galley (lineMoving_eq_false rests)),
      fun kind font door => ?_⟩
    intro t stands told
    have notice (line : Nat) : stopNotice kind line font door = told line := by cases kind <;> rfl
    refine ⟨fun ignored => raiseStop_ignored ignored kind font door, fun x taken act => ⟨fun c context => ⟨fun few => ?_,
      fun third => ?_⟩, fun context => ?_⟩⟩
    · have e : t = _ := raiseStop_takes taken act kind font door
      rw [context, Option.map_some] at e
      have recorded := (e.trans (recordStop_below s x _ kind font door _ few)).trans (produce_line ..)
      exact ⟨(congrArg State.stop recorded :), (congrArg State.takes recorded :), (congrArg State.pass recorded :),
        (congrArg State.exp recorded :), (congrArg State.film recorded :),
        fun room => notice _ ▸ e ▸ recordStop_noticed room few kind font door _⟩
    · refine (raiseStop_takes taken act kind font door).trans ?_
      rw [context, Option.map_some]
      refine (recordStop_third s x _ kind font door _ third taken.2.2).trans ?_
      rw [← taken.2.1]
    · have e : t = _ := raiseStop_takes taken act kind font door
      rw [context, Option.map_none] at e
      have recorded := (e.trans (recordStop_nameless s x kind font door _)).trans (produce_line ..)
      exact ⟨(congrArg State.stop recorded :), (congrArg State.takes recorded :), (congrArg State.pass recorded :),
        fun room => notice _ ▸ e ▸ recordStop_nameless_noticed room x kind font door _⟩

end Sys2Proof.Machine
end

section
/-! PROOFS. Selection, the start of a pass and its end (R16, R18, R86, R92, R96, R133, R135, R186, R187, R189). -/

namespace Sys2Proof.Machine

/-! ### A context record brought into range (R18) -/

section Range

/-- A count of one for each value that a record's field did not keep. -/
theorem one_decide (p : Prop) [Decidable p] : one (decide p) = if p then 1 else 0 := by
  by_cases h : p <;> simp [one, h]

theorem takeSize_eq {h n : Nat} (mem : h ∈ lensSizes) (le : h ≤ max 10 (min 48 n))
    (largest : ∀ g ∈ lensSizes, g ≤ max 10 (min 48 n) → g ≤ h) :
    takeSize n = (h, decide (max 10 (min 48 n) ≠ n), decide (h ≠ max 10 (min 48 n))) := by
  have lens : lensBelow (max 10 (min 48 n)) = h := lensBelow_eq (by omega) (by omega) mem le largest
  unfold takeSize clamp
  dsimp only
  rw [lens]

theorem triple_ne {a b c d e f : Nat} : ((a, b, c) ≠ (d, e, f)) ↔ (a ≠ d ∨ b ≠ e ∨ c ≠ f) := by
  simp only [ne_eq, Prod.mk.injEq]
  tauto

end Range

/-! ### A pass starts (R16, R86, R92, R96, R133, R187) -/

section Start
variable {s : State} {x : Take}

/-- The context a pass begins with: that of R16, or the take's record brought into range (R18). -/
def Take.begins (x : Take) : Context :=
  x.context.elim (defaultContext (x.fonts.headD 0)) (fun c => (rangeContext x.fonts x.textLen c).1)

/-- The counters a pass begins with (R16, R18). -/
def Take.startCounters (x : Take) (k : Counters) : Counters :=
  match x.context with
  | none =>
    { k with
      lines := 0, hyphenated := 0, loose := 0, letterspaced := 0, overset := 0, absent := 0
      copyErrors := x.preErrors, clamped := 0, substituted := 0 }
  | some c =>
    let n := (rangeContext x.fonts x.textLen c).2
    { k with
      copyErrors := min 65535 (k.copyErrors + n.copyErrors), clamped := min 65535 (k.clamped + n.clamped)
      substituted := min 65535 (k.substituted + n.substituted) }

theorem startCompositor_eq (s : State) (x : Take) :
    ∃ subst after, startCompositor s x = startLine (s.count x.startCounters) x x.begins subst after := by
  unfold startCompositor Take.startCounters Take.begins
  split
  · next c => exact ⟨false, false, by rw [c]; rfl⟩
  · next c hc =>
    refine ⟨decide (0 < (rangeContext x.fonts x.textLen c).2.substituted),
      spaceBefore s.mem x (rangeContext x.fonts x.textLen c).1.resume (rangeContext x.fonts x.textLen c).1.resume 0 false, ?_⟩
    simp only [addSubstituted, addClamped, addCopyErrors, count_count, hc, Option.elim_some]
    rfl

theorem startLine_frame (s : State) (x : Take) (y : Context) (subst after : Bool) :
    { startLine s x y subst after with comp := s.comp, pass := s.pass } = s := by
  unfold startLine
  dsimp only
  split <;> rfl

/-- A line that begins inside the text (R17, R43). -/
theorem startLine_within_text (s : State) {x : Take} {y : Context} (within : y.resume < x.textLen) (subst after : Bool) :
    (startLine s x y subst after).comp.snap = some y ∧ (startLine s x y subst after).comp.groupStart = y.resume := by
  have e : startLine s x y subst after = _ := if_neg (Nat.not_le.2 within)
  rw [e]
  exact ⟨rfl, rfl⟩

/-- The record of a take whose pass starts (R86, R96, R187). -/
def Take.started (s : State) (x : Take) : Take :=
  { x with
    state := .active, timer := none
    startValues := if x.nextPass = .proof then some (genValues s x) else x.startValues
    proofState := if x.context.isNone then .complete else x.proofState }

/-- The pass stands, before the Compositor starts it (R187). -/
def passStarted (s : State) (x : Take) : State :=
  { s.modTake x.key (fun _ => x.started s) with
    pass := some
      { kind := x.nextPass, reported := false, cutAsked := false, cutDone := false, killing := false, emptied := false
        park := none }
    store := { s.store with marker := some (headerKind x.nextPass x) }
    proof := { s.proof with attached := false }
    film := { s.film with
      nextSeq := if x.nextPass = .film then some (x.context.elim 1 (fun c => max 1 c.galleySeq)) else s.film.nextSeq } }

theorem startPass_eq (s : State) (x : Take) : startPass s x =
    produce (startCompositor (passStarted s x) (x.started s)) (some x.key)
      (.takeStart (headerKind x.nextPass x) x.cls (x.context.elim 1 (fun c => c.nextLine))) := by
  unfold startPass passStarted Take.started
  cases x.context <;> rfl

/-- The record of a take selected, its counters set (R16, R18). -/
def Take.selected (s : State) (x : Take) : Take := { x.started s with counters := x.startCounters x.counters }

/-- With no take ACTIVE before, the counters of the take selected alone are set. -/
theorem started_takes (idle : s.active? = none) (x : Take) :
    ((passStarted s x).count x.startCounters).takes = s.takes.map (fun z => if z.key == x.key then x.selected s else z) := by
  have notActive : ∀ z ∈ s.takes, z.state ≠ .active := by simpa [State.active?, List.find?_eq_none] using idle
  show ((s.takes.map _).map _) = _
  rw [List.map_map]
  refine List.map_congr_left fun z hz => ?_
  by_cases own : z.key = x.key
  · simp [own, Take.started, Take.selected]
  · simp [own, notActive z hz]

theorem selected_key (s : State) (x z : Take) : (if z.key == x.key then x.selected s else z).key = z.key := by
  by_cases own : z.key = x.key <;> simp [own, Take.selected, Take.started]

/-- The take selected, in its place. -/
theorem selected_of {t : State} {z : Take} (takes : t.takes = s.takes.map (fun z => if z.key == x.key then x.selected s else z))
    (hz : z ∈ t.takes) (own : z.key = x.key) : z = x.selected s := by
  rw [takes] at hz
  obtain ⟨w, -, rfl⟩ := List.mem_map.1 hz
  rw [selected_key] at own
  exact if_pos (by simpa using own)

theorem selected_counters_afresh (none : x.context = none) : (x.selected s).counters.copyErrors = x.preErrors ∧
    (x.selected s).counters.clamped = 0 ∧ (x.selected s).counters.substituted = 0 := by
  simp [Take.selected, Take.startCounters, none]

theorem selected_counters_resumed {c : Context} (context : x.context = some c) :
    let n := (rangeContext x.fonts x.textLen c).2
    (x.selected s).counters = { x.counters with
      copyErrors := min 65535 (x.counters.copyErrors + n.copyErrors)
      clamped := min 65535 (x.counters.clamped + n.clamped)
      substituted := min 65535 (x.counters.substituted + n.substituted) } := by
  simp only [Take.selected, Take.startCounters, context]

theorem if_nextPass_film {α : Type} (x : Take) (film proof : α) : (if x.nextPass = .film then film else proof) =
    if x.proofFirst && !x.approved then proof else film := by
  unfold Take.nextPass
  cases x.proofFirst && !x.approved <;> rfl

theorem if_nextPass_proof {α : Type} (x : Take) (film proof : α) : (if x.nextPass = .proof then proof else film) =
    if x.proofFirst && !x.approved then proof else film := by
  unfold Take.nextPass
  cases x.proofFirst && !x.approved <;> rfl

theorem headerKind_nextPass (x : Take) : headerKind x.nextPass x =
    if x.proofFirst && !x.approved then (if x.reproof then .reproof else .proof)
    else if x.context.isSome then .resumed else .film := by
  unfold Take.nextPass headerKind
  cases x.proofFirst && !x.approved <;> rfl

theorem begins_started (s : State) (x : Take) : (x.started s).begins = x.begins := rfl
theorem startCounters_started (s : State) (x : Take) : (x.started s).startCounters = x.startCounters := rfl

/-- All that a pass started leaves (R16, R86, R92, R96, R133, R187). -/
theorem startPass_state (idle : s.active? = none) (run : s.stop.station = .run) (x : Take) :
    let t := startPass s x
    (t.mem = s.mem ∧ t.exp = s.exp ∧ t.proof = { s.proof with attached := false } ∧
      t.store = (passStarted s x).store ∧ t.film = (passStarted s x).film) ∧
    t.takes = s.takes.map (fun z => if z.key == x.key then x.selected s else z) ∧
    t.pass = some
      { kind := x.nextPass, reported := decide (x.textLen ≤ x.begins.resume), cutAsked := false, cutDone := false
        killing := false, emptied := false, park := none } ∧
    (t.comp.line = [] ∧ t.comp.group = [] ∧ t.comp.held = none ∧
      t.comp.ctx = some { x.begins with resume := min x.textLen x.begins.resume } ∧
      t.comp.phase = if x.textLen ≤ x.begins.resume then .idle else .setting) ∧
    (x.begins.resume < x.textLen → t.comp.snap = some x.begins ∧ t.comp.groupStart = x.begins.resume) ∧
    (hasRoom s →
      noticed t (some x.key) (.takeStart (headerKind x.nextPass x) x.cls (x.context.elim 1 (fun c => c.nextLine)))) := by
  obtain ⟨subst, after, starts⟩ := startCompositor_eq (passStarted s x) (x.started s)
  rw [begins_started, startCounters_started] at starts
  intro t
  have frame := startLine_frame ((passStarted s x).count x.startCounters) (x.started s) x.begins subst after
  obtain ⟨-, held, line, group, -, takes, ctx, phase, pass⟩ :=
    startLine_next ((passStarted s x).count x.startCounters) (x.started s) x.begins subst after
  have pausing : ((passStarted s x).count x.startCounters).pausing = false := by
    show (s.stop.station == .hold || (s.stop.station == .stopped && _)) = false
    rw [run]
    rfl
  have within := startLine_within_text ((passStarted s x).count x.startCounters) (x := x.started s) (y := x.begins)
  have told : t = produce (startLine ((passStarted s x).count x.startCounters) (x.started s) x.begins subst after) (some x.key)
      (.takeStart (headerKind x.nextPass x) x.cls (x.context.elim 1 (fun c => c.nextLine))) :=
    starts ▸ startPass_eq s x
  clear_value t
  subst told
  rw [produce_line]
  refine ⟨⟨(congrArg State.mem frame :), (congrArg State.exp frame :), (congrArg State.proof frame :),
    (congrArg State.store frame :), (congrArg State.film frame :)⟩, takes.trans (started_takes idle x), pass.trans ?_,
    ⟨line, group, held, ctx, phase.trans ?_⟩, fun inside => within inside subst after, fun room => ?_⟩
  · by_cases ended : x.textLen ≤ x.begins.resume
    · exact (if_pos ended).trans (by rw [decide_eq_true ended]; rfl)
    · exact (if_neg ended).trans (by rw [decide_eq_false ended]; rfl)
  · rw [pausing]
    rfl
  · rw [← produce_line]
    refine produce_noticed ?_ _ _
    have line : (startLine ((passStarted s x).count x.startCounters) (x.started s) x.begins subst after).line = s.line :=
      (congrArg State.line frame :)
    unfold hasRoom
    rw [line]
    exact room

end Start

/-! ### Selection (R186) -/

section Select
variable {s : State} {x : Take}

/-- The take may be selected (R186). -/
def State.maySelect (s : State) (y : Take) : Prop := y.state = .queued ∧ y.widthsReady = true ∧ y.release = none ∧
  (s.paperOut = true → y.proofFirst = true → y.approved = true)

theorem candidate_iff (s : State) (y : Take) : (y.state == .queued && y.widthsReady && y.release.isNone &&
    !(s.paperOut && y.nextPass == .proof)) = true ↔ s.maySelect y := by
  have proof : (y.nextPass == .proof) = (y.proofFirst && !y.approved) := by
    unfold Take.nextPass
    cases y.proofFirst && !y.approved <;> rfl
  have paper : (s.paperOut = false ∨ y.proofFirst = false ∨ y.approved = true) ↔
      (s.paperOut = true → y.proofFirst = true → y.approved = true) := by
    cases s.paperOut <;> cases y.proofFirst <;> simp
  rw [proof, State.maySelect, ← paper]
  simp [and_assoc]

theorem selectTake_none (none : s.stop.station ≠ .run ∨ s.active?.isSome = true ∨ ∀ y ∈ s.takes, ¬ s.maySelect y) :
    selectTake s = .none := by
  unfold selectTake
  split
  · next free =>
    have nothing : ∀ y ∈ s.takes, ¬ s.maySelect y :=
      (none.resolve_left (· free.1)).resolve_left fun act => by simp [Option.isNone_iff_eq_none.1 free.2] at act
    rw [State.candidates, first?_filter_none nothing (candidate_iff s)]
    rfl
  · rfl

theorem selectTake_first (run : s.stop.station = .run) (idle : s.active? = none) (first : firstByKeys s s.maySelect x) :
    selectTake s = some (startPass s x) := by
  have free : s.stop.station = .run ∧ s.active?.isNone = true := ⟨run, Option.isNone_iff_eq_none.2 idle⟩
  rw [selectTake, if_pos free, State.candidates, first?_of_firstByKeys first (candidate_iff s)]
  rfl

end Select

/-! ### A pass ends (R135, R189) -/

section Ends
variable {s : State} {p : Pass}

/-- The Compositor has reported the end of a FILM pass that is neither parked nor killed (R189). -/
def Pass.filmEnds (p : Pass) : Prop := p.kind = .film ∧ p.reported = true ∧ p.killing = false ∧ p.park = none

/-- No record is still to be exposed, and no line is in exposure (R189). -/
def State.allExposed (s : State) : Prop := (∀ r ∈ s.store.records, r.filmPending = false) ∧ s.exp.cur = none

theorem runs_iff (p : Pass) : p.runs = true ↔ p.killing = false ∧ p.park = none := by simp [Pass.runs]

theorem firstUnexposed_none (s : State) : s.firstUnexposed.isNone = true ↔ ∀ r ∈ s.store.records, r.filmPending = false := by
  simp [State.firstUnexposed]

theorem endCut_due_iff (s : State) (p : Pass) :
    (p.kind = .film ∧ p.reported ∧ p.runs ∧ p.cutAsked = false ∧ s.firstUnexposed.isNone ∧ s.exp.cur.isNone) ↔
      p.filmEnds ∧ p.cutAsked = false ∧ s.allExposed := by
  rw [runs_iff, firstUnexposed_none, Option.isNone_iff_eq_none, Pass.filmEnds, State.allExposed]
  tauto

/-- The end cut is asked for once all is exposed (R189). -/
theorem askEndCut_asks (hp : s.pass = some p) (due : p.filmEnds ∧ p.cutAsked = false ∧ s.allExposed) :
    askEndCut s = some (askCut { s with pass := some { p with cutAsked := true } } { asker := .endCut, spoiled := none }) := by
  unfold askEndCut State.modPass
  rw [hp]
  exact if_pos ((endCut_due_iff s p).2 due)

theorem askEndCut_none (hp : s.pass = some p) (waits : ¬ (p.filmEnds ∧ p.cutAsked = false ∧ s.allExposed)) :
    askEndCut s = none := by
  unfold askEndCut
  rw [hp]
  exact if_neg fun due => waits ((endCut_due_iff s p).1 due)

theorem askCut_end_alone (noGalley : s.film.galley = none) : askCut s { asker := .endCut, spoiled := none } =
    { s with pass := s.pass.map (fun p => { p with cutDone := true }) } :=
  if_pos ⟨Option.isNone_iff_eq_none.2 noGalley, nofun⟩

theorem completeTake_waits (hp : s.pass = some p)
    (waits : ¬ p.filmEnds ∨ p.cutDone = false ∨ s.store.records ≠ []) : completeTake s = none := by
  unfold completeTake
  rw [hp]
  cases s.active? with
  | none => rfl
  | some x =>
    refine if_neg ?_
    rintro ⟨kind, reported, runs, -, done, empty⟩
    obtain ⟨alive, unparked⟩ := (runs_iff p).1 runs
    rcases waits with notEnds | undone | holds
    · exact notEnds ⟨kind, reported, alive, unparked⟩
    · rw [undone] at done
      cases done
    · exact holds empty

/-- The take is complete: told, nothing left of its pass, and no stop that names it (R148, R189). -/
def completed (s : State) (x : Take) : State :=
  { produce s (some x.key) (.takeDone (counterBlock s x)) with
    pass := none, comp := idleCompositor
    film := { (produce s (some x.key) (.takeDone (counterBlock s x))).film with nextSeq := none } }

theorem completeTake_frees {x : Take} (hp : s.pass = some p) (act : s.active? = some x) (ends : p.filmEnds)
    (asked : p.cutAsked = true) (done : p.cutDone = true) (empty : s.store.records = []) :
    completeTake s = some (freeTake (dropStop (completed s x) x.key) x.key) := by
  obtain ⟨kind, reported, alive, unparked⟩ := ends
  unfold completeTake
  rw [hp, act]
  exact if_pos ⟨kind, reported, (runs_iff p).2 ⟨alive, unparked⟩, asked, done, empty⟩

end Ends

/-- Settles O36: the candidate first by its keys, the pass it starts, its record brought into range, and its end. -/
theorem selectionTakesTheFirstByItsKeys : Obligations.SelectionTakesTheFirstByItsKeys := by
  refine ⟨fun s => ?selects, fun fonts len h c => ?range, by simp [reactions], by simp [reactions], fun s p hp => ?ends⟩
  case selects =>
    intro may mounted
    refine ⟨by simp [reactions], selectTake_none, fun a x b run idle split own before behind => ?_⟩
    obtain ⟨⟨mem, exp, proof, store, film⟩, takes, pass, ⟨line, group, held, ctx, phase⟩, within, told⟩ :=
      startPass_state idle run x
    have selected := selectTake_first run idle ⟨a, b, split, own, before, behind⟩
    refine ⟨_, selected, ?keys, ?kind, fun z hz own => ?active, fun z hz other => ?others, mem, exp, proof, ?_⟩
    case keys =>
      rw [takes, List.map_map]
      exact List.map_congr_left fun z _ => selected_key s x z
    case kind =>
      rw [pass, Option.map_some, Option.some.injEq]
      exact if_congr (by simp) rfl rfl
    case active =>
      rw [selected_of takes hz own]
      exact ⟨rfl, rfl⟩
    case others =>
      rw [takes]
      exact List.mem_map.2 ⟨z, hz, if_neg (by simpa using other)⟩
    intro proof header textLen begins
    refine ⟨pass, store.trans ?store, film.trans ?film, fun z hz own => ?record, line, group, held, fun inside => ?inside,
      fun ended => ?ended, fun room => ?told⟩
    case told =>
      have told := told room
      rw [headerKind_nextPass] at told
      exact told
    case store => exact congrArg (fun k => { s.store with marker := some k }) (headerKind_nextPass x)
    case film =>
      exact congrArg (fun q => { s.film with nextSeq := q }) (if_nextPass_film x _ _)
    case record =>
      rw [selected_of takes hz own]
      refine ⟨?_, ?_, rfl, selected_counters_afresh, fun c context => selected_counters_resumed context⟩
      · exact if_nextPass_proof x _ _
      · show (if x.context.isNone then _ else _) = _
        cases x.context <;> rfl
    case inside =>
      obtain ⟨snap, groupStart⟩ := within inside
      have offset : min x.textLen x.begins.resume = x.begins.resume := Nat.min_eq_right (Nat.le_of_lt inside)
      rw [offset] at ctx
      exact ⟨phase.trans (if_neg (Nat.not_le.2 inside)), ctx, snap, groupStart⟩
    case ended =>
      have offset : min x.textLen x.begins.resume = x.textLen := Nat.min_eq_left ended
      rw [offset] at ctx
      exact ⟨phase.trans (if_pos ended), ctx⟩
  case range =>
    intro m mem le largest measure sbMin sbOpt y changed
    have size : takeSize c.size = (h, decide (m ≠ c.size), decide (h ≠ m)) := takeSize_eq mem le largest
    unfold rangeContext
    dsimp only
    rw [size]
    refine Prod.ext ?_ ?_
    · simp [y, measure, sbMin, sbOpt, clamp, clampSpaceband, indentCap, Config.lineNumberCap]
    · have font : one (!fonts.contains c.font) = changed (c.font ∉ fonts) := by simp [one, changed]
      have bands : clampSpaceband c.sbMin c.sbOpt c.sbMax ≠ (c.sbMin, c.sbOpt, c.sbMax) ↔
          (y.sbMin ≠ c.sbMin ∨ y.sbOpt ≠ c.sbOpt ∨ y.sbMax ≠ c.sbMax) := triple_ne
      simp only [one_decide, font, clamp_zero, bands]
      rfl
  case ends =>
    intro ends exposed
    refine ⟨fun filmEnds unasked done => ⟨fun noGalley => ?alone, fun galley => ?asks⟩, fun waits => ?waits,
      fun x act filmEnds asked done empty room others => ?completes, completeTake_waits hp⟩
    case alone =>
      rw [askEndCut_asks hp ⟨filmEnds, unasked, done⟩]
      exact congrArg some (askCut_end_alone noGalley)
    case asks =>
      rw [askEndCut_asks hp ⟨filmEnds, unasked, done⟩]
      exact congrArg some (askCut_waits (.inl galley))
    case waits =>
      refine askEndCut_none hp ?_
      rintro ⟨filmEnds, unasked, done⟩
      rcases waits with notEnds | asked | exposing
      · exact notEnds filmEnds
      · rw [unasked] at asked
        cases asked
      · exact exposing done
    case completes =>
      have stays : dropStop (completed s x) x.key = completed s x := by
        refine dropStop_other fun r hr => others r ?_
        rw [completed, produce_line] at hr
        exact hr
      have freed := completeTake_frees hp act filmEnds asked done empty
      rw [stays] at freed
      have frame := freeTake_frame (completed s x) x.key
      refine ⟨_, freed, ?_, ?_, ?_, ?_, ?_, ?_, ?_⟩
      · rw [freeTake_takes, completed, produce_line]
      · rw [freeTake_pass]
        rfl
      · exact (congrArg State.comp frame :)
      · rw [freeTake_film, completed, produce_line]
      · rw [freeTake_stop, completed, produce_line]
      · refine (congrArg State.exp frame :).trans ?_
        rw [completed, produce_line]
      · refine freeTake_noticed ?_ _
        exact produce_noticed room _ _

end Sys2Proof.Machine
end

section
/-! PROOFS. The scanner's groups: every item to be flashed once, by its seat and its lens, the seats and the lenses in their order
(R112, R115). -/

namespace Sys2Proof.Machine

/-! ### One group -/

section Groups
variable {seats : List Nat} {items : List LineItem} {seat lens n t j p : Nat} {i : LineItem} {g : FlashGroup}

theorem flashable_iff (i : LineItem) : i.flashable = true ↔ toFlash i := by
  simp [LineItem.flashable, toFlash]

theorem mem_itemsOf : p ∈ itemsOf seats items seat lens ↔
    ∃ i, items[p]? = some i ∧ toFlash i ∧ seatOf seats i.font = seat ∧ i.lens = lens := by
  rw [itemsOf, List.mem_filter, List.mem_range, Option.any_eq_true]
  simp only [Bool.and_eq_true, beq_iff_eq, flashable_iff, and_assoc]
  refine ⟨And.right, fun ⟨i, hi, rest⟩ => ⟨?_, i, hi, rest⟩⟩
  exact (List.getElem?_eq_some_iff.1 hi).1

theorem itemsOf_ascending (seats : List Nat) (items : List LineItem) (seat lens : Nat) :
    (itemsOf seats items seat lens).Pairwise (· < ·) := List.pairwise_lt_range.filter _

/-- How often an item to be flashed stands in a group. -/
theorem count_itemsOf (hi : items[p]? = some i) (flashes : toFlash i) : (itemsOf seats items seat lens).count p =
    if seatOf seats i.font = seat ∧ i.lens = lens then 1 else 0 := by
  have nodup : (itemsOf seats items seat lens).Nodup := (itemsOf_ascending ..).imp fun h => Nat.ne_of_lt h
  rw [nodup.count]
  refine if_congr ?_ rfl rfl
  rw [mem_itemsOf]
  refine ⟨?_, fun own => ⟨i, hi, flashes, own⟩⟩
  rintro ⟨k, hk, -, own⟩
  obtain rfl : i = k := Option.some.inj (hi.symm.trans hk)
  exact own

/-- The group of a seat and a lens, where it has an item. -/
def flashGroup? (seats : List Nat) (items : List LineItem) (seat lens : Nat) : Option FlashGroup :=
  if itemsOf seats items seat lens = [] then none
  else some { seat := seat, lens := lens, items := itemsOf seats items seat lens }

theorem flashGroup?_eq_some : flashGroup? seats items seat lens = some g ↔
    itemsOf seats items seat lens ≠ [] ∧ g = { seat := seat, lens := lens, items := itemsOf seats items seat lens } := by
  unfold flashGroup?
  split
  · next none => simp [none]
  · next some => simp [some, eq_comm]

theorem seatGroups_eq (seats : List Nat) (items : List LineItem) (seat lens : Nat) : seatGroups seats items seat lens =
    (List.range 12).filterMap (fun k => flashGroup? seats items seat ((lens + k) % 12)) := by
  unfold seatGroups
  congr 1
  funext k
  dsimp only
  unfold flashGroup?
  split
  · next none => rw [if_pos none]
  · next some => rw [if_neg some]

theorem mem_seatGroups : g ∈ seatGroups seats items seat lens ↔ ∃ k < 12, itemsOf seats items seat ((lens + k) % 12) ≠ [] ∧
    g = { seat := seat, lens := (lens + k) % 12, items := itemsOf seats items seat ((lens + k) % 12) } := by
  simp only [seatGroups_eq, List.mem_filterMap, List.mem_range, flashGroup?_eq_some]

/-! ### The groups of one seat -/

/-- The places of so many lenses from one on, group by group. -/
theorem flatMap_groups (seats : List Nat) (items : List LineItem) (seat lens : Nat) (l : List Nat) :
    (l.filterMap (fun k => flashGroup? seats items seat ((lens + k) % 12))).flatMap (fun g => g.items) =
      l.flatMap (fun k => itemsOf seats items seat ((lens + k) % 12)) := by
  induction l with
  | nil => rfl
  | cons k l ih =>
    rw [List.flatMap_cons, ← ih]
    by_cases none : itemsOf seats items seat ((lens + k) % 12) = []
    · simp [flashGroup?, none]
    · simp [flashGroup?, none]

/-- An item to be flashed stands once among the lenses taken from one on, as far as its own. -/
theorem count_lenses (hi : items[p]? = some i) (flashes : toFlash i) (small : i.lens < 12) (least : lens < 12) (m : Nat)
    (most : m ≤ 12) : ((List.range m).flatMap (fun k => itemsOf seats items seat ((lens + k) % 12))).count p =
      if seatOf seats i.font = seat ∧ (i.lens + 12 - lens) % 12 < m then 1 else 0 := by
  induction m with
  | zero => simp
  | succ m ih =>
    rw [List.range_succ, List.flatMap_append, List.count_append, ih (by omega), List.flatMap_cons, List.flatMap_nil,
      List.append_nil, count_itemsOf hi flashes]
    by_cases own : seatOf seats i.font = seat
    · simp only [own, true_and]
      have last : i.lens = (lens + m) % 12 ↔ (i.lens + 12 - lens) % 12 = m := by omega
      simp only [last]
      split <;> split <;> split <;> omega
    · simp [own]

theorem count_seatGroups (hi : items[p]? = some i) (flashes : toFlash i) (small : i.lens < 12) (least : lens < 12) :
    ((seatGroups seats items seat lens).flatMap (fun g => g.items)).count p =
      if seatOf seats i.font = seat then 1 else 0 := by
  rw [seatGroups_eq, flatMap_groups, count_lenses hi flashes small least 12 (Nat.le_refl _)]
  refine if_congr (and_iff_left ?_) rfl rfl
  exact Nat.mod_lt _ (by decide)

/-- The lenses of a seat come once each, in ascending number from the one they are taken from. -/
theorem seatGroups_ascend (least : lens < 12) : ((seatGroups seats items seat lens).map
    (fun g => (g.lens + 12 - lens) % 12)).Pairwise (· < ·) := by
  rw [seatGroups_eq, List.pairwise_map, List.pairwise_filterMap]
  refine List.pairwise_lt_range.imp_of_mem ?_
  intro a b ha hb lt g hg h hh
  obtain ⟨-, rfl⟩ := flashGroup?_eq_some.1 hg
  obtain ⟨-, rfl⟩ := flashGroup?_eq_some.1 hh
  have := List.mem_range.1 ha
  have := List.mem_range.1 hb
  show ((lens + a) % 12 + 12 - lens) % 12 < ((lens + b) % 12 + 12 - lens) % 12
  omega

theorem lensAfter_eq (lens : Nat) (gs : List FlashGroup) : lensAfter lens gs = gs.getLast?.elim lens (fun g => g.lens) := by
  unfold lensAfter
  cases gs.getLast? <;> rfl

theorem lensAfter_lt (least : lens < 12) : lensAfter lens (seatGroups seats items seat lens) < 12 := by
  rw [lensAfter_eq]
  cases last : (seatGroups seats items seat lens).getLast? with
  | none => exact least
  | some g =>
    obtain ⟨k, -, -, rfl⟩ := mem_seatGroups.1 (List.mem_of_getLast? last)
    exact Nat.mod_lt _ (by decide)

/-! ### The groups of the seats that follow -/

/-- How far a seat lies behind another, in ascending number modulo 8. -/
def seatTurn (t seat : Nat) : Nat := (seat + 8 - t) % 8

theorem seatTurn_of (small : t < 8) (few : j < 8) : seatTurn t ((t + j) % 8) = j := by
  unfold seatTurn
  omega

theorem groupsFrom_succ (seats : List Nat) (items : List LineItem) (n seat lens : Nat) :
    groupsFrom seats items (n + 1) seat lens = seatGroups seats items seat lens ++
      groupsFrom seats items n ((seat + 1) % 8) (lensAfter lens (seatGroups seats items seat lens)) := rfl

theorem next_seat (t j : Nat) : ((t + j) % 8 + 1) % 8 = (t + (j + 1)) % 8 := by omega

/-- Each group has items, those of its seat and lens. -/
theorem groupsFrom_items (hg : g ∈ groupsFrom seats items n seat lens) :
    g.items ≠ [] ∧ g.items = itemsOf seats items g.seat g.lens := by
  induction n generalizing seat lens with
  | zero => cases hg
  | succ n ih =>
    rw [groupsFrom_succ] at hg
    rcases List.mem_append.1 hg with own | later
    · obtain ⟨k, -, some, rfl⟩ := mem_seatGroups.1 own
      exact ⟨some, rfl⟩
    · exact ih later

theorem seatGroups_seat (hg : g ∈ seatGroups seats items seat lens) : g.seat = seat := by
  obtain ⟨k, -, -, rfl⟩ := mem_seatGroups.1 hg
  rfl

/-- The seats of the groups lie in the turn that they are taken in. -/
theorem groupsFrom_turn (small : t < 8) (few : j + n ≤ 8) (hg : g ∈ groupsFrom seats items n ((t + j) % 8) lens) :
    j ≤ seatTurn t g.seat := by
  induction n generalizing j lens with
  | zero => cases hg
  | succ n ih =>
    rw [groupsFrom_succ, next_seat] at hg
    rcases List.mem_append.1 hg with own | later
    · rw [seatGroups_seat own, seatTurn_of small (by omega)]
    · exact Nat.le_of_succ_le (ih (by omega) later)

theorem groupsFrom_seats_ascend (small : t < 8) (few : j + n ≤ 8) :
    ((groupsFrom seats items n ((t + j) % 8) lens).map (fun g => seatTurn t g.seat)).Pairwise (· ≤ ·) := by
  induction n generalizing j lens with
  | zero => exact .nil
  | succ n ih =>
    have own {g} (hg : g ∈ seatGroups seats items ((t + j) % 8) lens) : seatTurn t g.seat = j := by
      rw [seatGroups_seat hg, seatTurn_of small (by omega)]
    rw [groupsFrom_succ, next_seat, List.map_append, List.pairwise_append]
    refine ⟨?_, ih (by omega), ?_⟩
    · rw [List.pairwise_map]
      exact List.pairwise_of_forall_mem_list fun a ha b hb => by rw [own ha, own hb]
    · intro a ha b hb
      obtain ⟨g, hg, rfl⟩ := List.mem_map.1 ha
      obtain ⟨h, hh, rfl⟩ := List.mem_map.1 hb
      have later := groupsFrom_turn small (by omega) hh
      rw [own hg]
      omega

/-- An item to be flashed stands once among the seats taken from one on, as far as its own. -/
theorem count_groupsFrom (hi : items[p]? = some i) (flashes : toFlash i) (lensSmall : i.lens < 12) (least : lens < 12)
    (small : t < 8) (few : j + n ≤ 8) (seatSmall : seatOf seats i.font < 8) :
    ((groupsFrom seats items n ((t + j) % 8) lens).flatMap (fun g => g.items)).count p =
      if j ≤ seatTurn t (seatOf seats i.font) ∧ seatTurn t (seatOf seats i.font) < j + n then 1 else 0 := by
  induction n generalizing j lens with
  | zero =>
    refine (if_neg ?_).symm
    omega
  | succ n ih =>
    rw [groupsFrom_succ, next_seat, List.flatMap_append, List.count_append,
      count_seatGroups hi flashes lensSmall least, ih (lensAfter_lt least) (by omega)]
    have first : seatOf seats i.font = (t + j) % 8 ↔ seatTurn t (seatOf seats i.font) = j := by
      unfold seatTurn
      omega
    simp only [first]
    split <;> split <;> split <;> omega

/-- Nothing but items to be flashed stands in the groups. -/
theorem groupsFrom_flashes (hg : g ∈ groupsFrom seats items n seat lens) (hp : p ∈ g.items) :
    ∃ i, items[p]? = some i ∧ toFlash i ∧ seatOf seats i.font = g.seat ∧ i.lens = g.lens := by
  rw [(groupsFrom_items hg).2] at hp
  exact mem_itemsOf.1 hp

/-! ### The lenses of a seat among all groups -/

theorem groupsFrom_other_seat (small : t < 8) (few : j + 1 + n ≤ 8)
    (hg : g ∈ groupsFrom seats items n ((t + (j + 1)) % 8) lens) : g.seat ≠ (t + j) % 8 := by
  intro same
  have later := groupsFrom_turn small (by omega) hg
  rw [same, seatTurn_of small (by omega)] at later
  omega

section Front
variable {gs rest a mid b : List FlashGroup}

/-- What is of the front list's seat alone lies in the front. -/
theorem sublist_front (split : gs ++ rest = a ++ (mid ++ b)) (later : ∀ {g}, g ∈ rest → g.seat ≠ seat)
    (own : ∀ g ∈ mid, g.seat = seat) : mid.Sublist gs := by
  have all : mid.filter (fun g => g.seat == seat) = mid := List.filter_eq_self.2 fun g hg => by simpa using own g hg
  have none : rest.filter (fun g => g.seat == seat) = [] := List.filter_eq_nil_iff.2 fun g hg => by simpa using later hg
  have inner : mid.Sublist (gs ++ rest) := by
    rw [split]
    exact (List.sublist_append_left mid b).trans (List.sublist_append_right a _)
  have filtered := inner.filter (fun g => g.seat == seat)
  rw [all, List.filter_append, none, List.append_nil] at filtered
  exact filtered.trans List.filter_sublist

/-- Before what is of the front list's seat there is nothing of another. -/
theorem nothing_before (split : gs ++ rest = a ++ (mid ++ b)) (front : ∀ g ∈ gs, g.seat = seat)
    (later : ∀ {g}, g ∈ rest → g.seat ≠ seat) (before : ∀ g ∈ a, g.seat ≠ seat) (own : ∀ g ∈ mid, g.seat = seat) :
    a = [] ∨ mid = [] := by
  rcases List.append_eq_append_iff.1 split with ⟨c, -, rest_eq⟩ | ⟨c, gs_eq, -⟩
  · refine .inr (List.eq_nil_iff_forall_not_mem.2 fun g hg => later ?_ (own g hg))
    rw [rest_eq]
    exact List.mem_append_right _ (List.mem_append_left _ hg)
  · refine .inl (List.eq_nil_iff_forall_not_mem.2 fun g hg => before g hg (front g ?_))
    rw [gs_eq]
    exact List.mem_append_left _ hg

/-- What is of another seat than the front list comes behind it. -/
theorem after_front (split : gs ++ rest = a ++ (mid ++ b)) (front : ∀ g ∈ gs, g.seat ≠ seat) (own : ∀ g ∈ mid, g.seat = seat) :
    mid = [] ∨ ∃ c, a = gs ++ c ∧ rest = c ++ (mid ++ b) := by
  rcases List.append_eq_append_iff.1 split with ⟨c, a_eq, rest_eq⟩ | ⟨c, gs_eq, mid_eq⟩
  · exact .inr ⟨c, a_eq, rest_eq⟩
  · cases mid with
    | nil => exact .inl rfl
    | cons h mid =>
      cases c with
      | nil => exact .inr ⟨[], by rw [gs_eq, List.append_nil, List.append_nil], mid_eq.symm⟩
      | cons k c =>
        obtain rfl : h = k := (List.cons.inj mid_eq).1
        refine absurd (own h List.mem_cons_self) (front h ?_)
        rw [gs_eq]
        exact List.mem_append_right _ List.mem_cons_self

/-- The lens that stands before what comes behind the front list. -/
theorem getLast?_front (gs c : List FlashGroup) (lens : Nat) : (gs ++ c).getLast?.elim lens (fun g => g.lens) =
    c.getLast?.elim (lensAfter lens gs) (fun g => g.lens) := by
  rw [List.getLast?_append, lensAfter_eq]
  cases c.getLast? <;> rfl

end Front

/-- The groups of a seat, from the first, have their lenses in ascending number from the one that stands before them. -/
theorem groupsFrom_lenses_ascend (small : t < 8) (few : j + n ≤ 8) (least : lens < 12) {a mid b : List FlashGroup}
    (split : groupsFrom seats items n ((t + j) % 8) lens = a ++ mid ++ b) (before : ∀ g ∈ a, g.seat ≠ seat)
    (own : ∀ g ∈ mid, g.seat = seat) :
    (mid.map (fun g => (g.lens + 12 - a.getLast?.elim lens (fun g => g.lens)) % 12)).Pairwise (· < ·) := by
  induction n generalizing j lens a with
  | zero =>
    obtain ⟨front, -⟩ := List.append_eq_nil_iff.1 split.symm
    obtain ⟨-, rfl⟩ := List.append_eq_nil_iff.1 front
    exact .nil
  | succ n ih =>
    rw [groupsFrom_succ, next_seat, List.append_assoc] at split
    have later {g} (hg : g ∈ groupsFrom seats items n ((t + (j + 1)) % 8)
        (lensAfter lens (seatGroups seats items ((t + j) % 8) lens))) : g.seat ≠ (t + j) % 8 :=
      groupsFrom_other_seat small (by omega) hg
    generalize tail : groupsFrom seats items n _ _ = rest at split later
    by_cases first : seat = (t + j) % 8
    · subst first
      have front : mid.Sublist (seatGroups seats items ((t + j) % 8) lens) := sublist_front split later own
      have noneBefore : a = [] ∨ mid = [] := nothing_before split (fun _ => seatGroups_seat) later before own
      rcases noneBefore with rfl | rfl
      · exact ((seatGroups_ascend least).sublist (front.map _))
      · exact .nil
    · rcases after_front split (fun g hg => (seatGroups_seat hg).trans_ne (Ne.symm first)) own with rfl | ⟨c, rfl, rest_eq⟩
      · exact .nil
      · rw [getLast?_front]
        exact ih (by omega) (lensAfter_lt least) (tail.trans (rest_eq.trans (List.append_assoc ..).symm))
          fun g hg => before g (List.mem_append_right _ hg)

end Groups

end Sys2Proof.Machine
end

section
/-! PROOFS. A line's exposure: its beginning, its checks, its advance and its scan (R101, R106, R108 to R115, R123, R133, R140). -/

namespace Sys2Proof.Machine

/-! ### The scan order of a line (R112) -/

section ScanOrder
variable {e : Exposer} {r : LineRecord}

theorem scanOrder_eq (turret : e.turret.getD 0 < 8) : scanOrder e r =
    groupsFrom e.seats r.items 8 ((e.turret.getD 0 + 0) % 8) (e.lens.getD 0) := by
  rw [Nat.add_zero, Nat.mod_eq_of_lt turret]
  rfl

/-- Every item to be flashed stands in the groups once, and no other. -/
theorem scanOrder_count (seats : e.seats.length = 8) (turret : e.turret.getD 0 < 8) (lens : e.lens.getD 0 < 12)
    (lenses : ∀ i ∈ r.items, i.lens < 12) (mounted : ∀ i ∈ r.items, toFlash i → i.font ∈ e.seats) (p : Nat)
    [Decidable (∃ i, r.items[p]? = some i ∧ i.code ≠ 0x20 ∧ i.absent = false)] :
    ((scanOrder e r).flatMap (fun g => g.items)).count p =
      if ∃ i, r.items[p]? = some i ∧ i.code ≠ 0x20 ∧ i.absent = false then 1 else 0 := by
  split
  · next flashed =>
    obtain ⟨i, hi, flashes⟩ := flashed
    have member := List.mem_of_getElem? hi
    have seat : seatOf e.seats i.font < 8 := seats ▸ List.idxOf_lt_length_iff.2 (mounted i member flashes)
    rw [scanOrder_eq turret, count_groupsFrom hi flashes (lenses i member) lens turret (Nat.le_refl _) seat]
    exact if_pos ⟨Nat.zero_le _, Nat.mod_lt _ (by decide)⟩
  · next other =>
    refine List.count_eq_zero.2 fun member => other ?_
    obtain ⟨g, hg, hp⟩ := List.mem_flatMap.1 member
    obtain ⟨i, hi, flashes, -⟩ := groupsFrom_flashes hg hp
    exact ⟨i, hi, flashes⟩

/-- No lower seat has the font. -/
theorem seatOf_least (seats : List Nat) (font n : Nat) (lower : n < seatOf seats font) : seats[n]? ≠ some font := by
  intro found
  obtain ⟨within, here⟩ := List.getElem?_eq_some_iff.1 found
  have other : (seats[n] == font) = false := List.not_of_lt_findIdx (p := (· == font)) lower
  rw [here, beq_self_eq_true] at other
  cases other

/-- Each item stands in the group of its seat and its lens. -/
theorem scanOrder_places (mounted : ∀ i ∈ r.items, toFlash i → i.font ∈ e.seats) {g : FlashGroup} (hg : g ∈ scanOrder e r)
    {p : Nat} (hp : p ∈ g.items) : ∃ i, r.items[p]? = some i ∧ i.lens = g.lens ∧ e.seats[g.seat]? = some i.font ∧
      ∀ n, n < g.seat → e.seats[n]? ≠ some i.font := by
  obtain ⟨i, hi, flashes, seat, lens⟩ := groupsFrom_flashes hg hp
  refine ⟨i, hi, lens.symm ▸ rfl, ?_, ?_⟩
  · rw [← seat]
    exact List.getElem?_idxOf (mounted i (List.mem_of_getElem? hi) flashes)
  · rw [← seat]
    exact fun n => seatOf_least e.seats i.font n

end ScanOrder

/-! ### A line begins and takes its checks (R106, R108 to R110, R140) -/

section Checks
variable {s : State} {c : Exposure} {r : LineRecord}

theorem beginExposure_first (idle : s.exp.phase = .idle) (noLine : s.exp.cur = none) (noHoming : s.exp.homing = none)
    (first : s.firstUnexposed = some r) (run : s.stop.station = .run) (noStop : s.stop.record = none) : beginExposure s = some
      { s with exp := { s.exp with
        phase := .checking, mark := if s.exp.mark = some r.number then s.exp.mark else none
        cur := some { line := r.number, flashed := [], groups := [], used := [], checked := false, halt := none
                      closeGalley := false } } } := by
  unfold beginExposure
  rw [idle, noLine, noHoming, first]
  exact if_pos ⟨run, noStop⟩

theorem beginExposure_none (rests : s.exp.phase ≠ .idle ∨ s.firstUnexposed = none ∨ s.stop.station ≠ .run ∨
    s.stop.record.isSome = true) : beginExposure s = none := by
  unfold beginExposure
  split
  · next idle noLine noHoming first =>
    refine if_neg ?_
    rintro ⟨run, noStop⟩
    rcases rests with busy | noRecord | away | pending
    · exact busy idle
    · rw [noRecord] at first
      cases first
    · exact away run
    · rw [noStop] at pending
      cases pending
  · rfl

/-- A cut of the open galley waits or is in progress (R140). -/
def Film.cutPending (f : Film) : Prop :=
  (∃ q : CutRequest, (f.transport = .trailing q ∨ f.transport = .cutting q) ∧ q.asker ≠ .blank) ∨
    ∃ q : CutRequest, .cut q ∈ f.waiting ∧ q.asker ≠ .blank

theorem closing_iff (f : Film) : f.closing = true ↔ f.cutPending := by
  have waits : f.waiting.any FilmRequest.cuts = true ↔ ∃ q : CutRequest, .cut q ∈ f.waiting ∧ q.asker ≠ .blank := by
    rw [List.any_eq_true]
    constructor
    · rintro ⟨q, hq, cuts⟩
      cases q with
      | cut q => exact ⟨q, hq, by simpa [FilmRequest.cuts] using cuts⟩
      | advance => cases cuts
    · rintro ⟨q, hq, ofGalley⟩
      exact ⟨_, hq, by simpa [FilmRequest.cuts] using ofGalley⟩
  rw [Film.closing, Bool.or_eq_true, cuts_iff, waits]
  rfl

theorem holdsMark_iff (s : State) (line : Nat) : s.holdsMark line = true ↔ s.exp.mark = some line ∧ ¬ s.film.cutPending := by
  rw [State.holdsMark, Bool.and_eq_true, decide_eq_true_iff, Bool.not_eq_true', ← Bool.not_eq_true, closing_iff]

theorem missingFont_first {a b : List LineItem} {i : LineItem} (items : r.items = a ++ i :: b) (flashes : toFlash i)
    (unmounted : i.font ∉ s.exp.seats) (before : ∀ j ∈ a, toFlash j → j.font ∈ s.exp.seats) :
    missingFont s r = some i.font := by
  have found : r.items.find? (fun i => i.flashable && !s.mounted i.font) = some i := by
    rw [items]
    refine List.find?_eq_some_iff_append.2 ⟨?_, a, b, rfl, fun j hj => ?_⟩
    · simp [(flashable_iff i).2 flashes, State.mounted, unmounted]
    · cases flashable : j.flashable with
      | false => rfl
      | true => simp [State.mounted, before j hj ((flashable_iff j).1 flashable)]
  rw [missingFont, found]
  rfl

theorem missingFont_none (mounted : ∀ i ∈ r.items, toFlash i → i.font ∈ s.exp.seats) : missingFont s r = none := by
  rw [missingFont, Option.map_eq_none_iff, List.find?_eq_none]
  intro i hi missing
  obtain ⟨flashable, unmounted⟩ := Bool.and_eq_true_iff.1 missing
  simp [State.mounted, mounted i hi ((flashable_iff i).1 flashable)] at unmounted

/-- A line that has passed its checks (R108, R109). -/
def linePassed (s : State) (c : Exposure) : State := { s with exp := { s.exp with cur := some { c with checked := true } } }

theorem checkLine_again (exposed : exposing s c r) (checked : c.checked = true) : checkLine s = none := by
  unfold checkLine
  rw [exposed.1, exposed_of exposed]
  split
  · next hc _ =>
    cases hc
    exact if_pos checked
  · rfl

theorem checkLine_font {f : Nat} (checking : s.exp.phase = .checking) (exposed : exposing s c r) (unchecked : c.checked = false)
    (missing : missingFont s r = some f) : checkLine s = some (raiseStop (endExposure s) .fontCall (some f) none) := by
  simp only [checkLine, checking, exposed.1, exposed_of exposed, unchecked, missing, Bool.false_eq_true, if_false]

/-- With its fonts mounted, a line without the advanced mark takes the film check and the manifest check (R109). -/
theorem checkLine_mounted (checking : s.exp.phase = .checking) (exposed : exposing s c r) (unchecked : c.checked = false)
    (mounted : missingFont s r = none) : checkLine s =
      if s.holdsMark c.line then some (linePassed s c)
      else if s.film.checks r.leading = false then some (raiseStop (endExposure s) .filmOut none none)
      else if s.film.manifestFull then some (raiseStop (endExposure s) .takeupFull none none)
      else some (linePassed s c) := by
  have passed : modCur s (fun c => { c with checked := true }) = linePassed s c := by
    simp only [modCur, modExp, exposed.1, Option.map_some, linePassed]
  simp only [checkLine, checking, exposed.1, exposed_of exposed, unchecked, mounted, passed, Bool.false_eq_true, if_false]

end Checks

/-! ### A line passed goes on (R110, R111) -/

section Goes
variable {s : State} {c : Exposure} {r : LineRecord}

/-- The line asks for its advance (R111). -/
def advanceAsked (s : State) (c : Exposure) (r : LineRecord) : State :=
  { s with
    exp := { s.exp with phase := .advancing }
    film := { s.film with waiting := s.film.waiting ++ [.advance c.line r.leading] } }

theorem any_flashable (r : LineRecord) : r.items.any LineItem.flashable = true ↔ ∃ i ∈ r.items, toFlash i := by
  simp only [List.any_eq_true, flashable_iff]

theorem goLine_unchecked (exposed : exposing s c r) (unchecked : c.checked = false) : goLine s = none := by
  unfold goLine
  rw [exposed.1, exposed_of exposed]
  split
  · next hc _ =>
    cases hc
    exact if_neg (by rw [unchecked]; exact nofun)
  · rfl

theorem goLine_warms (checking : s.exp.phase = .checking) (exposed : exposing s c r) (checked : c.checked = true)
    (flashes : ∃ i ∈ r.items, toFlash i) (off : s.lamp.phase = .off) : goLine s = some (warmUp s) := by
  simp only [goLine, checking, exposed.1, exposed_of exposed, checked, (any_flashable r).2 flashes, off, and_self, if_true]

theorem goLine_waits (checking : s.exp.phase = .checking) (exposed : exposing s c r) (checked : c.checked = true)
    (flashes : ∃ i ∈ r.items, toFlash i) (warming : s.lamp.phase = .warming) : goLine s = none := by
  simp [goLine, checking, exposed.1, exposed_of exposed, checked, (any_flashable r).2 flashes, warming]

/-- A line with nothing to wait for meets an open door, or goes to its scanner or its advance (R110, R111). -/
theorem goLine_goes (checking : s.exp.phase = .checking) (exposed : exposing s c r) (checked : c.checked = true)
    (free : ¬ (∃ i ∈ r.items, toFlash i) ∨ s.lamp.phase = .ready) : goLine s =
      if s.pins.photoOpen then some (raiseStop (endExposure s) .door none (some .photo))
      else if s.holdsMark c.line then some (startScan s)
      else some (advanceAsked s c r) := by
  have notOff : ¬ (r.items.any LineItem.flashable ∧ s.lamp.phase = .off) := fun ⟨flashes, off⟩ =>
    free.elim (· ((any_flashable r).1 flashes)) fun ready => by rw [ready] at off; cases off
  have notWarming : ¬ (r.items.any LineItem.flashable ∧ s.lamp.phase = .warming) := fun ⟨flashes, warming⟩ =>
    free.elim (· ((any_flashable r).1 flashes)) fun ready => by rw [ready] at warming; cases warming
  simp only [goLine, checking, exposed.1, exposed_of exposed, checked, if_true, if_neg notOff, if_neg notWarming]
  rfl

end Goes

/-! ### The scanner (R112 to R115) -/

section Scan
variable {s : State} {c : Exposure} {r : LineRecord} {g : FlashGroup} {gs : List FlashGroup} {i : Nat} {is : List Nat} {x : LineItem}

theorem scanStep_elsewhere (elsewhere : s.exp.phase ≠ .scanning) : scanStep s = none := by
  unfold scanStep
  split
  · next scanning _ _ => exact absurd scanning elsewhere
  · rfl

theorem scanStep_halted (exposed : exposing s c r) (busy : c.halt.isSome = true ∨ s.exp.flash.isSome = true) :
    scanStep s = none := by
  unfold scanStep
  rw [exposed.1, exposed_of exposed]
  split
  · next hc _ =>
    cases hc
    exact if_pos busy
  · rfl

/-- The scanner with nothing in the way of its next step. -/
structure Scans (s : State) (c : Exposure) (r : LineRecord) : Prop where
  scanning : s.exp.phase = .scanning
  exposed : exposing s c r
  free : ¬ (c.halt.isSome = true ∨ s.exp.flash.isSome = true)

theorem scanStep_ends (h : Scans s c r) (done : c.groups = []) : scanStep s = some (lineExposed s c) := by
  simp only [scanStep, h.scanning, h.exposed.1, exposed_of h.exposed, if_neg h.free, done]

theorem scanStep_passes (h : Scans s c r) (front : c.groups = g :: gs) (empty : g.items = []) : scanStep s =
    some { s with exp := { s.exp with
      cur := some { c with groups := gs, used := if g.seat ∈ c.used then c.used else c.used ++ [g.seat] } } } := by
  simp only [scanStep, h.scanning, h.exposed.1, exposed_of h.exposed, if_neg h.free, front, empty, modCur, modExp,
    Option.map_some, List.contains_iff_mem]

/-- The step to the item in front (R113). -/
theorem scanStep_item (h : Scans s c r) (front : c.groups = g :: gs) (items : g.items = i :: is) (hx : r.items[i]? = some x) :
    scanStep s =
      if s.exp.turretMove = none ∧ s.exp.turret ≠ some g.seat then
        some (modExp s (fun e => { e with turretMove := some g.seat }))
      else if s.exp.lensMove = none ∧ s.exp.lens ≠ some g.lens then
        some (modExp s (fun e => { e with lensMove := some g.lens }))
      else if s.exp.turretMove ≠ none ∨ s.exp.lensMove ≠ none ∨ s.exp.carriageMove ≠ none then none
      else if s.exp.carriage ≠ some (stepOf x.x) then some (modExp s (fun e => { e with carriageMove := some (stepOf x.x) }))
      else if s.lamp.phase = .ready then
        some (modExp s (fun e => { e with flash := some { item := i, duration := s.lamp.duration g.lens } }))
      else none := by
  simp only [scanStep, h.scanning, h.exposed.1, exposed_of h.exposed, if_neg h.free, front, items, hx, Option.elim_some]

theorem duration_eq {l : Lamp} {lens base : Nat} (hb : l.bases[lens]? = some base) :
    l.duration lens = max 20 (min 1000 ((base * l.c + 512) / 1024)) := by
  rw [Lamp.duration, hb, Option.getD_some, clamp]

end Scan

/-- Settles O55: the scan order by its groups, the checks and the advance of a line by what stands against it, and the scanner's
steps by where its mechanisms stand. -/
theorem scannerTakesEachItemOnce : Obligations.ScannerTakesEachItemOnce := by
  refine ⟨fun e r seats turret lens lenses mounted => ?order,
    ⟨by simp [reactions], by simp [reactions], by simp [reactions], fun s => ⟨fun r => beginExposure_first, beginExposure_none⟩,
      fun s c r checking exposed => ?line⟩,
    by simp [reactions], fun s => scanStep_elsewhere, fun s c r scanning exposed => ⟨scanStep_halted exposed,
      fun unhalted noFlash => ?scans⟩⟩
  case order =>
    have turretSmall : e.turret.getD 0 < 8 := by
      cases known : e.turret with
      | none => decide
      | some n => exact turret n known
    have lensSmall : e.lens.getD 0 < 12 := by
      cases known : e.lens with
      | none => decide
      | some n => exact lens n known
    have placed : ∀ i ∈ r.items, toFlash i → i.font ∈ e.seats := fun i hi flashes => mounted i hi flashes.1 flashes.2
    intro groups
    have order : groups = _ := scanOrder_eq (r := r) turretSmall
    refine ⟨fun p => scanOrder_count seats turretSmall lensSmall lenses placed p, fun g hg => ?_, ?_, fun a mid b seat split before own => ?_⟩
    · obtain ⟨some, items⟩ := groupsFrom_items hg
      exact ⟨some, items ▸ itemsOf_ascending .., fun p hp => scanOrder_places placed hg hp⟩
    · rw [order]
      exact groupsFrom_seats_ascend turretSmall (Nat.le_refl _)
    · exact groupsFrom_lenses_ascend turretSmall (Nat.le_refl _) lensSmall (order.symm.trans split) before own
  case line =>
    intro fontsMounted passes flashes closing holds
    have stops (kind : StopKind) (font : Option Nat) (door : Option Door) : let t := raiseStop (endExposure s) kind font door
        endsWithStop s t r kind font door ∧ t.film = s.film :=
      ⟨endExposure_stops s r kind font door, (raiseStop_leaves (endExposure s) kind font door).2.2⟩
    refine ⟨fun unchecked => ⟨fun a i b items flashed unmounted before => ?font, fun mounted held => ?held,
        fun mounted unheld short => ?short, fun mounted unheld enough => ?enough⟩, fun checked => ?goes,
      goLine_unchecked exposed⟩
    case font =>
      exact ⟨_, checkLine_font checking exposed unchecked (missingFont_first items flashed unmounted before), stops ..⟩
    case goes =>
      refine ⟨checkLine_again exposed checked, fun flashed off => ?warms, goLine_waits checking exposed checked, fun free => ?free⟩
      case warms =>
        refine (goLine_warms checking exposed checked flashed off).trans (congrArg some ?_)
        rw [warmUp, off]
      case free =>
        have goes := goLine_goes checking exposed checked free
        refine ⟨fun door => ⟨_, goes.trans (if_pos door), stops ..⟩, fun shut held => ?_, fun shut unheld => ?_⟩
        all_goals rw [shut, if_neg nofun] at goes
        · exact goes.trans ((if_pos ((holdsMark_iff s c.line).2 held)).trans (congrArg some (startScan_exposing exposed)))
        · exact goes.trans (if_neg fun held => unheld ((holdsMark_iff s c.line).1 held))
    case held =>
      have goes := checkLine_mounted checking exposed unchecked (missingFont_none mounted)
      exact goes.trans (if_pos ((holdsMark_iff s c.line).2 held))
    case short =>
      have goes := checkLine_mounted checking exposed unchecked (missingFont_none mounted)
      rw [if_neg fun held => unheld ((holdsMark_iff s c.line).1 held)] at goes
      exact ⟨_, goes.trans (if_pos (decide_eq_false (Nat.not_le.2 short))), stops ..⟩
    case enough =>
      have goes := checkLine_mounted checking exposed unchecked (missingFont_none mounted)
      rw [if_neg fun held => unheld ((holdsMark_iff s c.line).1 held), if_neg (checks_of_le enough)] at goes
      refine ⟨fun noGalley full => ⟨_, goes.trans (if_pos ((manifestFull_iff s.film).2 ⟨noGalley, full⟩)), stops ..⟩,
        fun room => goes.trans (if_neg fun full => ?_)⟩
      obtain ⟨noGalley, full⟩ := (manifestFull_iff s.film).1 full
      refine room.elim (fun isOpen => ?_) fun few => absurd full (Nat.not_le.2 few)
      simp [noGalley] at isOpen
  case scans =>
    have h : Scans s c r := ⟨scanning, exposed, fun busy => busy.elim (fun halted => by simp [unhalted] at halted)
      fun flash => by simp [noFlash] at flash⟩
    refine ⟨scanStep_ends h, fun g gs front => ⟨scanStep_passes h front, fun i is x items hx => ?_⟩⟩
    intro step
    have steps := scanStep_item h front items hx
    refine ⟨fun still away => steps.trans (if_pos ⟨still, away⟩), fun turret => ?_⟩
    have placed : ¬ (s.exp.turretMove = none ∧ s.exp.turret ≠ some g.seat) := fun ⟨still, away⟩ =>
      turret.elim (fun moves => by simp [still] at moves) away
    rw [if_neg placed] at steps
    refine ⟨fun still away => steps.trans (if_pos ⟨still, away⟩), fun lens => ?_⟩
    have focused : ¬ (s.exp.lensMove = none ∧ s.exp.lens ≠ some g.lens) := fun ⟨still, away⟩ =>
      lens.elim (fun moves => by simp [still] at moves) away
    rw [if_neg focused] at steps
    refine ⟨fun moves => steps.trans (if_pos ?_), fun noTurret noLens noCarriage => ?_⟩
    · simpa only [← Option.isSome_iff_ne_none] using moves
    rw [if_neg (by simp [noTurret, noLens, noCarriage])] at steps
    refine ⟨fun away => steps.trans (if_pos away), fun here ready base hb => ?_, fun here notReady => ?_⟩
    all_goals rw [if_neg (show ¬ s.exp.carriage ≠ some (stepOf x.x) from not_not_intro here)] at steps
    · rw [if_pos ready, duration_eq hb] at steps
      exact steps
    · exact steps.trans (if_neg notReady)

end Sys2Proof.Machine
end

section
/-! PROOFS. The preamble of a copy: its entries examined, kept and counted, and an end of copy within it (R1, R3, R4). -/

namespace Sys2Proof.Machine

section Preamble
variable {kept : List ExceptionEntry} {e : List Nat × List Nat} {es : List (List Nat × List Nat)}

/-- An entry has the form R3 asks, and its folded word is not kept already. -/
def entryIsNew (kept : List ExceptionEntry) (e : List Nat × List Nat) : Prop :=
  2 ≤ e.1.length ∧ e.1.length ≤ 24 ∧ (∀ c ∈ e.1, isLetter c = true) ∧ e.2.length + 1 ≤ e.1.length ∧
    (∀ p ∈ e.2, 1 ≤ p ∧ p + 1 ≤ e.1.length) ∧ ∀ k ∈ kept, k.word ≠ e.1.map fold

theorem entryOf_none_iff (kept : List ExceptionEntry) (w : List Nat) :
    (entryOf kept w).isNone = true ↔ ∀ k ∈ kept, k.word ≠ w := by
  simp [entryOf]

/-- The entries kept with one more, where it is kept (R3, R4). -/
def keptWith (kept : List ExceptionEntry) (e : List Nat × List Nat) : List ExceptionEntry :=
  match preambleEntry kept e.1 e.2 with
  | some k => kept ++ [k]
  | none => kept

theorem preambleEntry_new (new : entryIsNew kept e) :
    preambleEntry kept e.1 e.2 = some (newEntry e.1 e.2) := by
  obtain ⟨two, most, letters, few, positions, other⟩ := new
  have one : 1 ≤ e.1.length := Nat.le_of_succ_le two
  exact if_pos ⟨two, most, List.all_eq_true.2 letters, (positionsOk_iff one).2 ⟨few, positions⟩,
    (entryOf_none_iff _ _).2 other⟩

theorem preambleEntry_bad (bad : ¬ entryIsNew kept e) : preambleEntry kept e.1 e.2 = none := by
  refine if_neg ?_
  rintro ⟨two, most, letters, positions, other⟩
  obtain ⟨few, inside⟩ := (positionsOk_iff (Nat.le_of_succ_le two)).1 positions
  exact bad ⟨two, most, List.all_eq_true.1 letters, few, inside, (entryOf_none_iff _ _).1 other⟩

/-- The entries kept of a list, in the words of R3. -/
theorem keptEntries_eq (es : List (List Nat × List Nat)) : keptEntries es = es.foldl keptWith [] := by
  unfold keptEntries
  congr 1
  funext kept e
  by_cases new : entryIsNew kept e
  · exact (if_pos new).trans (by rw [keptWith, preambleEntry_new new]; rfl)
  · exact (if_neg new).trans (by rw [keptWith, preambleEntry_bad new])

/-- An entry examined is kept or is one copy error (R3). -/
theorem keptWith_length (kept : List ExceptionEntry) (e : List Nat × List Nat) :
    (keptWith kept e).length = kept.length + if (preambleEntry kept e.1 e.2).isSome then 1 else 0 := by
  unfold keptWith
  cases preambleEntry kept e.1 e.2 <;> simp

/-- The copy errors that an entry counts by its place (R3). -/
def entryErrors (index : Nat) (kept : List ExceptionEntry) (e : List Nat × List Nat) : Nat :=
  if index < 16 then (if (preambleEntry kept e.1 e.2).isSome then 0 else 1) else if index = 16 then 1 else 0

/-- The entries kept after an entry by its place (R3). -/
def keptAt (index : Nat) (kept : List ExceptionEntry) (e : List Nat × List Nat) : List ExceptionEntry :=
  if index < 16 then keptWith kept e else kept

/-- An entry whose bytes are all there is read to its end (R3). -/
theorem readEntries_entry (len left index at' errors : Nat) (more : List Nat) (kept : List ExceptionEntry)
    (e : List Nat × List Nat) : readEntries len (left + 1) index at' (entryBytes e ++ more) kept errors =
      readEntries len left (index + 1) (at' + (2 + e.1.length + e.2.length)) more (keptAt index kept e)
        (errors + entryErrors index kept e) := by
  obtain ⟨letters, positions⟩ := e
  have bytes : entryBytes (letters, positions) ++ more =
      letters.length :: (letters ++ positions.length :: (positions ++ more)) := by simp [entryBytes]
  have whole : ¬ (positions ++ more).length < positions.length := by simp
  have next : at' + 2 + letters.length + positions.length = at' + (2 + letters.length + positions.length) := by omega
  rw [bytes]
  simp only [readEntries, List.drop_left, List.take_left, if_neg whole, next, keptAt, entryErrors, keptWith,
    Config.maxLocalExceptions]
  by_cases examined : index < 16
  · have notLast : index ≠ 16 := Nat.ne_of_lt examined
    cases preambleEntry kept letters positions <;> simp [examined, notLast]
  · by_cases last : index = 16 <;> simp [examined, last]

/-- The entries that a list leaves kept, and the errors that it counts, from a place on (R3). -/
def keptFrom : (index : Nat) → List ExceptionEntry → List (List Nat × List Nat) → List ExceptionEntry
  | _, kept, [] => kept
  | index, kept, e :: es => keptFrom (index + 1) (keptAt index kept e) es

def errorsFrom : (index : Nat) → List ExceptionEntry → List (List Nat × List Nat) → Nat
  | _, _, [] => 0
  | index, kept, e :: es => entryErrors index kept e + errorsFrom (index + 1) (keptAt index kept e) es

/-- The entries declared are read to their ends, one by one (R3). -/
theorem readEntries_entries (len left : Nat) (tail : List Nat) (index at' errors : Nat) (kept : List ExceptionEntry)
    (es : List (List Nat × List Nat)) :
    readEntries len (es.length + left) index at' (es.flatMap entryBytes ++ tail) kept errors =
      readEntries len left (index + es.length) (at' + (es.map (fun e => 2 + e.1.length + e.2.length)).sum) tail
        (keptFrom index kept es) (errors + errorsFrom index kept es) := by
  induction es generalizing index at' errors kept with
  | nil => simp [keptFrom, errorsFrom]
  | cons e es ih =>
    have many : (e :: es).length + left = es.length + left + 1 := by
      rw [List.length_cons]
      omega
    have place : index + 1 + es.length = index + (e :: es).length := by
      rw [List.length_cons]
      omega
    rw [many, List.flatMap_cons, List.append_assoc, readEntries_entry, ih, place, List.map_cons, List.sum_cons, Nat.add_assoc at',
      Nat.add_assoc errors]
    rfl

/-- Of the entries from a place on, those up to the sixteenth are kept where they may be (R3). -/
theorem keptFrom_eq (index : Nat) (kept : List ExceptionEntry) (es : List (List Nat × List Nat)) :
    keptFrom index kept es = (es.take (16 - index)).foldl keptWith kept := by
  induction es generalizing index kept with
  | nil => simp [keptFrom]
  | cons e es ih =>
    rw [keptFrom, ih]
    by_cases examined : index < 16
    · have left : 16 - index = 16 - (index + 1) + 1 := by omega
      rw [left, List.take_succ_cons, List.foldl_cons, keptAt, if_pos examined]
    · have none : 16 - index = 0 := by omega
      have none' : 16 - (index + 1) = 0 := by omega
      rw [none, none', keptAt, if_neg examined]
      rfl

theorem entryErrors_add (index : Nat) (kept : List ExceptionEntry) (e : List Nat × List Nat) :
    entryErrors index kept e + (keptAt index kept e).length = kept.length + if index ≤ 16 then 1 else 0 := by
  by_cases examined : index < 16
  · have upTo : index ≤ 16 := Nat.le_of_lt examined
    simp only [entryErrors, keptAt, if_pos examined, if_pos upTo, keptWith_length]
    split <;> omega
  · simp only [entryErrors, keptAt, if_neg examined]
    split <;> split <;> omega

/-- Each entry examined is kept or an error, and one error more is counted for all after the sixteenth (R3). -/
theorem errorsFrom_add (index : Nat) (kept : List ExceptionEntry) (es : List (List Nat × List Nat)) :
    errorsFrom index kept es + (keptFrom index kept es).length =
      kept.length + min es.length (16 - index) + if index ≤ 16 ∧ 16 < index + es.length then 1 else 0 := by
  induction es generalizing index kept with
  | nil =>
    have none : ¬ (index ≤ 16 ∧ 16 < index + 0) := by omega
    simp only [errorsFrom, keptFrom, List.length_nil, if_neg none]
    omega
  | cons e es ih =>
    have first := entryErrors_add index kept e
    have rest := ih (index + 1) (keptAt index kept e)
    rw [errorsFrom, keptFrom, List.length_cons]
    revert first rest
    split <;> split <;> split <;> omega

/-- A preamble whose entries stand whole before the end of copy (R1, R3, R4). -/
theorem readPreamble_whole (es : List (List Nat × List Nat)) (text : List Nat) :
    readPreamble (es.length :: es.flatMap entryBytes ++ text) =
      { entries := keptFrom 0 [] es, length := 1 + (es.map (fun e => 2 + e.1.length + e.2.length)).sum
        errors := errorsFrom 0 [] es } := by
  have read := readEntries_entries (es.length :: es.flatMap entryBytes ++ text).length 0 text 0 1 0 [] es
  rw [Nat.add_zero, Nat.zero_add (errorsFrom ..)] at read
  exact read

/-- An entry cut short by the end of copy ends the preamble there, as one error (R3, Log 52). -/
theorem readEntries_cut {tail : List Nat} (cut : cutShort tail) (len left index at' errors : Nat) (kept : List ExceptionEntry) :
    readEntries len (left + 1) index at' tail kept errors =
      { entries := kept, length := len, errors := errors + if index ≤ 16 then 1 else 0 } := by
  have counted : (if decide (index < 16) = true then (if index = 16 then errors + 1 else errors) + 1
      else if index = 16 then errors + 1 else errors) = errors + if index ≤ 16 then 1 else 0 := by
    simp only [decide_eq_true_eq]
    split <;> split <;> split <;> omega
  unfold readEntries
  dsimp only
  split
  · exact congrArg (Preamble.mk kept len) counted
  · next l rest =>
    split
    · exact congrArg (Preamble.mk kept len) counted
    · next p after behind =>
      have place : rest[l]? = some p := by
        rw [← List.head?_drop, behind]
        rfl
      have lengths := congrArg List.length behind
      rw [List.length_drop, List.length_cons] at lengths
      have short := cut l rest rfl p place
      have ends : after.length < p := by omega
      exact (if_pos ends).trans (congrArg (Preamble.mk kept len) counted)

/-- A preamble that runs past the end of copy (R3, Log 52). -/
theorem readPreamble_cut {n : Nat} {tail : List Nat} (es : List (List Nat × List Nat)) (more : es.length < n)
    (cut : cutShort tail) : readPreamble (n :: es.flatMap entryBytes ++ tail) =
      { entries := keptFrom 0 [] es, length := (n :: es.flatMap entryBytes ++ tail).length
        errors := errorsFrom 0 [] es + if es.length ≤ 16 then 1 else 0 } := by
  obtain ⟨left, rfl⟩ : ∃ left, n = es.length + (left + 1) := ⟨n - es.length - 1, by omega⟩
  have read := readEntries_entries ((es.length + (left + 1)) :: es.flatMap entryBytes ++ tail).length (left + 1) tail 0 1 0 [] es
  rw [readEntries_cut cut, Nat.zero_add, Nat.zero_add] at read
  exact read

theorem keptFrom_start (es : List (List Nat × List Nat)) : keptFrom 0 [] es = keptEntries (es.take 16) := by
  rw [keptFrom_eq, keptEntries_eq]

end Preamble

end Sys2Proof.Machine
end

section
/-! PROOFS. The fonts of a claimed take in the Width Cache, once each: pinned, given a slot or an evicted one, and asked for
(R21, R23, R25, R171, R174). -/

namespace Sys2Proof.Machine

/-! ### Fonts claimed (R23, R25) -/

section Fonts
variable {s : State} {font i : Nat} {sl : Slot}

/-- The Line Interface with an ask made (R25, R171). -/
def LineInterface.asked (l : LineInterface) (font : Nat) : LineInterface :=
  if l.mute = true then
    { l with watches := l.watches.filter (fun w => w.subject ≠ .font font) ++ [{ subject := .font font, slots := 520 }] }
  else if l.queue.length + l.waiting.length < 8 then { l with queue := insertFrame (.widthAsk font) l.queue }
  else { l with waiting := l.waiting ++ [.widthAsk font] }

theorem ask_eq (s : State) (font : Nat) : ask s font = { s with line := s.line.asked font } := by
  unfold ask LineInterface.asked
  split
  · rfl
  · rcases putFrame_cases s (.widthAsk font) with ⟨full, e⟩ | ⟨room, e⟩
    · have taken : ¬ s.line.queue.length + s.line.waiting.length < 8 := Nat.not_lt.2 (of_decide_eq_true full)
      rw [e, if_neg taken]
    · have free : s.line.queue.length + s.line.waiting.length < 8 := Nat.lt_of_not_le (of_decide_eq_false room)
      rw [e, if_pos free]

theorem asked_windows (l : LineInterface) (font : Nat) : (l.asked font).windows = l.windows := by
  unfold LineInterface.asked
  split
  · rfl
  · split <;> rfl

/-- The WIDTH-ASK is queued, or waits for room (R171). -/
theorem asked_unmuted {l : LineInterface} (unmuted : l.mute = false) (font : Nat) :
    { frame := .widthAsk font, begun := false } ∈ (l.asked font).queue ∨ .widthAsk font ∈ (l.asked font).waiting := by
  have free : ¬ l.mute = true := by
    rw [unmuted]
    exact nofun
  unfold LineInterface.asked
  rw [if_neg free]
  split
  · exact .inl (mem_insertFrame _ _)
  · exact .inr (List.mem_append_right _ (List.mem_singleton_self _))

/-- The slots with one pin more for a font (R21). -/
def WidthCache.pinnedFor (w : WidthCache) (font : Nat) : WidthCache :=
  { w with slots := w.slots.map (fun sl => if sl.font == some font then { sl with pins := sl.pins + 1 } else sl) }

theorem slotOf_pinnedFor (w : WidthCache) (font f : Nat) : (w.pinnedFor font).slotOf f = w.slotOf f := by
  unfold WidthCache.slotOf WidthCache.pinnedFor
  rw [List.findIdx?_map]
  congr 1
  funext sl
  simp only [Function.comp_apply]
  split <;> rfl

theorem pinnedFor_slot {w : WidthCache} (own : w.slotOf font = some i) (hi : w.slots[i]? = some sl) :
    (w.pinnedFor font).slots[i]? = some { sl with pins := sl.pins + 1 } := by
  obtain ⟨u, hu, ofFont⟩ := slotOf_some own
  obtain rfl : sl = u := Option.some.inj (hi.symm.trans hu)
  simp [WidthCache.pinnedFor, hi, ofFont]

theorem reAskFont_at (own : s.width.slotOf font = some i) (hi : s.width.slots[i]? = some sl) : reAskFont s font =
    if sl.state = .empty then ask { s with width := s.width.setSlot i { sl with state := .asking } } font else s := by
  simp only [reAskFont, own, hi]

/-- The font's slot gains its pin, and a held empty one is asked for again (R23). -/
theorem claimFont_slot (own : s.width.slotOf font = some i) (hi : s.width.slots[i]? = some sl) : claimFont s font =
    if sl.state = .empty then
      ask { s with width := (s.width.pinnedFor font).setSlot i { sl with state := .asking, pins := sl.pins + 1 } } font
    else { s with width := s.width.pinnedFor font } := by
  have own' : ({ s with width := s.width.pinnedFor font } : State).width.slotOf font = some i :=
    (slotOf_pinnedFor ..).trans own
  have claims : claimFont s font = reAskFont { s with width := s.width.pinnedFor font } font := by
    unfold claimFont
    rw [own]
    rfl
  exact claims.trans (reAskFont_at own' (pinnedFor_slot own hi))

/-- The slot of a font newly claimed (R23). -/
def newSlot (font : Nat) : Slot := { state := .asking, font := some font, pins := 1 }

theorem claimFont_free (noSlot : s.width.slotOf font = none) (free : s.width.freeSlot? = some i) :
    claimFont s font = ask { s with width := s.width.setSlot i (newSlot font) } font := by
  unfold claimFont
  rw [noSlot, free]
  rfl

theorem claimFont_evicts {old : Nat} (noSlot : s.width.slotOf font = none) (noFree : s.width.freeSlot? = none)
    (victim : s.width.victim? = some i) (hi : s.width.slots[i]? = some sl) (ofOld : sl.font = some old) :
    claimFont s font = ask { cancelWindows s (WindowFor.isAnswerFor old) with
      width := (s.width.dropUse i).setSlot i (newSlot font) } font := by
  have ofIt : s.width.slots[i]?.bind (fun u => u.font) = some old := by
    rw [hi]
    exact ofOld
  simp only [claimFont, noSlot, noFree, victim, ofIt]
  rfl

/-- The slot without pins nearest the least-recent end of the use list (R23). -/
theorem victim?_first {w : WidthCache} {a b : List Nat} (use : w.useList = a ++ i :: b) (hi : w.slots[i]? = some sl)
    (unpinned : sl.pins = 0) (before : ∀ j ∈ a, ∀ y, w.slots[j]? = some y → y.pins ≠ 0) : w.victim? = some i := by
  rw [WidthCache.victim?, use]
  refine List.find?_eq_some_iff_append.2 ⟨by simp [hi, unpinned], a, b, rfl, fun j hj => ?_⟩
  cases hy : w.slots[j]? with
  | none => rfl
  | some y => simpa using before j hj y hy

theorem dropUse_first {w : WidthCache} {a b : List Nat} (use : w.useList = a ++ i :: b) (hi : w.slots[i]? = some sl)
    (unpinned : sl.pins = 0) (before : ∀ j ∈ a, ∀ y, w.slots[j]? = some y → y.pins ≠ 0) :
    w.dropUse i = { w with useList := a ++ b } := by
  have notBefore : i ∉ a := fun member => before i member sl hi unpinned
  rw [WidthCache.dropUse, use, List.erase_append_right _ notBefore, List.erase_cons_head]

end Fonts

/-! ### The fonts of a take, once each (R23) -/

section FontList

theorem distinct_sublist (l : List Nat) : (distinct l).Sublist l := by
  have grows (acc : List Nat) : ∃ m : List Nat,
      l.foldl (fun acc x => if acc.contains x then acc else acc ++ [x]) acc = acc ++ m ∧ m.Sublist l := by
    induction l generalizing acc with
    | nil => exact ⟨[], (List.append_nil _).symm, .refl _⟩
    | cons x l ih =>
      rw [List.foldl_cons]
      split
      · obtain ⟨m, e, sub⟩ := ih acc
        exact ⟨m, e, sub.cons x⟩
      · obtain ⟨m, e, sub⟩ := ih (acc ++ [x])
        exact ⟨x :: m, by rw [e, List.append_assoc]; rfl, sub.cons_cons x⟩
  obtain ⟨m, e, sub⟩ := grows []
  rw [distinct, e]
  exact sub

theorem distinct_count (l : List Nat) (f : Nat) : (distinct l).count f = if f ∈ l then 1 else 0 := by
  rw [(distinct_nodup l).count]
  exact if_congr mem_distinct rfl rfl

end FontList

end Sys2Proof.Machine
end

section
/-! PROOFS. The station's CLAIM sent wins the take, and its TAKEN sent queues it (R23, R182, R183, R185, R204). -/

namespace Sys2Proof.Machine

/-! ### What the fonts claimed leave as it was (R23) -/

section Fonts
variable {s t : State}

/-- Only the cache and the Line Interface change as a font is claimed. -/
theorem claimFont_frame (s : State) (font : Nat) : { claimFont s font with line := s.line, width := s.width } = s := by
  have asks (u : State) : { ask u font with line := s.line, width := s.width } =
      ({ u with line := s.line, width := s.width } : State) :=
    congrArg (fun v : State => { v with line := s.line, width := s.width }) (ask_eq u font)
  unfold claimFont
  split
  · exact congrArg (fun v : State => { v with line := s.line, width := s.width }) (reAskFont_frame _ font)
  · split
    · exact asks _
    · split
      · refine (asks _).trans ?_
        split <;> rfl
      · rfl

/-- What the cache becomes as a font is claimed depends on the cache alone. -/
theorem claimFont_width_congr (same : s.width = t.width) (font : Nat) :
    (claimFont s font).width = (claimFont t font).width := by
  unfold claimFont
  rw [same]
  split
  · simp only [reAskFont]
    split
    · split
      · split <;> simp only [ask_width]
      · rfl
    · rfl
  · split
    · simp only [ask_width]
    · split
      · simp only [ask_width]
        split <;> simp only [cancelWindows_width, same]
      · exact same

theorem claimFonts_width_congr (same : s.width = t.width) (fonts : List Nat) :
    (claimFonts s fonts).width = (claimFonts t fonts).width := by
  unfold claimFonts
  induction distinct fonts generalizing s t with
  | nil => exact same
  | cons font _ ih => exact ih (claimFont_width_congr same font)

theorem claimFonts_stop (s : State) (fonts : List Nat) : (claimFonts s fonts).stop = s.stop := by
  unfold claimFonts
  induction distinct fonts generalizing s with
  | nil => rfl
  | cons font _ ih => exact (ih _).trans (congrArg State.stop (claimFont_frame s font) :)

theorem claimFonts_windows {w : Window} {fonts : List Nat} (left : w ∈ (claimFonts s fonts).line.windows) :
    ∃ v ∈ s.line.windows, v.what = w.what := by
  obtain ⟨-, -, ⟨p, g, windows, same⟩, -⟩ := claimFonts_same s fonts
  rw [windows] at left
  obtain ⟨v, hv, rfl⟩ := List.mem_map.1 left
  exact ⟨v, (List.mem_filter.1 hv).1, (same v).1.symm⟩

end Fonts

/-! ### A take's record made, and the claim windows tested again (R24, R182, R183, R204) -/

section Won
variable {s : State} {sender : Nat} {m : OfferMsg}

/-- The record of a take won in this state (R183). -/
def State.wonTake (s : State) (sender : Nat) (m : OfferMsg) : Take :=
  { newTake sender m (s.freeBlocks.take (blocksFor m.copyLen)) with release := s.standingMark }

theorem standingMark_eq (s : State) : s.standingMark =
    if s.stop.station = .fault then some .fault else if s.stop.station = .halt then some .halt else none := by
  unfold State.standingMark
  cases s.stop.station <;> rfl

/-- A take becomes widths-ready once every font of its list has a VALID slot (R24). -/
def Take.withWidths (w : WidthCache) (y : Take) : Take :=
  { y with widthsReady := y.widthsReady || y.fonts.all (fun f => w.isValid f) }

/-- The lamp warmed and a station in STANDBY woken, with the takes widths-ready that are (R24, R183, R204). -/
def claimWakes (u : State) : State := wake (warmUp (markReady u))

theorem claimWakes_awake {u : State} (awake : u.stop.station ≠ .standby) :
    claimWakes u = { markReady u with lamp := u.lamp.asked } := by
  rw [claimWakes, warmUp_eq]
  exact wake_awake (s := { markReady u with lamp := _ }) awake

theorem claimWakes_asleep {u : State} (asleep : u.stop.station = .standby) :
    claimWakes u = { enterRun { markReady u with lamp := u.lamp.asked } with lamp := u.lamp.asked.asked } := by
  rw [claimWakes, warmUp_eq]
  exact wake_standby (s := { markReady u with lamp := _ }) asleep

theorem claimWakes_frame (u : State) : (claimWakes u).line = u.line ∧ (claimWakes u).width = u.width ∧
    (claimWakes u).stop = { u.stop with station := if u.stop.station = .standby then .run else u.stop.station } := by
  by_cases asleep : u.stop.station = .standby
  · rw [claimWakes_asleep asleep, if_pos asleep]
    exact ⟨rfl, rfl, rfl⟩
  · rw [claimWakes_awake asleep, if_neg asleep]
    exact ⟨rfl, rfl, rfl⟩

/-- Each take stands in its place, widths-ready where it is so, and but for a STRANDED one at a wake as it was (R24). -/
theorem claimWakes_takes (u : State) : ∃ g : Take → Take, (claimWakes u).takes = u.takes.map g ∧
    (∀ y, (g y).key = y.key) ∧
    ∀ y, y.state ≠ .stranded ∨ u.stop.station ≠ .standby → g y = y.withWidths u.width := by
  by_cases asleep : u.stop.station = .standby
  · rw [claimWakes_asleep asleep, enterRun_takes]
    refine ⟨_, List.map_map, fun y => examined_key _ _, fun y quiet => examined_stays (.inl ?_)⟩
    exact quiet.resolve_right (not_not.2 asleep)
  · rw [claimWakes_awake asleep]
    exact ⟨_, rfl, fun _ => rfl, fun _ _ => rfl⟩

/-- With no frame begun, the claim windows left are those whose offers meet the test (R182, R183). -/
theorem retested_mayBid {v : State} (none : NoneBegun v) {w : Window} {a c : Nat} {n : OfferMsg}
    (left : w ∈ (cancelWindows v (WindowFor.fails v)).line.windows) (claim : w.what = .claim a n c) :
    mayBid (cancelWindows v (WindowFor.fails v)) n := by
  obtain ⟨-, stays⟩ := (mem_cancelWindows_fails v w).1 left
  have notBegun : v.line.windowBegun w = false :=
    List.any_eq_false.2 fun e he => by simp [none e he]
  by_contra bids
  exact stays ⟨notBegun, a, n, c, claim, bids⟩

/-- The state in which a take is won, its fonts claimed and the station awake. -/
def State.won (s : State) (sender : Nat) (m : OfferMsg) : State :=
  claimWakes (claimFonts { s with takes := s.takes ++ [s.wonTake sender m] } m.fonts)

/-- The state as the other claim windows have been tested again in it (R182). -/
def State.wonTested (s : State) (sender : Nat) (m : OfferMsg) : State :=
  cancelWindows (s.won sender m) (WindowFor.fails (s.won sender m))

theorem claimWon_eq (s : State) (sender : Nat) (m : OfferMsg) : claimWon s sender m = s.wonTested sender m := rfl

theorem won_width (s : State) (sender : Nat) (m : OfferMsg) :
    (s.won sender m).width = (claimFonts s m.fonts).width :=
  (claimWakes_frame _).2.1.trans
    (claimFonts_width_congr (s := { s with takes := s.takes ++ [s.wonTake sender m] }) (t := s) rfl m.fonts)

theorem won_stop (s : State) (sender : Nat) (m : OfferMsg) : (s.won sender m).stop =
    { s.stop with station := if s.stop.station = .standby then .run else s.stop.station } := by
  have same : (claimFonts { s with takes := s.takes ++ [s.wonTake sender m] } m.fonts).stop = s.stop := claimFonts_stop _ _
  rw [State.won, (claimWakes_frame _).2.2, same]

theorem won_takes (s : State) (sender : Nat) (m : OfferMsg) : ∃ g : Take → Take,
    (s.won sender m).takes = s.takes.map g ++ [(s.wonTake sender m).withWidths (s.won sender m).width] ∧
    (∀ y, (g y).key = y.key) ∧
    ∀ y, y.state ≠ .stranded ∨ s.stop.station ≠ .standby → g y = y.withWidths (s.won sender m).width := by
  have stop : (claimFonts { s with takes := s.takes ++ [s.wonTake sender m] } m.fonts).stop = s.stop := claimFonts_stop _ _
  obtain ⟨takes, -⟩ := claimFonts_same { s with takes := s.takes ++ [s.wonTake sender m] } m.fonts
  have width : (s.won sender m).width =
      (claimFonts { s with takes := s.takes ++ [s.wonTake sender m] } m.fonts).width := (claimWakes_frame _).2.1
  obtain ⟨g, are, keys, same⟩ := claimWakes_takes (claimFonts { s with takes := s.takes ++ [s.wonTake sender m] } m.fonts)
  rw [stop, ← width] at same
  refine ⟨g, ?_, keys, same⟩
  have new : g (s.wonTake sender m) = _ := same _ (.inl (show TakeState.receiving ≠ .stranded from nofun))
  rw [State.won, are, takes, List.map_append, List.map_singleton, new, ← State.won]

theorem won_noneBegun (none : NoneBegun s) : NoneBegun (s.won sender m) := by
  obtain ⟨-, -, -, kept⟩ := claimFonts_same { s with takes := s.takes ++ [s.wonTake sender m] } m.fonts
  unfold NoneBegun State.won
  rw [(claimWakes_frame _).1]
  exact kept none

theorem won_windows {w : Window} (left : w ∈ (s.won sender m).line.windows) : ∃ v ∈ s.line.windows, v.what = w.what := by
  rw [State.won, (claimWakes_frame _).1] at left
  exact claimFonts_windows (s := { s with takes := s.takes ++ [s.wonTake sender m] }) left

end Won

/-! ### The CLAIM's frame ends (R174, R183) -/

section ClaimFrame
variable {s : State} {q : List TxEntry} {m : OfferMsg} {sender cost : Nat} {w : Window}

/-- The state as the CLAIM at the head has left the queue, its window ended with it (R174). -/
def State.claimGone (s : State) (q : List TxEntry) (c : Instr) (k : Key) : State :=
  endWindow { s with line := frameGone s.line q c } (WindowFor.isClaimFor k)

theorem claimEnds_own (own : s.line.windows.find? (fun v => v.what.isClaimFor m.key) = some w)
    (claim : w.what = .claim sender m cost) (e : FrameEnd) : claimEnds s m.key e =
      if e = .sent then (endWindow s (WindowFor.isClaimFor m.key)).wonTested sender m
      else endWindow s (WindowFor.isClaimFor m.key) := by
  obtain ⟨what, slots, queued⟩ := w
  obtain rfl : what = .claim sender m cost := claim
  unfold claimEnds
  rw [own, ← claimWon_eq]

theorem claimGone_noneBegun (rest : ∀ e ∈ q, e.begun = false) (c : Instr) (k : Key) : NoneBegun (s.claimGone q c k) := rest

theorem claimGone_windows {c : Instr} {k : Key} {v : Window} (left : v ∈ (s.claimGone q c k).line.windows) :
    v.what.isClaimFor k = false :=
  Bool.not_eq_true' _ ▸ (List.mem_filter.1 left).2

end ClaimFrame

/-! ### The TAKEN sent (R185, R188, R204) -/

section Taken
variable {s : State} {x : Take}

/-- A take QUEUED with the preamble read (R1, R185). -/
def Take.readIn (y : Take) (p : Preamble) : Take :=
  { y with preLen := p.length, preErrors := min 255 p.errors, exceptions := p.entries }

/-- The state as the take is QUEUED with its preamble, before the station wakes. -/
def State.takenIn (s : State) (k : Key) (p : Preamble) : State :=
  { s with takes := s.takes.map (fun y => if y.key == k then (y.readIn p).queued else y) }

theorem takenSent_wakes (own : s.take? x.key = some x) (receiving : x.state = .receiving) :
    takenSent s x.key = wake (s.takenIn x.key (readPreamble (copyBytes s x))) := by
  unfold takenSent
  rw [own]
  refine (if_pos receiving).trans (congrArg (fun l => wake { s with takes := l }) ?_)
  refine List.map_map.trans (List.map_congr_left fun y _ => ?_)
  simp only [Function.comp_apply]
  split <;> rfl

theorem Lamp.asked_phase (l : Lamp) : l.asked.phase = if l.phase = .off then .warming else l.phase := by
  unfold Lamp.asked
  cases l.phase <;> rfl

theorem takenIn_asleep (asleep : s.stop.station = .standby) (k : Key) (p : Preamble) :
    (wake (s.takenIn k p)).stop = { s.stop with station := .run } ∧ (wake (s.takenIn k p)).lamp = s.lamp.asked ∧
      (wake (s.takenIn k p)).line = s.line ∧ ∃ v : State, v.stop = { s.stop with station := .run } ∧ v.width = s.width ∧
        (wake (s.takenIn k p)).takes =
          s.takes.map (fun y => examined v (if y.key == k then (y.readIn p).queued else y)) := by
  rw [wake_standby (s := s.takenIn k p) asleep]
  refine ⟨rfl, rfl, rfl, _, ?stop, ?width, (enterRun_takes _).trans (List.map_map (g := examined _))⟩
  case stop => rfl
  case width => rfl

end Taken

/-- Settles O27: the CLAIM sent by the state it leaves, each font claimed by its slot, the TAKEN sent by whether the station
wakes, and the preamble by whether its entries stand whole. -/
theorem claimAndTakenSentAct : Obligations.ClaimAndTakenSentAct := by
  refine ⟨fun s q m sender cost w sending head rest own claim => ⟨?won, ?broken⟩,
    ⟨fun s fonts => ⟨distinct fonts, rfl, distinct_sublist fonts, distinct_count fonts⟩, fun s font => ?font⟩,
    fun s q x dest sending head rest own receiving => ?taken, fun es => ?preamble⟩
  case won =>
    have sent := exec_frame_ends (c := .frameSent) (by simp) sending head rest
    have wins := claimEnds_own (s := { s with line := frameGone s.line q .frameSent }) own claim .sent
    have width : ((s.claimGone q .frameSent m.key).won sender m).width = (claimFonts s m.fonts).width :=
      (won_width _ sender m).trans (claimFonts_width_congr (s := s.claimGone q .frameSent m.key) (t := s) rfl m.fonts)
    have left {v : Window} (member : v ∈ ((s.claimGone q .frameSent m.key).wonTested sender m).line.windows) :
        v ∈ ((s.claimGone q .frameSent m.key).won sender m).line.windows := ((mem_cancelWindows_fails _ v).1 member).1
    obtain ⟨g, takes, keys, same⟩ := won_takes (s.claimGone q .frameSent m.key) sender m
    have takes : ((s.claimGone q .frameSent m.key).wonTested sender m).takes = _ := takes
    refine ⟨(s.claimGone q .frameSent m.key).wonTested sender m,
      ((s.claimGone q .frameSent m.key).wonTake sender m).withWidths ((s.claimGone q .frameSent m.key).won sender m).width,
      sent.trans (congrArg done wins), ?keys, ?last, rfl, rfl, rfl, rfl, rfl, rfl, rfl, rfl, rfl, rfl, rfl, rfl,
      standingMark_eq s, width, Bool.false_or _, fun i y z hy hz quiet => ?place, List.all_eq_true.2 fun v member => ?ended,
      fun v member a n c bid => retested_mayBid (won_noneBegun (claimGone_noneBegun rest _ _)) member bid,
      won_stop _ sender m⟩
    case keys =>
      rw [takes, List.map_append, List.map_map]
      exact congrArg (· ++ [m.key]) (List.map_congr_left fun y _ => keys y)
    case last =>
      rw [takes]
      exact List.getLast?_concat
    case place =>
      have inside : i < s.takes.length := (List.getElem?_eq_some_iff.1 hy).1
      have at' : (s.takes.map g)[i]? = some z := by
        rw [← hz, takes]
        exact (List.getElem?_append_left (by rwa [List.length_map])).symm
      rw [List.getElem?_map, hy] at at'
      exact (Option.some.inj at').symm.trans (same y quiet)
    case ended =>
      obtain ⟨u, hu, what⟩ := won_windows (left member)
      rw [← what, claimGone_windows hu]
      rfl
  case broken =>
    have aborted := exec_frame_ends (c := .frameAborted) (by simp) sending head rest
    have ends := claimEnds_own (s := { s with line := frameGone s.line q .frameAborted }) own claim .broken
    exact ⟨_, aborted.trans (congrArg done ends), rfl, rfl⟩
  case font =>
    refine ⟨fun i sl here hi filled => ?pinned, fun i sl here hi empty => ?again, fun i absent free => ?free,
      fun a i b sl old absent noFree use hi unpinned ofOld before => ?evicted⟩
    case pinned => exact (claimFont_slot here hi).trans (if_neg filled)
    case again => exact ((claimFont_slot here hi).trans (if_pos empty)).trans (ask_eq _ font)
    case free => exact (claimFont_free absent free).trans (ask_eq _ font)
    case evicted =>
      have evicts := (claimFont_evicts absent noFree (victim?_first use hi unpinned before) hi ofOld).trans (ask_eq _ font)
      rw [dropUse_first use hi unpinned before] at evicts
      rw [evicts]
      refine ⟨rfl, ?windows, fun unmuted => asked_unmuted (l := (cancelWindows s _).line) unmuted font, fun none => ?same, rfl⟩
      case windows => exact (asked_windows _ font).trans (cancelWindows_windows s _)
      case same =>
        have kept : cancelWindows s (WindowFor.isAnswerFor old) = s :=
          cancelWindows_eq_self fun w hw named => absurd named (by simp [none w hw])
        have line : (cancelWindows s (WindowFor.isAnswerFor old)).line = s.line := congrArg State.line kept
        exact congrArg (fun l : LineInterface => l.asked font) line
  case taken =>
    have sent := exec_frame_ends (c := .frameSent) (by simp) sending head rest
    have queues : takenSent { s with line := frameGone s.line q .frameSent } x.key =
        wake (State.takenIn { s with line := frameGone s.line q .frameSent } x.key (readPreamble (copyBytes s x))) :=
      takenSent_wakes (s := { s with line := frameGone s.line q .frameSent }) own receiving
    refine ⟨fun awake => ?awake, fun asleep => ?asleep⟩
    case awake =>
      have stays := wake_awake (s := State.takenIn { s with line := frameGone s.line q .frameSent } x.key
        (readPreamble (copyBytes s x))) awake
      exact sent.trans (congrArg done (queues.trans stays))
    case asleep =>
      obtain ⟨stop, lamp, line, v, run, width, takes⟩ := takenIn_asleep
        (s := { s with line := frameGone s.line q .frameSent }) asleep x.key (readPreamble (copyBytes s x))
      refine ⟨_, sent.trans (congrArg done queues), stop, lamp.trans ?warms, line, ?count, fun i y z hy hz => ?place⟩
      case warms => exact congrArg (fun phase => { s.lamp with phase := phase }) s.lamp.asked_phase
      case count => exact (congrArg List.length takes).trans (List.length_map _)
      case place =>
        have examines : z = examined v (if y.key == x.key then
            (y.readIn (readPreamble (copyBytes s x))).queued else y) := by
          have at' : (wake _).takes[i]? = some z := hz
          rw [takes, List.getElem?_map, hy] at at'
          exact (Option.some.inj at').symm
        have reason : strandReasonGone v y = strandReasonGone { s with stop := { s.stop with station := .run } } y := by
          unfold strandReasonGone
          rw [run, width]
        refine ⟨fun same => ?own, fun other => ⟨fun stranded gone => ?back, fun stays => ?stays⟩⟩
        case own =>
          rw [examines, if_pos (beq_iff_eq.2 same)]
          exact examined_stays (.inl (show TakeState.queued ≠ .stranded from nofun))
        case back =>
          rw [examines, if_neg (by simpa using other), examined_returned stranded (by rw [reason]; exact gone)]
          exact congrArg (fun w : WidthCache => returned { s with width := w } y) width
        case stays =>
          rw [examines, if_neg (by simpa using other), examined_stays (by rw [reason]; exact stays)]
  case preamble =>
    have examined := errorsFrom_add 0 [] es
    rw [keptFrom_start, List.length_nil] at examined
    refine ⟨fun text => ?whole, fun n tail more cut => ?cut⟩
    case whole =>
      rw [readPreamble_whole, keptFrom_start, List.length_take]
      refine ⟨rfl, rfl, examined.trans ?_⟩
      simp only [Nat.zero_le, true_and, Nat.zero_add, Nat.sub_zero, Nat.min_comm]
    case cut =>
      rw [readPreamble_cut es more cut, keptFrom_start, List.length_take]
      refine ⟨rfl, rfl, ?_⟩
      dsimp only
      revert examined
      simp only [Nat.zero_le, true_and]
      split <;> split <;> omega

end Sys2Proof.Machine
end
